-- ==== Sys2Proof/Word.lean ====
section
/-!
DEFINITION. The words of the Borsioth (spec 00 R1, 06 R119, R133): bytes, 32-bit registers and instruction words, 64-bit pairs
and addresses, and the 1,024-bit contents of a 128-byte line.
-/
namespace Sys2Proof

/-- One byte; byte 0 of a value lies at its lowest address (R1). -/
abbrev Byte := BitVec 8

/-- A 32-bit register or instruction word. -/
abbrev Word := BitVec 32

/-- A 64-bit pair, virtual address or control register. -/
abbrev Dword := BitVec 64

/-- The 128 bytes of a cache line (R79), byte i at bits [8i+7:8i]. -/
abbrev LineData := BitVec 1024

end Sys2Proof
end

