-- ==== Sys2Proof/Config.lean ====
section
/-!
DEFINITION. What the implementation fixes and the spec leaves open, as constants without a body: nothing can prove a value of
them. Log entries 2, 6, 14 and 15 name them.
-/
namespace Sys2Proof

/-- A free choice (R3): the n-th draw of a value the spec leaves open (log 2). The state's counter `draws` numbers them. -/
opaque Config.freeNat : Nat → Nat

/-- A free word, of any width the reader cuts it to (log 2). -/
opaque Config.freeWord : Nat → BitVec 1024

/-- A walk's free choices, by draws taken, address and level: whether it uses a kept pointer entry (R315), and which entry of a group
of unlike entries it translates by (R313). -/
opaque Config.walkPick : Nat → BitVec 64 → Nat → Nat

/-- What a DRAM line encrypted under one key material decrypts to under another (R355, R356, R360): the two materials, the line
and its plaintext under the first (log 6). -/
opaque Config.wrongKeyLine : Nat → Nat → Nat → LineData → LineData

/-- SHAKE256 truncated to 512 bits (R358, R359, R361), on a list of bytes: its definition is outside the spec (log 14). -/
opaque Config.shake512 : List Byte → BitVec 512

/-- Falcon-1024 verification of signature over message under a public key (R361). -/
opaque Config.falconVerify : List Byte → List Byte → List Byte → Bool

/-- Falcon-1024 signature over a message by a key derived from a seed (R358, R359). -/
opaque Config.falconSign : List Byte → List Byte → List Byte

/-- The Falcon-1024 public key derived from a seed (R358). -/
opaque Config.falconPublic : List Byte → List Byte

/-- The ML-KEM-1024 encapsulation key of the n-th reset, and the shared secret a ciphertext gives (R358). -/
opaque Config.mlkemEncapKey : List Byte → List Byte

/-- The shared secret that a ciphertext of SESSION gives (R358). -/
opaque Config.mlkemDecap : List Byte → List Byte → List Byte

/-- AES-KW unwrapping under the session's wrapping key: none when the integrity check fails (R357). -/
opaque Config.aesUnwrap : BitVec 256 → List Byte → Option (List Byte)

/-- Fuse values: the seed of the identity key, the manufacturer certificate, KEYHASH, SVNMIN and the ROM and fuse measurements
(R358, R359, R361). -/
opaque Config.fuseSeed : List Byte

/-- The manufacturer certificate of the identity key (R358). -/
opaque Config.mfrCert : List Byte

/-- The hash of the firmware signer's public key (R361). -/
opaque Config.keyHash : BitVec 512

/-- The least security version that boots (R361). -/
opaque Config.svnMin : BitVec 32

/-- The boot ROM measurement (R359). -/
opaque Config.romMeasurement : BitVec 512

/-- The fuse configuration measurement (R359). -/
opaque Config.fuseMeasurement : BitVec 512

/-- The node id firmware gives the presented device whose lowest physical die is d (R350). -/
opaque Config.nodeId : Nat → BitVec 10

/-- Which context of another presented device of the package a packet for an address reaches, as a number to count off: the spec gives
a packet no field for it (R14, R298). -/
opaque Config.peerCtx : BitVec 10 → Nat → Nat → Nat

/-- The port over which firmware routes packets for a line of a node (R351). -/
opaque Config.portOf : BitVec 10 → Nat → Nat

/-- The operands of a security command (R357). -/
structure SmOperands where
  ctx : BitVec 10
  nonce : BitVec 256
  /-- the output address, in ALL8 -/
  out : BitVec 39
  slot : Nat
  owner : BitVec 10
  nohost : Bool
  node : BitVec 10
  enc : Bool
  /-- wrapped key bytes -/
  wrapped : List Byte
  deriving DecidableEq, Repr, Inhabited

/-- Where the operands lie in a command block beside OP: the spec does not say (log 21). -/
opaque Config.smOperands : BitVec 2048 → SmOperands

/-- The alias certificate: the alias public key signed by the identity key's seed (R358). -/
opaque Config.aliasCert : List Byte → List Byte → List Byte

/-- KEYM's serialisation and hash of slot numbers, owners and NOHOST bits (R359). -/
opaque Config.keyMeasure : List (Nat × Nat × Bool) → BitVec 512

/-- Whether the switches on the path to a node can reduce (R245). -/
opaque Config.switchReduces : BitVec 10 → Bool

end Sys2Proof
end

