-- ==== Sys2Proof/Syntax.lean ====
section
/-!
DEFINITION. The abstract syntax of every row of spec/opcode_table.json: the 195 rows of the main instruction set (spec 06 R119
to R138, 07, 08, 09, 15 to 17), the 26 Aqiuf instructions (10 R259 to R264) and the 79 steps of the device that no word encodes
(95). Operand shapes are records, so that each constructor carries one argument. A code the spec reserves has no value here.
-/
namespace Sys2Proof

/-! ## Shared parts of the main instruction set -/

/-- The four lengths of R119: base, extended, base plus literal, extended plus literal. -/
inductive Form where
  | base | ext | lit | extLit
  deriving DecidableEq, Repr

/-- The guard of R126: predicate number (15 is p15, no guard) and negation. -/
structure Guard where
  pr : BitVec 4
  pn : Bool
  deriving DecidableEq, Repr

/-- Length form, guard and lookahead of a BA instruction (R119, R123, R126, R130). -/
structure Hdr where
  form : Form
  guard : Guard
  la : BitVec 4
  deriving DecidableEq, Repr

/-- Guard and lookahead of an instruction that exists only in extended forms (R127). -/
structure XHdr where
  guard : Guard
  la : BitVec 4
  deriving DecidableEq, Repr

/-- A control or system instruction's form: base, or extended with a guard (R127). -/
structure CHdr where
  ext : Bool
  guard : Guard
  deriving DecidableEq, Repr

/-- The B operand: a register, IMM32 (IB = 1) or LIT64 (R125). -/
inductive SrcB where
  | reg (n : BitVec 7)
  | imm (v : BitVec 32)
  | lit (v : BitVec 64)
  deriving DecidableEq, Repr

/-- The C operand of BFI, BYSEL and FSHR: a register or IMM32 (R149). -/
inductive SrcC where
  | reg (n : BitVec 7)
  | imm (v : BitVec 32)
  deriving DecidableEq, Repr

/-- A scalar register or IMM32, as SLEEP, SETSR and BCAST take (R162, R171, R174). -/
inductive SrcS where
  | reg (n : BitVec 6)
  | imm (v : BitVec 32)
  deriving DecidableEq, Repr

/-- The data operand of a store or atomic: vector registers, or the literal (R175). -/
inductive SrcV where
  | reg (n : BitVec 7)
  | lit (v : BitVec 64)
  deriving DecidableEq, Repr

/-- Rounding codes of R46. -/
inductive Rm where
  | rne | rn | rz | ru | rd | rdyn
  deriving DecidableEq, Repr

/-! ## Arithmetic operand shapes (R145) -/

/-- `OP D, A`. -/
structure DA where
  h : Hdr
  u : Bool
  d : BitVec 7
  a : BitVec 7
  deriving DecidableEq, Repr

/-- `OP D, A, B/imm`. -/
structure DAB where
  h : Hdr
  u : Bool
  d : BitVec 7
  a : BitVec 7
  b : SrcB
  deriving DecidableEq, Repr

/-- `OP D, A, B/imm, C`. -/
structure DABC where
  h : Hdr
  u : Bool
  d : BitVec 7
  a : BitVec 7
  b : SrcB
  c : BitVec 7
  deriving DecidableEq, Repr

/-- `OP D, A, B, C/imm` (R149). -/
structure DABCi where
  h : Hdr
  u : Bool
  d : BitVec 7
  a : BitVec 7
  b : BitVec 7
  c : SrcC
  deriving DecidableEq, Repr

/-- `OP{.round} D, A`. -/
structure DAR where
  h : Hdr
  u : Bool
  d : BitVec 7
  a : BitVec 7
  rm : Rm
  deriving DecidableEq, Repr

/-- `OP{.round} D, A, B/imm`. -/
structure DABR where
  h : Hdr
  u : Bool
  d : BitVec 7
  a : BitVec 7
  b : SrcB
  rm : Rm
  deriving DecidableEq, Repr

/-- `OP{.round} D, A, B/imm, C`. -/
structure DABCR where
  h : Hdr
  u : Bool
  d : BitVec 7
  a : BitVec 7
  b : SrcB
  c : BitVec 7
  rm : Rm
  deriving DecidableEq, Repr

/-- A conversion with a half selector (`.h1`, R158). -/
structure DAHalf where
  h : Hdr
  u : Bool
  d : BitVec 7
  a : BitVec 7
  rm : Rm
  half : Bool
  deriving DecidableEq, Repr

/-- A conversion with a byte selector (`.b0` to `.b3`, R158). -/
structure DAByte where
  h : Hdr
  u : Bool
  d : BitVec 7
  a : BitVec 7
  rm : Rm
  byte : BitVec 2
  deriving DecidableEq, Repr

/-- Conditions of ICMPS and ICMPU (R150). -/
inductive ICond where
  | eq | ne | lt | le | gt | ge
  deriving DecidableEq, Repr

/-- Conditions of ICMP64: equality, or an ordered comparison that is signed or unsigned (R150). -/
inductive ICond64 where
  | eq | ne
  | lt (unsigned : Bool) | le (unsigned : Bool) | gt (unsigned : Bool) | ge (unsigned : Bool)
  deriving DecidableEq, Repr

/-- Conditions of FCMP (R154). -/
inductive FCond where
  | eq | ne | lt | le | gt | ge | un | or
  deriving DecidableEq, Repr

/-- `ICMPx.cc pD, A, B/imm`. -/
structure ICmp where
  h : Hdr
  u : Bool
  pd : BitVec 4
  a : BitVec 7
  b : SrcB
  cc : ICond
  deriving DecidableEq, Repr

/-- `ICMP64.cc pD, A, B/imm`. -/
structure ICmp64 where
  h : Hdr
  u : Bool
  pd : BitVec 4
  a : BitVec 7
  b : SrcB
  cc : ICond64
  deriving DecidableEq, Repr

/-- `FCMP.cc pD, A, B/imm`. -/
structure FCmp where
  h : Hdr
  u : Bool
  pd : BitVec 4
  a : BitVec 7
  b : SrcB
  cc : FCond
  deriving DecidableEq, Repr

/-- `SEL D, A, B/imm, pC` (R151). -/
structure Sel where
  h : Hdr
  u : Bool
  d : BitVec 7
  a : BitVec 7
  b : SrcB
  pc : BitVec 4
  deriving DecidableEq, Repr

/-- `PLOP pD, pA, pB, pC, t` (R151). -/
structure Plop where
  h : Hdr
  pd : BitVec 4
  pa : BitVec 4
  pb : BitVec 4
  pc : BitVec 4
  t : BitVec 8
  deriving DecidableEq, Repr

/-- The three modes of PMOV (R151). -/
inductive PmovMode where
  | copy (pd pa : BitVec 4)
  | get (vd : BitVec 7)
  | set (va : BitVec 7)
  deriving DecidableEq, Repr

/-- `PMOV`. -/
structure Pmov where
  h : Hdr
  m : PmovMode
  deriving DecidableEq, Repr

/-- `LEA D pair, A pair, B, k` (R152); `scalarA` is MOD[8]. -/
structure Lea where
  h : Hdr
  u : Bool
  d : BitVec 7
  a : BitVec 7
  b : BitVec 7
  k : BitVec 3
  sx : Bool
  scalarA : Bool
  deriving DecidableEq, Repr

/-- The four forms of MOV (R152). -/
inductive MovMode where
  | vv (d a : BitVec 7)
  | ss (d a : BitVec 6)
  | vs (d : BitVec 7) (a : BitVec 6)
  | sv (d : BitVec 6) (a : BitVec 7)
  deriving DecidableEq, Repr

/-- `MOV`. -/
structure Mov where
  h : Hdr
  m : MovMode
  deriving DecidableEq, Repr

/-- The immediate of MOVI: 14 bits in the base form, IMM32 in the extended form (R152). -/
inductive MoviImm where
  | short (v : BitVec 14)
  | long (v : BitVec 32)
  deriving DecidableEq, Repr

/-- `MOVI D, imm`. -/
structure Movi where
  h : Hdr
  u : Bool
  d : BitVec 7
  imm : MoviImm
  deriving DecidableEq, Repr

/-- `MOVL D pair, imm`, literal forms only. -/
structure Movl where
  h : Hdr
  u : Bool
  d : BitVec 7
  imm : BitVec 64
  deriving DecidableEq, Repr

/-- The special registers of R134. -/
inductive SReg where
  | laneid | sliceid | crewid | blkid | nblk | cluid | clurank | spanid | dieid | coreid | gridid
  | scrbase | clock | reftime | hyp | hxh | pend | emask | evwhich | evdata | fflags | frm | regent | regctr
  deriving DecidableEq, Repr

/-- `MOVSR D, name`. -/
structure Movsr where
  h : Hdr
  u : Bool
  d : BitVec 7
  sr : SReg
  deriving DecidableEq, Repr

/-- Targets of QUANT (R159). -/
inductive QTarget where
  | e4m3 | e5m2 | s4
  deriving DecidableEq, Repr

/-- `QUANT.t D, A, sC`. -/
structure Quant where
  h : Hdr
  d : BitVec 7
  a : BitVec 7
  sc : BitVec 6
  t : QTarget
  deriving DecidableEq, Repr

/-! ## Lane operand shapes (R161 to R167) -/

/-- `SHFLx vD, vA, vB/imm`. -/
structure Shfl where
  h : Hdr
  d : BitVec 7
  a : BitVec 7
  b : SrcB
  deriving DecidableEq, Repr

/-- `BCAST vD, vA, sB or imm`; a literal is the same immediate (R125). -/
inductive SrcSL where
  | reg (n : BitVec 6)
  | imm (v : BitVec 32)
  | lit (v : BitVec 64)
  deriving DecidableEq, Repr

/-- `BCAST`. -/
structure Bcast where
  h : Hdr
  d : BitVec 7
  a : BitVec 7
  b : SrcSL
  deriving DecidableEq, Repr

/-- The two forms of BALLOT (R163). -/
inductive BallotSrc where
  | pred (pa : BitVec 4)
  | bit (va : BitVec 7) (b : SrcB)
  deriving DecidableEq, Repr

/-- `BALLOT`; with `u` the mask goes to a scalar. -/
structure Ballot where
  h : Hdr
  u : Bool
  d : BitVec 7
  src : BallotSrc
  deriving DecidableEq, Repr

/-- Modes of VOTE (R163). -/
inductive VoteMode where
  | all | any | uni
  deriving DecidableEq, Repr

/-- `VOTE.m pD, pA`. -/
structure Vote where
  h : Hdr
  pd : BitVec 4
  pa : BitVec 4
  m : VoteMode
  deriving DecidableEq, Repr

/-- Fold operations of R164. -/
inductive FoldOp where
  | iadd | fadd | imins | iminu | imaxs | imaxu | and | or | xor | fmin | fmax
  deriving DecidableEq, Repr

/-- `SCAN.op D, A`. -/
structure Scan where
  h : Hdr
  d : BitVec 7
  a : BitVec 7
  op : FoldOp
  excl : Bool
  rm : Rm
  deriving DecidableEq, Repr

/-- `REDUX.op D, A`. -/
structure Redux where
  h : Hdr
  u : Bool
  d : BitVec 7
  a : BitVec 7
  op : FoldOp
  rm : Rm
  deriving DecidableEq, Repr

/-- `MATCH{.w64} vD, vA`. -/
structure MatchOp where
  h : Hdr
  d : BitVec 7
  a : BitVec 7
  w64 : Bool
  deriving DecidableEq, Repr

/-- Element formats of SPCOMP (R166). -/
inductive SpFmt where
  | e4m3 | e5m2 | int8 | s4 | bf16
  deriving DecidableEq, Repr

/-- Group patterns 2:4, 4:8 and 16:32. -/
inductive SpPat where
  | p24 | p48 | p1632
  deriving DecidableEq, Repr

/-- `SPCOMP.f`, `SPEXP.f D, A, M`. -/
structure Sp where
  h : Hdr
  d : BitVec 7
  a : BitVec 7
  f : SpFmt
  m : SpPat
  deriving DecidableEq, Repr

/-- `SWZ4 D, A, pattern`. -/
structure Swz where
  h : Hdr
  d : BitVec 7
  a : BitVec 7
  pat : BitVec 8
  deriving DecidableEq, Repr

/-- `LSORT{.s} D pair, A`. -/
structure Lsort where
  h : Hdr
  d : BitVec 7
  a : BitVec 7
  signed : Bool
  deriving DecidableEq, Repr

/-! ## Control shapes (R168 to R174) -/

/-- A BJ word: condition predicate, negation and signed word offset (R122). -/
structure Bj where
  pr : BitVec 4
  pn : Bool
  off : BitVec 17
  deriving DecidableEq, Repr

/-- `BRX A pair`. -/
structure Brx where
  h : CHdr
  u : Bool
  a : BitVec 7
  deriving DecidableEq, Repr

/-- `RET sA pair`. -/
structure Ret where
  h : CHdr
  a : BitVec 6
  deriving DecidableEq, Repr

/-- `SLEEP sB or imm`. -/
structure Sleep where
  h : CHdr
  d : SrcS
  deriving DecidableEq, Repr

/-- `TRAP code`. -/
structure TrapOp where
  h : CHdr
  code : BitVec 14
  deriving DecidableEq, Repr

/-- `SETPRIO v`. -/
structure SetPrio where
  h : CHdr
  v : Bool
  deriving DecidableEq, Repr

/-- The writable special registers (R134, R174). -/
inductive WReg where
  | emask | fflags | frm
  deriving DecidableEq, Repr

/-- `SETSR name, sB or imm`. -/
structure SetSr where
  h : CHdr
  r : WReg
  b : SrcS
  deriving DecidableEq, Repr

/-! ## Memory shapes (R175) -/

/-- Scopes of R87. -/
inductive Scope where
  | dev | crew | blk | clu | die | sys
  deriving DecidableEq, Repr

/-- Orders of atomics and compare-and-swap. -/
inductive Ord4 where
  | rlx | acq | rel | ar
  deriving DecidableEq, Repr

/-- Orders of FENCE as encoded (R185): `dflt` is ORD 0b000. -/
inductive FenceOrd where
  | dflt | acq | rel | ar | sc
  deriving DecidableEq, Repr

/-- Address fields: `u` makes A a scalar pair, `off` is IMM32 (R121, R176). -/
structure Ea where
  u : Bool
  a : BitVec 7
  off : BitVec 32
  deriving DecidableEq, Repr

/-- LD8 and LD16: with sign extension. -/
structure LdS where
  h : XHdr
  d : BitVec 7
  ea : Ea
  acq : Bool
  scope : Scope
  s : Bool
  deriving DecidableEq, Repr

/-- LD32, LD64 and LD128. -/
structure Ld where
  h : XHdr
  d : BitVec 7
  ea : Ea
  acq : Bool
  scope : Scope
  deriving DecidableEq, Repr

/-- Size codes of LDNA, LDL and STL (R179); `.b` and `.h` may sign-extend on loads. -/
inductive LSize where
  | b (s : Bool) | h (s : Bool) | w | d | q
  deriving DecidableEq, Repr

/-- Store sizes of STL. -/
inductive SSize where
  | b | h | w | d | q
  deriving DecidableEq, Repr

/-- LDNA and LDL. -/
structure LdSz where
  h : XHdr
  d : BitVec 7
  ea : Ea
  acq : Bool
  scope : Scope
  size : LSize
  deriving DecidableEq, Repr

/-- ST8 to ST64. -/
structure St where
  h : XHdr
  ea : Ea
  b : SrcV
  rel : Bool
  scope : Scope
  deriving DecidableEq, Repr

/-- ST128 (no literal form). -/
structure St128 where
  h : XHdr
  ea : Ea
  b : BitVec 7
  rel : Bool
  scope : Scope
  deriving DecidableEq, Repr

/-- STL. -/
structure StSz where
  h : XHdr
  ea : Ea
  b : BitVec 7
  rel : Bool
  scope : Scope
  size : SSize
  deriving DecidableEq, Repr

/-- PREF. -/
structure Pref where
  h : XHdr
  ea : Ea
  l2 : Bool
  deriving DecidableEq, Repr

/-- CLEANR, INVR and UFLUSH: `ea.off` is the length (R183). -/
structure Range where
  h : XHdr
  u : Bool
  a : BitVec 7
  len : BitVec 32
  deriving DecidableEq, Repr

/-- FENCE. -/
structure Fence where
  h : XHdr
  ord : FenceOrd
  scope : Scope
  rm : Bool
  deriving DecidableEq, Repr

/-- BARINIT and BARWAIT: `[sA+imm], sB`. -/
structure BarB where
  h : XHdr
  a : BitVec 6
  off : BitVec 32
  b : BitVec 6
  deriving DecidableEq, Repr

/-- The order of an arrival: ORD 0b000, ORD 0b010 (both releases) or `.rlx` (R195). -/
inductive ArrOrd where
  | dflt | rel | rlx
  deriving DecidableEq, Repr

/-- BARARR: the count is 1, or sB with `.n`. -/
structure BarArr where
  h : XHdr
  d : BitVec 6
  a : BitVec 6
  off : BitVec 32
  n : Option (BitVec 6)
  ord : ArrOrd
  deriving DecidableEq, Repr

/-- PHASE sD, d. -/
structure PhaseOp where
  h : XHdr
  d : BitVec 6
  dom : BitVec 3
  deriving DecidableEq, Repr

/-- MSEND vD, [A+imm], vB pair. -/
structure Msend where
  h : XHdr
  d : BitVec 7
  ea : Ea
  b : BitVec 7
  rel : Bool
  scope : Scope
  deriving DecidableEq, Repr

/-- Event kinds of R202; only `.bar` takes a parity register. -/
inductive EvKind where
  | bar (b : BitVec 6) | stat | mbox | hyp | timer
  deriving DecidableEq, Repr

/-- EVSET.kind evD, sA, sB, label; `off` is IMM32. -/
structure Evset where
  h : XHdr
  e : BitVec 3
  a : BitVec 6
  kind : EvKind
  off : BitVec 32
  deriving DecidableEq, Repr

/-- EVCLR evD. -/
structure Evclr where
  h : XHdr
  e : BitVec 3
  deriving DecidableEq, Repr

/-- WAITANY list; it has no guard (R205). -/
structure Waitany where
  la : BitVec 4
  list : BitVec 8
  deriving DecidableEq, Repr

/-- HYPNEW and HYPQRY: sD, sA. -/
structure HypDA where
  h : XHdr
  d : BitVec 6
  a : BitVec 6
  deriving DecidableEq, Repr

/-- HYPENTER sA, sB pair. -/
structure HypEnter where
  h : XHdr
  a : BitVec 6
  b : BitVec 6
  deriving DecidableEq, Repr

/-- HYPRES.confirm or .refute sD, sA. -/
structure HypRes where
  h : XHdr
  d : BitVec 6
  a : BitVec 6
  refute : Bool
  deriving DecidableEq, Repr

/-- Atomic operations of R186. -/
inductive AtomOp where
  | add | add64 | fadd | mins | maxs | minu | maxu | mins64 | maxs64 | minu64 | maxu64
  | and | or | xor | and64 | or64 | xor64 | exch | exch64
  deriving DecidableEq, Repr

/-- ATOM.op vD, [A+imm], vB. -/
structure Atom where
  h : XHdr
  d : BitVec 7
  ea : Ea
  b : SrcV
  op : AtomOp
  ord : Ord4
  scope : Scope
  deriving DecidableEq, Repr

/-- RED.op [A+imm], vB. -/
structure Red where
  h : XHdr
  ea : Ea
  b : SrcV
  op : AtomOp
  rel : Bool
  scope : Scope
  deriving DecidableEq, Repr

/-- REDM.op [A+imm], vB; .exch and .exch64 are not encodable (R186). -/
structure Redm where
  h : XHdr
  ea : Ea
  b : SrcV
  op : AtomOp
  scope : Scope
  deriving DecidableEq, Repr

/-- CAS vD, [A+imm], vB, vC. -/
structure Cas where
  h : XHdr
  d : BitVec 7
  ea : Ea
  b : SrcV
  c : BitVec 7
  w64 : Bool
  ord : Ord4
  scope : Scope
  deriving DecidableEq, Repr

/-- CASGT vD, [A+imm], vB. -/
structure CasGt where
  h : XHdr
  d : BitVec 7
  ea : Ea
  b : SrcV
  w64 : Bool
  ord : Ord4
  scope : Scope
  deriving DecidableEq, Repr

/-- CASV, CASPT and CAS128: register operands only. -/
structure CasR where
  h : XHdr
  d : BitVec 7
  ea : Ea
  b : BitVec 7
  c : BitVec 7
  ord : Ord4
  scope : Scope
  deriving DecidableEq, Repr

/-- UADD32 to UOR64: [A+imm], vB. -/
structure Upd where
  h : XHdr
  ea : Ea
  b : BitVec 7
  deriving DecidableEq, Repr

/-- UACC{.h1} [A+imm], vB. -/
structure Uacc where
  h : XHdr
  ea : Ea
  b : BitVec 7
  h1 : Bool
  deriving DecidableEq, Repr

/-- The U operators, with the OP codes 0x1 to 0xA of R79. -/
inductive UOp where
  | uadd32 | uadd64 | umins | umaxs | uminu | umaxu | uminf | umaxf | uor64 | uacc
  deriving DecidableEq, Repr

/-- USNAP.op vD, [A+imm]. -/
structure Usnap where
  h : XHdr
  d : BitVec 7
  ea : Ea
  op : UOp
  ord : Ord4
  scope : Scope
  deriving DecidableEq, Repr

/-! ## Engine shapes (R214, R215) -/

/-- TDSET tdN, sA or TDSET.m tdN, [sA+imm]. -/
inductive TdSrc where
  | regs (a : BitVec 6)
  | mem (a : BitVec 6) (off : BitVec 32)
  deriving DecidableEq, Repr

/-- TDSET. -/
structure Tdset where
  h : XHdr
  n : BitVec 8
  src : TdSrc
  deriving DecidableEq, Repr

/-- TDGET sD, tdN. -/
structure Tdget where
  h : XHdr
  d : BitVec 6
  n : BitVec 8
  deriving DecidableEq, Repr

/-- MLOAD.n or .w sD, tdN, sub. -/
structure Mload where
  h : XHdr
  d : BitVec 6
  n : BitVec 8
  sub : BitVec 2
  west : Bool
  deriving DecidableEq, Repr

/-- MLOADSP.pat sD, tdN, sub, vB, first, bands. -/
structure Mloadsp where
  h : XHdr
  d : BitVec 6
  n : BitVec 8
  sub : BitVec 2
  pat : SpPat
  b : BitVec 7
  first : BitVec 4
  four : Bool
  deriving DecidableEq, Repr

/-- Chain arrangements of MMA (R229). -/
inductive MmaMode where
  | m1x4 | m2x2 | m4x1 | m4i
  deriving DecidableEq, Repr

/-- MMA.mode sD, tdN, accT, sA, rows, accrow; `rows1` is rows − 1. -/
structure Mma where
  h : XHdr
  d : BitVec 6
  n : BitVec 8
  t : Bool
  a : BitVec 6
  rows1 : BitVec 8
  accrow : BitVec 7
  mode : MmaMode
  deriving DecidableEq, Repr

/-- ACCZ sD, accN, first, count; `count1` is count − 1. -/
structure Accz where
  h : XHdr
  d : BitVec 6
  tile : BitVec 3
  first : BitVec 7
  count1 : BitVec 7
  deriving DecidableEq, Repr

/-- ACCRD{.bf16} vD, accN, sA. -/
structure Accrd where
  h : XHdr
  d : BitVec 7
  tile : BitVec 3
  a : BitVec 6
  bf16 : Bool
  deriving DecidableEq, Repr

/-- ACCWR sD, accN, sA, vB. -/
structure Accwr where
  h : XHdr
  d : BitVec 6
  tile : BitVec 3
  a : BitVec 6
  b : BitVec 7
  deriving DecidableEq, Repr

/-- COPY{.cK}{.cr} sD, tdDst, tdSrc {, sA}. -/
structure CopyOp where
  h : XHdr
  d : BitVec 6
  dst : BitVec 8
  src : BitVec 8
  cls : BitVec 2
  cr : Option (BitVec 6)
  deriving DecidableEq, Repr

/-- COPYG{.cK}{.cr} sD, tdDst, tdSrc, tdIdx {, sA}. -/
structure CopyG where
  h : XHdr
  d : BitVec 6
  dst : BitVec 8
  src : BitVec 8
  idx : BitVec 8
  cls : BitVec 2
  cr : Option (BitVec 6)
  deriving DecidableEq, Repr

/-- Collective operations: .put, .red and .red.sw (R243). -/
inductive CollKind where
  | put | red | redSw
  deriving DecidableEq, Repr

/-- COLL.op{.sw} sD, vA, vB, tdN. -/
structure Coll where
  h : XHdr
  d : BitVec 6
  a : BitVec 7
  b : BitVec 7
  n : BitVec 8
  op : CollKind
  deriving DecidableEq, Repr

/-- CELL{.coh} sD, [sA+imm]. -/
structure Cell where
  h : XHdr
  d : BitVec 6
  a : BitVec 6
  off : BitVec 32
  coh : Bool
  deriving DecidableEq, Repr

/-- TASK{.qK} sD, [sA+imm]. -/
structure Task where
  h : XHdr
  d : BitVec 6
  a : BitVec 6
  off : BitVec 32
  prio : BitVec 2
  deriving DecidableEq, Repr

/-- WINARM sD, vA, n. -/
structure Winarm where
  h : XHdr
  d : BitVec 6
  a : BitVec 7
  n : BitVec 8
  deriving DecidableEq, Repr

/-! ## System shapes -/

/-- CSRR and CSRW: pair and register number (R310). -/
structure Csr where
  h : CHdr
  d : BitVec 6
  n : BitVec 14
  deriving DecidableEq, Repr

/-- Modes of TRAPRET (R332). -/
inductive RetMode where
  | reg | retry | next
  deriving DecidableEq, Repr

/-- TRAPRET.mode. -/
structure TrapRet where
  h : CHdr
  m : RetMode
  deriving DecidableEq, Repr

/-- TRAPMSK n. -/
structure TrapMsk where
  h : CHdr
  n : Bool
  deriving DecidableEq, Repr

/-- TLBINV sA pair, sB. -/
structure Tlbinv where
  h : CHdr
  a : BitVec 6
  b : BitVec 6
  deriving DecidableEq, Repr

/-- HALT code. -/
structure Halt where
  h : CHdr
  code : BitVec 14
  deriving DecidableEq, Repr

/-- QSTAT and QSTAT.adv sD pair. -/
structure Qstat where
  h : CHdr
  d : BitVec 6
  deriving DecidableEq, Repr

/-! ## Aqiuf shapes (R259) -/

/-- A second operand: c[B], or SIMM13 (I = 1). -/
inductive CSrc where
  | reg (b : BitVec 4)
  | imm (v : BitVec 13)
  deriving DecidableEq, Repr

/-- CADD, CSUB and CAND. -/
structure Crr where
  d : BitVec 4
  a : BitVec 4
  b : CSrc
  deriving DecidableEq, Repr

/-- Conditions of CBR (R260). -/
inductive CCond where
  | eq | ne | lt | ge | ltu | geu
  deriving DecidableEq, Repr

/-- Access sizes of CLD and CST: 1, 2, 4 or 8 bytes. -/
inductive CSize where
  | b | h | w | d
  deriving DecidableEq, Repr

/-- Loads: sign extension only below 8 bytes (R261). -/
inductive CLdSize where
  | b (s : Bool) | h (s : Bool) | w (s : Bool) | d
  deriving DecidableEq, Repr

/-- CLD. -/
structure Cld where
  d : BitVec 4
  a : BitVec 4
  size : CLdSize
  loc : Bool
  off : BitVec 14
  deriving DecidableEq, Repr

/-- CST; `b` is the data register. -/
structure Cst where
  b : BitVec 4
  a : BitVec 4
  size : CSize
  loc : Bool
  off : BitVec 14
  deriving DecidableEq, Repr

/-- CLDX.in or .out [cD], [cA], cB. -/
structure Cldx where
  d : BitVec 4
  a : BitVec 4
  b : BitVec 4
  out : Bool
  deriving DecidableEq, Repr

/-- VLD and VST. -/
structure Vmem where
  w : BitVec 3
  a : BitVec 4
  loc : Bool
  off : BitVec 14
  deriving DecidableEq, Repr

/-- wD, wA, wB. -/
structure Vrr where
  d : BitVec 3
  a : BitVec 3
  b : BitVec 3
  deriving DecidableEq, Repr

/-- VCVTB forms (R262). -/
inductive VcvtMode where
  | b (wb : BitVec 3) | f0 | f1
  deriving DecidableEq, Repr

/-- VCVTB. -/
structure Vcvt where
  d : BitVec 3
  a : BitVec 3
  m : VcvtMode
  deriving DecidableEq, Repr

/-- VSCAL wD, wA, cB. -/
structure Vscal where
  d : BitVec 3
  a : BitVec 3
  b : BitVec 4
  deriving DecidableEq, Repr

/-- VRED operations. -/
inductive VredOp where
  | fadd | fmax | iadd
  deriving DecidableEq, Repr

/-- VRED.op cD, wA. -/
structure Vred where
  d : BitVec 4
  a : BitVec 3
  op : VredOp
  deriving DecidableEq, Repr

/-- CATOM operations (R263). -/
inductive CAtomOp where
  | add | add64 | fadd | maxs | mins | exch | exch64
  deriving DecidableEq, Repr

/-- CATOM.op cD, [cA+imm], cB. -/
structure Catom where
  d : BitVec 4
  a : BitVec 4
  b : BitVec 4
  op : CAtomOp
  off : BitVec 10
  deriving DecidableEq, Repr

/-! ## Arguments of the steps no word encodes -/

/-- Where a block's parts are put by the work distributor (R26, R33, R72): the physical core (die × 32 + core), the scratchpad
offset in KiB, and for each crew its scheduler, slot and register offset in KiB. -/
structure BlockPlace where
  core : Nat
  scrKiB : Nat
  crews : List (Nat × Nat × Nat)
  deriving DecidableEq, Repr

/-- BLOCK_ADMISSION of the next block, cluster or span of run `run`. -/
structure Admit where
  run : Nat
  places : List BlockPlace
  deriving DecidableEq, Repr

/-- A step of one gang of one crew. -/
structure CrewGang where
  crew : Nat
  gang : Nat
  deriving DecidableEq, Repr

/-- A crew and one of its event slots. -/
structure CrewSlot where
  crew : Nat
  slot : Nat
  deriving DecidableEq, Repr

/-- A context and a number in it (a hypothesis id, a queue). -/
structure CtxNum where
  ctx : Nat
  n : Nat
  deriving DecidableEq, Repr

/-- A core and an operation of one of its engines. -/
structure CoreOp where
  core : Nat
  op : Nat
  deriving DecidableEq, Repr

/-- How a matrix instruction ends: normally, or with an error found while it ran (R218): cause and rows done. -/
inductive MxEnd where
  | done
  | err (cause : BitVec 8) (count : Nat)
  deriving DecidableEq, Repr

/-- MATRIX_COMPLETE. -/
structure MxComplete where
  core : Nat
  op : Nat
  how : MxEnd
  deriving DecidableEq, Repr

/-- COPY_CHUNK: the core, and which of the copy's undelivered chunks comes next (R239). -/
structure CopyChunk where
  core : Nat
  chunk : Nat
  deriving DecidableEq, Repr

/-- How a transfer to another node was answered (R114, R244, R245): bytes visible, status code 0 or 1, cause, SWREFUSED. -/
structure CollAck where
  count : Nat
  fault : Bool
  cause : BitVec 8
  swRefused : Bool
  deriving DecidableEq, Repr

/-- COLL_COMPLETE. -/
structure CollDone where
  op : Nat
  ack : CollAck
  deriving DecidableEq, Repr

/-- How a packet came in (R350, R354): its virtual channel and port, whether a flit of it was replayed, and for an encrypted path
its packet counter and whether it authenticates. -/
structure Packet where
  vc : BitVec 2
  port : Nat
  replayed : Bool
  ctr : BitVec 64
  authentic : Bool
  deriving DecidableEq, Repr

/-- COLL_RECEIVE: data from node `src` for context `ctx`. -/
structure CollIn where
  src : BitVec 10
  pkt : Packet
  ctx : Nat
  va : BitVec 64
  red : Bool
  data : List (BitVec 8)
  deriving DecidableEq, Repr

/-- ATTACHED_COLLECTIVE of a run, with the fabric's answer. -/
structure Attached where
  run : Nat
  ack : CollAck
  deriving DecidableEq, Repr

/-- A packet queue: the management queue, or queue q of a context. -/
inductive QRef where
  | mgmt
  | launch (ctx q : Nat)
  deriving DecidableEq, Repr

/-- A read-modify-write of one element, with its operands (R186, R187, R189). -/
inductive Rmw where
  | atom (op : AtomOp) (b : BitVec 64)
  | cas (bytes : Nat) (c b : BitVec 128)
  | casgt (bytes : Nat) (b : BitVec 64)
  | casv (c b : BitVec 64)
  | caspt (c b : BitVec 64)
  deriving DecidableEq, Repr

/-- What a Scafa peer asks for (R298, R351): a read, a write, an atomic, or a registration of its U copies of a line (R352). -/
inductive PeerKind where
  | read (len : Nat)
  | write (data : List (BitVec 8))
  | rmw (r : Rmw)
  | reg (op : UOp)
  | snap (op : UOp)
  | range (op : BitVec 2)
  deriving DecidableEq, Repr

/-- PEER_REQUEST. -/
structure PeerReq where
  src : BitVec 10
  pkt : Packet
  ctx : Nat
  va : BitVec 64
  kind : PeerKind
  deriving DecidableEq, Repr

/-- A recall by home node `home` of the copies under `op` of a line at (its) physical address, to a presented device. -/
structure PressRecall where
  pdev : Nat
  home : BitVec 10
  pkt : Packet
  pa : Nat
  op : UOp
  deriving DecidableEq, Repr

/-- A remote node's contribution to a collapse. -/
structure Contribution where
  line : Nat
  node : BitVec 10
  pkt : Packet
  data : BitVec 1024
  deriving DecidableEq, Repr

/-- Holders of TLBs (R315). -/
inductive Agent where
  | core (c : Nat) | copyUnit (c : Nat) | coll (e : Nat) | cellar (stack proc : Nat) | trellis | scafa
  deriving DecidableEq, Repr

/-- PAGE_WALK. -/
structure Walk where
  agent : Agent
  ctx : Nat
  va : BitVec 64
  deriving DecidableEq, Repr

/-- A presented device (its lowest physical die) and a fault sequence number. -/
structure Fresp where
  pdev : Nat
  seq : BitVec 32
  deriving DecidableEq, Repr

/-- PREEMPT_RESTORE: for each saved core, the core that receives its slot. -/
structure Restore where
  pdev : Nat
  cores : List (Nat × Nat)
  deriving DecidableEq, Repr

/-- HOST_READ of BAR2. -/
structure HostRead where
  off : BitVec 39
  len : Nat
  deriving DecidableEq, Repr

/-- HOST_WRITE of BAR2. -/
structure HostWrite where
  off : BitVec 39
  data : List (BitVec 8)
  deriving DecidableEq, Repr

/-- PCIe AtomicOps (R344). -/
inductive HostAtom where
  | fetchAdd32 (b : BitVec 32) | fetchAdd64 (b : BitVec 64)
  | swap32 (b : BitVec 32) | swap64 (b : BitVec 64)
  | cas32 (c b : BitVec 32) | cas64 (c b : BitVec 64) | cas128 (c b : BitVec 128)
  deriving DecidableEq, Repr

/-- HOST_ATOMIC. -/
structure HostAtomic where
  off : BitVec 39
  op : HostAtom
  deriving DecidableEq, Repr

/-- REGISTER_WRITE of BAR0 (R345): offset, the value written, and whether the write is of 32 bits, the low half of `val`. -/
structure RegWrite where
  off : BitVec 26
  val : BitVec 64
  narrow : Bool
  deriving DecidableEq, Repr

/-- Whose request it was: a lane of a crew, a copy of a core, or a COLL. -/
inductive LostBy where
  | crew (uid : Nat) (lane : BitVec 5) | copy (core op : Nat) | coll (op : Nat)
  deriving DecidableEq, Repr

/-- A request that no answer ended: whose it was, the instruction, the address, and reftime at its issue on the requesting die (R348,
R365). -/
structure LostReq where
  who : LostBy
  pc : BitVec 64
  va : BitVec 64
  issued : Nat
  deriving DecidableEq, Repr

/-- A late trap: which crew stops. -/
structure CrewRef where
  crew : Nat
  deriving DecidableEq, Repr

/-- TIMEBASE_SYNC at a die: its offset before correction in ticks, or a missed sync. -/
structure Sync where
  die : Nat
  skew : Int
  missed : Bool
  deriving DecidableEq, Repr

/-- PATROL_SCRUB of a line: whether it corrected an error. -/
structure Scrub where
  line : Nat
  corrected : Bool
  deriving DecidableEq, Repr

/-- THERMAL_EVENT: a die's hottest sensor in 1/16 °C. -/
structure Thermal where
  die : Nat
  temp : BitVec 12
  deriving DecidableEq, Repr

/-- CLOCK_STRETCH of a core. -/
structure Stretch where
  core : Nat
  mhz : Nat
  deriving DecidableEq, Repr

/-- LINK_TRAINED. -/
structure Trained where
  port : Nat
  lanes : BitVec 4
  peer : BitVec 10
  deriving DecidableEq, Repr

/-- Where a bit error is found (R366, R368, R369): a line in an L1, in an L2 or its version area, or in DRAM; 128 bytes of a
scratchpad or an accumulator; a mailbox; the rows of a COLL in an engine; the local store of a cellar processor; a link; the hub's
control state. -/
inductive ErrSite where
  | core (core line : Nat) | l2 (line : Nat) | dram (line : Nat) | scratch (core piece : Nat) | acc (core piece : Nat)
  | mail (core slot : Nat) | coll (op : Nat) | cellar (proc : Nat) | dieLink | scafa | pcie | hub
  deriving DecidableEq, Repr

/-- What a detected bit error was (R368, R369): corrected, uncorrectable in clean data, in dirty or DRAM data. -/
inductive ErrKind where
  | corrected | clean | poison
  deriving DecidableEq, Repr

/-- SOFT_ERROR on a die or stack. -/
structure SoftErr where
  die : Nat
  site : ErrSite
  kind : ErrKind
  deriving DecidableEq, Repr

/-- A failed part and whether a spare remains (R370). -/
inductive Part where
  | dramRow (frame : Nat) (spare : Bool)
  | scafaLane (port : Nat) (spare : Bool)
  | dieLane (die : Nat) (spare : Bool)
  deriving DecidableEq, Repr

/-! ## Instructions -/

/-- One constructor for each row of spec/opcode_table.json. -/
inductive Instr where
  -- integer and logic (R148, R149)
  | iadd (o : DAB) | isub (o : DAB) | imul (o : DAB) | imulhs (o : DAB) | imulhu (o : DAB)
  | imad (o : DABC) | imadws (o : DABC) | imadwu (o : DABC) | iadd64 (o : DAB) | isub64 (o : DAB)
  | imins (o : DAB) | iminu (o : DAB) | imaxs (o : DAB) | imaxu (o : DAB) | iabs (o : DA)
  | idivu (o : DAB) | iremu (o : DAB) | and (o : DAB) | or (o : DAB) | xor (o : DAB) | andn (o : DAB)
  | shl (o : DAB) | shr (o : DAB) | sar (o : DAB) | rotl (o : DAB) | shl64 (o : DAB) | shr64 (o : DAB)
  | sar64 (o : DAB) | clz (o : DA) | popc (o : DA) | brev (o : DA) | bfeu (o : DAB) | bfes (o : DAB)
  | bfi (o : DABCi) | bysel (o : DABCi) | fshr (o : DABCi)
  -- comparison, selection and moves (R150 to R152)
  | icmps (o : ICmp) | icmpu (o : ICmp) | icmp64 (o : ICmp64) | sel (o : Sel) | plop (o : Plop)
  | pmov (o : Pmov) | lea (o : Lea) | mov (o : Mov) | movi (o : Movi) | movl (o : Movl) | movsr (o : Movsr)
  -- floating point (R153 to R157)
  | fadd (o : DABR) | fsub (o : DABR) | fmul (o : DABR) | fmac (o : DABCR) | fmin (o : DAB) | fmax (o : DAB)
  | fcmp (o : FCmp) | fclass (o : DA) | frcp (o : DAR) | frsq (o : DAR) | fsqrt (o : DAR) | fdiv (o : DABR)
  | fex2 (o : DA) | flg2 (o : DA) | fsin (o : DA) | fcos (o : DA) | ftanh (o : DA)
  | badd2 (o : DABR) | bmul2 (o : DABR) | bfma2 (o : DABCR) | bmin2 (o : DAB) | bmax2 (o : DAB)
  | hadd2 (o : DABR) | hmul2 (o : DABR) | hfma2 (o : DABCR)
  | dadd (o : DABR) | dmul (o : DABR) | dfma (o : DABCR)
  -- conversions and the shared-exponent path (R158 to R160)
  | cvtF32S32 (o : DAR) | cvtF32U32 (o : DAR) | cvtS32F32 (o : DAR) | cvtU32F32 (o : DAR)
  | cvtBf16F32 (o : DAHalf) | cvtF32Bf16 (o : DAHalf) | cvtF16F32 (o : DAHalf) | cvtF32F16 (o : DAHalf)
  | cvtE4m3F32 (o : DAByte) | cvtF32E4m3 (o : DAByte) | cvtE5m2F32 (o : DAByte) | cvtF32E5m2 (o : DAByte)
  | cvtF64F32 (o : DA) | cvtF32F64 (o : DAR) | quant (o : Quant) | fexpo (o : DA)
  | qalign (o : DAB) | qunalign (o : DAB) | idp4s (o : DABC) | idp4u (o : DABC)
  -- lanes (R161 to R167)
  | shfli (o : Shfl) | shflup (o : Shfl) | shfldn (o : Shfl) | shflx (o : Shfl) | ballot (o : Ballot)
  | vote (o : Vote) | bcast (o : Bcast) | scan (o : Scan) | redux (o : Redux) | matchLanes (o : MatchOp)
  | spcomp (o : Sp) | spexp (o : Sp) | swz4 (o : Swz) | lsort (o : Lsort)
  -- control (R168 to R174)
  | bra (o : Bj) | brx (o : Brx) | call (o : Bj) | ret (o : Ret) | join | regang (id : BitVec 14)
  | exit (o : CHdr) | nop (ext : Bool) | region | sleep (o : Sleep) | trap (o : TrapOp)
  | setprio (o : SetPrio) | setsr (o : SetSr)
  -- memory (R178 to R185)
  | ld8 (o : LdS) | ld16 (o : LdS) | ld32 (o : Ld) | ld64 (o : Ld) | ld128 (o : Ld)
  | st8 (o : St) | st16 (o : St) | st32 (o : St) | st64 (o : St) | st128 (o : St128)
  | ldl (o : LdSz) | stl (o : StSz) | pref (o : Pref) | cleanr (o : Range) | invr (o : Range) | uflush (o : Range)
  | fence (o : Fence)
  -- synchronisation, events and hypotheses (R193 to R210)
  | barinit (o : BarB) | bararr (o : BarArr) | barexp (o : BarB) | barwait (o : BarB) | phase (o : PhaseOp)
  | msend (o : Msend) | evset (o : Evset) | evclr (o : Evclr) | waitany (o : Waitany)
  | hypnew (o : HypDA) | hypenter (o : HypEnter) | hypres (o : HypRes) | hypqry (o : HypDA) | ldna (o : LdSz)
  -- atomics and updates (R186 to R192)
  | atom (o : Atom) | red (o : Red) | redm (o : Redm) | cas (o : Cas) | casgt (o : CasGt)
  | casv (o : CasR) | caspt (o : CasR) | cas128 (o : CasR)
  | uadd32 (o : Upd) | uadd64 (o : Upd) | umins (o : Upd) | umaxs (o : Upd) | uminu (o : Upd)
  | umaxu (o : Upd) | uminf (o : Upd) | umaxf (o : Upd) | uor64 (o : Upd) | uacc (o : Uacc) | usnap (o : Usnap)
  -- engines (R214 to R249)
  | tdset (o : Tdset) | tdget (o : Tdget) | mload (o : Mload) | mloadsp (o : Mloadsp) | mma (o : Mma)
  | accz (o : Accz) | accrd (o : Accrd) | accwr (o : Accwr) | copy (o : CopyOp) | copyg (o : CopyG)
  | coll (o : Coll) | cell (o : Cell) | task (o : Task) | winarm (o : Winarm) | winclr (o : XHdr)
  -- privileged (R310, R317, R318, R332 to R334)
  | csrr (o : Csr) | csrw (o : Csr) | trapret (o : TrapRet) | trapmsk (o : TrapMsk) | tlbinv (o : Tlbinv)
  | halt (o : Halt) | qstat (o : Qstat) | qstatAdv (o : Qstat)
  -- Aqiuf (R260 to R264)
  | cli (d : BitVec 4) (imm : BitVec 22) | cadd (o : Crr) | csub (o : Crr) | cshl (d a : BitVec 4) (k : BitVec 7)
  | cand (o : Crr) | cbr (cc : CCond) (a b : BitVec 4) (off : BitVec 14) | cjmp (off : BitVec 26)
  | cloop (a : BitVec 4) (off : BitVec 22) | cld (o : Cld) | cst (o : Cst) | cldx (o : Cldx)
  | vld (o : Vmem) | vst (o : Vmem) | vaddf (o : Vrr) | vaddb (o : Vrr) | vmulf (o : Vrr) | vfmaf (o : Vrr)
  | vmaxf (o : Vrr) | vrsqf (d a : BitVec 3) | vcvtb (o : Vcvt) | vscal (o : Vscal) | vred (o : Vred)
  | catom (o : Catom) | csig (a : BitVec 4) | cfence | chalt
  -- steps of the device (95): cellar, traps, launch
  | climitExpiry (cmd : Nat) | cldxTransferComplete (stack proc idx : Nat) | cellarCommandStart (stack : Nat)
  | atomicUnitOperation (idx : Nat) | lateTrap (o : CrewRef) | orphanRedirection (o : CrewRef)
  | blockAdmission (o : Admit) | recordFinish (run : Nat) | sleepExpiry (o : CrewGang) | barwaitResume (o : CrewGang)
  | eventTimer (o : CrewSlot) | waitanyResume (o : CrewRef) | mailboxDelivery (idx : Nat) | uRegistration (idx : Nat)
  | hypScrubComplete (o : CtxNum) | matrixQueueStart (o : CoreOp) | matrixComplete (o : MxComplete)
  | copyChunk (o : CopyChunk) | copyComplete (o : CoreOp) | collSend (op : Nat) | collReceive (o : CollIn)
  | collComplete (o : CollDone) | recordLaunch (idx : Nat) | cellarTaskSubmit (run : Nat) | hostSignal (run : Nat)
  | attachedCollective (o : Attached) | doorbell (o : CtxNum) | launch (o : CtxNum) | packetNop (q : QRef)
  | create | destroy | kill | peerRequest (o : PeerReq) | scafaPressRecall (o : PressRecall)
  | scafaContribution (o : Contribution) | scafaTimeout (line : Nat)
  -- translation, faults, pre-emption
  | pageWalk (o : Walk) | regionRewrite (ctx : Nat) | regionRewriteComplete (ctx : Nat) | migrationGo (ctx : Nat)
  | migrationComplete (ctx : Nat) | migrationRetire (ctx : Nat) | faultRecord (pdev : Nat)
  | frespResume (o : Fresp) | frespDeliver (o : Fresp) | frespKill (o : Fresp)
  | preemptSoft (pdev : Nat) | preemptHard (pdev : Nat) | preemptRestore (o : Restore)
  | t1Expiry (pdev : Nat) | t2Expiry (pdev : Nat) | preemptSave (pdev : Nat)
  -- host, security, bring-up and reliability
  | hostRead (o : HostRead) | hostWrite (o : HostWrite) | hostAtomic (o : HostAtomic) | mqdoor (wr : BitVec 64)
  | registerWrite (o : RegWrite) | msixUnmask (vec : BitVec 7) | pcieCompletionTimeout (o : LostReq)
  | attest | certs | session | keyload | keyerase | pathkey
  | deviceReset | bootctlReset | firmwareVerify | partcfgWrite (val : BitVec 64) | timebaseSync (o : Sync)
  | crossDieTimeout (o : LostReq) | patrolScrub (o : Scrub) | coreFailure (core : Nat) | thermalEvent (o : Thermal)
  | clockStretch (o : Stretch) | linkTrained (o : Trained) | linkDown (port : Nat) | softError (o : SoftErr)
  | failedPart (o : Part)
  deriving DecidableEq, Repr

end Sys2Proof
end

