-- ==== Sys2Proof/WellFormed.lean ====
section
/-!
DEFINITION. Which instructions a word can spell (06 R121 to R129 and each instruction's own encoding rules): `Instr.wf` holds of
exactly the terms that some sequence of words decodes to. Register limits that depend on the crew's V (R128) are not here: they
are checked when a gang issues (Machine/Deps.lean). A term of the 79 steps that no word encodes is never spelt, so `wf` is false
of it.
-/
namespace Sys2Proof

/-- The two extended lengths. -/
def Form.isExt : Form → Bool
  | .ext | .extLit => true
  | .base | .lit => false

/-- The two lengths with a literal. -/
def Form.isLit : Form → Bool
  | .lit | .extLit => true
  | .base | .ext => false

/-- A guard that decodes: p15 is not negated (R126). -/
def Guard.wf (g : Guard) : Bool := !(g.pr == 15 && g.pn)

/-- No guard (R126). -/
def Guard.none : Guard := ⟨15, false⟩

/-- A header that a BA word can carry: no guard and no LA without word 1 (R123), LA only on long-latency rows (R129). -/
def Hdr.wf (lat : Bool) (h : Hdr) : Bool :=
  if h.form.isExt then h.guard.wf && (lat || h.la == 0) else h.guard == .none && h.la == 0

/-- Header of an extended-only instruction. -/
def XHdr.wf (h : XHdr) : Bool := h.guard.wf

/-- Header of a control or system instruction. -/
def CHdr.wf (h : CHdr) : Bool := if h.ext then h.guard.wf else h.guard == .none

/-- How an instruction reads an immediate B (R125). -/
inductive BKind where
  | w32 | w64 | f64
  deriving DecidableEq, Repr

/-- A 64-bit literal that fits a 32-bit operand (R125). -/
def litFits (k : BKind) (v : BitVec 64) : Bool := k != .w32 || v.extractLsb' 32 32 == 0

/-- A B operand that the form can carry (R125). -/
def SrcB.wf (k : BKind) (f : Form) : SrcB → Bool
  | .reg _ => !f.isLit
  | .imm _ => f == .ext && k != .f64
  | .lit v => f.isLit && litFits k v

/-- A C operand that the form can carry; without word 1 it is field 0 (R123, R149). -/
def SrcC.wf (f : Form) : SrcC → Bool
  | .reg n => f.isExt || n == 0
  | .imm _ => f == .ext

/-- A scalar-or-immediate B of a control instruction (R125). -/
def SrcS.wf (ext : Bool) : SrcS → Bool
  | .reg _ => true
  | .imm _ => ext

/-- BCAST's B operand. -/
def SrcSL.wf (f : Form) : SrcSL → Bool
  | .reg _ => !f.isLit
  | .imm _ => f == .ext
  | .lit v => f.isLit && litFits .w32 v

/-- A store or atomic's data literal fits its width (R175). -/
def SrcV.wf (k : BKind) : SrcV → Bool
  | .reg _ => true
  | .lit v => litFits k v

/-- Long-latency rows of this set take any LA, but exist only in extended forms (R127). -/
def DA.wf (lat : Bool) (o : DA) : Bool := o.h.wf lat && !o.h.form.isLit && (!lat || o.h.form.isExt)
def DAB.wf (k : BKind) (o : DAB) : Bool := o.h.wf false && o.b.wf k o.h.form
def DABC.wf (k : BKind) (o : DABC) : Bool := o.h.wf false && o.b.wf k o.h.form && (o.h.form.isExt || o.c == 0)
def DABCi.wf (o : DABCi) : Bool := o.h.wf false && !o.h.form.isLit && o.c.wf o.h.form
def DAR.wf (lat : Bool) (o : DAR) : Bool :=
  o.h.wf lat && !o.h.form.isLit && (!lat || o.h.form.isExt) && (o.h.form.isExt || o.rm == .rne)
def DABR.wf (lat : Bool) (k : BKind) (o : DABR) : Bool :=
  o.h.wf lat && o.b.wf k o.h.form && (!lat || o.h.form.isExt) && (o.h.form.isExt || o.rm == .rne)
def DABCR.wf (k : BKind) (o : DABCR) : Bool :=
  o.h.wf false && o.b.wf k o.h.form && (o.h.form.isExt || (o.c == 0 && o.rm == .rne))
def DAHalf.wf (rounds : Bool) (o : DAHalf) : Bool :=
  o.h.wf false && !o.h.form.isLit && (o.h.form.isExt || (!o.half && o.rm == .rne)) && (rounds || o.rm == .rne)
def DAByte.wf (rounds : Bool) (o : DAByte) : Bool :=
  o.h.wf false && !o.h.form.isLit && (o.h.form.isExt || (o.byte == 0 && o.rm == .rne)) && (rounds || o.rm == .rne)
def ICmp.wf (o : ICmp) : Bool := o.h.wf false && o.b.wf .w32 o.h.form && (o.h.form.isExt || o.cc == .eq)
def ICmp64.wf (o : ICmp64) : Bool := o.h.wf false && o.b.wf .w64 o.h.form && (o.h.form.isExt || o.cc == .eq)
def FCmp.wf (o : FCmp) : Bool := o.h.wf false && o.b.wf .w32 o.h.form && (o.h.form.isExt || o.cc == .eq)
def Sel.wf (o : Sel) : Bool := o.h.wf false && o.b.wf .w32 o.h.form && (o.h.form.isExt || o.pc == 0)
def Plop.wf (o : Plop) : Bool := o.h.wf false && !o.h.form.isLit && (o.h.form.isExt || (o.pc == 0 && o.t == 0))

/-- Only the first mode of PMOV fits a base form. -/
def PmovMode.isCopy : PmovMode → Bool
  | .copy _ _ => true
  | .get _ | .set _ => false
def Pmov.wf (o : Pmov) : Bool := o.h.wf false && !o.h.form.isLit && (o.h.form.isExt || o.m.isCopy)
def Lea.wf (o : Lea) : Bool :=
  o.h.wf false && !o.h.form.isLit && (o.h.form.isExt || (o.k == 0 && !o.sx && !o.scalarA)) && !(o.u && o.scalarA)

/-- MOV modes 1 and 2 need MOD (R152). -/
def MovMode.crosses : MovMode → Bool
  | .vs _ _ | .sv _ _ => true
  | .vv _ _ | .ss _ _ => false
def Mov.wf (o : Mov) : Bool := o.h.wf false && !o.h.form.isLit && (o.h.form.isExt || !o.m.crosses)

/-- MOVI: the 14-bit immediate stands in base words, IMM32 in extended ones. -/
def Movi.wf (o : Movi) : Bool :=
  o.h.wf false && !o.h.form.isLit &&
  match o.imm with
  | .short _ => !o.h.form.isExt
  | .long _ => o.h.form.isExt
def Movl.wf (o : Movl) : Bool := o.h.wf false && o.h.form.isLit
def Movsr.wf (o : Movsr) : Bool := o.h.wf false && !o.h.form.isLit && !(o.u && o.sr == .laneid)
def Quant.wf (o : Quant) : Bool := o.h.wf false && !o.h.form.isLit && (o.h.form.isExt || (o.sc == 0 && o.t == .e4m3))
def Shfl.wf (o : Shfl) : Bool := o.h.wf false && o.b.wf .w32 o.h.form
def Bcast.wf (o : Bcast) : Bool := o.h.wf false && o.b.wf o.h.form
def Ballot.wf (o : Ballot) : Bool :=
  o.h.wf false &&
  match o.src with
  | .pred _ => !o.h.form.isLit
  | .bit _ b => o.h.form.isExt && b.wf .w32 o.h.form
def Vote.wf (o : Vote) : Bool := o.h.wf false && !o.h.form.isLit && (o.h.form.isExt || o.m == .all)
def Scan.wf (o : Scan) : Bool :=
  o.h.wf false && !o.h.form.isLit && (o.h.form.isExt || (o.op == .iadd && !o.excl)) && (o.op == .fadd || o.rm == .rne)
def Redux.wf (o : Redux) : Bool :=
  o.h.wf false && !o.h.form.isLit && (o.h.form.isExt || o.op == .iadd) && (o.op == .fadd || o.rm == .rne)
def MatchOp.wf (o : MatchOp) : Bool := o.h.wf false && !o.h.form.isLit && (o.h.form.isExt || !o.w64)
def Sp.wf (o : Sp) : Bool := o.h.wf false && !o.h.form.isLit && (o.h.form.isExt || (o.f == .e4m3 && o.m == .p24))
def Swz.wf (o : Swz) : Bool := o.h.wf false && !o.h.form.isLit && (o.h.form.isExt || o.pat == 0)
def Lsort.wf (o : Lsort) : Bool := o.h.wf false && !o.h.form.isLit && (o.h.form.isExt || !o.signed)
def Bj.wf (o : Bj) : Bool := !(o.pr == 15 && o.pn)
def Brx.wf (o : Brx) : Bool := o.h.wf
def Ret.wf (o : Ret) : Bool := o.h.wf
def Sleep.wf (o : Sleep) : Bool := o.h.wf && o.d.wf o.h.ext
def TrapOp.wf (o : TrapOp) : Bool := o.h.wf
def SetPrio.wf (o : SetPrio) : Bool := o.h.wf
def SetSr.wf (o : SetSr) : Bool := o.h.wf && o.b.wf o.h.ext

/-- The operand width of an atomic operation is 64 bits (R186). -/
def AtomOp.wide : AtomOp → Bool
  | .add64 | .mins64 | .maxs64 | .minu64 | .maxu64 | .and64 | .or64 | .xor64 | .exch64 => true
  | .add | .fadd | .mins | .maxs | .minu | .maxu | .and | .or | .xor | .exch => false

/-- How an atomic's literal is read. -/
def AtomOp.kind (op : AtomOp) : BKind := if op.wide then .w64 else .w32

def LdS.wf (o : LdS) : Bool := o.h.wf
def Ld.wf (o : Ld) : Bool := o.h.wf
def LdSz.wf (o : LdSz) : Bool := o.h.wf
def St.wf (k : BKind) (o : St) : Bool := o.h.wf && o.b.wf k
def St128.wf (o : St128) : Bool := o.h.wf
def StSz.wf (o : StSz) : Bool := o.h.wf
def Pref.wf (o : Pref) : Bool := o.h.wf
def Range.wf (o : Range) : Bool := o.h.wf
def Fence.wf (o : Fence) : Bool := o.h.wf
def BarB.wf (o : BarB) : Bool := o.h.wf
def BarArr.wf (o : BarArr) : Bool := o.h.wf
def PhaseOp.wf (o : PhaseOp) : Bool := o.h.wf
def Msend.wf (o : Msend) : Bool := o.h.wf
/-- EVSET's handler offset is a multiple of 4 (R202). -/
def Evset.wf (o : Evset) : Bool := o.h.wf && o.off.extractLsb' 0 2 == 0
def Evclr.wf (o : Evclr) : Bool := o.h.wf
/-- WAITANY's list is not empty (R205). -/
def Waitany.wf (o : Waitany) : Bool := o.list != 0
def HypDA.wf (o : HypDA) : Bool := o.h.wf
def HypEnter.wf (o : HypEnter) : Bool := o.h.wf
def HypRes.wf (o : HypRes) : Bool := o.h.wf
def Atom.wf (o : Atom) : Bool := o.h.wf && o.b.wf o.op.kind
def Red.wf (o : Red) : Bool := o.h.wf && o.b.wf o.op.kind
/-- REDM has no exchange (R186). -/
def Redm.wf (o : Redm) : Bool := o.h.wf && o.b.wf o.op.kind && o.op != .exch && o.op != .exch64
def Cas.wf (o : Cas) : Bool := o.h.wf && o.b.wf (if o.w64 then .w64 else .w32)
def CasGt.wf (o : CasGt) : Bool := o.h.wf && o.b.wf (if o.w64 then .w64 else .w32)
def CasR.wf (o : CasR) : Bool := o.h.wf
def Upd.wf (o : Upd) : Bool := o.h.wf
def Uacc.wf (o : Uacc) : Bool := o.h.wf
def Usnap.wf (o : Usnap) : Bool := o.h.wf
def Tdset.wf (o : Tdset) : Bool := o.h.wf
def Tdget.wf (o : Tdget) : Bool := o.h.wf
def Mload.wf (o : Mload) : Bool := o.h.wf
/-- FIRST is even and FIRST + k does not exceed 16 (R227). -/
def Mloadsp.wf (o : Mloadsp) : Bool :=
  o.h.wf && o.first.extractLsb' 0 1 == 0 && decide (o.first.toNat + (if o.four then 4 else 2) ≤ 16)
/-- Mode .4i names descriptors up to N + 3 (R229). -/
def Mma.wf (o : Mma) : Bool := o.h.wf && !(o.mode == .m4i && decide (252 < o.n.toNat))
def Accz.wf (o : Accz) : Bool := o.h.wf
def Accrd.wf (o : Accrd) : Bool := o.h.wf
def Accwr.wf (o : Accwr) : Bool := o.h.wf
def CopyOp.wf (o : CopyOp) : Bool := o.h.wf
def CopyG.wf (o : CopyG) : Bool := o.h.wf
def Coll.wf (o : Coll) : Bool := o.h.wf
def Cell.wf (o : Cell) : Bool := o.h.wf
def Task.wf (o : Task) : Bool := o.h.wf
/-- WINARM's n is 1 to 128 (R248). -/
def Winarm.wf (o : Winarm) : Bool := o.h.wf && decide (1 ≤ o.n.toNat) && decide (o.n.toNat ≤ 128)
def Csr.wf (o : Csr) : Bool := o.h.wf
def TrapRet.wf (o : TrapRet) : Bool := o.h.wf
def TrapMsk.wf (o : TrapMsk) : Bool := o.h.wf
def Tlbinv.wf (o : Tlbinv) : Bool := o.h.wf
def Halt.wf (o : Halt) : Bool := o.h.wf
def Qstat.wf (o : Qstat) : Bool := o.h.wf

/-- The instruction is one that some words decode to. Row by row of the opcode map (R138) and of the Aqiuf tables (R260 to R264);
false for the steps that no word encodes. -/
def Instr.wf : Instr → Bool
  | .iadd o | .isub o | .imul o | .imulhs o | .imulhu o => o.wf .w32
  | .imad o | .imadws o | .imadwu o => o.wf .w32
  | .iadd64 o | .isub64 o => o.wf .w64
  | .imins o | .iminu o | .imaxs o | .imaxu o => o.wf .w32
  | .iabs o => o.wf false
  | .idivu o | .iremu o | .and o | .or o | .xor o | .andn o | .shl o | .shr o | .sar o | .rotl o | .shl64 o | .shr64 o
  | .sar64 o => o.wf .w32
  | .clz o | .popc o | .brev o => o.wf false
  | .bfeu o | .bfes o => o.wf .w32
  | .bfi o | .bysel o | .fshr o => o.wf
  | .icmps o | .icmpu o => o.wf
  | .icmp64 o => o.wf
  | .sel o => o.wf
  | .plop o => o.wf
  | .pmov o => o.wf
  | .lea o => o.wf
  | .mov o => o.wf
  | .movi o => o.wf
  | .movl o => o.wf
  | .movsr o => o.wf
  | .fadd o | .fsub o | .fmul o => o.wf false .w32
  | .fmac o => o.wf .w32
  | .fmin o | .fmax o => o.wf .w32
  | .fcmp o => o.wf
  | .fclass o => o.wf false
  | .frcp o | .frsq o | .fsqrt o => o.wf true
  | .fdiv o => o.wf true .w32
  | .fex2 o | .flg2 o | .fsin o | .fcos o | .ftanh o => o.wf true
  | .badd2 o | .bmul2 o => o.wf false .w32
  | .bfma2 o => o.wf .w32
  | .bmin2 o | .bmax2 o => o.wf .w32
  | .hadd2 o | .hmul2 o => o.wf false .w32
  | .hfma2 o => o.wf .w32
  | .dadd o | .dmul o => o.wf false .f64
  | .dfma o => o.wf .f64
  | .cvtF32S32 o | .cvtF32U32 o | .cvtS32F32 o | .cvtU32F32 o => o.wf false
  | .cvtBf16F32 o => o.wf true
  | .cvtF32Bf16 o => o.wf false
  | .cvtF16F32 o => o.wf true
  | .cvtF32F16 o => o.wf false
  | .cvtE4m3F32 o => o.wf true
  | .cvtF32E4m3 o => o.wf false
  | .cvtE5m2F32 o => o.wf true
  | .cvtF32E5m2 o => o.wf false
  | .cvtF64F32 o => o.wf false
  | .cvtF32F64 o => o.wf false
  | .quant o => o.wf
  | .fexpo o => o.wf false
  | .qalign o | .qunalign o => o.wf .w32
  | .idp4s o | .idp4u o => o.wf .w32
  | .shfli o | .shflup o | .shfldn o | .shflx o => o.wf
  | .ballot o => o.wf
  | .vote o => o.wf
  | .bcast o => o.wf
  | .scan o => o.wf
  | .redux o => o.wf
  | .matchLanes o => o.wf
  | .spcomp o | .spexp o => o.wf
  | .swz4 o => o.wf
  | .lsort o => o.wf
  | .bra o => o.wf
  | .brx o => o.wf
  | .call o => o.wf
  | .ret o => o.wf
  | .join | .regang _ => true
  | .exit o => o.wf
  | .nop _ | .region => true
  | .sleep o => o.wf
  | .trap o => o.wf
  | .setprio o => o.wf
  | .setsr o => o.wf
  | .ld8 o | .ld16 o => o.wf
  | .ld32 o | .ld64 o | .ld128 o => o.wf
  | .st8 o | .st16 o | .st32 o => o.wf .w32
  | .st64 o => o.wf .w64
  | .st128 o => o.wf
  | .ldl o => o.wf
  | .stl o => o.wf
  | .pref o => o.wf
  | .cleanr o | .invr o | .uflush o => o.wf
  | .fence o => o.wf
  | .barinit o => o.wf
  | .bararr o => o.wf
  | .barexp o | .barwait o => o.wf
  | .phase o => o.wf
  | .msend o => o.wf
  | .evset o => o.wf
  | .evclr o => o.wf
  | .waitany o => o.wf
  | .hypnew o => o.wf
  | .hypenter o => o.wf
  | .hypres o => o.wf
  | .hypqry o => o.wf
  | .ldna o => o.wf
  | .atom o => o.wf
  | .red o => o.wf
  | .redm o => o.wf
  | .cas o => o.wf
  | .casgt o => o.wf
  | .casv o | .caspt o | .cas128 o => o.wf
  | .uadd32 o | .uadd64 o | .umins o | .umaxs o | .uminu o | .umaxu o | .uminf o | .umaxf o | .uor64 o => o.wf
  | .uacc o => o.wf
  | .usnap o => o.wf
  | .tdset o => o.wf
  | .tdget o => o.wf
  | .mload o => o.wf
  | .mloadsp o => o.wf
  | .mma o => o.wf
  | .accz o => o.wf
  | .accrd o => o.wf
  | .accwr o => o.wf
  | .copy o => o.wf
  | .copyg o => o.wf
  | .coll o => o.wf
  | .cell o => o.wf
  | .task o => o.wf
  | .winarm o => o.wf
  | .winclr o => o.wf
  | .csrr o | .csrw o => o.wf
  | .trapret o => o.wf
  | .trapmsk o => o.wf
  | .tlbinv o => o.wf
  | .halt o => o.wf
  | .qstat o | .qstatAdv o => o.wf
  | .cli _ _ | .cadd _ | .csub _ | .cshl _ _ _ | .cand _ | .cbr _ _ _ _ | .cjmp _ | .cloop _ _ | .cld _ | .cst _
  | .cldx _ | .vld _ | .vst _ | .vaddf _ | .vaddb _ | .vmulf _ | .vfmaf _ | .vmaxf _ | .vrsqf _ _ | .vcvtb _
  | .vscal _ | .vred _ | .catom _ | .csig _ | .cfence | .chalt => true
  | .climitExpiry _ | .cldxTransferComplete _ _ _ | .cellarCommandStart _ | .atomicUnitOperation _ | .lateTrap _
  | .orphanRedirection _ | .blockAdmission _ | .recordFinish _ | .sleepExpiry _ | .barwaitResume _ | .eventTimer _
  | .waitanyResume _ | .mailboxDelivery _ | .uRegistration _ | .hypScrubComplete _ | .matrixQueueStart _
  | .matrixComplete _ | .copyChunk _ | .copyComplete _ | .collSend _ | .collReceive _ | .collComplete _
  | .recordLaunch _ | .cellarTaskSubmit _ | .hostSignal _ | .attachedCollective _ | .doorbell _ | .launch _
  | .packetNop _ | .create | .destroy | .kill | .peerRequest _ | .scafaPressRecall _ | .scafaContribution _
  | .scafaTimeout _ | .pageWalk _ | .regionRewrite _ | .regionRewriteComplete _ | .migrationGo _
  | .migrationComplete _ | .migrationRetire _ | .faultRecord _ | .frespResume _ | .frespDeliver _ | .frespKill _
  | .preemptSoft _ | .preemptHard _ | .preemptRestore _ | .t1Expiry _ | .t2Expiry _ | .preemptSave _ | .hostRead _
  | .hostWrite _ | .hostAtomic _ | .mqdoor _ | .registerWrite _ | .msixUnmask _ | .pcieCompletionTimeout _ | .attest
  | .certs | .session | .keyload | .keyerase | .pathkey | .deviceReset | .bootctlReset | .firmwareVerify
  | .partcfgWrite _ | .timebaseSync _ | .crossDieTimeout _ | .patrolScrub _ | .coreFailure _ | .thermalEvent _
  | .clockStretch _ | .linkTrained _ | .linkDown _ | .softError _ | .failedPart _ => false

end Sys2Proof
end

