-- ==== Sys2Proof/Decode.lean ====
section
/-!
DEFINITION. Decoding and encoding. First the words of the main set (06 R119 to R127) as a record of fields, then each opcode's
reading of those fields (R138; 07, 08, 09, 15 to 17), then Aqiuf words (10 R259 to R264), then the encoder, which writes the same
fields, and `decodeTableWord`. Decoding is total and rejects by name; register limits that depend on V (R128) are checked at issue.
-/
namespace Sys2Proof

/-! ## Words and fields -/

/-- Why some words are no instruction. -/
inductive DecodeError where
  /-- OPC or OP unassigned (R120, R138, R259) -/
  | unassigned
  /-- LEN not accepted by the opcode (R127) -/
  | length
  /-- a reserved field or code, IB, literal or LA misused (R124, R125, R129, R145) -/
  | reserved
  /-- fewer words than LEN asks for -/
  | truncated
  deriving DecidableEq, Repr

/-- The fields of a BA word with its further words (R120, R123, R125). Fields of words that the form does not have hold what
stands for their absence: PR 15, PN 0, and 0. -/
structure Raw where
  form : Form
  opc : BitVec 8
  u : Bool
  d : BitVec 7
  a : BitVec 7
  b : BitVec 7
  la : BitVec 4
  pr : BitVec 4
  pn : Bool
  c : BitVec 7
  mod : BitVec 16
  w2 : BitVec 32
  lit : BitVec 64
  deriving DecidableEq, Repr

/-- LEN (R119). -/
def Form.code : Form → BitVec 2
  | .base => 0 | .ext => 1 | .lit => 2 | .extLit => 3

/-- LEN read. -/
def Form.ofCode (n : BitVec 2) : Form :=
  match n.toNat with
  | 0 => .base | 1 => .ext | 2 => .lit | _ => .extLit

/-- Bytes of a form (R119). -/
def Form.bytes : Form → Nat
  | .base => 4 | .ext | .lit => 12 | .extLit => 20

/-- Bytes of the instruction whose word 0 is w (R119). -/
def wordBytes (w : Word) : Nat := (Form.ofCode (w.extractLsb' 30 2)).bytes

/-- OPC of word 0 (R119). -/
def wordOpc (w : Word) : BitVec 8 := w.extractLsb' 22 8

/-- One bit of a field. -/
def bit1 (x : Bool) : BitVec 1 := BitVec.ofBool x

/-- Word 0 in the BA layout (R120). -/
def Raw.word0 (r : Raw) : Word := r.form.code ++ r.opc ++ bit1 r.u ++ r.d ++ r.a ++ r.b

/-- Word 1 (R123). -/
def Raw.word1 (r : Raw) : Word := r.la ++ r.pr ++ bit1 r.pn ++ r.c ++ r.mod

/-- All the words (R119, R123). -/
def Raw.words (r : Raw) : List Word :=
  match r.form with
  | .base => [r.word0]
  | .ext => [r.word0, r.word1, r.w2]
  | .lit => [r.word0, r.lit.extractLsb' 0 32, r.lit.extractLsb' 32 32]
  | .extLit => [r.word0, r.word1, r.w2, r.lit.extractLsb' 0 32, r.lit.extractLsb' 32 32]

/-- The fields of word 0 alone, in form f. -/
def Raw.ofWord0 (f : Form) (w : Word) : Raw :=
  { form := f, opc := wordOpc w, u := w.getLsbD 21, d := w.extractLsb' 14 7, a := w.extractLsb' 7 7, b := w.extractLsb' 0 7,
    la := 0, pr := 15, pn := false, c := 0, mod := 0, w2 := 0, lit := 0 }

/-- With the fields of words 1 and 2 (R123). -/
def Raw.withExt (r : Raw) (w1 w2 : Word) : Raw :=
  { r with la := w1.extractLsb' 28 4, pr := w1.extractLsb' 24 4, pn := w1.getLsbD 23, c := w1.extractLsb' 16 7,
           mod := w1.extractLsb' 0 16, w2 := w2 }

/-- With a literal (R119). -/
def Raw.withLit (r : Raw) (lo hi : Word) : Raw := { r with lit := hi ++ lo }

/-- The fields of the instruction at the head of a list of words (R119). -/
def Raw.ofWords : List Word → Option Raw
  | [] => none
  | w :: ws =>
    match Form.ofCode (w.extractLsb' 30 2), ws with
    | .base, _ => some (.ofWord0 .base w)
    | .ext, w1 :: w2 :: _ => some ((Raw.ofWord0 .ext w).withExt w1 w2)
    | .lit, lo :: hi :: _ => some ((Raw.ofWord0 .lit w).withLit lo hi)
    | .extLit, w1 :: w2 :: lo :: hi :: _ => some (((Raw.ofWord0 .extLit w).withExt w1 w2).withLit lo hi)
    | _, _ => none

/-! ### Fields of MOD and word 2 -/

/-- MOD [15:4], IB and RM of the arithmetic, lane and control classes (R124). -/
def Raw.x (r : Raw) : BitVec 12 := r.mod.extractLsb' 4 12
def Raw.ib (r : Raw) : Bool := r.mod.getLsbD 3
def Raw.rmBits (r : Raw) : BitVec 3 := r.mod.extractLsb' 0 3

/-- MOD of those classes. -/
def modArith (x : BitVec 12) (ib : Bool) (rm : BitVec 3) : BitVec 16 := x ++ bit1 ib ++ rm

/-- MOD [15:6], SCOPE and ORD of the memory class (R124). -/
def Raw.mx (r : Raw) : BitVec 10 := r.mod.extractLsb' 6 10
def Raw.scopeBits (r : Raw) : BitVec 3 := r.mod.extractLsb' 3 3
def Raw.ordBits (r : Raw) : BitVec 3 := r.mod.extractLsb' 0 3

/-- MOD of the memory class. -/
def modMem (mx : BitVec 10) (scope ord : BitVec 3) : BitVec 16 := mx ++ scope ++ ord

/-- word0[13:0], the 14-bit immediate of MOVI, REGANG, TRAP, CSRR, CSRW, TRAPRET, TRAPMSK and HALT. -/
def Raw.imm14 (r : Raw) : BitVec 14 := r.a ++ r.b

/-- word0[21:0], for the BJ layout (R120). -/
def Raw.low22 (r : Raw) : BitVec 22 := bit1 r.u ++ r.d ++ r.a ++ r.b

/-! ### Codes -/

/-- Rounding codes (R46). -/
def Rm.code : Rm → BitVec 3
  | .rne => 0 | .rn => 1 | .rz => 2 | .ru => 3 | .rd => 4 | .rdyn => 5
def Rm.ofCode (n : BitVec 3) : Option Rm :=
  match n.toNat with
  | 0 => some .rne | 1 => some .rn | 2 => some .rz | 3 => some .ru | 4 => some .rd | 5 => some .rdyn | _ => none

/-- SCOPE codes (R124). -/
def Scope.code : Scope → BitVec 3
  | .dev => 0 | .crew => 1 | .blk => 2 | .clu => 3 | .die => 4 | .sys => 5
def Scope.ofCode (n : BitVec 3) : Option Scope :=
  match n.toNat with
  | 0 => some .dev | 1 => some .crew | 2 => some .blk | 3 => some .clu | 4 => some .die | 5 => some .sys | _ => none

/-- ORD codes of atomics (R124, R175). -/
def Ord4.code : Ord4 → BitVec 3
  | .rlx => 0 | .acq => 1 | .rel => 2 | .ar => 3
def Ord4.ofCode (n : BitVec 3) : Option Ord4 :=
  match n.toNat with
  | 0 => some .rlx | 1 => some .acq | 2 => some .rel | 3 => some .ar | _ => none

/-- ORD of a load: .rlx or .acq (R175). -/
def acqCode (acq : Bool) : BitVec 3 := if acq then 1 else 0
def acqOf (n : BitVec 3) : Option Bool :=
  match n.toNat with
  | 0 => some false | 1 => some true | _ => none

/-- ORD of a store, RED or MSEND: .rlx or .rel (R175). -/
def relCode (rel : Bool) : BitVec 3 := if rel then 2 else 0
def relOf (n : BitVec 3) : Option Bool :=
  match n.toNat with
  | 0 => some false | 2 => some true | _ => none

/-- ORD of FENCE (R185). -/
def FenceOrd.code : FenceOrd → BitVec 3
  | .dflt => 0 | .acq => 1 | .rel => 2 | .ar => 3 | .sc => 4
def FenceOrd.ofCode (n : BitVec 3) : Option FenceOrd :=
  match n.toNat with
  | 0 => some .dflt | 1 => some .acq | 2 => some .rel | 3 => some .ar | 4 => some .sc | _ => none

/-- Conditions of ICMPS and ICMPU in MOD[7:4] (R150). -/
def ICond.code : ICond → BitVec 12
  | .eq => 0 | .ne => 1 | .lt => 2 | .le => 3 | .gt => 4 | .ge => 5
def ICond.ofCode (x : BitVec 12) : Option ICond :=
  match x.toNat with
  | 0 => some .eq | 1 => some .ne | 2 => some .lt | 3 => some .le | 4 => some .gt | 5 => some .ge | _ => none

/-- Conditions of ICMP64; MOD[7] selects the unsigned comparison (R150). -/
def ICond64.code : ICond64 → BitVec 12
  | .eq => 0 | .ne => 1 | .lt false => 2 | .le false => 3 | .gt false => 4 | .ge false => 5
  | .lt true => 10 | .le true => 11 | .gt true => 12 | .ge true => 13
def ICond64.ofCode (x : BitVec 12) : Option ICond64 :=
  match x.toNat with
  | 0 => some .eq | 1 => some .ne | 2 => some (.lt false) | 3 => some (.le false) | 4 => some (.gt false)
  | 5 => some (.ge false) | 10 => some (.lt true) | 11 => some (.le true) | 12 => some (.gt true) | 13 => some (.ge true)
  | _ => none

/-- Conditions of FCMP (R154). -/
def FCond.code : FCond → BitVec 12
  | .eq => 0 | .ne => 1 | .lt => 2 | .le => 3 | .gt => 4 | .ge => 5 | .un => 6 | .or => 7
def FCond.ofCode (x : BitVec 12) : Option FCond :=
  match x.toNat with
  | 0 => some .eq | 1 => some .ne | 2 => some .lt | 3 => some .le | 4 => some .gt | 5 => some .ge | 6 => some .un
  | 7 => some .or | _ => none

/-- Special-register numbers (R134). -/
def SReg.code : SReg → BitVec 7
  | .laneid => 0x00 | .sliceid => 0x01 | .crewid => 0x02 | .blkid => 0x03 | .nblk => 0x04 | .cluid => 0x05
  | .clurank => 0x06 | .spanid => 0x07 | .dieid => 0x08 | .coreid => 0x09 | .gridid => 0x0A | .scrbase => 0x0B
  | .clock => 0x10 | .reftime => 0x11 | .hyp => 0x18 | .hxh => 0x19 | .pend => 0x20 | .emask => 0x21 | .evwhich => 0x22
  | .evdata => 0x23 | .fflags => 0x28 | .frm => 0x29 | .regent => 0x30 | .regctr => 0x31
def SReg.ofCode (n : BitVec 7) : Option SReg :=
  match n.toNat with
  | 0x00 => some .laneid | 0x01 => some .sliceid | 0x02 => some .crewid | 0x03 => some .blkid | 0x04 => some .nblk
  | 0x05 => some .cluid | 0x06 => some .clurank | 0x07 => some .spanid | 0x08 => some .dieid | 0x09 => some .coreid
  | 0x0A => some .gridid | 0x0B => some .scrbase | 0x10 => some .clock | 0x11 => some .reftime | 0x18 => some .hyp
  | 0x19 => some .hxh | 0x20 => some .pend | 0x21 => some .emask | 0x22 => some .evwhich | 0x23 => some .evdata
  | 0x28 => some .fflags | 0x29 => some .frm | 0x30 => some .regent | 0x31 => some .regctr | _ => none

/-- The writable special registers in the D field of SETSR (R174). -/
def WReg.code : WReg → BitVec 7
  | .emask => 0x21 | .fflags => 0x28 | .frm => 0x29
def WReg.ofCode (n : BitVec 7) : Option WReg :=
  match n.toNat with
  | 0x21 => some .emask | 0x28 => some .fflags | 0x29 => some .frm | _ => none

/-- QUANT's targets (R159). -/
def QTarget.code : QTarget → BitVec 12
  | .e4m3 => 0 | .e5m2 => 1 | .s4 => 2
def QTarget.ofCode (x : BitVec 12) : Option QTarget :=
  match x.toNat with
  | 0 => some .e4m3 | 1 => some .e5m2 | 2 => some .s4 | _ => none

/-- VOTE's modes (R163). -/
def VoteMode.code : VoteMode → BitVec 12
  | .all => 0 | .any => 1 | .uni => 2
def VoteMode.ofCode (x : BitVec 12) : Option VoteMode :=
  match x.toNat with
  | 0 => some .all | 1 => some .any | 2 => some .uni | _ => none

/-- Fold operations (R164). -/
def FoldOp.code : FoldOp → BitVec 4
  | .iadd => 0 | .fadd => 1 | .imins => 2 | .iminu => 3 | .imaxs => 4 | .imaxu => 5 | .and => 6 | .or => 7 | .xor => 8
  | .fmin => 9 | .fmax => 10
def FoldOp.ofCode (n : BitVec 4) : Option FoldOp :=
  match n.toNat with
  | 0 => some .iadd | 1 => some .fadd | 2 => some .imins | 3 => some .iminu | 4 => some .imaxs | 5 => some .imaxu
  | 6 => some .and | 7 => some .or | 8 => some .xor | 9 => some .fmin | 10 => some .fmax | _ => none

/-- SPCOMP's formats (R166). -/
def SpFmt.code : SpFmt → BitVec 3
  | .e4m3 => 0 | .e5m2 => 1 | .int8 => 2 | .s4 => 3 | .bf16 => 4
def SpFmt.ofCode (n : BitVec 3) : Option SpFmt :=
  match n.toNat with
  | 0 => some .e4m3 | 1 => some .e5m2 | 2 => some .int8 | 3 => some .s4 | 4 => some .bf16 | _ => none

/-- SPCOMP's patterns (R166). -/
def SpPat.code : SpPat → BitVec 2
  | .p24 => 0 | .p48 => 1 | .p1632 => 2
def SpPat.ofCode (n : BitVec 2) : Option SpPat :=
  match n.toNat with
  | 0 => some .p24 | 1 => some .p48 | 2 => some .p1632 | _ => none

/-- MLOADSP's PAT (R227). -/
def SpPat.mxCode : SpPat → BitVec 2
  | .p24 => 1 | .p48 => 2 | .p1632 => 3
def SpPat.ofMxCode (n : BitVec 2) : Option SpPat :=
  match n.toNat with
  | 1 => some .p24 | 2 => some .p48 | 3 => some .p1632 | _ => none

/-- Size codes of LDL and LDNA with .s, MOD[9:6] (R179). -/
def LSize.code : LSize → BitVec 10
  | .b false => 0 | .h false => 1 | .w => 2 | .d => 3 | .q => 4 | .b true => 8 | .h true => 9
def LSize.ofCode (x : BitVec 10) : Option LSize :=
  match x.toNat with
  | 0 => some (.b false) | 1 => some (.h false) | 2 => some .w | 3 => some .d | 4 => some .q | 8 => some (.b true)
  | 9 => some (.h true) | _ => none

/-- Size codes of STL (R179). -/
def SSize.code : SSize → BitVec 10
  | .b => 0 | .h => 1 | .w => 2 | .d => 3 | .q => 4
def SSize.ofCode (x : BitVec 10) : Option SSize :=
  match x.toNat with
  | 0 => some .b | 1 => some .h | 2 => some .w | 3 => some .d | 4 => some .q | _ => none

/-- Atomic operations (R186). -/
def AtomOp.code : AtomOp → BitVec 10
  | .add => 0 | .add64 => 1 | .fadd => 2 | .mins => 3 | .maxs => 4 | .minu => 5 | .maxu => 6 | .mins64 => 7 | .maxs64 => 8
  | .minu64 => 9 | .maxu64 => 10 | .and => 11 | .or => 12 | .xor => 13 | .and64 => 14 | .or64 => 15 | .xor64 => 16
  | .exch => 17 | .exch64 => 18
def AtomOp.ofCode (x : BitVec 10) : Option AtomOp :=
  match x.toNat with
  | 0 => some .add | 1 => some .add64 | 2 => some .fadd | 3 => some .mins | 4 => some .maxs | 5 => some .minu
  | 6 => some .maxu | 7 => some .mins64 | 8 => some .maxs64 | 9 => some .minu64 | 10 => some .maxu64 | 11 => some .and
  | 12 => some .or | 13 => some .xor | 14 => some .and64 | 15 => some .or64 | 16 => some .xor64 | 17 => some .exch
  | 18 => some .exch64 | _ => none

/-- U operator codes (R79). -/
def UOp.code : UOp → BitVec 10
  | .uadd32 => 1 | .uadd64 => 2 | .umins => 3 | .umaxs => 4 | .uminu => 5 | .umaxu => 6 | .uminf => 7 | .umaxf => 8
  | .uor64 => 9 | .uacc => 10
def UOp.ofCode (x : BitVec 10) : Option UOp :=
  match x.toNat with
  | 1 => some .uadd32 | 2 => some .uadd64 | 3 => some .umins | 4 => some .umaxs | 5 => some .uminu | 6 => some .umaxu
  | 7 => some .uminf | 8 => some .umaxf | 9 => some .uor64 | 10 => some .uacc | _ => none

/-- MMA's modes (R229). -/
def MmaMode.code : MmaMode → BitVec 2
  | .m1x4 => 0 | .m2x2 => 1 | .m4x1 => 2 | .m4i => 3
def MmaMode.ofCode (n : BitVec 2) : MmaMode :=
  match n.toNat with
  | 0 => .m1x4 | 1 => .m2x2 | 2 => .m4x1 | _ => .m4i

/-- COLL's op and .sw in MOD (R214, R243). -/
def CollKind.code : CollKind → BitVec 16
  | .put => 0 | .red => 1 | .redSw => 5
def CollKind.ofCode (m : BitVec 16) : Option CollKind :=
  match m.toNat with
  | 0 => some .put | 1 => some .red | 5 => some .redSw | _ => none

/-- TRAPRET's modes in word0[13:0] (R332). -/
def RetMode.code : RetMode → BitVec 14
  | .reg => 0 | .retry => 1 | .next => 2
def RetMode.ofCode (n : BitVec 14) : Option RetMode :=
  match n.toNat with
  | 0 => some .reg | 1 => some .retry | 2 => some .next | _ => none

/-! ### Register fields -/

/-- A scalar register field (R128). -/
def s6 (n : BitVec 7) : Option (BitVec 6) := if n.getLsbD 6 then none else some (n.extractLsb' 0 6)
/-- A predicate field (R128). -/
def p4 (n : BitVec 7) : Option (BitVec 4) := if n.extractLsb' 4 3 = 0 then some (n.extractLsb' 0 4) else none
/-- A tile or event-slot field (R128). -/
def e3 (n : BitVec 7) : Option (BitVec 3) := if n.extractLsb' 3 4 = 0 then some (n.extractLsb' 0 3) else none
def s7 (n : BitVec 6) : BitVec 7 := n.setWidth 7
def p7 (n : BitVec 4) : BitVec 7 := n.setWidth 7
def e7 (n : BitVec 3) : BitVec 7 := n.setWidth 7

/-- `x` when a check holds. -/
def check {α : Type} (c : Bool) (x : α) : Option α := if c then some x else none

/-! ## Reading the main set -/

namespace Raw

/-- Header of a BA instruction (R126, R129). -/
def hdr (lat : Bool) (r : Raw) : Option Hdr := check ((⟨r.form, ⟨r.pr, r.pn⟩, r.la⟩ : Hdr).wf lat) ⟨r.form, ⟨r.pr, r.pn⟩, r.la⟩

/-- Header of an extended-only instruction; `lit` says whether it stands with a literal. -/
def xhdr (r : Raw) : Option XHdr := check ((⟨⟨r.pr, r.pn⟩, r.la⟩ : XHdr).wf) ⟨⟨r.pr, r.pn⟩, r.la⟩

/-- Header of a control or system instruction (base or extended, no LA). -/
def chdr (r : Raw) : Option CHdr :=
  check (!r.form.isLit && r.la == 0 && (⟨r.form.isExt, ⟨r.pr, r.pn⟩⟩ : CHdr).wf) ⟨r.form.isExt, ⟨r.pr, r.pn⟩⟩

/-- The B operand of a row with B/imm (R125). -/
def srcB (k : BKind) (r : Raw) : Option SrcB :=
  if r.form.isLit then check (r.b == 0 && !r.ib && r.w2 == 0 && litFits k r.lit) (.lit r.lit)
  else if r.ib then check (r.b == 0 && k != .f64) (.imm r.w2)
  else check (r.w2 == 0) (.reg r.b)

/-- A row without B/imm: no literal, IB 0, word 2 zero (R145). -/
def noImm (r : Raw) : Bool := !r.form.isLit && !r.ib && r.w2 == 0

/-- A rounding code where the row accepts it (R46). -/
def rm (r : Raw) : Option Rm := Rm.ofCode r.rmBits

def rDA (lat : Bool) (mk : DA → Instr) (r : Raw) : Option Instr := do
  let h ← r.hdr lat
  check (r.noImm && r.b == 0 && r.c == 0 && r.mod == 0) (mk ⟨h, r.u, r.d, r.a⟩)

def rDAB (k : BKind) (mk : DAB → Instr) (r : Raw) : Option Instr := do
  let h ← r.hdr false
  let b ← r.srcB k
  check (r.c == 0 && r.x == 0 && r.rmBits == 0) (mk ⟨h, r.u, r.d, r.a, b⟩)

def rDABC (k : BKind) (mk : DABC → Instr) (r : Raw) : Option Instr := do
  let h ← r.hdr false
  let b ← r.srcB k
  check (r.x == 0 && r.rmBits == 0) (mk ⟨h, r.u, r.d, r.a, b, r.c⟩)

/-- BFI, BYSEL and FSHR: IB replaces C (R149). -/
def rDABCi (mk : DABCi → Instr) (r : Raw) : Option Instr := do
  let h ← r.hdr false
  let c ← if r.ib then check (r.c == 0) (SrcC.imm r.w2) else check (r.w2 == 0) (SrcC.reg r.c)
  check (!r.form.isLit && r.x == 0 && r.rmBits == 0) (mk ⟨h, r.u, r.d, r.a, r.b, c⟩)

def rDAR (lat : Bool) (mk : DAR → Instr) (r : Raw) : Option Instr := do
  let h ← r.hdr lat
  let m ← r.rm
  check (r.noImm && r.b == 0 && r.c == 0 && r.x == 0) (mk ⟨h, r.u, r.d, r.a, m⟩)

def rDABR (lat : Bool) (k : BKind) (mk : DABR → Instr) (r : Raw) : Option Instr := do
  let h ← r.hdr lat
  let b ← r.srcB k
  let m ← r.rm
  check (r.c == 0 && r.x == 0) (mk ⟨h, r.u, r.d, r.a, b, m⟩)

def rDABCR (k : BKind) (mk : DABCR → Instr) (r : Raw) : Option Instr := do
  let h ← r.hdr false
  let b ← r.srcB k
  let m ← r.rm
  check (r.x == 0) (mk ⟨h, r.u, r.d, r.a, b, r.c, m⟩)

/-- A conversion with a half selector in MOD[4] (R158). -/
def rDAHalf (rounds : Bool) (mk : DAHalf → Instr) (r : Raw) : Option Instr := do
  let h ← r.hdr false
  let m ← r.rm
  check (r.noImm && r.b == 0 && r.c == 0 && r.x.extractLsb' 1 11 == 0 && (rounds || m == .rne))
    (mk ⟨h, r.u, r.d, r.a, m, r.x.getLsbD 0⟩)

/-- A conversion with a byte selector in MOD[5:4] (R158). -/
def rDAByte (rounds : Bool) (mk : DAByte → Instr) (r : Raw) : Option Instr := do
  let h ← r.hdr false
  let m ← r.rm
  check (r.noImm && r.b == 0 && r.c == 0 && r.x.extractLsb' 2 10 == 0 && (rounds || m == .rne))
    (mk ⟨h, r.u, r.d, r.a, m, r.x.extractLsb' 0 2⟩)

def rICmp (mk : ICmp → Instr) (r : Raw) : Option Instr := do
  let h ← r.hdr false
  let b ← r.srcB .w32
  let pd ← p4 r.d
  let cc ← ICond.ofCode r.x
  check (r.c == 0 && r.rmBits == 0) (mk ⟨h, r.u, pd, r.a, b, cc⟩)

def rICmp64 (r : Raw) : Option Instr := do
  let h ← r.hdr false
  let b ← r.srcB .w64
  let pd ← p4 r.d
  let cc ← ICond64.ofCode r.x
  check (r.c == 0 && r.rmBits == 0) (.icmp64 ⟨h, r.u, pd, r.a, b, cc⟩)

def rFCmp (r : Raw) : Option Instr := do
  let h ← r.hdr false
  let b ← r.srcB .w32
  let pd ← p4 r.d
  let cc ← FCond.ofCode r.x
  check (r.c == 0 && r.rmBits == 0) (.fcmp ⟨h, r.u, pd, r.a, b, cc⟩)

def rSel (r : Raw) : Option Instr := do
  let h ← r.hdr false
  let b ← r.srcB .w32
  let pc ← p4 r.c
  check (r.x == 0 && r.rmBits == 0) (.sel ⟨h, r.u, r.d, r.a, b, pc⟩)

/-- PLOP: the table is MOD[11:4] (R151). -/
def rPlop (r : Raw) : Option Instr := do
  let h ← r.hdr false
  let pd ← p4 r.d
  let pa ← p4 r.a
  let pb ← p4 r.b
  let pc ← p4 r.c
  check (r.noImm && !r.u && r.rmBits == 0 && r.x.extractLsb' 8 4 == 0) (.plop ⟨h, pd, pa, pb, pc, r.x.extractLsb' 0 8⟩)

/-- PMOV: the mode is MOD[5:4] (R151). -/
def rPmov (r : Raw) : Option Instr := do
  let h ← r.hdr false
  let m ← match r.x.toNat with
    | 0 => do
      let pd ← p4 r.d
      let pa ← p4 r.a
      some (PmovMode.copy pd pa)
    | 1 => check (r.a == 0) (PmovMode.get r.d)
    | 2 => check (r.d == 0) (PmovMode.set r.a)
    | _ => none
  check (r.noImm && !r.u && r.rmBits == 0 && r.b == 0 && r.c == 0) (.pmov ⟨h, m⟩)

/-- LEA: k in MOD[6:4], .sx in MOD[7], scalar A in MOD[8] (R152). -/
def rLea (r : Raw) : Option Instr := do
  let h ← r.hdr false
  check (r.noImm && r.rmBits == 0 && r.c == 0 && r.x.extractLsb' 5 7 == 0 && !(r.u && r.x.getLsbD 4))
    (.lea ⟨h, r.u, r.d, r.a, r.b, r.x.extractLsb' 0 3, r.x.getLsbD 3, r.x.getLsbD 4⟩)

/-- MOV: the mode is MOD[5:4], with U for the same-file forms (R152). -/
def rMov (r : Raw) : Option Instr := do
  let h ← r.hdr false
  let m ← match r.u, r.x.toNat with
    | false, 0 => some (MovMode.vv r.d r.a)
    | true, 0 => do
      let d ← s6 r.d
      let a ← s6 r.a
      some (MovMode.ss d a)
    | false, 1 => do
      let a ← s6 r.a
      some (MovMode.vs r.d a)
    | false, 2 => do
      let d ← s6 r.d
      some (MovMode.sv d r.a)
    | _, _ => none
  check (r.noImm && r.rmBits == 0 && r.b == 0 && r.c == 0) (.mov ⟨h, m⟩)

/-- MOVI: the immediate is word0[13:0] in base words and IMM32 in extended ones (R152). -/
def rMovi (r : Raw) : Option Instr := do
  let h ← r.hdr false
  if r.form.isExt then check (!r.form.isLit && r.a == 0 && r.b == 0 && r.c == 0 && r.mod == 0) (.movi ⟨h, r.u, r.d, .long r.w2⟩)
  else check (!r.form.isLit) (.movi ⟨h, r.u, r.d, .short r.imm14⟩)

/-- MOVL: literal forms only (R152). -/
def rMovl (r : Raw) : Option Instr := do
  let h ← r.hdr false
  check (r.form.isLit && r.a == 0 && r.b == 0 && r.c == 0 && r.mod == 0 && r.w2 == 0) (.movl ⟨h, r.u, r.d, r.lit⟩)

def rMovsr (r : Raw) : Option Instr := do
  let h ← r.hdr false
  let sr ← SReg.ofCode r.a
  check (r.noImm && r.mod == 0 && r.b == 0 && r.c == 0 && !(r.u && sr == .laneid)) (.movsr ⟨h, r.u, r.d, sr⟩)

/-- QUANT: C names a scalar, the target is MOD[5:4] (R159). -/
def rQuant (r : Raw) : Option Instr := do
  let h ← r.hdr false
  let sc ← s6 r.c
  let t ← QTarget.ofCode r.x
  check (r.noImm && !r.u && r.rmBits == 0 && r.b == 0) (.quant ⟨h, r.d, r.a, sc, t⟩)

def rShfl (mk : Shfl → Instr) (r : Raw) : Option Instr := do
  let h ← r.hdr false
  let b ← r.srcB .w32
  check (!r.u && r.c == 0 && r.mod == modArith 0 r.ib 0) (mk ⟨h, r.d, r.a, b⟩)

/-- BCAST: B names a scalar (R162). -/
def rBcast (r : Raw) : Option Instr := do
  let h ← r.hdr false
  let b ← match r.srcB .w32 with
    | some (.reg n) => (s6 n).map SrcSL.reg
    | some (.imm v) => some (SrcSL.imm v)
    | some (.lit v) => some (SrcSL.lit v)
    | none => none
  check (!r.u && r.c == 0 && r.x == 0 && r.rmBits == 0) (.bcast ⟨h, r.d, r.a, b⟩)

/-- BALLOT: .bit is MOD[4] (R163). -/
def rBallot (r : Raw) : Option Instr := do
  let h ← r.hdr false
  let src ← match r.x.toNat with
    | 0 => if r.noImm && r.b == 0 then (p4 r.a).map BallotSrc.pred else none
    | 1 => (r.srcB .w32).map (BallotSrc.bit r.a)
    | _ => none
  check (r.c == 0 && r.rmBits == 0) (.ballot ⟨h, r.u, r.d, src⟩)

def rVote (r : Raw) : Option Instr := do
  let h ← r.hdr false
  let pd ← p4 r.d
  let pa ← p4 r.a
  let m ← VoteMode.ofCode r.x
  check (r.noImm && !r.u && r.b == 0 && r.c == 0 && r.rmBits == 0) (.vote ⟨h, pd, pa, m⟩)

/-- SCAN: op in MOD[7:4], exclusive in MOD[8] (R164). -/
def rScan (r : Raw) : Option Instr := do
  let h ← r.hdr false
  let op ← FoldOp.ofCode (r.x.extractLsb' 0 4)
  let m ← r.rm
  check (r.noImm && !r.u && r.b == 0 && r.c == 0 && r.x.extractLsb' 5 7 == 0 && (op == .fadd || m == .rne))
    (.scan ⟨h, r.d, r.a, op, r.x.getLsbD 4, m⟩)

def rRedux (r : Raw) : Option Instr := do
  let h ← r.hdr false
  let op ← FoldOp.ofCode (r.x.extractLsb' 0 4)
  let m ← r.rm
  check (r.noImm && r.b == 0 && r.c == 0 && r.x.extractLsb' 4 8 == 0 && (op == .fadd || m == .rne))
    (.redux ⟨h, r.u, r.d, r.a, op, m⟩)

def rMatch (r : Raw) : Option Instr := do
  let h ← r.hdr false
  check (r.noImm && !r.u && r.b == 0 && r.c == 0 && r.rmBits == 0 && r.x.extractLsb' 1 11 == 0)
    (.matchLanes ⟨h, r.d, r.a, r.x.getLsbD 0⟩)

/-- SPCOMP and SPEXP: pattern in MOD[5:4], format in MOD[8:6] (R166). -/
def rSp (mk : Sp → Instr) (r : Raw) : Option Instr := do
  let h ← r.hdr false
  let f ← SpFmt.ofCode (r.x.extractLsb' 2 3)
  let m ← SpPat.ofCode (r.x.extractLsb' 0 2)
  check (r.noImm && !r.u && r.b == 0 && r.c == 0 && r.rmBits == 0 && r.x.extractLsb' 5 7 == 0) (mk ⟨h, r.d, r.a, f, m⟩)

def rSwz (r : Raw) : Option Instr := do
  let h ← r.hdr false
  check (r.noImm && !r.u && r.b == 0 && r.c == 0 && r.rmBits == 0 && r.x.extractLsb' 8 4 == 0)
    (.swz4 ⟨h, r.d, r.a, r.x.extractLsb' 0 8⟩)

def rLsort (r : Raw) : Option Instr := do
  let h ← r.hdr false
  check (r.noImm && !r.u && r.b == 0 && r.c == 0 && r.rmBits == 0 && r.x.extractLsb' 1 11 == 0)
    (.lsort ⟨h, r.d, r.a, r.x.getLsbD 0⟩)

/-! ### Control -/

/-- BRA and CALL, BJ layout (R120, R122). -/
def rBj (mk : Bj → Instr) (r : Raw) : Option Instr :=
  let o : Bj := ⟨r.low22.extractLsb' 18 4, r.low22.getLsbD 17, r.low22.extractLsb' 0 17⟩
  check (r.form == .base && o.wf) (mk o)

/-- A row whose MOD, C and word 2 are all 0. -/
def plain (r : Raw) : Bool := r.c == 0 && r.mod == 0 && r.w2 == 0

def rBrx (r : Raw) : Option Instr := do
  let h ← r.chdr
  check (r.plain && r.d == 0 && r.b == 0) (.brx ⟨h, r.u, r.a⟩)

def rRet (r : Raw) : Option Instr := do
  let h ← r.chdr
  let a ← s6 r.a
  check (r.plain && !r.u && r.d == 0 && r.b == 0) (.ret ⟨h, a⟩)

/-- A base word whose fields are all 0: JOIN and REGION (R170). -/
def rBare (i : Instr) (r : Raw) : Option Instr := check (r.form == .base && r.low22 == 0) i

def rRegang (r : Raw) : Option Instr := check (r.form == .base && !r.u && r.d == 0) (.regang r.imm14)

def rExit (r : Raw) : Option Instr := do
  let h ← r.chdr
  check (r.plain && r.low22 == 0) (.exit h)

/-- NOP: 0x1DC0_0000, or with word 1 0x0F00_0000 and word 2 0 (R170). -/
def rNop (r : Raw) : Option Instr :=
  check (!r.form.isLit && r.low22 == 0 && r.plain && r.la == 0 && r.pr == 15 && !r.pn) (.nop r.form.isExt)

/-- A scalar or IMM32 (IB) operand in B (R171, R174). -/
def srcS (r : Raw) : Option SrcS :=
  if r.ib then check (r.b == 0) (.imm r.w2)
  else if r.w2 == 0 then (s6 r.b).map SrcS.reg else none

def rSleep (r : Raw) : Option Instr := do
  let h ← r.chdr
  let b ← r.srcS
  check (!r.u && r.d == 0 && r.a == 0 && r.c == 0 && r.x == 0 && r.rmBits == 0) (.sleep ⟨h, b⟩)

def rTrap (r : Raw) : Option Instr := do
  let h ← r.chdr
  check (r.plain && !r.u && r.d == 0) (.trap ⟨h, r.imm14⟩)

def rSetprio (r : Raw) : Option Instr := do
  let h ← r.chdr
  check (r.plain && !r.u && r.d == 0 && r.a == 0 && r.b.extractLsb' 1 6 == 0) (.setprio ⟨h, r.b.getLsbD 0⟩)

def rSetsr (r : Raw) : Option Instr := do
  let h ← r.chdr
  let b ← r.srcS
  let n ← WReg.ofCode r.d
  check (!r.u && r.a == 0 && r.c == 0 && r.x == 0 && r.rmBits == 0) (.setsr ⟨h, n, b⟩)

/-! ### Memory (R175) -/

def ea (r : Raw) : Ea := ⟨r.u, r.a, r.w2⟩

/-- The data operand: a register in LEN 0b01, the literal in LEN 0b11 (R175). -/
def srcV (k : BKind) (r : Raw) : Option SrcV :=
  if r.form.isLit then check (r.b == 0 && litFits k r.lit) (.lit r.lit) else some (.reg r.b)

/-- LEN 0b01 only. -/
def noLit (r : Raw) : Bool := !r.form.isLit

/-- ORD and SCOPE both 0 (.rlx, .dev). -/
def noOrd (r : Raw) : Bool := r.ordBits == 0 && r.scopeBits == 0

/-- LD8 and LD16: .s is MOD[6]. -/
def rLdS (mk : LdS → Instr) (r : Raw) : Option Instr := do
  let h ← r.xhdr
  let q ← acqOf r.ordBits
  let sc ← Scope.ofCode r.scopeBits
  check (r.noLit && r.b == 0 && r.c == 0 && r.mx.extractLsb' 1 9 == 0) (mk ⟨h, r.d, r.ea, q, sc, r.mx.getLsbD 0⟩)

def rLd (mk : Ld → Instr) (r : Raw) : Option Instr := do
  let h ← r.xhdr
  let q ← acqOf r.ordBits
  let sc ← Scope.ofCode r.scopeBits
  check (r.noLit && r.b == 0 && r.c == 0 && r.mx == 0) (mk ⟨h, r.d, r.ea, q, sc⟩)

def rLdSz (mk : LdSz → Instr) (r : Raw) : Option Instr := do
  let h ← r.xhdr
  let q ← acqOf r.ordBits
  let sc ← Scope.ofCode r.scopeBits
  let sz ← LSize.ofCode r.mx
  check (r.noLit && r.b == 0 && r.c == 0) (mk ⟨h, r.d, r.ea, q, sc, sz⟩)

def rSt (k : BKind) (mk : St → Instr) (r : Raw) : Option Instr := do
  let h ← r.xhdr
  let l ← relOf r.ordBits
  let sc ← Scope.ofCode r.scopeBits
  let b ← r.srcV k
  check (r.d == 0 && r.c == 0 && r.mx == 0) (mk ⟨h, r.ea, b, l, sc⟩)

def rSt128 (r : Raw) : Option Instr := do
  let h ← r.xhdr
  let l ← relOf r.ordBits
  let sc ← Scope.ofCode r.scopeBits
  check (r.noLit && r.d == 0 && r.c == 0 && r.mx == 0) (.st128 ⟨h, r.ea, r.b, l, sc⟩)

def rStl (r : Raw) : Option Instr := do
  let h ← r.xhdr
  let l ← relOf r.ordBits
  let sc ← Scope.ofCode r.scopeBits
  let sz ← SSize.ofCode r.mx
  check (r.noLit && r.d == 0 && r.c == 0) (.stl ⟨h, r.ea, r.b, l, sc, sz⟩)

def rPref (r : Raw) : Option Instr := do
  let h ← r.xhdr
  check (r.noLit && r.noOrd && r.d == 0 && r.b == 0 && r.c == 0 && r.mx.extractLsb' 1 9 == 0) (.pref ⟨h, r.ea, r.mx.getLsbD 0⟩)

def rRange (mk : Range → Instr) (r : Raw) : Option Instr := do
  let h ← r.xhdr
  check (r.noLit && r.mod == 0 && r.d == 0 && r.b == 0 && r.c == 0) (mk ⟨h, r.u, r.a, r.w2⟩)

def rFence (r : Raw) : Option Instr := do
  let h ← r.xhdr
  let o ← FenceOrd.ofCode r.ordBits
  let sc ← Scope.ofCode r.scopeBits
  check (r.noLit && r.low22 == 0 && r.c == 0 && r.w2 == 0 && r.mx.extractLsb' 1 9 == 0) (.fence ⟨h, o, sc, r.mx.getLsbD 0⟩)

/-- Barrier rows require U = 1 (R176). -/
def rBarB (mk : BarB → Instr) (r : Raw) : Option Instr := do
  let h ← r.xhdr
  let a ← s6 r.a
  let b ← s6 r.b
  check (r.noLit && r.mod == 0 && r.u && r.d == 0 && r.c == 0) (mk ⟨h, a, r.w2, b⟩)

/-- BARARR: .n is MOD[6], .rlx is MOD[7] with ORD 0 (R195). -/
def rBararr (r : Raw) : Option Instr := do
  let h ← r.xhdr
  let d ← s6 r.d
  let a ← s6 r.a
  let n ← if r.mx.getLsbD 0 then (s6 r.b).map some else check (r.b == 0) none
  let o ← match r.ordBits.toNat, r.mx.getLsbD 1 with
    | 0, false => some ArrOrd.dflt
    | 2, false => some ArrOrd.rel
    | 0, true => some ArrOrd.rlx
    | _, _ => none
  check (r.noLit && r.u && r.c == 0 && r.scopeBits == 0 && r.mx.extractLsb' 2 8 == 0) (.bararr ⟨h, d, a, r.w2, n, o⟩)

def rPhase (r : Raw) : Option Instr := do
  let h ← r.xhdr
  let d ← s6 r.d
  check (r.noLit && r.noOrd && !r.u && r.a == 0 && r.b == 0 && r.c == 0 && r.w2 == 0 && r.mx.extractLsb' 3 7 == 0)
    (.phase ⟨h, d, r.mx.extractLsb' 0 3⟩)

def rMsend (r : Raw) : Option Instr := do
  let h ← r.xhdr
  let l ← relOf r.ordBits
  let sc ← Scope.ofCode r.scopeBits
  check (r.noLit && r.c == 0 && r.mx == 0) (.msend ⟨h, r.d, r.ea, r.b, l, sc⟩)

/-- EVSET: the kind is MOD[8:6]; B stands with .bar alone (R202). -/
def rEvset (r : Raw) : Option Instr := do
  let h ← r.xhdr
  let e ← e3 r.d
  let a ← s6 r.a
  let k ← match r.mx.toNat with
    | 0 => (s6 r.b).map EvKind.bar
    | 1 => check (r.b == 0) EvKind.stat
    | 2 => check (r.b == 0) EvKind.mbox
    | 3 => check (r.b == 0) EvKind.hyp
    | 4 => check (r.b == 0) EvKind.timer
    | _ => none
  check (r.noLit && r.noOrd && !r.u && r.c == 0 && r.w2.extractLsb' 0 2 == 0) (.evset ⟨h, e, a, k, r.w2⟩)

def rEvclr (r : Raw) : Option Instr := do
  let h ← r.xhdr
  let e ← e3 r.d
  check (r.noLit && r.mod == 0 && !r.u && r.a == 0 && r.b == 0 && r.c == 0 && r.w2 == 0) (.evclr ⟨h, e⟩)

/-- WAITANY: no guard, a list in MOD[13:6] that is not empty (R205). -/
def rWaitany (r : Raw) : Option Instr :=
  check (r.noLit && r.pr == 15 && !r.pn && r.noOrd && r.low22 == 0 && r.c == 0 && r.w2 == 0 && r.mx.extractLsb' 8 2 == 0 &&
    r.mx.extractLsb' 0 8 != 0) (.waitany ⟨r.la, r.mx.extractLsb' 0 8⟩)

def rHypDA (mk : HypDA → Instr) (r : Raw) : Option Instr := do
  let h ← r.xhdr
  let d ← s6 r.d
  let a ← s6 r.a
  check (r.noLit && r.mod == 0 && !r.u && r.b == 0 && r.c == 0 && r.w2 == 0) (mk ⟨h, d, a⟩)

def rHypenter (r : Raw) : Option Instr := do
  let h ← r.xhdr
  let a ← s6 r.a
  let b ← s6 r.b
  check (r.noLit && r.mod == 0 && !r.u && r.d == 0 && r.c == 0 && r.w2 == 0) (.hypenter ⟨h, a, b⟩)

def rHypres (r : Raw) : Option Instr := do
  let h ← r.xhdr
  let d ← s6 r.d
  let a ← s6 r.a
  check (r.noLit && r.noOrd && !r.u && r.b == 0 && r.c == 0 && r.w2 == 0 && r.mx.extractLsb' 1 9 == 0)
    (.hypres ⟨h, d, a, r.mx.getLsbD 0⟩)

def rAtom (r : Raw) : Option Instr := do
  let h ← r.xhdr
  let o ← Ord4.ofCode r.ordBits
  let sc ← Scope.ofCode r.scopeBits
  let op ← AtomOp.ofCode r.mx
  let b ← r.srcV op.kind
  check (r.c == 0) (.atom ⟨h, r.d, r.ea, b, op, o, sc⟩)

def rRed (r : Raw) : Option Instr := do
  let h ← r.xhdr
  let l ← relOf r.ordBits
  let sc ← Scope.ofCode r.scopeBits
  let op ← AtomOp.ofCode r.mx
  let b ← r.srcV op.kind
  check (r.d == 0 && r.c == 0) (.red ⟨h, r.ea, b, op, l, sc⟩)

def rRedm (r : Raw) : Option Instr := do
  let h ← r.xhdr
  let sc ← Scope.ofCode r.scopeBits
  let op ← AtomOp.ofCode r.mx
  let b ← r.srcV op.kind
  check (r.ordBits == 0 && r.d == 0 && r.c == 0 && op != .exch && op != .exch64) (.redm ⟨h, r.ea, b, op, sc⟩)

/-- CAS and CASGT: .w64 is MOD[6] (R189). -/
def rCas (r : Raw) : Option Instr := do
  let h ← r.xhdr
  let o ← Ord4.ofCode r.ordBits
  let sc ← Scope.ofCode r.scopeBits
  let b ← r.srcV (if r.mx.getLsbD 0 then .w64 else .w32)
  check (r.mx.extractLsb' 1 9 == 0) (.cas ⟨h, r.d, r.ea, b, r.c, r.mx.getLsbD 0, o, sc⟩)

def rCasgt (r : Raw) : Option Instr := do
  let h ← r.xhdr
  let o ← Ord4.ofCode r.ordBits
  let sc ← Scope.ofCode r.scopeBits
  let b ← r.srcV (if r.mx.getLsbD 0 then .w64 else .w32)
  check (r.c == 0 && r.mx.extractLsb' 1 9 == 0) (.casgt ⟨h, r.d, r.ea, b, r.mx.getLsbD 0, o, sc⟩)

def rCasR (mk : CasR → Instr) (r : Raw) : Option Instr := do
  let h ← r.xhdr
  let o ← Ord4.ofCode r.ordBits
  let sc ← Scope.ofCode r.scopeBits
  check (r.noLit && r.mx == 0) (mk ⟨h, r.d, r.ea, r.b, r.c, o, sc⟩)

def rUpd (mk : Upd → Instr) (r : Raw) : Option Instr := do
  let h ← r.xhdr
  check (r.noLit && r.mod == 0 && r.d == 0 && r.c == 0) (mk ⟨h, r.ea, r.b⟩)

def rUacc (r : Raw) : Option Instr := do
  let h ← r.xhdr
  check (r.noLit && r.noOrd && r.d == 0 && r.c == 0 && r.mx.extractLsb' 1 9 == 0) (.uacc ⟨h, r.ea, r.b, r.mx.getLsbD 0⟩)

def rUsnap (r : Raw) : Option Instr := do
  let h ← r.xhdr
  let o ← Ord4.ofCode r.ordBits
  let sc ← Scope.ofCode r.scopeBits
  let op ← UOp.ofCode r.mx
  check (r.noLit && r.b == 0 && r.c == 0) (.usnap ⟨h, r.d, r.ea, op, o, sc⟩)

/-! ### Engines (R214, R215) -/

/-- LEN 0b01, U = 0 and C = 0 (R215). -/
def eng (r : Raw) : Bool := r.noLit && !r.u && r.c == 0

/-- TDSET: N in MOD[7:0], .m in MOD[8]. -/
def rTdset (r : Raw) : Option Instr := do
  let h ← r.xhdr
  let a ← s6 r.a
  let src ← if r.mod.getLsbD 8 then some (TdSrc.mem a r.w2) else check (r.w2 == 0) (TdSrc.regs a)
  check (r.eng && r.d == 0 && r.b == 0 && r.mod.extractLsb' 9 7 == 0) (.tdset ⟨h, r.mod.extractLsb' 0 8, src⟩)

def rTdget (r : Raw) : Option Instr := do
  let h ← r.xhdr
  let d ← s6 r.d
  check (r.eng && r.a == 0 && r.b == 0 && r.w2 == 0 && r.mod.extractLsb' 8 8 == 0) (.tdget ⟨h, d, r.mod.extractLsb' 0 8⟩)

def rMload (r : Raw) : Option Instr := do
  let h ← r.xhdr
  let d ← s6 r.d
  check (r.eng && r.a == 0 && r.b == 0 && r.mod.extractLsb' 3 13 == 0 && r.w2.extractLsb' 8 24 == 0)
    (.mload ⟨h, d, r.w2.extractLsb' 0 8, r.mod.extractLsb' 0 2, r.mod.getLsbD 2⟩)

/-- MLOADSP: sub-array, PAT, FIRST and BANDS in MOD[8:0] (R227). -/
def rMloadsp (r : Raw) : Option Instr := do
  let h ← r.xhdr
  let d ← s6 r.d
  let pat ← SpPat.ofMxCode (r.mod.extractLsb' 2 2)
  let o : Mloadsp := ⟨h, d, r.w2.extractLsb' 0 8, r.mod.extractLsb' 0 2, pat, r.b, r.mod.extractLsb' 4 4, r.mod.getLsbD 8⟩
  check (r.eng && r.a == 0 && r.mod.extractLsb' 9 7 == 0 && r.w2.extractLsb' 8 24 == 0 && o.wf) (.mloadsp o)

/-- MMA: MODE and T in MOD[2:0]; N, rows − 1 and accrow in word 2 (R229). -/
def rMma (r : Raw) : Option Instr := do
  let h ← r.xhdr
  let d ← s6 r.d
  let a ← s6 r.a
  let o : Mma := ⟨h, d, r.w2.extractLsb' 0 8, r.mod.getLsbD 2, a, r.w2.extractLsb' 8 8, r.w2.extractLsb' 16 7,
    MmaMode.ofCode (r.mod.extractLsb' 0 2)⟩
  check (r.eng && r.b == 0 && r.mod.extractLsb' 3 13 == 0 && r.w2.extractLsb' 23 9 == 0 && o.wf) (.mma o)

def rAccz (r : Raw) : Option Instr := do
  let h ← r.xhdr
  let d ← s6 r.d
  check (r.eng && r.a == 0 && r.b == 0 && r.mod.extractLsb' 3 13 == 0 && !r.w2.getLsbD 7 && r.w2.extractLsb' 15 17 == 0)
    (.accz ⟨h, d, r.mod.extractLsb' 0 3, r.w2.extractLsb' 0 7, r.w2.extractLsb' 8 7⟩)

def rAccrd (r : Raw) : Option Instr := do
  let h ← r.xhdr
  let a ← s6 r.a
  check (r.eng && r.b == 0 && r.mod.extractLsb' 4 12 == 0 && r.w2 == 0)
    (.accrd ⟨h, r.d, r.mod.extractLsb' 0 3, a, r.mod.getLsbD 3⟩)

def rAccwr (r : Raw) : Option Instr := do
  let h ← r.xhdr
  let d ← s6 r.d
  let a ← s6 r.a
  check (r.eng && r.mod.extractLsb' 3 13 == 0 && r.w2 == 0) (.accwr ⟨h, d, r.mod.extractLsb' 0 3, a, r.b⟩)

/-- The credit pair of a copy: A with .cr (MOD[2]), else A is 0. -/
def credit (r : Raw) : Option (Option (BitVec 6)) :=
  if r.mod.getLsbD 2 then (s6 r.a).map some else check (r.a == 0) none

def rCopy (r : Raw) : Option Instr := do
  let h ← r.xhdr
  let d ← s6 r.d
  let cr ← r.credit
  check (r.eng && r.b == 0 && r.mod.extractLsb' 3 13 == 0 && r.w2.extractLsb' 16 16 == 0)
    (.copy ⟨h, d, r.w2.extractLsb' 0 8, r.w2.extractLsb' 8 8, r.mod.extractLsb' 0 2, cr⟩)

def rCopyg (r : Raw) : Option Instr := do
  let h ← r.xhdr
  let d ← s6 r.d
  let cr ← r.credit
  check (r.eng && r.b == 0 && r.mod.extractLsb' 3 13 == 0 && r.w2.extractLsb' 24 8 == 0)
    (.copyg ⟨h, d, r.w2.extractLsb' 0 8, r.w2.extractLsb' 8 8, r.w2.extractLsb' 16 8, r.mod.extractLsb' 0 2, cr⟩)

def rColl (r : Raw) : Option Instr := do
  let h ← r.xhdr
  let d ← s6 r.d
  let op ← CollKind.ofCode r.mod
  check (r.eng && r.w2.extractLsb' 8 24 == 0) (.coll ⟨h, d, r.a, r.b, r.w2.extractLsb' 0 8, op⟩)

def rCell (r : Raw) : Option Instr := do
  let h ← r.xhdr
  let d ← s6 r.d
  let a ← s6 r.a
  check (r.eng && r.b == 0 && r.mod.extractLsb' 1 15 == 0) (.cell ⟨h, d, a, r.w2, r.mod.getLsbD 0⟩)

def rTask (r : Raw) : Option Instr := do
  let h ← r.xhdr
  let d ← s6 r.d
  let a ← s6 r.a
  check (r.eng && r.b == 0 && r.mod.extractLsb' 2 14 == 0) (.task ⟨h, d, a, r.w2, r.mod.extractLsb' 0 2⟩)

def rWinarm (r : Raw) : Option Instr := do
  let h ← r.xhdr
  let d ← s6 r.d
  let o : Winarm := ⟨h, d, r.a, r.w2.extractLsb' 0 8⟩
  check (r.eng && r.b == 0 && r.mod == 0 && r.w2.extractLsb' 8 24 == 0 && o.wf) (.winarm o)

def rWinclr (r : Raw) : Option Instr := do
  let h ← r.xhdr
  check (r.noLit && r.low22 == 0 && r.plain) (.winclr h)

/-! ### System (R310, R317, R318, R332 to R334) -/

def rCsr (mk : Csr → Instr) (r : Raw) : Option Instr := do
  let h ← r.chdr
  let d ← s6 r.d
  check (r.plain && r.u) (mk ⟨h, d, r.imm14⟩)

def rTrapret (r : Raw) : Option Instr := do
  let h ← r.chdr
  let m ← RetMode.ofCode r.imm14
  check (r.plain && !r.u && r.d == 0) (.trapret ⟨h, m⟩)

def rTrapmsk (r : Raw) : Option Instr := do
  let h ← r.chdr
  check (r.plain && !r.u && r.d == 0 && r.imm14.extractLsb' 1 13 == 0) (.trapmsk ⟨h, r.imm14.getLsbD 0⟩)

def rTlbinv (r : Raw) : Option Instr := do
  let h ← r.chdr
  let a ← s6 r.a
  let b ← s6 r.b
  check (r.plain && r.u && r.d == 0) (.tlbinv ⟨h, a, b⟩)

def rHalt (r : Raw) : Option Instr := do
  let h ← r.chdr
  check (r.plain && !r.u && r.d == 0) (.halt ⟨h, r.imm14⟩)

/-- QSTAT: the mode is the B field (R318). -/
def rQstat (r : Raw) : Option Instr := do
  let h ← r.chdr
  let d ← s6 r.d
  match r.b.toNat with
  | 0 => check (r.plain && r.u && r.a == 0) (.qstat ⟨h, d⟩)
  | 1 => check (r.plain && r.u && r.a == 0) (.qstatAdv ⟨h, d⟩)
  | _ => none

/-! ### The opcode map (R138) -/

/-- Row 0x0. -/
def row0 (r : Raw) : Nat → Option Instr
  | 0x1 => r.rDAB .w32 .iadd | 0x2 => r.rDAB .w32 .isub | 0x3 => r.rDAB .w32 .imul | 0x4 => r.rDAB .w32 .imulhs
  | 0x5 => r.rDAB .w32 .imulhu | 0x6 => r.rDABC .w32 .imad | 0x7 => r.rDABC .w32 .imadws | 0x8 => r.rDABC .w32 .imadwu
  | 0x9 => r.rDAB .w64 .iadd64 | 0xA => r.rDAB .w64 .isub64 | 0xB => r.rDAB .w32 .imins | 0xC => r.rDAB .w32 .iminu
  | 0xD => r.rDAB .w32 .imaxs | 0xE => r.rDAB .w32 .imaxu | 0xF => r.rDA false .iabs | _ => none

/-- Row 0x1. -/
def row1 (r : Raw) : Nat → Option Instr
  | 0x0 => r.rDAB .w32 .idivu | 0x1 => r.rDAB .w32 .iremu | 0x2 => r.rDAB .w32 .and | 0x3 => r.rDAB .w32 .or
  | 0x4 => r.rDAB .w32 .xor | 0x5 => r.rDAB .w32 .andn | 0x6 => r.rDAB .w32 .shl | 0x7 => r.rDAB .w32 .shr
  | 0x8 => r.rDAB .w32 .sar | 0x9 => r.rDAB .w32 .rotl | 0xA => r.rDAB .w32 .shl64 | 0xB => r.rDAB .w32 .shr64
  | 0xC => r.rDAB .w32 .sar64 | 0xD => r.rDA false .clz | 0xE => r.rDA false .popc | 0xF => r.rDA false .brev | _ => none

/-- Row 0x2. -/
def row2 (r : Raw) : Nat → Option Instr
  | 0x0 => r.rDAB .w32 .bfeu | 0x1 => r.rDAB .w32 .bfes | 0x2 => r.rDABCi .bfi | 0x3 => r.rDABCi .bysel
  | 0x4 => r.rDABCi .fshr | 0x5 => r.rICmp .icmps | 0x6 => r.rICmp .icmpu | 0x7 => r.rICmp64 | 0x8 => r.rSel | 0x9 => r.rPlop
  | 0xA => r.rPmov | 0xB => r.rLea | 0xC => r.rMov | 0xD => r.rMovi | 0xE => r.rMovl | 0xF => r.rMovsr | _ => none

/-- Row 0x3. -/
def row3 (r : Raw) : Nat → Option Instr
  | 0x0 => r.rDABR false .w32 .fadd | 0x1 => r.rDABR false .w32 .fsub | 0x2 => r.rDABR false .w32 .fmul
  | 0x3 => r.rDABCR .w32 .fmac | 0x4 => r.rDAB .w32 .fmin | 0x5 => r.rDAB .w32 .fmax | 0x6 => r.rFCmp
  | 0x7 => r.rDA false .fclass | 0x8 => r.rDAR true .frcp | 0x9 => r.rDAR true .frsq | 0xA => r.rDAR true .fsqrt
  | 0xB => r.rDABR true .w32 .fdiv | 0xC => r.rDA true .fex2 | 0xD => r.rDA true .flg2 | 0xE => r.rDA true .fsin
  | 0xF => r.rDA true .fcos | _ => none

/-- Row 0x4. -/
def row4 (r : Raw) : Nat → Option Instr
  | 0x0 => r.rDA true .ftanh | 0x1 => r.rDABR false .w32 .badd2 | 0x2 => r.rDABR false .w32 .bmul2
  | 0x3 => r.rDABCR .w32 .bfma2 | 0x4 => r.rDAB .w32 .bmin2 | 0x5 => r.rDAB .w32 .bmax2 | 0x6 => r.rDABR false .w32 .hadd2
  | 0x7 => r.rDABR false .w32 .hmul2 | 0x8 => r.rDABCR .w32 .hfma2 | 0x9 => r.rDABR false .f64 .dadd
  | 0xA => r.rDABR false .f64 .dmul | 0xB => r.rDABCR .f64 .dfma | 0xC => r.rDAR false .cvtF32S32
  | 0xD => r.rDAR false .cvtF32U32 | 0xE => r.rDAR false .cvtS32F32 | 0xF => r.rDAR false .cvtU32F32 | _ => none

/-- Row 0x5. -/
def row5 (r : Raw) : Nat → Option Instr
  | 0x0 => r.rDAHalf true .cvtBf16F32 | 0x1 => r.rDAHalf false .cvtF32Bf16 | 0x2 => r.rDAHalf true .cvtF16F32
  | 0x3 => r.rDAHalf false .cvtF32F16 | 0x4 => r.rDAByte true .cvtE4m3F32 | 0x5 => r.rDAByte false .cvtF32E4m3
  | 0x6 => r.rDAByte true .cvtE5m2F32 | 0x7 => r.rDAByte false .cvtF32E5m2 | 0x8 => r.rDA false .cvtF64F32
  | 0x9 => r.rDAR false .cvtF32F64 | 0xA => r.rQuant | 0xB => r.rDA false .fexpo | 0xC => r.rDAB .w32 .qalign
  | 0xD => r.rDAB .w32 .qunalign | 0xE => r.rDABC .w32 .idp4s | 0xF => r.rDABC .w32 .idp4u | _ => none

/-- Row 0x6. -/
def row6 (r : Raw) : Nat → Option Instr
  | 0x0 => r.rShfl .shfli | 0x1 => r.rShfl .shflup | 0x2 => r.rShfl .shfldn | 0x3 => r.rShfl .shflx | 0x4 => r.rBallot
  | 0x5 => r.rVote | 0x6 => r.rBcast | 0x7 => r.rScan | 0x8 => r.rRedux | 0x9 => r.rMatch | 0xA => r.rSp .spcomp
  | 0xB => r.rSp .spexp | 0xC => r.rSwz | 0xD => r.rLsort | _ => none

/-- Row 0x7. -/
def row7 (r : Raw) : Nat → Option Instr
  | 0x0 => r.rBj .bra | 0x1 => r.rBrx | 0x2 => r.rBj .call | 0x3 => r.rRet | 0x4 => r.rBare .join | 0x5 => r.rRegang
  | 0x6 => r.rExit | 0x7 => r.rNop | 0x8 => r.rBare .region | 0x9 => r.rSleep | 0xA => r.rTrap | 0xB => r.rSetprio
  | 0xC => r.rSetsr | _ => none

/-- Row 0x8. -/
def row8 (r : Raw) : Nat → Option Instr
  | 0x0 => r.rLdS .ld8 | 0x1 => r.rLdS .ld16 | 0x2 => r.rLd .ld32 | 0x3 => r.rLd .ld64 | 0x4 => r.rLd .ld128
  | 0x5 => r.rSt .w32 .st8 | 0x6 => r.rSt .w32 .st16 | 0x7 => r.rSt .w32 .st32 | 0x8 => r.rSt .w64 .st64 | 0x9 => r.rSt128
  | 0xA => r.rLdSz .ldl | 0xB => r.rStl | 0xC => r.rPref | 0xD => r.rRange .cleanr | 0xE => r.rRange .invr
  | 0xF => r.rRange .uflush | _ => none

/-- Row 0x9. -/
def row9 (r : Raw) : Nat → Option Instr
  | 0x0 => r.rFence | 0x1 => r.rBarB .barinit | 0x2 => r.rBararr | 0x3 => r.rBarB .barexp | 0x4 => r.rBarB .barwait
  | 0x5 => r.rPhase | 0x6 => r.rMsend | 0x7 => r.rEvset | 0x8 => r.rEvclr | 0x9 => r.rWaitany | 0xA => r.rHypDA .hypnew
  | 0xB => r.rHypenter | 0xC => r.rHypres | 0xD => r.rHypDA .hypqry | 0xE => r.rLdSz .ldna | _ => none

/-- Row 0xA. -/
def rowA (r : Raw) : Nat → Option Instr
  | 0x0 => r.rAtom | 0x1 => r.rRed | 0x2 => r.rRedm | 0x3 => r.rCas | 0x4 => r.rCasgt | 0x5 => r.rCasR .casv
  | 0x6 => r.rCasR .caspt | 0x7 => r.rCasR .cas128 | 0x8 => r.rUpd .uadd32 | 0x9 => r.rUpd .uadd64 | 0xA => r.rUpd .umins
  | 0xB => r.rUpd .umaxs | 0xC => r.rUpd .uminu | 0xD => r.rUpd .umaxu | 0xE => r.rUpd .uminf | 0xF => r.rUpd .umaxf
  | _ => none

/-- Row 0xB. -/
def rowB (r : Raw) : Nat → Option Instr
  | 0x0 => r.rUpd .uor64 | 0x1 => r.rUacc | 0x2 => r.rUsnap | _ => none

/-- Row 0xC. -/
def rowC (r : Raw) : Nat → Option Instr
  | 0x0 => r.rTdset | 0x1 => r.rTdget | 0x2 => r.rMload | 0x3 => r.rMloadsp | 0x4 => r.rMma | 0x5 => r.rAccz
  | 0x6 => r.rAccrd | 0x7 => r.rAccwr | 0x8 => r.rCopy | 0x9 => r.rCopyg | 0xA => r.rColl | 0xB => r.rCell | 0xC => r.rTask
  | 0xD => r.rWinarm | 0xE => r.rWinclr | _ => none

/-- Row 0xF. -/
def rowF (r : Raw) : Nat → Option Instr
  | 0x0 => r.rCsr .csrr | 0x1 => r.rCsr .csrw | 0x2 => r.rTrapret | 0x3 => r.rTrapmsk | 0x4 => r.rTlbinv | 0x5 => r.rHalt
  | 0x6 => r.rQstat | _ => none

/-- The instruction that the fields spell. -/
def toInstr (r : Raw) : Option Instr :=
  let lo := (r.opc.extractLsb' 0 4).toNat
  match (r.opc.extractLsb' 4 4).toNat with
  | 0x0 => r.row0 lo | 0x1 => r.row1 lo | 0x2 => r.row2 lo | 0x3 => r.row3 lo | 0x4 => r.row4 lo | 0x5 => r.row5 lo
  | 0x6 => r.row6 lo | 0x7 => r.row7 lo | 0x8 => r.row8 lo | 0x9 => r.row9 lo | 0xA => r.rowA lo | 0xB => r.rowB lo
  | 0xC => r.rowC lo | 0xF => r.rowF lo | _ => none

end Raw

/-- An opcode of the map (R120, R138). -/
def opcAssigned (opc : BitVec 8) : Bool :=
  let n := opc.toNat
  (1 ≤ n && n ≤ 0x6D) || (0x70 ≤ n && n ≤ 0x7C) || (0x80 ≤ n && n ≤ 0x9E) || (0xA0 ≤ n && n ≤ 0xB2) ||
  (0xC0 ≤ n && n ≤ 0xCE) || (0xF0 ≤ n && n ≤ 0xF6)

/-- A privileged opcode (R129). -/
def opcPrivileged (opc : BitVec 8) : Bool := 0xF0 ≤ opc.toNat && opc.toNat ≤ 0xF6

/-- The lengths an opcode accepts (R127); descriptions narrow them further. -/
def lenOk (opc : BitVec 8) (f : Form) : Bool :=
  let n := opc.toNat
  if n == 0x70 || n == 0x72 then f == .base
  else if 0x70 ≤ n && n ≤ 0x7C then !f.isLit
  else if 0x80 ≤ n && n ≤ 0xCE then f.isExt
  else if 0xF0 ≤ n then !f.isLit
  else if 0x38 ≤ n && n ≤ 0x40 then f.isExt
  else true

/-- Decode the instruction at the head of some words (R129 steps 1, 3 and 4): the instruction and its length in bytes. -/
def decode (ws : List Word) : Except DecodeError (Instr × Nat) :=
  match ws with
  | [] => .error .truncated
  | w :: _ =>
    if !opcAssigned (wordOpc w) then .error .unassigned
    else if !lenOk (wordOpc w) (Form.ofCode (w.extractLsb' 30 2)) then .error .length
    else
      match Raw.ofWords ws with
      | none => .error .truncated
      | some r =>
        match r.toInstr with
        | none => .error .reserved
        | some i => .ok (i, r.form.bytes)

/-! ## Reading Aqiuf words (10 R259) -/

/-- A vector-register field: its top bit is 0 (R259). -/
def w3 (n : BitVec 4) : Option (BitVec 3) := if n.getLsbD 3 then none else some (n.extractLsb' 0 3)
def w4 (n : BitVec 3) : BitVec 4 := n.setWidth 4

/-- The fields of an Aqiuf word: OP, [25:22], [21:18], [17:14], [13:0]. -/
structure CRaw where
  op : BitVec 6
  d : BitVec 4
  a : BitVec 4
  b : BitVec 4
  f : BitVec 14
  deriving DecidableEq, Repr

def CRaw.word (r : CRaw) : Word := r.op ++ r.d ++ r.a ++ r.b ++ r.f
def CRaw.ofWord (w : Word) : CRaw :=
  ⟨w.extractLsb' 26 6, w.extractLsb' 22 4, w.extractLsb' 18 4, w.extractLsb' 14 4, w.extractLsb' 0 14⟩

namespace CRaw

/-- An RR row with a register or SIMM13 (R259, R260). -/
def rCrr (mk : Crr → Instr) (r : CRaw) : Option Instr :=
  if r.f.getLsbD 13 then check (r.b == 0) (mk ⟨r.d, r.a, .imm (r.f.extractLsb' 0 13)⟩)
  else check (r.f == 0) (mk ⟨r.d, r.a, .reg r.b⟩)

def rCshl (r : CRaw) : Option Instr := check (r.b == 0 && r.f.extractLsb' 7 7 == 0) (.cshl r.d r.a (r.f.extractLsb' 0 7))

def rCbr (r : CRaw) : Option Instr :=
  match r.d.toNat with
  | 0 => some (.cbr .eq r.a r.b r.f) | 1 => some (.cbr .ne r.a r.b r.f) | 2 => some (.cbr .lt r.a r.b r.f)
  | 3 => some (.cbr .ge r.a r.b r.f) | 4 => some (.cbr .ltu r.a r.b r.f) | 5 => some (.cbr .geu r.a r.b r.f) | _ => none

/-- MEM rows: SZ and L are [17:15] with S in [14], that is the B field; the offset is SIMM14 (R259, R261). -/
def sz (r : CRaw) : BitVec 2 := r.b.extractLsb' 2 2
def isLocal (r : CRaw) : Bool := r.b.getLsbD 1
def sign (r : CRaw) : Bool := r.b.getLsbD 0

def rCld (r : CRaw) : Option Instr :=
  match r.sz.toNat, r.sign with
  | 0, s => some (.cld ⟨r.d, r.a, .b s, r.isLocal, r.f⟩)
  | 1, s => some (.cld ⟨r.d, r.a, .h s, r.isLocal, r.f⟩)
  | 2, s => some (.cld ⟨r.d, r.a, .w s, r.isLocal, r.f⟩)
  | 3, false => some (.cld ⟨r.d, r.a, .d, r.isLocal, r.f⟩)
  | _, _ => none

def rCst (r : CRaw) : Option Instr :=
  match r.sz.toNat, r.sign with
  | 0, false => some (.cst ⟨r.d, r.a, .b, r.isLocal, r.f⟩)
  | 1, false => some (.cst ⟨r.d, r.a, .h, r.isLocal, r.f⟩)
  | 2, false => some (.cst ⟨r.d, r.a, .w, r.isLocal, r.f⟩)
  | 3, false => some (.cst ⟨r.d, r.a, .d, r.isLocal, r.f⟩)
  | _, _ => none

def rCldx (r : CRaw) : Option Instr := check (r.f.extractLsb' 1 13 == 0) (.cldx ⟨r.d, r.a, r.b, r.f.getLsbD 0⟩)

def rVmem (mk : Vmem → Instr) (r : CRaw) : Option Instr := do
  let w ← w3 r.d
  check (r.sz == 0 && !r.sign) (mk ⟨w, r.a, r.isLocal, r.f⟩)

def rVrr (mk : Vrr → Instr) (r : CRaw) : Option Instr := do
  let d ← w3 r.d
  let a ← w3 r.a
  let b ← w3 r.b
  check (r.f == 0) (mk ⟨d, a, b⟩)

def rVrsqf (r : CRaw) : Option Instr := do
  let d ← w3 r.d
  let a ← w3 r.a
  check (r.b == 0 && r.f == 0) (.vrsqf d a)

def rVcvtb (r : CRaw) : Option Instr := do
  let d ← w3 r.d
  let a ← w3 r.a
  let m ← match r.f.toNat with
    | 0 => (w3 r.b).map VcvtMode.b
    | 1 => check (r.b == 0) VcvtMode.f0
    | 2 => check (r.b == 0) VcvtMode.f1
    | _ => none
  some (.vcvtb ⟨d, a, m⟩)

def rVscal (r : CRaw) : Option Instr := do
  let d ← w3 r.d
  let a ← w3 r.a
  check (r.f == 0) (.vscal ⟨d, a, r.b⟩)

def rVred (r : CRaw) : Option Instr := do
  let a ← w3 r.a
  let op ← match r.f.toNat with
    | 0 => some VredOp.fadd | 1 => some VredOp.fmax | 2 => some VredOp.iadd | _ => none
  check (r.b == 0) (.vred ⟨r.d, a, op⟩)

/-- CATOM: op in [13:10], a signed byte offset in [9:0] (R263). -/
def rCatom (r : CRaw) : Option Instr := do
  let op ← match (r.f.extractLsb' 10 4).toNat with
    | 0 => some CAtomOp.add | 1 => some CAtomOp.add64 | 2 => some CAtomOp.fadd | 3 => some CAtomOp.maxs
    | 4 => some CAtomOp.mins | 5 => some CAtomOp.exch | 6 => some CAtomOp.exch64 | _ => none
  some (.catom ⟨r.d, r.a, r.b, op, r.f.extractLsb' 0 10⟩)

def rCsig (r : CRaw) : Option Instr := check (r.a == 0 && r.b == 0 && r.f == 0) (.csig r.d)

def rBareC (i : Instr) (r : CRaw) : Option Instr := check (r.d == 0 && r.a == 0 && r.b == 0 && r.f == 0) i

/-- The Aqiuf instruction of a word (R259 to R264). -/
def toInstr (r : CRaw) : Option Instr :=
  match r.op.toNat with
  | 0x01 => some (.cli r.d (r.a ++ r.b ++ r.f)) | 0x02 => r.rCrr .cadd | 0x03 => r.rCrr .csub | 0x04 => r.rCshl
  | 0x05 => r.rCrr .cand | 0x06 => r.rCbr | 0x07 => some (.cjmp (r.d ++ r.a ++ r.b ++ r.f))
  | 0x08 => some (.cloop r.d (r.a ++ r.b ++ r.f)) | 0x09 => r.rCld | 0x0A => r.rCst | 0x0B => r.rCldx | 0x0C => r.rVmem .vld
  | 0x0D => r.rVmem .vst | 0x0E => r.rVrr .vaddf | 0x0F => r.rVrr .vaddb | 0x10 => r.rVrr .vmulf | 0x11 => r.rVrr .vfmaf
  | 0x12 => r.rVrr .vmaxf | 0x13 => r.rVrsqf | 0x14 => r.rVcvtb | 0x15 => r.rVscal | 0x16 => r.rVred | 0x17 => r.rCatom
  | 0x18 => r.rCsig | 0x19 => r.rBareC .cfence | 0x1A => r.rBareC .chalt | _ => none

end CRaw

/-- Decode an Aqiuf word (R259). -/
def decodeAqiuf (w : Word) : Except DecodeError Instr :=
  let op := (CRaw.ofWord w).op.toNat
  if op == 0 || 0x1A < op then .error .unassigned
  else
    match (CRaw.ofWord w).toInstr with
    | some i => .ok i
    | none => .error .reserved

/-! ## Writing the main set -/

/-- LEN 0b01 or 0b11 with a data literal. -/
def SrcV.form : SrcV → Form
  | .reg _ => .ext
  | .lit _ => .extLit
def SrcV.field : SrcV → BitVec 7
  | .reg n => n
  | .lit _ => 0
def SrcV.litWord : SrcV → BitVec 64
  | .reg _ => 0
  | .lit v => v
def SrcB.field : SrcB → BitVec 7
  | .reg n => n
  | .imm _ | .lit _ => 0
def SrcB.isImm : SrcB → Bool
  | .imm _ => true
  | .reg _ | .lit _ => false
def SrcB.w2 : SrcB → BitVec 32
  | .imm v => v
  | .reg _ | .lit _ => 0
def SrcB.litWord : SrcB → BitVec 64
  | .lit v => v
  | .reg _ | .imm _ => 0

/-- The register field, IB and word 2 of SLEEP's and SETSR's operand. -/
def SrcS.field : SrcS → BitVec 7
  | .reg n => s7 n
  | .imm _ => 0
def SrcS.isImm : SrcS → Bool
  | .reg _ => false
  | .imm _ => true
def SrcS.w2 : SrcS → BitVec 32
  | .reg _ => 0
  | .imm v => v

/-- Raw fields of a BA row of the arithmetic and lane classes. -/
def mkA (opc : BitVec 8) (h : Hdr) (u : Bool) (d a b c : BitVec 7) (mod : BitVec 16) (w2 : BitVec 32) (lit : BitVec 64) : Raw :=
  { form := h.form, opc, u, d, a, b, la := h.la, pr := h.guard.pr, pn := h.guard.pn, c, mod, w2, lit }

/-- Raw fields of a control or system row. -/
def mkC (opc : BitVec 8) (h : CHdr) (u : Bool) (d a b : BitVec 7) (mod : BitVec 16) (w2 : BitVec 32) : Raw :=
  { form := if h.ext then .ext else .base, opc, u, d, a, b, la := 0, pr := h.guard.pr, pn := h.guard.pn, c := 0, mod, w2,
    lit := 0 }

/-- Raw fields of an extended-only row. -/
def mkX (opc : BitVec 8) (f : Form) (h : XHdr) (u : Bool) (d a b c : BitVec 7) (mod : BitVec 16) (w2 : BitVec 32)
    (lit : BitVec 64) : Raw :=
  { form := f, opc, u, d, a, b, la := h.la, pr := h.guard.pr, pn := h.guard.pn, c, mod, w2, lit }

/-- Raw fields of a base word that carries a 14-bit immediate. -/
def mk14 (opc : BitVec 8) (h : CHdr) (u : Bool) (d : BitVec 7) (n : BitVec 14) : Raw :=
  mkC opc h u d (n.extractLsb' 7 7) (n.extractLsb' 0 7) 0 0

def DA.raw (opc : BitVec 8) (o : DA) : Raw := mkA opc o.h o.u o.d o.a 0 0 0 0 0
def DAB.raw (opc : BitVec 8) (o : DAB) : Raw :=
  mkA opc o.h o.u o.d o.a o.b.field 0 (modArith 0 o.b.isImm 0) o.b.w2 o.b.litWord
def DABC.raw (opc : BitVec 8) (o : DABC) : Raw :=
  mkA opc o.h o.u o.d o.a o.b.field o.c (modArith 0 o.b.isImm 0) o.b.w2 o.b.litWord
def DABCi.raw (opc : BitVec 8) (o : DABCi) : Raw :=
  match o.c with
  | .reg n => mkA opc o.h o.u o.d o.a o.b n 0 0 0
  | .imm v => mkA opc o.h o.u o.d o.a o.b 0 (modArith 0 true 0) v 0
def DAR.raw (opc : BitVec 8) (o : DAR) : Raw := mkA opc o.h o.u o.d o.a 0 0 (modArith 0 false o.rm.code) 0 0
def DABR.raw (opc : BitVec 8) (o : DABR) : Raw :=
  mkA opc o.h o.u o.d o.a o.b.field 0 (modArith 0 o.b.isImm o.rm.code) o.b.w2 o.b.litWord
def DABCR.raw (opc : BitVec 8) (o : DABCR) : Raw :=
  mkA opc o.h o.u o.d o.a o.b.field o.c (modArith 0 o.b.isImm o.rm.code) o.b.w2 o.b.litWord
def DAHalf.raw (opc : BitVec 8) (o : DAHalf) : Raw :=
  mkA opc o.h o.u o.d o.a 0 0 (modArith (0#11 ++ bit1 o.half) false o.rm.code) 0 0
def DAByte.raw (opc : BitVec 8) (o : DAByte) : Raw := mkA opc o.h o.u o.d o.a 0 0 (modArith (0#10 ++ o.byte) false o.rm.code) 0 0
def ICmp.raw (opc : BitVec 8) (o : ICmp) : Raw :=
  mkA opc o.h o.u (p7 o.pd) o.a o.b.field 0 (modArith o.cc.code o.b.isImm 0) o.b.w2 o.b.litWord
def ICmp64.raw (o : ICmp64) : Raw :=
  mkA 0x27 o.h o.u (p7 o.pd) o.a o.b.field 0 (modArith o.cc.code o.b.isImm 0) o.b.w2 o.b.litWord
def FCmp.raw (o : FCmp) : Raw :=
  mkA 0x36 o.h o.u (p7 o.pd) o.a o.b.field 0 (modArith o.cc.code o.b.isImm 0) o.b.w2 o.b.litWord
def Sel.raw (o : Sel) : Raw := mkA 0x28 o.h o.u o.d o.a o.b.field (p7 o.pc) (modArith 0 o.b.isImm 0) o.b.w2 o.b.litWord
def Plop.raw (o : Plop) : Raw := mkA 0x29 o.h false (p7 o.pd) (p7 o.pa) (p7 o.pb) (p7 o.pc) (modArith (0#4 ++ o.t) false 0) 0 0
def Pmov.raw (o : Pmov) : Raw :=
  match o.m with
  | .copy pd pa => mkA 0x2A o.h false (p7 pd) (p7 pa) 0 0 0 0 0
  | .get vd => mkA 0x2A o.h false vd 0 0 0 (modArith 1 false 0) 0 0
  | .set va => mkA 0x2A o.h false 0 va 0 0 (modArith 2 false 0) 0 0
def Lea.raw (o : Lea) : Raw :=
  mkA 0x2B o.h o.u o.d o.a o.b 0 (modArith (0#7 ++ bit1 o.scalarA ++ bit1 o.sx ++ o.k) false 0) 0 0
def Mov.raw (o : Mov) : Raw :=
  match o.m with
  | .vv d a => mkA 0x2C o.h false d a 0 0 0 0 0
  | .ss d a => mkA 0x2C o.h true (s7 d) (s7 a) 0 0 0 0 0
  | .vs d a => mkA 0x2C o.h false d (s7 a) 0 0 (modArith 1 false 0) 0 0
  | .sv d a => mkA 0x2C o.h false (s7 d) a 0 0 (modArith 2 false 0) 0 0
def Movi.raw (o : Movi) : Raw :=
  match o.imm with
  | .short v => mkA 0x2D o.h o.u o.d (v.extractLsb' 7 7) (v.extractLsb' 0 7) 0 0 0 0
  | .long v => mkA 0x2D o.h o.u o.d 0 0 0 0 v 0
def Movl.raw (o : Movl) : Raw := mkA 0x2E o.h o.u o.d 0 0 0 0 0 o.imm
def Movsr.raw (o : Movsr) : Raw := mkA 0x2F o.h o.u o.d o.sr.code 0 0 0 0 0
def Quant.raw (o : Quant) : Raw := mkA 0x5A o.h false o.d o.a 0 (s7 o.sc) (modArith o.t.code false 0) 0 0
def Shfl.raw (opc : BitVec 8) (o : Shfl) : Raw :=
  mkA opc o.h false o.d o.a o.b.field 0 (modArith 0 o.b.isImm 0) o.b.w2 o.b.litWord
def Bcast.raw (o : Bcast) : Raw :=
  match o.b with
  | .reg n => mkA 0x66 o.h false o.d o.a (s7 n) 0 0 0 0
  | .imm v => mkA 0x66 o.h false o.d o.a 0 0 (modArith 0 true 0) v 0
  | .lit v => mkA 0x66 o.h false o.d o.a 0 0 0 0 v
def Ballot.raw (o : Ballot) : Raw :=
  match o.src with
  | .pred pa => mkA 0x64 o.h o.u o.d (p7 pa) 0 0 0 0 0
  | .bit va b => mkA 0x64 o.h o.u o.d va b.field 0 (modArith 1 b.isImm 0) b.w2 b.litWord
def Vote.raw (o : Vote) : Raw := mkA 0x65 o.h false (p7 o.pd) (p7 o.pa) 0 0 (modArith o.m.code false 0) 0 0
def Scan.raw (o : Scan) : Raw :=
  mkA 0x67 o.h false o.d o.a 0 0 (modArith (0#7 ++ bit1 o.excl ++ o.op.code) false o.rm.code) 0 0
def Redux.raw (o : Redux) : Raw := mkA 0x68 o.h o.u o.d o.a 0 0 (modArith (0#8 ++ o.op.code) false o.rm.code) 0 0
def MatchOp.raw (o : MatchOp) : Raw := mkA 0x69 o.h false o.d o.a 0 0 (modArith (0#11 ++ bit1 o.w64) false 0) 0 0
def Sp.raw (opc : BitVec 8) (o : Sp) : Raw :=
  mkA opc o.h false o.d o.a 0 0 (modArith (0#7 ++ o.f.code ++ o.m.code) false 0) 0 0
def Swz.raw (o : Swz) : Raw := mkA 0x6C o.h false o.d o.a 0 0 (modArith (0#4 ++ o.pat) false 0) 0 0
def Lsort.raw (o : Lsort) : Raw := mkA 0x6D o.h false o.d o.a 0 0 (modArith (0#11 ++ bit1 o.signed) false 0) 0 0

/-- A BJ word (R120): its 22 low bits in the BA fields' places. -/
def Bj.raw (opc : BitVec 8) (o : Bj) : Raw :=
  let w : BitVec 22 := o.pr ++ bit1 o.pn ++ o.off
  mkC opc ⟨false, .none⟩ (w.getLsbD 21) (w.extractLsb' 14 7) (w.extractLsb' 7 7) (w.extractLsb' 0 7) 0 0
def Brx.raw (o : Brx) : Raw := mkC 0x71 o.h o.u 0 o.a 0 0 0
def Ret.raw (o : Ret) : Raw := mkC 0x73 o.h false 0 (s7 o.a) 0 0 0
def Sleep.raw (o : Sleep) : Raw := mkC 0x79 o.h false 0 0 o.d.field (modArith 0 o.d.isImm 0) o.d.w2
def SetPrio.raw (o : SetPrio) : Raw := mkC 0x7B o.h false 0 0 (0#6 ++ bit1 o.v) 0 0
def SetSr.raw (o : SetSr) : Raw := mkC 0x7C o.h false o.r.code 0 o.b.field (modArith 0 o.b.isImm 0) o.b.w2

def LdS.raw (opc : BitVec 8) (o : LdS) : Raw :=
  mkX opc .ext o.h o.ea.u o.d o.ea.a 0 0 (modMem (0#9 ++ bit1 o.s) o.scope.code (acqCode o.acq)) o.ea.off 0
def Ld.raw (opc : BitVec 8) (o : Ld) : Raw :=
  mkX opc .ext o.h o.ea.u o.d o.ea.a 0 0 (modMem 0 o.scope.code (acqCode o.acq)) o.ea.off 0
def LdSz.raw (opc : BitVec 8) (o : LdSz) : Raw :=
  mkX opc .ext o.h o.ea.u o.d o.ea.a 0 0 (modMem o.size.code o.scope.code (acqCode o.acq)) o.ea.off 0
def St.raw (opc : BitVec 8) (o : St) : Raw :=
  mkX opc o.b.form o.h o.ea.u 0 o.ea.a o.b.field 0 (modMem 0 o.scope.code (relCode o.rel)) o.ea.off o.b.litWord
def St128.raw (o : St128) : Raw := mkX 0x89 .ext o.h o.ea.u 0 o.ea.a o.b 0 (modMem 0 o.scope.code (relCode o.rel)) o.ea.off 0
def StSz.raw (o : StSz) : Raw :=
  mkX 0x8B .ext o.h o.ea.u 0 o.ea.a o.b 0 (modMem o.size.code o.scope.code (relCode o.rel)) o.ea.off 0
def Pref.raw (o : Pref) : Raw := mkX 0x8C .ext o.h o.ea.u 0 o.ea.a 0 0 (modMem (0#9 ++ bit1 o.l2) 0 0) o.ea.off 0
def Range.raw (opc : BitVec 8) (o : Range) : Raw := mkX opc .ext o.h o.u 0 o.a 0 0 0 o.len 0
def Fence.raw (o : Fence) : Raw := mkX 0x90 .ext o.h false 0 0 0 0 (modMem (0#9 ++ bit1 o.rm) o.scope.code o.ord.code) 0 0
def BarB.raw (opc : BitVec 8) (o : BarB) : Raw := mkX opc .ext o.h true 0 (s7 o.a) (s7 o.b) 0 0 o.off 0

/-- MOD[7:6] and ORD of BARARR (R195). -/
def ArrOrd.bits : ArrOrd → Bool × BitVec 3
  | .dflt => (false, 0) | .rel => (false, 2) | .rlx => (true, 0)
def BarArr.raw (o : BarArr) : Raw :=
  mkX 0x92 .ext o.h true (s7 o.d) (s7 o.a) (match o.n with | some b => s7 b | none => 0) 0
    (modMem (0#8 ++ bit1 o.ord.bits.1 ++ bit1 o.n.isSome) 0 o.ord.bits.2) o.off 0
def PhaseOp.raw (o : PhaseOp) : Raw := mkX 0x95 .ext o.h false (s7 o.d) 0 0 0 (modMem (0#7 ++ o.dom) 0 0) 0 0
def Msend.raw (o : Msend) : Raw := mkX 0x96 .ext o.h o.ea.u o.d o.ea.a o.b 0 (modMem 0 o.scope.code (relCode o.rel)) o.ea.off 0

/-- B and MOD[15:6] of an event kind (R202). -/
def EvKind.bits : EvKind → BitVec 7 × BitVec 10
  | .bar b => (s7 b, 0) | .stat => (0, 1) | .mbox => (0, 2) | .hyp => (0, 3) | .timer => (0, 4)
def Evset.raw (o : Evset) : Raw := mkX 0x97 .ext o.h false (e7 o.e) (s7 o.a) o.kind.bits.1 0 (modMem o.kind.bits.2 0 0) o.off 0
def Evclr.raw (o : Evclr) : Raw := mkX 0x98 .ext o.h false (e7 o.e) 0 0 0 0 0 0
def Waitany.raw (o : Waitany) : Raw := mkX 0x99 .ext ⟨.none, o.la⟩ false 0 0 0 0 (modMem (0#2 ++ o.list) 0 0) 0 0
def HypDA.raw (opc : BitVec 8) (o : HypDA) : Raw := mkX opc .ext o.h false (s7 o.d) (s7 o.a) 0 0 0 0 0
def HypEnter.raw (o : HypEnter) : Raw := mkX 0x9B .ext o.h false 0 (s7 o.a) (s7 o.b) 0 0 0 0
def HypRes.raw (o : HypRes) : Raw := mkX 0x9C .ext o.h false (s7 o.d) (s7 o.a) 0 0 (modMem (0#9 ++ bit1 o.refute) 0 0) 0 0
def Atom.raw (o : Atom) : Raw :=
  mkX 0xA0 o.b.form o.h o.ea.u o.d o.ea.a o.b.field 0 (modMem o.op.code o.scope.code o.ord.code) o.ea.off o.b.litWord
def Red.raw (o : Red) : Raw :=
  mkX 0xA1 o.b.form o.h o.ea.u 0 o.ea.a o.b.field 0 (modMem o.op.code o.scope.code (relCode o.rel)) o.ea.off o.b.litWord
def Redm.raw (o : Redm) : Raw :=
  mkX 0xA2 o.b.form o.h o.ea.u 0 o.ea.a o.b.field 0 (modMem o.op.code o.scope.code 0) o.ea.off o.b.litWord
def Cas.raw (o : Cas) : Raw :=
  mkX 0xA3 o.b.form o.h o.ea.u o.d o.ea.a o.b.field o.c (modMem (0#9 ++ bit1 o.w64) o.scope.code o.ord.code) o.ea.off o.b.litWord
def CasGt.raw (o : CasGt) : Raw :=
  mkX 0xA4 o.b.form o.h o.ea.u o.d o.ea.a o.b.field 0 (modMem (0#9 ++ bit1 o.w64) o.scope.code o.ord.code) o.ea.off o.b.litWord
def CasR.raw (opc : BitVec 8) (o : CasR) : Raw :=
  mkX opc .ext o.h o.ea.u o.d o.ea.a o.b o.c (modMem 0 o.scope.code o.ord.code) o.ea.off 0
def Upd.raw (opc : BitVec 8) (o : Upd) : Raw := mkX opc .ext o.h o.ea.u 0 o.ea.a o.b 0 0 o.ea.off 0
def Uacc.raw (o : Uacc) : Raw := mkX 0xB1 .ext o.h o.ea.u 0 o.ea.a o.b 0 (modMem (0#9 ++ bit1 o.h1) 0 0) o.ea.off 0
def Usnap.raw (o : Usnap) : Raw := mkX 0xB2 .ext o.h o.ea.u o.d o.ea.a 0 0 (modMem o.op.code o.scope.code o.ord.code) o.ea.off 0

def Tdset.raw (o : Tdset) : Raw :=
  match o.src with
  | .regs a => mkX 0xC0 .ext o.h false 0 (s7 a) 0 0 (0#8 ++ o.n) 0 0
  | .mem a off => mkX 0xC0 .ext o.h false 0 (s7 a) 0 0 (1#8 ++ o.n) off 0
def Tdget.raw (o : Tdget) : Raw := mkX 0xC1 .ext o.h false (s7 o.d) 0 0 0 (0#8 ++ o.n) 0 0
def Mload.raw (o : Mload) : Raw := mkX 0xC2 .ext o.h false (s7 o.d) 0 0 0 (0#13 ++ bit1 o.west ++ o.sub) (0#24 ++ o.n) 0
def Mloadsp.raw (o : Mloadsp) : Raw :=
  mkX 0xC3 .ext o.h false (s7 o.d) 0 o.b 0 (0#7 ++ bit1 o.four ++ o.first ++ o.pat.mxCode ++ o.sub) (0#24 ++ o.n) 0
def Mma.raw (o : Mma) : Raw :=
  mkX 0xC4 .ext o.h false (s7 o.d) (s7 o.a) 0 0 (0#13 ++ bit1 o.t ++ o.mode.code) (0#9 ++ o.accrow ++ o.rows1 ++ o.n) 0
def Accz.raw (o : Accz) : Raw :=
  mkX 0xC5 .ext o.h false (s7 o.d) 0 0 0 (0#13 ++ o.tile) (0#17 ++ o.count1 ++ 0#1 ++ o.first) 0
def Accrd.raw (o : Accrd) : Raw := mkX 0xC6 .ext o.h false o.d (s7 o.a) 0 0 (0#12 ++ bit1 o.bf16 ++ o.tile) 0 0
def Accwr.raw (o : Accwr) : Raw := mkX 0xC7 .ext o.h false (s7 o.d) (s7 o.a) o.b 0 (0#13 ++ o.tile) 0 0
def crField (cr : Option (BitVec 6)) : BitVec 7 := match cr with | some a => s7 a | none => 0
def CopyOp.raw (o : CopyOp) : Raw :=
  mkX 0xC8 .ext o.h false (s7 o.d) (crField o.cr) 0 0 (0#13 ++ bit1 o.cr.isSome ++ o.cls) (0#16 ++ o.src ++ o.dst) 0
def CopyG.raw (o : CopyG) : Raw :=
  mkX 0xC9 .ext o.h false (s7 o.d) (crField o.cr) 0 0 (0#13 ++ bit1 o.cr.isSome ++ o.cls) (0#8 ++ o.idx ++ o.src ++ o.dst) 0
def Coll.raw (o : Coll) : Raw := mkX 0xCA .ext o.h false (s7 o.d) o.a o.b 0 o.op.code (0#24 ++ o.n) 0
def Cell.raw (o : Cell) : Raw := mkX 0xCB .ext o.h false (s7 o.d) (s7 o.a) 0 0 (0#15 ++ bit1 o.coh) o.off 0
def Task.raw (o : Task) : Raw := mkX 0xCC .ext o.h false (s7 o.d) (s7 o.a) 0 0 (0#14 ++ o.prio) o.off 0
def Winarm.raw (o : Winarm) : Raw := mkX 0xCD .ext o.h false (s7 o.d) o.a 0 0 0 (0#24 ++ o.n) 0

def Csr.raw (opc : BitVec 8) (o : Csr) : Raw := mk14 opc o.h true (s7 o.d) o.n
def Tlbinv.raw (o : Tlbinv) : Raw := mkC 0xF4 o.h true 0 (s7 o.a) (s7 o.b) 0 0
def Qstat.raw (b : BitVec 7) (o : Qstat) : Raw := mkC 0xF6 o.h true (s7 o.d) 0 b 0 0

/-- The fields of the words of a main-set instruction; none for Aqiuf instructions and for steps that no word encodes. -/
def Instr.raw : Instr → Option Raw
  | .iadd o => some (o.raw 0x01) | .isub o => some (o.raw 0x02) | .imul o => some (o.raw 0x03) | .imulhs o => some (o.raw 0x04)
  | .imulhu o => some (o.raw 0x05) | .imad o => some (o.raw 0x06) | .imadws o => some (o.raw 0x07)
  | .imadwu o => some (o.raw 0x08) | .iadd64 o => some (o.raw 0x09) | .isub64 o => some (o.raw 0x0A)
  | .imins o => some (o.raw 0x0B) | .iminu o => some (o.raw 0x0C) | .imaxs o => some (o.raw 0x0D)
  | .imaxu o => some (o.raw 0x0E) | .iabs o => some (o.raw 0x0F) | .idivu o => some (o.raw 0x10)
  | .iremu o => some (o.raw 0x11) | .and o => some (o.raw 0x12) | .or o => some (o.raw 0x13) | .xor o => some (o.raw 0x14)
  | .andn o => some (o.raw 0x15) | .shl o => some (o.raw 0x16) | .shr o => some (o.raw 0x17) | .sar o => some (o.raw 0x18)
  | .rotl o => some (o.raw 0x19) | .shl64 o => some (o.raw 0x1A) | .shr64 o => some (o.raw 0x1B)
  | .sar64 o => some (o.raw 0x1C) | .clz o => some (o.raw 0x1D) | .popc o => some (o.raw 0x1E) | .brev o => some (o.raw 0x1F)
  | .bfeu o => some (o.raw 0x20) | .bfes o => some (o.raw 0x21) | .bfi o => some (o.raw 0x22) | .bysel o => some (o.raw 0x23)
  | .fshr o => some (o.raw 0x24) | .icmps o => some (o.raw 0x25) | .icmpu o => some (o.raw 0x26) | .icmp64 o => some o.raw
  | .sel o => some o.raw | .plop o => some o.raw | .pmov o => some o.raw | .lea o => some o.raw | .mov o => some o.raw
  | .movi o => some o.raw | .movl o => some o.raw | .movsr o => some o.raw
  | .fadd o => some (o.raw 0x30) | .fsub o => some (o.raw 0x31) | .fmul o => some (o.raw 0x32) | .fmac o => some (o.raw 0x33)
  | .fmin o => some (o.raw 0x34) | .fmax o => some (o.raw 0x35) | .fcmp o => some o.raw | .fclass o => some (o.raw 0x37)
  | .frcp o => some (o.raw 0x38) | .frsq o => some (o.raw 0x39) | .fsqrt o => some (o.raw 0x3A) | .fdiv o => some (o.raw 0x3B)
  | .fex2 o => some (o.raw 0x3C) | .flg2 o => some (o.raw 0x3D) | .fsin o => some (o.raw 0x3E) | .fcos o => some (o.raw 0x3F)
  | .ftanh o => some (o.raw 0x40) | .badd2 o => some (o.raw 0x41) | .bmul2 o => some (o.raw 0x42)
  | .bfma2 o => some (o.raw 0x43) | .bmin2 o => some (o.raw 0x44) | .bmax2 o => some (o.raw 0x45)
  | .hadd2 o => some (o.raw 0x46) | .hmul2 o => some (o.raw 0x47) | .hfma2 o => some (o.raw 0x48)
  | .dadd o => some (o.raw 0x49) | .dmul o => some (o.raw 0x4A) | .dfma o => some (o.raw 0x4B)
  | .cvtF32S32 o => some (o.raw 0x4C) | .cvtF32U32 o => some (o.raw 0x4D) | .cvtS32F32 o => some (o.raw 0x4E)
  | .cvtU32F32 o => some (o.raw 0x4F) | .cvtBf16F32 o => some (o.raw 0x50) | .cvtF32Bf16 o => some (o.raw 0x51)
  | .cvtF16F32 o => some (o.raw 0x52) | .cvtF32F16 o => some (o.raw 0x53) | .cvtE4m3F32 o => some (o.raw 0x54)
  | .cvtF32E4m3 o => some (o.raw 0x55) | .cvtE5m2F32 o => some (o.raw 0x56) | .cvtF32E5m2 o => some (o.raw 0x57)
  | .cvtF64F32 o => some (o.raw 0x58) | .cvtF32F64 o => some (o.raw 0x59) | .quant o => some o.raw
  | .fexpo o => some (o.raw 0x5B) | .qalign o => some (o.raw 0x5C) | .qunalign o => some (o.raw 0x5D)
  | .idp4s o => some (o.raw 0x5E) | .idp4u o => some (o.raw 0x5F)
  | .shfli o => some (o.raw 0x60) | .shflup o => some (o.raw 0x61) | .shfldn o => some (o.raw 0x62)
  | .shflx o => some (o.raw 0x63) | .ballot o => some o.raw | .vote o => some o.raw | .bcast o => some o.raw
  | .scan o => some o.raw | .redux o => some o.raw | .matchLanes o => some o.raw | .spcomp o => some (o.raw 0x6A)
  | .spexp o => some (o.raw 0x6B) | .swz4 o => some o.raw | .lsort o => some o.raw
  | .bra o => some (o.raw 0x70) | .brx o => some o.raw | .call o => some (o.raw 0x72) | .ret o => some o.raw
  | .join => some (mkC 0x74 ⟨false, .none⟩ false 0 0 0 0 0) | .regang id => some (mk14 0x75 ⟨false, .none⟩ false 0 id)
  | .exit h => some (mkC 0x76 h false 0 0 0 0 0) | .nop ext => some (mkC 0x77 ⟨ext, .none⟩ false 0 0 0 0 0)
  | .region => some (mkC 0x78 ⟨false, .none⟩ false 0 0 0 0 0) | .sleep o => some o.raw
  | .trap o => some (mk14 0x7A o.h false 0 o.code) | .setprio o => some o.raw | .setsr o => some o.raw
  | .ld8 o => some (o.raw 0x80) | .ld16 o => some (o.raw 0x81) | .ld32 o => some (o.raw 0x82) | .ld64 o => some (o.raw 0x83)
  | .ld128 o => some (o.raw 0x84) | .st8 o => some (o.raw 0x85) | .st16 o => some (o.raw 0x86) | .st32 o => some (o.raw 0x87)
  | .st64 o => some (o.raw 0x88) | .st128 o => some o.raw | .ldl o => some (o.raw 0x8A) | .stl o => some o.raw
  | .pref o => some o.raw | .cleanr o => some (o.raw 0x8D) | .invr o => some (o.raw 0x8E) | .uflush o => some (o.raw 0x8F)
  | .fence o => some o.raw | .barinit o => some (o.raw 0x91) | .bararr o => some o.raw | .barexp o => some (o.raw 0x93)
  | .barwait o => some (o.raw 0x94) | .phase o => some o.raw | .msend o => some o.raw | .evset o => some o.raw
  | .evclr o => some o.raw | .waitany o => some o.raw | .hypnew o => some (o.raw 0x9A) | .hypenter o => some o.raw
  | .hypres o => some o.raw | .hypqry o => some (o.raw 0x9D) | .ldna o => some (o.raw 0x9E)
  | .atom o => some o.raw | .red o => some o.raw | .redm o => some o.raw | .cas o => some o.raw | .casgt o => some o.raw
  | .casv o => some (o.raw 0xA5) | .caspt o => some (o.raw 0xA6) | .cas128 o => some (o.raw 0xA7)
  | .uadd32 o => some (o.raw 0xA8) | .uadd64 o => some (o.raw 0xA9) | .umins o => some (o.raw 0xAA)
  | .umaxs o => some (o.raw 0xAB) | .uminu o => some (o.raw 0xAC) | .umaxu o => some (o.raw 0xAD)
  | .uminf o => some (o.raw 0xAE) | .umaxf o => some (o.raw 0xAF) | .uor64 o => some (o.raw 0xB0) | .uacc o => some o.raw
  | .usnap o => some o.raw
  | .tdset o => some o.raw | .tdget o => some o.raw | .mload o => some o.raw | .mloadsp o => some o.raw | .mma o => some o.raw
  | .accz o => some o.raw | .accrd o => some o.raw | .accwr o => some o.raw | .copy o => some o.raw | .copyg o => some o.raw
  | .coll o => some o.raw | .cell o => some o.raw | .task o => some o.raw | .winarm o => some o.raw
  | .winclr h => some (mkX 0xCE .ext h false 0 0 0 0 0 0 0)
  | .csrr o => some (o.raw 0xF0) | .csrw o => some (o.raw 0xF1) | .trapret o => some (mk14 0xF2 o.h false 0 o.m.code)
  | .trapmsk o => some (mk14 0xF3 o.h false 0 (0#13 ++ bit1 o.n)) | .tlbinv o => some o.raw
  | .halt o => some (mk14 0xF5 o.h false 0 o.code) | .qstat o => some (o.raw 0) | .qstatAdv o => some (o.raw 1)
  | _ => none

/-! ## Writing Aqiuf words -/

def Crr.craw (op : BitVec 6) (o : Crr) : CRaw :=
  match o.b with
  | .reg b => ⟨op, o.d, o.a, b, 0⟩
  | .imm v => ⟨op, o.d, o.a, 0, 1#1 ++ v⟩
def CCond.code : CCond → BitVec 4
  | .eq => 0 | .ne => 1 | .lt => 2 | .ge => 3 | .ltu => 4 | .geu => 5

/-- SZ and S of a load (R261). -/
def CLdSize.bits : CLdSize → BitVec 2 × Bool
  | .b s => (0, s) | .h s => (1, s) | .w s => (2, s) | .d => (3, false)
def CSize.bits : CSize → BitVec 2
  | .b => 0 | .h => 1 | .w => 2 | .d => 3

/-- The low 22 and 26 bits of an Aqiuf word as fields. -/
def cLow22 (op : BitVec 6) (d : BitVec 4) (n : BitVec 22) : CRaw :=
  ⟨op, d, n.extractLsb' 18 4, n.extractLsb' 14 4, n.extractLsb' 0 14⟩
def cLow26 (op : BitVec 6) (n : BitVec 26) : CRaw :=
  ⟨op, n.extractLsb' 22 4, n.extractLsb' 18 4, n.extractLsb' 14 4, n.extractLsb' 0 14⟩
def Vmem.craw (op : BitVec 6) (o : Vmem) : CRaw := ⟨op, w4 o.w, o.a, 0#2 ++ bit1 o.loc ++ 0#1, o.off⟩
def Vrr.craw (op : BitVec 6) (o : Vrr) : CRaw := ⟨op, w4 o.d, w4 o.a, w4 o.b, 0⟩
def VcvtMode.bits : VcvtMode → BitVec 4 × BitVec 14
  | .b wb => (w4 wb, 0) | .f0 => (0, 1) | .f1 => (0, 2)
def VredOp.code : VredOp → BitVec 14
  | .fadd => 0 | .fmax => 1 | .iadd => 2
def CAtomOp.code : CAtomOp → BitVec 4
  | .add => 0 | .add64 => 1 | .fadd => 2 | .maxs => 3 | .mins => 4 | .exch => 5 | .exch64 => 6

/-- The fields of the word of an Aqiuf instruction. -/
def Instr.craw : Instr → Option CRaw
  | .cli d v => some (cLow22 0x01 d v) | .cadd o => some (o.craw 0x02) | .csub o => some (o.craw 0x03)
  | .cshl d a k => some ⟨0x04, d, a, 0, 0#7 ++ k⟩ | .cand o => some (o.craw 0x05) | .cbr cc a b off => some ⟨0x06, cc.code, a, b, off⟩
  | .cjmp off => some (cLow26 0x07 off) | .cloop a off => some (cLow22 0x08 a off)
  | .cld o => some ⟨0x09, o.d, o.a, o.size.bits.1 ++ bit1 o.loc ++ bit1 o.size.bits.2, o.off⟩
  | .cst o => some ⟨0x0A, o.b, o.a, o.size.bits ++ bit1 o.loc ++ 0#1, o.off⟩
  | .cldx o => some ⟨0x0B, o.d, o.a, o.b, 0#13 ++ bit1 o.out⟩ | .vld o => some (o.craw 0x0C) | .vst o => some (o.craw 0x0D)
  | .vaddf o => some (o.craw 0x0E) | .vaddb o => some (o.craw 0x0F) | .vmulf o => some (o.craw 0x10)
  | .vfmaf o => some (o.craw 0x11) | .vmaxf o => some (o.craw 0x12) | .vrsqf d a => some ⟨0x13, w4 d, w4 a, 0, 0⟩
  | .vcvtb o => some ⟨0x14, w4 o.d, w4 o.a, o.m.bits.1, o.m.bits.2⟩ | .vscal o => some ⟨0x15, w4 o.d, w4 o.a, o.b, 0⟩
  | .vred o => some ⟨0x16, o.d, w4 o.a, 0, o.op.code⟩ | .catom o => some ⟨0x17, o.d, o.a, o.b, o.op.code ++ o.off⟩
  | .csig a => some ⟨0x18, a, 0, 0, 0⟩ | .cfence => some ⟨0x19, 0, 0, 0, 0⟩ | .chalt => some ⟨0x1A, 0, 0, 0, 0⟩
  | _ => none

/-- The words of a well-formed instruction, main set or Aqiuf; no words for a step that no word encodes. -/
def encode (i : Instr) : List Word :=
  match i.raw with
  | some r => r.words
  | none =>
    match i.craw with
    | some c => [c.word]
    | none => []

/-! ## The opcode table's words -/

/-- The 32-bit words of a number whose bit 0 is the least significant bit of the first word, five of them (R119). -/
def tableWords (w : Nat) : List Word := (List.range 5).map fun k => BitVec.ofNat 32 (w >>> (32 * k))

/-- The instruction read from the opcode table's word w of nbits bits: the main-set instruction of exactly that length; else the
Aqiuf word; else a main-set instruction whose further words the table gives no bits. Six Aqiuf rows share their words with
main-set instructions of one word, which win (log 16). -/
def decodeTableWord (nbits w : Nat) : Option Instr :=
  let v := w % 2 ^ nbits
  match decode (tableWords v), decodeAqiuf (BitVec.ofNat 32 v) with
  | .ok (i, n), .ok j => if n * 8 == nbits then some i else some j
  | .ok (i, _), .error _ => some i
  | .error _, .ok j => some j
  | .error _, .error _ => none

end Sys2Proof
end

