-- ==== Sys2Proof/Machine/State.lean ====
section
/-!
DEFINITION. The state of the machine as plain data, the fault and refusal names, and the state after device reset (R360).
Every sparse table is a list of (key, value) pairs with keys strictly rising and no default value listed, so that equal contents
are equal data. Each field's docstring names the rule of spec/ that gives it; INVENTORY.md lists them with their reset values.
-/
namespace Sys2Proof.Machine

/-- A sparse table in canonical form; the operations are in Machine/Bits.lean. -/
abbrev SMap (β : Type) := List (Nat × β)

/-! ## Who acts -/

/-- Who the next exec acts for (log 1). -/
inductive Issuer where
  | none
  | crew (uid gang : Nat)
  | cellar (stack proc : Nat)
  deriving DecidableEq, Repr

/-- Where a cache entry lies (R67, R80, R83): an L1 (physical core number die × 32 + core), the L2 of a die, the version area of
a die, or a parked U copy in a die's L2 with its source L1. An L1 entry also stands for the L2 way that includes it. -/
inductive Place where
  | l1 (core : Nat)
  | l2 (die : Nat)
  | va (die : Nat)
  | park (die src : Nat)
  deriving DecidableEq, Repr

/-- One input of the agenda: which agent moves next, or a choice of the hardware that no program makes (log 1). -/
inductive Stim where
  /-- one issue cycle of a scheduler (R34) -/
  | issue (core sched : Nat)
  /-- one instruction of a cellar processor (R250) -/
  | cellar (stack proc : Nat)
  /-- a step that no word encodes -/
  | event (i : Instr)
  /-- a capacity eviction of an entry (R67, R81 to R83): line and hypothesis tag; `room` says whether a way is free for it -/
  | evict (p : Place) (line hyp : Nat) (room : Bool)
  /-- a dirty line is written back and stays, clean (R115) -/
  | writeback (p : Place) (line : Nat)
  /-- the instruction cache of a core fills the word at a virtual address, or drops the one of a location (R132) -/
  | icFill (core ctx : Nat) (va : BitVec 64)
  | icDrop (core loc : Nat)
  /-- a die's walkers drop a kept pointer entry (R315) -/
  | ptrDrop (die ctx level upper : Nat)
  /-- a block of a processor's idx-th transfer moves: its DRAM side is performed, and of an .in these bytes reach local store (R261,
  R276) -/
  | cldxMove (stack proc idx block : Nat) (mask : BitVec 64)
  /-- the hypothesis table goes on with the accepted resolutions of a context: the next takes effect, or answers (R209) -/
  | resolve (ctx : Nat)
  /-- the nth request that waits at a home is tried again (R116, R324) -/
  | retry (n : Nat)
  /-- a TLB drops an entry -/
  | tlbDrop (a : Agent) (ctx : Nat) (va : BitVec 64)
  /-- n ticks of the reference timebase (R9) -/
  | tick (n : Nat)
  /-- a die's copy of reftime runs a tick ahead of the hub's, or behind it, until its next sync (R363) -/
  | drift (die : Nat) (ahead : Bool)
  /-- n cycles of a core's clock (R9) -/
  | coreTick (core n : Nat)
  deriving DecidableEq, Repr

/-! ## Crews -/

/-- An entry of a divergence stack: address and mask (R23). -/
structure DivEntry where
  addr : BitVec 64
  mask : BitVec 4
  deriving DecidableEq, Repr

/-- What a slice waits at (R35). -/
inductive Wait where
  | none
  /-- a REGANG at an address (R22) -/
  | regang (addr : BitVec 64)
  /-- a barrier object at a virtual address, with the parity that must change and the lane that names it (R197) -/
  | barwait (obj : BitVec 64) (par : Bool) (lane : Nat)
  /-- an advance of a phase domain past a count; the register that receives the new count (R199) -/
  | phase (dom : Nat) (count : BitVec 32) (reg : Nat)
  /-- WAITANY with its live slots (R205) -/
  | waitany (live : BitVec 8)
  /-- SLEEP until reftime (R171) -/
  | sleep (deadline : Nat)
  deriving DecidableEq, Repr

/-- What an instruction leaves in a register: its word, or the operation that will deliver it (R130, R136). -/
inductive LaNew where
  | word (w : Word)
  | op (id : Nat)
  deriving DecidableEq, Repr

/-- A destination register of an instruction with LA: scalar n, or vector lane × 128 + n; its value before, and its result. -/
structure LaReg where
  sc : Bool
  key : Nat
  old : Word
  new : LaNew
  deriving DecidableEq, Repr

/-- An open lookahead window: instructions left, and the destination registers it leaves unchecked (R130). -/
structure LaWindow where
  left : Nat
  regs : List LaReg
  deriving DecidableEq, Repr

/-- The region record of a slice (R37). -/
structure Region where
  ent : BitVec 64
  mask : BitVec 4
  stack : List DivEntry
  tag : Nat
  deriving DecidableEq, Repr

/-- One slice: four lanes and their program counter (R18). -/
structure Slice where
  /-- program counter (R18) -/
  pc : BitVec 64
  /-- active-lane mask (R18) -/
  active : BitVec 4
  /-- lanes that have exited (R25) -/
  exited : BitVec 4
  /-- divergence stack, top first, at most four entries (R18, R23) -/
  stack : List DivEntry
  /-- the gang the slice belongs to (R20) -/
  gang : Nat
  /-- s0 to s63 (R18) -/
  s : SMap Word
  /-- region record (R37) -/
  region : Region
  /-- region count (R37) -/
  regctr : BitVec 32
  /-- what it waits at (R35) -/
  wait : Wait
  /-- scalar registers pending, with the operation that writes each (R136) -/
  spend : SMap Nat
  /-- vector registers (lane × 128 + n) pending, with the operation (R136, R200, R236) -/
  vpend : SMap Nat
  /-- pending registers that a write in a lookahead window has overtaken: the word still to come is dropped (R130) -/
  drops : List (Bool × Nat)
  /-- destination registers of a faulting access, scalar by n and vector by lane × 128 + n (R39) -/
  slate : List Nat
  vlate : List Nat
  /-- an access of the slice has faulted (R39) -/
  lateHit : Bool
  /-- open lookahead windows (R130) -/
  la : List LaWindow
  deriving DecidableEq, Repr

/-- Event slot state without its pend bit (R201), and of a .bar slot where its object was when it was armed. -/
structure EvSlot where
  bound : Bool
  kind : BitVec 3
  obj : BitVec 64
  parity : Bool
  handler : BitVec 64
  place : Nat := 0
  deriving DecidableEq, Repr

/-- Where an uncorrectable error was met, for the machine check that comes with the trap (R326, R366): SRC, DIE and MCADDR. -/
structure ErrAt where
  src : BitVec 4
  die : Nat
  addr : Nat
  deriving DecidableEq, Repr

/-- What a crew's trap reports: cause, lane, translation detail, walk level, TEPC and TVAL (R330); for ECC, where the error lay. -/
structure TrapInfo where
  cause : BitVec 8
  late : Bool
  lane : BitVec 5
  detail : BitVec 8
  level : BitVec 3
  epc : BitVec 64
  val : BitVec 64
  err : Option ErrAt := none
  deriving DecidableEq, Repr

/-- A slice's part of a trap frame (R328): next pc, mask, stack, gang, what it waits at and region record. -/
structure SliceFrame where
  pc : BitVec 64
  active : BitVec 4
  stack : List DivEntry
  gang : Nat
  wait : Wait
  region : Region
  deriving DecidableEq, Repr

/-- The trap frame of a crew (R328): its slices, the gang that trapped, and the length of the trapping instruction (R332). -/
structure Frame where
  slices : List SliceFrame
  gang : Nat
  len : Nat
  deriving DecidableEq, Repr

/-- One crew (R17), resident or saved. -/
structure Crew where
  /-- a number unique among crews of all time, the model's own -/
  uid : Nat
  /-- context, launch and block (R26, R292, R301) -/
  ctx : Nat
  run : Nat
  block : Nat
  /-- physical core (die × 32 + core), scheduler, slot and register offset in its quarter (R32 to R34, R72) -/
  core : Nat
  sched : Nat
  slot : Nat
  regOff : Nat
  /-- vector registers per lane (R32) -/
  vregs : Nat
  slices : List Slice
  /-- crewid; dieid and coreid as set at launch (R19) -/
  crewid : Nat
  dieId : Nat
  coreId : Nat
  /-- v0 to v127 by lane × 128 + n (R18, R133) -/
  v : SMap Word
  /-- p0 to p14 by lane, bit n (R133); p15 is not held -/
  p : SMap (BitVec 15)
  /-- fflags NX UF OF DZ NV (R49) -/
  fflags : BitVec 5
  /-- frm MODE (R49) -/
  frm : BitVec 3
  /-- current hypothesis and exit handler (R134, R208) -/
  hyp : BitVec 8
  hxh : BitVec 64
  /-- event registers (R134, R201) -/
  pend : BitVec 8
  emask : BitVec 8
  evwhich : BitVec 32
  evdata : BitVec 64
  slots : List EvSlot
  /-- SETPRIO mark (R173) -/
  urgent : Bool
  /-- the gang that holds the turn (R35) -/
  turn : Nat
  /-- TVEC [63:2] (R330) -/
  tvec : BitVec 62
  /-- TSTAT TM, MASK, HELD; cause, lane, detail, level, TEPC and TVAL of the last trap (R330) -/
  tm : Bool
  mask : Bool
  held : Bool
  trap : TrapInfo
  /-- WADDR and WCTL (R330, R331) -/
  waddr : BitVec 64
  wrd : Bool
  wwr : Bool
  wk : BitVec 6
  /-- trap frame (R328) -/
  frame : Option Frame
  /-- a fault found after issue, not yet taken (R39, R326), and the gang it belongs to -/
  late : Option TrapInfo
  lateGang : Nat
  /-- a slice has stopped by R39: no gang issues -/
  stopped : Bool
  /-- faulted: the trap whose KIND 0 record awaits an answer (R337), its SEQ once written -/
  faulted : Option TrapInfo
  faultSeq : Option (BitVec 32)
  /-- stopped by a hard pre-emption, and whether the crew is on a core at all (R340, R341) -/
  preempted : Bool
  saved : Bool
  /-- an orphan awaiting redirection: the hyp it will take (R211) -/
  orphan : Option (BitVec 8)
  /-- armed receive window: first register and count (R248) -/
  window : Option (Nat × Nat)
  /-- windows to re-arm at restore (R74) -/
  windowSaved : Option (Nat × Nat)
  deriving DecidableEq, Repr

/-- A block on a core (R26 to R28, R134). -/
structure Block where
  uid : Nat
  ctx : Nat
  run : Nat
  core : Nat
  /-- scratchpad offset and size in bytes (R26, R134) -/
  scrOff : Nat
  scrSize : Nat
  /-- blkid, nblk, cluid, clurank, spanid, gridid (R19) -/
  blkid : BitVec 32
  nblk : BitVec 32
  cluid : BitVec 32
  clurank : BitVec 32
  spanid : BitVec 32
  gridid : BitVec 32
  saved : Bool
  deriving DecidableEq, Repr

/-! ## Engines -/

/-- Where a status word goes: a pair of the slices of one gang (R135). -/
structure StatusTo where
  crew : Nat
  slices : List Nat
  reg : Nat
  deriving DecidableEq, Repr

/-- One stationary tile with its record (R224 to R228): cells and indices by K-row × 256 + column, scales by
K block × 2 + column block (FP32, default 1.0), and the K-rows' generation. -/
structure SubArray where
  valid : Bool
  fmt : BitVec 4
  pat : BitVec 2
  gen : Nat
  /-- generations a load of which ended in FAULT or ABORT (R233) -/
  badGens : List Nat
  cells : SMap (BitVec 16)
  idx : SMap (BitVec 5)
  scales : SMap Word
  deriving DecidableEq, Repr

/-- What a queued matrix instruction does (R225 to R237), with the operands read at issue. -/
inductive MxKind where
  | load (td : BitVec 256) (west : Bool)
  | loadSp (td : BitVec 256) (pat : BitVec 2) (first bands : Nat) (metas : List (Nat × Word)) (mismatch : Bool)
  | mma (tds : List (BitVec 256)) (t : Nat) (arow rows accrow : Nat) (mode : MmaMode)
  | accz (tile first count : Nat)
  | accrd (tile row d : Nat) (bf16 : Bool) (lanes : List Nat)
  | accwr (tile row : Nat) (vals : List (Nat × Word))
  deriving DecidableEq, Repr

/-- A queued matrix instruction (R224): its sub-arrays and their generations, and once started the tiles it acts on (R231). -/
structure MxOp where
  id : Nat
  ctx : Nat
  crew : Nat
  block : Nat
  slices : List Nat
  /-- status pair; none for ACCRD -/
  dest : Option StatusTo
  /-- address of the instruction, for the journal (R336) -/
  pc : BitVec 64
  kind : MxKind
  hyp : BitVec 8
  subs : List (Nat × Nat)
  /-- format and pattern of the record of each sub-array at issue, those of its generation -/
  recs : List (Nat × BitVec 4 × BitVec 2)
  started : Bool
  /-- physical tile for each chain -/
  tiles : List Nat
  /-- ends with BUSY, or reads zeros (R231) -/
  busy : Bool
  /-- refuted while running: rows completed then (R232), and their flags (R57) -/
  refuted : Option Nat
  flags : BitVec 5
  deriving DecidableEq, Repr

/-- A queued copy (R238 to R242). -/
structure CopyJob where
  id : Nat
  ctx : Nat
  crew : Nat
  block : Nat
  dest : StatusTo
  pc : BitVec 64
  cls : Nat
  dst : BitVec 256
  src : BitVec 256
  idx : Option (BitVec 256)
  /-- barrier credited (R241) -/
  bar : Option (BitVec 64)
  /-- 2 KiB chunks delivered -/
  done : List Nat
  /-- found to fail: code, cause and COUNT (R218) -/
  ended : Option (BitVec 4 × BitVec 8 × Nat)
  /-- the crew whose armed window admitted it (R73) -/
  admitted : Option Nat
  credited : Nat
  deriving DecidableEq, Repr

/-- A copy's credit held at a barrier object whose QUOTA is 0 (R193, R241): the object's address and where it lies. -/
structure Credit where
  ctx : Nat
  obj : BitVec 64
  place : Nat
  bytes : Nat
  deriving DecidableEq, Repr

/-- One row of a COLL: receiving node, address there and its bytes (R243). -/
structure CollRow where
  node : BitVec 10
  va : BitVec 64
  bytes : List Byte
  deriving DecidableEq, Repr

/-- A collective in an engine (R244, R353): outbound bytes held once sent. -/
structure CollJob where
  id : Nat
  ctx : Nat
  engine : Nat
  crew : Nat
  dest : StatusTo
  pc : BitVec 64
  block : Nat
  /-- source descriptor and the participating lanes with address and node -/
  td : BitVec 256
  lanes : List (Nat × BitVec 64 × BitVec 10)
  red : Bool
  sw : Bool
  /-- rows gathered by COLL_SEND; the FAULT met while gathering -/
  rows : List CollRow
  failed : Option (BitVec 8)
  sent : Bool
  /-- bytes visible at nodes of this package (R243), bytes sent to others, and outbound bytes held -/
  delivered : Nat
  out : Nat
  pool : Nat
  /-- of an attached collective: its run; a switch has refused to reduce; its word, not yet written (R309) -/
  attach : Option Nat := none
  refused : Bool := false
  word : Option (BitVec 64) := none
  epoch : BitVec 64
  deriving DecidableEq, Repr

/-- One core (R7, R224, R239). -/
structure Core where
  /-- the context it last held a block of (R372) -/
  lastCtx : Option Nat
  /-- mailbox FIFOs by slot, oldest first (R200) -/
  mail : SMap (List (BitVec 64))
  /-- accumulators by tile × 32,768 + row × 256 + column (R133) -/
  acc : SMap Word
  /-- tile tags (R231) -/
  tags : SMap (BitVec 8)
  /-- 128-byte pieces of the accumulators, and mailbox slots, that hold an uncorrectable error (R369) -/
  accBad : List Nat
  mailBad : List Nat
  subs : List SubArray
  /-- queued matrix instructions in issue order (R224) -/
  mq : List MxOp
  /-- copies by class, oldest first (R239), deficits and the class being served -/
  copies : List CopyJob
  deficit : List Nat
  rrClass : Nat
  /-- round-robin pointers of the four schedulers, normal and urgent (R34) -/
  rr : List Nat
  rrUrgent : List Nat
  deriving DecidableEq, Repr

/-! ## The cellars -/

/-- A 64-byte block of a CLDX transfer (R261): where it was translated to, whether its DRAM side has been performed, its bytes (of an
.out as they were at issue, of an .in once read), and of an .in the bytes that have reached local store. -/
structure CldxBlock where
  pa : Nat
  key : Nat
  moved : Bool
  data : List Byte
  put : BitVec 64
  deriving DecidableEq, Repr

/-- A CLDX transfer in flight (R261): local offset, DRAM address, direction, blocks and epoch (R318). -/
structure Transfer where
  loc : Nat
  va : BitVec 64
  out : Bool
  blocks : List CldxBlock
  epoch : BitVec 64
  deriving DecidableEq, Repr

/-- One cellar processor running a command (R250): c and w registers, local store, completion. -/
structure Proc where
  stack : Nat
  proc : Nat
  cmd : Nat
  c : SMap (BitVec 64)
  w : SMap (BitVec 512)
  pc : BitVec 18
  loc : SMap Byte
  signalled : Bool
  transfers : List Transfer
  /-- CATOM operations not yet performed -/
  atoms : Nat
  deriving DecidableEq, Repr

/-- Where a command's completion goes (R264): a CELL's status pair, or a task record's run. -/
inductive CmdRoute where
  | cell (dest : StatusTo) (crew : Nat)
  | task (run : Nat)
  deriving DecidableEq, Repr

/-- A cellar command, queued or running (R251 to R253). -/
structure Cmd where
  id : Nat
  ctx : Nat
  stack : Nat
  code : BitVec 64
  arg : BitVec 64
  mask : BitVec 32
  clen : Nat
  coh : Bool
  ranges : List (BitVec 64)
  climit : BitVec 64
  route : CmdRoute
  pc : BitVec 64
  /-- SUM and the start time (R264, R265) -/
  sum : BitVec 48
  start : Option Nat
  /-- processors that have halted -/
  halted : BitVec 32
  /-- 4 KiB granules of DRAM (location / 4096) of a coherent command's ranges, held while it runs (R116, R255), and its epoch, 0 until
  its first translation (R318) -/
  held : List Nat
  epoch : BitVec 64
  deriving DecidableEq, Repr

/-- Who asked for an atomic-unit operation (R258): a REDM's crew, or a processor's CATOM and its destination. -/
inductive AtomFrom where
  | crew (uid gang : Nat)
  | proc (stack proc : Nat) (d : Nat)
  deriving DecidableEq, Repr

/-- An operation on its way to an atomic unit (R117, R258). -/
structure AtomReq where
  loc : Nat
  key : Nat
  ctx : Nat
  run : Nat
  op : AtomOp
  b : BitVec 64
  src : AtomFrom
  epoch : BitVec 64
  /-- it has reached its home and waits there (R116, R324) -/
  arrived : Bool := false
  /-- of a REDM: lane, virtual address and instruction, for a fault found after issue (R39) -/
  lane : Nat := 0
  va : BitVec 64 := 0
  pc : BitVec 64 := 0
  deriving DecidableEq, Repr

/-! ## Messages in flight -/

/-- An MSEND message (R200): sender with the slices of its gang, lane and destination register; core, slot and message. -/
structure Mail where
  op : Nat
  crew : Nat
  gang : Nat
  mates : List Nat
  slice : Nat
  lane : Nat
  reg : Nat
  core : Nat
  slot : Nat
  msg : BitVec 64
  ctx : Nat
  epoch : BitVec 64
  deriving DecidableEq, Repr

/-- A registration on its way to a line's home (R94): home line, or the remote node's line; the L1 that sent it, the crew whose
update came first with its instruction's lane, address and pc, and the crews of the core, with their runs, that have updated the copy
since. -/
structure Reg where
  line : Nat
  op : UOp
  core : Nat
  crew : Nat
  gang : Nat
  more : List (Nat × Nat)
  run : Nat
  ctx : Nat
  key : Nat
  epoch : BitVec 64
  /-- home on another node (R352), and the registration has gone out to it: what is left is its record there -/
  node : Option (BitVec 10)
  out : Bool
  lane : Nat := 0
  va : BitVec 64 := 0
  pc : BitVec 64 := 0
  deriving DecidableEq, Repr

/-- A translated access that waits at the home of a line in a move or under a coherent command's hold (R116, R318, R324): who made
it (a crew and gang, or an agent alone), its virtual address, what it was translated to and its epoch. The list is in order of
arrival; `moved` marks the accesses that a move has queued. -/
structure Waiting where
  agent : Agent
  ctx : Nat
  crew : Nat
  gang : Nat
  va : BitVec 64
  loc : Nat
  key : Nat
  pa : Nat
  epoch : BitVec 64
  moved : Bool
  deriving DecidableEq, Repr

/-- A TASK the trellis has not decided (R247). -/
structure Launch where
  id : Nat
  ctx : Nat
  va : BitVec 64
  prio : BitVec 2
  dest : StatusTo
  deriving DecidableEq, Repr

/-- A host request as the device takes it: the location and the key its BAR2 offset and HKEY named when it arrived (R346). -/
structure HostAt where
  all8 : Nat
  slot : Nat
  deriving DecidableEq, Repr

/-- A request from outside the device. -/
inductive Inbound where
  | peer (o : PeerReq)
  | coll (o : CollIn)
  | read (o : HostRead) (at_ : HostAt)
  | write (o : HostWrite) (at_ : HostAt)
  | atomic (o : HostAtomic) (at_ : HostAt)
  /-- a BAR0 write, which stays behind the host's earlier writes (R346) -/
  | reg (o : RegWrite)
  deriving DecidableEq, Repr

/-- What a Scafa packet carries (R244, R298, R351, R352). -/
inductive ScafaBody where
  | read (bytes : Nat)
  | write (data : List Byte)
  | rmw (r : Rmw)
  | answer (data : List Byte)
  | refusal (cause : BitVec 8)
  | register (op : UOp)
  | recall (op : UOp)
  | contribution (op : UOp) (data : LineData)
  | snap (op : UOp)
  | range (op : BitVec 2)
  | coll (red sw : Bool) (data : List Byte)
  deriving DecidableEq, Repr

/-- What leaves the device, in order: host requests of at most 64 bytes with their No Snoop attribute, answers, interrupts, and Scafa
packets, with the nonce under which an encrypted path protects them (R345 to R354). -/
inductive Sent where
  | hostRead (addr : BitVec 64) (bytes : Nat) (ns : Bool)
  | hostWrite (addr : BitVec 64) (data : List Byte) (ns : Bool)
  | hostAtomic (addr : BitVec 64) (r : Rmw) (ns : Bool)
  | hostReply (data : List Byte) (poison : Bool)
  | hostAbort
  | msix (vec : BitVec 7)
  | scafa (vc : BitVec 2) (node : BitVec 10) (va : BitVec 64) (body : ScafaBody) (nonce : Option (BitVec 96))
  deriving DecidableEq, Repr

/-! ## Caches -/

/-- STATE of R79, without I: an invalid line has no entry. -/
inductive LineSt where
  | m | e | s | u
  deriving DecidableEq, Repr

/-- An update in a U copy (R94): the context it belongs to, its byte offset in the line and its operand. -/
structure UUpd where
  ctx : Nat
  off : Nat
  val : Nat
  deriving DecidableEq, Repr

/-- The bytes of a PHASED line that one crew has stored in the phase (R106). -/
structure OwnBytes where
  crew : Nat
  mask : BitVec 128
  data : LineData
  deriving DecidableEq, Repr

/-- One cache entry (R79, R356): U operator, hypothesis tag with its context, phase fields, dirty mask, key, bytes. Of a U copy
also its updates, oldest first, in the runs in which they met the copy (R81, R99); of a PHASED one the line as it stood when it was
filled, each crew's own stores of the phase, and whether the line itself has left the cache (R106); and whether the bytes hold an
uncorrectable error (R369). -/
structure CEntry where
  place : Place
  line : Nat
  st : LineSt
  op : Option UOp
  hyp : BitVec 8
  ctx : Nat
  ph : Bool
  dom : BitVec 3
  phs : BitVec 4
  dmask : BitVec 128
  key : Nat
  data : LineData
  bad : Bool := false
  upds : List (List UUpd) := []
  start : LineData := 0
  own : List OwnBytes := []
  gone : Bool := false
  deriving DecidableEq, Repr

/-- A line in U(op) at its home (R82, R94, R96): home value, whether it differs from DRAM, the L1s registered, the remote
nodes recorded and the contributions that have come back in the collapse under way. -/
structure ULine where
  line : Nat
  op : UOp
  home : LineData
  dirty : Bool
  key : Nat
  l1s : List Nat
  nodes : List (BitVec 10)
  /-- nodes recorded in groups of 16 beyond eight (R82) -/
  groups : List (BitVec 6)
  back : List (BitVec 10 × LineData)
  /-- the home value holds an uncorrectable error (R369) -/
  bad : Bool := false
  deriving DecidableEq, Repr

/-- A collapse that waits for remote contributions (R352): its line and the deadline of its recall. -/
structure Recall where
  line : Nat
  deadline : Nat
  /-- the deadline has passed: the access that needs the collapse ends with TIMEOUT -/
  expired : Bool
  deriving DecidableEq, Repr

/-- A line of another node with U copies under an operator on a presented device of this one (R352): the Scafa port press's
record, with the L1s that registered. -/
structure PressLine where
  pdev : Nat
  line : Nat
  node : BitVec 10
  op : UOp
  l1s : List Nat
  /-- the home's own number of the line, where the home is a presented device of this package (R14) -/
  home : Option Nat
  deriving DecidableEq, Repr

/-- A TLB entry (R315): what it translates, the leaf used, and the walk's address. -/
structure TlbEntry where
  agent : Agent
  ctx : Nat
  va : BitVec 64
  leaf : BitVec 64
  level : Nat
  deriving DecidableEq, Repr

/-! ## Contexts, launches, presented devices -/

/-- A pointer entry that a die keeps for its walkers (R315): die (8 for the hub die), context, level, the addresses it serves by
their upper bits, and the entry. -/
structure PtrEntry where
  die : Nat
  ctx : Nat
  level : Nat
  upper : Nat
  entry : BitVec 64
  deriving DecidableEq, Repr

/-- A word in a core's instruction cache (R132): its location and key, and when it was filled, by the count of draws. -/
structure IWord where
  core : Nat
  loc : Nat
  key : Nat
  word : Word
  filled : Nat
  deriving DecidableEq, Repr

/-- What the last barrier step left in an object (R110). -/
structure BarMark where
  loc : Nat
  value : BitVec 128
  deriving DecidableEq, Repr

/-- State of a hypothesis id (R206). -/
inductive HypSt where
  | free | live | resolving | discarding
  deriving DecidableEq, Repr

/-- An entry of the hypothesis table (R206). -/
structure Hyp where
  st : HypSt
  parent : BitVec 8
  depth : BitVec 4
  /-- of a DISCARDING id: the parent of the id that its refutation named (R211) -/
  refuge : BitVec 8 := 0
  deriving DecidableEq, Repr

/-- A HYPRES that the hypothesis table has accepted (R209): its crew, the gang's slices and the register its answer goes to, and whether
the resolution has taken effect. -/
structure Resolve where
  id : Nat
  ctx : Nat
  h : BitVec 8
  crew : Nat
  slices : List Nat
  reg : Nat
  effect : Bool
  deriving DecidableEq, Repr

/-- A phase domain (R199, R311): its quota, the quota of the next phase, arrivals and count. -/
structure Phase where
  quota : BitVec 16
  next : BitVec 16
  arrived : BitVec 16
  count : BitVec 32
  deriving DecidableEq, Repr

/-- A bound launch queue (R296, R311). -/
structure Queue where
  ring : BitVec 64
  door : BitVec 64
  log2n : BitVec 5
  pri : BitVec 2
  peer : Bool
  rd : BitVec 64
  wr : BitVec 64
  deriving DecidableEq, Repr

/-- A forwarding slot in use (R324): source and destination frame addresses (PA) and size code. -/
structure Forward where
  src : Nat
  dst : Nat
  k : Nat
  deriving DecidableEq, Repr

/-- One context (R293, R294, R311, R320, R323). -/
structure Ctx where
  id : Nat
  dead : Bool
  /-- the control block, 512 bits, as read at creation (R293) -/
  cb : BitVec 512
  /-- the active region table (R320) and the table as read at creation (R359) -/
  regions : SMap (BitVec 256)
  regions0 : SMap (BitVec 256)
  /-- td0 to td255 (R219) -/
  tds : SMap (BitVec 256)
  hyps : SMap Hyp
  phases : List Phase
  queues : List Queue
  age : BitVec 16
  /-- RGNCTL IDX, BUSY, RESULT and the entry being switched in (R320, R321) -/
  rgnIdx : BitVec 6
  rgnBusy : Bool
  rgnResult : BitVec 3
  rgnNew : BitVec 256
  /-- the entry a rewrite in progress is for, and its place among rewrites and moves (R322) -/
  rgnAct : BitVec 6
  rgnSeq : Nat
  /-- GO written with this IDX, not yet acted on -/
  rgnGo : Option (BitVec 6)
  /-- MIGSRC, MIGDST, MIGCTL (R323) -/
  migK : BitVec 4
  migSrc : BitVec 36
  migDst : BitVec 36
  migSlot : BitVec 4
  migBusy : Bool
  migResult : BitVec 3
  /-- the move in progress: forwarding slot and frames; its place among rewrites and moves (R322) -/
  migAct : Option (Nat × Forward)
  migSeq : Nat
  /-- GO or RETIRE written, not yet acted on -/
  migGo : Bool
  migRetire : Bool
  /-- the save address while saved (R341), and admission stopped (R339) -/
  savedAt : Option (BitVec 48)
  stopAdmit : Bool
  deriving DecidableEq, Repr

/-- A task record in flight (R299 to R304). -/
structure Run where
  uid : Nat
  ctx : Nat
  /-- address and the 64 bytes read in the step that left it READY -/
  va : BitVec 64
  rcd : BitVec 512
  prio : BitVec 2
  readyAt : Option Nat
  /-- draws taken when it became READY, against which instruction-cache words are dated (R132) -/
  readyDraw : Nat
  gridid : BitVec 32
  /-- blocks admitted, the record left its list, blocks still resident -/
  nextBlk : Nat
  running : Bool
  /-- cellar task submitted or finished, host signal done -/
  submitted : Bool
  workDone : Bool
  /-- cellar task: its command record, read when READY (R251) -/
  work : Option (BitVec 512)
  /-- attached collective: its 64 bytes read when READY, and whether STATUS is written (R309) -/
  acoll : Option (BitVec 512)
  collDone : Bool
  /-- the parent has been decremented (R304) -/
  told : Bool := false
  deriving DecidableEq, Repr

/-- A fault-ring record waiting to be written (R336): all fields but SEQ, and the crew a KIND 0 record belongs to. -/
structure RingRec where
  val : BitVec 64
  pc : BitVec 64
  aux : BitVec 64
  ctx : Nat
  kind : BitVec 2
  cause : BitVec 8
  detail : BitVec 8
  level : BitVec 3
  mc : Bool
  die : BitVec 3
  core : BitVec 5
  crewid : BitVec 5
  lane : BitVec 5
  sreg : BitVec 8
  crew : Option Nat
  deriving DecidableEq, Repr

/-- A host window HWINw (R347). -/
structure HWin where
  en : Bool
  wr : Bool
  ns : Bool
  hbase : BitVec 52
  deriving DecidableEq, Repr

/-- A presented device, named by its lowest physical die (R291, R318, R323, R335, R338, R347, R350, R353, R365, R371). -/
structure PDev where
  first : Nat
  dies : Nat
  varea : Nat
  /-- epoch E (R318) -/
  epoch : BitVec 64
  fwd : SMap Forward
  /-- FQBASE LOG2N, EN, VEC, PA; PROD; CONS (R335) -/
  fqLog2n : BitVec 4
  fqEn : Bool
  fqVec : BitVec 7
  fqPa : BitVec 36
  fqProd : BitVec 64
  fqCons : BitVec 64
  faultQ : List RingRec
  /-- a FRESP write not yet acted on: SEQ and ACTION (R337) -/
  fresp : Option (BitVec 32 × BitVec 2)
  /-- PREEMPT CTX, REQ, BUSY, RESULT, STAGE, SAVE, and when the stage began (R338 to R340) -/
  peCtx : BitVec 10
  peReq : BitVec 2
  peBusy : Bool
  peResult : BitVec 3
  peStage : BitVec 3
  peSave : BitVec 27
  peStart : Nat
  /-- GO written with this CTX, REQ and SAVE, not yet acted on -/
  peGo : Option (BitVec 10 × BitVec 2 × BitVec 27)
  /-- the request in progress: context, REQ and SAVE -/
  peAct : Option (Nat × BitVec 2 × BitVec 27)
  hwin : SMap HWin
  scto : BitVec 32
  cectl : BitVec 5
  xto : BitVec 32
  deriving DecidableEq, Repr

/-- A core's save slot: context, presented core it was saved from (24 d + c), mailboxes and tile tags, with the bytes of scratchpad and
accumulators as they were saved, by window offset, and the offset / 128 of those that held an uncorrectable error (R341, R369). -/
structure SavedCore where
  ctx : Nat
  slot : Nat
  mail : SMap (List (BitVec 64))
  tags : SMap (BitVec 8)
  image : List Host.Cell
  bad : List Nat
  deriving DecidableEq, Repr

/-! ## Host link, security, bring-up, RAS -/

/-- A key slot (R355): LOADED with its owner, NOHOST and key material; an EMPTY slot is not listed. -/
structure KeySlot where
  owner : Nat
  nohost : Bool
  key : BitVec 512
  deriving DecidableEq, Repr

/-- A path key (R354): ENC, the key, and by VC × 16 + port the packets sent and the last counter accepted. -/
structure PathKey where
  enc : Bool
  key : BitVec 256
  sentCtr : SMap (BitVec 64)
  recvCtr : SMap (BitVec 64)
  deriving DecidableEq, Repr

/-- A Scafa port (R350): UP, LANES, ERR, PEER. -/
structure Port where
  up : Bool
  lanes : BitVec 4
  err : Bool
  peer : BitVec 10
  deriving DecidableEq, Repr

/-- The BAR0 registers (R345, R357, R360). -/
structure Bar0 where
  mqLog2n : BitVec 5
  mqPa : BitVec 36
  mqWr : BitVec 64
  mqRd : BitVec 64
  b2off : BitVec 27
  hkey : BitVec 12
  mcvec : BitVec 7
  smcmd : BitVec 31
  smBusy : Bool
  smResult : BitVec 3
  smVec : BitVec 7
  smDetail : BitVec 8
  boot : BitVec 3
  bootDetail : BitVec 8
  fwaddr : BitVec 48
  partcfg : BitVec 16
  partRefused : Bool
  msixMask : BitVec 128
  msixPending : BitVec 128
  msixTable : SMap (BitVec 96)
  deriving DecidableEq, Repr

/-- MCSTAT, MCADDR, RASSTAT and the state behind them (R366, R370, R371). -/
structure Ras where
  valid : Bool
  ovf : Bool
  sev : BitVec 2
  src : BitVec 4
  die : BitVec 3
  ce : BitVec 32
  /-- events that arrived while one was recorded (R366) -/
  lost : Nat
  addr : BitVec 48
  svcreq : Bool
  degr : BitVec 8
  retired : List Nat
  /-- spare cores left by die (default 2) and failed cores by die × 32 + core (R7, R16, R370) -/
  spares : SMap Nat
  failed : List Nat
  /-- PCAP WATTS; hottest sensor by die, of which TEMP is the largest; dies stretched for temperature; MHz by core (default 1400)
  (R364, R371) -/
  watts : BitVec 12
  temps : SMap (BitVec 12)
  hot : List Nat
  mhz : SMap Nat
  /-- ticks by which the copy of reftime of a compute die (0 to 7) or a cellar die (8 to 15) is ahead of the hub's, from -1 to 1;
  sync words sent to it, and those it has missed since the last it had (R363) -/
  skew : SMap Int
  synced : SMap Nat
  missed : SMap Nat
  deriving DecidableEq, Repr

/-! ## The whole machine -/

/-- The machine. -/
structure State where
  /-- the model's own: who acts, inputs, free draws taken, next unique number (log 1 to 3) -/
  cur : Issuer
  agenda : List Stim
  draws : Nat
  nextId : Nat
  /-- reftime (R134, R363); clock of each core (R134) -/
  reftime : Nat
  clock : SMap Nat
  /-- bytes by location: DRAM at stack × 2^36 + stack offset, scratchpads at their on-chip physical address (R66 to R71) -/
  mem : List Host.Cell
  /-- the key index under which each DRAM line was last written, by line (R355) -/
  lineKey : SMap Nat
  poison : List Nat
  caches : List CEntry
  ulines : List ULine
  press : List PressLine
  recalls : List Recall
  tlb : List TlbEntry
  ptrs : List PtrEntry
  /-- accesses that wait at the home of a line, oldest first (R116, R318, R324) -/
  waitq : List Waiting
  /-- the model's own: what the last step of each barrier object wrote (R110) -/
  bars : List BarMark
  /-- instruction-cache words (R132) -/
  icache : List IWord
  crews : List Crew
  blocks : List Block
  cores : SMap Core
  ctxs : List Ctx
  runs : List Run
  pdevs : List PDev
  credits : List Credit
  /-- what save slots hold beyond the save area's memory image (R341) -/
  savedCores : List SavedCore
  colls : List CollJob
  cmdq : List Cmd
  cmds : List Cmd
  procs : List Proc
  atomq : List AtomReq
  mails : List Mail
  regs : List Reg
  /-- resolutions that have not written their answer (R209) -/
  resolves : List Resolve
  launches : List Launch
  /-- requests from outside the device that wait at a home, oldest first (R116, R324) -/
  inbound : List Inbound
  keys : SMap KeySlot
  /-- the slot that a KEYERASE under way empties (R356) -/
  erasing : Option Nat
  pathKeys : SMap PathKey
  /-- a SESSION's wrapping key, firmware measurement, firmware store, device resets so far (R358 to R361) -/
  session : Option (BitVec 256)
  fwm : BitVec 512
  firmware : List Byte
  resets : Nat
  bar0 : Bar0
  ports : List Port
  ras : Ras
  sent : List Sent
  deriving DecidableEq, Repr

/-- Why the model stops. -/
inductive Fault where
  /-- Raised by exec on a main-set instruction when `cur` names no gang of a resident crew: the state asks for no issue, so there
  is no gang whose registers the instruction could read. Safe: the spec gives an instruction no meaning without an issuer. -/
  | noIssuer
  /-- Raised by exec on an Aqiuf instruction when `cur` names no running cellar processor. Safe, as `noIssuer`. -/
  | noProcessor
  deriving DecidableEq, Repr

/-- Why the model gives no meaning. -/
inductive Refusal where
  /-- Raised by exec's arm of an instruction that has no meaning yet, with its mnemonic. Safe: nothing is claimed of it. -/
  | notModelled (mnemonic : String)
  deriving DecidableEq, Repr

/-! ## Reset -/

/-- BAR0 after reset (R345, R360); MSI-X vectors masked (log 12). -/
def Bar0.reset : Bar0 :=
  { mqLog2n := 4, mqPa := 0, mqWr := 0, mqRd := 0, b2off := 0, hkey := 0, mcvec := 0, smcmd := 0, smBusy := false,
    smResult := 0, smVec := 0, smDetail := 0, boot := 1, bootDetail := 0, fwaddr := 0, partcfg := 0xFFFF,
    partRefused := false, msixMask := BitVec.allOnes 128, msixPending := 0, msixTable := [] }

/-- The reliability registers after reset (R366, R370, R371; TEMP by log 11). -/
def Ras.reset : Ras :=
  { valid := false, ovf := false, sev := 0, src := 0, die := 0, ce := 0, lost := 0, addr := 0, svcreq := false, degr := 0,
    retired := [], spares := [], failed := [], watts := 2200, temps := [], hot := [], mhz := [], skew := [],
    synced := [], missed := [] }

/-- A Scafa port after reset (R350). -/
def Port.reset : Port := { up := false, lanes := 0, err := false, peer := 0 }

/-- The machine right after device reset (R360): no context, reftime 0, every register at its reset value, slot 0 with a fresh
device key, waiting for firmware. -/
def State.reset : State :=
  { cur := .none, agenda := [], draws := 0, nextId := 1, reftime := 0, clock := [], mem := [], lineKey := [], poison := [],
    caches := [], ulines := [], press := [], recalls := [], tlb := [], ptrs := [], waitq := [], bars := [], icache := [], crews := [], blocks := [], cores := [],
    ctxs := [], runs := [], pdevs := [], credits := [], savedCores := [],
    colls := [], cmdq := [], cmds := [], procs := [], atomq := [], mails := [],
    regs := [], resolves := [], launches := [], inbound := [], keys := [], erasing := none, pathKeys := [], session := none, fwm := 0, firmware := [], resets := 1,
    bar0 := Bar0.reset, ports := List.replicate 12 Port.reset, ras := Ras.reset, sent := [] }

end Sys2Proof.Machine
end

