-- ==== Sys2Proof/Machine/Bits.lean ====
section
/-!
DEFINITION. Helpers over plain data: sparse tables, bytes and words, bit scans. Mendable, and used by every other file of the
machine.
-/
namespace Sys2Proof.Machine

/-! ## Sparse tables -/

/-- The value at a key; `d` where none is listed. -/
def mget {β : Type} (d : β) : SMap β → Nat → β
  | [], _ => d
  | (k, v) :: m, i => if i = k then v else mget d m i

/-- Whether a key is listed. -/
def mhas {β : Type} (m : SMap β) (i : Nat) : Bool := m.any (·.1 == i)

/-- The listed value at a key. -/
def mfind {β : Type} : SMap β → Nat → Option β
  | [], _ => none
  | (k, v) :: m, i => if i = k then some v else mfind m i

/-- Drop a key. -/
def mdel {β : Type} (m : SMap β) (i : Nat) : SMap β := m.filter (·.1 != i)

/-- List a value at a key whatever it is. -/
def mset {β : Type} : SMap β → Nat → β → SMap β
  | [], i, x => [(i, x)]
  | (k, v) :: m, i, x =>
    if i < k then (i, x) :: (k, v) :: m else if i = k then (i, x) :: m else (k, v) :: mset m i x

/-- Write a value at a key, keeping the keys rising and listing no `d`. -/
def mput {β : Type} [DecidableEq β] (d : β) (m : SMap β) (i : Nat) (x : β) : SMap β := if x = d then mdel m i else mset m i x

/-- Canonical form: keys strictly rising and no `d` listed. -/
def mwf {β : Type} [DecidableEq β] (d : β) : SMap β → Bool
  | [] => true
  | [(_, v)] => v != d
  | (k, v) :: (k', v') :: m => v != d && decide (k < k') && mwf d ((k', v') :: m)

/-! ## Bytes and words -/

/-- The number whose bytes, lowest first, are these (R1). -/
def ofBytes : List Byte → Nat
  | [] => 0
  | b :: bs => b.toNat + 256 * ofBytes bs

/-- The n low bytes of a number, lowest first (R1). -/
def toBytes : Nat → Nat → List Byte
  | 0, _ => []
  | n + 1, x => BitVec.ofNat 8 x :: toBytes n (x / 256)

/-- A pair of 32-bit registers as 64 bits (R133). -/
def pair (lo hi : Word) : BitVec 64 := hi ++ lo
def lo32 (x : BitVec 64) : Word := x.extractLsb' 0 32
def hi32 (x : BitVec 64) : Word := x.extractLsb' 32 32

/-- The 32-bit words of a 64-bit value, lowest first. -/
def words2 (x : BitVec 64) : List Word := [lo32 x, hi32 x]

/-- The n words of a number, lowest first. -/
def toWords : Nat → Nat → List Word
  | 0, _ => []
  | n + 1, x => BitVec.ofNat 32 x :: toWords n (x / 2 ^ 32)

/-- The number whose words, lowest first, are these. -/
def ofWords : List Word → Nat
  | [] => 0
  | w :: ws => w.toNat + 2 ^ 32 * ofWords ws

/-- One byte of a number. -/
def byteOf (x i : Nat) : Byte := BitVec.ofNat 8 (x >>> (8 * i))

/-- Bits [hi:lo] of a number. -/
def bits (x hi lo : Nat) : Nat := (x >>> lo) % 2 ^ (hi + 1 - lo)

/-- One bits of the low n bits of a number. -/
def popCount : Nat → Nat → Nat
  | 0, _ => 0
  | n + 1, x => x % 2 + popCount n (x / 2)

/-- Leading zeros of the low n bits of a number. -/
def leadZeros (n x : Nat) : Nat := if x = 0 then n else n - 1 - Nat.log2 x

/-- The low n bits reversed. -/
def revBits : Nat → Nat → Nat
  | 0, _ => 0
  | n + 1, x => (x % 2) * 2 ^ n + revBits n (x / 2)

/-- Two's complement reading of 32 bits. -/
def sOf (x : Word) : Int := x.toInt

/-- An integer modulo 2^32 and 2^64. -/
def w32 (x : Int) : Word := BitVec.ofInt 32 x
def w64 (x : Int) : BitVec 64 := BitVec.ofInt 64 x

/-- A 32-bit truth value of a flag, for registers. -/
def wordOf (b : Bool) : Word := if b then 1 else 0

/-- Replace the element at an index by a function of it. -/
def modAt {α : Type} : List α → Nat → (α → α) → List α
  | [], _, _ => []
  | x :: xs, 0, f => f x :: xs
  | x :: xs, n + 1, f => x :: modAt xs n f

/-- The least element of a list of numbers. -/
def minOf : List Nat → Option Nat
  | [] => none
  | x :: xs => some (xs.foldl (fun a b => if b < a then b else a) x)

/-- Insert in rising order, once. -/
def insertSorted (n : Nat) : List Nat → List Nat
  | [] => [n]
  | x :: xs => if n < x then n :: x :: xs else if n = x then x :: xs else x :: insertSorted n xs

/-- ⌈a / b⌉. -/
def ceilDiv (a b : Nat) : Nat := (a + b - 1) / b

/-- Numbers lo, lo + 1, …, n of them. -/
def rangeFrom (lo n : Nat) : List Nat := (List.range n).map (lo + ·)

end Sys2Proof.Machine
end

