-- ==== Sys2Proof/Machine/Float.lean ====
section
/-!
DEFINITION. Floating point (03 R42 to R63, 07 R153 to R160): formats, exact values, one rounding step with overflow, tiny results
and flags, the arithmetic built on it, conversions, QUANT's elements and the shared-exponent path. Values are exact dyadic
numbers; a result that is not dyadic carries a sticky mark.
-/
namespace Sys2Proof.Machine

/-- The five rounding modes (R46). -/
inductive RMode where
  | rne | rn | rz | ru | rd
  deriving DecidableEq, Repr

/-- A binary format: exponent and fraction bits, bias, the code of the largest finite number (R42). `inf` is false for E4M3. -/
structure FFmt where
  eb : Nat
  fb : Nat
  bias : Nat
  maxCode : Nat
  inf : Bool
  nan : Nat
  deriving DecidableEq, Repr

def f64 : FFmt := { eb := 11, fb := 52, bias := 1023, maxCode := 0x7FEFFFFFFFFFFFFF, inf := true, nan := 0x7FF8000000000000 }
def f32 : FFmt := { eb := 8, fb := 23, bias := 127, maxCode := 0x7F7FFFFF, inf := true, nan := 0x7FC00000 }
def f16 : FFmt := { eb := 5, fb := 10, bias := 15, maxCode := 0x7BFF, inf := true, nan := 0x7E00 }
def bf16 : FFmt := { eb := 8, fb := 7, bias := 127, maxCode := 0x7F7F, inf := true, nan := 0x7FC0 }
def e4m3 : FFmt := { eb := 4, fb := 3, bias := 7, maxCode := 0x7E, inf := false, nan := 0x7F }
def e5m2 : FFmt := { eb := 5, fb := 2, bias := 15, maxCode := 0x7B, inf := true, nan := 0x7E }

/-- What a code stands for: a NaN (signalling or not), an infinity, or (−1)^neg × m × 2^e. -/
inductive FV where
  | nan (sig : Bool)
  | inf (neg : Bool)
  | fin (neg : Bool) (m : Nat) (e : Int)
  deriving DecidableEq, Repr

/-- The sign bit's place. -/
def FFmt.signBit (f : FFmt) : Nat := f.eb + f.fb

/-- Read a code (R42, R43). FP8 NaNs are quiet. -/
def FFmt.read (f : FFmt) (x : Nat) : FV :=
  let neg := x.testBit f.signBit
  let ef := bits x (f.signBit - 1) f.fb
  let fr := x % 2 ^ f.fb
  if !f.inf && ef == 2 ^ f.eb - 1 && fr == 2 ^ f.fb - 1 then .nan false
  else if f.inf && ef == 2 ^ f.eb - 1 then
    if fr == 0 then .inf neg else .nan (!fr.testBit (f.fb - 1) && 10 ≤ f.signBit)
  else if ef == 0 then .fin neg fr (1 - (f.bias : Int) - f.fb)
  else .fin neg (2 ^ f.fb + fr) ((ef : Int) - f.bias - f.fb)

/-- Flag bits of fflags (R49). -/
def fNX : BitVec 5 := 1
def fUF : BitVec 5 := 2
def fOF : BitVec 5 := 4
def fDZ : BitVec 5 := 8
def fNV : BitVec 5 := 16

/-- A code with its flags. -/
abbrev FRes := Nat × BitVec 5

/-- The canonical NaN (R45), quietly or with invalid. -/
def FFmt.nanRes (f : FFmt) (nv : Bool) : FRes := (f.nan, if nv then fNV else 0)

/-- A sign bit set on a code. -/
def FFmt.signed (f : FFmt) (neg : Bool) (x : Nat) : Nat := if neg then x + 2 ^ f.signBit else x

def FFmt.zero (f : FFmt) (neg : Bool) : Nat := f.signed neg 0
def FFmt.infinity (f : FFmt) (neg : Bool) : Nat := f.signed neg ((2 ^ f.eb - 1) * 2 ^ f.fb)

/-- Whether a quantity with the given last bit and remainder rounds away from zero: `cmp` compares the remainder with half. -/
def RMode.up (rm : RMode) (neg odd inexact : Bool) (cmp : Ordering) : Bool :=
  match rm with
  | .rne => cmp == .gt || (cmp == .eq && odd)
  | .rn => cmp != .lt
  | .rz => false
  | .ru => inexact && !neg
  | .rd => inexact && neg

/-- Round m × 2^e (plus something below one unit of m when sticky) to a multiple of 2^q: the multiple and whether it differs. -/
def roundAt (rm : RMode) (neg : Bool) (m : Nat) (e : Int) (sticky : Bool) (q : Int) : Nat × Bool :=
  let m := if sticky then 2 * m + 1 else m
  let e := if sticky then e - 1 else e
  if q ≤ e then (m * 2 ^ (e - q).toNat, false)
  else
    let k := (q - e).toNat
    let n := m >>> k
    let r := m % 2 ^ k
    let inexact := r != 0
    let up := rm.up neg (n % 2 == 1) inexact (compare (2 * r) (2 ^ k))
    (if up then n + 1 else n, inexact)

/-- m × 2^e < m' × 2^e' for exact numbers. -/
def dyLt (m : Nat) (e : Int) (m' : Nat) (e' : Int) : Bool :=
  if e ≤ e' then m < m' * 2 ^ (e' - e).toNat else m * 2 ^ (e - e').toNat < m'

/-- The largest finite magnitude as significand and exponent. -/
def FFmt.maxFin (f : FFmt) : Nat × Int :=
  match f.read f.maxCode with
  | .fin _ m e => (m, e)
  | _ => (0, 0)

/-- The code of n × 2^q for n ≤ 2^(fb + 1), q no lower than the subnormal quantum. -/
def FFmt.code (f : FFmt) (n : Nat) (q : Int) : Nat :=
  (q - (1 - (f.bias : Int) - f.fb)).toNat * 2 ^ f.fb + n

/-- What an overflow delivers (R47), or the saturated value of the FP8 conversions (R51). -/
def FFmt.overflow (f : FFmt) (rm : RMode) (neg sat : Bool) : Nat :=
  if sat || !f.inf then f.signed neg f.maxCode
  else
    match rm with
    | .rne | .rn => f.infinity neg
    | .rz => f.signed neg f.maxCode
    | .ru => if neg then f.signed true f.maxCode else f.infinity false
    | .rd => if neg then f.infinity true else f.signed false f.maxCode

/-- Round an exact non-zero value once to the format (R47, R48): overflow by the value rounded with unbounded exponent, tiny
likewise, and the delivered value rounded to the format's own quantum. -/
def FFmt.round (f : FFmt) (rm : RMode) (sat : Bool) (neg : Bool) (m : Nat) (e : Int) (sticky : Bool) : FRes :=
  if m = 0 then (f.zero neg, 0)
  else
    let top := (Nat.log2 m : Int) + e
    let qU := top - f.fb
    let emin : Int := 1 - (f.bias : Int)
    let (nU, _) := roundAt rm neg m e sticky qU
    if dyLt f.maxFin.1 f.maxFin.2 nU qU then (f.overflow rm neg sat, fOF ||| fNX)
    else
      let tiny := dyLt nU qU 1 emin
      let q := if qU < emin - f.fb then emin - f.fb else qU
      let (n, inexact) := roundAt rm neg m e sticky q
      (f.signed neg (f.code n q), if inexact then (if tiny then fNX ||| fUF else fNX) else 0)

/-- The sign of an exact zero sum (R47). -/
def zeroSumNeg (rm : RMode) : Bool := rm == .rd

/-- The exact sum of two finite values: sign, significand, exponent; `none` for an exact zero. -/
def exactAdd (n1 : Bool) (m1 : Nat) (e1 : Int) (n2 : Bool) (m2 : Nat) (e2 : Int) : Option (Bool × Nat × Int) :=
  let e := if e1 ≤ e2 then e1 else e2
  let x : Int := (if n1 then -1 else 1) * ((m1 * 2 ^ (e1 - e).toNat : Nat) : Int)
  let y : Int := (if n2 then -1 else 1) * ((m2 * 2 ^ (e2 - e).toNat : Nat) : Int)
  let z := x + y
  if z = 0 then none else some (decide (z < 0), z.natAbs, e)

def FV.isSig : FV → Bool
  | .nan s => s
  | .inf _ | .fin _ _ _ => false
def FV.isNan : FV → Bool
  | .nan _ => true
  | .inf _ | .fin _ _ _ => false
def FV.neg : FV → FV
  | .nan s => .nan s
  | .inf n => .inf (!n)
  | .fin n m e => .fin (!n) m e

/-- x + y, rounded once (R47, R48, R153). -/
def FFmt.addV (f : FFmt) (rm : RMode) (x y : FV) : FRes :=
  match x, y with
  | .nan a, y => f.nanRes (a || y.isSig)
  | _, .nan b => f.nanRes b
  | .inf a, .inf b => if a == b then (f.infinity a, 0) else f.nanRes true
  | .inf a, .fin _ _ _ => (f.infinity a, 0)
  | .fin _ _ _, .inf b => (f.infinity b, 0)
  | .fin n1 m1 e1, .fin n2 m2 e2 =>
    match exactAdd n1 m1 e1 n2 m2 e2 with
    | some (n, m, e) => f.round rm false n m e false
    | none => (f.zero (if m1 == 0 && n1 == n2 then n1 else zeroSumNeg rm), 0)

/-- x × y, rounded once. -/
def FFmt.mulV (f : FFmt) (rm : RMode) (x y : FV) : FRes :=
  match x, y with
  | .nan a, y => f.nanRes (a || y.isSig)
  | _, .nan b => f.nanRes b
  | .inf a, .inf b => (f.infinity (a != b), 0)
  | .inf a, .fin b m _ => if m == 0 then f.nanRes true else (f.infinity (a != b), 0)
  | .fin a m _, .inf b => if m == 0 then f.nanRes true else (f.infinity (a != b), 0)
  | .fin n1 m1 e1, .fin n2 m2 e2 => f.round rm false (n1 != n2) (m1 * m2) (e1 + e2) false

/-- Whether the product of two values is 0 × ∞. -/
def zeroTimesInf : FV → FV → Bool
  | .inf _, .fin _ m _ => m == 0
  | .fin _ m _, .inf _ => m == 0
  | _, _ => false

/-- x × y + z, rounded once; 0 × ∞ raises invalid even beside a quiet NaN (R153). -/
def FFmt.fmaV (f : FFmt) (rm : RMode) (x y z : FV) : FRes :=
  if x.isNan || y.isNan || z.isNan then f.nanRes (x.isSig || y.isSig || z.isSig || zeroTimesInf x y)
  else if zeroTimesInf x y then f.nanRes true
  else
    match x, y, z with
    | .fin n1 m1 e1, .fin n2 m2 e2, z =>
      if m1 * m2 = 0 then
        match z with
        | .fin n m e =>
          if m = 0 then (f.zero (if (n1 != n2) == n then n else zeroSumNeg rm), 0) else f.round rm false n m e false
        | .inf n => (f.infinity n, 0)
        | .nan _ => f.nanRes false
      else f.addV rm (.fin (n1 != n2) (m1 * m2) (e1 + e2)) z
    | .inf a, .inf b, z => f.addV rm (.inf (a != b)) z
    | .inf a, .fin b _ _, z => f.addV rm (.inf (a != b)) z
    | .fin a _ _, .inf b, z => f.addV rm (.inf (a != b)) z
    | .nan _, _, _ | _, .nan _, _ => f.nanRes false

/-- ⌊√n⌋, bit by bit from bit k. -/
def isqrtFrom : Nat → Nat → Nat → Nat
  | 0, _, r => r
  | k + 1, n, r =>
    let r' := r + 2 ^ k
    isqrtFrom k n (if r' * r' ≤ n then r' else r)
def isqrt (n : Nat) : Nat := isqrtFrom (Nat.log2 n / 2 + 1) n 0

/-- m1 × 2^e1 / (m2 × 2^e2) with at least 130 quotient bits: significand, exponent and sticky. -/
def exactDiv (m1 : Nat) (e1 : Int) (m2 : Nat) (e2 : Int) : Nat × Int × Bool :=
  let k := 130 + Nat.log2 m2
  let q := m1 * 2 ^ k / m2
  (q, e1 - e2 - k, m1 * 2 ^ k % m2 != 0)

/-- x / y (R155). -/
def FFmt.divV (f : FFmt) (rm : RMode) (x y : FV) : FRes :=
  match x, y with
  | .nan a, y => f.nanRes (a || y.isSig)
  | _, .nan b => f.nanRes b
  | .inf _, .inf _ => f.nanRes true
  | .inf a, .fin b _ _ => (f.infinity (a != b), 0)
  | .fin a _ _, .inf b => (f.zero (a != b), 0)
  | .fin a m1 e1, .fin b m2 e2 =>
    if m2 = 0 then (if m1 = 0 then f.nanRes true else (f.infinity (a != b), fDZ))
    else if m1 = 0 then (f.zero (a != b), 0)
    else
      let (q, e, st) := exactDiv m1 e1 m2 e2
      f.round rm false (a != b) q e st

/-- 1 / x (R155). -/
def FFmt.rcpV (f : FFmt) (rm : RMode) (x : FV) : FRes := f.divV rm (.fin false 1 0) x

/-- √x (R155). -/
def FFmt.sqrtV (f : FFmt) (rm : RMode) (x : FV) : FRes :=
  match x with
  | .nan a => f.nanRes a
  | .inf n => if n then f.nanRes true else (f.infinity false, 0)
  | .fin n m e =>
    if m = 0 then (f.zero n, 0)
    else if n then f.nanRes true
    else
      let m' := if e % 2 = 0 then m else 2 * m
      let e' := if e % 2 = 0 then e else e - 1
      let r := isqrt (m' * 2 ^ 128)
      f.round rm false false r (e' / 2 - 64) (r * r != m' * 2 ^ 128)

/-- 1 / √x (R155). -/
def FFmt.rsqV (f : FFmt) (rm : RMode) (x : FV) : FRes :=
  match x with
  | .nan a => f.nanRes a
  | .inf n => if n then f.nanRes true else (f.zero false, 0)
  | .fin n m e =>
    if m = 0 then (f.infinity n, fDZ)
    else if n then f.nanRes true
    else
      let m' := if e % 2 = 0 then m else 2 * m
      let e' := if e % 2 = 0 then e else e - 1
      let r := isqrt (2 ^ 256 / m')
      f.round rm false false r (-(e' / 2) - 128) (r * r * m' != 2 ^ 256)

/-! ### Minimum, maximum, comparison, class (R154) -/

/-- x < y for values that are no NaN, with −0 below +0. -/
def FV.ltZ : FV → FV → Bool
  | .inf a, .inf b => a && !b
  | .inf a, _ => a
  | _, .inf b => !b
  | .fin a m e, .fin b m' e' =>
    if a && !b then true else if !a && b then false
    else if a then dyLt m' e' m e else dyLt m e m' e'
  | _, _ => false

/-- FMIN and FMAX on codes (R154). -/
def FFmt.minmax (f : FFmt) (isMax : Bool) (a b : Nat) : FRes :=
  let x := f.read a
  let y := f.read b
  let fl : BitVec 5 := if x.isSig || y.isSig then fNV else 0
  if x.isNan && y.isNan then (f.nan, fl)
  else if x.isNan then (b, fl)
  else if y.isNan then (a, fl)
  else if isMax then (if x.ltZ y then b else a, fl)
  else (if y.ltZ x then b else a, fl)

/-- x = y and x < y with −0 equal to +0, for values that are no NaN. -/
def FV.isZero : FV → Bool
  | .fin _ m _ => m == 0
  | .nan _ | .inf _ => false
def FV.eqV (x y : FV) : Bool := (x.isZero && y.isZero) || (!x.ltZ y && !y.ltZ x)
def FV.ltV (x y : FV) : Bool := !(x.isZero && y.isZero) && x.ltZ y

/-- FCMP (R154): the truth value and its flags. -/
def fcmpRes (cc : FCond) (x y : FV) : Bool × BitVec 5 :=
  let un := x.isNan || y.isNan
  let quiet : BitVec 5 := if x.isSig || y.isSig then fNV else 0
  let loud : BitVec 5 := if un then fNV else 0
  match cc with
  | .eq => (!un && x.eqV y, quiet)
  | .ne => (un || !x.eqV y, quiet)
  | .lt => (!un && x.ltV y, loud)
  | .le => (!un && (x.ltV y || x.eqV y), loud)
  | .gt => (!un && y.ltV x, loud)
  | .ge => (!un && (y.ltV x || x.eqV y), loud)
  | .un => (un, quiet)
  | .or => (!un, quiet)

/-- FCLASS (R154). -/
def fclassOf (x : Nat) : Nat :=
  match f32.read x with
  | .nan s => if s then 2 ^ 8 else 2 ^ 9
  | .inf n => if n then 1 else 2 ^ 7
  | .fin n m _ =>
    if m = 0 then (if n then 2 ^ 3 else 2 ^ 4)
    else if m < 2 ^ 23 then (if n then 2 ^ 2 else 2 ^ 5)
    else (if n then 2 else 2 ^ 6)

/-! ### Conversions (R51) -/

/-- Widen or narrow a value to another format: `sat` for the FP8 rows, whose finite overflow saturates; E4M3 has no infinity. -/
def FFmt.convert (dst : FFmt) (rm : RMode) (sat : Bool) (x : FV) : FRes :=
  match x with
  | .nan s => dst.nanRes s
  | .inf n => if dst.inf then (dst.infinity n, 0) else (dst.signed n dst.maxCode, fOF ||| fNX)
  | .fin n m e => dst.round rm sat n m e false

/-- FP32 to a 32-bit integer (R51): signed or unsigned. -/
def toInt32 (signed : Bool) (rm : RMode) (x : FV) : Word × BitVec 5 :=
  let lo : Int := if signed then -(2 ^ 31) else 0
  let hi : Int := if signed then 2 ^ 31 - 1 else 2 ^ 32 - 1
  match x with
  | .nan _ => (0, fNV)
  | .inf n => (w32 (if n then lo else hi), fNV)
  | .fin n m e =>
    let (k, inexact) := roundAt rm n m e false 0
    let z : Int := if n then -(k : Int) else k
    if z < lo then (w32 lo, fNV) else if hi < z then (w32 hi, fNV) else (w32 z, if inexact then fNX else 0)

/-- A 32-bit integer to FP32 (R51). -/
def ofInt32 (rm : RMode) (z : Int) : FRes := f32.round rm false (decide (z < 0)) z.natAbs 0 false

/-! ### The shared-exponent path (R61 to R63) -/

/-- FEXPO (R61). -/
def fexpoOf (x : Nat) : Int :=
  match f32.read x with
  | .nan _ | .inf _ => 32767
  | .fin _ m e => if m = 0 then -32768 else (Nat.log2 m : Int) + e

/-- QALIGN (R62). -/
def qalignOf (x : Nat) (e : Int) : BitVec 64 × BitVec 5 :=
  match f32.read x with
  | .nan _ | .inf _ => (0x8000000000000000, fNV)
  | .fin n m ex =>
    if e = 32767 then (0, 0)
    else
      let (k, inexact) := roundAt .rne n m (ex + 51 - e) false 0
      let fl : BitVec 5 := if inexact then fNX else 0
      if 2 ^ 63 - 1 < k then (w64 ((if n then -1 else 1) * (2 ^ 63 - 1)), fOF ||| fl)
      else (w64 (if n then -(k : Int) else k), fl)

/-- QUNALIGN (R63). -/
def qunalignOf (s : BitVec 64) (e : Int) : FRes :=
  if e = 32767 || s == 0x8000000000000000 then f32.nanRes true
  else if s = 0 then (0, 0)
  else f32.round .rne false (decide (s.toInt < 0)) s.toInt.natAbs (e - 51) false

/-! ### Special functions (R155): fixed point with 320 fraction bits -/

/-- π × 2^480 and ln 2 × 2^400, truncated. -/
def piFix : Nat :=
  0x3243f6a8885a308d313198a2e03707344a4093822299f31d0082efa98ec4e6c89452821e638d01377be5466cf34e90c6cc0ac29b7c97c50dd3f84d5b5
def ln2Fix : Nat :=
  0xb17217f7d1cf79abc9e3b39803f2f6af40f343267298b62d8a0d175b8baafa2be7b876206debac98559552fb4afa1b10ed2e

/-- Fraction bits of the fixed-point computations. -/
def FP : Nat := 320

/-- e^x for 0 ≤ x < 1 in fixed point, by n terms of its series. -/
def expSeries : Nat → Nat → Nat → Nat → Nat → Nat
  | 0, _, _, _, acc => acc
  | n + 1, x, k, term, acc =>
    let t := term * x / 2 ^ FP / k
    expSeries n x (k + 1) t (acc + t)
def expFix (x : Nat) : Nat := expSeries 90 x 1 (2 ^ FP) (2 ^ FP)

/-- The alternating series with step 2: sin from (x, 1), cos from (1, 0), of 0 ≤ x < 2 in fixed point. -/
def trigSeries : Nat → Nat → Nat → Int → Bool → Int → Int
  | 0, _, _, _, _, acc => acc
  | n + 1, xx, k, term, neg, acc =>
    let t := term * xx / 2 ^ FP / (((k + 1) * (k + 2) : Nat) : Int)
    trigSeries n xx (k + 2) t (!neg) (if neg then acc - t else acc + t)
def sinFix (x : Nat) : Nat := (trigSeries 60 (x * x / 2 ^ FP) 1 x true x).toNat
def cosFix (x : Nat) : Nat := (trigSeries 60 (x * x / 2 ^ FP) 0 (2 ^ FP) true (2 ^ FP)).toNat

/-- atanh z for 0 ≤ z ≤ 1/3 in fixed point. -/
def atanhSeries : Nat → Nat → Nat → Nat → Nat → Nat
  | 0, _, _, _, acc => acc
  | n + 1, zz, k, pow, acc =>
    let p := pow * zz / 2 ^ FP
    atanhSeries n zz (k + 2) p (acc + p / (k + 2))
def lnFix (g : Nat) : Nat :=
  let z := (g - 2 ^ FP) * 2 ^ FP / (g + 2 ^ FP)
  2 * atanhSeries 120 (z * z / 2 ^ FP) 1 z z

/-- A positive value as fixed point, truncated. -/
def toFix (m : Nat) (e : Int) : Nat := if 0 ≤ e + FP then m * 2 ^ (e + FP).toNat else m >>> (-(e + FP)).toNat

/-- A value strictly below m × 2^e by less than any rounding sees. -/
def justBelow (f : FFmt) (neg : Bool) (m : Nat) (e : Int) : FRes := f.round .rne false neg (m * 2 ^ 64 - 1) (e - 64) true

/-- 2^a, rounded with RNE (R155). -/
def ex2Of (x : FV) : FRes :=
  match x with
  | .nan s => f32.nanRes s
  | .inf n => (if n then 0 else f32.infinity false, 0)
  | .fin n m e =>
    if m = 0 then f32.round .rne false false 1 0 false
    else if 0 ≤ (Nat.log2 m : Int) + e - 20 then
      -- |a| at least 2^20: far outside the range of FP32
      if n then f32.round .rne false false 1 (-100000) false else f32.round .rne false false 1 100000 false
    else
      let fx := toFix m e
      let whole := fx / 2 ^ FP
      let frac := fx % 2 ^ FP
      let low := 0 < -(e + FP)
      if frac = 0 && !low then f32.round .rne false false 1 (if n then -(whole : Int) else whole) false
      else if !n then
        f32.round .rne false false (expFix (frac * ln2Fix / 2 ^ 400)) ((whole : Int) - FP) true
      else
        let g := 2 ^ FP - frac
        if g = 2 ^ FP then justBelow f32 false 1 (-(whole : Int))
        else f32.round .rne false false (expFix (g * ln2Fix / 2 ^ 400)) (-(whole : Int) - 1 - FP) true

/-- log2 a, rounded with RNE (R155). -/
def lg2Of (x : FV) : FRes :=
  match x with
  | .nan s => f32.nanRes s
  | .inf n => if n then f32.nanRes true else (f32.infinity false, 0)
  | .fin n m e =>
    if m = 0 then (f32.infinity true, fDZ)
    else if n then f32.nanRes true
    else
      let k := Nat.log2 m
      let whole : Int := (k : Int) + e
      if m = 2 ^ k then ofInt32 .rne whole
      else
        let l : Nat := lnFix (m * 2 ^ FP / 2 ^ k) * 2 ^ 400 / ln2Fix
        let z : Int := whole * (2 ^ FP : Nat) + (l : Nat)
        f32.round .rne false (decide (z < 0)) z.natAbs (-(FP : Int)) true

/-- Reduce a positive finite value by π/2: the quadrant and the remainder below π/2 in fixed point. An FP32 argument is below
2^128, so the quotient is below 2^128 and π to 480 fraction bits leaves the remainder right to more than 340. -/
def reduceHalfPi (m : Nat) (e : Int) : Nat × Nat :=
  let x := if 0 ≤ e + 480 then m * 2 ^ (e + 480).toNat else m >>> (-(e + 480)).toNat
  let q := x / (piFix / 2)
  (q % 4, (x - q * (piFix / 2)) / 2 ^ 160)

/-- sin or cos of a finite value, rounded with RNE (R155): the quadrant offset is 0 for sin and 1 for cos. -/
def sinCosOf (isCos : Bool) (x : FV) : FRes :=
  match x with
  | .nan s => f32.nanRes s
  | .inf _ => f32.nanRes true
  | .fin n m e =>
    if m = 0 then (if isCos then f32.round .rne false false 1 0 false else (f32.zero n, 0))
    else if (Nat.log2 m : Int) + e < -40 then
      if isCos then justBelow f32 false 1 0 else justBelow f32 n m e
    else
      let (q, r) := reduceHalfPi m e
      let quad := (q + (if isCos then 1 else 0)) % 4
      let y := if quad % 2 = 0 then sinFix r else cosFix r
      let neg := (quad ≥ 2) != (n && !isCos)
      f32.round .rne false neg y (-(FP : Int)) true

/-- tanh a, rounded with RNE (R155). -/
def tanhOf (x : FV) : FRes :=
  match x with
  | .nan s => f32.nanRes s
  | .inf n => f32.round .rne false n 1 0 false
  | .fin n m e =>
    if m = 0 then (f32.zero n, 0)
    else if (Nat.log2 m : Int) + e < -40 then justBelow f32 n m e
    else if 6 ≤ (Nat.log2 m : Int) + e then justBelow f32 n 1 0
    else
      -- e^(2a) = 2^k × e^r with 0 ≤ r < ln 2
      let x2 := 2 * toFix m e
      let l := ln2Fix / 2 ^ 80
      let t := expFix (x2 % l) * 2 ^ (x2 / l)
      f32.round .rne false n ((t - 2 ^ FP) * 2 ^ FP / (t + 2 ^ FP)) (-(FP : Int)) true

end Sys2Proof.Machine
end

