-- ==== Sys2Proof/Machine/Crews.lean ====
section
/-!
DEFINITION. Crews, slices and gangs: finding and updating them, registers of the three files (06 R128, R133), participating lanes
(06 R126, 07 R146), the one way an arithmetic instruction writes its results, gang grouping, divergence and exit (02 R17 to R25),
and the start of a region (02 R37, R38).
-/
namespace Sys2Proof.Machine

/-! ## Finding and updating -/

/-- The crew with a number. -/
def State.crew? (s : State) (uid : Nat) : Option Crew := s.crews.find? (·.uid == uid)

/-- Put a crew back. -/
def State.setCrew (s : State) (c : Crew) : State := { s with crews := s.crews.map fun x => if x.uid == c.uid then c else x }

/-- Update a crew by number. -/
def State.modCrew (s : State) (uid : Nat) (f : Crew → Crew) : State :=
  { s with crews := s.crews.map fun x => if x.uid == uid then f x else x }

def State.ctx? (s : State) (id : Nat) : Option Ctx := s.ctxs.find? (·.id == id)
def State.modCtx (s : State) (id : Nat) (f : Ctx → Ctx) : State :=
  { s with ctxs := s.ctxs.map fun x => if x.id == id then f x else x }
def State.block? (s : State) (uid : Nat) : Option Block := s.blocks.find? (·.uid == uid)
def State.run? (s : State) (uid : Nat) : Option Run := s.runs.find? (·.uid == uid)
def State.modRun (s : State) (uid : Nat) (f : Run → Run) : State :=
  { s with runs := s.runs.map fun x => if x.uid == uid then f x else x }

/-- A core that has never held a block. -/
def Core.fresh : Core :=
  { lastCtx := none, mail := [], acc := [], tags := [],
    accBad := [], mailBad := [],
    subs := List.replicate 4 { valid := false, fmt := 0, pat := 0, gen := 0, badGens := [], cells := [], idx := [], scales := [] },
    mq := [], copies := [], deficit := [0, 0, 0, 0], rrClass := 0, rr := [0, 0, 0, 0], rrUrgent := [0, 0, 0, 0] }

def State.core (s : State) (k : Nat) : Core := mget Core.fresh s.cores k
def State.setCore (s : State) (k : Nat) (c : Core) : State := { s with cores := mput Core.fresh s.cores k c }
def State.modCore (s : State) (k : Nat) (f : Core → Core) : State := s.setCore k (f (s.core k))

/-- A fresh unique number. -/
def State.fresh (s : State) : Nat × State := (s.nextId, { s with nextId := s.nextId + 1 })

/-- A free choice among n alternatives (R3). -/
def State.choose (s : State) (n : Nat) : Nat × State :=
  (if n = 0 then 0 else Config.freeNat s.draws % n, { s with draws := s.draws + 1 })

/-- A free word (R3). -/
def State.freeWord (s : State) : BitVec 1024 × State := (Config.freeWord s.draws, { s with draws := s.draws + 1 })

/-! ## Registers (R133) -/

def vkey (lane n : Nat) : Nat := lane * 128 + n
def Crew.vget (c : Crew) (lane n : Nat) : Word := mget 0 c.v (vkey lane n)
def Crew.vset (c : Crew) (lane n : Nat) (x : Word) : Crew := { c with v := mput 0 c.v (vkey lane n) x }

/-- A predicate; p15 is true in every lane (R128). -/
def Crew.pget (c : Crew) (lane n : Nat) : Bool := n == 15 || (mget 0 c.p lane).getLsbD n

/-- Write a predicate; a write to p15 is discarded (R128). -/
def Crew.pset (c : Crew) (lane n : Nat) (x : Bool) : Crew :=
  if n < 15 then
    let old := mget 0 c.p lane
    let bit : BitVec 15 := BitVec.ofNat 15 (2 ^ n)
    { c with p := mput 0 c.p lane (if x then old ||| bit else old &&& ~~~bit) }
  else c

/-- A scalar register of a slice. -/
def Slice.sget (x : Slice) (n : Nat) : Word := mget 0 x.s n
def Slice.sset (x : Slice) (n : Nat) (w : Word) : Slice := { x with s := mput 0 x.s n w }
def Crew.sget (c : Crew) (slice n : Nat) : Word :=
  match c.slices[slice]? with
  | some x => x.sget n
  | none => 0
def Crew.modSlice (c : Crew) (i : Nat) (f : Slice → Slice) : Crew := { c with slices := modAt c.slices i f }
def Crew.sset (c : Crew) (slice n : Nat) (w : Word) : Crew := c.modSlice slice (·.sset n w)

/-- A register of the file U selects, as lane l or its slice sees it (R121). -/
def Crew.rget (c : Crew) (u : Bool) (lane n : Nat) : Word := if u then c.sget (lane / 4) n else c.vget lane n
def Crew.rset (c : Crew) (u : Bool) (lane n : Nat) (w : Word) : Crew := if u then c.sset (lane / 4) n w else c.vset lane n w

/-- A pair of the file U selects. -/
def Crew.rget64 (c : Crew) (u : Bool) (lane n : Nat) : BitVec 64 := pair (c.rget u lane n) (c.rget u lane (n + 1))

/-- A scalar pair of a slice. -/
def Crew.sget64 (c : Crew) (slice n : Nat) : BitVec 64 := pair (c.sget slice n) (c.sget slice (n + 1))
def Crew.sset64 (c : Crew) (slice n : Nat) (x : BitVec 64) : Crew := (c.sset slice n (lo32 x)).sset slice (n + 1) (hi32 x)

/-! ### Words that arrive after issue (R130, R136) -/

/-- Open windows learn an operation's word. -/
def Slice.learn (x : Slice) (op : Nat) (sc : Bool) (key : Nat) (w : Word) : Slice :=
  { x with la := x.la.map fun a => { a with regs := a.regs.map fun r =>
      if r.sc == sc && r.key == key && r.new == .op op then { r with new := .word w } else r } }

/-- A scalar register receives the word it awaits from an operation. -/
def Slice.takeScalar (x : Slice) (op n : Nat) (w : Word) : Slice :=
  if mfind x.spend n == some op then
    let y := if x.drops.contains (true, n) then x else x.sset n w
    { y with spend := mdel y.spend n, drops := y.drops.filter (· != (true, n)) }.learn op true n w
  else x.learn op true n w

/-- A vector register of a lane receives the word it awaits. -/
def Crew.takeVector (c : Crew) (op lane n : Nat) (w : Word) : Crew :=
  match c.slices[lane / 4]? with
  | none => c
  | some x =>
    let k := vkey lane n
    if mfind x.vpend k == some op then
      (if x.drops.contains (false, k) then c else c.vset lane n w).modSlice (lane / 4) fun x =>
        { x with vpend := mdel x.vpend k, drops := x.drops.filter (· != (false, k)) }.learn op false k w
    else c.modSlice (lane / 4) fun x => x.learn op false k w

/-- Consecutive vector registers of a lane. -/
def Crew.takeVectors (c : Crew) (op lane : Nat) : Nat → List Word → Crew
  | _, [] => c
  | n, w :: ws => (c.takeVector op lane n w).takeVectors op lane (n + 1) ws

/-- Consecutive registers from n. -/
def Crew.rsetList (c : Crew) (u : Bool) (lane : Nat) : Nat → List Word → Crew
  | _, [] => c
  | n, w :: ws => (c.rset u lane n w).rsetList u lane (n + 1) ws

/-! ## Gangs and lanes -/

/-- A slice that has lanes left (R25). -/
def Slice.live (x : Slice) : Bool := x.exited != 15

/-- Slice i is live and of gang g. -/
def Crew.inGang (c : Crew) (g i : Nat) : Bool :=
  match c.slices[i]? with
  | some x => x.live && x.gang == g
  | none => false

/-- The slices of a gang, ascending. -/
def Crew.gangSlices (c : Crew) (g : Nat) : List Nat := (List.range c.slices.length).filter (c.inGang g)

/-- Live slices, ascending. -/
def Crew.liveSlices (c : Crew) : List Nat :=
  (List.range c.slices.length).filter fun i => (c.slices[i]?).any Slice.live

/-- Gangs by their number, ascending: a gang's number is its lowest slice. -/
def Crew.gangs (c : Crew) : List Nat := c.liveSlices.filter fun i => c.inGang i i

/-- The pc of a gang: its slices hold the same one. -/
def Crew.gangPc (c : Crew) (g : Nat) : BitVec 64 :=
  match c.slices[g]? with
  | some x => x.pc
  | none => 0

/-- Lane l is active in gang g. -/
def Crew.isActive (c : Crew) (g l : Nat) : Bool :=
  c.inGang g (l / 4) && (c.slices[l / 4]?).any fun x => x.active.getLsbD (l % 4)

/-- The guard passes in lane l (R126). -/
def Crew.guardPass (c : Crew) (gd : Guard) (l : Nat) : Bool := c.pget l gd.pr.toNat != gd.pn

/-- The lanes of a crew (R17). -/
def Crew.lanes (c : Crew) : List Nat := List.range (4 * c.slices.length)

/-- Participating lanes, ascending (R126, R146). -/
def Crew.parts (c : Crew) (g : Nat) (gd : Guard) : List Nat :=
  c.lanes.filter fun l => c.isActive g l && c.guardPass gd l

/-- Reachable lanes (R161). -/
def Crew.reachable (c : Crew) (g l : Nat) : Bool := c.inGang g (l / 4)

/-- The lowest participating lane of each slice. -/
def firstOfSlice (lanes : List Nat) : List Nat := lanes.filter fun l => !lanes.any fun k => k / 4 == l / 4 && k < l

/-- Where an instruction computes: each participating lane, or once in each slice that has one (R146). -/
def units (u : Bool) (lanes : List Nat) : List Nat := if u then firstOfSlice lanes else lanes

/-- Slices with a participating lane. -/
def slicesOf (lanes : List Nat) : List Nat := (firstOfSlice lanes).map (· / 4)

/-- Slices wait at nothing. -/
def Crew.ganged (c : Crew) (g : Nat) : Bool := c.liveSlices == c.gangSlices g

/-- Update every slice of a gang. -/
def Crew.modGang (c : Crew) (g : Nat) (f : Slice → Slice) : Crew :=
  { c with slices := c.slices.map fun x => if x.live && x.gang == g then f x else x }

/-- The program counter of the gang passes an instruction of n bytes (R119). -/
def Crew.advance (c : Crew) (g n : Nat) : Crew := c.modGang g fun x => { x with pc := x.pc + BitVec.ofNat 64 n }

/-- Write a scalar register in every slice of a gang (R18). -/
def Crew.ssetGang (c : Crew) (g n : Nat) (w : Word) : Crew := c.modGang g (·.sset n w)
def Crew.ssetGang64 (c : Crew) (g n : Nat) (x : BitVec 64) : Crew := (c.ssetGang g n (lo32 x)).ssetGang g (n + 1) (hi32 x)

/-! ## Arithmetic results (R146, R147) -/

/-- Raise flags (R50). -/
def Crew.raise (c : Crew) (f : BitVec 5) : Crew := { c with fflags := c.fflags ||| f }

/-- Every unit's words and flags, all computed before any is written (R146). -/
def Crew.writeAll (c : Crew) (u : Bool) (d : Nat) (us : List Nat) (f : Nat → List Word × BitVec 5) : Crew :=
  (us.map fun l => (l, f l)).foldl (fun c r => (c.rsetList u r.1 d r.2.1).raise r.2.2) c

/-- An arithmetic instruction of gang g: write D in each unit, raise flags, pass on (R146). -/
def Crew.alu (c : Crew) (g : Nat) (h : Hdr) (u : Bool) (d : Nat) (f : Nat → List Word × BitVec 5) : Crew :=
  (c.writeAll u d (units u (c.parts g h.guard)) f).advance g h.form.bytes

/-- A predicate result: computed per lane, or once per slice from its lowest participating lane, and written in every
participating lane (R147). -/
def Crew.aluP (c : Crew) (g : Nat) (h : Hdr) (u : Bool) (pd : Nat) (f : Nat → Bool × BitVec 5) : Crew :=
  let ls := c.parts g h.guard
  let src := fun l => if u then ((firstOfSlice ls).find? (fun k => k / 4 == l / 4)).getD l else l
  ((ls.map fun l => (l, f (src l))).foldl (fun c r => (c.pset r.1 pd r.2.1).raise r.2.2) c).advance g h.form.bytes

/-! ## Grouping -/

/-- Live slices with equal keys form one gang, named by its lowest slice. -/
def Crew.groupBy {κ : Type} [BEq κ] (c : Crew) (key : Nat → Slice → κ) : Crew :=
  let keys := c.slices.mapIdx fun i x => (i, x.live, key i x)
  { c with slices := c.slices.mapIdx fun i x =>
      if x.live then { x with gang := ((keys.find? fun k => k.2.1 && k.2.2 == key i x).map (·.1)).getD i } else x }

/-- One gang of every live slice. -/
def Crew.groupAll (c : Crew) : Crew := c.groupBy fun _ _ => ()

/-- Split a gang by pc after JOIN or EXIT (R24, R25); other gangs keep their slices. -/
def Crew.groupByPc (c : Crew) : Crew := c.groupBy fun _ x => (x.gang, x.pc)

/-- Split gang g by a key; other gangs keep their slices. -/
def Crew.splitGang (c : Crew) (g : Nat) (key : Nat → Nat) : Crew :=
  c.groupBy fun i x => (x.gang, if x.gang == g then key i else 0)

/-- The gang after g in ascending order, wrapping (R35). -/
def Crew.nextGang (c : Crew) (g : Nat) : Nat :=
  match c.gangs.find? (g < ·) with
  | some k => k
  | none => c.gangs.headD g

/-- The gang that holds the turn: the turn's number or the next gang after it (R35). -/
def Crew.holder (c : Crew) : Nat :=
  match c.gangs.find? (c.turn ≤ ·) with
  | some k => k
  | none => c.gangs.headD 0

/-! ## Divergence (R20, R23 to R25) -/

/-- The bits of the lanes of slice i in a list of lanes. -/
def maskOf (lanes : List Nat) (i : Nat) : BitVec 4 :=
  (lanes.filter fun l => l / 4 == i).foldl (fun m l => m ||| BitVec.ofNat 4 (2 ^ (l % 4))) 0

/-- A slice would push a fifth entry (R23). -/
def Slice.overflows (x : Slice) (taken : BitVec 4) : Bool := taken != 0 && taken != x.active && 4 ≤ x.stack.length

/-- A slice at a branch: to `target` with its taken lanes, pushing the others, or on to the next instruction (R23). -/
def Slice.branch (x : Slice) (taken : BitVec 4) (target : BitVec 64) (len : Nat) : Slice :=
  let next := x.pc + BitVec.ofNat 64 len
  if taken = 0 then { x with pc := next }
  else if taken = x.active then { x with pc := target }
  else { x with pc := target, active := taken, stack := ⟨next, x.active &&& ~~~taken⟩ :: x.stack }

/-- The gang branches: `taken` by slice and `target` by slice; slices that go to different places part (R20, R169). -/
def Crew.branch (c : Crew) (g len : Nat) (taken : Nat → BitVec 4) (target : Nat → BitVec 64) : Crew :=
  let key := fun i => if taken i = 0 then 0 else (target i).toNat + 1
  let c' := c.splitGang g key
  { c' with slices := c'.slices.mapIdx fun i x =>
      if c.inGang g i then x.branch (taken i) (target i) len else x }

/-- Some slice of the gang would overflow its stack. -/
def Crew.branchOverflows (c : Crew) (g : Nat) (taken : Nat → BitVec 4) : Bool :=
  (c.gangSlices g).any fun i => (c.slices[i]?).any (·.overflows (taken i))

/-- JOIN in a slice, with the address after it (R24). -/
def Slice.join (x : Slice) (after : BitVec 64) : Slice :=
  match x.stack with
  | [] => { x with pc := after }
  | e :: rest =>
    if e.addr = after then { x with active := x.active ||| e.mask, pc := after, stack := rest }
    else { x with active := e.mask, pc := e.addr, stack := ⟨after, x.active⟩ :: rest }

/-- Lanes leave a slice for good, its stack's masks included (R25, R170). -/
def Slice.drop (x : Slice) (gone : BitVec 4) : Slice :=
  { x with active := x.active &&& ~~~gone, exited := x.exited ||| gone,
           stack := x.stack.map fun e => { e with mask := e.mask &&& ~~~gone } }

/-- EXIT in a slice: the given lanes end; if active lanes remain it goes on at the next instruction, else it acts as a JOIN at
the top entry's own address (R25, R170). -/
def Slice.exit (x : Slice) (gone : BitVec 4) (len : Nat) : Slice :=
  let y := x.drop gone
  if y.active != 0 then { y with pc := y.pc + BitVec.ofNat 64 len }
  else
    match y.stack with
    | [] => if y.live then { y with pc := y.pc + BitVec.ofNat 64 len } else y
    | e :: _ => y.join e.addr

/-! ## Regions (R37, R38) -/

/-- A region starts at the slice's pc. -/
def Slice.startRegion (x : Slice) (tag : Nat) : Slice :=
  { x with region := { ent := x.pc, mask := x.active, stack := x.stack, tag := tag }, regctr := x.regctr + 1 }

/-- A region starts in every slice of a gang, whose pc has already passed the instruction (R37, R38). -/
def Crew.startRegion (c : Crew) (g tag : Nat) : Crew := c.modGang g (·.startRegion tag)

/-- The same in the state, with a fresh identifier. -/
def State.startRegion (s : State) (uid g : Nat) : State :=
  { s with nextId := s.nextId + 1 }.modCrew uid (·.startRegion g s.nextId)

/-! ## Restart at regent (R40) -/

/-- A slice back at its region record, without the lanes that have exited since. -/
def Slice.restart (x : Slice) : Slice :=
  if x.live then
    { x with pc := x.region.ent, active := x.region.mask &&& ~~~x.exited,
             stack := x.region.stack.map (fun e => { e with mask := e.mask &&& ~~~x.exited }), wait := .none, la := [],
             slate := [], vlate := [], lateHit := false }
  else x

/-- Every slice restarts; equal gang tags form one gang (R40). -/
def Crew.restart (c : Crew) : Crew :=
  { c with slices := c.slices.map Slice.restart, late := none, stopped := false }.groupBy fun _ x => x.region.tag

end Sys2Proof.Machine
end

