-- ==== Sys2Proof/Machine/Atoms.lean ====
section
/-!
DEFINITION. The operations of ATOM, RED, REDM and CATOM on element values (08 R186; 10 R263).
-/
namespace Sys2Proof.Machine

def smin (w a b : Nat) : Nat := if (BitVec.ofNat w b).slt (BitVec.ofNat w a) then b else a
def smax (w a b : Nat) : Nat := if (BitVec.ofNat w a).slt (BitVec.ofNat w b) then b else a

/-- old op b on element values. -/
def atomApply (op : AtomOp) (old b : Nat) : Nat :=
  match op with
  | .add => (old + b) % 2 ^ 32
  | .add64 => (old + b) % 2 ^ 64
  | .fadd => (f32.addV .rne (f32.read old) (f32.read b)).1
  | .mins => smin 32 old b
  | .maxs => smax 32 old b
  | .minu | .minu64 => if b < old then b else old
  | .maxu | .maxu64 => if old < b then b else old
  | .mins64 => smin 64 old b
  | .maxs64 => smax 64 old b
  | .and | .and64 => Nat.land old b
  | .or | .or64 => Nat.lor old b
  | .xor | .xor64 => Nat.xor old b
  | .exch | .exch64 => b

/-- Bytes of an operation's element. -/
def atomBytes (op : AtomOp) : Nat := if op.wide then 8 else 4

/-! ## Read-modify-writes as requests (R187, R189) -/

/-- CASV's new value: b's upper 48 bits over the incremented version. -/
def casvNew (old b : Nat) : Nat := b / 2 ^ 16 * 2 ^ 16 + (old % 2 ^ 16 + 1) % 2 ^ 16

/-- CASPT's new value: the incremented tag over b's pointer. -/
def casptNew (old b : Nat) : Nat := (old / 2 ^ 48 + 1) % 2 ^ 16 * 2 ^ 48 + b % 2 ^ 48

/-- Bytes of the element. -/
def rmwBytes : Rmw → Nat
  | .atom op _ => atomBytes op
  | .cas n _ _ | .casgt n _ => n
  | .casv _ _ | .caspt _ _ => 8

/-- The new value of an element, if one is written. -/
def rmwApply (r : Rmw) (old : Nat) : Option Nat :=
  match r with
  | .atom op b => some (atomApply op old (b.toNat % 2 ^ (8 * atomBytes op)))
  | .cas _ c b => if old = c.toNat then some b.toNat else none
  | .casgt n b =>
    let x := b.toNat % 2 ^ (8 * n)
    if (BitVec.ofNat (8 * n) old).slt (BitVec.ofNat (8 * n) x) then some x else none
  | .casv c b => if old % 2 ^ 16 = c.toNat % 2 ^ 16 then some (casvNew old b.toNat) else none
  | .caspt c b => if old % 2 ^ 48 = c.toNat % 2 ^ 48 then some (casptNew old b.toNat) else none

end Sys2Proof.Machine
end

