-- ==== Sys2Proof/Machine/Contexts.lean ====
section
/-!
DEFINITION. Contexts and presented devices: the fields of the context control block (15 R293), finding a context's presented
device, presented die numbers (01 R13), canonical addresses (04 R65) and fault-ring records waiting to be written (17 R336).
-/
namespace Sys2Proof.Machine

/-! ## Control block (R293) -/

def Ctx.field (x : Ctx) (lo w : Nat) : Nat := (x.cb.extractLsb' lo w).toNat
def Ctx.ptroot (x : Ctx) : Nat := x.field 0 64
def Ctx.rtab (x : Ctx) : Nat := x.field 64 64
def Ctx.aclt (x : Ctx) : Nat := x.field 128 64
def Ctx.qtab (x : Ctx) : Nat := x.field 192 64
/-- 0 whole, 1 halves, 2 dies. -/
def Ctx.mode (x : Ctx) : Nat := x.field 256 2
def Ctx.pdev (x : Ctx) : Nat := x.field 258 3
def Ctx.varea (x : Ctx) : Nat := x.field 264 5
def Ctx.priv (x : Ctx) : Bool := x.cb.getLsbD 269
def Ctx.nq (x : Ctx) : Nat := x.field 288 5
def Ctx.acln (x : Ctx) : Nat := x.field 304 9
def Ctx.quota (x : Ctx) (d : Nat) : BitVec 16 := x.cb.extractLsb' (320 + 16 * d) 16
/-- T1 and T2 in ticks of 1 ns, with their defaults. -/
def Ctx.t1 (x : Ctx) : Nat := (if x.field 448 32 = 0 then 100 else x.field 448 32) * 1000
def Ctx.t2 (x : Ctx) : Nat := (if x.field 480 32 = 0 then 200 else x.field 480 32) * 1000

/-- Dies of a presented device in a mode (R12). -/
def modeDies (mode : Nat) : Nat := if mode = 0 then 8 else if mode = 1 then 4 else 1
def Ctx.dies (x : Ctx) : Nat := modeDies x.mode

/-! ## Presented devices -/

def State.pdev? (s : State) (first : Nat) : Option PDev := s.pdevs.find? (·.first == first)
def State.modPdev (s : State) (first : Nat) (f : PDev → PDev) : State :=
  { s with pdevs := s.pdevs.map fun x => if x.first == first then f x else x }

/-- The lowest physical die of the presented device of a context. -/
def State.firstDie (s : State) (ctx : Nat) : Nat :=
  match s.ctx? ctx with
  | some x => x.pdev
  | none => 0
def State.ctxDies (s : State) (ctx : Nat) : Nat :=
  match s.ctx? ctx with
  | some x => x.dies
  | none => 0
def State.pdevOf (s : State) (ctx : Nat) : Option PDev := s.pdev? (s.firstDie ctx)

/-- The recall time-out of a presented device (R350). -/
def PDev.rto (p : PDev) : Nat := if p.scto.toNat < 10000 then 10000 else p.scto.toNat

/-- Physical die and core number of a physical core. -/
def dieOfCore (core : Nat) : Nat := core / 32

/-- dieid and coreid of a core as a context sees them (R13, R7). -/
def State.dieid (s : State) (ctx core : Nat) : Nat := core / 32 - s.firstDie ctx
def coreid (core : Nat) : Nat := core % 32

/-- The cache number of an L1 as a presented device counts it (R7, R13). -/
def State.cacheNo (s : State) (ctx core : Nat) : Nat := s.dieid ctx core * 32 + coreid core

/-- Bits 63 to 57 repeat bit 56 (R65). -/
def canonical (a : BitVec 64) : Bool := a == (a.extractLsb' 0 57).signExtend 64

/-- A die's own copy of reftime (R363). -/
def State.dieTime (s : State) (die : Nat) : Nat := ((s.reftime : Int) + mget 0 s.ras.skew die).toNat

/-- The scratchpad allocation of a crew's block: offset in the core's scratchpad and size (R26). -/
def State.scratch (s : State) (c : Crew) : Nat × Nat :=
  match s.block? c.block with
  | some b => (b.scrOff, b.scrSize)
  | none => (0, 0)

/-- A context is privileged (R292). -/
def State.privCtx (s : State) (ctx : Nat) : Bool := (s.ctx? ctx).any Ctx.priv

/-! ## Cause codes (R137) -/

def cILLEGAL : BitVec 8 := 0x01
def cPRIV : BitVec 8 := 0x02
def cMISALIGN : BitVec 8 := 0x03
def cPAGE : BitVec 8 := 0x04
def cPROT : BitVec 8 := 0x05
def cGANG : BitVec 8 := 0x06
def cHYPEFFECT : BitVec 8 := 0x07
def cHYPFULL : BitVec 8 := 0x08
def cWINDOW : BitVec 8 := 0x09
def cTDESC : BitVec 8 := 0x0A
def cSOFT : BitVec 8 := 0x0C
def cECC : BitVec 8 := 0x0D
def cTIMEOUT : BitVec 8 := 0x0E
def cWATCH : BitVec 8 := 0x0F
def cSTACKOVF : BitVec 8 := 0x10
def cSHAPE : BitVec 8 := 0x11

/-- PAGE, ECC and TIMEOUT go to the driver (R326). -/
def driverRoute (cause : BitVec 8) : Bool := cause == cPAGE || cause == cECC || cause == cTIMEOUT

/-- ECC and TIMEOUT come with a machine check (R326). -/
def withCheck (cause : BitVec 8) : Bool := cause == cECC || cause == cTIMEOUT

/-! ## Status words (R135) -/

def stDONE : BitVec 4 := 0
def stFAULT : BitVec 4 := 1
def stNOWIN : BitVec 4 := 2
def stABORT : BitVec 4 := 3
def stREFUSED : BitVec 4 := 4
def stBUSY : BitVec 4 := 5
def stFULL : BitVec 4 := 6

/-- A status word. -/
def statusWord (code : BitVec 4) (swRefused : Bool) (cause : BitVec 8) (count : Nat) : BitVec 64 :=
  code ++ (0 : BitVec 3) ++ (if swRefused then (1 : BitVec 1) else 0) ++ cause ++ BitVec.ofNat 48 count

/-! ## Task records (R299) -/

def rcCode (r : BitVec 512) : BitVec 64 := r.extractLsb' 0 64
def rcFrame (r : BitVec 512) : BitVec 64 := r.extractLsb' 64 64
def rcParent (r : BitVec 512) : BitVec 64 := r.extractLsb' 128 64
def rcJoin (r : BitVec 512) : BitVec 32 := r.extractLsb' 192 32
def rcState (r : BitVec 512) : Nat := (r.extractLsb' 224 3).toNat
def rcKind (r : BitVec 512) : Nat := (r.extractLsb' 227 3).toNat
def rcVec (r : BitVec 512) : BitVec 7 := r.extractLsb' 232 7
def rcIrq (r : BitVec 512) : Bool := r.getLsbD 239
def rcNblk (r : BitVec 512) : Nat := (r.extractLsb' 256 32).toNat
/-- Crews of a block, slices of a crew, vector registers, scratchpad bytes, blocks of a cluster, clusters of a span. -/
def rcCrews (r : BitVec 512) : Nat := (r.extractLsb' 288 5).toNat + 1
def rcSlices (r : BitVec 512) : Nat := (r.extractLsb' 293 3).toNat + 1
def rcVregs (r : BitVec 512) : Nat := 8 * ((r.extractLsb' 296 4).toNat + 1)
def rcScr (r : BitVec 512) : Nat := (r.extractLsb' 304 9).toNat * 1024
def rcClu (r : BitVec 512) : Nat := (r.extractLsb' 313 4).toNat + 1
def rcSpan (r : BitVec 512) : Nat := (r.extractLsb' 317 3).toNat + 1
def rcAcoll (r : BitVec 512) : BitVec 64 := r.extractLsb' 320 64
def rcCarg (r : BitVec 512) : BitVec 64 := r.extractLsb' 384 64

/-- A grid, cluster grid or span grid. -/
def rcGrid (r : BitVec 512) : Bool := rcKind r < 3

/-- A run's own work is over: its blocks have finished, or its command or signal is done (R304, R309). -/
def State.workOver (s : State) (r : Run) : Bool :=
  if rcGrid r.rcd then r.nextBlk == rcNblk r.rcd && !s.blocks.any (·.run == r.uid) else r.workDone

/-! ## Interrupts and machine checks (R349, R366) -/

/-- MSI-X: a masked vector becomes pending, an unmasked one is sent (R349). -/
def State.raiseVec (s : State) (vec : BitVec 7) : State :=
  if s.bar0.msixMask.getLsbD vec.toNat then
    { s with bar0 := { s.bar0 with msixPending := s.bar0.msixPending ||| BitVec.ofNat 128 (2 ^ vec.toNat) } }
  else { s with sent := s.sent ++ [.msix vec] }

/-- A machine check (R366): recorded, or counted as lost with OVF while an event is recorded; MCVEC is raised. -/
def State.machineCheck (s : State) (sev : BitVec 2) (src : BitVec 4) (die : Nat) (addr : Nat) : State :=
  let ras := if s.ras.valid then { s.ras with ovf := true, lost := s.ras.lost + 1 }
    else { s.ras with valid := true, sev := sev, src := src, die := BitVec.ofNat 3 die, addr := BitVec.ofNat 48 addr }
  { s with ras := ras }.raiseVec s.bar0.mcvec

/-- A corrected event (R366, R368): CE saturates. -/
def State.corrected (s : State) : State :=
  { s with ras := { s.ras with ce := if s.ras.ce = BitVec.allOnes 32 then s.ras.ce else s.ras.ce + 1 } }

/-- A device-fatal event (R367): the device is FAILED with DETAIL equal to SRC. -/
def State.deviceFatal (s : State) (src : BitVec 4) (die : Nat) : State :=
  let t := s.machineCheck 2 src die 0
  { t with bar0 := { t.bar0 with boot := 5, bootDetail := src.setWidth 8 } }

/-! ## Fault records (R336) -/

/-- A record of a context with nothing else in it. -/
def RingRec.blank (ctx : Nat) (kind : BitVec 2) : RingRec :=
  { val := 0, pc := 0, aux := 0, ctx := ctx, kind := kind, cause := 0, detail := 0, level := 0, mc := false, die := 0,
    core := 0, crewid := 0, lane := 0, sreg := 0, crew := none }

/-- Queue a record on a presented device's ring; records are written in order by FAULT_RECORD (R336). -/
def State.queueRec (s : State) (first : Nat) (r : RingRec) : State :=
  s.modPdev first fun p => { p with faultQ := p.faultQ ++ [r] }

/-- The record with the place of a crew filled in (R336). -/
def State.recAt (s : State) (c : Crew) (r : RingRec) : RingRec :=
  { r with die := BitVec.ofNat 3 (s.dieid c.ctx c.core), core := BitVec.ofNat 5 (coreid c.core),
           crewid := BitVec.ofNat 5 c.crewid }

/-- A KIND 1 record of a context (R336, R337). -/
def State.asyncFault (s : State) (ctx : Nat) (cause detail : BitVec 8) (level : Nat) (val pc : BitVec 64) : State :=
  let r := { RingRec.blank ctx 1 with cause := cause, detail := detail, level := BitVec.ofNat 3 level, val := val, pc := pc,
                                      mc := withCheck cause }
  s.queueRec (s.firstDie ctx) r

/-! ## Packets to peers (R350, R351, R354) -/

/-- The counter of a path for a virtual channel and the port of a line. -/
def pathSlot (vc : Nat) (node : BitVec 10) (pa : Nat) : Nat := vc * 16 + Config.portOf node (pa / 128) % 12

/-- An encrypted path whose counter has reached 2^63 refuses to send (R354). -/
def State.pathSpent (s : State) (vc : Nat) (node : BitVec 10) (pa : Nat) : Bool :=
  (mfind s.pathKeys node.toNat).any fun k => k.enc && decide (2 ^ 63 ≤ (mget 0 k.sentCtr (pathSlot vc node pa)).toNat)

/-- The nonce of the next packet on a path, where it is encrypted: the path's counter for the channel and port, with both (R354). -/
def State.nonceFor (s : State) (vc : Nat) (node : BitVec 10) (pa : Nat) : Option (BitVec 96) :=
  match mfind s.pathKeys node.toNat with
  | some k =>
    if k.enc then
      some (BitVec.ofNat 16 vc ++ BitVec.ofNat 16 (Config.portOf node (pa / 128) % 12) ++ mget 0 k.sentCtr (pathSlot vc node pa))
    else none
  | none => none

/-- A packet for an address of a node goes out, counted on its path. -/
def State.sendScafa (s : State) (vc : Nat) (node : BitVec 10) (pa : Nat) (body : ScafaBody) : State :=
  let count := fun (k : PathKey) =>
    if k.enc then { k with sentCtr := mput 0 k.sentCtr (pathSlot vc node pa) (mget 0 k.sentCtr (pathSlot vc node pa) + 1) } else k
  { s with sent := s.sent ++ [.scafa (BitVec.ofNat 2 vc) node (BitVec.ofNat 64 pa) body (s.nonceFor vc node pa)],
           pathKeys := s.pathKeys.map fun e => if e.1 = node.toNat then (e.1, count e.2) else e }

/-- Pieces of at most n bytes, with their offsets. -/
def piecesOf (n : Nat) : Nat → Nat → List Byte → List (Nat × List Byte)
  | 0, _, _ => []
  | fuel + 1, off, bs => if bs.isEmpty then [] else (off, bs.take n) :: piecesOf n fuel (off + n) (bs.drop n)

/-- Bytes for an address of a node go out in packets of at most 32 payload flits of 64 bytes (R350); none make one bare packet. -/
def State.sendBytes (s : State) (vc : Nat) (node : BitVec 10) (pa : Nat) (bs : List Byte) (f : List Byte → ScafaBody) : State :=
  match piecesOf 2048 (bs.length / 2048 + 1) 0 bs with
  | [] => s.sendScafa vc node pa (f [])
  | ps => ps.foldl (fun s p => s.sendScafa vc node (pa + p.1) (f p.2)) s

end Sys2Proof.Machine
end

