-- ==== Sys2Proof/Machine/Descriptors.lean ====
section
/-!
DEFINITION. Tensor descriptors (09 R219, R220) and the sizes of copies (09 R238, R239).
-/
namespace Sys2Proof.Machine

/-! ## Descriptors (R219, R220) -/

def tdBase (t : BitVec 256) : BitVec 64 := t.extractLsb' 0 64
def tdRows (t : BitVec 256) : Nat := (t.extractLsb' 64 16).toNat
def tdCols (t : BitVec 256) : Nat := (t.extractLsb' 80 16).toNat
def tdFmt (t : BitVec 256) : Nat := (t.extractLsb' 96 4).toNat
def tdSpace (t : BitVec 256) : Nat := (t.extractLsb' 100 2).toNat
def tdSparse (t : BitVec 256) : Nat := (t.extractLsb' 102 2).toNat
def tdSgran (t : BitVec 256) : Nat := (t.extractLsb' 104 2).toNat
def tdStride (t : BitVec 256) : Nat := (t.extractLsb' 128 32).toNat
def tdSbase (t : BitVec 256) : BitVec 64 := t.extractLsb' 192 64

/-- Element bytes of a format; 1 for S4, whose elements are half bytes. -/
def fmtBytes (fmt : Nat) : Nat :=
  match fmt with
  | 4 | 5 => 2 | 6 | 8 => 4 | 7 => 8 | _ => 1

/-- Row bytes of a descriptor. -/
def tdRowBytes (t : BitVec 256) : Nat := if tdFmt t = 3 then tdCols t / 2 else tdCols t * fmtBytes (tdFmt t)

/-- The byte address of row i, column byte b. -/
def tdAddr (t : BitVec 256) (i b : Nat) : BitVec 64 := tdBase t + BitVec.ofNat 64 (i * tdStride t + b)

/-- An ill-formed descriptor (R220). -/
def tdIll (t : BitVec 256) : Bool :=
  t.extractLsb' 106 22 != 0 || t.extractLsb' 160 32 != 0 || 9 ≤ tdFmt t || tdSpace t == 3 || tdSgran t == 3 ||
  tdRows t == 0 || tdCols t == 0 || (tdFmt t == 3 && tdCols t % 2 == 1) ||
  (1 < tdRows t && tdStride t < tdRowBytes t) ||
  (tdBase t).toNat % fmtBytes (tdFmt t) != 0 || tdStride t % fmtBytes (tdFmt t) != 0 ||
  (tdSpace t == 0 && !canonical (tdBase t)) || (tdSgran t != 0 && (tdSbase t).toNat % 4 != 0) ||
  (tdSparse t != 0 && 4 < tdFmt t)

/-- Scales per row of the scale array. -/
def tdScaleCols (t : BitVec 256) : Nat := ceilDiv (tdCols t) 128

/-! ## Copies (R238, R239) -/

/-- Bytes and chunks of a copy. -/
def CopyJob.total (j : CopyJob) : Nat := tdRows j.dst * tdRowBytes j.dst
def CopyJob.chunks (j : CopyJob) : Nat := ceilDiv j.total 2048
def CopyJob.chunkLen (j : CopyJob) (i : Nat) : Nat := min 2048 (j.total - 2048 * i)

/-- The copy has chunks left to send. -/
def CopyJob.hasWork (j : CopyJob) : Bool := j.ended.isNone && j.done.length < j.chunks

/-- Chunks delivered from the start without a gap. -/
def CopyJob.prefixFrom (j : CopyJob) : Nat → Nat → Nat
  | 0, i => i
  | n + 1, i => if j.done.contains i then j.prefixFrom n (i + 1) else i
def CopyJob.prefixBytes (j : CopyJob) : Nat := min j.total (2048 * j.prefixFrom j.chunks 0)

/-- COUNT of a copy as it stands: what it ended with, else the bytes delivered from its start (R218, R241). -/
def CopyJob.progress (j : CopyJob) : Nat :=
  match j.ended with
  | some e => e.2.2
  | none => j.prefixBytes

end Sys2Proof.Machine
end

