-- ==== Sys2Proof/Machine/Finish.lean ====
section
/-!
DEFINITION. The end of a block (02 R25; 08 R200): its crews have exited and its asynchronous operations have written their status
words. With the last running block of a context, a soft pre-emption ends (17 R339).
-/
namespace Sys2Proof.Machine

/-- Every slice has exited (R25). -/
def Crew.exited (c : Crew) : Bool := c.slices.all fun x => !x.live

def State.crewsOf (s : State) (block : Nat) : List Crew := s.crews.filter (·.block == block)

/-- A cellar command's word is still owed to a crew of the block. -/
def Cmd.owes (k : Cmd) (crews : List Nat) : Bool :=
  match k.route with
  | .cell _ crew => crews.contains crew
  | .task _ => false

/-- An asynchronous operation of the block has not ended. -/
def State.blockBusy (s : State) (block : Nat) : Bool :=
  let us := (s.crewsOf block).map (·.uid)
  s.cores.any (fun k => k.2.mq.any (·.block == block) || k.2.copies.any (·.block == block)) ||
  s.colls.any (·.block == block) || s.cmdq.any (·.owes us) || s.cmds.any (·.owes us) || s.launches.any fun l => us.contains l.dest.crew

/-- A block has finished (R25). -/
def State.finished (s : State) (b : Block) : Bool := !b.saved && (s.crewsOf b.uid).all Crew.exited && !s.blockBusy b.uid

/-- A soft pre-emption whose context holds no block any more (R339): nothing is saved. -/
def State.softDrain (s : State) : State :=
  match s.pdevs.find? fun p => p.peBusy && p.peStage == 1 && p.peAct.any fun a => !s.blocks.any fun b => b.ctx == a.1 with
  | none => s
  | some p =>
    match p.peAct with
    | none => s
    | some (ctx, _, save) =>
      (s.modPdev p.first fun p => { p with peBusy := false, peStage := 4, peResult := 0, peAct := none }).modCtx ctx fun x =>
        { x with savedAt := some (save ++ (0 : BitVec 21)) }

/-- Finished blocks leave their cores with their crews; the mailboxes of a core left without a block are emptied (R200). -/
def State.reap (s : State) : State :=
  match s.blocks.filter s.finished with
  | [] => s
  | done =>
    let gone := done.map (·.uid)
    let t : State := { s with blocks := s.blocks.filter fun b => !gone.contains b.uid,
                              crews := s.crews.filter fun c => !gone.contains c.block }
    let left := (done.map (·.core)).filter fun k => !t.blocks.any (·.core == k)
    (left.foldl (fun t k => t.modCore k fun c => { c with mail := [], mailBad := [] }) t).softDrain

end Sys2Proof.Machine
end

