-- ==== Sys2Proof/Machine/Memory.lean ====
section
/-!
DEFINITION. Storage below the caches: bytes in canonical form, the device physical space and its apertures (04 R66 to R71), and
DRAM lines under their encryption keys (18 R355).
-/
namespace Sys2Proof.Machine

/-! ## Bytes -/

/-- The n bytes at address a as a number, lowest first; an unlisted byte is 0 (log 5). -/
def memRead : List Host.Cell → Nat → Nat → Nat
  | [], _, _ => 0
  | (k, v) :: m, a, n =>
    if k < a then memRead m a n else if k < a + n then v.toNat * 2 ^ (8 * (k - a)) + memRead m a n else 0

/-- The listed cells of the n bytes of x at address a. -/
def cellsOf (a n x : Nat) : List Host.Cell :=
  (List.range n).filterMap fun i => if byteOf x i = 0 then none else some (a + i, byteOf x i)

/-- Write n bytes at address a. -/
def memWrite (m : List Host.Cell) (a n x : Nat) : List Host.Cell :=
  m.takeWhile (fun c => c.1 < a) ++ (cellsOf a n x ++ m.dropWhile (fun c => c.1 < a + n))

/-- Memory is in canonical form: addresses strictly rising, no zero byte listed. -/
def memWf : List Host.Cell → Bool := mwf 0

def State.readMem (s : State) (a n : Nat) : Nat := memRead s.mem a n
def State.writeMem (s : State) (a n x : Nat) : State := { s with mem := memWrite s.mem a n x }

/-! ## Physical space (R66, R68, R69) -/

/-- A DRAM aperture: interleave code, base, log2 of its stacks, first stack. -/
structure Aperture where
  code : Nat
  base : Nat
  b : Nat
  first : Nat
  deriving DecidableEq, Repr

def apertures : List Aperture :=
  [⟨0, 0, 3, 0⟩, ⟨1, 0x010000000000, 2, 0⟩, ⟨2, 0x018000000000, 2, 4⟩] ++
  (List.range 8).map fun d => ⟨8 + d, 0x020000000000 + d * 2 ^ 36, 0, d⟩

/-- Bytes of an aperture. -/
def Aperture.size (p : Aperture) : Nat := 2 ^ (36 + p.b)

/-- The fold h of a granule index (R69): groups i = 1, 2, … of b bits while i × b ≤ 26. -/
def foldGranule (b g : Nat) : Nat :=
  if b = 0 then 0
  else (rangeFrom 1 13).foldl (fun h i => if i * b ≤ 26 then Nat.xor h (bits g ((i + 1) * b - 1) (i * b)) else h) 0

/-- The location of an aperture offset: stack × 2^36 + stack offset (R69). -/
def Aperture.loc (p : Aperture) (a : Nat) : Nat :=
  let g := a / 4096
  (p.first + Nat.xor (g % 2 ^ p.b) (foldGranule p.b g)) * 2 ^ 36 + (g / 2 ^ p.b) * 4096 + a % 4096

/-- The offset at which an aperture shows a location, if it does. -/
def Aperture.offset (p : Aperture) (loc : Nat) : Option Nat :=
  let stack := loc / 2 ^ 36
  let hi := loc % 2 ^ 36 / 4096 * 2 ^ p.b
  if p.first ≤ stack && stack < p.first + 2 ^ p.b then
    some ((hi + Nat.xor (stack - p.first) (foldGranule p.b hi)) * 4096 + loc % 4096)
  else none

def apertureOf (pa : Nat) : Option Aperture := apertures.find? fun p => p.base ≤ pa && pa < p.base + p.size

/-- What a device physical address names (R66). -/
inductive Phys where
  | dram (ap : Aperture) (loc : Nat)
  | host (win off : Nat)
  | chip (die core off : Nat)
  | none
  deriving DecidableEq, Repr

def physOf (pa : Nat) : Phys :=
  match apertureOf pa with
  | some p => .dram p (p.loc (pa - p.base))
  | none =>
    if 0xF00000000000 ≤ pa && pa < 0xF10000000000 then .host (bits pa 39 36) (pa % 2 ^ 36)
    else if 0xFF0000000000 ≤ pa && pa < 0xFF1000000000 then .chip (bits pa 35 33) (bits pa 32 24) (pa % 2 ^ 24)
    else .none

/-- The home die of a location (R6, R70), and of a line. -/
def homeDie (loc : Nat) : Nat := loc / 2 ^ 36
def lineHome (line : Nat) : Nat := line / 2 ^ 29

/-- The L2 slice of a line's home (R70). -/
def homeSlice (loc : Nat) : Nat :=
  [7, 11, 15, 19, 23, 27, 31].foldl (fun h i => Nat.xor h (bits (loc % 2 ^ 36) (i + 3) i)) 0

/-! ## On-chip windows (R71, R72) -/

/-- Where byte b of the scratchpad of a physical core is kept: its on-chip address with the physical die. -/
def scratchAddr (core b : Nat) : Nat := 0xFF0000000000 + (core / 32) * 2 ^ 33 + (core % 32) * 2 ^ 24 + 0x80000 + b

/-- The on-chip address, as a context sees it, of an offset in a core's windows. -/
def State.chipAddr (s : State) (ctx core off : Nat) : Nat :=
  0xFF0000000000 + s.dieid ctx core * 2 ^ 33 + coreid core * 2 ^ 24 + off

/-- The windows of a core. -/
inductive Window where
  | regs (off : Nat)
  | scratch (b : Nat)
  | acc (off : Nat)
  | mail (slot : Nat)
  deriving DecidableEq, Repr

def windowOf (off : Nat) : Option Window :=
  if off < 0x80000 then some (.regs off)
  else if off < 0xC0000 then some (.scratch (off - 0x80000))
  else if 0x100000 ≤ off && off < 0x200000 then some (.acc (off - 0x100000))
  else if 0x200000 ≤ off && off < 0x200200 then some (.mail ((off - 0x200000) / 8))
  else none

/-- The physical core at (presented die, core) of a context, with its window (R71): none where R71 gives PROT. -/
def State.chip (s : State) (ctx die core off : Nat) : Option (Nat × Window) :=
  if die < s.ctxDies ctx && core < 24 then (windowOf off).map fun w => ((s.firstDie ctx + die) * 32 + core, w) else none

/-- The block of a context whose scratchpad allocation on a core holds n bytes at b (R73). -/
def State.scratchOwner (s : State) (ctx core b n : Nat) : Option Block :=
  s.blocks.find? fun k => k.ctx == ctx && k.core == core && !k.saved && k.scrOff ≤ b && b + n ≤ k.scrOff + k.scrSize

/-! ## Keys and DRAM lines (R355) -/

/-- The material of a key slot as a number: even for the device key of a reset, odd for a loaded key; none for an EMPTY slot or one
that another context owns. The device key of the first reset is 0, the key of lines nothing has written (log 6). -/
def State.keyOf (s : State) (ctx idx : Nat) : Option Nat :=
  if idx = 0 then some (2 * (s.resets - 1))
  else
    match mfind s.keys idx with
    | some k => if k.owner == 0 || k.owner == ctx then some (2 * k.key.toNat + 1) else none
    | none => none

/-- The material of slot 0, with which walks read. -/
def State.deviceKey (s : State) : Nat := 2 * (s.resets - 1)

/-- A DRAM line as it reads under a key. -/
def State.dramLine (s : State) (line key : Nat) : LineData :=
  let raw := BitVec.ofNat 1024 (s.readMem (line * 128) 128)
  let w := mget 0 s.lineKey line
  if w = key then raw else Config.wrongKeyLine w key line raw

/-- Write a whole DRAM line under a key. -/
def State.dramPut (s : State) (line key : Nat) (d : LineData) : State :=
  { s.writeMem (line * 128) 128 d.toNat with lineKey := mput 0 s.lineKey line key }

/-- The bytes of a line that a mask selects, from one value over another. -/
def mergeMask (mask : BitVec 128) (top d : LineData) : LineData :=
  let m : LineData := BitVec.ofNat 1024 (((List.range 128).map fun i => if mask.getLsbD i then 255 * 2 ^ (8 * i) else 0).foldl (· + ·) 0)
  (d &&& ~~~m) ||| (top &&& m)

/-- n bytes of a line from byte i, as a number. -/
def lineGet (d : LineData) (i n : Nat) : Nat := (d.toNat / 2 ^ (8 * i)) % 2 ^ (8 * n)

/-- n bytes of a line from byte i replaced. -/
def lineSet (d : LineData) (i n x : Nat) : LineData :=
  let m : LineData := BitVec.ofNat 1024 ((2 ^ (8 * n) - 1) * 2 ^ (8 * i))
  (d &&& ~~~m) ||| (BitVec.ofNat 1024 (x * 2 ^ (8 * i)) &&& m)

/-- The mask of n bytes from byte i. -/
def byteMask (i n : Nat) : BitVec 128 := BitVec.ofNat 128 ((2 ^ n - 1) * 2 ^ i)

/-- n bytes at a location straight from DRAM (R115): within one line. -/
def State.rawRead (s : State) (loc n key : Nat) : Nat := lineGet (s.dramLine (loc / 128) key) (loc % 128) n

/-! ## Uncorrectable errors (R369) -/

/-- A line of DRAM, or 128 bytes of a scratchpad or an accumulator, is marked or cleared. -/
def State.setPoison (s : State) (line : Nat) (bad : Bool) : State :=
  if bad then (if s.poison.contains line then s else { s with poison := s.poison ++ [line] })
  else { s with poison := s.poison.filter (· != line) }

/-- DRAM, a scratchpad or an accumulator holds an uncorrectable error in these 128 bytes. -/
def State.storeBad (s : State) (line : Nat) : Bool := s.poison.contains line

/-- The 128 bytes at an offset of a core's on-chip windows, as a line of their own. -/
def chipLine (core off : Nat) : Nat := (0xFF0000000000 + (core / 32) * 2 ^ 33 + (core % 32) * 2 ^ 24 + off) / 128

/-- The lines that n bytes at an address touch. -/
def linesOf (a n : Nat) : List Nat := rangeFrom (a / 128) ((a + n + 127) / 128 - a / 128)

/-- n bytes at an offset of a core's on-chip windows meet an uncorrectable error. -/
def State.chipBad (s : State) (core off n : Nat) : Bool := (linesOf off n).any fun l => s.storeBad (chipLine core (l * 128))

/-- The lines that n bytes at an address fill. -/
def fullLines (a n : Nat) : List Nat := rangeFrom ((a + 127) / 128) ((a + n) / 128 - (a + 127) / 128)

/-- Full lines written clear their marks. -/
def State.cure (s : State) (lines : List Nat) : State :=
  if s.poison.isEmpty then s else { s with poison := s.poison.filter fun l => !lines.contains l }

/-- n bytes at a location straight to DRAM, within one line; a full line clears its poison (R369). -/
def State.rawWrite (s : State) (loc n key x : Nat) : State :=
  let t := s.dramPut (loc / 128) key (lineSet (s.dramLine (loc / 128) key) (loc % 128) n x)
  if n = 128 then t.setPoison (loc / 128) false else t

end Sys2Proof.Machine
end

