-- ==== Sys2Proof/Machine/Cache.lean ====
section
/-!
DEFINITION. The caches (04 R75 to R83; 05 R89, R94 to R108; 18 R356): plain coherent copies, update copies with their collapse,
hypothesis versions and PHASED copies, and what leaves a cache (R67, R81 to R83). An access takes effect whole, in the step that
issues it (log 13).
-/
namespace Sys2Proof.Machine

/-! ## Entries -/

/-- A committed plain copy: neither U, version nor PHASED. -/
def CEntry.plain (e : CEntry) : Bool := e.hyp == 0 && !e.ph && e.st != .u

/-- An entry that is not of this line and place, or is of another sort. -/
def State.plainAt (s : State) (p : Place) (line : Nat) : Option CEntry :=
  s.caches.find? fun e => e.line == line && e.plain && e.place == p

/-- The dirty committed copy of a line. -/
def State.dirtyOf (s : State) (line : Nat) : Option CEntry := s.caches.find? fun e => e.line == line && e.plain && e.st == .m

/-- Whether any plain copy of a line exists. -/
def State.anyPlain (s : State) (line : Nat) : Bool := s.caches.any fun e => e.line == line && e.plain

/-- A plain entry. -/
def CEntry.mkPlain (p : Place) (line : Nat) (st : LineSt) (key : Nat) (d : LineData) : CEntry :=
  { place := p, line := line, st := st, op := none, hyp := 0, ctx := 0, ph := false, dom := 0, phs := 0, dmask := 0, key := key,
    data := d }

/-! ## Plain lines (R79, R90, R356) -/

/-- The dirty copy of a line is written back under its own key, with its poison; its copy stays, clean. -/
def State.cleanLine (s : State) (line : Nat) : State :=
  match s.dirtyOf line with
  | none => s
  | some e =>
    { (s.dramPut line e.key e.data).setPoison line e.bad with
      caches := s.caches.map fun x => if x.line == line && x.plain && x.st == .m then { x with st := .s } else x }

/-- Every plain copy of a line is dropped. -/
def State.dropPlain (s : State) (line : Nat) : State :=
  { s with caches := s.caches.filter fun x => !(x.line == line && x.plain) }

/-- A dirty copy is written back and every copy invalidated. -/
def State.flushLine (s : State) (line : Nat) : State := (s.cleanLine line).dropPlain line

/-- An access under another key than a line's holders makes them write back and invalidate it (R356). -/
def State.reKey (s : State) (line key : Nat) : State :=
  if s.caches.any fun e => e.line == line && e.plain && e.key != key then s.flushLine line else s

/-- The committed value of a line that its home gives: the dirty copy, the home's own copy, or DRAM. -/
def State.homeVal (s : State) (line key : Nat) : LineData :=
  let t := s.reKey line key
  match t.dirtyOf line with
  | some e => e.data
  | none =>
    match t.plainAt (.l2 (lineHome line)) line with
    | some e => e.data
    | none => t.dramLine line key

/-- A reader at the home meets an uncorrectable error in a line: in the dirty copy, the home's own copy, or DRAM (R369). -/
def State.poisoned (s : State) (line : Nat) : Bool :=
  match s.dirtyOf line with
  | some e => e.bad
  | none =>
    match s.plainAt (.l2 (lineHome line)) line with
    | some e => e.bad
    | none => s.storeBad line

/-- A core that reads a line meets one: in its L1's copy, in its die's, or at the home. -/
def State.poisonedFor (s : State) (core line : Nat) : Bool :=
  match s.plainAt (.l1 core) line with
  | some e => e.bad
  | none =>
    match s.dirtyOf line, s.plainAt (.l2 (core / 32)) line with
    | none, some e => e.bad
    | _, _ => s.poisoned line

/-- A full-line store clears the poison of a line's copies (R369); DRAM's goes with the write-back. -/
def State.cureCopies (s : State) (line : Nat) : State :=
  { s with caches := s.caches.map fun e => if e.line == line && e.plain then { e with bad := false } else e }

/-- The home's L2 becomes the one dirty holder of a line; its poison stays. -/
def State.putHome (s : State) (line key : Nat) (d : LineData) : State :=
  { s with caches := (s.dropPlain line).caches ++
      [{ CEntry.mkPlain (.l2 (lineHome line)) line .m key d with bad := s.poisoned line }] }

/-! ## Update operators (R59, R60) -/

/-- Bytes of an element. -/
def uBytes : UOp → Nat
  | .uadd64 | .uor64 => 8
  | .uadd32 | .umins | .umaxs | .uminu | .umaxu | .uminf | .umaxf | .uacc => 4

/-- The identity of an element. -/
def uIdent : UOp → Nat
  | .uadd32 | .uadd64 | .umaxu | .uor64 => 0
  | .umins => 0x7FFFFFFF
  | .umaxs => 0x80000000
  | .uminu => 0xFFFFFFFF
  | .uminf => 0x7F800000
  | .umaxf => 0xFF800000
  | .uacc => 0x80000000

/-- a ⊕ b on element codes: two FP32 copies for UACC. -/
def uFold (op : UOp) (a b : Nat) : Nat :=
  match op with
  | .uadd32 => (a + b) % 2 ^ 32
  | .uadd64 => (a + b) % 2 ^ 64
  | .umins => if (BitVec.ofNat 32 b).slt (BitVec.ofNat 32 a) then b else a
  | .umaxs => if (BitVec.ofNat 32 a).slt (BitVec.ofNat 32 b) then b else a
  | .uminu => if b < a then b else a
  | .umaxu => if a < b then b else a
  | .uminf => (f32.minmax false a b).1
  | .umaxf => (f32.minmax true a b).1
  | .uor64 => Nat.lor a b
  | .uacc => (f32.addV .rne (f32.read a) (f32.read b)).1

/-- A line of identities. -/
def uIdentLine (op : UOp) : LineData :=
  BitVec.ofNat 1024 (((List.range (128 / uBytes op)).map fun i => uIdent op * 2 ^ (8 * uBytes op * i)).foldl (· + ·) 0)

/-- a ⊕ b on every element of two lines. -/
def uMerge (op : UOp) (a b : LineData) : LineData :=
  let w := uBytes op
  BitVec.ofNat 1024 (((List.range (128 / w)).map fun i =>
    uFold op (lineGet a (w * i) w) (lineGet b (w * i) w) * 2 ^ (8 * w * i)).foldl (· + ·) 0)

/-! ## Collapse (R95 to R98) -/

def State.uline? (s : State) (line : Nat) : Option ULine := s.ulines.find? (·.line == line)
def State.modULine (s : State) (line : Nat) (f : ULine → ULine) : State :=
  { s with ulines := s.ulines.map fun u => if u.line == line then f u else u }
def State.dropULine (s : State) (line : Nat) : State := { s with ulines := s.ulines.filter (·.line != line) }

/-- The current U copy of an L1. -/
def State.uCur (s : State) (core line : Nat) : Option CEntry :=
  s.caches.find? fun e => e.line == line && e.st == .u && e.place == .l1 core

def dataOr (d : LineData) (e : Option CEntry) : LineData :=
  match e with
  | some x => x.data
  | none => d

/-- The registered L1s of a die, ascending. -/
def dieL1s (l1s : List Nat) (die : Nat) : List Nat := (rangeFrom (die * 32) 24).filter l1s.contains

/-- The copies of an L1 under an operator. -/
def State.uCurOf (s : State) (op : UOp) (core line : Nat) : Option CEntry := (s.uCur core line).filter (·.op == some op)
def State.uParkedOf (s : State) (op : UOp) (core line : Nat) : Option CEntry :=
  s.caches.find? fun e => e.line == line && e.st == .u && e.op == some op && e.place == .park (core / 32) core

/-- What a die contributes (R96): D starts at the identity and takes its caches in ascending order. -/
def State.dieFold (s : State) (op : UOp) (line : Nat) (cores : List Nat) : LineData :=
  let idn := uIdentLine op
  cores.foldl (fun d k => uMerge op d (uMerge op (dataOr idn (s.uParkedOf op k line)) (dataOr idn (s.uCurOf op k line)))) idn

/-- The fold of this presented device's copies over a start value, dies ascending (R96, R97). -/
def State.deviceFold (s : State) (op : UOp) (line : Nat) (l1s : List Nat) (start : LineData) : LineData :=
  (List.range 8).foldl (fun v d =>
    if (dieL1s l1s d).isEmpty then v else uMerge op v (s.dieFold op line (dieL1s l1s d))) start

/-- Contributions in ascending node id. -/
def sortNodes (xs : List (BitVec 10 × LineData)) : List (BitVec 10 × LineData) :=
  xs.foldl (fun acc x => (acc.takeWhile fun y => y.1.toNat ≤ x.1.toNat) ++ x :: (acc.dropWhile fun y => y.1.toNat ≤ x.1.toNat)) []

/-- The collapsed value of a line (R96). -/
def State.collapseVal (s : State) (u : ULine) : LineData :=
  (sortNodes u.back).foldl (fun v n => uMerge u.op v n.2) (s.deviceFold u.op u.line u.l1s u.home)

/-- Nodes a collapse must hear from (R82, R97). -/
def ULine.holders (u : ULine) : List (BitVec 10) :=
  u.nodes ++ (u.groups.flatMap fun g => (List.range 16).map fun i => BitVec.ofNat 10 (g.toNat * 16 + i)).filter
    (fun n => !u.nodes.contains n)

/-- Every remote contribution has come back. -/
def ULine.ready (u : ULine) : Bool := u.holders.all fun n => u.back.any (·.1 == n)

/-- An entry is a U copy of a line's current period: under its operator, of a registered L1 (R96). -/
def ULine.owns (u : ULine) (e : CEntry) : Bool :=
  e.line == u.line && e.st == .u && e.op == some u.op && match e.place with
    | .l1 k => u.l1s.contains k
    | .park _ k => u.l1s.contains k
    | .l2 _ | .va _ => false

/-- The U copies that belong to a line's current period are dropped with its record. -/
def State.dropCopies (s : State) (u : ULine) : State :=
  { s.dropULine u.line with caches := s.caches.filter fun e => !u.owns e }

/-- A collapse: the home's L2 then holds the value dirty and no other cache holds the line (R95, R96); poison in any copy that it
folds stays with it (R369). -/
def State.collapse (s : State) (u : ULine) : State :=
  let t := s.dropCopies u
  let bad := u.bad || s.caches.any fun e => u.owns e && e.bad
  { t with caches := (t.dropPlain u.line).caches ++
             [{ CEntry.mkPlain (.l2 (lineHome u.line)) u.line .m u.key (s.collapseVal u) with bad := bad }],
           recalls := s.recalls.filter (·.line != u.line) }

/-! ## Waiting for other nodes (R352) -/

/-- The recall of the remote contributions that are missing is sent once for a line (R352); its deadline is `rto` ticks away. -/
def State.postRecall (s : State) (u : ULine) (rto : Nat) : State :=
  if s.recalls.any (·.line == u.line) then s
  else (u.holders.filter fun n => !u.back.any (·.1 == n)).foldl (fun s n => s.sendScafa 2 n (u.line * 128) (.recall u.op))
    { s with recalls := s.recalls ++ [⟨u.line, s.reftime + rto, false⟩] }

/-! ### Presses of this package (R14, R97, R352) -/

/-- The line number under which an L1 keeps a U copy of a peer's line: the peer's node and physical line (R97). -/
def remoteLine (node : BitVec 10) (pa : Nat) : Nat := (node.toNat + 1) * 2 ^ 48 + pa / 128

/-- An entry is a U copy that a port press stands for. -/
def PressLine.owns (p : PressLine) (e : CEntry) : Bool :=
  e.line == p.line && e.st == .u && e.op == some p.op && match e.place with
    | .l1 k | .park _ k => p.l1s.contains k
    | .l2 _ | .va _ => false

/-- A press answers a recall: it forms its node's contribution, gives the copies up and forgets the line (R352). -/
def State.pressAnswer (s : State) (p : PressLine) : LineData × State :=
  (s.deviceFold p.op p.line p.l1s (uIdentLine p.op),
   { s with press := s.press.filter (· != p), caches := s.caches.filter fun e => !p.owns e })

/-- The contributions of presented devices of this package come back at once; a device without copies gives the identity (R97). -/
def State.gather (s : State) (u : ULine) : ULine × State :=
  if u.holders.isEmpty then (u, s)
  else
    let here := s.pdevs.filter fun p =>
      u.holders.contains (Config.nodeId p.first) && !u.back.any (·.1 == Config.nodeId p.first)
    here.foldl (fun r p =>
      let (v, t) := match r.2.press.find? fun q => q.pdev == p.first && q.home == some u.line && q.op == u.op with
        | some q => r.2.pressAnswer q
        | none => (uIdentLine u.op, r.2)
      let back := r.1.back ++ [(Config.nodeId p.first, v)]
      ({ r.1 with back := back }, t.modULine u.line fun u => { u with back := back })) (u, s)

/-! ## PHASED bytes on their way home (R80, R106) -/

/-- The bytes of a line that the crews of a core have stored in the phase. -/
def CEntry.ownMask (e : CEntry) : BitVec 128 := e.own.foldl (fun m o => m ||| o.mask) 0

/-- A PHASED entry's dirty bytes written to DRAM under its mask and key; a line in U(op) is collapsed by its home first. -/
def State.putPhased (s : State) (e : CEntry) : State :=
  if e.dmask = 0 then s
  else
    let t := s.flushLine e.line
    (t.dramPut e.line e.key (mergeMask e.dmask e.data (t.dramLine e.line e.key))).setPoison e.line
      (e.bad || (t.storeBad e.line && e.dmask != BitVec.allOnes 128))

/-- A PHASED entry's dirty bytes written to its home: a line in U(op) there is collapsed, or takes them under the updates still to
come from other nodes (R95, R107). -/
def State.writePhased (s : State) (e : CEntry) : State :=
  if e.dmask = 0 then s
  else
    match s.uline? e.line with
    | some u => if (s.gather u).1.ready then ((s.gather u).2.collapse (s.gather u).1).putPhased e
                else s.modULine e.line fun u => { u with home := mergeMask e.dmask e.data u.home, dirty := true }
    | none => s.putPhased e

/-- A PHASED entry that has left its cache: what its core's crews stored in the phase stays known (R106). -/
def CEntry.leave (e : CEntry) : CEntry := { e with st := .s, dmask := 0, gone := true }

/-- The PHASED copies of a line in an L1 leave it, their dirty bytes written. -/
def State.evictPhased (s : State) (core line : Nat) : State :=
  let es := s.caches.filter fun e => e.line == line && e.ph && e.place == .l1 core && !e.gone
  es.foldl (fun t e =>
    let u := t.writePhased e
    { u with caches := u.caches.filterMap fun x =>
        if x == e then (if e.own.isEmpty then none else some e.leave) else some x }) s

/-! ## Fills (R79, R90) -/

/-- A core's L1 reads a line, allocating it (R79, R90): a dirty copy elsewhere becomes the home's, and all share. -/
def State.fillL1 (s : State) (core line key : Nat) : LineData × State :=
  let t := (s.evictPhased core line).reKey line key
  match t.plainAt (.l1 core) line with
  | some e => (e.data, t)
  | none =>
    let d := match t.dirtyOf line with
      | some e => e.data
      | none =>
        match t.plainAt (.l2 (core / 32)) line with
        | some e => e.data
        | none => t.homeVal line key
    let bad := t.poisonedFor core line
    let home := Place.l2 (lineHome line)
    let shared := t.anyPlain line
    -- the owner's copy is downgraded to S; the home holds what is dirty
    let olds := t.caches.map fun x => if x.line == line && x.plain && x.st != .m then { x with st := LineSt.s } else x
    let olds := match t.dirtyOf line with
      | some e =>
        if e.place == home then olds
        else (olds.filter fun x => !(x.line == line && x.plain && x.place == home)).map fun x =>
          if x.line == line && x.plain && x.st == .m then { x with st := LineSt.s } else x
      | none => olds
    let homeCopy := match t.dirtyOf line with
      | some e => if e.place == home then [] else [{ CEntry.mkPlain home line .m key e.data with bad := e.bad }]
      | none => []
    (d, { t with caches := olds ++ homeCopy ++
            [{ CEntry.mkPlain (.l1 core) line (if shared then .s else .e) key d with bad := bad }] })

/-- A read that places no new line (R179): the L1's copy, or the home's value. -/
def State.readNA (s : State) (core line key : Nat) : LineData × State :=
  let t := s.reKey line key
  match t.plainAt (.l1 core) line with
  | some e => (e.data, t)
  | none =>
    match t.plainAt (.l2 (core / 32)) line with
    | some e => (e.data, t)
    | none => (t.homeVal line key, t)

/-- A core's L1 becomes the one dirty holder of a line with new contents (R90); its poison stays. -/
def State.putL1 (s : State) (core line key : Nat) (d : LineData) : State :=
  { s with caches := (s.dropPlain line).caches ++
      [{ CEntry.mkPlain (.l1 core) line .m key d with bad := s.poisonedFor core line }] }

/-- The recall for a line has gone unanswered past its deadline (R352). -/
def State.expired (s : State) (line : Nat) : Bool := s.recalls.any fun r => r.line == line && r.expired

/-- The next cause of collapse tries again (R352). -/
def State.forgetRecall (s : State) (line : Nat) : State := { s with recalls := s.recalls.filter (·.line != line) }

/-! ## Registrations (R94, R191) -/

/-- Add a number to a rising list. -/
def addL1 (l1s : List Nat) (k : Nat) : List Nat := insertSorted k l1s

/-- A registration arrives at the home of a local line: none while a collapse it needs awaits contributions (R191). -/
def State.register (s : State) (r : Reg) : Option State :=
  let s := { s with regs := s.regs.filter (· != r) }
  let start := fun (t : State) (home : LineData) (dirty bad : Bool) =>
    { t with ulines := t.ulines ++ [{ line := r.line, op := r.op, home := home, dirty := dirty, key := r.key, l1s := [r.core],
                                      nodes := [], groups := [], back := [], bad := bad }] }
  match s.uline? r.line with
  | some u =>
    if u.op == r.op && u.key == r.key then some (s.modULine r.line fun u => { u with l1s := addL1 u.l1s r.core })
    else
      let (u, s) := s.gather u
      if u.ready then
        let t := (s.collapse u).reKey r.line r.key
        some (start (t.dropPlain r.line) (t.homeVal r.line r.key) true (t.poisoned r.line))
      else none
  | none =>
    let t := s.flushLine r.line
    some (start t (t.dramLine r.line r.key) false (t.storeBad r.line))

/-- Registrations of a core's L1 for a line that have not reached their home. -/
def State.regsOf (s : State) (core line : Nat) : List Reg := s.regs.filter fun r => r.line == line && r.core == core && r.node.isNone

/-- They reach it now; false where one must wait. -/
def State.drainRegs (s : State) : List Reg → Bool × State
  | [] => (true, s)
  | r :: rs =>
    match s.register r with
    | some t => t.drainRegs rs
    | none => (false, s)

/-- Before an agent's plain access to a line: its L1's own registrations arrive and a U line is collapsed at the home (R95).
`core` is the L1 of the agent if it has one; false means the agent waits for remote contributions (R352). -/
def State.settle (s : State) (core : Option Nat) (line rto : Nat) : Bool × State :=
  let (ok, s) := match core with
    | some k => s.drainRegs (s.regsOf k line)
    | none => (true, s)
  match s.uline? line with
  | none => (ok, s)
  | some u =>
    let (u, s) := s.gather u
    if ok && u.ready then (true, s.collapse u) else (false, s.postRecall u rto)

/-- The same for several lines; stops at the first that must wait. -/
def State.settleAll (s : State) (core : Option Nat) (rto : Nat) : List Nat → Bool × State
  | [] => (true, s)
  | l :: ls =>
    match s.settle core l rto with
    | (true, t) => t.settleAll core rto ls
    | r => r

/-! ## What a home does for an agent (R183, R192) -/

/-- USNAP at a line's home (R192): the value before, and the line in U(op) with no copies and identities; none while a collapse awaits
contributions. `core` is the L1 of the agent if it has one. -/
def State.snapHome (s : State) (core : Option Nat) (line key : Nat) (op : UOp) (rto : Nat) : Option (LineData × State) :=
  match s.settle core line rto with
  | (false, _) => none
  | (true, t) =>
    let t := t.reKey line key
    let v := t.homeVal line key
    let t := t.flushLine line
    some (v, { t with ulines := t.ulines ++ [{ line := line, op := op, home := uIdentLine op, dirty := true, key := key,
                                               l1s := [], nodes := [], groups := [], back := [] }] })

/-- CLEANR (0), INVR (1) and UFLUSH (2) of a COHERENT line at its home (R183). -/
def State.rangeHome (s : State) (core : Option Nat) (line : Nat) (op : BitVec 2) (rto : Nat) : Option State :=
  match s.settle core line rto with
  | (false, _) => none
  | (true, t) => some (if op = 0 then t.cleanLine line else if op = 1 then t.flushLine line else t)

/-! ## Updates (R81, R94, R191) -/

/-- The updates of a run folded in their order, from the identity (R94). -/
def foldRun (op : UOp) (us : List UUpd) : LineData :=
  us.foldl (fun d u => lineSet d u.off (uBytes op) (uFold op (lineGet d u.off (uBytes op)) u.val)) (uIdentLine op)

/-- The runs of a copy folded in order, the earlier on the left (R81). -/
def foldRuns (op : UOp) : List (List UUpd) → LineData
  | [] => uIdentLine op
  | r :: rs => rs.foldl (fun d q => uMerge op d (foldRun op q)) (foldRun op r)

/-- An update joins the newest run. -/
def addUpd (u : UUpd) : List (List UUpd) → List (List UUpd)
  | [] => [[u]]
  | [r] => [r ++ [u]]
  | r :: rs => r :: addUpd u rs

/-- The L1's copy of a line under an operator and key is known, or soon known, at the home (R94). -/
def State.regKnown (s : State) (core line key : Nat) (op : UOp) : Bool :=
  (s.uline? line).any (fun u => u.op == op && u.key == key && u.l1s.contains core) ||
  s.press.any (fun p => p.line == line && p.op == op && p.l1s.contains core)

/-- The update's registration: the one under way gets this crew too; else it is sent unless the home has it (R94). -/
def State.sendReg (s : State) (r : Reg) : State :=
  let same := fun (q : Reg) => q.line == r.line && q.core == r.core && q.op == r.op && q.key == r.key
  if s.regs.any same then
    { s with regs := s.regs.map fun q =>
        if same q && q.crew != r.crew && !q.more.contains (r.crew, r.run) then { q with more := q.more ++ [(r.crew, r.run)] } else q }
  else if s.regKnown r.core r.line r.key r.op then s
  else { s with regs := s.regs ++ [r] }

/-- The L1's U copy of a line under an operator, started at the identity if there is none; a plain or PHASED copy it held is given
up (R80), and the registration sent, once in a U(op) period. `node` names the home node of a remote line. -/
def State.openCopy (s : State) (core line key : Nat) (op : UOp) (r : Reg) : State :=
  match s.uCur core line with
  | some _ => s.sendReg r
  | none =>
    let s := s.evictPhased core line
    let t : State := match s.plainAt (.l1 core) line with
      | some e => if e.st == .m then s.flushLine line
                  else { s with caches := s.caches.filter fun x => !(x.line == line && x.plain && x.place == .l1 core) }
      | none => s
    { t with caches := t.caches ++ [{ CEntry.mkPlain (.l1 core) line .u key (uIdentLine op) with op := some op }] }.sendReg r

/-- Fold an update of a context into an element of the L1's copy, the copy on the left (R191). -/
def State.updCopy (s : State) (core line : Nat) (op : UOp) (ctx i x : Nat) : State :=
  { s with caches := s.caches.map fun e =>
      if e.line == line && e.st == .u && e.place == .l1 core then
        { e with data := lineSet e.data i (uBytes op) (uFold op (lineGet e.data i (uBytes op)) x),
                 upds := addUpd ⟨ctx, i, x⟩ e.upds }
      else e }

/-- The copy parked for an L1, whatever its operator (R80: at most one for a line). -/
def State.parkedAt (s : State) (core line : Nat) : Option CEntry :=
  s.caches.find? fun e => e.line == line && e.st == .u && e.place == .park (core / 32) core

/-- An L1 evicts its U copy: it joins the copy parked for that L1, the parked one on the left, or is parked (R81). -/
def State.parkCopy (s : State) (e : CEntry) (core : Nat) : State :=
  let rest := s.caches.filter (· != e)
  match e.op with
  | none => s
  | some op =>
    match s.uParkedOf op core e.line with
    | some p => { s with caches := rest.map fun x =>
        if x == p then { x with data := uMerge op p.data e.data, upds := p.upds ++ e.upds, bad := p.bad || e.bad } else x }
    | none => { s with caches := rest ++ [{ e with place := .park (core / 32) core }] }

/-- A U copy without the updates of a context: folded anew from the others; none when nothing is left (R4, R96). -/
def CEntry.without (e : CEntry) (ctx : Nat) : Option CEntry :=
  match e.op with
  | none => some e
  | some op =>
    if e.upds.any fun r => r.any (·.ctx == ctx) then
      let rs := (e.upds.map fun r => r.filter (·.ctx != ctx)).filter (!·.isEmpty)
      if rs.isEmpty then none else some { e with upds := rs, data := foldRuns op rs }
    else some e

/-- The updates of a killed context that no collapse has included are discarded with it (R96). -/
def State.dropUpdatesOf (s : State) (ctx : Nat) : State :=
  { s with caches := s.caches.filterMap fun e => if e.st == .u then e.without ctx else some e }

/-! ## Versions (R100 to R104) -/

/-- The version of a line under a hypothesis of a context. -/
def State.version? (s : State) (ctx line : Nat) (h : BitVec 8) : Option CEntry :=
  s.caches.find? fun e => e.line == line && e.hyp == h && e.ctx == ctx && e.hyp != 0

/-- An entry of the hypothesis table; ids not listed are FREE, and 0 is the root. -/
def Ctx.hypOf (x : Ctx) (h : BitVec 8) : Hyp :=
  if h = 0 then { st := .live, parent := 0, depth := 0 } else mget { st := .free, parent := 0, depth := 0 } x.hyps h.toNat

/-- h and its ancestors below the root, nearest first; the depth is at most 15. -/
def Ctx.chain (x : Ctx) : Nat → BitVec 8 → List (BitVec 8)
  | 0, _ => []
  | n + 1, h => if h = 0 then [] else h :: x.chain n (x.hypOf h).parent

/-- A line as a crew under hypothesis h sees it: each byte from the nearest version that holds it, else the committed value. -/
def State.seeLine (s : State) (ctx line : Nat) (h : BitVec 8) (committed : LineData) : LineData :=
  match s.ctx? ctx with
  | none => committed
  | some x =>
    (x.chain 16 h).reverse.foldl (fun d k =>
      match s.version? ctx line k with
      | some e => mergeMask e.dmask e.data d
      | none => d) committed

/-- What crew's load of n bytes at byte i of a line under hypothesis h selects holds an uncorrectable error, given whether the
committed copy does (R100, R369). -/
def State.seeBad (s : State) (ctx line : Nat) (h : BitVec 8) (i n : Nat) (committed : Bool) : Bool :=
  match s.ctx? ctx with
  | none => committed
  | some x =>
    (x.chain 16 h).reverse.foldl (fun b k =>
      match s.version? ctx line k with
      | some e => if byteMask i n &&& ~~~e.dmask == 0 then e.bad else b || (e.bad && byteMask i n &&& e.dmask != 0)
      | none => b) committed

/-- A store under a hypothesis: the version moves to the issuing L1 with the bytes written (R100). -/
def State.putVersion (s : State) (core ctx line key : Nat) (h : BitVec 8) (i n x : Nat) : State :=
  let old := s.version? ctx line h
  let e : CEntry := old.getD
    { CEntry.mkPlain (.l1 core) line .m key 0 with hyp := h, ctx := ctx }
  let e' := { e with place := .l1 core, data := lineSet e.data i n x, dmask := e.dmask ||| byteMask i n }
  { s with caches := (s.caches.filter fun y => some y != old) ++ [e'] }

/-- Versions that lie in the version area of a die, and the lines it can hold (R83). -/
def State.vaUsed (s : State) (die : Nat) : Nat := (s.caches.filter fun e => e.place == .va die).length
def State.vaRoom (s : State) (die : Nat) : Nat :=
  match s.pdevs.find? fun p => p.first ≤ die && die < p.first + p.dies with
  | some p => p.varea * 8192
  | none => 0

/-- The version area of a line's home is full, or has size 0: a store there may trap with HYPFULL (R83). -/
def State.vaFull (s : State) (line : Nat) : Bool := s.vaRoom (lineHome line) ≤ s.vaUsed (lineHome line)

/-- A version leaves an L1 for the version area of its line's home, where there is room (R83). -/
def State.evictVersion (s : State) (e : CEntry) : State :=
  let die := lineHome e.line
  if s.vaUsed die < s.vaRoom die then
    { s with caches := s.caches.map fun x => if x == e then { x with place := .va die } else x }
  else s

/-- The versions that an L1 holds. -/
def State.versionsAt (s : State) (core : Nat) : List CEntry := s.caches.filter fun e => e.place == .l1 core && e.hyp != 0

/-- Lines of an L1 (R67). -/
def l1Lines : Nat := 1024

/-- A store's version of a line takes its place in the L1, with nothing written yet. An L1 that holds no more versions sends one,
by free choice, to a version area that has room; with no such area the store finds no room (R67, R83). -/
def State.holdVersion (s : State) (core ctx line key : Nat) (h : BitVec 8) : Option State :=
  let t := s.putVersion core ctx line key h 0 0 0
  let es := t.versionsAt core
  if es.length ≤ l1Lines then some t
  else
    let fit := es.filter fun e => decide (t.vaUsed (lineHome e.line) < t.vaRoom (lineHome e.line))
    let (i, u) := t.choose fit.length
    (fit[i]?).map u.evictVersion

/-! ## PHASED lines (R106 to R108) -/

/-- The PHASED copy of a line in an L1, or what is left of one. -/
def State.phased? (s : State) (core line ctx : Nat) : Option CEntry :=
  s.caches.find? fun e => e.line == line && e.ph && e.place == .l1 core && e.ctx == ctx

/-- A PHASED entry under another key than the access's is written back and gives way (R356). -/
def State.dropPhasedKey (s : State) (core ctx line key : Nat) : State :=
  match s.phased? core line ctx with
  | some e => if e.key == key then s else { s.writePhased e with caches := (s.writePhased e).caches.filter (· != e) }
  | none => s

/-- The line of the phase, as a fill from its home gives it to a core: bytes that the core's own crews have stored in the phase keep
what they held before those stores (R106). -/
def startOf (old : Option CEntry) (home : LineData) : LineData :=
  match old with
  | some e => mergeMask e.ownMask e.start home
  | none => home

/-- A crew's view of a PHASED line: its own latest stores over the line as filled (R106). -/
def ownOver (own : List OwnBytes) (crew : Nat) (start : LineData) : LineData :=
  match own.find? (·.crew == crew) with
  | some o => mergeMask o.mask o.data start
  | none => start

def CEntry.viewFor (e : CEntry) (crew : Nat) : LineData := ownOver e.own crew e.start

/-- The L1's PHASED copy, filled from the home if absent, where a plain or U copy of the line gives way to it (R80). -/
def State.fillPhased (s : State) (core ctx line key : Nat) (dom : BitVec 3) (phs : BitVec 4) : CEntry × State :=
  let s := s.dropPhasedKey core ctx line key
  let old := s.phased? core line ctx
  match old.filter (!·.gone) with
  | some e => (e, s)
  | none =>
    let t := (s.evictPhased core line).reKey line key
    let home := t.homeVal line key
    let e : CEntry := { CEntry.mkPlain (.l1 core) line .s key home with
      ph := true, ctx := ctx, dom := dom, phs := phs, bad := t.poisoned line, start := startOf old home,
      own := (old.map (·.own)).getD [] }
    let u := if (t.plainAt (.l1 core) line).isSome then t.flushLine line else t
    (e, { u with caches := (u.caches.filter fun x => some x != old) ++ [e] })

/-- A crew's own bytes with n more from byte i. -/
def addOwn (crew i n x : Nat) : List OwnBytes → List OwnBytes
  | [] => [⟨crew, byteMask i n, lineSet 0 i n x⟩]
  | o :: os => if o.crew = crew then ⟨crew, o.mask ||| byteMask i n, lineSet o.data i n x⟩ :: os else o :: addOwn crew i n x os

/-- A crew's store to the L1's PHASED copy. -/
def State.storePhased (s : State) (core crew ctx line key : Nat) (dom : BitVec 3) (phs : BitVec 4) (i n x : Nat) : State :=
  let (e, t) := s.fillPhased core ctx line key dom phs
  { t with caches := t.caches.map fun y =>
      if y == e then { y with st := LineSt.m, data := lineSet e.data i n x, dmask := e.dmask ||| byteMask i n,
                              own := addOwn crew i n x e.own } else y }

/-- A crew's load of a PHASED line: the L1's copy, filled if absent; `na` places no new line (R106, R179). -/
def State.readPhased (s : State) (core crew ctx line key : Nat) (dom : BitVec 3) (phs : BitVec 4) (na : Bool) :
    LineData × State :=
  let s := s.dropPhasedKey core ctx line key
  let old := s.phased? core line ctx
  if na && (old.filter (!·.gone)).isNone then
    let t := s.reKey line key
    (ownOver ((old.map (·.own)).getD []) crew (startOf old (t.homeVal line key)), t)
  else
    let (e, t) := s.fillPhased core ctx line key dom phs
    (e.viewFor crew, t)

/-- The cache number an entry's L1 has; entries elsewhere come last. -/
def CEntry.l1No (e : CEntry) : Nat :=
  match e.place with
  | Place.l1 k => k
  | Place.l2 d => 1024 + d
  | Place.va d => 1024 + d
  | Place.park _ k => k

/-- Entries in ascending cache number. -/
def sortByL1 (es : List CEntry) : List CEntry :=
  es.foldl (fun acc e => (acc.takeWhile fun y => y.l1No ≤ e.l1No) ++ e :: (acc.dropWhile fun y => y.l1No ≤ e.l1No)) []

/-- PHASED entries that a test picks are written back in ascending cache number, so that the highest wins, and dropped. -/
def State.sweepPhased (s : State) (p : CEntry → Bool) : State :=
  let es := sortByL1 (s.caches.filter fun e => e.ph && p e)
  let t := es.foldl State.writePhased s
  { t with caches := t.caches.filter fun e => !(e.ph && p e) }

/-! ## What leaves a cache (R67, R81 to R83) -/

/-- The recall time-out of the presented device a line's home die is on (R350). -/
def State.lineRto (s : State) (line : Nat) : Nat :=
  match s.pdevs.find? fun p => p.first ≤ lineHome line && lineHome line < p.first + p.dies with
  | some p => p.rto
  | none => 10000

/-- A plain copy leaves an L1 for the L2 of its die, which becomes the dirty holder if it was dirty. -/
def State.demote (s : State) (e : CEntry) (die : Nat) : State :=
  let rest := s.caches.filter (· != e)
  match s.plainAt (.l2 die) e.line with
  | none => { s with caches := rest ++ [{ e with place := .l2 die }] }
  | some y =>
    if e.st == .m then { s with caches := (rest.filter (· != y)) ++ [{ e with place := .l2 die }] } else { s with caches := rest }

/-- A U copy leaves an L1 once its own registrations have reached the home (R81): it joins the copy parked for that L1 or is parked;
with no way free the line is collapsed at once (R82). A line whose home is another node is parked, once its home has recorded it. -/
def State.evictU (s : State) (core line : Nat) (room : Bool) : State :=
  match s.drainRegs (s.regsOf core line) with
  | (false, _) => s
  | (true, t) =>
    match t.uCur core line with
    | none => t
    | some e =>
      if t.regs.any (fun r => r.line == line && r.core == core) then t
      else
        match t.parkedAt core line with
        | some p => if p.op == e.op then t.parkCopy e core else t
        | none =>
          if room || (t.uline? line).isNone then t.parkCopy e core
          else (t.settle none line (t.lineRto line)).2

/-- An entry of an L1 leaves it: a version for the version area, a U copy for its parking place, a PHASED one for DRAM, a plain one
for the die's L2. -/
def State.evictOne (s : State) (core : Nat) (room : Bool) (e : CEntry) : State :=
  if e.hyp != 0 then s.evictVersion e
  else if e.st == .u then s.evictU core e.line room
  else if e.ph then s.evictPhased core e.line
  else s.demote e (core / 32)

/-- The entries of a line in an L1 leave it: versions with tag `hyp`, or the committed and PHASED ones when it is 0. -/
def State.evictL1 (s : State) (core line hyp : Nat) (room : Bool) : State :=
  (s.caches.filter fun e => e.place == .l1 core && e.line == line && e.hyp.toNat == hyp && !e.gone).foldl
    (fun t e => t.evictOne core room e) s

/-- A line leaves an L2: first the L1s of the die, whose U copies are parked, then the L2's own copy, written back if dirty (R82). -/
def State.evictL2 (s : State) (die line : Nat) (room : Bool) : State :=
  let t := (rangeFrom (die * 32) 24).foldl (fun t core => t.evictL1 core line 0 room) s
  match t.plainAt (.l2 die) line with
  | none => t
  | some e =>
    let u := if e.st == .m then (t.dramPut line e.key e.data).setPoison line e.bad else t
    { u with caches := u.caches.filter (· != e) }

/-- An eviction; a version area and a parked copy give nothing up. -/
def State.evict (s : State) (p : Place) (line hyp : Nat) (room : Bool) : State :=
  match p with
  | .l1 core => s.evictL1 core line hyp room
  | .l2 die => s.evictL2 die line room
  | .va _ | .park _ _ => s

/-- A dirty line is written back and stays, clean. -/
def State.writeBack (s : State) (p : Place) (line : Nat) : State :=
  match s.caches.find? fun e => e.place == p && e.line == line && e.hyp == 0 && e.st == .m with
  | none => s
  | some e =>
    if e.ph then
      let t := s.writePhased e
      { t with caches := t.caches.map fun x => if x == e then { e with st := LineSt.s, dmask := 0 } else x }
    else s.cleanLine line

/-! ### Capacities (R67) -/

/-- The entries an L1 holds. -/
def State.l1Held (s : State) (core : Nat) : List CEntry := s.caches.filter fun e => e.place == .l1 core && !e.gone

/-- An entry can leave its L1: a version while its area has room, anything else at once. -/
def State.canLeave (s : State) (e : CEntry) : Bool :=
  e.hyp == 0 || decide (s.vaUsed (lineHome e.line) < s.vaRoom (lineHome e.line))

/-- An L1 gives up lines by free choice until it holds no more than it can. -/
def State.trimL1 (s : State) (core : Nat) : Nat → State
  | 0 => s
  | n + 1 =>
    let held := s.l1Held core
    if held.length ≤ l1Lines then s
    else
      let go := held.filter s.canLeave
      let (i, t) := s.choose go.length
      match go[i]? with
      | none => s
      | some e => (t.evictOne core true e).trimL1 core n

/-- The line lies in a slice of an L2: in the L2 itself, in an L1 of the die, which the L2 includes, or parked. -/
def CEntry.inSlice (e : CEntry) (die slice : Nat) : Bool :=
  e.hyp == 0 && !e.gone && homeSlice (e.line * 128) == slice && match e.place with
    | .l1 k => k / 32 == die
    | .l2 d => d == die
    | .park d _ => d == die
    | .va _ => false

/-- The lines a slice of a die's L2 can hold, less the share of the version area (R67, R83). -/
def State.sliceLines (s : State) (die : Nat) : Nat := 32768 - s.vaRoom die / 16

/-- The ways of a slice in use: a way for each line, and one for each parked copy. -/
def State.sliceUsed (s : State) (die slice : Nat) : Nat :=
  let es := s.caches.filter fun e => e.inSlice die slice
  let parked := fun (e : CEntry) => match e.place with
    | .park _ _ => true
    | .l1 _ | .l2 _ | .va _ => false
  (es.filter parked).length + ((es.filter fun e => !parked e).foldl (fun m e => insertSorted e.line m) []).length

/-- A slice gives up lines by free choice; a U line whose copies stand in the way is collapsed (R82). -/
def State.trimSlice (s : State) (die slice : Nat) : Nat → State
  | 0 => s
  | n + 1 =>
    if s.sliceUsed die slice ≤ s.sliceLines die then s
    else
      let es := s.caches.filter fun e => e.inSlice die slice
      let (i, t) := s.choose es.length
      match es[i]? with
      | none => s
      | some e =>
        (match e.place with
          | .park _ _ => (t.settle none e.line (t.lineRto e.line)).2
          | .l1 _ | .l2 _ | .va _ => t.evictL2 die e.line false).trimSlice die slice n

/-- Every cache within its capacity, as it is after a step. Fewer entries than a slice can hold in all need no look at the L2s. -/
def State.trim (s : State) : State :=
  if s.caches.length ≤ l1Lines then s
  else
    let t := (List.range 256).foldl (fun t k => t.trimL1 k t.caches.length) s
    if t.caches.length ≤ 24576 then t
    else (List.range 128).foldl (fun t i => t.trimSlice (i / 16) (i % 16) t.caches.length) t

end Sys2Proof.Machine
end

