-- ==== Sys2Proof/Machine/Translate.lean ====
section
/-!
DEFINITION. Translation: regions (04 R75 to R77), page tables and walks (16 R312 to R314), TLBs (16 R315), forwarding of a migrated
page (16 R324), keys (18 R355), and the lines that a rewrite, a migration or a coherent cellar command blocks.
-/
namespace Sys2Proof.Machine

/-! ## Regions (R75, R76) -/

/-- Fields of a region-table entry. -/
def rgValid (e : BitVec 256) : Bool := e.getLsbD 0
def rgKind (e : BitVec 256) : Nat := (e.extractLsb' 1 2).toNat
def rgDomain (e : BitVec 256) : BitVec 3 := e.extractLsb' 3 3
def rgIlv (e : BitVec 256) : Nat := (e.extractLsb' 8 4).toNat
def rgKey (e : BitVec 256) : Nat := (e.extractLsb' 12 12).toNat
def rgBase (e : BitVec 256) : Nat := (e.extractLsb' 64 57).toNat / 4096 * 4096
def rgLimit (e : BitVec 256) : Nat := (e.extractLsb' 128 57).toNat / 4096 * 4096 + 4095

/-- The low 57 bits of a canonical address. -/
def va57 (va : BitVec 64) : Nat := (va.extractLsb' 0 57).toNat

/-- A virtual address lies in an entry's range. -/
def rgCovers (e : BitVec 256) (va : BitVec 64) : Bool := rgValid e && rgBase e ≤ va57 va && va57 va ≤ rgLimit e

/-- The entry that governs an address: the lowest-numbered valid one; entries are listed in rising order (R75). -/
def Ctx.region (x : Ctx) (va : BitVec 64) : Option (BitVec 256) := (x.regions.find? fun e => rgCovers e.2 va).map (·.2)

/-- What a region says of an access: kind, domain, default key. -/
def Ctx.rKind (x : Ctx) (va : BitVec 64) : Nat := ((x.region va).map rgKind).getD 0
def Ctx.rDomain (x : Ctx) (va : BitVec 64) : BitVec 3 := ((x.region va).map rgDomain).getD 0
def Ctx.rKey (x : Ctx) (va : BitVec 64) : Nat := ((x.region va).map rgKey).getD 0

/-- An aperture whose stacks all lie in the presented device (R77). -/
def Ctx.ownAperture (x : Ctx) (p : Aperture) : Bool := x.pdev ≤ p.first && p.first + 2 ^ p.b ≤ x.pdev + x.dies

/-- The aperture a translation may yield (R77). -/
def Ctx.apertureOk (x : Ctx) (va : BitVec 64) (p : Aperture) : Bool :=
  match x.region va with
  | some e => p.code == rgIlv e
  | none => x.ownAperture p

/-! ## Forwarding and blocking (R321, R324, R116) -/

/-- The first byte of the 4 KiB frame of a physical address. -/
def frameOf (pa : Nat) : Nat := pa / 4096 * 4096

/-- Where an access to a location is performed: the destination, if a slot forwards its frame. -/
def Forward.apply (f : Forward) (loc : Nat) : Option Nat :=
  match apertureOf f.src with
  | some p =>
    match p.offset loc with
    | some o =>
      let pa := p.base + o
      if frameOf f.src ≤ pa && pa < frameOf f.src + 2 ^ (12 + f.k) then
        match physOf (frameOf f.dst + (pa - frameOf f.src)) with
        | .dram _ l => some l
        | .host _ _ | .chip _ _ _ | .none => none
      else none
    | none => none
  | none => none

/-- A location after the forwarding slots of the device it lies on. -/
def State.forward (s : State) (loc : Nat) : Nat :=
  match (s.pdevs.flatMap fun p => p.fwd).findSome? fun f => f.2.apply loc with
  | some l => l
  | none => loc

/-- The location lies in the frame of a migration in progress (R324 step 1). -/
def State.migrating (s : State) (loc : Nat) : Bool :=
  s.ctxs.any fun x => x.migBusy && x.migAct.any fun m => ({ m.2 with dst := m.2.src }.apply loc).isSome

/-- A coherent cellar command holds the location (R116, R255). -/
def State.held (s : State) (loc : Nat) : Bool := s.cmds.any fun k => k.held.contains (loc / 4096)

/-- A command other than the agent's own holds the location (R255). -/
def State.heldFrom (s : State) (ag : Agent) (loc : Nat) : Bool :=
  match ag with
  | .cellar stack proc =>
    let own := (s.procs.find? fun p => p.stack == stack && p.proc == proc).map (·.cmd)
    s.cmds.any fun k => k.held.contains (loc / 4096) && some k.id != own
  | .core _ | .copyUnit _ | .coll _ | .trellis | .scafa => s.held loc

/-- An access waits at a location's home: a move blocks it, or a command's hold (R116, R255, R324). -/
def State.homeHolds (s : State) (ag : Agent) (loc : Nat) : Bool := s.migrating loc || s.heldFrom ag loc

/-- The address lies in the old or the new range of an entry being rewritten (R321 step 1). -/
def Ctx.rewriting (x : Ctx) (va : BitVec 64) : Bool :=
  x.rgnBusy && (rgCovers (mget 0 x.regions x.rgnAct.toNat) va || rgCovers x.rgnNew va)

/-! ## Walks (R312 to R314) -/

/-- Why a translation gives no address: a fault, a page-table line in U(op) that must first collapse (R95), or one that waits at its
home (R116, R324). -/
inductive XErr where
  | fault (cause detail : BitVec 8) (level : Nat)
  | collapse (line : Nat)
  | wait
  deriving DecidableEq, Repr

def pgFault (detail : BitVec 8) (level : Nat) : XErr := .fault 0x04 detail level
def protFault (detail : BitVec 8) : XErr := .fault 0x05 detail 0

/-- Fields of a page-table entry. -/
def pteLeaf (e : BitVec 64) : Bool := e.getLsbD 1
def pteK (e : BitVec 64) : Nat := (e.extractLsb' 4 4).toNat
def pteKey (e : BitVec 64) : Nat := (e.extractLsb' 8 12).toNat
def pteNode (e : BitVec 64) : BitVec 10 := e.extractLsb' 8 10
def ptePa (e : BitVec 64) : Nat := (e.extractLsb' 20 36).toNat * 4096
def pteRmt (e : BitVec 64) : Bool := e.getLsbD 56

/-- The location lies on the context's presented device (R15). -/
def Ctx.ownLoc (x : Ctx) (loc : Nat) : Bool := x.pdev ≤ homeDie loc && homeDie loc < x.pdev + x.dies

/-- One page-table entry, read through its home with slot 0 (R313, R355). -/
def State.pte (s : State) (ag : Agent) (pa level : Nat) : Except XErr (BitVec 64) :=
  match physOf pa with
  | .dram _ loc0 =>
    let loc := s.forward loc0
    if s.homeHolds ag loc then .error .wait
    else if (s.uline? (loc / 128)).isSome then .error (.collapse (loc / 128))
    else if s.poisoned (loc / 128) then .error (.fault cECC 0 level)
    else .ok (BitVec.ofNat 64 (lineGet (s.homeVal (loc / 128) s.deviceKey) (loc % 128) 8))
  | .host _ _ | .chip _ _ _ | .none => .error (pgFault 0x03 level)

/-- The index of an address at a level (R312). -/
def pteIndex (va : BitVec 64) (level : Nat) : Nat := (va.extractLsb' (12 + 9 * level) 9).toNat

/-- The checks of an entry at a level (R312 to R314): none to go on with the next table, some when a leaf. -/
def checkPte (e : BitVec 64) (level : Nat) : Except XErr Bool :=
  if !e.getLsbD 0 then .error (pgFault 0x01 level)
  else if e.extractLsb' 57 7 != 0 then .error (pgFault 0x02 level)
  else if pteLeaf e then
    let k := pteK e
    let kOk := (level == 0 && k ≤ 8) || (level == 1 && 9 ≤ k)
    if !kOk || (pteRmt e && e.extractLsb' 18 2 != 0) || ptePa e % 2 ^ (12 + k) != 0 then .error (pgFault 0x02 level)
    else .ok true
  else if level == 0 || e.extractLsb' 2 18 != 0 || pteRmt e then .error (pgFault 0x02 level)
  else .ok false

/-- A leaf's physical address for an address in its page (R313). -/
def leafPa (e : BitVec 64) (va : BitVec 64) : Nat :=
  ptePa e / 2 ^ (12 + pteK e) * 2 ^ (12 + pteK e) + va57 va % 2 ^ (12 + pteK e)

/-- A leaf that leads nowhere (R66, R314). -/
def leafNowhere (e va : BitVec 64) : Bool := !pteRmt e && physOf (leafPa e va) == .none

/-- A table that no walk can read: its address lies in no range (R66, R314) or is no DRAM, or is another device's (R15). -/
def Ctx.tableBad (x : Ctx) (pa level : Nat) : Option XErr :=
  match physOf pa with
  | .dram _ loc => if x.ownLoc loc then none else some (.fault 0x05 0x06 level)
  | .host _ _ | .chip _ _ _ | .none => some (pgFault 0x03 level)

/-! ### Groups of entries (R313) -/

/-- Entries of the group a well-formed leaf at a level stands in: 1 where it stands alone. -/
def groupSize (e : BitVec 64) (level : Nat) : Nat :=
  match checkPte e level with
  | .ok true => if level = 0 then 2 ^ pteK e else 2 ^ (pteK e - 9)
  | .ok false | .error _ => 1

/-- The entries of a table that are not zero, with their indexes; lines that must first collapse are passed over. -/
def State.tableEntries (s : State) (table : Nat) : List (Nat × BitVec 64) :=
  match physOf table with
  | .dram _ loc0 =>
    let first := s.forward loc0 / 128
    (List.range 32).flatMap fun i =>
      if (s.uline? (first + i)).isSome then []
      else
        let d := s.homeVal (first + i) s.deviceKey
        if d = 0 then []
        else (List.range 16).filterMap fun j =>
          let e := BitVec.ofNat 64 (lineGet d (8 * j) 8)
          if e = 0 then none else some (16 * i + j, e)
  | .host _ _ | .chip _ _ _ | .none => []

/-- The entries by which an access to index i of a table may translate: its own, those of the group its own stands in, and those in
whose group it stands (R313). -/
def State.groupOf (s : State) (table level i : Nat) (own : BitVec 64) : List (BitVec 64) :=
  if 2 ≤ level then [own]
  else
    let es := s.tableEntries table
    let n := groupSize own level
    let mine := (rangeFrom (i / n * n) n).map (mget 0 es)
    let others := (es.filter fun f => f.1 / groupSize f.2 level == i / groupSize f.2 level).map (·.2)
    (own :: (mine ++ others)).eraseDups

/-- The entry an access translates by: a free choice where the entries of its group differ. -/
def State.entryFor (s : State) (va : BitVec 64) (table level : Nat) (own : BitVec 64) : BitVec 64 :=
  match s.groupOf table level (pteIndex va level) own with
  | [] | [_] => own
  | es => es.getD (Config.walkPick s.draws va level % es.length) own

/-! ### Kept pointer entries (R315) -/

/-- The die whose walkers serve an agent: a compute die, the hub die (8), or a stack's cellar die (16 and up). -/
def walkDie : Agent → Nat
  | .core c | .copyUnit c => c / 32
  | .coll _ | .trellis | .scafa => 8
  | .cellar stack _ => 16 + stack

/-- The bits of an address that a pointer entry at a level serves. -/
def ptrUpper (va : BitVec 64) (level : Nat) : Nat := va57 va / 2 ^ (12 + 9 * level)

/-- The pointer entry its die has kept for an address at a level, if the walk goes by it. -/
def State.keptPtr (s : State) (ag : Agent) (x : Ctx) (va : BitVec 64) (level : Nat) : Option (BitVec 64) :=
  match s.ptrs.find? fun p => p.die == walkDie ag && p.ctx == x.id && p.level == level && p.upper == ptrUpper va level with
  | some p => if Config.walkPick s.draws va (8 + level) % 2 = 0 then some p.entry else none
  | none => none

/-! ### The walk -/

/-- The walk from a table at a level: the leaf and its level, and the pointer entries it went by. -/
def State.walkFrom (s : State) (ag : Agent) (x : Ctx) (va : BitVec 64) :
    Nat → Nat → List PtrEntry → Except XErr (BitVec 64 × Nat × List PtrEntry)
  | 0, _, _ => .error (pgFault 0x02 0)
  | n + 1, table, path =>
    match s.keptPtr ag x va n with
    | some e => s.walkFrom ag x va n (ptePa e) path
    | none =>
      match s.pte ag (table + 8 * pteIndex va n) n with
      | .error e => .error e
      | .ok own =>
        let e := s.entryFor va table n own
        match checkPte e n with
        | .error x => .error x
        | .ok true => if leafNowhere e va then .error (pgFault 0x03 n) else .ok (e, n, path)
        | .ok false =>
          match x.tableBad (ptePa e) n with
          | some err => .error err
          | none => s.walkFrom ag x va n (ptePa e) (path ++ [⟨walkDie ag, x.id, n, ptrUpper va n, e⟩])

/-- A walk of a context's tables for an agent (R312). -/
def State.walk (s : State) (ag : Agent) (x : Ctx) (va : BitVec 64) : Except XErr (BitVec 64 × Nat × List PtrEntry) :=
  match x.tableBad x.ptroot 4 with
  | some e => .error e
  | none => s.walkFrom ag x va 5 x.ptroot []

/-- The entry of an agent's TLB for an address (R315). -/
def State.tlbHit (s : State) (ag : Agent) (ctx : Nat) (va : BitVec 64) : Option TlbEntry :=
  s.tlb.find? fun t => t.agent == ag && t.ctx == ctx &&
    va57 t.va / 2 ^ (12 + pteK t.leaf) == va57 va / 2 ^ (12 + pteK t.leaf)

/-- The leaf an access uses: its TLB's entry, else a walk's. -/
def State.leafFor (s : State) (ag : Agent) (x : Ctx) (va : BitVec 64) : Except XErr (BitVec 64) :=
  match s.tlbHit ag x.id va with
  | some t => .ok t.leaf
  | none =>
    match s.walk ag x va with
    | .ok r => .ok r.1
    | .error e => .error e

/-! ## What an address reaches -/

/-- What an access reaches once translated: DRAM with its location, key material and physical address; a host window; a peer's
memory; or a place in the on-chip map as the context numbers it. -/
inductive Reach where
  | dram (ap : Aperture) (loc key : Nat) (pa : Nat)
  | host (win off : Nat)
  | rmt (node : BitVec 10) (pa : Nat)
  | chip (die core off : Nat)
  deriving DecidableEq, Repr

/-- A host window as reset leaves it. -/
def HWin.off : HWin := { en := false, wr := false, ns := false, hbase := 0 }

/-- Host window `win` of a presented device (R347). -/
def State.hwinOf (s : State) (first win : Nat) : HWin :=
  match s.pdev? first with
  | some p => mget HWin.off p.hwin win
  | none => HWin.off

/-- The host window of an address, of the context's presented device (R347). -/
def State.hwin (s : State) (ctx win : Nat) : HWin := s.hwinOf (s.firstDie ctx) win

/-- The address lies in a host window that is not enabled: PAGE (R348). -/
def State.hostOff (s : State) (ctx pa : Nat) : Bool :=
  match physOf pa with
  | .host w _ => !(s.hwin ctx w).en
  | .dram _ _ | .chip _ _ _ | .none => false

/-- Translation with the checks that follow it (R177 steps 4 and 5; R314): `write` needs W, `fetch` needs X; `kindOk` is R78's rule
for the region kind. -/
def State.translate (s : State) (ag : Agent) (x : Ctx) (va : BitVec 64) (write fetch : Bool) (kindOk : Nat → Bool) :
    Except XErr Reach :=
  match s.leafFor ag x va with
  | .error e => .error e
  | .ok e =>
    let pa := leafPa e va
    if !pteRmt e && s.hostOff x.id pa then .error (pgFault 0x00 0)
    else if write && !e.getLsbD 2 then .error (protFault 0x04)
    else if fetch && !e.getLsbD 3 then .error (protFault 0x05)
    else if pteRmt e then
      if !kindOk (x.rKind va) then .error (protFault 0x07) else .ok (.rmt (pteNode e) pa)
    else
      match physOf pa with
      | .dram p loc =>
        if !x.apertureOk va p then .error (protFault 0x06)
        else if !kindOk (x.rKind va) then .error (protFault 0x07)
        else
          let idx := if pteKey e = 0 then x.rKey va else pteKey e
          if s.erasing == some idx then .error .wait
          else
            match s.keyOf x.id idx with
            | none => .error (protFault 0x08)
            | some k => .ok (.dram p (s.forward loc) k pa)
      | .host w o => if !kindOk (x.rKind va) then .error (protFault 0x07) else .ok (.host w o)
      | .chip d c o => if !kindOk (x.rKind va) then .error (protFault 0x07) else .ok (.chip d c o)
      | .none => .error (pgFault 0x03 0)

/-- The recall time-out of a context's presented device (R350). -/
def State.rto (s : State) (ctx : Nat) : Nat :=
  match s.pdevOf ctx with
  | some p => p.rto
  | none => 10000

/-- The epoch an access takes when translated (R318). -/
def State.epochOf (s : State) (ctx : Nat) : BitVec 64 :=
  match s.pdevOf ctx with
  | some p => p.epoch
  | none => 0

/-! ## Accesses that wait at a home (R116, R318, R322, R324) -/

/-- The place of a waiting access in the queue. -/
def Waiting.is (w : Waiting) (ag : Agent) (ctx crew : Nat) (va : BitVec 64) : Bool :=
  w.agent == ag && w.ctx == ctx && w.crew == crew && w.va == va

/-- The access of an agent, or of a crew, that already waits at its home: translated once, it keeps its place and its epoch. -/
def State.waiting? (s : State) (ag : Agent) (ctx crew : Nat) (va : BitVec 64) : Option Waiting :=
  s.waitq.find? (·.is ag ctx crew va)

/-- A rewrite holds back an access to the address before it is translated; one translated earlier goes on (R321). -/
def State.rewriteHolds (s : State) (ag : Agent) (x : Ctx) (crew : Nat) (va : BitVec 64) : Bool :=
  x.rewriting va && (s.waiting? ag x.id crew va).isNone

/-- The physical address of a waiting access: its place in the frame that it was translated to. -/
def Waiting.place (w : Waiting) : Nat := frameOf w.pa + w.va.toNat % 4096

/-- Where a waiting access is performed now: forwarding may have moved its frame. -/
def State.waitLoc (s : State) (w : Waiting) : Nat :=
  match physOf w.place with
  | .dram _ loc => s.forward loc
  | .host _ _ | .chip _ _ _ | .none => s.forward w.loc

/-- The asker of a waiting access still wants it: a crew that runs, an operation still in its engine, a processor still at work. An
engine's access carries its operation's number in place of a crew's. -/
def State.waiterAlive (s : State) (w : Waiting) : Bool :=
  match w.agent with
  | .core _ => w.crew == 0 || (s.crew? w.crew).any fun c => !c.saved && c.faulted.isNone && !c.preempted
  | .copyUnit k => (s.core k).copies.any (·.id == w.crew) || (s.core k).mq.any (·.id == w.crew) || (s.crew? w.crew).isSome
  | .coll _ => w.crew == 0 || s.colls.any (·.id == w.crew)
  | .cellar stack proc => s.procs.any fun p => p.stack == stack && p.proc == proc
  | .trellis | .scafa => true

/-- An access queued by a move stands before this one at the line's home: queued accesses are replayed in order of arrival (R324). -/
def State.behind (s : State) (ag : Agent) (ctx crew : Nat) (va : BitVec 64) (loc : Nat) : Bool :=
  (s.waitq.takeWhile fun w => !w.is ag ctx crew va).any fun w =>
    w.moved && s.waitLoc w / 128 == loc / 128 && s.waiterAlive w && !(w.agent == ag && w.ctx == ctx && w.crew == crew)

/-- A translated access must wait at its home. -/
def State.mustWait (s : State) (ag : Agent) (ctx crew : Nat) (va : BitVec 64) (loc : Nat) : Bool :=
  s.homeHolds ag loc || s.behind ag ctx crew va loc

/-- A translated access joins those that wait, once. -/
def State.enqueue (s : State) (ag : Agent) (ctx crew gang : Nat) (va : BitVec 64) (loc key pa : Nat) : State :=
  if s.waitq.any (·.is ag ctx crew va) then s
  else { s with waitq := s.waitq ++ [{ agent := ag, ctx := ctx, crew := crew, gang := gang, va := va, loc := loc, key := key,
                                       pa := pa, epoch := s.epochOf ctx, moved := s.migrating loc }] }

/-- Waiting accesses that a test picks have been performed or given up. -/
def State.dequeue (s : State) (p : Waiting → Bool) : State := { s with waitq := s.waitq.filter fun w => !p w }

/-- An agent's address as it was translated while it waits, else translated now; and whether it must wait at its home. -/
def State.reach (s : State) (ag : Agent) (x : Ctx) (crew : Nat) (va : BitVec 64) (write fetch : Bool) (kindOk : Nat → Bool) :
    Except XErr (Reach × Bool) :=
  match s.waiting? ag x.id crew va with
  | some w =>
    match physOf w.place with
    | .dram ap loc => .ok (.dram ap (s.forward loc) w.key w.place, s.mustWait ag x.id crew va (s.forward loc))
    | .host _ _ | .chip _ _ _ | .none => .error (pgFault 0x03 0)
  | none =>
    match s.translate ag x va write fetch kindOk with
    | .error e => .error e
    | .ok (.dram ap loc key pa) => .ok (.dram ap loc key pa, s.mustWait ag x.id crew va loc)
    | .ok r => .ok (r, false)

/-! ## Requests to the host (R347, R348) -/

/-- The host bus address of an offset of a window of a presented device (R347). -/
def State.hostAddr (s : State) (first win off : Nat) : BitVec 64 :=
  (s.hwinOf first win).hbase ++ (0 : BitVec 12) + BitVec.ofNat 64 off

/-- Bytes written to a host window, in requests of at most 64 bytes. -/
def State.hostPut (s : State) (first win off : Nat) (bs : List Byte) : State :=
  { s with sent := s.sent ++ (piecesOf 64 (bs.length / 64 + 1) 0 bs).map fun p =>
      Sent.hostWrite (s.hostAddr first win (off + p.1)) p.2 (s.hwinOf first win).ns }

/-- Bytes asked of a host window, in requests of at most 64 bytes. -/
def State.hostAsk (s : State) (first win off n : Nat) : State :=
  { s with sent := s.sent ++ (List.range (ceilDiv n 64)).map fun i =>
      Sent.hostRead (s.hostAddr first win (off + 64 * i)) (min 64 (n - 64 * i)) (s.hwinOf first win).ns }

/-- How the host completes a request (R348): with data, with UR or CA status, with poisoned data, or not in time. Which is not the
device's to say; data and outcome are free. -/
inductive HostEnd where
  | data (x : Nat)
  | failed (cause : BitVec 8)
  deriving DecidableEq, Repr

def State.hostEnds (s : State) (n : Nat) : HostEnd × State :=
  let (k, t) := s.choose 4
  if k = 0 then (.data ((t.freeWord.1).toNat % 2 ^ (8 * n)), t.freeWord.2)
  else if k = 1 then (.failed cPROT, t)
  else if k = 2 then (.failed cECC, t)
  else (.failed cTIMEOUT, t)

/-- Phase count of a domain (R199). -/
def Ctx.phase (x : Ctx) (d : BitVec 3) : Phase := x.phases.getD d.toNat { quota := 0, next := 0, arrived := 0, count := 0 }

end Sys2Proof.Machine
end

