-- ==== Sys2Proof/Machine/Abort.lean ====
section
/-!
DEFINITION. Ending a context's work by force: cellar commands cut off (10 R265, R266), the journal of aborted operations (17 R336,
R340) and the forced reset of a context (17 R342).
-/
namespace Sys2Proof.Machine

/-! ## Cellar commands cut off (R265) -/

/-- A processor's TLB stands for its cellar die's walks. -/
def cellarAgent (stack proc : Nat) : Agent := .cellar stack proc

def State.cmd? (s : State) (id : Nat) : Option Cmd := s.cmds.find? (·.id == id)
def State.modCmd (s : State) (id : Nat) (f : Cmd → Cmd) : State := { s with cmds := s.cmds.map fun k => if k.id == id then f k else k }

/-- A running command is gone with its processors and its holds. -/
def State.dropCmd (s : State) (id : Nat) : State :=
  { s with cmds := s.cmds.filter (·.id != id), procs := s.procs.filter (·.cmd != id) }

/-- How a DRAM address of a command's context ends for a processor (R254 steps 3 and 4); `hold` waits at its home (R255, R324). -/
inductive CellarTo where
  | ok (loc key pa : Nat)
  | hold (loc key pa : Nat)
  | bad (cause detail : BitVec 8) (level : Nat)
  | collapse (line : Nat)
  | wait

/-- A DRAM address of a command's context for the walker of a processor. -/
def State.cellarTo (s : State) (ag : Agent) (x : Ctx) (va : BitVec 64) (write : Bool) : CellarTo :=
  if !canonical va then .bad cPROT 0 0
  else if s.rewriteHolds ag x 0 va then .wait
  else
    match s.reach ag x 0 va write false (fun _ => true) with
    | .error (.fault k d l) => .bad k d l
    | .error (.collapse line) => .collapse line
    | .error .wait => .wait
    | .ok (.dram _ loc key pa, held) => if held then .hold loc key pa else .ok loc key pa
    | .ok (.host _ _, _) | .ok (.rmt _ _, _) | .ok (.chip _ _ _, _) => .bad cPROT 0 0

/-- Where the home of a block lies now. -/
def State.blockLoc (s : State) (b : CldxBlock) : Nat :=
  match physOf b.pa with
  | .dram _ loc => s.forward loc
  | .host _ _ | .chip _ _ _ | .none => 0

/-- A block of an .out transfer written to DRAM, as it was translated at issue. -/
def State.blockOut (s : State) (b : CldxBlock) : State :=
  if b.moved then s else s.rawWrite (s.blockLoc b) 64 b.key (ofBytes b.data)

/-- A transfer that is cut off: each block of an .out that is still on its way is written wholly or not at all (R265). -/
def State.cutTransfer (s : State) (t : Transfer) : State :=
  t.blocks.foldl (fun s b =>
    let (n, s') := s.choose 2
    if n = 1 then s'.blockOut b else s') s

/-- An atomic-unit operation performed in DRAM: the old value (R258). -/
def State.performAtom (s : State) (r : AtomReq) : Nat × State :=
  let n := atomBytes r.op
  let loc := s.forward r.loc
  let old := s.rawRead loc n r.key
  (old, s.rawWrite loc n r.key (atomApply r.op old (r.b.toNat % 2 ^ (8 * n))))

/-- Operations on their way to the atomic units that stop: each is performed or not (R265). -/
def State.stopAtoms (s : State) (mine : AtomReq → Bool) : State :=
  let t := (s.atomq.filter mine).foldl (fun s r =>
    let (n, s') := s.choose 2
    if n = 1 then (s'.performAtom r).2 else s') s
  { t with atomq := t.atomq.filter fun r => !mine r }

/-- What was on its way when a command stops: each write is performed or not (R265). -/
def State.cutOff (s : State) (k : Cmd) : State :=
  let ps := s.procs.filter (·.cmd == k.id)
  let s := ps.foldl (fun s p => (p.transfers.filter (·.out)).foldl State.cutTransfer s) s
  s.stopAtoms fun r => match r.src with
    | .proc st pr _ => ps.any fun p => p.stack == st && p.proc == pr
    | .crew _ _ => false

/-! ## The journal (R336, R340) -/

/-- An operation that ends with ABORT: where its word goes, the word, and its KIND 2 record. -/
structure Aborted where
  dest : Option StatusTo
  id : Nat
  word : BitVec 64
  rcd : RingRec

/-- The ABORT word of an operation with its progress. -/
def abortWord (count : Nat) : BitVec 64 := statusWord stABORT false 0 count

/-- A journal entry: operation code, context, address, the crew and the pair of the word. -/
def State.abortOf (s : State) (detail : BitVec 8) (ctx id : Nat) (pc : BitVec 64) (dest : Option StatusTo) (count : Nat) : Aborted :=
  let r := { RingRec.blank ctx 2 with pc := pc, aux := abortWord count, detail := detail,
                                      sreg := BitVec.ofNat 8 ((dest.map (·.reg)).getD 0) }
  { dest := dest, id := id, word := abortWord count,
    rcd := match dest.bind fun t => s.crew? t.crew with
      | some c => s.recAt c r
      | none => r }

/-- 1 for a load, 2 for an instruction that writes tiles, none for ACCRD, which writes no word. -/
def MxKind.detail : MxKind → Option (BitVec 8)
  | .load _ _ | .loadSp _ _ _ _ _ _ => some 1
  | .mma _ _ _ _ _ _ | .accz _ _ _ | .accwr _ _ _ => some 2
  | .accrd _ _ _ _ _ => none

/-- Rows of an instruction that writes tiles. -/
def MxOp.rows (op : MxOp) : Nat :=
  match op.kind with
  | .mma _ _ _ n _ _ => n
  | .accz _ _ n => n
  | .accwr _ _ _ => 1
  | .load _ _ | .loadSp _ _ _ _ _ _ | .accrd _ _ _ _ _ => 0

/-- A load that its operation's generation needs has failed (R233). -/
def MxOp.badGen (op : MxOp) (k : Core) : Bool :=
  op.subs.any fun p => (k.subs[p.1]?).any fun b => b.badGens.contains p.2

/-- The most rows an operation has done when it is cut off (R218): of a load fewer than it loads, and none of a west load. -/
def MxOp.most (op : MxOp) (k : Core) : Nat :=
  if !op.started || op.busy then 0
  else
    match op.kind with
    | .mma _ _ _ n _ _ => if op.badGen k then 0 else n
    | .accz _ _ n => n
    | .accwr _ _ _ => 1
    | .load t west => if west then 0 else tdRows t - 1
    | .loadSp _ _ _ bands _ mismatch => if mismatch then 0 else 16 * bands - 1
    | .accrd _ _ _ _ _ => 0

/-- The rows an operation has done when it is cut off: a free choice, unless a refutation has fixed them (R232, R340). -/
def State.cutRows (s : State) (core : Nat) (op : MxOp) : Nat × State :=
  match op.refuted with
  | some k => (k, s)
  | none => s.choose (op.most (s.core core) + 1)

/-- They are its COUNT. -/
def State.setRows (s : State) (core id k : Nat) : State :=
  s.modCore core fun c => { c with mq := c.mq.map fun op => if op.id == id then { op with refuted := some k } else op }

/-- The COUNTs of a context's matrix operations that are cut off. -/
def State.countRows (s : State) (ctx : Nat) : State :=
  s.cores.foldl (fun t k => (k.2.mq.filter (·.ctx == ctx)).foldl (fun t op =>
    let (n, u) := t.cutRows k.1 op
    u.setRows k.1 op.id n) t) s

/-- A cellar command's entry; queued ones have done nothing. -/
def State.abortCmd (s : State) (k : Cmd) : Aborted :=
  match k.route with
  | .cell dest _ => s.abortOf 5 k.ctx k.id k.pc (some dest) k.sum.toNat
  | .task run => s.abortOf 6 k.ctx k.id (((s.run? run).map (·.va)).getD 0) none k.sum.toNat

/-- An attached collective that has not written its status, its record's blocks being gone (R309). -/
def State.collOwed (s : State) (r : Run) : Bool :=
  r.acoll.isSome && !r.collDone && s.workOver r

/-- It has no word yet. -/
def State.collOpen (s : State) (r : Run) : Bool :=
  s.collOwed r && !s.colls.any fun j => j.attach == some r.uid && j.word.isSome

/-- Bytes an attached collective has delivered. -/
def State.attachCount (s : State) (run : Nat) : Nat := ((s.colls.find? (·.attach == some run)).map (·.delivered)).getD 0

/-- Every operation of a context that is incomplete, queued ones included. -/
def State.incomplete (s : State) (ctx : Nat) : List Aborted :=
  (s.cores.flatMap fun k =>
    ((k.2.mq.filter (·.ctx == ctx)).filterMap fun (op : MxOp) =>
      op.kind.detail.map fun d => s.abortOf d ctx op.id op.pc op.dest (op.refuted.getD 0)) ++
    ((k.2.copies.filter (·.ctx == ctx)).map fun (j : CopyJob) => s.abortOf 3 ctx j.id j.pc (some j.dest) j.progress)) ++
  ((s.colls.filter fun j => j.ctx == ctx && j.attach.isNone).map fun (j : CollJob) => s.abortOf 4 ctx j.id j.pc (some j.dest) j.delivered) ++
  ((s.cmds ++ s.cmdq).filter (·.ctx == ctx)).map s.abortCmd ++
  ((s.runs.filter fun r => r.ctx == ctx && s.collOpen r).map fun r => s.abortOf 7 ctx 0 r.va none (s.attachCount r.uid))

/-- The operations of a context leave their engines; commands are cut off. -/
def State.dropOps (s : State) (ctx : Nat) : State :=
  let t := (s.cmds.filter (·.ctx == ctx)).foldl (fun s k => (s.cutOff k).dropCmd k.id) s
  let drop := fun (k : Core) => { k with mq := k.mq.filter (·.ctx != ctx), copies := k.copies.filter (·.ctx != ctx) }
  { (t.cores.foldl (fun t k => t.modCore k.1 drop) t) with
    colls := t.colls.filter (·.ctx != ctx), cmdq := t.cmdq.filter (·.ctx != ctx) }

/-- Journal entries in order. -/
def State.journal (s : State) (ctx : Nat) (es : List Aborted) : State :=
  es.foldl (fun s e => s.queueRec (s.firstDie ctx) e.rcd) s

/-! ## Forced reset (R342) -/

/-- A context's updates that no collapse has included are discarded (R96), with the registrations of copies that are gone. -/
def State.dropUpdates (s : State) (ctx : Nat) : State :=
  let t := s.dropUpdatesOf ctx
  { t with regs := t.regs.filter fun r => r.ctx != ctx || (t.uCur r.core r.line).isSome }

/-- Tiles with a tag are set to +0.0 and their tags to 0 (R232). -/
def Core.clearTagged (k : Core) : Core :=
  { k with acc := k.acc.filter fun e => mget 0 k.tags (e.1 / 32768) == 0, tags := [],
           accBad := k.accBad.filter fun l => mget 0 k.tags (l / 1024) == 0 }

/-- Cores that last held a context no longer do (R372): its hypotheses are refuted, its mailboxes emptied. -/
def State.leaveCores (s : State) (ctx : Nat) : State :=
  (s.cores.filter fun k => k.2.lastCtx == some ctx).foldl
    (fun s k => s.modCore k.1 fun c => { c.clearTagged with lastCtx := none, mail := [], mailBad := [] }) s

/-- A pre-emption of the context ends with ABORT, forced. -/
def PDev.abortPreempt (p : PDev) (ctx : Nat) : PDev :=
  if p.peAct.any (·.1 == ctx) then { p with peBusy := false, peResult := 3, peStage := 3, peAct := none } else p

/-- Forced reset of a context, with a reason and AUX (R342). -/
def State.forcedReset (s : State) (ctx : Nat) (reason aux : BitVec 64) : State :=
  let first := s.firstDie ctx
  let s := s.countRows ctx
  let t := ((s.journal ctx (s.incomplete ctx)).dropOps ctx).stopAtoms (·.ctx == ctx)
  let t := (t.dropUpdates ctx).sweepPhased fun e => e.ctx == ctx
  let t := t.leaveCores ctx
  let t : State := { t with
    crews := t.crews.filter (·.ctx != ctx), blocks := t.blocks.filter (·.ctx != ctx),
    runs := t.runs.filter (·.ctx != ctx), launches := t.launches.filter (·.ctx != ctx),
    mails := t.mails.filter (·.ctx != ctx), credits := t.credits.filter (·.ctx != ctx),
    savedCores := t.savedCores.filter (·.ctx != ctx), waitq := t.waitq.filter (·.ctx != ctx), resolves := t.resolves.filter (·.ctx != ctx) }
  let t := t.modCtx ctx fun x =>
    { x with dead := true, savedAt := none, hyps := x.hyps.map fun e => (e.1, { e.2 with st := .discarding }) }
  let t := t.modPdev first (·.abortPreempt ctx)
  t.queueRec first { RingRec.blank ctx 3 with val := reason, aux := aux }

end Sys2Proof.Machine
end

