-- ==== Sys2Proof/Machine/Ops.lean ====
section
/-!
DEFINITION. The operations every meaning shares: acting for the issuing gang, taking a trap (17 R326 to R331) and returning from
one (17 R332), late faults (02 R39), passing on, and the meetings of gangs (02 R22).
-/
namespace Sys2Proof.Machine

/-- What exec and step answer. -/
abbrev Out := Host.Outcome State Fault Refusal

/-! ## Who acts -/

/-- The meaning of a main-set instruction: it acts for the gang that `cur` names. -/
def asGang (s : State) (f : Crew → Nat → State) : Out :=
  match s.cur with
  | .crew uid g =>
    match s.crew? uid with
    | some c => if c.inGang g g then .next (f c g) else .fault .noIssuer
    | none => .fault .noIssuer
  | .none | .cellar _ _ => .fault .noIssuer

/-! ## Taking a trap -/

/-- The handler address (R330). -/
def Crew.tvecAddr (c : Crew) : BitVec 64 := c.tvec ++ (0 : BitVec 2)

/-- A slice's part of the trap frame (R328). -/
def Slice.toFrame (x : Slice) : SliceFrame :=
  { pc := x.pc, active := x.active, stack := x.stack, gang := x.gang, wait := x.wait, region := x.region }

/-- A slice sent to the handler with all the lanes it has left and an empty stack (R328). -/
def Slice.toHandler (x : Slice) (tvec : BitVec 64) : Slice :=
  if x.live then
    { x with pc := tvec, active := ~~~x.exited, stack := [], wait := .none, la := [], slate := [], vlate := [], lateHit := false }
  else x

/-- Trap mode (R328): the frame is saved, TSTAT, TEPC and TVAL written, and every live slice sent to the handler in one gang. -/
def Crew.enterTrap (c : Crew) (g len : Nat) (t : TrapInfo) : Crew :=
  let moved : Crew := { c with
    frame := some { slices := c.slices.map Slice.toFrame, gang := g, len := len },
    trap := t, tm := true, mask := true, late := none, stopped := false,
    slices := c.slices.map fun x => x.toHandler c.tvecAddr }
  let c' := moved.groupAll
  { c' with turn := c'.gangs.headD 0 }

/-- The KIND 0 record of a faulted crew (R336). -/
def State.crewRec (s : State) (c : Crew) (t : TrapInfo) : RingRec :=
  let aux : BitVec 64 := match s.block? c.block with
    | some b => b.gridid ++ b.blkid
    | none => 0
  { s.recAt c (RingRec.blank c.ctx 0) with
    val := t.val, pc := t.epc, aux := aux, cause := t.cause, detail := t.detail, level := t.level, mc := withCheck t.cause,
    lane := t.lane, crew := some c.uid }

/-- Open LA windows close and the marks of late faults are dropped (R131, R327). -/
def Crew.halt (c : Crew) : Crew :=
  { c with late := none, stopped := false,
           slices := c.slices.map fun x => { x with la := [], slate := [], vlate := [], lateHit := false } }

/-- A crew takes a trap (R326 to R330, R337). An earlier late fault of the crew was found first and decides (R327). In trap mode
any trap is a double trap. Causes of the driver route, and every cause when TVEC is 0, leave the crew faulted with a record for
the driver; the others enter trap mode, where a TVEC that is not canonical is a double trap too. -/
def State.takeTrap (s : State) (uid g len : Nat) (t : TrapInfo) : State :=
  match s.crew? uid with
  | none => s
  | some c =>
    let t' := c.late.getD t
    let g' := if c.late.isSome then c.lateGang else g
    -- ECC and TIMEOUT come with a machine check of the place the error was met; the failure of a core and the time-out of a recall have
    -- already made theirs (R326, R352, R366, R370)
    let s := match t'.err with
      | some e => s.machineCheck 1 e.src e.die e.addr
      | none => s
    let s := s.dequeue (·.crew == uid)
    if c.tm then s.forcedReset c.ctx 2 0
    else if driverRoute t'.cause || c.tvec == 0 then
      if (s.pdevOf c.ctx).any PDev.fqEn then
        (s.setCrew { c.halt with faulted := some t' }).queueRec (s.firstDie c.ctx) (s.crewRec c t')
      else s.forcedReset c.ctx 4 0
    else if !canonical c.tvecAddr then s.forcedReset c.ctx 2 0
    else s.setCrew (c.enterTrap g' len t')

/-- A precise trap at the gang's instruction, of `len` bytes, with a value for TVAL. -/
def State.trap (s : State) (c : Crew) (g len : Nat) (cause : BitVec 8) (val : BitVec 64) : State :=
  s.takeTrap c.uid g len
    { cause := cause, late := false, lane := 0, detail := 0, level := 0, epc := c.gangPc g, val := val }

/-- The late fault of a crew is taken (R39, R326): the instruction whose check failed has already issued. -/
def State.takeLate (s : State) (uid : Nat) : State :=
  match s.crew? uid with
  | none => s
  | some c =>
    match c.late with
    | none => s
    | some t => s.takeTrap uid c.lateGang 0 t

/-! ## Return from a trap (R332) -/

/-- What a slice still waits at when it resumes (R332): an arrival at a phase has been made and a SLEEP has its deadline, so those
go on; any other wait is repeated by the instruction at the saved pc (DEDUCED, log 28). -/
def resumedWait : Wait → Wait
  | .phase d n r => .phase d n r
  | .sleep t => .sleep t
  | .none | .regang _ | .barwait _ _ _ | .waitany _ => .none

/-- A slice back at its saved place, with no open LA window (R131); lanes that exited meanwhile stay exited (R25). -/
def Slice.fromFrame (x : Slice) (f : SliceFrame) : Slice :=
  if x.live then
    { x with pc := f.pc, active := f.active &&& ~~~x.exited,
             stack := f.stack.map (fun e => { e with mask := e.mask &&& ~~~x.exited }), gang := f.gang, wait := resumedWait f.wait,
             region := f.region, la := [] }
  else { x with region := f.region }

/-- Every slice with its part of the frame. -/
def Crew.zipFrame (c : Crew) (f : Frame) (k : Slice → SliceFrame → Slice) : List Slice :=
  c.slices.mapIdx fun i x =>
    match f.slices[i]? with
    | some fr => k x fr
    | none => x

/-- The crew stops for a hard pre-emption: every wait ends without completing (R340); a SLEEP's deadline is kept (R171, R341). -/
def Crew.preempt (c : Crew) : Crew :=
  let stop := fun (x : Slice) => match x.wait with
    | .sleep _ => x
    | .none | .regang _ | .barwait _ _ _ | .phase _ _ _ | .waitany _ => { x with wait := .none }
  { c.halt with preempted := true, held := false, slices := c.halt.slices.map stop }

/-- TRAPRET (R332). -/
def Crew.trapReturn (c : Crew) (m : RetMode) : Crew :=
  match c.frame with
  | none => c
  | some f =>
    let back : Crew :=
      if m == .reg || c.trap.late then
        Crew.restart { c with slices := c.zipFrame f fun x fr => { x with region := fr.region } }
      else
        let next := c.trap.epc + BitVec.ofNat 64 f.len
        Crew.groupBy { c with slices := c.zipFrame f fun x fr =>
            let y := x.fromFrame fr
            if m == RetMode.next && fr.gang == f.gang && y.live then { y with pc := next, wait := .none } else y }
          fun _ x => x.gang
    let done := { back with tm := false, mask := false, frame := none, turn := back.gangs.headD 0 }
    if c.held then done.preempt else done

/-! ## Late faults (R39, R326) -/

/-- An access of a gang's instruction faults after issue: the first fault of the crew is kept; every slice with a participating
lane, and every slice of the gang where scalars would have been written, remembers that it faulted and which registers the access
would have written. -/
def State.lateFault (s : State) (c : Crew) (g : Nat) (lanes vregs sregs : List Nat) (t : TrapInfo) : State :=
  let mark := fun (i : Nat) (x : Slice) =>
    if (slicesOf lanes).contains i || (!sregs.isEmpty && c.inGang g i) then
      { x with lateHit := true, slate := x.slate ++ sregs,
               vlate := x.vlate ++ ((lanes.filter (· / 4 == i)).flatMap fun l => vregs.map (vkey l)) }
    else x
  s.setCrew { c with slices := c.slices.mapIdx mark, late := some (c.late.getD t),
                     lateGang := if c.late.isSome then c.lateGang else g }

/-! ## Meetings at REGANG (R22) -/

/-- The addresses at which live slices wait, ascending by slice; none if one does not wait at a REGANG. -/
def Crew.regangAddrs (c : Crew) : Option (List (BitVec 64)) :=
  (c.liveSlices.mapM fun i =>
    match c.slices[i]? with
    | some x => match x.wait with
      | .regang a => some a
      | .none | .barwait _ _ _ | .phase _ _ _ | .waitany _ | .sleep _ => none
    | none => none)

/-- When every live slice waits at a REGANG: one gang that goes on past it and starts a region if they stand at one address,
else the crew traps with GANG at the last to arrive, `epc` of gang g (R22, R38, R170). -/
def State.meet (s : State) (uid g : Nat) (epc : BitVec 64) : State :=
  match s.crew? uid with
  | none => s
  | some c =>
    match c.regangAddrs with
    | none | some [] => s
    | some (a :: as) =>
      if as.all (· == a) then
        let moved : Crew :=
          { c with slices := c.slices.map fun x => if x.live then { x with wait := .none, pc := a + 4 } else x }
        let c' := moved.groupAll
        (s.setCrew c').startRegion uid (c'.gangs.headD 0)
      else
        s.takeTrap uid g 4 { cause := cGANG, late := false, lane := 0, detail := 0, level := 0, epc := epc, val := a }

end Sys2Proof.Machine
end

