-- ==== Sys2Proof/Machine/Flags.lean ====
section
/-!
DEFINITION. The floating-point control registers: the mode an instruction rounds in (03 R46, R49), what a write of fflags or frm
leaves (03 R49, 07 R174), and lifting a code with flags to words with flags (03 R48, R50).
-/
namespace Sys2Proof.Machine

/-- The mode of a code of frm; 0b101 to 0b111 are never held (R49). -/
def modeOf (frm : BitVec 3) : RMode :=
  match frm.toNat with
  | 1 => .rn | 2 => .rz | 3 => .ru | 4 => .rd | _ => .rne

/-- The mode an instruction's modifier selects (R46). -/
def Crew.rmode (c : Crew) : Rm → RMode
  | .rne => .rne | .rn => .rn | .rz => .rz | .ru => .ru | .rd => .rd | .rdyn => modeOf c.frm

/-- A write of fflags replaces the five flags; reserved bits ignore it (R49, R50). -/
def Crew.writeFflags (c : Crew) (w : Word) : Crew := { c with fflags := w.extractLsb' 0 5 }

/-- A write of frm; codes 0b101 to 0b111 leave MODE unchanged (R49). -/
def Crew.writeFrm (c : Crew) (w : Word) : Crew :=
  if (w.extractLsb' 0 3).toNat < 5 then { c with frm := w.extractLsb' 0 3 } else c

/-- A write of emask (R134). -/
def Crew.writeEmask (c : Crew) (w : Word) : Crew := { c with emask := w.extractLsb' 0 8 }

/-- No flags. -/
def quiet (ws : List Word) : List Word × BitVec 5 := (ws, 0)

/-- A 32-bit code with its flags as a result. -/
def FRes.w32 (r : FRes) : List Word × BitVec 5 := ([BitVec.ofNat 32 r.1], r.2)

/-- A 64-bit code with its flags as a pair. -/
def FRes.w64 (r : FRes) : List Word × BitVec 5 := (words2 (BitVec.ofNat 64 r.1), r.2)

/-- Two 16-bit results packed in one word, the flags of both halves (R156). -/
def pack2 (lo hi : FRes) : List Word × BitVec 5 := ([BitVec.ofNat 32 (lo.1 + 2 ^ 16 * hi.1)], lo.2 ||| hi.2)

/-- The 16-bit halves of a word. -/
def half0 (w : Word) : Nat := w.toNat % 2 ^ 16
def half1 (w : Word) : Nat := w.toNat / 2 ^ 16

end Sys2Proof.Machine
end

