-- ==== Sys2Proof/Machine/Operands.lean ====
section
/-!
DEFINITION. Every operand form an instruction reads (06 R121, R125, R133; 07 R145 to R149): registers of the file U selects,
pairs, immediates and literals, as lane l or its slice sees them.
-/
namespace Sys2Proof.Machine

/-- B of a 32-bit or packed operation (R125). -/
def Crew.b32 (c : Crew) (u : Bool) (l : Nat) : SrcB → Word
  | .reg n => c.rget u l n.toNat
  | .imm v => v
  | .lit v => lo32 v

/-- B of a 64-bit operation: a pair, the sign-extended immediate, or the literal (R125). -/
def Crew.b64 (c : Crew) (u : Bool) (l : Nat) : SrcB → BitVec 64
  | .reg n => c.rget64 u l n.toNat
  | .imm v => v.signExtend 64
  | .lit v => v

/-- C of BFI, BYSEL and FSHR (R149). -/
def Crew.c32 (c : Crew) (u : Bool) (l : Nat) : SrcC → Word
  | .reg n => c.rget u l n.toNat
  | .imm v => v

/-- A scalar operand or immediate of a slice (R162, R171, R174). -/
def Crew.s32 (c : Crew) (slice : Nat) : SrcS → Word
  | .reg n => c.sget slice n.toNat
  | .imm v => v

/-- BCAST's operand as lane l sees it (R162). -/
def Crew.sl32 (c : Crew) (l : Nat) : SrcSL → Word
  | .reg n => c.sget (l / 4) n.toNat
  | .imm v => v
  | .lit v => lo32 v

/-- The data of a store or atomic of lane l: one word, or two (R175). -/
def Crew.data32 (c : Crew) (l : Nat) : SrcV → Word
  | .reg n => c.vget l n.toNat
  | .lit v => lo32 v
def Crew.data64 (c : Crew) (l : Nat) : SrcV → BitVec 64
  | .reg n => c.rget64 false l n.toNat
  | .lit v => v

/-- Four consecutive registers of a lane, as 128 bits. -/
def Crew.vget128 (c : Crew) (l n : Nat) : BitVec 128 := c.rget64 false l (n + 2) ++ c.rget64 false l n

/-- The effective address of a lane: base pair plus the signed offset modulo 2^64 (R121, R125, R176). -/
def Crew.ea (c : Crew) (l : Nat) (e : Ea) : BitVec 64 := c.rget64 e.u l e.a.toNat + e.off.signExtend 64

/-- The address of a slice-wide operand `[sA+imm]`, from the slice's own pair. -/
def Crew.sea (c : Crew) (slice : Nat) (a : BitVec 6) (off : BitVec 32) : BitVec 64 :=
  c.sget64 slice a.toNat + off.signExtend 64

/-! ## Shapes of the arithmetic instructions -/

/-- `OP D, A`, one word in, words out. -/
def unary (s : State) (o : DA) (f : Word → List Word × BitVec 5) : Out :=
  asGang s fun c g => s.setCrew (c.alu g o.h o.u o.d.toNat fun l => f (c.rget o.u l o.a.toNat))

/-- `OP D, A, B/imm`, 32-bit. -/
def binary (s : State) (o : DAB) (f : Word → Word → List Word × BitVec 5) : Out :=
  asGang s fun c g => s.setCrew (c.alu g o.h o.u o.d.toNat fun l => f (c.rget o.u l o.a.toNat) (c.b32 o.u l o.b))

/-- `OP D pair, A pair, B pair/imm`. -/
def binary64 (s : State) (o : DAB) (f : BitVec 64 → BitVec 64 → BitVec 64) : Out :=
  asGang s fun c g => s.setCrew (c.alu g o.h o.u o.d.toNat fun l =>
    quiet (words2 (f (c.rget64 o.u l o.a.toNat) (c.b64 o.u l o.b))))

/-- `OP D pair, A pair, B/imm`, B of 32 bits. -/
def binary64by32 (s : State) (o : DAB) (f : BitVec 64 → Word → List Word × BitVec 5) : Out :=
  asGang s fun c g => s.setCrew (c.alu g o.h o.u o.d.toNat fun l => f (c.rget64 o.u l o.a.toNat) (c.b32 o.u l o.b))

/-- `OP D, A, B/imm, C`. -/
def ternary (s : State) (o : DABC) (f : Word → Word → Word → List Word × BitVec 5) : Out :=
  asGang s fun c g => s.setCrew (c.alu g o.h o.u o.d.toNat fun l =>
    f (c.rget o.u l o.a.toNat) (c.b32 o.u l o.b) (c.rget o.u l o.c.toNat))

/-- `OP D pair, A, B/imm, C pair`. -/
def ternaryWide (s : State) (o : DABC) (f : Word → Word → BitVec 64 → BitVec 64) : Out :=
  asGang s fun c g => s.setCrew (c.alu g o.h o.u o.d.toNat fun l =>
    quiet (words2 (f (c.rget o.u l o.a.toNat) (c.b32 o.u l o.b) (c.rget64 o.u l o.c.toNat))))

/-- `OP D, A, B, C/imm`. -/
def ternaryCi (s : State) (o : DABCi) (f : Word → Word → Word → Word) : Out :=
  asGang s fun c g => s.setCrew (c.alu g o.h o.u o.d.toNat fun l =>
    quiet [f (c.rget o.u l o.a.toNat) (c.rget o.u l o.b.toNat) (c.c32 o.u l o.c)])

/-- A comparison into a predicate. -/
def compare32 (s : State) (h : Hdr) (u : Bool) (pd : BitVec 4) (a : BitVec 7) (b : SrcB) (f : Word → Word → Bool × BitVec 5) :
    Out :=
  asGang s fun c g => s.setCrew (c.aluP g h u pd.toNat fun l => f (c.rget u l a.toNat) (c.b32 u l b))

/-- `OP{.round} D, A`. -/
def unaryR (s : State) (o : DAR) (f : RMode → Word → List Word × BitVec 5) : Out :=
  asGang s fun c g => s.setCrew (c.alu g o.h o.u o.d.toNat fun l => f (c.rmode o.rm) (c.rget o.u l o.a.toNat))

/-- `OP{.round} D, A pair`. -/
def unaryR64 (s : State) (o : DAR) (f : RMode → BitVec 64 → List Word × BitVec 5) : Out :=
  asGang s fun c g => s.setCrew (c.alu g o.h o.u o.d.toNat fun l => f (c.rmode o.rm) (c.rget64 o.u l o.a.toNat))

/-- `OP{.round} D, A, B/imm`. -/
def binaryR (s : State) (o : DABR) (f : RMode → Word → Word → List Word × BitVec 5) : Out :=
  asGang s fun c g => s.setCrew (c.alu g o.h o.u o.d.toNat fun l =>
    f (c.rmode o.rm) (c.rget o.u l o.a.toNat) (c.b32 o.u l o.b))

/-- `OP{.round} D pair, A pair, B pair`. -/
def binaryR64 (s : State) (o : DABR) (f : RMode → BitVec 64 → BitVec 64 → List Word × BitVec 5) : Out :=
  asGang s fun c g => s.setCrew (c.alu g o.h o.u o.d.toNat fun l =>
    f (c.rmode o.rm) (c.rget64 o.u l o.a.toNat) (c.b64 o.u l o.b))

/-- `OP{.round} D, A, B/imm, C`. -/
def ternaryR (s : State) (o : DABCR) (f : RMode → Word → Word → Word → List Word × BitVec 5) : Out :=
  asGang s fun c g => s.setCrew (c.alu g o.h o.u o.d.toNat fun l =>
    f (c.rmode o.rm) (c.rget o.u l o.a.toNat) (c.b32 o.u l o.b) (c.rget o.u l o.c.toNat))

/-- `OP{.round} D pair, A pair, B pair, C pair`. -/
def ternaryR64 (s : State) (o : DABCR) (f : RMode → BitVec 64 → BitVec 64 → BitVec 64 → List Word × BitVec 5) : Out :=
  asGang s fun c g => s.setCrew (c.alu g o.h o.u o.d.toNat fun l =>
    f (c.rmode o.rm) (c.rget64 o.u l o.a.toNat) (c.b64 o.u l o.b) (c.rget64 o.u l o.c.toNat))

end Sys2Proof.Machine
end

