-- ==== Sys2Proof/Machine/Agents.lean ====
section
/-!
DEFINITION. Reads and writes of the agents that are no crew: the trellis, the collective engines, the host and the security
processor. They go to the homes (05 R84, R89) and allocate nothing.
-/
namespace Sys2Proof.Machine

/-- What a device agent's virtual address reaches (15 R299, R305; 18 R351); `hold` waits at its home (R116, R324). -/
inductive AgT where
  | dram (loc key kind : Nat)
  | hold (loc key pa : Nat)
  | host (win off : Nat)
  | rmt (node : BitVec 10) (pa : Nat)
  | chip (die core off : Nat)
  | bad (cause detail : BitVec 8) (level : Nat)
  | collapse (line : Nat)
  | wait
  deriving DecidableEq, Repr

/-- A virtual address of a context for a device agent. -/
def State.agentTo (s : State) (ag : Agent) (x : Ctx) (va : BitVec 64) (write : Bool) : AgT :=
  if !canonical va then .bad cPROT 0 0
  else if s.rewriteHolds ag x 0 va then .wait
  else
    match s.reach ag x 0 va write false (fun _ => true) with
    | .error (.fault k d l) => .bad k d l
    | .error (.collapse line) => .collapse line
    | .error .wait => .wait
    | .ok (.dram _ loc key pa, held) => if held then .hold loc key pa else .dram loc key (x.rKind va)
    | .ok (.host w o, _) => if write && !(s.hwin x.id w).wr then .bad cPROT 0 0 else .host w o
    | .ok (.rmt n pa, _) => if s.pathSpent 0 n pa then .bad cPROT 0 0 else .rmt n pa
    | .ok (.chip d k o, _) => .chip d k o

/-- n bytes of a line through its home, at no cache (R89): none while a collapse awaits contributions. -/
def State.homeRead (s : State) (loc n key rto : Nat) : Option (Nat × State) :=
  match s.settle none (loc / 128) rto with
  | (false, _) => none
  | (true, t) => some (lineGet (t.homeVal (loc / 128) key) (loc % 128) n, t.reKey (loc / 128) key)

/-- n bytes of a line written at its home; a whole line clears its poison (R369). -/
def State.homeWrite (s : State) (loc n key x rto : Nat) : Option State :=
  match s.settle none (loc / 128) rto with
  | (false, _) => none
  | (true, t) =>
    let u := t.reKey (loc / 128) key
    let v := u.putHome (loc / 128) key (lineSet (u.homeVal (loc / 128) key) (loc % 128) n x)
    some (if n = 128 then v.cureCopies (loc / 128) else v)

/-- The same by the kind of the region: in an UNCACHED one the write is performed in DRAM and no cache keeps it (R75). -/
def State.homeWriteAs (s : State) (kind loc n key x rto : Nat) : Option State :=
  if kind = 2 then
    match s.settle none (loc / 128) rto with
    | (false, _) => none
    | (true, t) => some ((t.flushLine (loc / 128)).rawWrite loc n key x)
  else s.homeWrite loc n key x rto

/-- How an agent's access ends. -/
inductive Agd where
  | ok (x : Nat) (s : State)
  | bad (cause detail : BitVec 8) (level : Nat) (s : State)
  | wait (s : State)
  deriving DecidableEq, Repr

/-- The state in which a device agent waits for a line, with the recall it needs sent; an expired recall ends its access (R352). -/
def State.agentWait (s : State) (line rto : Nat) : Agd :=
  if s.expired line then .bad cTIMEOUT 0 0 (s.forgetRecall line) else .wait (s.settle none line rto).2

/-- An agent's access has been performed: it waits no more. -/
def State.agentDone (s : State) (ag : Agent) (x : Ctx) (va : BitVec 64) : State := s.dequeue (·.is ag x.id 0 va)

/-- An ECC that no crew takes comes with a machine check of the place the error lies (R326, R366, R369). -/
def State.eccCheck (s : State) (line : Nat) : State :=
  let e : ErrAt := match s.caches.find? fun e => e.line == line && e.bad with
    | some e =>
      match e.place with
      | .l1 k => ⟨0, k / 32, 0⟩
      | .l2 d | .va d | .park d _ => ⟨1, d, 0⟩
    | none => ⟨2, lineHome line, 0⟩
  s.machineCheck 1 e.src e.die e.addr

/-- A host's answer to an agent: ECC and TIMEOUT come with a machine check (R348). -/
def State.hostAnswer (s : State) (n : Nat) : Agd :=
  match s.hostEnds n with
  | (.data x, t) => .ok x t
  | (.failed k, t) => .bad k 0 0 (if k == cPROT then t else t.machineCheck 1 6 0 0)

/-! ## Peers of the same package (R14, R350) -/

/-- The presented device of this package with a node id. -/
def State.peerOf (s : State) (node : BitVec 10) : Option PDev := s.pdevs.find? fun p => Config.nodeId p.first == node

end Sys2Proof.Machine
end

