-- ==== Sys2Proof/Machine/Peers.lean ====
section
/-!
DEFINITION. Accesses at physical addresses, the access-control table (15 R298), requests that peers make of a context (18 R351), the
internal switch between presented devices of one package (01 R14; 18 R350), and the accesses of device agents, which may go through
it.
-/
namespace Sys2Proof.Machine

/-! ## Physical addresses -/

/-- The location lies on a presented device. -/
def State.onDev (s : State) (first loc : Nat) : Bool :=
  (s.pdev? first).any fun p => p.first ≤ homeDie loc && homeDie loc < p.first + p.dies

/-- n bytes at a device physical address, within one line, read with slot 0 (R293, R320, R345). `first` names the device whose host
windows apply; `own` says that the address is a context's, which reaches no other device's memory (R15). -/
def State.physRead (s : State) (first : Nat) (own : Bool) (pa n : Nat) : Agd :=
  match physOf pa with
  | .dram _ loc0 =>
    let loc := s.forward loc0
    if own && !s.onDev first loc then .bad cPROT 0x06 0 s
    else if s.homeHolds .trellis loc then .wait s
    else if s.poisoned (loc / 128) then .bad cECC 0 0 (s.eccCheck (loc / 128))
    else
      match s.homeRead loc n s.deviceKey (s.lineRto (loc / 128)) with
      | some (v, t) => .ok v t
      | none => s.agentWait (loc / 128) (s.lineRto (loc / 128))
  | .host w o => if (s.hwinOf first w).en then (s.hostAsk first w o n).hostAnswer n else .bad cPAGE 0 0 s
  | .chip _ _ _ => .bad cPROT 0 0 s
  | .none => .bad cPAGE 0x03 0 s

/-- n bytes written at a device physical address. -/
def State.physWrite (s : State) (first : Nat) (own : Bool) (pa n x : Nat) : Agd :=
  match physOf pa with
  | .dram _ loc0 =>
    let loc := s.forward loc0
    if own && !s.onDev first loc then .bad cPROT 0x06 0 s
    else if s.homeHolds .trellis loc then .wait s
    else
      match s.homeWrite loc n s.deviceKey x (s.lineRto (loc / 128)) with
      | some t => .ok 0 t
      | none => s.agentWait (loc / 128) (s.lineRto (loc / 128))
  | .host w o =>
    if !(s.hwinOf first w).en then .bad cPAGE 0 0 s
    else if !(s.hwinOf first w).wr then .bad cPROT 0 0 s
    else .ok 0 (s.hostPut first w o (toBytes n x))
  | .chip _ _ _ => .bad cPROT 0 0 s
  | .none => .bad cPAGE 0x03 0 s

/-! ## Access control (R298) -/

/-- An entry of the table that governs a node. -/
def aclGoverns (e : BitVec 64) (src : BitVec 10) : Bool :=
  e.getLsbD 63 && (src ^^^ e.extractLsb' 0 10) &&& ~~~(e.extractLsb' 10 10) == 0

/-- How a search of the table ends: the governing entry if there is one, a failure to read it, or a wait. -/
inductive AclFound where
  | entry (e : Option (BitVec 64)) (s : State)
  | bad (cause : BitVec 8) (s : State)
  | wait (s : State)

/-- The governing entry, read now: n entries from number i on. -/
def State.aclFind (s : State) (x : Ctx) (src : BitVec 10) : Nat → Nat → AclFound
  | 0, _ => .entry none s
  | n + 1, i =>
    match s.physRead x.pdev true (x.aclt + 8 * i) 8 with
    | .wait t => .wait t
    | .bad k _ _ t => .bad k t
    | .ok v t =>
      let e := BitVec.ofNat 64 v
      if aclGoverns e src then .entry (some e) t else t.aclFind x src n (i + 1)

/-- Where an agent finds an address of a context, if it is DRAM. -/
def State.placeOf (s : State) (ag : Agent) (x : Ctx) (va : BitVec 64) : Option Nat :=
  match s.agentTo ag x va false with
  | .dram loc _ _ | .hold loc _ _ => some loc
  | .host _ _ | .rmt _ _ | .chip _ _ _ | .bad _ _ _ | .collapse _ | .wait => none

/-- n bytes at an address, as pieces that cross no line. -/
def linePieces : Nat → BitVec 64 → Nat → List (BitVec 64 × Nat)
  | 0, _, _ => []
  | fuel + 1, a, n =>
    if n = 0 then []
    else
      let k := min n (128 - a.toNat % 128)
      (a, k) :: linePieces fuel (a + BitVec.ofNat 64 k) (n - k)

/-- The bytes touch a doorbell word whose queue the entry does not open to the peer, by their addresses or through another mapping of
its memory. -/
def State.doorShut (s : State) (x : Ctx) (e : BitVec 64) (va : BitVec 64) (n : Nat) : Bool :=
  (x.queues.mapIdx fun q d => (q, d)).any fun p =>
    !(p.2.peer && e.getLsbD (20 + p.1)) &&
      ((decide (p.2.door.toNat < va.toNat + n) && decide (va.toNat < p.2.door.toNat + 8)) ||
       match s.placeOf .scafa x p.2.door with
       | none => false
       | some d => (linePieces (n / 128 + 2) va n).any fun c =>
           (s.placeOf .scafa x c.1).any fun a => decide (d < a + c.2) && decide (a < d + 8))

/-- How the table answers a peer's access. -/
inductive AclEnd where
  | open (s : State)
  | refused (cause : BitVec 8) (s : State)
  | wait (s : State)

/-- Whether a peer's access is let in: `rd` and `wr` say what it does to n bytes. -/
def State.aclOk (s : State) (x : Ctx) (src : BitVec 10) (va : BitVec 64) (n : Nat) (rd wr : Bool) : AclEnd :=
  match s.aclFind x src x.acln 0 with
  | .wait t => .wait t
  | .bad k t => .refused k t
  | .entry none t => .refused cPROT t
  | .entry (some e) t =>
    if !x.dead && (!rd || e.getLsbD 36) && (!wr || (e.getLsbD 37 && !t.doorShut x e va n)) then .open t else .refused cPROT t

/-! ## What a node does for an agent at its own memory -/

/-- n bytes at a virtual address, within one line, read at this device. -/
def State.hereRead (s : State) (ag : Agent) (x : Ctx) (va : BitVec 64) (n : Nat) : Agd :=
  match s.agentTo ag x va false with
  | .bad k d l => .bad k d l s
  | .wait => .wait s
  | .hold loc key pa => .wait (s.enqueue ag x.id 0 0 va loc key pa)
  | .collapse line => s.agentWait line (s.rto x.id)
  | .dram loc key _ =>
    if s.poisoned (loc / 128) then .bad cECC 0 0 (s.eccCheck (loc / 128))
    else
      match s.homeRead loc n key (s.rto x.id) with
      | some (v, t) => .ok v (t.agentDone ag x va)
      | none => s.agentWait (loc / 128) (s.rto x.id)
  | .host w o => (s.hostAsk x.pdev w o n).hostAnswer n
  | .rmt _ _ | .chip _ _ _ => .bad cPROT 0 0 s

/-- n bytes of v written at a virtual address of this device. -/
def State.hereWrite (s : State) (ag : Agent) (x : Ctx) (va : BitVec 64) (n v : Nat) : Agd :=
  match s.agentTo ag x va true with
  | .bad k d l => .bad k d l s
  | .wait => .wait s
  | .hold loc key pa => .wait (s.enqueue ag x.id 0 0 va loc key pa)
  | .collapse line => s.agentWait line (s.rto x.id)
  | .dram loc key kind =>
    match s.homeWriteAs kind loc n key v (s.rto x.id) with
    | some t => .ok 0 (t.agentDone ag x va)
    | none => s.agentWait (loc / 128) (s.rto x.id)
  | .host w o => .ok 0 (s.hostPut x.pdev w o (toBytes n v))
  | .rmt _ _ | .chip _ _ _ => .bad cPROT 0 0 s

/-- Pieces read one after another, the first lowest. -/
def State.readPieces (f : State → BitVec 64 → Nat → Agd) : List (BitVec 64 × Nat) → State → Agd
  | [], s => .ok 0 s
  | (a, k) :: rest, s =>
    match f s a k with
    | .ok v s =>
      match State.readPieces f rest s with
      | .ok w s => .ok (v + 2 ^ (8 * k) * w) s
      | r => r
    | r => r

/-- Pieces of v written one after another. -/
def State.writePieces (f : State → BitVec 64 → Nat → Nat → Agd) : List (BitVec 64 × Nat) → State → Nat → Agd
  | [], s, _ => .ok 0 s
  | (a, k) :: rest, s, v =>
    match f s a k (v % 2 ^ (8 * k)) with
    | .ok _ s => State.writePieces f rest s (v / 2 ^ (8 * k))
    | r => r

/-- n bytes at an address, line by line. -/
def State.hereReadN (s : State) (ag : Agent) (x : Ctx) (a : BitVec 64) (n : Nat) : Agd :=
  State.readPieces (fun s a k => s.hereRead ag x a k) (linePieces (n / 128 + 2) a n) s
def State.hereWriteN (s : State) (ag : Agent) (x : Ctx) (a : BitVec 64) (n v : Nat) : Agd :=
  State.writePieces (fun s a k v => s.hereWrite ag x a k v) (linePieces (n / 128 + 2) a n) s v

/-! ## Registrations of nodes (R82, R191, R352) -/

/-- A node recorded at a home: by id while there are at most eight, then by groups of 16 (R82). -/
def ULine.addNode (u : ULine) (n : BitVec 10) : ULine :=
  let grp := fun (k : BitVec 10) => k.extractLsb' 4 6
  if u.groups.isEmpty then
    if u.nodes.contains n then u
    else if u.nodes.length < 8 then { u with nodes := u.nodes ++ [n] }
    else { u with nodes := [], groups := ((u.nodes ++ [n]).map grp).foldl (fun gs g => if gs.contains g then gs else gs ++ [g]) [] }
  else if u.groups.contains (grp n) then u
  else { u with groups := u.groups ++ [grp n] }

/-- A node's registration at a local line's home: none while a collapse it needs awaits contributions (R191, R352). -/
def State.registerNode (s : State) (line key : Nat) (op : UOp) (n : BitVec 10) : Option State :=
  let start := fun (t : State) (home : LineData) (dirty bad : Bool) =>
    { t with ulines := t.ulines ++ [{ line := line, op := op, home := home, dirty := dirty, key := key, l1s := [],
                                      nodes := [n], groups := [], back := [], bad := bad }] }
  match s.uline? line with
  | some u =>
    if u.op == op && u.key == key then
      if u.back.any (·.1 == n) then none else some (s.modULine line (·.addNode n))
    else
      let (u, s) := s.gather u
      if u.ready then
        let t := (s.collapse u).reKey line key
        some (start (t.dropPlain line) (t.homeVal line key) true (t.poisoned line))
      else none
  | none =>
    let t := s.flushLine line
    some (start t (t.dramLine line key) false (t.storeBad line))

/-! ## Peer requests (R298, R351) -/

/-- What a peer's request does: reads, writes, and the bytes it touches. -/
def peerShape : PeerKind → Bool × Bool × Nat
  | .read n => (true, false, n)
  | .write d => (false, true, d.length)
  | .rmw r => (true, true, rmwBytes r)
  | .reg op => (false, true, uBytes op)
  | .snap op => (true, true, uBytes op)
  | .range _ => (false, false, 1)

/-- A request about a COHERENT line of DRAM, at its home. -/
def State.atLine (s : State) (x : Ctx) (va : BitVec 64) (write : Bool) (f : Nat → Nat → Option (Nat × State)) : Agd :=
  match s.agentTo .scafa x va write with
  | .dram loc key kind =>
    if kind != 0 then .bad cPROT 0x07 0 s
    else
      match f (loc / 128) key with
      | some (v, t) => .ok v (t.agentDone .scafa x va)
      | none => s.agentWait (loc / 128) (s.rto x.id)
  | .hold loc key pa => .wait (s.enqueue .scafa x.id 0 0 va loc key pa)
  | .host _ _ | .rmt _ _ | .chip _ _ _ => .bad cPROT 0 0 s
  | .bad k d l => .bad k d l s
  | .collapse line => s.agentWait line (s.rto x.id)
  | .wait => .wait s

/-- A request that has been let in: `.ok` gives the bytes to answer with, for USNAP those of the whole line. -/
def State.peerDo (s : State) (src : BitVec 10) (x : Ctx) (va : BitVec 64) (kind : PeerKind) : Agd :=
  match kind with
  | .read n => s.hereReadN .scafa x va n
  | .write d => s.hereWriteN .scafa x va d.length (ofBytes d)
  | .rmw r =>
    if va.toNat % rmwBytes r != 0 then .bad cMISALIGN 0 0 s
    else if x.rKind va = 1 then .bad cPROT 0x07 0 s
    else
      match s.agentTo .scafa x va true with
      | .host _ _ => .bad cPROT 0 0 s
      | .bad k d l => .bad k d l s
      | .dram _ _ _ | .hold _ _ _ | .rmt _ _ | .chip _ _ _ | .collapse _ | .wait =>
        match s.hereRead .scafa x va (rmwBytes r) with
        | .ok old t =>
          match rmwApply r old with
          | none => .ok old t
          | some new =>
            match t.hereWrite .scafa x va (rmwBytes r) new with
            | .ok _ t => .ok old t
            | e => e
        | e => e
  | .reg op => s.atLine x va true fun line key => (s.registerNode line key op src).map fun t => (0, t)
  | .snap op => s.atLine x va true fun line key => (s.snapHome none line key op (s.rto x.id)).map fun r => (r.1.toNat, r.2)
  | .range op => s.atLine x va false fun line _ => (s.rangeHome none line op (s.rto x.id)).map fun t => (0, t)

/-! ## The internal switch (R14, R350) -/

/-- The context of a presented device that a packet from context `own` reaches. -/
def State.peerTarget (s : State) (own : Nat) (p : PDev) (pa : Nat) : Option Ctx :=
  let xs := s.ctxs.filter fun x => x.pdev == p.first
  xs[Config.peerCtx (Config.nodeId p.first) pa own % xs.length]?

/-- A request of context `own` to another presented device of the package: let in by its table, and performed there. -/
def State.peerCall (s : State) (own : Nat) (p : PDev) (pa : Nat) (kind : PeerKind) : Agd :=
  let src := Config.nodeId (s.firstDie own)
  match s.peerTarget own p pa with
  | none => .bad cPROT 0 0 s
  | some y =>
    let va := BitVec.ofNat 64 pa
    match s.aclOk y src va (peerShape kind).2.2 (peerShape kind).1 (peerShape kind).2.1 with
    | .open t => t.peerDo src y va kind
    | .refused k t => .bad k 0 0 t
    | .wait t => .wait t

/-- The line at which such a request waits for other nodes. -/
def State.peerLine (s : State) (own : Nat) (p : PDev) (pa : Nat) : Option Nat :=
  (s.peerTarget own p pa).bind fun y => (s.placeOf .scafa y (BitVec.ofNat 64 pa)).map (· / 128)

/-! ## Device agents -/

/-- n bytes at a virtual address, within one line, read by a device agent. Memory outside the package gives bytes that the spec leaves
open (log 13). -/
def State.agentRead (s : State) (ag : Agent) (x : Ctx) (va : BitVec 64) (n : Nat) : Agd :=
  match s.agentTo ag x va false with
  | .rmt node pa =>
    match s.peerOf node with
    | some p => s.peerCall x.id p pa (.read n)
    | none => .ok (s.freeWord.1.toNat % 2 ^ (8 * n)) (s.freeWord.2.sendScafa 0 node pa (.read n))
  | .dram _ _ _ | .hold _ _ _ | .host _ _ | .chip _ _ _ | .bad _ _ _ | .collapse _ | .wait => s.hereRead ag x va n

/-- n bytes of v written at a virtual address by a device agent. -/
def State.agentWrite (s : State) (ag : Agent) (x : Ctx) (va : BitVec 64) (n v : Nat) : Agd :=
  match s.agentTo ag x va true with
  | .rmt node pa =>
    match s.peerOf node with
    | some p => s.peerCall x.id p pa (.write (toBytes n v))
    | none => .ok 0 (s.sendBytes 0 node pa (toBytes n v) .write)
  | .dram _ _ _ | .hold _ _ _ | .host _ _ | .chip _ _ _ | .bad _ _ _ | .collapse _ | .wait => s.hereWrite ag x va n v

/-- n bytes at an address, line by line. -/
def State.agentReadN (s : State) (ag : Agent) (x : Ctx) (a : BitVec 64) (n : Nat) : Agd :=
  State.readPieces (fun s a k => s.agentRead ag x a k) (linePieces (n / 128 + 2) a n) s
def State.agentWriteN (s : State) (ag : Agent) (x : Ctx) (a : BitVec 64) (n v : Nat) : Agd :=
  State.writePieces (fun s a k v => s.agentWrite ag x a k v) (linePieces (n / 128 + 2) a n) s v

end Sys2Proof.Machine
end

