-- ==== Sys2Proof/Machine/Access.lean ====
section
/-!
DEFINITION. How a crew's memory instruction reaches memory: the checks of R177 lane by lane (with 02 R28; 04 R73, R78; 05 R101,
R110; 17 R331; 18 R348; 19 R369), reads and writes of what an address reaches, and the shared form of every memory instruction
(08 R175 to R178).
-/
namespace Sys2Proof.Machine

/-! ## Checks (R177) -/

/-- The sorts of access that rules tell apart. -/
inductive Sort_ where
  | load | store | atomic (hostOk : Bool) | redm | update | barrier | msend
  deriving DecidableEq, Repr

/-- An access: bytes, whether it needs W, sort, and whether it is relaxed at a scope that covers another die (R28). -/
structure Acc where
  size : Nat
  write : Bool
  sort : Sort_
  wide : Bool
  deriving DecidableEq, Repr

/-- What an access reaches once every check has passed. -/
inductive Target where
  | dram (loc key kind : Nat) (dom : BitVec 3) (pa : Nat)
  | scratch (core b : Nat)
  | mail (core slot : Nat)
  | host (win off : Nat)
  | rmt (node : BitVec 10) (pa : Nat)
  deriving DecidableEq, Repr

/-- How a lane's checks end; `hold` waits at the home of what it reaches, translated (R116, R324). -/
inductive Chk where
  | ok (t : Target)
  | hold (t : Target)
  | bad (cause detail : BitVec 8) (level : Nat)
  | collapse (line : Nat)
  | wait
  deriving DecidableEq, Repr

def Chk.prot : Chk := .bad cPROT 0 0

/-- Whether a scope covers the other dies (R28). -/
def wideScope : Scope → Bool
  | .dev | .sys => true
  | .crew | .blk | .clu | .die => false

/-- R78, R187, R188: the region kinds a sort of access may meet. -/
def kindOk (a : Acc) (root : Bool) (kind : Nat) : Bool :=
  match a.sort with
  | .load | .barrier | .msend => true
  | .store => root || kind == 0
  | .atomic _ => kind != 1
  | .redm => kind != 1
  | .update => kind == 0

/-- An access to the on-chip map (R27, R28, R71, R73, R110, R200). -/
def State.checkChip (s : State) (c : Crew) (a : Acc) (die core off : Nat) : Chk :=
  match s.chip c.ctx die core off with
  | none => .prot
  | some (_, .regs _) | some (_, .acc _) => .prot
  | some (k, .mail slot) => if a.sort == .msend then .ok (.mail k slot) else .prot
  | some (k, .scratch b) =>
    if a.sort == .msend || a.sort == .redm || a.sort == .update || (s.scratchOwner c.ctx k b a.size).isNone then .prot
    else if k / 32 == c.core / 32 then .ok (.scratch k b)
    else if (a.sort == .load || a.sort == .store) && a.wide then .ok (.scratch k b)
    else .prot

/-- An access to a host window (R348). -/
def State.checkHost (s : State) (c : Crew) (a : Acc) (win off : Nat) : Chk :=
  let w := s.hwin c.ctx win
  if a.write && !w.wr then .prot
  else
    match a.sort with
    | .load => .ok (.host win off)
    | .store => if c.hyp == 0 then .ok (.host win off) else .bad cHYPEFFECT 0 0
    | .atomic ok => if ok then .ok (.host win off) else .prot
    | .redm | .update | .barrier | .msend => .prot

/-- An access to peer memory; under a non-root hypothesis a store there has no effect (R101; log 19). -/
def State.checkRmt (s : State) (c : Crew) (a : Acc) (node : BitVec 10) (pa : Nat) : Chk :=
  if s.pathSpent 0 node pa then .prot
  else
  match a.sort with
  | .load | .atomic _ | .update => .ok (.rmt node pa)
  | .store => if c.hyp == 0 then .ok (.rmt node pa) else .bad cHYPEFFECT 0x07 0
  | .redm | .barrier | .msend => .prot

/-- Steps 2 to 6 of R177 for one address. -/
def State.checkAddr (s : State) (c : Crew) (a : Acc) (va : BitVec 64) : Chk :=
  if !canonical va then .prot
  else if va.toNat % a.size != 0 then .bad cMISALIGN 0 0
  else
    match s.ctx? c.ctx with
    | none => .prot
    | some x =>
      if s.rewriteHolds (.core c.core) x c.uid va then .wait
      else
        match s.reach (.core c.core) x c.uid va a.write false (kindOk a (c.hyp == 0)) with
        | .error (.fault cause d l) => .bad cause d l
        | .error (.collapse line) => .collapse line
        | .error .wait => .wait
        | .ok (.dram _ loc key pa, held) =>
          if a.sort == .msend || (a.sort == .barrier && x.rKind va != 0) then .prot
          else
            let t := Target.dram loc key (x.rKind va) (x.rDomain va) pa
            if held then .hold t else .ok t
        | .ok (.host w o, _) => s.checkHost c a w o
        | .ok (.rmt n pa, _) => s.checkRmt c a n pa
        | .ok (.chip d k o, _) => s.checkChip c a d k o

/-- A lane's address with what it reaches. -/
abbrev LaneTo := Nat × BitVec 64 × Target

/-- How the checks of all lanes end: the lowest failing lane decides (R177); `hold` lists the lanes that wait at a home. -/
inductive Chks where
  | ok (ls : List LaneTo)
  | hold (ls : List LaneTo)
  | bad (lane : Nat) (va : BitVec 64) (cause detail : BitVec 8) (level : Nat)
  | collapse (lane : Nat) (va : BitVec 64) (line : Nat)
  | wait
  deriving DecidableEq, Repr

/-- One more lane before lanes already checked. -/
def Chks.cons (x : LaneTo) (held : Bool) : Chks → Chks
  | .ok ts => if held then .hold [x] else .ok (x :: ts)
  | .hold ts => if held then .hold (x :: ts) else .hold ts
  | .bad l va k d v => .bad l va k d v
  | .collapse l va line => .collapse l va line
  | .wait => .wait

def State.checkLanes (s : State) (c : Crew) (a : Acc) : List (Nat × BitVec 64) → Chks
  | [] => .ok []
  | (l, va) :: rest =>
    match s.checkAddr c a va with
    | .bad k d v => .bad l va k d v
    | .collapse line => .collapse l va line
    | .wait => .wait
    | .ok t => (s.checkLanes c a rest).cons (l, va, t) false
    | .hold t => (s.checkLanes c a rest).cons (l, va, t) true

/-- The lanes that must wait join the queue of accesses at their homes (R318, R324). -/
def State.holdLanes (s : State) (c : Crew) (g : Nat) (ts : List LaneTo) : State :=
  ts.foldl (fun s t => match t.2.2 with
    | .dram loc key _ _ pa => s.enqueue (.core c.core) c.ctx c.uid g t.2.1 loc key pa
    | .scratch _ _ | .mail _ _ | .host _ _ | .rmt _ _ => s) s

/-- A gang's accesses have been performed, or will not be. -/
def State.unhold (s : State) (uid g : Nat) : State := s.dequeue fun w => w.crew == uid && w.gang == g && uid != 0

/-! ### Watch and poison (R331, R369) -/

/-- The watched range touches n bytes at an address. -/
def Crew.watched (c : Crew) (va : BitVec 64) (n : Nat) : Bool :=
  let k := if 47 < c.wk.toNat then 47 else c.wk.toNat
  let base := c.waddr.toNat / 2 ^ k * 2 ^ k
  base < va.toNat + n && va.toNat < base + 2 ^ k

/-- The first lane that a watch of this kind of access covers. -/
def Crew.watchHit (c : Crew) (rd wr : Bool) (n : Nat) (ls : List (Nat × BitVec 64)) : Option (Nat × BitVec 64) :=
  if (c.wrd && rd) || (c.wwr && wr) then ls.find? fun p => c.watched p.2 n else none

/-- The committed bytes that a core reads of a line hold an uncorrectable error: through its PHASED copy, at the home when
UNCACHED, folded from the copies of a U line, or in the nearest plain copy (R369). -/
def State.badFor (s : State) (core ctx line kind : Nat) : Bool :=
  match s.uline? line with
  | some u => u.bad || s.caches.any fun e => u.owns e && e.bad
  | none =>
    if kind = 1 then
      match (s.phased? core line ctx).filter (!·.gone) with
      | some e => e.bad
      | none => s.poisoned line
    else if kind = 2 then
      match s.dirtyOf line with
      | some e => e.bad
      | none => s.storeBad line
    else s.poisonedFor core line

/-- A crew that reads n bytes of a target meets an uncorrectable error. -/
def State.poisonedAt (s : State) (c : Crew) (n : Nat) : Target → Bool
  | .dram loc _ kind _ _ =>
    s.seeBad c.ctx (loc / 128) c.hyp (loc % 128) n (s.badFor c.core c.ctx (loc / 128) kind)
  | .scratch k b => (linesOf (scratchAddr k b) n).any s.storeBad
  | .mail _ _ | .host _ _ | .rmt _ _ => false

/-- Where the error lies, for the machine check (R366): the reader's L1, an L2 or version area, or the stack; a scratchpad is its
core's. -/
def State.errAt (s : State) (core : Nat) : Target → ErrAt
  | .dram loc _ _ _ pa =>
    match s.caches.find? fun e => e.line == loc / 128 && e.bad with
    | some e =>
      match e.place with
      | .l1 k => ⟨0, k / 32, pa⟩
      | .l2 d | .va d | .park d _ => ⟨1, d, pa⟩
    | none => ⟨2, homeDie loc, pa⟩
  | .scratch k _ => ⟨0, k / 32, 0⟩
  | .mail _ _ | .host _ _ | .rmt _ _ => ⟨0, core / 32, 0⟩

/-! ## Reading and writing a target -/

/-- The phase number that a PHASED line of a domain carries (R79). -/
def State.phaseNo (s : State) (ctx : Nat) (dom : BitVec 3) : BitVec 4 :=
  match s.ctx? ctx with
  | some x => (x.phase dom).count.extractLsb' 0 4
  | none => 0

/-- Before a PHASED access: a line that the L1 does not hold comes from its home, which collapses it first (R95, R178). -/
def State.settlePhased (s : State) (c : Crew) (line key : Nat) : Bool × State :=
  if ((s.phased? c.core line c.ctx).filter fun e => !e.gone && e.key == key).isSome then (true, s)
  else s.settle (some c.core) line (s.rto c.ctx)

/-- n bytes of a target as crew c reads them; `na` does not allocate. None when the crew waits for remote contributions. A host
window or a peer gives bytes that the spec leaves open (log 13). -/
def State.readTo (s : State) (c : Crew) (na : Bool) (t : Target) (n : Nat) : Option (Nat × State) :=
  match t with
  | .dram loc key kind dom _ =>
    if kind = 1 then
      match s.settlePhased c (loc / 128) key with
      | (false, _) => none
      | (true, s) =>
        let (d, t) := s.readPhased c.core c.uid c.ctx (loc / 128) key dom (s.phaseNo c.ctx dom) na
        some (lineGet (t.seeLine c.ctx (loc / 128) c.hyp d) (loc % 128) n, t)
    else
      match s.settle (some c.core) (loc / 128) (s.rto c.ctx) with
      | (false, _) => none
      | (true, s) =>
        if kind = 2 then
          let t := s.flushLine (loc / 128)
          some (lineGet (t.seeLine c.ctx (loc / 128) c.hyp (t.dramLine (loc / 128) key)) (loc % 128) n, t)
        else
          let (d, t) := if na then s.readNA c.core (loc / 128) key else s.fillL1 c.core (loc / 128) key
          some (lineGet (t.seeLine c.ctx (loc / 128) c.hyp d) (loc % 128) n, t)
  | .scratch k b => some (s.readMem (scratchAddr k b) n, s)
  | .mail _ _ => some (0, s)
  | .host w o => some ((s.freeWord.1).toNat % 2 ^ (8 * n), s.freeWord.2.hostAsk (s.firstDie c.ctx) w o n)
  | .rmt node pa =>
    match s.peerOf node with
    | some p =>
      match s.peerCall c.ctx p pa (.read n) with
      | .ok v t => some (v, t)
      | .bad _ _ _ _ | .wait _ => none
    | none => some ((s.freeWord.1).toNat % 2 ^ (8 * n), s.freeWord.2.sendScafa 0 node pa (.read n))

/-- n bytes of x written to a target by crew c. -/
def State.writeTo (s : State) (c : Crew) (t : Target) (n x : Nat) : Option State :=
  match t with
  | .dram loc key kind dom _ =>
    if kind = 1 then
      match s.settlePhased c (loc / 128) key with
      | (false, _) => none
      | (true, s) => some (s.storePhased c.core c.uid c.ctx (loc / 128) key dom (s.phaseNo c.ctx dom) (loc % 128) n x)
    else
      match s.settle (some c.core) (loc / 128) (s.rto c.ctx) with
      | (false, _) => none
      | (true, s) =>
        if kind = 2 then some ((s.flushLine (loc / 128)).rawWrite loc n key x)
        else if c.hyp = 0 then
          let (d, t) := s.fillL1 c.core (loc / 128) key
          some (t.putL1 c.core (loc / 128) key (lineSet d (loc % 128) n x))
        else some (s.putVersion c.core c.ctx (loc / 128) key c.hyp (loc % 128) n x)
  | .scratch k b => some (s.writeMem (scratchAddr k b) n x)
  | .mail _ _ => some s
  | .host w o => some (s.hostPut (s.firstDie c.ctx) w o (toBytes n x))
  | .rmt node pa =>
    match s.peerOf node with
    | some p =>
      match s.peerCall c.ctx p pa (.write (toBytes n x)) with
      | .ok _ t => some t
      | .bad _ _ _ _ | .wait _ => none
    | none => some (s.sendBytes 0 node pa (toBytes n x) .write)

/-- A read-modify-write asked of the host or of a peer (R344, R348, R351), with the old value that comes back. -/
def State.askRmw (s : State) (c : Crew) (t : Target) (r : Rmw) : Option (Nat × State) :=
  let free := fun (t : State) => some ((s.freeWord.1).toNat % 2 ^ (8 * rmwBytes r), t)
  match t with
  | .host w o =>
    let first := s.firstDie c.ctx
    free { s.freeWord.2 with sent := s.sent ++ [.hostAtomic (s.hostAddr first w o) r (s.hwinOf first w).ns] }
  | .rmt node pa =>
    match s.peerOf node with
    | some p =>
      match s.peerCall c.ctx p pa (.rmw r) with
      | .ok v t => some (v, t)
      | .bad _ _ _ _ | .wait _ => none
    | none => free (s.freeWord.2.sendScafa 0 node pa (.rmw r))
  | .dram _ _ _ _ _ | .scratch _ _ | .mail _ _ => none

/-- A store of several lanes clears the poison of every line it fills (R369). -/
def State.cureStored (s : State) (c : Crew) (n : Nat) (ts : List LaneTo) : State :=
  if s.poison.isEmpty && !s.caches.any (·.bad) then s
  else
    let mask := fun (line : Nat) => ts.foldl (fun (m : BitVec 128) t => match t.2.2 with
      | .dram loc _ _ _ _ => if loc / 128 = line then m ||| byteMask (loc % 128) n else m
      | .scratch k b => if scratchAddr k b / 128 = line then m ||| byteMask (scratchAddr k b % 128) n else m
      | .mail _ _ | .host _ _ | .rmt _ _ => m) 0
    let one := fun (s : State) (t : LaneTo) => match t.2.2 with
      | .dram loc _ kind _ _ =>
        if mask (loc / 128) = BitVec.allOnes 128 then
          if c.hyp != 0 then
            { s with caches := s.caches.map fun e =>
                if e.line == loc / 128 && e.hyp == c.hyp && e.ctx == c.ctx then { e with bad := false } else e }
          else if kind = 2 then s.setPoison (loc / 128) false
          else if kind = 1 then
            { s with caches := s.caches.map fun e =>
                if e.line == loc / 128 && e.ph && e.place == .l1 c.core && e.ctx == c.ctx then { e with bad := false } else e }
          else s.cureCopies (loc / 128)
        else s
      | .scratch k b =>
        if mask (scratchAddr k b / 128) = BitVec.allOnes 128 then s.setPoison (scratchAddr k b / 128) false else s
      | .mail _ _ | .host _ _ | .rmt _ _ => s
    ts.foldl one s

/-- The line whose collapse an access to a target may wait for: its own, or the one a peer of the package gives it. -/
def State.waitLine (s : State) (c : Crew) : Target → Option Nat
  | .dram loc _ _ _ _ => some (loc / 128)
  | .rmt node pa => (s.peerOf node).bind fun p => s.peerLine c.ctx p pa
  | .scratch _ _ | .mail _ _ | .host _ _ => none

/-- The state when a gang must wait: the recall its access needs has been sent (R352). -/
def State.recallFor (s : State) (c : Crew) : List LaneTo → State
  | [] => s
  | (_, _, t) :: rest =>
    match s.waitLine c t with
    | some line => ((s.settle (some c.core) line (s.rto c.ctx)).2).recallFor c rest
    | none => s.recallFor c rest

/-- The lane whose line has an expired recall. -/
def State.expiredLane (s : State) (c : Crew) (ts : List LaneTo) : Option (Nat × BitVec 64 × Nat) :=
  ts.findSome? fun t => (s.waitLine c t.2.2).bind fun line => if s.expired line then some (t.1, t.2.1, line) else none

/-! ## Orders chosen per execution (R3, R85, R187) -/

/-- Take out the element at an index. -/
def pickOut {α : Type} : List α → Nat → List α
  | [], _ => []
  | x :: xs, 0 => x :: xs
  | x :: xs, n + 1 =>
    match pickOut xs n with
    | y :: ys => y :: x :: ys
    | [] => [x]

/-- A permutation by free draws from number k on. -/
def shuffleFrom {α : Type} : Nat → Nat → List α → List α
  | 0, _, xs => xs
  | n + 1, k, xs =>
    match pickOut xs (if xs.length = 0 then 0 else Config.freeNat k % xs.length) with
    | [] => []
    | y :: ys => y :: shuffleFrom n (k + 1) ys

/-- A list in an order chosen per execution; one element needs no choice. -/
def State.shuffle {α : Type} (s : State) (xs : List α) : List α × State :=
  if xs.length ≤ 1 then (xs, s) else (shuffleFrom xs.length s.draws xs, { s with draws := s.draws + xs.length })

/-! ## The shared form of a memory instruction -/

/-- What an instruction does with its access: bytes of its encoding, its header, the access, the addresses of its participating
lanes, the registers it would write (vector numbers; scalar numbers), whether it is effectful, whether it is a release, whether it
traps under a non-root hypothesis, and whether a watch covers its reads and writes. -/
structure MemOp where
  len : Nat
  lanes : List (Nat × BitVec 64)
  acc : Acc
  vregs : List Nat
  sregs : List Nat
  effect : Bool
  rel : Bool
  rootOnly : Bool
  watchRd : Bool
  watchWr : Bool

/-- A late fault of a gang's instruction: the pc passes on, and nothing else happens (R39, R177). -/
def State.lateAt (s : State) (c : Crew) (g : Nat) (o : MemOp) (lane : Nat) (va : BitVec 64) (cause detail : BitVec 8)
    (level : Nat) (err : Option ErrAt := none) : State :=
  ((s.lateFault c g (o.lanes.map (·.1)) o.vregs o.sregs
    { cause := cause, late := true, lane := BitVec.ofNat 5 lane, detail := detail, level := BitVec.ofNat 3 level,
      epc := c.gangPc g, val := va, err := err }).modCrew c.uid (·.advance g o.len)).unhold c.uid g

/-- The instruction completes: the pc passes on and an effectful one starts a region (R38). -/
def State.doneAt (s : State) (uid g len : Nat) (effect : Bool) : State :=
  let t := (s.modCrew uid (·.advance g len)).unhold uid g
  if effect then t.startRegion uid g else t

/-- Registrations of a crew's updates that have not reached their homes: a release waits for them (R94). -/
def State.regsPending (s : State) (uid : Nat) : Bool := s.regs.any fun r => r.crew == uid || r.more.any (·.1 == uid)

/-- Step 7 of R177, lane by lane: while the version area of a line's home is full, a store there may trap, by free choice; and it
must where its version finds no room (R67, R83). The first lane that traps, or the state in which every version has its place. -/
def State.hypRoom (s : State) (c : Crew) : List LaneTo → Option (Nat × BitVec 64) × State
  | [] => (none, s)
  | (l, va, t) :: rest =>
    match t with
    | .dram loc key _ _ _ =>
      let (n, s) := if s.vaFull (loc / 128) then s.choose 2 else (0, s)
      if n = 1 then (some (l, va), s)
      else
        match s.holdVersion c.core c.ctx (loc / 128) key c.hyp with
        | some u => u.hypRoom c rest
        | none => (some (l, va), s)
    | .scratch _ _ | .mail _ _ | .host _ _ | .rmt _ _ => s.hypRoom c rest

/-- How the answers of the host and of peers of the package end lanes' accesses: UR or CA status, poison, no completion (R348), or a
refusal (R298). The first lane that one ends, with its cause. -/
def State.farFault (s : State) (c : Crew) (o : MemOp) : List LaneTo → Option (Nat × BitVec 64 × BitVec 8) × State
  | [] => (none, s)
  | (l, va, t) :: rest =>
    match t with
    | .host _ _ =>
      if o.watchRd then
        match s.hostEnds o.acc.size with
        | (.failed k, u) => (some (l, va, k), { s with draws := u.draws })
        | (.data _, u) => State.farFault { s with draws := u.draws } c o rest
      else s.farFault c o rest
    | .rmt node pa =>
      match s.peerOf node with
      | none => s.farFault c o rest
      | some p =>
        let ends := fun (kind : PeerKind) => match s.peerCall c.ctx p pa kind with
          | .bad k _ _ _ => if k == cTIMEOUT then none else some k
          | .ok _ _ | .wait _ => none
        match (if o.watchRd then ends (.read o.acc.size) else none).or
              (if o.acc.write then ends (.write (toBytes o.acc.size 0)) else none) with
        | some k => (some (l, va, k), s)
        | none => s.farFault c o rest
    | .dram _ _ _ _ _ | .scratch _ _ | .mail _ _ => s.farFault c o rest

/-- A root load meets a version under a hypothesis that is RESOLVING (R103, R178). -/
def State.resolving (s : State) (c : Crew) (n : Nat) (ts : List LaneTo) : Bool :=
  c.hyp == 0 && match s.ctx? c.ctx with
    | none => false
    | some x =>
      x.hyps.any fun h => h.2.st == HypSt.resolving && ts.any fun t => match t.2.2 with
        | .dram loc _ _ _ _ =>
          (s.version? c.ctx (loc / 128) (BitVec.ofNat 8 h.1)).any fun e => e.dmask &&& byteMask (loc % 128) n != 0
        | .scratch _ _ | .mail _ _ | .host _ _ | .rmt _ _ => false

/-- The recall that a lane's access waits for has gone unanswered: TIMEOUT there, and the next cause tries again (R352). -/
def State.lateTimeout (s : State) (c : Crew) (g : Nat) (o : MemOp) (lane : Nat) (va : BitVec 64) (line : Nat) : State :=
  (s.forgetRecall line).lateAt c g o lane va cTIMEOUT 0 0

/-- An access that needs a page-table line collapsed waits for that, or times out (R95, R352). -/
def State.waitCollapse (s : State) (c : Crew) (g : Nat) (o : MemOp) (lane : Nat) (va : BitVec 64) (line : Nat) : State :=
  if s.expired line then s.lateTimeout c g o lane va line else (s.settle none line (s.rto c.ctx)).2

/-- Run a memory instruction: the checks, then its effect on what the lanes reach; none from the effect means the gang waits and
issues again. -/
def State.memOp (s : State) (c : Crew) (g : Nat) (o : MemOp) (f : State → List LaneTo → Option State) : State :=
  match o.lanes with
  | [] => s.doneAt c.uid g o.len o.effect
  | first :: _ =>
    if o.rootOnly && c.hyp != 0 then s.lateAt c g o first.1 first.2 cHYPEFFECT 0 0
    else
      match s.checkLanes c o.acc o.lanes with
      | .bad l va k d v => s.lateAt c g o l va k d v
      | .collapse l va line => s.waitCollapse c g o l va line
      | .wait => s
      | .hold ts => s.holdLanes c g ts
      | .ok ts =>
        let (full, t) := if o.acc.sort == .store && c.hyp != 0 then s.hypRoom c ts else (none, s)
        let s := { s with draws := t.draws }
        match full with
        | some (l, va) => s.lateAt c g o l va cHYPFULL 0 0
        | none =>
          match c.watchHit o.watchRd o.watchWr o.acc.size o.lanes with
          | some (l, va) => s.lateAt c g o l va cWATCH 0 0
          | none =>
            match (if o.acc.sort == .barrier then ts.find? fun t => s.poisonedAt { c with hyp := 0 } o.acc.size t.2.2
                  else if o.watchRd then ts.find? fun t => s.poisonedAt c o.acc.size t.2.2 else none) with
            | some (l, va, e) => s.lateAt c g o l va cECC 0 0 (some (s.errAt c.core e))
            | none =>
              let (far, u) := s.farFault c o ts
              let (s, t) := ({ s with draws := u.draws }, { t with draws := u.draws })
              match far with
              | some (l, va, k) =>
                s.lateAt c g o l va k 0 0 (if k == cTIMEOUT || k == cECC then some ⟨6, c.core / 32, 0⟩ else none)
              | none =>
              if (o.rel && s.regsPending c.uid) || (o.acc.sort == .load && s.resolving c o.acc.size ts) then s
              else
              match f t ts with
              | some t => t.doneAt c.uid g o.len o.effect
              | none =>
                match s.expiredLane c ts with
                | some (l, va, line) => s.lateTimeout c g o l va line
                | none => s.recallFor c ts

/-! ## Fetch (R132) -/

/-- How a fetch ends. -/
inductive Fetched where
  | word (w : Word)
  | fault (cause detail : BitVec 8) (level : Nat)
  /-- an uncorrectable error, met there -/
  | ecc (err : ErrAt)
  | collapse (line : Nat)
  | wait
  deriving DecidableEq, Repr

/-- The word of its instruction cache that a core uses for a location under a key: not one filled before `since`, when the launch
that fetches became READY (R132). -/
def State.icWord (s : State) (core loc key since : Nat) : Option Word :=
  (s.icache.find? fun e => e.core == core && e.loc == loc && e.key == key && since ≤ e.filled).map (·.word)

/-- The word at an address as a core fetches it for a context: translated, then from its instruction cache, else through the
home. -/
def State.fetchWord (s : State) (core since : Nat) (x : Ctx) (va : BitVec 64) : Fetched :=
  if !canonical va then .fault cPROT 0 0
  else if x.rewriting va then .wait
  else
    match s.reach (.core core) x 0 va false true (fun _ => true) with
    | .error (.fault k d l) => .fault k d l
    | .error (.collapse line) => .collapse line
    | .error .wait => .wait
    | .ok (.dram _ loc key pa, held) =>
      match s.icWord core loc key since with
      | some w => .word w
      | none =>
        if held then .wait
        else if (s.uline? (loc / 128)).isSome then .collapse (loc / 128)
        else if s.poisonedFor core (loc / 128) then .ecc (s.errAt core (.dram loc key 0 0 pa))
        else .word (BitVec.ofNat 32 (lineGet (s.homeVal (loc / 128) key) (loc % 128) 4))
    | .ok (.host _ _, _) | .ok (.rmt _ _, _) | .ok (.chip _ _ _, _) => .fault cPROT 0 0

end Sys2Proof.Machine
end

