-- ==== Sys2Proof/Machine/MemoryOps.lean ====
section
/-!
DEFINITION. Loads, stores, scratchpad accesses, prefetch, range maintenance and fences (08 R178 to R185).
-/
namespace Sys2Proof.Machine

/-- Bytes of a memory instruction: 20 with a literal, else 12 (R119, R175). -/
def xLen : SrcV → Nat
  | .reg _ => 12
  | .lit _ => 20

/-- Participating lanes with their effective addresses (R176). -/
def Crew.laneEas (c : Crew) (g : Nat) (h : XHdr) (e : Ea) : List (Nat × BitVec 64) :=
  (c.parts g h.guard).map fun l => (l, c.ea l e)

/-! ## Loads (R178, R179) -/

/-- The words a load of n bytes writes (R178). -/
def loadWords (n : Nat) (signed : Bool) (x : Nat) : List Word :=
  if n = 1 then [if signed then (BitVec.ofNat 8 x).signExtend 32 else BitVec.ofNat 32 x]
  else if n = 2 then [if signed then (BitVec.ofNat 16 x).signExtend 32 else BitVec.ofNat 32 x]
  else toWords (n / 4) x

/-- Registers a value of n bytes covers. -/
def regsFor (d n : Nat) : List Nat := rangeFrom d (if n ≤ 4 then 1 else n / 4)

/-- Every lane reads and writes its registers. -/
def State.loadLanes (s : State) (c : Crew) (na : Bool) (n d : Nat) (signed : Bool) : List LaneTo → Option State
  | [] => some s
  | (l, _, t) :: rest =>
    match s.readTo c na t n with
    | none => none
    | some (x, s) => (s.modCrew c.uid (·.rsetList false l d (loadWords n signed x))).loadLanes c na n d signed rest

/-- A load (R178): `na` for LDNA. -/
def load (s : State) (h : XHdr) (d : BitVec 7) (e : Ea) (sc : Scope) (acq na signed : Bool) (n : Nat) : Out :=
  asGang s fun c g =>
    s.memOp c g
      { len := 12, lanes := c.laneEas g h e, acc := ⟨n, false, .load, wideScope sc && !acq⟩, vregs := regsFor d.toNat n,
        sregs := [], effect := false, rel := false, rootOnly := false, watchRd := true, watchWr := false }
      fun s ts => s.loadLanes c na n d.toNat signed ts

/-- Bytes of a size code, and whether it sign-extends (R179). -/
def lsize : LSize → Nat × Bool
  | .b x => (1, x)
  | .h x => (2, x)
  | .w => (4, false)
  | .d => (8, false)
  | .q => (16, false)
def ssize : SSize → Nat
  | .b => 1 | .h => 2 | .w => 4 | .d => 8 | .q => 16

def execLd8 (o : LdS) (s : State) : Out := load s o.h o.d o.ea o.scope o.acq false o.s 1
def execLd16 (o : LdS) (s : State) : Out := load s o.h o.d o.ea o.scope o.acq false o.s 2
def execLd32 (o : Ld) (s : State) : Out := load s o.h o.d o.ea o.scope o.acq false false 4
def execLd64 (o : Ld) (s : State) : Out := load s o.h o.d o.ea o.scope o.acq false false 8
def execLd128 (o : Ld) (s : State) : Out := load s o.h o.d o.ea o.scope o.acq false false 16
def execLdna (o : LdSz) (s : State) : Out := load s o.h o.d o.ea o.scope o.acq true (lsize o.size).2 (lsize o.size).1

/-! ## Stores (R178) -/

/-- The n bytes a lane stores (R175, R178). -/
def storeData (c : Crew) (l n : Nat) : SrcV → Nat
  | .lit v => v.toNat % 2 ^ (8 * n)
  | .reg r => if n = 16 then (c.vget128 l r.toNat).toNat else if n = 8 then (c.rget64 false l r.toNat).toNat
              else (c.vget l r.toNat).toNat % 2 ^ (8 * n)

/-- Lanes write one after another. -/
def State.storeLanes (s : State) (c : Crew) (n : Nat) (x : Nat → Nat) : List LaneTo → Option State
  | [] => some s
  | (l, _, t) :: rest =>
    match s.writeTo c t n (x l) with
    | none => none
    | some s => s.storeLanes c n x rest

/-- A store (R178): lanes in an order chosen per execution (R85). -/
def store (s : State) (h : XHdr) (e : Ea) (b : SrcV) (sc : Scope) (rel : Bool) (n : Nat) : Out :=
  asGang s fun c g =>
    s.memOp c g
      { len := xLen b, lanes := c.laneEas g h e, acc := ⟨n, true, .store, wideScope sc && !rel⟩, vregs := [], sregs := [],
        effect := false, rel := rel, rootOnly := false, watchRd := false, watchWr := true }
      fun s ts =>
        let (ts, s) := s.shuffle ts
        (s.storeLanes c n (fun l => storeData c l n b) ts).map fun s => s.cureStored c n ts

def execSt8 (o : St) (s : State) : Out := store s o.h o.ea o.b o.scope o.rel 1
def execSt16 (o : St) (s : State) : Out := store s o.h o.ea o.b o.scope o.rel 2
def execSt32 (o : St) (s : State) : Out := store s o.h o.ea o.b o.scope o.rel 4
def execSt64 (o : St) (s : State) : Out := store s o.h o.ea o.b o.scope o.rel 8
def execSt128 (o : St128) (s : State) : Out := store s o.h o.ea (.reg o.b) o.scope o.rel 16

/-! ## Scratchpad (R180, R181) -/

/-- The first lane whose scratchpad offset fails, with its cause (R180). -/
def localBad (size n : Nat) (ls : List (Nat × BitVec 64)) : Option (Nat × BitVec 64 × BitVec 8) :=
  (ls.find? fun p => p.2.toNat % n != 0 || size < p.2.toNat + n).map fun p =>
    (p.1, p.2, if p.2.toNat % n != 0 then cMISALIGN else cPROT)

/-- LDL and STL: checks, for a load the poison of what it reads (R369), then the effect on the lanes' scratchpad bytes. -/
def localOp (s : State) (c : Crew) (g : Nat) (h : XHdr) (e : Ea) (n : Nat) (vregs : List Nat) (rel : Bool)
    (f : State → List LaneTo → State) : State :=
  let ls := c.laneEas g h e
  let o : MemOp := { len := 12, lanes := ls, acc := ⟨n, rel, .load, false⟩, vregs := vregs, sregs := [], effect := false,
                     rel := rel, rootOnly := false, watchRd := false, watchWr := false }
  match localBad (s.scratch c).2 n ls with
  | some (l, va, cause) => s.lateAt c g o l va cause 0 0
  | none =>
    let ts : List LaneTo := ls.map fun p => (p.1, p.2, Target.scratch c.core ((s.scratch c).1 + p.2.toNat))
    match (if vregs.isEmpty then none else ts.find? fun t => s.poisonedAt c n t.2.2) with
    | some (l, va, t) => s.lateAt c g o l va cECC 0 0 (some (s.errAt c.core t))
    | none =>
      if rel && s.regsPending c.uid && !ls.isEmpty then s
      else (f s ts).doneAt c.uid g 12 false

def execLdl (o : LdSz) (s : State) : Out :=
  asGang s fun c g =>
    let n := (lsize o.size).1
    localOp s c g o.h o.ea n (regsFor o.d.toNat n) false fun s ts => (s.loadLanes c false n o.d.toNat (lsize o.size).2 ts).getD s

def execStl (o : StSz) (s : State) : Out :=
  asGang s fun c g =>
    let n := ssize o.size
    localOp s c g o.h o.ea n [] o.rel fun s ts =>
      let (ts, s) := s.shuffle ts
      ((s.storeLanes c n (fun l => storeData c l n (.reg o.b)) ts).map fun s => s.cureStored c n ts).getD s

/-! ## Prefetch (R182) -/

/-- A clean copy in a die's L2. -/
def State.fillL2 (s : State) (die line key : Nat) : State :=
  if (s.plainAt (.l2 die) line).isSome || (s.dirtyOf line).isSome then s
  else
    let t := s.reKey line key
    { t with caches := (t.caches.map fun x => if x.line == line && x.plain then { x with st := LineSt.s } else x) ++
        [{ CEntry.mkPlain (.l2 die) line (if t.anyPlain line then .s else .e) key (t.homeVal line key) with bad := t.poisoned line }] }

/-- PREF for one lane: only a plain coherent line moves; nothing else happens (R182). -/
def State.prefLane (s : State) (c : Crew) (l2 : Bool) (va : BitVec 64) : State :=
  match s.checkAddr c ⟨1, false, .load, true⟩ va with
  | .ok (.dram loc key kind _ _) =>
    if kind = 0 && (s.uline? (loc / 128)).isNone && (s.regsOf c.core (loc / 128)).isEmpty then
      if l2 then s.fillL2 (c.core / 32) (loc / 128) key else (s.fillL1 c.core (loc / 128) key).2
    else s
  | .ok (.scratch _ _) | .ok (.mail _ _) | .ok (.host _ _) | .ok (.rmt _ _) | .hold _ | .bad _ _ _ | .collapse _ | .wait => s

def execPref (o : Pref) (s : State) : Out :=
  asGang s fun c g =>
    ((c.laneEas g o.h o.ea).foldl (fun s p => s.prefLane c o.l2 p.2) s).doneAt c.uid g 12 false

/-! ## Range maintenance (R183, R184) -/

inductive RangeOp where
  | clean | inv | uflush
  deriving DecidableEq, Repr

/-- Addresses of the pieces of a range, one for each 4 KiB of virtual space it touches. -/
def rangePieces (base : BitVec 64) (len : Nat) : List (BitVec 64) :=
  let first := base.toNat / 4096
  let last := (base.toNat + len - 1) / 4096
  (rangeFrom first (last + 1 - first)).map fun p =>
    BitVec.ofNat 64 (if p * 4096 < base.toNat then base.toNat else p * 4096)

/-- The lines of a range, each by its lowest address in it. -/
def rangeLines (base : BitVec 64) (len : Nat) : List (BitVec 64) :=
  let first := base.toNat / 128
  let last := (base.toNat + len - 1) / 128
  (rangeFrom first (last + 1 - first)).map fun p => BitVec.ofNat 64 (p * 128)

/-- The code of a range operation in a request (R183). -/
def RangeOp.code : RangeOp → BitVec 2
  | .clean => 0
  | .inv => 1
  | .uflush => 2

/-- How a lane's range ends its checks (R183). -/
def State.checkRange (s : State) (c : Crew) (base : BitVec 64) (len : Nat) : Option (BitVec 64 × Chk) :=
  let last := base.toNat + len - 1
  if 2 ^ 64 ≤ last || !canonical base || !canonical (BitVec.ofNat 64 last) ||
     base.getLsbD 56 != (BitVec.ofNat 64 last).getLsbD 56 then some (base, .prot)
  else
    let chk := fun va => (va, match s.checkAddr c ⟨1, false, .load, true⟩ va with
      | .ok _ => none
      | r => some r)
    let rs := (rangePieces base len).map chk
    let page := rs.find? fun r => match r.2 with
      | some (.bad k _ _) => k == cPAGE || k == cECC
      | some (.collapse _) | some .wait => true
      | some (.ok _) | some (.hold _) | none => false
    match page with
    | some (va, some r) => some (va, r)
    | some (_, none) | none =>
      -- on-chip windows have no effect, and R77 is the only rule checked after translation
      match rs.find? fun r => match r.2 with
        | some (.bad _ d _) => d == 0x06 || d == 0x08
        | some (.ok _) | some (.hold _) | some (.collapse _) | some .wait | none => false with
      | some (va, some r) => some (va, r)
      | some (_, none) | none =>
        -- a line held at its home makes the lane wait, once every page has passed
        match rs.find? fun r => match r.2 with
          | some (.hold _) => true
          | some (.bad _ _ _) | some (.ok _) | some (.collapse _) | some .wait | none => false with
        | some (va, some r) => some (va, r)
        | some (_, none) | none => none

/-- The action on one line; none when the gang waits for remote contributions. A peer's line is acted on at its home. -/
def State.rangeLine (s : State) (c : Crew) (op : RangeOp) (va : BitVec 64) : Option State :=
  match s.checkAddr c ⟨1, false, .load, true⟩ va with
  | .ok (.dram loc _ kind _ _) =>
    let line := loc / 128
    if kind = 0 then s.rangeHome (some c.core) line op.code (s.rto c.ctx)
    else if kind = 1 && op != .uflush then
      match (s.phased? c.core line c.ctx).filter (!·.gone) with
      | none => some s
      | some e =>
        if op == .inv then some (s.evictPhased c.core line)
        else
          let t := s.writePhased e
          some { t with caches := t.caches.map fun y => if y == e then { e with st := LineSt.s, dmask := 0 } else y }
    else some s
  | .ok (.rmt node pa) =>
    match s.peerOf node with
    | some p =>
      match s.peerCall c.ctx p pa (.range op.code) with
      | .ok _ t => some t
      | .bad _ _ _ _ => some s
      | .wait _ => none
    | none => some (s.sendScafa 2 node pa (.range op.code))
  | .ok (.scratch _ _) | .ok (.mail _ _) | .ok (.host _ _) | .hold _ | .bad _ _ _ | .collapse _ | .wait => some s

def State.rangeLanes (s : State) (c : Crew) (op : RangeOp) : List (BitVec 64) → Option State
  | [] => some s
  | va :: rest =>
    match s.rangeLine c op va with
    | some t => t.rangeLanes c op rest
    | none => none

/-- What each line of the lanes' ranges reaches, with its lane and address. -/
def State.rangeTargets (s : State) (c : Crew) (ls : List (Nat × BitVec 64)) (len : Nat) : List LaneTo :=
  ls.flatMap fun p => (rangeLines p.2 len).filterMap fun va =>
    match s.checkAddr c ⟨1, false, .load, true⟩ va with
    | .ok t => some (p.1, if va.toNat < p.2.toNat then p.2 else va, t)
    | .hold _ | .bad _ _ _ | .collapse _ | .wait => none

/-- CLEANR, INVR and UFLUSH. -/
def rangeOp (s : State) (o : Range) (op : RangeOp) : Out :=
  asGang s fun c g =>
    let len := o.len.toNat
    let ls := (c.parts g o.h.guard).map fun l => (l, c.rget64 o.u l o.a.toNat)
    let m : MemOp := { len := 12, lanes := ls, acc := ⟨1, false, .load, true⟩, vregs := [], sregs := [], effect := false,
                       rel := false, rootOnly := false, watchRd := false, watchWr := false }
    if len = 0 then s.doneAt c.uid g 12 false
    else
      match ls.findSome? fun p => (s.checkRange c p.2 len).map fun r => (p.1, r) with
      | some (l, va, .bad k d v) => s.lateAt c g m l va k d v
      | some (l, va, .collapse line) => s.waitCollapse c g m l va line
      | some (l, va, .hold t) => s.holdLanes c g [(l, va, t)]
      | some (_, _, .wait) => s
      | some (_, _, .ok _) | none =>
        match s.rangeLanes c op (ls.flatMap fun p => rangeLines p.2 len) with
        | some t => t.doneAt c.uid g 12 false
        | none =>
          let ts := s.rangeTargets c ls len
          match s.expiredLane c ts with
          | some (l, va, line) => s.lateTimeout c g m l va line
          | none => s.recallFor c ts

def execCleanr (o : Range) (s : State) : Out := rangeOp s o .clean
def execInvr (o : Range) (s : State) : Out := rangeOp s o .inv
def execUflush (o : Range) (s : State) : Out := rangeOp s o .uflush

/-! ## Fences (R117, R185) -/

/-- The fence has release semantics. -/
def fenceReleases (o : Fence) : Bool :=
  match o.ord with
  | .dflt => !o.rm
  | .rel | .ar | .sc => true
  | .acq => false

/-- A crew's REDMs that have not been performed (R117). -/
def State.redmPending (s : State) (uid : Nat) : Bool :=
  s.atomq.any fun r => match r.src with
    | .crew u _ => u == uid
    | .proc _ _ _ => false

/-- FENCE: it waits for registrations if it releases and for REDMs with .rm; every other earlier access is already performed
(log 13). -/
def execFence (o : Fence) (s : State) : Out :=
  asGang s fun c g =>
    if (c.parts g o.h.guard).isEmpty then s.doneAt c.uid g 12 false
    else if (fenceReleases o && s.regsPending c.uid) || (o.rm && s.redmPending c.uid) then s
    else s.doneAt c.uid g 12 false

end Sys2Proof.Machine
end

