-- ==== Sys2Proof/Machine/Atomics.lean ====
section
/-!
DEFINITION. Atomics, compare-and-swap and the update-only instructions (08 R186 to R192; 05 R94, R117).
-/
namespace Sys2Proof.Machine

/-! ## Atomics (R187) -/

/-- Operations a host window performs (R348). -/
def hostAtomic (op : AtomOp) : Bool := op == .add || op == .add64 || op == .exch || op == .exch64

/-- A lane's operand of n bytes. -/
def Crew.dataN (c : Crew) (l n : Nat) (b : SrcV) : Nat := if n = 8 then (c.data64 l b).toNat else (c.data32 l b).toNat

/-- One element's step: the old value, and the new one written if there is one (R187, R189). -/
def State.rmwAt (s : State) (c : Crew) (t : Target) (r : Rmw) : Option (Nat × State) :=
  match t with
  | .host _ _ | .rmt _ _ => s.askRmw c t r
  | .dram _ _ _ _ _ | .scratch _ _ | .mail _ _ =>
    match s.readTo c false t (rmwBytes r) with
    | none => none
    | some (old, u) =>
      match rmwApply r old with
      | some x => (u.writeTo c t (rmwBytes r) x).map fun v => (old, v)
      | none => some (old, u)

/-- Each lane in turn makes its request, and with `d` receives the old value (R187, R189). -/
def State.rmwLanes (s : State) (c : Crew) (req : Nat → Rmw) (d : Option Nat) : List LaneTo → Option State
  | [] => some s
  | (l, _, t) :: rest =>
    match s.rmwAt c t (req l) with
    | none => none
    | some (old, s) =>
      let s := match d with
        | some r => s.modCrew c.uid (·.rsetList false l r (toWords (rmwBytes (req l) / 4) old))
        | none => s
      s.rmwLanes c req d rest

/-- An effectful read-modify-write of n bytes. -/
def atomicOp (s : State) (h : XHdr) (e : Ea) (len n : Nat) (hostOk rel : Bool) (d : Option Nat) (req : Crew → Nat → Rmw) : Out :=
  asGang s fun c g =>
    s.memOp c g
      { len := len, lanes := c.laneEas g h e, acc := ⟨n, true, .atomic hostOk, false⟩,
        vregs := (d.map fun r => regsFor r n).getD [], sregs := [], effect := true, rel := rel, rootOnly := true,
        watchRd := true, watchWr := true }
      fun s ts =>
        let (ts, s) := s.shuffle ts
        s.rmwLanes c (req c) d ts

/-- Release semantics of an order. -/
def ordRel : Ord4 → Bool
  | .rel | .ar => true
  | .rlx | .acq => false

def execAtom (o : Atom) (s : State) : Out :=
  let n := atomBytes o.op
  atomicOp s o.h o.ea (xLen o.b) n (hostAtomic o.op) (ordRel o.ord) (some o.d.toNat)
    fun c l => .atom o.op (BitVec.ofNat 64 (c.dataN l n o.b))

def execRed (o : Red) (s : State) : Out :=
  let n := atomBytes o.op
  atomicOp s o.h o.ea (xLen o.b) n (hostAtomic o.op) o.rel none fun c l => .atom o.op (BitVec.ofNat 64 (c.dataN l n o.b))

/-! ## Compare and swap (R189) -/

def execCas (o : Cas) (s : State) : Out :=
  let n := if o.w64 then 8 else 4
  atomicOp s o.h o.ea (xLen o.b) n true (ordRel o.ord) (some o.d.toNat) fun c l =>
    .cas n (BitVec.ofNat 128 (c.dataN l n (.reg o.c))) (BitVec.ofNat 128 (c.dataN l n o.b))

def execCasgt (o : CasGt) (s : State) : Out :=
  let n := if o.w64 then 8 else 4
  atomicOp s o.h o.ea (xLen o.b) n false (ordRel o.ord) (some o.d.toNat) fun c l => .casgt n (BitVec.ofNat 64 (c.dataN l n o.b))

def execCasv (o : CasR) (s : State) : Out :=
  atomicOp s o.h o.ea 12 8 false (ordRel o.ord) (some o.d.toNat) fun c l =>
    .casv ((c.vget l o.c.toNat).setWidth 64) (c.data64 l (.reg o.b))

def execCaspt (o : CasR) (s : State) : Out :=
  atomicOp s o.h o.ea 12 8 false (ordRel o.ord) (some o.d.toNat) fun c l => .caspt (c.data64 l (.reg o.c)) (c.data64 l (.reg o.b))

def execCas128 (o : CasR) (s : State) : Out :=
  atomicOp s o.h o.ea 12 16 true (ordRel o.ord) (some o.d.toNat) fun c l => .cas 16 (c.vget128 l o.c.toNat) (c.vget128 l o.b.toNat)

/-! ## REDM (R117, R188) -/

/-- A lane's REDM: the home recalls the line, and the operation goes to the atomic unit. -/
def State.redmLanes (s : State) (c : Crew) (g : Nat) (op : AtomOp) (b : Nat → Nat) : List LaneTo → Option State
  | [] => some s
  | (l, va, t) :: rest =>
    match t with
    | .dram loc key _ _ _ =>
      match s.settle (some c.core) (loc / 128) (s.rto c.ctx) with
      | (false, _) => none
      | (true, t) =>
        let r : AtomReq := { loc := loc, key := key, ctx := c.ctx, run := c.run, op := op, b := BitVec.ofNat 64 (b l),
                             src := .crew c.uid g, epoch := s.epochOf c.ctx, lane := l, va := va, pc := c.gangPc g }
        let t := t.flushLine (loc / 128)
        { t with atomq := t.atomq ++ [r] }.redmLanes c g op b rest
    | .scratch _ _ | .mail _ _ | .host _ _ | .rmt _ _ => s.redmLanes c g op b rest

def execRedm (o : Redm) (s : State) : Out :=
  let n := atomBytes o.op
  asGang s fun c g =>
    s.memOp c g
      { len := xLen o.b, lanes := c.laneEas g o.h o.ea, acc := ⟨n, true, .redm, false⟩, vregs := [], sregs := [], effect := true,
        rel := false, rootOnly := true, watchRd := true, watchWr := true }
      fun s ts => s.redmLanes c g o.op (fun l => c.dataN l n o.b) ts

/-! ## Updates (R190, R191) -/

/-- The line, byte offset, key and home node of an update's target. -/
def updTarget : Target → Option (Nat × Nat × Nat × Option (BitVec 10))
  | .dram loc key _ _ _ => some (loc / 128, loc % 128, key, none)
  | .rmt node pa => some (remoteLine node pa, pa % 128, 0, some node)
  | .scratch _ _ | .mail _ _ | .host _ _ => none

/-- The L1's copy is made ready, and the crew joins its registration (R94): a copy under another operator or key must first be
collapsed at the home, with this registration (R98); none while that awaits contributions, or while the copy parked for the L1 must
first go to its home (R80). -/
def State.readyCopy (s : State) (c : Crew) (g lane : Nat) (va : BitVec 64) (line key : Nat) (op : UOp) (node : Option (BitVec 10)) :
    Option State :=
  let r : Reg := { line := line, op := op, core := c.core, crew := c.uid, gang := g, more := [], run := c.run, ctx := c.ctx,
                   key := key, epoch := s.epochOf c.ctx, node := node, out := false, lane := lane, va := va, pc := c.gangPc g }
  match s.uCur c.core line with
  | some e =>
    if e.op == some op && e.key == key then some (s.openCopy c.core line key op r)
    else if node.isSome then
      -- a peer's line under another operator: the old copy waits, parked, for its home's recall (R352)
      if (s.parkedAt c.core line).any fun p => p.op != e.op then none
      else some ((s.parkCopy e c.core).openCopy c.core line key op r)
    else
      match s.drainRegs (s.regsOf c.core line) with
      | (false, _) => none
      | (true, s) =>
        match s.register r with
        | some s => some (s.openCopy c.core line key op r)
        | none => none
  | none => some (s.openCopy c.core line key op r)

/-- Lanes in ascending order (R191). -/
def State.updLanes (s : State) (c : Crew) (g : Nat) (op : UOp) (x : Nat → Nat) : List LaneTo → Option State
  | [] => some s
  | (l, va, t) :: rest =>
    match updTarget t with
    | none => s.updLanes c g op x rest
    | some (line, i, key, node) =>
      match s.readyCopy c g l va line key op node with
      | none => none
      | some s => (s.updCopy c.core line op c.ctx i (x l)).updLanes c g op x rest

/-- An update instruction (R190). -/
def update (s : State) (h : XHdr) (e : Ea) (op : UOp) (x : Crew → Nat → Nat) : Out :=
  asGang s fun c g =>
    s.memOp c g
      { len := 12, lanes := c.laneEas g h e, acc := ⟨uBytes op, true, .update, false⟩, vregs := [], sregs := [], effect := true,
        rel := false, rootOnly := true, watchRd := false, watchWr := true }
      fun s ts => s.updLanes c g op (x c) ts

/-- B of an update by its operator (R190). -/
def updData (op : UOp) (b : BitVec 7) (c : Crew) (l : Nat) : Nat := c.dataN l (uBytes op) (.reg b)

def execUadd32 (o : Upd) (s : State) : Out := update s o.h o.ea .uadd32 (updData .uadd32 o.b)
def execUadd64 (o : Upd) (s : State) : Out := update s o.h o.ea .uadd64 (updData .uadd64 o.b)
def execUmins (o : Upd) (s : State) : Out := update s o.h o.ea .umins (updData .umins o.b)
def execUmaxs (o : Upd) (s : State) : Out := update s o.h o.ea .umaxs (updData .umaxs o.b)
def execUminu (o : Upd) (s : State) : Out := update s o.h o.ea .uminu (updData .uminu o.b)
def execUmaxu (o : Upd) (s : State) : Out := update s o.h o.ea .umaxu (updData .umaxu o.b)
def execUminf (o : Upd) (s : State) : Out := update s o.h o.ea .uminf (updData .uminf o.b)
def execUmaxf (o : Upd) (s : State) : Out := update s o.h o.ea .umaxf (updData .umaxf o.b)
def execUor64 (o : Upd) (s : State) : Out := update s o.h o.ea .uor64 (updData .uor64 o.b)
/-- UACC's BF16 operand is converted exactly: it is the upper half of an FP32 code (R42, R59). -/
def execUacc (o : Uacc) (s : State) : Out :=
  update s o.h o.ea .uacc fun c l =>
    let w := c.vget l o.b.toNat
    (if o.h1 then half1 w else half0 w) * 2 ^ 16

/-! ## USNAP (R192) -/

/-- One line's step at its home: the value before, and the line left in U(op) with identities. The line of a peer outside the
package gives a value that the spec leaves open here (log 13). -/
def State.snapLine (s : State) (c : Crew) (op : UOp) : Target → Option (LineData × State)
  | .dram loc key _ _ _ => s.snapHome (some c.core) (loc / 128) key op (s.rto c.ctx)
  | .rmt node pa =>
    match s.peerOf node with
    | some p =>
      match s.peerCall c.ctx p pa (.snap op) with
      | .ok v t => some (BitVec.ofNat 1024 v, t)
      | .bad _ _ _ _ | .wait _ => none
    | none => some (s.freeWord.1, s.freeWord.2.sendScafa 2 node (pa / 128 * 128) (.snap op))
  | .scratch _ _ | .mail _ _ | .host _ _ => none

/-- The lines of the targets, each once with the target that first names it. -/
def distinctLines : List LaneTo → List Nat → List (Nat × Target)
  | [], _ => []
  | (_, _, t) :: rest, seen =>
    match updTarget t with
    | none => distinctLines rest seen
    | some (line, _) => if seen.contains line then distinctLines rest seen else (line, t) :: distinctLines rest (line :: seen)

/-- The values of the lines, line by line. -/
def State.snapLines (s : State) (c : Crew) (op : UOp) : List (Nat × Target) → Option (List (Nat × LineData) × State)
  | [] => some ([], s)
  | (line, at_) :: rest =>
    match s.snapLine c op at_ with
    | none => none
    | some (v, t) =>
      match t.snapLines c op rest with
      | none => none
      | some (vs, u) => some ((line, v) :: vs, u)

/-- Every lane takes its element. -/
def State.snapLanes (s : State) (c : Crew) (op : UOp) (d : Nat) (vs : List (Nat × LineData)) : List LaneTo → State
  | [] => s
  | (l, _, t) :: rest =>
    match updTarget t with
    | none => s.snapLanes c op d vs rest
    | some (line, i, _) =>
      let v := ((vs.find? (·.1 == line)).map (·.2)).getD 0
      (s.modCrew c.uid (·.rsetList false l d (toWords (uBytes op / 4) (lineGet v i (uBytes op))))).snapLanes c op d vs rest

def execUsnap (o : Usnap) (s : State) : Out :=
  asGang s fun c g =>
    s.memOp c g
      { len := 12, lanes := c.laneEas g o.h o.ea, acc := ⟨uBytes o.op, true, .update, false⟩,
        vregs := regsFor o.d.toNat (uBytes o.op), sregs := [], effect := true, rel := true, rootOnly := true, watchRd := true,
        watchWr := true }
      fun s ts =>
        match s.snapLines c o.op (distinctLines ts []) with
        | some (vs, t) => some (t.snapLanes c o.op o.d.toNat vs ts)
        | none => none

end Sys2Proof.Machine
end

