-- ==== Sys2Proof/Machine/Sync.lean ====
section
/-!
DEFINITION. Barriers (05 R109 to R112; 08 R193 to R197), phases (05 R107; 08 R199), mailboxes (08 R200) and events (08 R201 to
R205).
-/
namespace Sys2Proof.Machine

/-! ## Event conditions (R201, R202) -/

/-- Set the pend bits of the bound slots that a test picks, in every crew. -/
def State.latch (s : State) (p : Crew → EvSlot → Bool) : State :=
  { s with crews := s.crews.map fun c =>
      { c with pend := (c.slots.mapIdx fun i e => if e.bound && p c e then BitVec.ofNat 8 (2 ^ i) else 0).foldl (· ||| ·) c.pend } }

/-- The status pair is pending in no slice that has not exited (R203): one operation owes both its registers. -/
def Crew.pairWritten (c : Crew) (a : Nat) : Bool :=
  c.slices.all fun x => !x.live || !(mhas x.spend a && mfind x.spend a == mfind x.spend (a + 1))

/-- Slots bound to status pairs of a crew latch (R202, R203). -/
def State.latchStat (s : State) (uid : Nat) : State :=
  s.latch fun c e => c.uid == uid && e.kind == 1 && c.pairWritten e.obj.toNat

/-- Slots bound to a mailbox slot of a core latch. -/
def State.latchMail (s : State) (core slot : Nat) : State :=
  s.latch fun c e => c.core == core && !c.saved && e.kind == 2 && e.obj.toNat == slot

/-- Slots bound to hypotheses that are neither LIVE nor RESOLVING latch. -/
def Ctx.hypGone (x : Ctx) (h : BitVec 8) : Bool := (x.hypOf h).st == .free || (x.hypOf h).st == .discarding
def State.latchHyp (s : State) (ctx : Nat) : State :=
  s.latch fun c e => c.ctx == ctx && e.kind == 3 && (s.ctx? ctx).any fun x => x.hypGone (e.obj.setWidth 8)

/-! ## Barrier objects (R109, R111) -/

/-- The fields of a barrier object. -/
structure Bar where
  pending : BitVec 64
  arrv : BitVec 16
  quota : BitVec 16
  par : Bool
  deriving DecidableEq, Repr

def Bar.read (x : Nat) : Bar :=
  { pending := BitVec.ofNat 64 x, arrv := BitVec.ofNat 16 (x >>> 64), quota := BitVec.ofNat 16 (x >>> 80), par := bits x 96 96 == 1 }

def Bar.code (b : Bar) : Nat :=
  b.pending.toNat + 2 ^ 64 * b.arrv.toNat + 2 ^ 80 * b.quota.toNat + (if b.par then 2 ^ 96 else 0)

/-- The phase completes when nothing is missing (R111). -/
def Bar.settle (b : Bar) : Bar := if b.arrv = 0 && b.pending = 0 then { b with par := !b.par, arrv := b.quota } else b

/-- An arrival of count n (R195). -/
def Bar.arrive (b : Bar) (n : Nat) : Bar :=
  let left := BitVec.ofNat 16 (b.arrv.toNat - n)
  if left = b.arrv then b else { b with arrv := left }.settle

/-- An expectation of n bytes (R196); a credit is a negative one. -/
def Bar.expect (b : Bar) (n : BitVec 64) : Bar := { b with pending := b.pending + n }.settle

/-- A fresh object (R194). -/
def Bar.init (q : BitVec 16) : Bar := { pending := 0, arrv := q, quota := q, par := false }

/-- An access to a barrier object (R110, R193). -/
def barAcc (write : Bool) : Acc := ⟨16, write, .barrier, false⟩

/-- A crew's accesses to barrier objects are not versioned (R213). -/
def Crew.atRoot (c : Crew) : Crew := { c with hyp := 0 }

/-- The barrier object at a target, as crew c reads it. -/
def State.readBar (s : State) (c : Crew) (t : Target) : Option (Bar × State) :=
  (s.readTo c.atRoot false t 16).map fun r => (Bar.read r.1, r.2)

/-- The physical or on-chip address of an object. -/
def barPlace : Target → Nat
  | .dram _ _ _ _ pa => pa
  | .scratch k b => scratchAddr k b
  | .mail _ _ | .host _ _ | .rmt _ _ => 0

/-- Where the object at such an address lies now: a migration may have moved it. -/
def State.placeNow (s : State) (place : Nat) : Nat :=
  match physOf place with
  | .dram _ loc => s.forward loc
  | .host _ _ | .chip _ _ _ | .none => place

/-- What the last barrier step left in an object is on record for the next one (R110). -/
def State.markBar (s : State) (t : Target) (b : Bar) : State :=
  let loc := s.placeNow (barPlace t)
  { s with bars := s.bars.filter (·.loc != loc) ++ [⟨loc, BitVec.ofNat 128 b.code⟩] }

/-- An object takes a new value; slots bound to it whose parity it no longer shows latch (R202). -/
def State.writeBar (s : State) (c : Crew) (t : Target) (b : Bar) : Option State :=
  match s.writeTo c.atRoot t 16 b.code with
  | none => none
  | some s =>
    some ((s.markBar t b).latch fun _ e => e.kind == 0 && e.parity != b.par && s.placeNow e.place == s.placeNow (barPlace t))

/-- A step's new value where software has stored to the object since the last step: each field that it wrote keeps, by free choice,
the value written or takes the one computed (R110). -/
def State.mixBar (s : State) (t : Target) (b new : Bar) : Bar × State :=
  match s.bars.find? (·.loc == s.placeNow (barPlace t)) with
  | none => (new, s)
  | some m =>
    let m := Bar.read m.value.toNat
    if m = b then (new, s)
    else
      let (k, s) := s.choose 16
      ({ pending := if m.pending != b.pending && k.testBit 0 then b.pending else new.pending,
         arrv := if m.arrv != b.arrv && k.testBit 1 then b.arrv else new.arrv,
         quota := if m.quota != b.quota && k.testBit 2 then b.quota else new.quota,
         par := if m.par != b.par && k.testBit 3 then b.par else new.par }, s)

/-- A barrier object that a BARINIT writes takes the credits held at it (R193, R241). -/
def State.initBar (s : State) (c : Crew) (t : Target) (q : BitVec 16) : Option State :=
  let mine := fun (k : Credit) => k.ctx == c.ctx && s.placeNow k.place == s.placeNow (barPlace t)
  let n : Nat := ((s.credits.filter mine).map fun (k : Credit) => k.bytes).foldl (· + ·) 0
  State.writeBar { s with credits := s.credits.filter fun k => !mine k } c t ((Bar.init q).expect (BitVec.ofInt 64 (-(n : Int))))

/-- A copy's bytes are credited, or held where QUOTA is 0 (R193, R241). The object has been checked. -/
def State.credit (s : State) (c : Crew) (obj : BitVec 64) (t : Target) (n : Nat) : Option State :=
  if n = 0 then some s
  else
    match s.readBar c t with
    | none => none
    | some (b, s) =>
      if b.quota = 0 then some { s with credits := s.credits ++ [⟨c.ctx, obj, barPlace t, n⟩] }
      else
        let (new, s) := s.mixBar t b (b.expect (BitVec.ofInt 64 (-(n : Int))))
        s.writeBar c t new

/-! ## Barrier instructions (R193 to R197) -/

/-- The lane and slice that give a once-per-gang instruction its operands (R193, R202, R210). -/
def Crew.lead (c : Crew) (g : Nat) (gd : Guard) : Option Nat := (c.parts g gd).head?

/-- A barrier instruction: `pre` gives a precise cause from the leading slice; `f` acts on the object of the target. -/
def barOp (s : State) (h : XHdr) (a : BitVec 6) (off : BitVec 32) (sregs : List Nat) (write effect rel : Bool)
    (pre : Crew → Nat → Bool) (f : State → Crew → Nat → Nat → BitVec 64 → Target → Option State) : Out :=
  asGang s fun c g =>
    match c.lead g h.guard with
    | none => s.doneAt c.uid g 12 effect
    | some l =>
      if pre c (l / 4) then s.trap c g 12 cSHAPE 0
      else
        let va := c.sea (l / 4) a off
        s.memOp c g
          { len := 12, lanes := [(l, va)], acc := barAcc write, vregs := [], sregs := sregs, effect := effect, rel := rel,
            rootOnly := false, watchRd := false, watchWr := false }
          fun s ts =>
            match ts with
            | [] => some s
            | (_, _, t) :: _ => f s c g (l / 4) va t

/-- BARINIT (R194). -/
def execBarinit (o : BarB) (s : State) : Out :=
  barOp s o.h o.a o.off [] true false false
    (fun c i => (c.sget i o.b.toNat).toNat = 0 || 0xFFFF < (c.sget i o.b.toNat).toNat)
    fun s c _ i _ t => s.initBar c t ((c.sget i o.b.toNat).setWidth 16)

/-- A step on an object whose QUOTA is set; a QUOTA of 0 holds the gang (R193). -/
def State.barStep (s : State) (c : Crew) (t : Target) (f : Bar → Bar) : Option (Bar × State) :=
  match s.readBar c t with
  | none => none
  | some (b, s) =>
    if b.quota = 0 then none
    else
      let (new, s) := s.mixBar t b (f b)
      (s.writeBar c t new).map fun s => (b, s)

/-- The count of an arrival. -/
def arrCount (o : BarArr) (c : Crew) (i : Nat) : Nat :=
  match o.n with
  | some r => (c.sget i r.toNat).toNat
  | none => 1

/-- BARARR (R195). -/
def execBararr (o : BarArr) (s : State) : Out :=
  barOp s o.h o.a o.off [o.d.toNat] true true (o.ord != .rlx) (fun c i => 0xFFFF < arrCount o c i)
    fun s c g i _ t => (s.barStep c t fun b => b.arrive (arrCount o c i)).map fun r =>
      r.2.modCrew c.uid (·.ssetGang g o.d.toNat (wordOf r.1.par))

/-- BAREXP (R196). -/
def execBarexp (o : BarB) (s : State) : Out :=
  barOp s o.h o.a o.off [] true false false (fun _ _ => false)
    fun s c _ i _ t => (s.barStep c t fun b => b.expect (c.sget64 i o.b.toNat)).map (·.2)

/-- A gang at a BARWAIT reads its object (R197): it passes when the object shows the other parity, else it waits. A check that the
read fails ends the wait with its fault. -/
def State.barLook (s : State) (c : Crew) (g lane : Nat) (va : BitVec 64) (par : Bool) : State :=
  let m : MemOp := { len := 12, lanes := [(lane, va)], acc := barAcc false, vregs := [], sregs := [], effect := false, rel := false,
                     rootOnly := false, watchRd := false, watchWr := false }
  let up := c.modGang g fun x => { x with wait := .none }
  match s.checkAddr c.atRoot m.acc va with
  | .bad k d v => s.lateAt up g m lane va k d v
  | .collapse line => s.waitCollapse up g m lane va line
  | .wait => s
  | .hold t => s.holdLanes c g [(lane, va, t)]
  | .ok t =>
    if s.poisonedAt c.atRoot 16 t then s.lateAt up g m lane va cECC 0 0 (some (s.errAt c.core t))
    else
      match s.readBar c t with
      | none =>
        match s.expiredLane c [(lane, va, t)] with
        | some (l, va, line) => s.lateTimeout up g m l va line
        | none => s.recallFor c [(lane, va, t)]
      | some (b, s) =>
        if b.par != par then (s.setCrew up).doneAt c.uid g 12 false
        else (s.modCrew c.uid (·.modGang g fun x => { x with wait := .barwait va par lane })).unhold c.uid g

/-- BARWAIT (R197). -/
def execBarwait (o : BarB) (s : State) : Out :=
  asGang s fun c g =>
    match c.lead g o.h.guard with
    | none => s.doneAt c.uid g 12 false
    | some l => s.barLook c g l (c.sea (l / 4) o.a o.off) ((c.sget (l / 4) o.b.toNat).getLsbD 0)

/-- A waiting gang reads the object again (R197). -/
def State.barResume (s : State) (c : Crew) (g : Nat) : State :=
  let w : Option Wait := (c.slices[g]?).map (·.wait)
  match w with
  | some (.barwait va par lane) => s.barLook c g lane va par
  | some .none | some (.regang _) | some (.phase _ _ _) | some (.waitany _) | some (.sleep _) | none => s

def execBarwaitResume (o : CrewGang) (s : State) : Out :=
  .next (match s.crew? o.crew with
    | some c => if c.preempted || c.saved || c.faulted.isSome || c.orphan.isSome then s else s.barResume c o.gang
    | none => s)

/-! ## Phases (R107, R199) -/

/-- A slice that waits for an advance of a domain goes on with the new count. -/
def Slice.phaseGo (x : Slice) (dom : Nat) (count : Word) : Slice :=
  match x.wait with
  | .phase d _ r => if d = dom then { x.sset r count with wait := .none, pc := x.pc + 12 } else x
  | .none | .regang _ | .barwait _ _ _ | .waitany _ | .sleep _ => x

/-- The same for slices whose crew is in trap mode: the wait is in the frame. -/
def Crew.phaseGo (c : Crew) (dom : Nat) (count : Word) : Crew :=
  let c' : Crew := { c with slices := c.slices.map fun x => x.phaseGo dom count }
  match c'.frame with
  | none => c'
  | some f =>
    let hit := fun (x : SliceFrame) => match x.wait with
      | .phase d _ r => if d = dom then some r else none
      | .none | .regang _ | .barwait _ _ _ | .waitany _ | .sleep _ => none
    { c' with
      slices := c'.zipFrame f fun x fr => match hit fr with
        | some r => x.sset r count
        | none => x,
      frame := some { f with slices := f.slices.map fun fr =>
        if (hit fr).isSome then { fr with wait := .none, pc := fr.pc + 12 } else fr } }

/-- The advance of a domain (R107): dirty lines are written back by mask in ascending cache number, every line of the domain
becomes a miss, the count rises, and every gang that waits goes on. -/
def State.advancePhase (s : State) (ctx : Nat) (dom : BitVec 3) : State :=
  match s.ctx? ctx with
  | none => s
  | some x =>
    let p := x.phase dom
    let n := p.count + 1
    let t := s.sweepPhased fun e => e.ctx == ctx && e.dom == dom
    let t := t.modCtx ctx fun x => { x with phases := modAt x.phases dom.toNat fun p =>
      { quota := p.next, next := p.next, arrived := 0, count := n } }
    { t with crews := t.crews.map fun c => if c.ctx == ctx then c.phaseGo dom.toNat n else c }

/-- PHASE (R199). -/
def execPhase (o : PhaseOp) (s : State) : Out :=
  asGang s fun c g =>
    match c.lead g o.h.guard, s.ctx? c.ctx with
    | none, _ | _, none => s.doneAt c.uid g 12 false
    | some _, some x =>
      if s.regsPending c.uid then s
      else
        let p := x.phase o.dom
        if p.quota = 0 then (s.modCrew c.uid (·.ssetGang g o.d.toNat p.count)).doneAt c.uid g 12 false
        else
          let t := s.modCtx c.ctx fun x => { x with phases := modAt x.phases o.dom.toNat fun p => { p with arrived := p.arrived + 1 } }
          let t := t.modCrew c.uid (·.modGang g fun y => { y with wait := .phase o.dom.toNat p.count o.d.toNat })
          if p.quota.toNat ≤ p.arrived.toNat + 1 then t.advancePhase c.ctx o.dom else t

/-! ## Mailboxes (R200) -/

/-- A lane's message goes out; its answer register is pending. -/
def State.postMail (s : State) (c : Crew) (g op d b : Nat) : List LaneTo → State
  | [] => s
  | (l, _, t) :: rest =>
    match t with
    | .mail k slot =>
      let m : Mail := { op := op, crew := c.uid, gang := g, mates := c.gangSlices g, slice := l / 4, lane := l, reg := d, core := k, slot := slot,
                        msg := c.rget64 false l b, ctx := c.ctx, epoch := s.epochOf c.ctx }
      let t : State := { s with mails := s.mails ++ [m] }
      (t.modCrew c.uid (·.modSlice (l / 4) fun x => { x with vpend := mset x.vpend (vkey l d) op })).postMail c g op d b rest
    | .dram _ _ _ _ _ | .scratch _ _ | .host _ _ | .rmt _ _ => s.postMail c g op d b rest

/-- MSEND (R200). -/
def execMsend (o : Msend) (s : State) : Out :=
  asGang s fun c g =>
    s.memOp c g
      { len := 12, lanes := c.laneEas g o.h o.ea, acc := ⟨8, true, .msend, false⟩, vregs := [o.d.toNat], sregs := [], effect := true,
        rel := o.rel, rootOnly := false, watchRd := false, watchWr := true }
      fun s ts =>
        let (op, s) := s.fresh
        some (s.postMail c g op o.d.toNat o.b.toNat ts)

/-- A core holds a block of a context. -/
def State.coreHolds (s : State) (core ctx : Nat) : Bool := s.blocks.any fun b => b.core == core && b.ctx == ctx && !b.saved

/-- An asynchronous answer reaches a lane's register. -/
def State.answerLane (s : State) (uid op lane reg : Nat) (w : Word) : State := s.modCrew uid (·.takeVector op lane reg w)

/-- An earlier message to the same slot, from a gang that the message's gang has a slice in common with, is still on its way: one
MSEND's messages go in lane order, and a gang's in program order (R200). -/
def mailBlocked (m : Mail) (earlier : List Mail) : Bool :=
  earlier.any fun e => e.core == m.core && e.slot == m.slot && e.crew == m.crew && e.mates.any m.mates.contains

/-- MAILBOX_DELIVERY of the idx-th message in flight (R200): 0 DONE, 6 FULL, 4 REFUSED. -/
def State.deliverMail (s : State) (idx : Nat) : State :=
  match s.mails[idx]? with
  | none => s
  | some m =>
    if mailBlocked m (s.mails.take idx) then s
    else
      let s := { s with mails := s.mails.eraseIdx idx }
      if !s.coreHolds m.core m.ctx then s.answerLane m.crew m.op m.lane m.reg 4
      else
        let q := mget [] (s.core m.core).mail m.slot
        if 4 ≤ q.length then s.answerLane m.crew m.op m.lane m.reg 6
        else
          ((s.modCore m.core fun k => { k with mail := mput [] k.mail m.slot (q ++ [m.msg]) }).latchMail m.core m.slot).answerLane
            m.crew m.op m.lane m.reg 0

def execMailboxDelivery (idx : Nat) (s : State) : Out := .next (s.deliverMail idx)

/-! ## Events (R202 to R205) -/

/-- The slot state an EVSET writes (R202). -/
def evArm (o : Evset) (c : Crew) (g i : Nat) : EvSlot :=
  let obj : BitVec 64 := match o.kind with
    | .bar _ | .timer => c.sget64 i o.a.toNat
    | .stat => BitVec.ofNat 64 o.a.toNat
    | .mbox => (c.sget i o.a.toNat).setWidth 64
    | .hyp => ((c.sget i o.a.toNat).setWidth 8).setWidth 64
  let par := match o.kind with
    | .bar b => (c.sget i b.toNat).getLsbD 0
    | .stat | .mbox | .hyp | .timer => false
  let kind : BitVec 3 := match o.kind with
    | .bar _ => 0 | .stat => 1 | .mbox => 2 | .hyp => 3 | .timer => 4
  { bound := true, kind := kind, obj := obj, parity := par, handler := c.gangPc g + o.off.signExtend 64 }

/-- The condition of a slot as it stands (R202); a barrier is read through `t`. -/
def State.evTrue (s : State) (c : Crew) (e : EvSlot) : Bool :=
  match e.kind.toNat with
  | 0 => match s.checkAddr c.atRoot (barAcc false) e.obj with
    | .ok t => (s.readBar c t).any fun r => r.1.par != e.parity
    | .hold _ | .bad _ _ _ | .collapse _ | .wait => false
  | 1 => c.pairWritten e.obj.toNat
  | 2 => !(mget [] (s.core c.core).mail e.obj.toNat).isEmpty
  | 3 => (s.ctx? c.ctx).any fun x => x.hypGone (e.obj.setWidth 8)
  | _ => e.obj.toNat ≤ s.dieTime (dieOfCore c.core)

/-- After a step, every bound slot of a crew on a core whose condition holds latches, whatever made it true: a .bar slot by any write to
its object, a .stat slot by an exit (R202, R203). -/
def State.sample (s : State) : State :=
  if s.crews.any fun c => !c.saved && c.slots.any fun e => e.bound && decide (e.kind.toNat < 2) then
    s.latch fun c e => !c.saved && decide (e.kind.toNat < 2) && s.evTrue c e
  else s

/-- The slot is armed: written, its pend bit cleared and the condition sampled (R202). -/
def State.arm (s : State) (c : Crew) (e : BitVec 3) (v : EvSlot) : State :=
  let bit : BitVec 8 := BitVec.ofNat 8 (2 ^ e.toNat)
  let on := s.evTrue c v
  s.modCrew c.uid fun c =>
    { c with slots := modAt c.slots e.toNat fun _ => v, pend := if on then c.pend ||| bit else c.pend &&& ~~~bit }

def execEvset (o : Evset) (s : State) : Out :=
  asGang s fun c g =>
    match c.lead g o.h.guard with
    | none => s.doneAt c.uid g 12 false
    | some l =>
      let v := evArm o c g (l / 4)
      match o.kind with
      | .mbox => if 63 < v.obj.toNat then s.trap c g 12 cSHAPE 0 else (s.arm c o.e v).doneAt c.uid g 12 false
      | .bar _ =>
        s.memOp c g
          { len := 12, lanes := [(l, v.obj)], acc := barAcc false, vregs := [], sregs := [], effect := false, rel := false,
            rootOnly := false, watchRd := false, watchWr := false }
          fun s ts =>
            match ts with
            | [] => some s
            | (_, _, t) :: _ =>
              match s.readBar c t with
              | none => none
              | some (_, s) => some (s.arm c o.e { v with place := barPlace t })
      | .stat | .hyp | .timer => (s.arm c o.e v).doneAt c.uid g 12 false

/-- EVCLR (R204). -/
def execEvclr (o : Evclr) (s : State) : Out :=
  asGang s fun c g =>
    match c.lead g o.h.guard with
    | none => s.doneAt c.uid g 12 false
    | some _ =>
      (s.modCrew c.uid fun c =>
        { c with slots := modAt c.slots o.e.toNat fun e => { e with bound := false },
                 pend := c.pend &&& ~~~(BitVec.ofNat 8 (2 ^ o.e.toNat)) }).doneAt c.uid g 12 false

/-- The slots of a crew that are bound, as bits. -/
def Crew.boundBits (c : Crew) : BitVec 8 :=
  (c.slots.mapIdx fun i e => if e.bound then BitVec.ofNat 8 (2 ^ i) else (0 : BitVec 8)).foldl (· ||| ·) 0

/-- Every slice goes on at a handler, where a region starts (R205, R38). -/
def State.toHandler (s : State) (uid : Nat) (h : BitVec 64) : State :=
  match s.crew? uid with
  | none => s
  | some c =>
    let c' : Crew := { c with slices := c.slices.map fun x => if x.live then { x with pc := h, wait := .none } else x }
    (s.setCrew c').startRegion uid (c'.gangs.headD 0)

/-- A message that a crew takes from a mailbox with an uncorrectable error: a late ECC of the gang at its WAITANY (R326, R369). -/
def State.mailFault (s : State) (c : Crew) : State :=
  s.lateFault c c.holder (c.lanes.filter (c.reachable c.holder)) [] []
    { cause := cECC, late := true, lane := 0, detail := 0, level := 0, epc := c.gangPc c.holder, val := 0,
      err := some ⟨0, c.core / 32, 0⟩ }

/-- The lowest of the given slots that is pending and live is taken; an empty mailbox only loses its bit (R205). -/
def State.takeEvent (s : State) (uid : Nat) (live : BitVec 8) : List Nat → Bool × State
  | [] => (false, s)
  | e :: es =>
    match s.crew? uid with
    | none => (false, s)
    | some c =>
      if !(c.pend &&& live).getLsbD e then s.takeEvent uid live es
      else
        match c.slots[e]? with
        | none => s.takeEvent uid live es
        | some v =>
          let bit : BitVec 8 := BitVec.ofNat 8 (2 ^ e)
          if v.kind = 2 then
            match mget [] (s.core c.core).mail v.obj.toNat with
            | [] => (s.modCrew uid fun c => { c with pend := c.pend &&& ~~~bit }).takeEvent uid live es
            | m :: ms =>
              let bad := (s.core c.core).mailBad.contains v.obj.toNat
              let t := if bad then s.mailFault c else s
              let t := t.modCore c.core fun k =>
                { k with mail := mput [] k.mail v.obj.toNat ms, mailBad := k.mailBad.filter (· != v.obj.toNat) }
              let t := t.modCrew uid fun c =>
                { c with evdata := m, evwhich := BitVec.ofNat 32 e, pend := if ms.isEmpty then c.pend &&& ~~~bit else c.pend }
              (true, t.toHandler uid v.handler)
          else
            let t := s.modCrew uid fun c =>
              { c with pend := c.pend &&& ~~~bit, evwhich := BitVec.ofNat 32 e,
                       slots := modAt c.slots e fun v => { v with bound := false } }
            (true, t.toHandler uid v.handler)

/-- WAITANY (R205). -/
def execWaitany (o : Waitany) (s : State) : Out :=
  asGang s fun c g =>
    if !c.ganged g then s.trap c g 12 cGANG 0
    else
      let live := o.list &&& c.boundBits &&& ~~~c.emask
      if live = 0 then (s.modCrew c.uid fun c => { c with evwhich := 0xFFFFFFFF }).doneAt c.uid g 12 false
      else
        match s.takeEvent c.uid live (List.range 8) with
        | (true, t) => t
        | (false, t) => t.modCrew c.uid (·.modGang g fun x => { x with wait := .waitany live })

/-- WAITANY_RESUME: a waiting crew takes the lowest eligible event (R205). -/
def execWaitanyResume (o : CrewRef) (s : State) : Out :=
  .next (match s.crew? o.crew with
    | none => s
    | some c =>
      if c.preempted || c.saved || c.faulted.isSome || c.orphan.isSome then s
      else
        match c.slices.findSome? fun x => if !x.live then none else match x.wait with
          | .waitany live => some live
          | .none | .regang _ | .barwait _ _ _ | .phase _ _ _ | .sleep _ => none with
        | some live => (s.takeEvent c.uid live (List.range 8)).2
        | none => s)

/-- EVENT_TIMER: a timer slot whose deadline has come latches (R202). -/
def execEventTimer (o : CrewSlot) (s : State) : Out :=
  .next (s.modCrew o.crew fun c =>
    match c.slots[o.slot]? with
    | some e => if e.bound && e.kind == 4 && e.obj.toNat ≤ s.dieTime (dieOfCore c.core) then { c with pend := c.pend ||| BitVec.ofNat 8 (2 ^ o.slot) }
                else c
    | none => c)

/-- SLEEP_EXPIRY: the gang goes on once reftime has reached its deadline (R171). -/
def execSleepExpiry (o : CrewGang) (s : State) : Out :=
  .next (s.modCrew o.crew fun c =>
    c.modGang o.gang fun x => match x.wait with
      | .sleep d => if d ≤ s.dieTime (dieOfCore c.core) then { x with wait := .none } else x
      | .none | .regang _ | .barwait _ _ _ | .phase _ _ _ | .waitany _ => x)

end Sys2Proof.Machine
end

