-- ==== Sys2Proof/Machine/Tensor.lean ====
section
/-!
DEFINITION. What the engine instructions share (09 R215 to R223): tensor descriptors (R219 to R222), status words (06 R135, R136),
and the accesses of the copy unit (05 R113; 04 R73; 09 R240).
-/
namespace Sys2Proof.Machine

/-! ## Descriptors of a context (R219) -/

/-- Descriptor n of a context; all bits 0 until it is set. -/
def State.td (s : State) (ctx n : Nat) : BitVec 256 := ((s.ctx? ctx).map fun x => mget 0 x.tds n).getD 0
def State.setTd (s : State) (ctx n : Nat) (v : BitVec 256) : State := s.modCtx ctx fun x => { x with tds := mput 0 x.tds n v }

/-! ## Status words (R136) -/

/-- At issue both registers of the pair become pending in every slice of the gang (R136). -/
def State.pendStatus (s : State) (uid g reg op : Nat) : State :=
  s.modCrew uid (·.modGang g fun x => { x with spend := mset (mset x.spend reg op) (reg + 1) op })

/-- Where the word of an instruction of gang g goes. -/
def Crew.statusTo (c : Crew) (g : Nat) (d : BitVec 6) : StatusTo := { crew := c.uid, slices := c.gangSlices g, reg := d.toNat }

/-- A slice receives a status word. -/
def Slice.takeStatus (x : Slice) (op reg : Nat) (w : BitVec 64) : Slice :=
  (x.takeScalar op reg (lo32 w)).takeScalar op (reg + 1) (hi32 w)

/-- The engine writes the word: both halves together, in every slice of the gang that issued (R135, R136). -/
def State.writeStatus (s : State) (dest : StatusTo) (op : Nat) (w : BitVec 64) : State :=
  ((s.modCrew dest.crew fun c =>
    { c with slices := c.slices.mapIdx fun i x => if dest.slices.contains i then x.takeStatus op dest.reg w else x }).latchStat
      dest.crew).reap

/-! ## Accesses of the copy unit (R73, R113, R240) -/

/-- What an engine's access reaches: memory (at once, or once a home lets it go on), registers of a receive window, or accumulators. -/
inductive EngT where
  | mem (t : Target)
  | hold (loc key pa : Nat)
  | regs (core off : Nat)
  | acc (core off : Nat)
  | bad (cause : BitVec 8)
  | collapse (line : Nat)
  | wait
  deriving DecidableEq, Repr

/-- A place in the on-chip map (R73, R238): registers only as a destination, accumulators only of the crew's own core. -/
def State.engChip (s : State) (c : Crew) (write : Bool) (die core off n : Nat) : EngT :=
  match s.chip c.ctx die core off with
  | none | some (_, .mail _) => .bad cPROT
  | some (k, .regs o) => if write then .regs k o else .bad cPROT
  | some (k, .acc o) => if k = c.core then .acc k o else .bad cPROT
  | some (k, .scratch b) => if (s.scratchOwner c.ctx k b n).isSome then .mem (.scratch k b) else .bad cPROT

/-- n bytes at an address of a space, for operation `id` of an engine with TLB `ag` (R177 without alignment; R348, R354). -/
def State.engTo (s : State) (c : Crew) (ag : Agent) (id : Nat) (write : Bool) (space : Nat) (a : BitVec 64) (n : Nat) : EngT :=
  if space = 1 then
    let (off, size) := s.scratch c
    if a.toNat + n ≤ size then .mem (.scratch c.core (off + a.toNat)) else .bad cPROT
  else if space = 2 then
    match physOf a.toNat with
    | .chip d k o => s.engChip c write d k o n
    | .dram _ _ | .host _ _ | .none => .bad cPROT
  else if !canonical a then .bad cPROT
  else
    match s.ctx? c.ctx with
    | none => .bad cPROT
    | some x =>
      if s.rewriteHolds ag x id a then .wait
      else
        match s.reach ag x id a write false (fun _ => true) with
        | .error (.fault k _ _) => .bad k
        | .error (.collapse line) => .collapse line
        | .error .wait => .wait
        | .ok (.dram _ loc key pa, held) =>
          if held then .hold loc key pa else .mem (.dram loc key (x.rKind a) (x.rDomain a) pa)
        | .ok (.host w o, _) => if write && !(s.hwin c.ctx w).wr then .bad cPROT else .mem (.host w o)
        | .ok (.rmt node pa, _) => if s.pathSpent 0 node pa then .bad cPROT else .mem (.rmt node pa)
        | .ok (.chip d k o, _) => s.engChip c write d k o n

/-- How an engine's read or write ends. -/
inductive Eng where
  | ok (x : Nat) (s : State)
  | bad (cause : BitVec 8) (s : State)
  /-- it waits: a blocked line, or a collapse whose recall has been sent -/
  | wait (s : State)

/-- Bytes of an accumulator window from an offset (R71). -/
def State.accRead (s : State) (core off : Nat) : Nat → Nat
  | 0 => 0
  | n + 1 => ((mget 0 (s.core core).acc (off / 4)).toNat / 2 ^ (8 * (off % 4))) % 256 + 256 * s.accRead core (off + 1) n

/-- One byte of an accumulator window. -/
def State.accPut (s : State) (core off : Nat) (b : Nat) : State :=
  s.modCore core fun k =>
    let w := (mget 0 k.acc (off / 4)).toNat
    let sh := 8 * (off % 4)
    { k with acc := mput 0 k.acc (off / 4) (BitVec.ofNat 32 (w - (w / 2 ^ sh % 256) * 2 ^ sh + b * 2 ^ sh)) }

/-- The crew of a context whose registers lie at an offset of a core's register window, with the register index of the byte:
vector register, lane and byte (R72). -/
def State.regOf (s : State) (saved : Bool) (ctx core off : Nat) : Option (Nat × Nat × Nat × Nat) :=
  s.crews.findSome? fun c =>
    let start := c.sched * 0x20000 + c.regOff
    let row := 16 * c.slices.length
    if c.ctx == ctx && c.core == core && c.saved == saved && start ≤ off && off < start + row * c.vregs then
      some (c.uid, (off - start) / row, (off - start) % row / 4, off % 4)
    else none

/-- The same of a resident crew. -/
def State.regAt (s : State) (ctx core off : Nat) : Option (Nat × Nat × Nat × Nat) := s.regOf false ctx core off

/-- One byte of a register window. -/
def State.regPut (s : State) (ctx core off : Nat) (b : Nat) : State :=
  match s.regAt ctx core off with
  | none => s
  | some (uid, n, l, i) => s.modCrew uid fun c =>
      let w := (c.vget l n).toNat
      c.vset l n (BitVec.ofNat 32 (w - (w / 2 ^ (8 * i) % 256) * 2 ^ (8 * i) + b * 2 ^ (8 * i)))

/-- An engine's access waits for a collapse, or ends with TIMEOUT once its recall has expired (R352). -/
def State.engWait (s : State) (c : Crew) (a : BitVec 64) (t : Target) : Eng :=
  match s.expiredLane c [(0, a, t)] with
  | some (_, _, line) => .bad cTIMEOUT (s.forgetRecall line)
  | none => .wait (s.recallFor c [(0, a, t)])

/-- The same for a line of page tables. -/
def State.engCollapse (s : State) (c : Crew) (line : Nat) : Eng :=
  if s.expired line then .bad cTIMEOUT (s.forgetRecall line) else .wait (s.settle none line (s.rto c.ctx)).2

/-- How an agent's access ends, for an engine. -/
def Agd.eng : Agd → Eng
  | .ok x s => .ok x s
  | .bad k _ _ s => .bad k s
  | .wait s => .wait s

/-- An engine's read of a target: the host and peers of the package answer as they will (R348, R350); a line in U(op) that a copy
reads leaves a plain copy in the core's L1 (R95), any other line none. -/
def State.engFetch (s : State) (c : Crew) (ag : Agent) (a : BitVec 64) (t : Target) (n : Nat) : Eng :=
  let plain := fun (na : Bool) => match s.readTo c.atRoot na t n with
    | some (x, t') => Eng.ok x t'
    | none => s.engWait c a t
  match t with
  | .host w o => ((s.hostAsk (s.firstDie c.ctx) w o n).hostAnswer n).eng
  | .rmt node pa =>
    match s.peerOf node with
    | some p => (s.peerCall c.ctx p pa (.read n)).eng
    | none => plain true
  | .dram loc _ _ _ _ => if s.poisonedAt c.atRoot n t then .bad cECC s else plain !(ag == .copyUnit c.core && (s.uline? (loc / 128)).isSome)
  | .scratch _ _ | .mail _ _ => if s.poisonedAt c.atRoot n t then .bad cECC s else plain true

/-- An engine reads n bytes, within one line. -/
def State.engRead (s : State) (c : Crew) (ag : Agent) (id : Nat) (space : Nat) (a : BitVec 64) (n : Nat) : Eng :=
  match s.engTo c ag id false space a n with
  | .bad k => .bad k s
  | .wait => .wait s
  | .hold loc key pa => .wait (s.enqueue ag c.ctx id 0 a loc key pa)
  | .collapse line => s.engCollapse c line
  | .regs _ _ => .bad cPROT s
  | .acc k o => if (linesOf o n).any (s.core k).accBad.contains then .bad cECC s else .ok (s.accRead k o n) s
  | .mem t =>
    match s.engFetch c ag a t n with
    | .ok x t' => .ok x (t'.dequeue (·.is ag c.ctx id a))
    | e => e

/-- An engine's write to a target. -/
def State.engStore (s : State) (c : Crew) (a : BitVec 64) (t : Target) (n x : Nat) : Eng :=
  let plain := match s.writeTo c.atRoot t n x with
    | some t' => Eng.ok 0 (if n = 128 then t'.cureStored c.atRoot n [(0, a, t)] else t')
    | none => s.engWait c a t
  match t with
  | .rmt node pa =>
    match s.peerOf node with
    | some p => (s.peerCall c.ctx p pa (.write (toBytes n x))).eng
    | none => plain
  | .dram _ _ _ _ _ | .host _ _ | .scratch _ _ | .mail _ _ => plain

/-- A crew's armed window holds n bytes of its core's register window. -/
def Crew.inWindow (c : Crew) (off n : Nat) : Bool :=
  c.window.any fun w =>
    let lo := c.sched * 0x20000 + c.regOff + w.1 * 16 * c.slices.length
    decide (lo ≤ off) && decide (off + n ≤ lo + 16 * c.slices.length * w.2)

/-- An engine writes n bytes of x, within one line; registers only of the crew whose window has admitted it (R73). -/
def State.engWrite (s : State) (c : Crew) (ag : Agent) (id : Nat) (adm : Option Nat) (space : Nat) (a : BitVec 64) (n x : Nat) : Eng :=
  match s.engTo c ag id true space a n with
  | .bad k => .bad k s
  | .wait => .wait s
  | .hold loc key pa => .wait (s.enqueue ag c.ctx id 0 a loc key pa)
  | .collapse line => s.engCollapse c line
  | .regs k o =>
    if (adm.bind s.crew?).any fun q => q.core == k && q.inWindow o n then
      .ok 0 ((List.range n).foldl (fun s i => s.regPut c.ctx k (o + i) (x / 2 ^ (8 * i) % 256)) s)
    else .bad cWINDOW s
  | .acc k o => .ok 0 ((List.range n).foldl (fun s i => s.accPut k (o + i) (x / 2 ^ (8 * i) % 256))
                  (s.modCore k fun q => if n = 128 then { q with accBad := q.accBad.filter (· != o / 128) } else q))
  | .mem t =>
    match s.engStore c a t n x with
    | .ok y t' => .ok y (t'.dequeue (·.is ag c.ctx id a))
    | e => e

/-- n bytes read piece by piece, a piece ending at a line's end; `fuel` bounds the pieces. -/
def State.engReadAll (c : Crew) (ag : Agent) (id : Nat) (space : Nat) : Nat → State → BitVec 64 → Nat → Eng
  | 0, s, _, _ => .ok 0 s
  | fuel + 1, s, a, n =>
    if n = 0 then .ok 0 s
    else
      let k := min n (128 - a.toNat % 128)
      match s.engRead c ag id space a k with
      | .ok x s =>
        match State.engReadAll c ag id space fuel s (a + BitVec.ofNat 64 k) (n - k) with
        | .ok y s => .ok (x + 2 ^ (8 * k) * y) s
        | r => r
      | r => r

/-- n bytes at an address: each line of the range is read once. -/
def State.engReadN (s : State) (c : Crew) (ag : Agent) (id : Nat) (space : Nat) (a : BitVec 64) (n : Nat) : Eng :=
  State.engReadAll c ag id space (n / 128 + 2) s a n

/-! ## TDSET and TDGET (R221, R222) -/

/-- The 256 bits of eight scalars from r. -/
def Crew.sget256 (c : Crew) (i r : Nat) : BitVec 256 := BitVec.ofNat 256 (ofWords ((rangeFrom r 8).map (c.sget i)))

/-- The load of TDSET.m, which reads as at the root (R223). -/
def tdsetLoad (l : Nat) (va : BitVec 64) : MemOp :=
  { len := 12, lanes := [(l, va)], acc := ⟨32, false, .load, true⟩, vregs := [], sregs := [], effect := false, rel := false,
    rootOnly := false, watchRd := true, watchWr := false }

def execTdset (o : Tdset) (s : State) : Out :=
  asGang s fun c g =>
    match c.lead g o.h.guard with
    | none => s.doneAt c.uid g 12 false
    | some l =>
      match o.src with
      | .regs a => (s.setTd c.ctx o.n.toNat (c.sget256 (l / 4) a.toNat)).doneAt c.uid g 12 false
      | .mem a off =>
        s.memOp c.atRoot g (tdsetLoad l (c.sea (l / 4) a off)) fun s ts =>
          match ts with
          | [] => some s
          | (_, _, t) :: _ => (s.readTo c.atRoot false t 32).map fun r => r.2.setTd c.ctx o.n.toNat (BitVec.ofNat 256 r.1)

/-- Write consecutive scalars in every slice of a gang. -/
def Crew.ssetGangList (c : Crew) (g : Nat) : Nat → List Word → Crew
  | _, [] => c
  | r, w :: ws => (c.ssetGang g r w).ssetGangList g (r + 1) ws

def execTdget (o : Tdget) (s : State) : Out :=
  asGang s fun c g =>
    match c.lead g o.h.guard with
    | none => s.doneAt c.uid g 12 false
    | some _ =>
      if tdIll (s.td c.ctx o.n.toNat) then s.trap c g 12 cTDESC 0
      else (s.modCrew c.uid (·.ssetGangList g o.d.toNat (toWords 8 (s.td c.ctx o.n.toNat).toNat))).doneAt c.uid g 12 false

end Sys2Proof.Machine
end

