-- ==== Sys2Proof/Machine/Matrix.lean ====
section
/-!
DEFINITION. The matrix engine: the numbers of the matrix path (03 R52 to R57), issue (09 R224 to R229, R235 to R237), start with
shadow tiles (R230, R231) and completion (R225 to R237).
-/
namespace Sys2Proof.Machine

/-! ## Elements (R44, R52, R53, R55) -/

/-- Formats 0, 1 and 4 are floating point. -/
def mFloat (fmt : Nat) : Bool := fmt == 0 || fmt == 1 || fmt == 4

/-- The value of a floating-point code. -/
def mVal (fmt code : Nat) : FV := if fmt = 0 then e4m3.read code else if fmt = 1 then e5m2.read code else bf16.read code

/-- The value of an integer code. -/
def mInt (fmt code : Nat) : Int := if fmt = 3 then (BitVec.ofNat 4 code).toInt else (BitVec.ofNat 8 code).toInt

/-- A NaN, an infinity or the reserved S4 code (R55). -/
def mBad (fmt code : Nat) : Bool :=
  if mFloat fmt then
    match mVal fmt code with
    | .fin _ _ _ => false
    | .nan _ | .inf _ => true
  else fmt == 3 && code == 8

/-- Element widths (R52). -/
def mWa (fmt : Nat) : Int := if fmt = 4 then 12 else if fmt = 3 then 4 else 8
def mWb (fmt : Nat) : Int := if fmt = 4 then 12 else 8

/-- E(x) of a non-zero element. -/
def mExp (fmt code : Nat) : Option Int :=
  match mVal fmt code with
  | .fin _ m e => if m = 0 then none else some ((Nat.log2 m : Int) + e)
  | .nan _ | .inf _ => none

/-- The group exponent (R53). -/
def groupExp (fmt : Nat) (codes : List Nat) : Int :=
  match codes.filterMap (mExp fmt) with
  | [] => 0
  | x :: xs => xs.foldl (fun a b => if a < b then b else a) x

/-- The unit exponent of a group. -/
def unitExp (fmt : Nat) (w : Int) (codes : List Nat) : Int := if mFloat fmt then groupExp fmt codes - (w - 1) else 0

/-- m × 2^e rounded down. -/
def floorShift (m : Nat) (e : Int) : Nat := if 0 ≤ e then m * 2 ^ e.toNat else m / 2 ^ (-e).toNat

/-- An element aligned in a group with unit exponent u (R53). -/
def alpha (fmt : Nat) (u : Int) (code : Nat) : Int :=
  if mFloat fmt then
    match mVal fmt code with
    | .fin n m e => if n then -(floorShift m (e - u) : Int) else floorShift m (e - u)
    | .nan _ | .inf _ => 0
  else mInt fmt code

/-- Element i of a row's bytes (R44, R219). -/
def elemAt (fmt row i : Nat) : Nat :=
  if fmt = 3 then row / 2 ^ (4 * i) % 16 else row / 2 ^ (8 * fmtBytes fmt * i) % 2 ^ (8 * fmtBytes fmt)

/-! ## A chunk (R54 to R57) -/

/-- Bits of an index, group size M and kept per group N of a pattern (R227). -/
def patM (pat : BitVec 2) : Nat := if pat = 1 then 4 else if pat = 2 then 8 else 32
def patBm (pat : BitVec 2) : Nat := if pat = 1 then 2 else if pat = 2 then 3 else 5
def SubArray.code (b : SubArray) (row col : Nat) : Nat := (mget 0 b.cells (row * 256 + col)).toNat

/-- The terms of group g of chunk k in column j: products' sum and exponent. -/
def SubArray.group (b : SubArray) (fa : Nat) (a : List Nat) (k g j : Nat) : Int × Int :=
  let fb := b.fmt.toNat
  let ag := (a.drop (32 * g)).take 32
  let ua := unitExp fa (mWa fa) ag
  if b.pat = 0 then
    let bg := (rangeFrom (128 * k + 32 * g) 32).map fun r => b.code r j
    let ub := unitExp fb (mWb fb) bg
    (((ag.zip bg).map fun p => alpha fa ua p.1 * alpha fb ub p.2).foldl (· + ·) 0, ua + ub)
  else
    let band := 4 * k + g
    let ub := unitExp fb (mWb fb) ((rangeFrom (32 * (band / 2)) 32).map fun r => b.code r j)
    let m := patM b.pat
    let term := fun (e : Nat) =>
      let i := (mget 0 b.idx ((16 * band + e) * 256 + j)).toNat
      alpha fa ua (ag.getD (e / (m / 2) * m + i) 0) * alpha fb ub (b.code (16 * band + e) j)
    (((List.range 16).map term).foldl (· + ·) 0, ua + ub)

/-- Rows of the tile that a chunk uses. -/
def SubArray.chunkRows (b : SubArray) (k : Nat) : List Nat := if b.pat = 0 then rangeFrom (128 * k) 128 else rangeFrom (64 * k) 64

/-- One term of the 48-bit window. -/
def windowTerm (x : Int) (p : Int × Int) : Int :=
  let q := floorShift p.1.natAbs (p.2 - x + 16)
  if p.1 < 0 then -(q : Int) else q

/-- Only invalid and overflow are raised (R57). -/
def mFlags (f : BitVec 5) : BitVec 5 := f &&& (fNV ||| fOF)

/-- The value c of a chunk with its flags. -/
def SubArray.chunk (b : SubArray) (fa : Nat) (a : List Nat) (k j : Nat) : FRes :=
  if a.any (mBad fa) || (b.chunkRows k).any fun r => mBad b.fmt.toNat (b.code r j) then (f32.nan, fNV)
  else
    let ps := (List.range 4).map fun g => b.group fa a k g j
    if !mFloat fa then
      let t := (ps.map (·.1)).foldl (· + ·) 0
      f32.round .rne false (decide (t < 0)) t.natAbs 0 false
    else
      match (ps.filter fun p => p.1 != 0).map (·.2) with
      | [] => (0, 0)
      | e :: es =>
        let x := es.foldl (fun a b => if a < b then b else a) e
        let q := (ps.map (windowTerm x)).foldl (· + ·) 0
        f32.round .rne false (decide (q < 0)) q.natAbs (x - 16) false

/-- step(k) of R54: acc with a chunk added. -/
def SubArray.step (b : SubArray) (fa : Nat) (a : List Nat) (sa : Nat) (k j : Nat) (acc : FRes) : FRes :=
  let c := b.chunk fa a k j
  let sb := (mget 0x3F800000 b.scales (k * 2 + j / 128)).toNat
  let sc := f32.mulV .rne (f32.read sa) (f32.read sb)
  let v := f32.mulV .rne (f32.read c.1) (f32.read sc.1)
  let r := f32.addV .rne (f32.read acc.1) (f32.read v.1)
  (r.1, acc.2 ||| mFlags (c.2 ||| sc.2 ||| v.2 ||| r.2))

/-- Chunks of a sub-array: two dense, four sparse. -/
def SubArray.chunks (b : SubArray) : Nat := if b.pat = 0 then 2 else 4

/-- One element of a row through a chain: A codes by column, A scales by global chunk (R230). -/
def chainElem (subs : List SubArray) (fa : Nat) (codes : List Nat) (sas : List Nat) (j : Nat) (acc : Nat) : FRes :=
  (subs.foldl (fun (st : Nat × FRes) b =>
    (st.1 + b.chunks, (List.range b.chunks).foldl (fun acc k =>
      b.step fa ((codes.drop ((st.1 + k) * 128)).take 128) (sas.getD (st.1 + k) 0x3F800000) k j acc) st.2)) (0, (acc, 0))).2

/-! ## Tiles (R231, R232) -/

def Core.tag (k : Core) (t : Nat) : BitVec 8 := mget 0 k.tags t
def Core.setTag (k : Core) (t : Nat) (h : BitVec 8) : Core := { k with tags := mput 0 k.tags t h }
def Core.sub (k : Core) (i : Nat) : SubArray :=
  k.subs.getD i { valid := false, fmt := 0, pat := 0, gen := 0, badGens := [], cells := [], idx := [], scales := [] }

/-- The other tile of a sub-array. -/
def partner (t : Nat) : Nat := if t % 2 = 0 then t + 1 else t - 1

/-- The contents of a tile, by row × 256 + column. -/
def Core.tile (k : Core) (t : Nat) : SMap Word := (k.acc.filter fun e => e.1 / 32768 == t).map fun e => (e.1 - t * 32768, e.2)

/-- The pieces of a tile that hold an uncorrectable error (R369). -/
def Core.tileBad (k : Core) (t : Nat) : List Nat := (k.accBad.filter (· / 1024 == t)).map (· - t * 1024)

/-- Replace a tile. -/
def Core.setTile (k : Core) (t : Nat) (m : SMap Word) (bad : List Nat) : Core :=
  { k with acc := (k.acc.takeWhile fun e => e.1 < t * 32768) ++
             ((m.map fun e => (e.1 + t * 32768, e.2)) ++ k.acc.dropWhile fun e => e.1 < (t + 1) * 32768),
           accBad := k.accBad.filter (· / 1024 != t) ++ bad.map (· + t * 1024) }

/-- A row of a tile holds an uncorrectable error. -/
def Core.rowBad (k : Core) (t row : Nat) : Bool := (rangeFrom (t * 1024 + row * 8) 8).any k.accBad.contains

/-- A row of a tile is wholly written. -/
def Core.cureRow (k : Core) (t row : Nat) : Core :=
  { k with accBad := k.accBad.filter fun l => !(rangeFrom (t * 1024 + row * 8) 8).contains l }

/-- The tile a write acts on, and whether it is claimed first; none for BUSY (R231 steps 1 to 3). -/
def Core.writeTile (k : Core) (h : BitVec 8) (anc : List (BitVec 8)) (t : Nat) : Option (Nat × Bool) :=
  if k.tag t != 0 && k.tag t != h && !anc.contains (k.tag t) then none
  else if h = 0 then some (t, false)
  else if k.tag (partner t) = h then some (partner t, false)
  else if k.tag (partner t) = 0 then some (partner t, true)
  else none

/-- The tile ACCRD reads; none for zeros (R231 steps 1, 2 and 4). -/
def Core.readTile (k : Core) (h : BitVec 8) (anc : List (BitVec 8)) (t : Nat) : Option Nat :=
  if k.tag t != 0 && k.tag t != h && !anc.contains (k.tag t) then none
  else if h = 0 then some t
  else if k.tag (partner t) = h || anc.contains (k.tag (partner t)) then some (partner t)
  else some t

/-- A partner is claimed (R231). -/
def Core.claim (k : Core) (h : BitVec 8) (t : Nat) : Core := (k.setTile t (k.tile (partner t)) (k.tileBad (partner t))).setTag t h

/-! ## Issue (R217, R224) -/

/-- A matrix operation enters its queues; its status pair, if any, is pending. -/
def State.issueMx (s : State) (c : Crew) (g : Nat) (d : Option (BitVec 6)) (subs : List Nat) (kind : MxKind) : State :=
  let (id, s) := s.fresh
  let k := s.core c.core
  let op : MxOp :=
    { id := id, ctx := c.ctx, crew := c.uid, block := c.block, slices := c.gangSlices g, dest := d.map (c.statusTo g),
      pc := c.gangPc g, kind := kind, hyp := c.hyp, subs := subs.map fun i => (i, (k.sub i).gen),
      recs := subs.map fun i => (i, (k.sub i).fmt, (k.sub i).pat), started := false, tiles := [], busy := false, refuted := none,
      flags := 0 }
  let s := s.setCore c.core { k with mq := k.mq ++ [op] }
  let s := match d with
    | some r => s.pendStatus c.uid g r.toNat id
    | none => s
  s.doneAt c.uid g 12 false

/-- The record of a sub-array takes a new load (R224). -/
def SubArray.record (b : SubArray) (newGen : Bool) (fmt : Nat) (pat : BitVec 2) : SubArray :=
  { b with valid := true, fmt := BitVec.ofNat 4 fmt, pat := pat, gen := if newGen then b.gen + 1 else b.gen }

def State.modSub (s : State) (core i : Nat) (f : SubArray → SubArray) : State :=
  s.modCore core fun k => { k with subs := modAt k.subs i f }

/-- Conditions of a stationary load's descriptor (R225, R227). -/
def loadTd (t : BitVec 256) (sparse : Nat) : Bool :=
  !tdIll t && tdFmt t ≤ 4 && tdSpace t ≤ 1 && tdSparse t == sparse && (tdSgran t == 0 || tdSgran t == 2) &&
  (tdBase t).toNat % 16 == 0 && tdStride t % 16 == 0

/-- MLOAD (R225). -/
def execMload (o : Mload) (s : State) : Out :=
  asGang s fun c g =>
    match c.lead g o.h.guard with
    | none => s.doneAt c.uid g 12 false
    | some _ =>
      let t := s.td c.ctx o.n.toNat
      if !loadTd t 0 then s.trap c g 12 cTDESC 0
      else if 256 < tdRows t || 256 < tdCols t then s.trap c g 12 cSHAPE 0
      else (s.modSub c.core o.sub.toNat (·.record true (tdFmt t) 0)).issueMx c g (some o.d) [o.sub.toNat] (.load t o.west)

/-- The PAT field of a pattern. -/
def patCode : SpPat → BitVec 2
  | .p24 => 1
  | .p48 => 2
  | .p1632 => 3

/-- MLOADSP (R227, R228). -/
def execMloadsp (o : Mloadsp) (s : State) : Out :=
  asGang s fun c g =>
    match c.lead g o.h.guard with
    | none => s.doneAt c.uid g 12 false
    | some _ =>
      let t := s.td c.ctx o.n.toNat
      let pat := patCode o.pat
      let bands := if o.four then 4 else 2
      if !loadTd t pat.toNat then s.trap c g 12 cTDESC 0
      else if 256 < tdRows t || 256 < tdCols t || (c.parts g o.h.guard).length != 32 then s.trap c g 12 cSHAPE 0
      else
        let b := (s.core c.core).sub o.sub.toNat
        let metas := c.lanes.flatMap fun l => (List.range (4 * patBm pat * bands)).map fun q => (vkey l q, c.vget l (o.b.toNat + q))
        let mismatch := o.first != 0 && (!b.valid || b.fmt.toNat != tdFmt t || b.pat != pat)
        let s := if o.first = 0 then s.modSub c.core o.sub.toNat (·.record true (tdFmt t) pat) else s
        s.issueMx c g (some o.d) [o.sub.toNat] (.loadSp t pat o.first.toNat bands metas mismatch)

/-- The chains of a mode (R229). -/
def mmaChains : MmaMode → List (List Nat)
  | .m1x4 | .m4i => [[0], [1], [2], [3]]
  | .m2x2 => [[0, 1], [2, 3]]
  | .m4x1 => [[0, 1, 2, 3]]

/-- Formats that an MMA may pair (R52). -/
def mmaPair (fa fb : Nat) : Bool := fa ≤ 4 && fb ≤ 4 && mFloat fa == mFloat fb

/-- Conditions of an A descriptor (R229). -/
def mmaTd (t : BitVec 256) : Bool :=
  !tdIll t && tdFmt t ≤ 4 && tdSpace t == 1 && tdSparse t == 0 && (tdSgran t == 0 || tdSgran t == 1) &&
  (tdBase t).toNat % 16 == 0 && tdStride t % 16 == 0

/-- The records of a chain agree, and pair with the A descriptor. -/
def mmaChainOk (k : Core) (t : BitVec 256) (subs : List Nat) : Bool :=
  match subs with
  | [] => false
  | i :: _ =>
    let b := k.sub i
    mmaPair (tdFmt t) b.fmt.toNat && subs.all fun q => (k.sub q).valid && (k.sub q).fmt == b.fmt && (k.sub q).pat == b.pat

/-- Logical K of a chain. -/
def chainK (k : Core) (subs : List Nat) : Nat := subs.length * (if (k.sub (subs.headD 0)).pat = 0 then 256 else 512)

/-- The A rows and scale words lie in the scratchpad allocation (R229). -/
def mmaInside (size : Nat) (t : BitVec 256) (row n : Nat) : Bool :=
  (rangeFrom row n).all fun r =>
    (tdBase t).toNat + r * tdStride t + tdRowBytes t ≤ size &&
    (tdSgran t == 0 || (tdSbase t).toNat + (r + 1) * tdScaleCols t * 4 ≤ size)

/-- MMA (R229). -/
def execMma (o : Mma) (s : State) : Out :=
  asGang s fun c g =>
    match c.lead g o.h.guard with
    | none => s.doneAt c.uid g 12 false
    | some l =>
      let k := s.core c.core
      let chains := mmaChains o.mode
      let tds := chains.mapIdx fun i _ => s.td c.ctx (o.n.toNat + if o.mode == .m4i then i else 0)
      let n := o.rows1.toNat + 1
      let row := (c.sget (l / 4) o.a.toNat).toNat
      let all := fun (p : BitVec 256 → List Nat → Bool) => (tds.zip chains).all fun q => p q.1 q.2
      if !all (fun t subs => mmaTd t && mmaChainOk k t subs) then s.trap c g 12 cTDESC 0
      else if 128 < n || 128 < o.accrow.toNat + n || !all (fun t subs => row + n ≤ tdRows t && tdCols t == chainK k subs) then
        s.trap c g 12 cSHAPE 0
      else if !all (fun t _ => mmaInside (s.scratch c).2 t row n) then s.trap c g 12 cPROT 0
      else s.issueMx c g (some o.d) [0, 1, 2, 3] (.mma tds o.t.toNat row n o.accrow.toNat o.mode)

/-- ACCZ (R235). -/
def execAccz (o : Accz) (s : State) : Out :=
  asGang s fun c g =>
    match c.lead g o.h.guard with
    | none => s.doneAt c.uid g 12 false
    | some _ =>
      let n := o.count1.toNat + 1
      if 128 < o.first.toNat + n then s.trap c g 12 cSHAPE 0
      else s.issueMx c g (some o.d) [o.tile.toNat / 2] (.accz o.tile.toNat o.first.toNat n)

/-- ACCRD (R236): its destinations are pending in the lanes that take part. -/
def execAccrd (o : Accrd) (s : State) : Out :=
  asGang s fun c g =>
    match c.lead g o.h.guard with
    | none => s.doneAt c.uid g 12 false
    | some l =>
      let row := (c.sget (l / 4) o.a.toNat).toNat
      let ls := c.parts g o.h.guard
      if 127 < row then s.trap c g 12 cSHAPE 0
      else
        let regs := ls.flatMap fun l => (rangeFrom o.d.toNat (if o.bf16 then 4 else 8)).map (vkey l)
        let t := s.modCrew c.uid fun c =>
          { c with slices := c.slices.mapIdx fun i x =>
              { x with vpend := (regs.filter fun r => r / 128 / 4 == i).foldl (fun m r => mset m r s.nextId) x.vpend } }
        t.issueMx c g none [o.tile.toNat / 2] (.accrd o.tile.toNat row o.d.toNat o.bf16 ls)

/-- ACCWR (R237): its registers are read at issue. -/
def execAccwr (o : Accwr) (s : State) : Out :=
  asGang s fun c g =>
    match c.lead g o.h.guard with
    | none => s.doneAt c.uid g 12 false
    | some l =>
      let row := (c.sget (l / 4) o.a.toNat).toNat
      if 127 < row then s.trap c g 12 cSHAPE 0
      else
        let vals := (List.range 8).flatMap fun q => (c.parts g o.h.guard).map fun l => (l + 32 * q, c.vget l (o.b.toNat + q))
        s.issueMx c g (some o.d) [o.tile.toNat / 2] (.accwr o.tile.toNat row vals)

/-! ## Start (R224, R231) -/

/-- Whether an earlier operation of the queue shares a sub-array. -/
def mxBehind (op : MxOp) : List MxOp → Bool
  | [] => false
  | x :: xs => if x.id = op.id then false else x.subs.any (fun p => op.subs.any (·.1 == p.1)) || mxBehind op xs

/-- An operation that reads stationary tiles: only an MMA fails with its generation (R233). -/
def MxOp.readsTiles (op : MxOp) : Bool :=
  match op.kind with
  | .mma _ _ _ _ _ _ => true
  | .load _ _ | .loadSp _ _ _ _ _ _ | .accz _ _ _ | .accrd _ _ _ _ _ | .accwr _ _ _ => false

/-- A sub-array with the format and pattern that the operation found in its record (R224, R233). -/
def MxOp.sub (op : MxOp) (k : Core) (i : Nat) : SubArray :=
  match op.recs.find? (·.1 == i) with
  | some r => { k.sub i with fmt := r.2.1, pat := r.2.2 }
  | none => k.sub i

/-- The tiles an operation names. -/
def MxOp.names (op : MxOp) : List Nat :=
  match op.kind with
  | .load _ _ | .loadSp _ _ _ _ _ _ => []
  | .mma _ t _ _ _ mode => (mmaChains mode).map fun subs => 2 * subs.headD 0 + t
  | .accz t _ _ | .accrd t _ _ _ _ | .accwr t _ _ => [t]

/-- The non-root ancestors of a hypothesis (R231). -/
def State.ancestors (s : State) (ctx : Nat) (h : BitVec 8) : List (BitVec 8) :=
  match s.ctx? ctx with
  | some x => (x.chain 16 h).drop 1
  | none => []

/-- A started operation with its tiles decided, and the core after its claims. -/
def Core.chooseTiles (k : Core) (op : MxOp) (anc : List (BitVec 8)) : MxOp × Core :=
  match op.kind with
  | .load _ _ | .loadSp _ _ _ _ _ _ => ({ op with started := true }, k)
  | .accrd t _ _ _ _ =>
    match k.readTile op.hyp anc t with
    | some p => ({ op with started := true, tiles := [p] }, k)
    | none => ({ op with started := true, busy := true }, k)
  | .mma _ _ _ _ _ _ | .accz _ _ _ | .accwr _ _ _ =>
    if op.refuted.isSome || (op.readsTiles && op.badGen k) then ({ op with started := true }, k)
    else
      match op.names.mapM fun t => k.writeTile op.hyp anc t with
      | none => ({ op with started := true, busy := true }, k)
      | some ts => ({ op with started := true, tiles := ts.map (·.1) },
                    (ts.filter (·.2)).foldl (fun k t => k.claim op.hyp t.1) k)

/-- MATRIX_QUEUE_START: the operation stands at the head of every queue it is in. -/
def State.startMx (s : State) (core id : Nat) : State :=
  let k := s.core core
  match k.mq.find? (·.id == id) with
  | none => s
  | some op =>
    if op.started || mxBehind op k.mq then s
    else
      let (op', k') := k.chooseTiles op (s.ancestors op.ctx op.hyp)
      s.setCore core { k' with mq := k'.mq.map fun x => if x.id == id then op' else x }

def execMatrixQueueStart (o : CoreOp) (s : State) : Out := .next (s.startMx o.core o.op)

/-! ## Completion (R225 to R237) -/

/-- Rows read from a descriptor with the scales that cover them (R225, R226): rows of codes, scales by (row, column) of the scale
array, and how the reading ended. -/
def State.readRows (c : Crew) (ag : Agent) (id : Nat) (t : BitVec 256) (per : Nat) : Nat → Nat → State →
    List (List Nat) × List (Nat × Nat × Word) × Eng
  | 0, _, s => ([], [], .ok 0 s)
  | n + 1, r, s =>
    let scales : Eng :=
      if tdSgran t = 2 && r % per == 0 then
        s.engReadN c ag id (tdSpace t) (tdSbase t + BitVec.ofNat 64 (r / per * tdScaleCols t * 4)) (tdScaleCols t * 4)
      else .ok 0 s
    match scales with
    | .ok w s' =>
      match s'.engReadN c ag id (tdSpace t) (tdAddr t r 0) (tdRowBytes t) with
      | .ok x s'' =>
        let (rows, scs, e) := State.readRows c ag id t per n (r + 1) s''
        let mine := if tdSgran t = 2 && r % per == 0 then
            (List.range (tdScaleCols t)).map fun q => (r / per, q, BitVec.ofNat 32 (w / 2 ^ (32 * q)))
          else []
        (((List.range (tdCols t)).map fun i => elemAt (tdFmt t) x i) :: rows, mine ++ scs, e)
      | e => ([], [], e)
    | e => ([], [], e)

/-- Non-zero cells of rows, row r of the list being K-row first + r. -/
def cellsOfRows (first : Nat) (rows : List (List Nat)) : SMap (BitVec 16) :=
  (rows.mapIdx fun r row => (row.mapIdx fun j x => ((first + r) * 256 + j, BitVec.ofNat 16 x)).filter fun e => e.2 != 0).flatten

/-- The transpose, for a west load. -/
def transposed (cols : Nat) (rows : List (List Nat)) : List (List Nat) := (List.range cols).map fun j => rows.map fun r => r.getD j 0

/-- Scales by K block × 2 + column block. -/
def scaleMap (west : Bool) (scs : List (Nat × Nat × Word)) : SMap Word :=
  scs.foldl (fun m e => mput 0x3F800000 m (if west then e.2.1 * 2 + e.1 else e.1 * 2 + e.2.1) e.2.2) []

/-- The index of kept cell e of band first + f in column j (R228). -/
def metaIdx (pat : BitVec 2) (metas : List (Nat × Word)) (f e j : Nat) : Nat :=
  let p := ((f * 8 + j / 32) * 16 + e) * patBm pat
  let reg := fun q => ((metas.find? (·.1 == vkey (j % 32) q)).map (·.2.toNat)).getD 0
  (reg (p / 32) + 2 ^ 32 * reg (p / 32 + 1)) / 2 ^ (p % 32) % 2 ^ patBm pat

/-- Keys of a range of rows replaced in a table. -/
def splice {β : Type} (m : SMap β) (lo hi : Nat) (new : SMap β) : SMap β :=
  (m.takeWhile fun e => e.1 < lo) ++ (new ++ m.dropWhile fun e => e.1 < hi)

/-- A load ended badly: its generation is spoiled and, if still current, the record is not VALID (R224, R233). -/
def SubArray.spoil (b : SubArray) (gen : Nat) : SubArray :=
  { b with valid := if b.gen = gen then false else b.valid, badGens := b.badGens ++ [gen] }

/-- The operation leaves the queue and its word is written. -/
def State.endMx (s : State) (core : Nat) (op : MxOp) (code : BitVec 4) (cause : BitVec 8) (count : Nat) : State :=
  let s := s.modCore core fun k => { k with mq := k.mq.filter (·.id != op.id) }
  match op.dest with
  | some dest => s.writeStatus dest op.id (statusWord code false cause count)
  | none => s.reap

/-- A load that fails. -/
def State.failLoad (s : State) (core : Nat) (op : MxOp) (cause : BitVec 8) (count : Nat) : State :=
  match op.subs with
  | [] => s.endMx core op stFAULT cause count
  | (i, gen) :: _ => (s.modSub core i (·.spoil gen)).endMx core op stFAULT cause count

/-- MLOAD runs: `limit` rows before an error with a cause, if any. -/
def State.runLoad (s : State) (core : Nat) (c : Crew) (op : MxOp) (t : BitVec 256) (west : Bool) (how : MxEnd) : State :=
  match op.subs with
  | [] => s
  | (i, _) :: _ =>
    match how with
    | .err cause n => s.failLoad core op cause (if west then 0 else min n (tdRows t - 1))
    | .done =>
      match State.readRows c (.copyUnit core) op.id t 128 (tdRows t) 0 s with
      | (rows, scs, .ok _ s') =>
        let rows := if west then transposed (tdCols t) rows else rows
        (s'.modSub core i fun b =>
          { b with cells := cellsOfRows 0 rows, idx := [], scales := scaleMap west scs }).endMx core op stDONE 0 256
      | (rows, _, .bad k s') => s'.failLoad core op k (if west then 0 else rows.length)
      | (_, _, .wait s') => s'

/-- MLOADSP runs (R227). -/
def State.runLoadSp (s : State) (core : Nat) (c : Crew) (op : MxOp) (t : BitVec 256) (pat : BitVec 2) (first bands : Nat)
    (metas : List (Nat × Word)) (how : MxEnd) : State :=
  match op.subs with
  | [] => s
  | (i, _) :: _ =>
    match how with
    | .err cause n => s.failLoad core op cause (min n (16 * bands - 1))
    | .done =>
      let lo := 16 * first
      let n := min (16 * bands) (tdRows t - lo)
      -- the scale row of the first band has begun before it
      let early := tdSgran t = 2 && lo % 64 != 0 && lo / 64 * 64 < tdRows t
      let pre : Eng := if early then
          s.engReadN c (.copyUnit core) op.id (tdSpace t) (tdSbase t + BitVec.ofNat 64 (lo / 64 * tdScaleCols t * 4)) (tdScaleCols t * 4)
        else .ok 0 s
      match pre with
      | .bad k s' => s'.failLoad core op k 0
      | .wait s' => s'
      | .ok w s0 =>
        let row := fun (kb w : Nat) => (List.range (tdScaleCols t)).map fun q => (kb, q, BitVec.ofNat 32 (w / 2 ^ (32 * q)))
        let preScs := if early then row (lo / 64) w else []
        match State.readRows c (.copyUnit core) op.id t 64 n lo s0 with
        | (rows, scs, .ok _ s') =>
          let idxs : SMap (BitVec 5) := (List.range (16 * bands)).flatMap fun r =>
            ((List.range 256).map fun j => ((lo + r) * 256 + j, BitVec.ofNat 5 (metaIdx pat metas (r / 16) (r % 16) j))).filter
              fun e => e.2 != 0
          -- without scales in the descriptor every scale of its grid is 1.0
          let ones := if tdSgran t = 2 then [] else
            (rangeFrom (lo / 64) ((lo + 16 * bands - 1) / 64 + 1 - lo / 64)).flatMap fun kb =>
              if kb * 64 < tdRows t then (List.range (tdScaleCols t)).map fun q => (kb, q, (0x3F800000 : Word)) else []
          let put := fun (b : SubArray) =>
            let base : SubArray := if first = 0 then { b with cells := [], idx := [], scales := [] } else b
            { base with cells := splice base.cells (lo * 256) ((lo + 16 * bands) * 256) (cellsOfRows lo rows),
                        idx := splice base.idx (lo * 256) ((lo + 16 * bands) * 256) idxs,
                        scales := (ones ++ preScs ++ scs).foldl (fun m e => mput 0x3F800000 m (e.1 * 2 + e.2.1) e.2.2) base.scales }
          (s'.modSub core i put).endMx core op stDONE 0 (16 * bands)
        | (rows, _, .bad k s') => s'.failLoad core op k rows.length
        | (_, _, .wait s') => s'

/-- One row of one chain: the new elements of its tile row, with flags. -/
def mmaRow (k : Core) (op : MxOp) (subs : List Nat) (t : BitVec 256) (x sas : Nat) (tile accrow : Nat) : List (Nat × Word) × BitVec 5 :=
  let codes := (List.range (tdCols t)).map fun i => elemAt (tdFmt t) x i
  let sa := (List.range (tdScaleCols t)).map fun q => if tdSgran t = 0 then 0x3F800000 else sas / 2 ^ (32 * q) % 2 ^ 32
  (List.range 256).foldl (fun st j =>
    let key := tile * 32768 + accrow * 256 + j
    let r := chainElem (subs.map (op.sub k)) (tdFmt t) codes sa j (mget 0 k.acc key).toNat
    (st.1 ++ [(key, BitVec.ofNat 32 r.1)], st.2 ||| r.2)) ([], 0)

/-- An A row, and its scales. -/
def State.aRow (s : State) (core : Nat) (c : Crew) (id : Nat) (t : BitVec 256) (row : Nat) : Eng :=
  s.engReadN c (.copyUnit core) id 1 (tdAddr t row 0) (tdRowBytes t)
def State.aScales (s : State) (core : Nat) (c : Crew) (id : Nat) (t : BitVec 256) (row : Nat) : Eng :=
  if tdSgran t = 0 then .ok 0 s
  else s.engReadN c (.copyUnit core) id 1 (tdSbase t + BitVec.ofNat 64 (row * tdScaleCols t * 4)) (tdScaleCols t * 4)

def Eng.isBad : Eng → Bool
  | .bad _ _ => true
  | .ok _ _ | .wait _ => false
def Eng.num : Eng → Nat
  | .ok x _ => x
  | .bad _ _ | .wait _ => 0

/-- Rows i, i + 1, … of one chain. -/
def State.mmaRows (core : Nat) (c : Crew) (op : MxOp) (subs : List Nat) (t : BitVec 256) (tile : Nat) : Nat → Nat → Nat → State →
    BitVec 5 → BitVec 5 × State
  | 0, _, _, s, f => (f, s)
  | n + 1, row, accrow, s, f =>
    let x := (s.aRow core c op.id t row).num
    let sas := (s.aScales core c op.id t row).num
    let (cells, f') := mmaRow (s.core core) op subs t x sas tile accrow
    let s' := s.modCore core fun k => { k with acc := cells.foldl (fun m e => mput 0 m e.1 e.2) k.acc }
    State.mmaRows core c op subs t tile n (row + 1) (accrow + 1) s' (f ||| f')

/-- The rows whose operands hold no uncorrectable error, from the first on, in every chain (R218, R369). -/
def State.mmaGood (s : State) (core : Nat) (c : Crew) (op : MxOp) (tds : List (BitVec 256)) (row n accrow : Nat) : Nat :=
  ((List.range n).takeWhile fun i => (tds.zip op.tiles).all fun q =>
    !(s.aRow core c op.id q.1 (row + i)).isBad && !(s.aScales core c op.id q.1 (row + i)).isBad &&
    !(s.core core).rowBad q.2 (accrow + i)).length

/-- The rows of a chain instruction, all chains. -/
def State.runMma (s : State) (core : Nat) (c : Crew) (op : MxOp) (tds : List (BitVec 256)) (row n accrow : Nat) (mode : MmaMode) :
    BitVec 5 × State :=
  ((mmaChains mode).zip (tds.zip op.tiles)).foldl (fun st q =>
    State.mmaRows core c op q.1 q.2.1 q.2.2 n row accrow st.2 st.1) (0, s)

/-- Rows an instruction that stops early has done, and how its word ends. -/
def mxEnd (how : MxEnd) (n : Nat) : Nat × BitVec 4 × BitVec 8 :=
  match how with
  | .done => (n, stDONE, 0)
  | .err cause k => (min k (n - 1), stFAULT, cause)

/-- ACCRD's words for a lane from its tile (R236). -/
def accrdWords (k : Core) (tile : Option Nat) (row : Nat) (bf : Bool) (l : Nat) : List Word × BitVec 5 :=
  let at_ := fun col => match tile with
    | some t => mget 0 k.acc (t * 32768 + row * 256 + col)
    | none => 0
  if bf then
    let half := fun col => bf16.convert .rne false (f32.read (at_ col).toNat)
    ((List.range 4).map fun q => (pack2 (half (l + 64 * q)) (half (l + 64 * q + 32))).1.headD 0,
     (List.range 4).foldl (fun f q => f ||| (pack2 (half (l + 64 * q)) (half (l + 64 * q + 32))).2) 0)
  else ((List.range 8).map fun q => at_ (l + 32 * q), 0)

/-- ACCRD writes its lanes; a row that holds an uncorrectable error gives its crew a late ECC trap (R369). -/
def State.runAccrd (s : State) (core : Nat) (op : MxOp) (row d : Nat) (bf : Bool) (lanes : List Nat) : State :=
  let k := s.core core
  let t := s.modCrew op.crew fun c => lanes.foldl (fun c l =>
    let r := accrdWords k (if op.busy then none else op.tiles.head?) row bf l
    (c.takeVectors op.id l d r.1).raise r.2) c
  if !op.busy && op.tiles.any fun tile => k.rowBad tile row then
    match t.crew? op.crew with
    | none => t
    | some c =>
      let g := (op.slices.head?.bind fun i => c.slices[i]?).map (·.gang)
      t.lateFault c (g.getD 0) lanes [] []
        { cause := cECC, late := true, lane := BitVec.ofNat 5 (lanes.headD 0), detail := 0, level := 0, epc := op.pc, val := 0,
          err := some ⟨0, core / 32, 0⟩ }
  else t

/-- The first k rows of an operation that writes tiles are done, with the flags of an MMA (R57, R230, R235, R237). -/
def State.runRows (s : State) (core : Nat) (c : Crew) (op : MxOp) (k : Nat) : State :=
  let t := op.tiles.headD 0
  match op.kind with
  | .mma tds _ row _ accrow mode =>
    let (f, s') := s.runMma core c op tds row k accrow mode
    s'.modCrew op.crew (·.raise f)
  | .accz _ first _ =>
    s.modCore core fun q =>
      (rangeFrom first k).foldl (·.cureRow t ·)
        { q with acc := splice q.acc (t * 32768 + first * 256) (t * 32768 + (first + k) * 256) [] }
  | .accwr _ row vals =>
    if k = 0 then s
    else s.modCore core fun q =>
      let q : Core := { q with acc := vals.foldl (fun m e => mput 0 m (t * 32768 + row * 256 + e.1) e.2) q.acc }
      if vals.length = 256 then q.cureRow t row else q
  | .load _ _ | .loadSp _ _ _ _ _ _ | .accrd _ _ _ _ _ => s

/-- MATRIX_COMPLETE of a started operation. Errors found while it ran are ECC or, for loads, TIMEOUT (R218). -/
def State.completeMx (s : State) (core id : Nat) (how : MxEnd) : State :=
  match (s.core core).mq.find? (·.id == id) with
  | none => s
  | some op =>
    match s.crew? op.crew with
    | none => s
    | some c =>
      let fits := fun (loads : Bool) => match how with
        | .done => true
        | .err cause _ => cause == cECC || (loads && cause == cTIMEOUT)
      if !op.started then s
      else
        match op.kind with
        | .load t west => if fits true then s.runLoad core c op t west how else s
        | .loadSp t pat first bands metas bad =>
          if !fits true then s
          else if bad then s.failLoad core op cTDESC 0
          else s.runLoadSp core c op t pat first bands metas how
        | .accrd _ row d bf lanes => (s.runAccrd core op row d bf lanes).endMx core op 0 0 0
        | .mma tds _ row n accrow _ =>
          if !fits false then s
          else if op.refuted.isSome then (s.modCrew op.crew (·.raise op.flags)).endMx core op stABORT 0 (op.refuted.getD 0)
          else if op.badGen (s.core core) then s.endMx core op stFAULT cTDESC 0
          else if op.busy then s.endMx core op stBUSY 0 0
          else
            let good := s.mmaGood core c op tds row n accrow
            let (k, code, cause) := mxEnd (if good < n then .err cECC good else how) n
            (s.runRows core c op k).endMx core op code cause k
        | .accz _ _ n =>
          if !fits false then s
          else if op.refuted.isSome then s.endMx core op stABORT 0 (op.refuted.getD 0)
          else if op.busy then s.endMx core op stBUSY 0 0
          else
            let (k, code, cause) := mxEnd how n
            (s.runRows core c op k).endMx core op code cause k
        | .accwr _ _ _ =>
          if !fits false then s
          else if op.refuted.isSome then s.endMx core op stABORT 0 (op.refuted.getD 0)
          else if op.busy then s.endMx core op stBUSY 0 0
          else
            let (k, code, cause) := mxEnd how 1
            (s.runRows core c op k).endMx core op code cause k

def execMatrixComplete (o : MxComplete) (s : State) : Out := .next (s.completeMx o.core o.op o.how)

/-! ## Resolutions of hypotheses (R232) -/

/-- Tiles tagged h become p's; a commit exchanges the tiles of each sub-array with one tagged h (R232). -/
def Core.confirmTiles (k : Core) (h p : BitVec 8) : Core :=
  let hs := (List.range 8).filter fun t => k.tag t == h
  if p != 0 then hs.foldl (fun k t => k.setTag t p) k
  else
    let swap := fun (k : Core) (t : Nat) =>
      let a := k.tile t
      let b := k.tile (partner t)
      let (aBad, bBad) := (k.tileBad t, k.tileBad (partner t))
      let k := (((k.setTile t b bBad).setTile (partner t) a aBad).setTag t 0).setTag (partner t) 0
      { k with mq := k.mq.map fun op =>
        { op with tiles := op.tiles.map fun x => if x = t then partner t else if x = partner t then t else x } }
    hs.foldl (fun k t => if k.tag t = h then swap k t else k) k

/-- A confirmation reaches the operations under h of its context (log 13). -/
def Core.confirm (k : Core) (ctx : Nat) (h p : BitVec 8) : Core :=
  let move := fun (op : MxOp) => if op.ctx == ctx && op.hyp == h then { op with hyp := p } else op
  Core.confirmTiles { k with mq := k.mq.map move } h p

/-- A refutation clears tiles tagged with its ids. -/
def Core.refuteTiles (k : Core) (hs : List (BitVec 8)) : Core :=
  (List.range 8).foldl (fun k t => if k.tag t != 0 && hs.contains (k.tag t) then (k.setTile t [] []).setTag t 0 else k) k

/-- Writing operations under refuted ids will end with ABORT (R232): the count of rows done before the instant is a free choice for one
that has started, and the flags of those rows will be raised (R50, R57). -/
def State.refuteOp (s : State) (core : Nat) (op : MxOp) : MxOp × State :=
  if op.started then
    let (k, t) := s.choose (op.rows + 1)
    let f := match op.kind, s.crew? op.crew with
      | .mma tds _ row _ accrow mode, some c => if op.badGen (s.core core) then 0 else (s.runMma core c op tds row k accrow mode).1
      | _, _ => 0
    ({ op with refuted := some k, flags := f }, t)
  else ({ op with refuted := some 0 }, s)

/-- The operations of a core's queue that run under some ids. -/
def State.refuteOps (s : State) (ctx core : Nat) (hs : List (BitVec 8)) : State :=
  let hit := (s.core core).mq.filter fun op => op.ctx == ctx && hs.contains op.hyp && op.rows != 0 && !op.busy && op.refuted.isNone
  hit.foldl (fun t op =>
    let (op', u) := t.refuteOp core op
    u.modCore core fun k => { k with mq := k.mq.map fun x => if x.id == op.id then op' else x }) s

end Sys2Proof.Machine
end

