-- ==== Sys2Proof/Machine/Deps.lean ====
section
/-!
DEFINITION. What an instruction of the main set names: the registers it reads and writes, with the limits of 06 R128 and of each
instruction's own entry (07 R148 to R174, 08 R175, 09 R214, R215), its guard (06 R126), its lookahead (06 R130) and whether it is
effectful (02 R38, R39). Used at issue: checking (06 R129), waiting for pending registers (06 R136), stopping after a fault
(02 R39) and lookahead windows (06 R130).
-/
namespace Sys2Proof.Machine

/-- `k` registers of the scalar or a vector file from n, which must be a multiple of `al`. -/
structure RegUse where
  sc : Bool
  n : Nat
  k : Nat
  al : Nat
  deriving DecidableEq, Repr

/-- The limits of a field for V vector registers (R32, R128). -/
def RegUse.ok (v : Nat) (r : RegUse) : Bool := r.n % r.al == 0 && r.n + r.k ≤ if r.sc then 64 else v

/-- Registers read, written, and only named; whether lanes that do not participate are read (R161); whether scalar results go to
every slice of the gang (R18). -/
structure Uses where
  reads : List RegUse := []
  writes : List RegUse := []
  names : List RegUse := []
  cross : Bool := false
  wide : Bool := false
  deriving DecidableEq, Repr

/-- Every register field is within its limits (R128). -/
def Uses.ok (v : Nat) (u : Uses) : Bool := (u.reads ++ u.writes ++ u.names).all (·.ok v)

/-! ## Fields -/

def r1 (u : Bool) (n : BitVec 7) : RegUse := ⟨u, n.toNat, 1, 1⟩
def r2 (u : Bool) (n : BitVec 7) : RegUse := ⟨u, n.toNat, 2, 2⟩
def r4 (n : BitVec 7) : RegUse := ⟨false, n.toNat, 4, 4⟩
def s1 (n : BitVec 6) : RegUse := ⟨true, n.toNat, 1, 1⟩
def s2 (n : BitVec 6) : RegUse := ⟨true, n.toNat, 2, 2⟩

/-- Vector registers that hold n bytes: one, a pair or a quad (R175). -/
def rBytes (n : Nat) (d : BitVec 7) : RegUse := if n ≤ 4 then r1 false d else if n = 8 then r2 false d else r4 d

def b1 (u : Bool) : SrcB → List RegUse
  | .reg n => [r1 u n]
  | .imm _ | .lit _ => []
def b2 (u : Bool) : SrcB → List RegUse
  | .reg n => [r2 u n]
  | .imm _ | .lit _ => []
def c1 (u : Bool) : SrcC → List RegUse
  | .reg n => [r1 u n]
  | .imm _ => []
def sb1 : SrcS → List RegUse
  | .reg n => [s1 n]
  | .imm _ => []
def sl1 : SrcSL → List RegUse
  | .reg n => [s1 n]
  | .imm _ | .lit _ => []
def vb (n : Nat) : SrcV → List RegUse
  | .reg r => [rBytes n r]
  | .lit _ => []
/-- A credited barrier's address pair (R241). -/
def crUse : Option (BitVec 6) → List RegUse
  | some a => [s2 a]
  | none => []

/-- A matrix or engine instruction with a status pair. -/
def engUses (d : BitVec 6) (reads : List RegUse) : Uses := { reads := reads, writes := [s2 d], wide := true }

end Sys2Proof.Machine

namespace Sys2Proof
open Machine

/-! ## Shapes -/

/-- The base pair of an address (R176). -/
def Ea.use (e : Ea) : RegUse := r2 e.u e.a

def loadUses (e : Ea) (d : BitVec 7) (n : Nat) : Uses := { reads := [e.use], writes := [rBytes n d] }
def storeUses (e : Ea) (b : SrcV) (n : Nat) : Uses := { reads := e.use :: vb n b }

def DA.uses (o : DA) : Uses := { reads := [r1 o.u o.a], writes := [r1 o.u o.d] }
def DAR.uses (o : DAR) : Uses := { reads := [r1 o.u o.a], writes := [r1 o.u o.d] }
def DAB.uses (o : DAB) : Uses := { reads := r1 o.u o.a :: b1 o.u o.b, writes := [r1 o.u o.d] }
def DAB.uses64 (o : DAB) : Uses := { reads := r2 o.u o.a :: b2 o.u o.b, writes := [r2 o.u o.d] }
def DAB.usesBy32 (o : DAB) : Uses := { reads := r2 o.u o.a :: b1 o.u o.b, writes := [r2 o.u o.d] }
def DABC.uses (o : DABC) : Uses := { reads := r1 o.u o.a :: r1 o.u o.c :: b1 o.u o.b, writes := [r1 o.u o.d] }
def DABC.usesWide (o : DABC) : Uses := { reads := r1 o.u o.a :: r2 o.u o.c :: b1 o.u o.b, writes := [r2 o.u o.d] }
def DABCi.uses (o : DABCi) : Uses := { reads := r1 o.u o.a :: r1 o.u o.b :: c1 o.u o.c, writes := [r1 o.u o.d] }
def DABR.uses (o : DABR) : Uses := { reads := r1 o.u o.a :: b1 o.u o.b, writes := [r1 o.u o.d] }
def DABR.uses64 (o : DABR) : Uses := { reads := r2 o.u o.a :: b2 o.u o.b, writes := [r2 o.u o.d] }
def DABCR.uses (o : DABCR) : Uses := { reads := r1 o.u o.a :: r1 o.u o.c :: b1 o.u o.b, writes := [r1 o.u o.d] }
def DABCR.uses64 (o : DABCR) : Uses := { reads := r2 o.u o.a :: r2 o.u o.c :: b2 o.u o.b, writes := [r2 o.u o.d] }
/-- A narrowing conversion keeps the rest of D, so it reads D (R158). -/
def DAHalf.uses (narrow : Bool) (o : DAHalf) : Uses :=
  { reads := r1 o.u o.a :: if narrow then [r1 o.u o.d] else [], writes := [r1 o.u o.d] }
def DAByte.uses (narrow : Bool) (o : DAByte) : Uses :=
  { reads := r1 o.u o.a :: if narrow then [r1 o.u o.d] else [], writes := [r1 o.u o.d] }

def Pmov.uses (o : Pmov) : Uses :=
  match o.m with
  | .copy _ _ => {}
  | .get vd => { writes := [r1 false vd] }
  | .set va => { reads := [r1 false va] }
def Lea.uses (o : Lea) : Uses := { reads := [r2 (o.u || o.scalarA) o.a, r1 o.u o.b], writes := [r2 o.u o.d] }
def Mov.uses (o : Mov) : Uses :=
  match o.m with
  | .vv d a => { reads := [r1 false a], writes := [r1 false d] }
  | .ss d a => { reads := [s1 a], writes := [s1 d] }
  | .vs d a => { reads := [s1 a], writes := [r1 false d] }
  | .sv d a => { reads := [r1 false a], writes := [s1 d] }

/-- Special registers of 64 bits (R134). -/
def SReg.wide : SReg → Bool
  | .clock | .reftime | .hxh | .evdata | .regent => true
  | .laneid | .sliceid | .crewid | .blkid | .nblk | .cluid | .clurank | .spanid | .dieid | .coreid | .gridid | .scrbase
  | .hyp | .pend | .emask | .evwhich | .fflags | .frm | .regctr => false
def Movsr.uses (o : Movsr) : Uses := { writes := [if SReg.wide o.sr then r2 o.u o.d else r1 o.u o.d] }
/-- QUANT's block is four registers from a multiple of 4 (R159). -/
def Quant.uses (o : Quant) : Uses := { reads := [r4 o.a], writes := [r1 false o.d, s1 o.sc], wide := true }
def Shfl.uses (o : Shfl) : Uses := { reads := r1 false o.a :: b1 false o.b, writes := [r1 false o.d], cross := true }
def Bcast.uses (o : Bcast) : Uses := { reads := r1 false o.a :: sl1 o.b, writes := [r1 false o.d], cross := true }
def Ballot.uses (o : Ballot) : Uses :=
  match o.src with
  | .pred _ => { writes := [r1 o.u o.d] }
  | .bit va b => { reads := r1 false va :: b1 false b, writes := [r1 o.u o.d] }
def MatchOp.uses (o : MatchOp) : Uses :=
  { reads := [if o.w64 then r2 false o.a else r1 false o.a], writes := [r1 false o.d] }
def Evset.uses (o : Evset) : Uses :=
  match o.kind with
  | .bar b => { reads := [s2 o.a, s1 b] }
  | .stat => { names := [s2 o.a] }
  | .mbox | .hyp => { reads := [s1 o.a] }
  | .timer => { reads := [s2 o.a] }
def Upd.uses (op : UOp) (o : Upd) : Uses := { reads := [o.ea.use, rBytes (uBytes op) o.b] }
def CasR.uses (nb nc : Nat) (o : CasR) : Uses :=
  { reads := [o.ea.use, rBytes nb o.b, rBytes nc o.c], writes := [rBytes nb o.d] }
def Tdset.uses (o : Tdset) : Uses :=
  match o.src with
  | .regs a => { reads := [⟨true, a.toNat, 8, 8⟩] }
  | .mem a _ => { reads := [s2 a] }

/-- The registers an instruction names. A step that no word encodes, and an Aqiuf instruction, names none of a crew. -/
def Instr.uses : Instr → Uses
  | .iadd o | .isub o | .imul o | .imulhs o | .imulhu o | .imins o | .iminu o | .imaxs o | .imaxu o | .idivu o | .iremu o
  | .and o | .or o | .xor o | .andn o | .shl o | .shr o | .sar o | .rotl o | .bfeu o | .bfes o | .fmin o | .fmax o
  | .bmin2 o | .bmax2 o => o.uses
  | .qalign o => { reads := r1 o.u o.a :: b1 o.u o.b, writes := [r2 o.u o.d] }
  | .qunalign o => { reads := r2 o.u o.a :: b1 o.u o.b, writes := [r1 o.u o.d] }
  | .iadd64 o | .isub64 o => o.uses64
  | .shl64 o | .shr64 o | .sar64 o => o.usesBy32
  | .imad o | .idp4s o | .idp4u o => o.uses
  | .imadws o | .imadwu o => o.usesWide
  | .bfi o | .bysel o | .fshr o => o.uses
  | .iabs o | .clz o | .popc o | .brev o | .fclass o | .fex2 o | .flg2 o | .fsin o | .fcos o | .ftanh o | .fexpo o => o.uses
  | .cvtF64F32 o => { reads := [r1 o.u o.a], writes := [r2 o.u o.d] }
  | .cvtF32F64 o => { reads := [r2 o.u o.a], writes := [r1 o.u o.d] }
  | .icmps o | .icmpu o => { reads := r1 o.u o.a :: b1 o.u o.b }
  | .icmp64 o => { reads := r2 o.u o.a :: b2 o.u o.b }
  | .fcmp o => { reads := r1 o.u o.a :: b1 o.u o.b }
  | .sel o => { reads := r1 o.u o.a :: b1 o.u o.b, writes := [r1 o.u o.d] }
  | .plop _ => {}
  | .pmov o => o.uses
  | .lea o => o.uses
  | .mov o => o.uses
  | .movi o => { writes := [r1 o.u o.d] }
  | .movl o => { writes := [r2 o.u o.d] }
  | .movsr o => o.uses
  | .fadd o | .fsub o | .fmul o | .fdiv o | .badd2 o | .bmul2 o | .hadd2 o | .hmul2 o => o.uses
  | .fmac o | .bfma2 o | .hfma2 o => o.uses
  | .frcp o | .frsq o | .fsqrt o | .cvtF32S32 o | .cvtF32U32 o | .cvtS32F32 o | .cvtU32F32 o => o.uses
  | .dadd o | .dmul o => o.uses64
  | .dfma o => o.uses64
  | .cvtBf16F32 o | .cvtF16F32 o => o.uses true
  | .cvtF32Bf16 o | .cvtF32F16 o => o.uses false
  | .cvtE4m3F32 o | .cvtE5m2F32 o => o.uses true
  | .cvtF32E4m3 o | .cvtF32E5m2 o => o.uses false
  | .quant o => o.uses
  | .shfli o | .shflup o | .shfldn o | .shflx o => o.uses
  | .ballot o => o.uses
  | .vote _ => {}
  | .bcast o => o.uses
  | .scan o => { reads := [r1 false o.a], writes := [r1 false o.d] }
  | .redux o => { reads := [r1 false o.a], writes := [r1 o.u o.d] }
  | .matchLanes o => o.uses
  | .spcomp o => { reads := [r1 false o.a], writes := [r1 false o.d] }
  | .spexp o => { reads := [r1 false o.a], writes := [r1 false o.d], cross := true }
  | .swz4 o => { reads := [r1 false o.a], writes := [r1 false o.d], cross := true }
  | .lsort o => { reads := [r1 false o.a], writes := [r2 false o.d] }
  | .bra _ | .join | .regang _ | .exit _ | .nop _ | .region | .trap _ | .setprio _ => {}
  | .brx o => { reads := [r2 o.u o.a] }
  | .call _ => { writes := [⟨true, 62, 2, 2⟩] }
  | .ret o => { reads := [s2 o.a] }
  | .sleep o => { reads := sb1 o.d }
  | .setsr o => { reads := sb1 o.b }
  | .ld8 o | .ld16 o => loadUses o.ea o.d 4
  | .ld32 o => loadUses o.ea o.d 4
  | .ld64 o => loadUses o.ea o.d 8
  | .ld128 o => loadUses o.ea o.d 16
  | .ldna o | .ldl o => loadUses o.ea o.d (lsize o.size).1
  | .st8 o | .st16 o | .st32 o => storeUses o.ea o.b 4
  | .st64 o => storeUses o.ea o.b 8
  | .st128 o => { reads := [o.ea.use, r4 o.b] }
  | .stl o => { reads := [o.ea.use, rBytes (ssize o.size) o.b] }
  | .pref o => { reads := [o.ea.use] }
  | .cleanr o | .invr o | .uflush o => { reads := [r2 o.u o.a] }
  | .fence _ | .evclr _ | .waitany _ | .winclr _ => {}
  | .barinit o | .barwait o => { reads := [s2 o.a, s1 o.b] }
  | .barexp o => { reads := [s2 o.a, s2 o.b] }
  | .bararr o => { reads := s2 o.a :: (o.n.map s1).toList, writes := [s1 o.d], wide := true }
  | .phase o => { writes := [s1 o.d], wide := true }
  | .msend o => { reads := [o.ea.use, r2 false o.b], writes := [r1 false o.d] }
  | .evset o => o.uses
  | .hypnew o | .hypqry o => { reads := [s1 o.a], writes := [s1 o.d], wide := true }
  | .hypenter o => { reads := [s1 o.a, s2 o.b] }
  | .hypres o => { reads := [s1 o.a], writes := [s1 o.d], wide := true }
  | .atom o => { reads := o.ea.use :: vb (atomBytes o.op) o.b, writes := [rBytes (atomBytes o.op) o.d] }
  | .red o => storeUses o.ea o.b (atomBytes o.op)
  | .redm o => storeUses o.ea o.b (atomBytes o.op)
  | .cas o =>
    let n := if o.w64 then 8 else 4
    { reads := o.ea.use :: rBytes n o.c :: vb n o.b, writes := [rBytes n o.d] }
  | .casgt o =>
    let n := if o.w64 then 8 else 4
    { reads := o.ea.use :: vb n o.b, writes := [rBytes n o.d] }
  | .casv o => o.uses 8 4
  | .caspt o => o.uses 8 8
  | .cas128 o => o.uses 16 16
  | .uadd32 o => o.uses .uadd32
  | .uadd64 o => o.uses .uadd64
  | .umins o => o.uses .umins
  | .umaxs o => o.uses .umaxs
  | .uminu o => o.uses .uminu
  | .umaxu o => o.uses .umaxu
  | .uminf o => o.uses .uminf
  | .umaxf o => o.uses .umaxf
  | .uor64 o => o.uses .uor64
  | .uacc o => { reads := [o.ea.use, r1 false o.b] }
  | .usnap o => loadUses o.ea o.d (uBytes o.op)
  | .tdset o => o.uses
  | .tdget o => { writes := [⟨true, o.d.toNat, 8, 8⟩], wide := true }
  | .mload o => engUses o.d []
  | .mloadsp o => engUses o.d [⟨false, o.b.toNat, 4 * patBm (patCode o.pat) * (if o.four then 4 else 2), 1⟩]
  | .mma o => engUses o.d [s1 o.a]
  | .accz o => engUses o.d []
  | .accrd o => { reads := [s1 o.a], writes := [⟨false, o.d.toNat, if o.bf16 then 4 else 8, 1⟩] }
  | .accwr o => engUses o.d [s1 o.a, ⟨false, o.b.toNat, 8, 1⟩]
  | .copy o => engUses o.d (crUse o.cr)
  | .copyg o => engUses o.d (crUse o.cr)
  | .coll o => engUses o.d [r2 false o.a, r1 false o.b]
  | .cell o => engUses o.d [s2 o.a]
  | .task o => engUses o.d [s2 o.a]
  | .winarm o => { writes := [s2 o.d], names := [⟨false, o.a.toNat, o.n.toNat, 1⟩], wide := true }
  | .csrr o => { writes := [s2 o.d], wide := true }
  | .csrw o => { reads := [s2 o.d] }
  | .tlbinv o => { reads := [s2 o.a, s1 o.b] }
  | .qstat o | .qstatAdv o => { writes := [s2 o.d], wide := true }
  | .trapret _ | .trapmsk _ | .halt _ => {}
  | _ => {}

/-! ## Guards and lookahead -/

/-- The guard an instruction carries; a BJ word's is its condition (R122, R126). -/
def Instr.guard : Instr → Guard
  | .iadd o | .isub o | .imul o | .imulhs o | .imulhu o | .imins o | .iminu o | .imaxs o | .imaxu o | .idivu o | .iremu o
  | .and o | .or o | .xor o | .andn o | .shl o | .shr o | .sar o | .rotl o | .bfeu o | .bfes o | .fmin o | .fmax o
  | .bmin2 o | .bmax2 o | .iadd64 o | .isub64 o | .shl64 o | .shr64 o | .sar64 o | .qalign o | .qunalign o => o.h.guard
  | .imad o | .idp4s o | .idp4u o | .imadws o | .imadwu o => o.h.guard
  | .bfi o | .bysel o | .fshr o => o.h.guard
  | .iabs o | .clz o | .popc o | .brev o | .fclass o | .fex2 o | .flg2 o | .fsin o | .fcos o | .ftanh o | .fexpo o
  | .cvtF64F32 o => o.h.guard
  | .icmps o | .icmpu o => o.h.guard
  | .icmp64 o => o.h.guard
  | .fcmp o => o.h.guard
  | .sel o => o.h.guard
  | .plop o => o.h.guard
  | .pmov o => o.h.guard
  | .lea o => o.h.guard
  | .mov o => o.h.guard
  | .movi o => o.h.guard
  | .movl o => o.h.guard
  | .movsr o => o.h.guard
  | .fadd o | .fsub o | .fmul o | .fdiv o | .badd2 o | .bmul2 o | .hadd2 o | .hmul2 o | .dadd o | .dmul o => o.h.guard
  | .fmac o | .bfma2 o | .hfma2 o | .dfma o => o.h.guard
  | .frcp o | .frsq o | .fsqrt o | .cvtF32S32 o | .cvtF32U32 o | .cvtS32F32 o | .cvtU32F32 o | .cvtF32F64 o => o.h.guard
  | .cvtBf16F32 o | .cvtF16F32 o | .cvtF32Bf16 o | .cvtF32F16 o => o.h.guard
  | .cvtE4m3F32 o | .cvtE5m2F32 o | .cvtF32E4m3 o | .cvtF32E5m2 o => o.h.guard
  | .quant o => o.h.guard
  | .shfli o | .shflup o | .shfldn o | .shflx o => o.h.guard
  | .ballot o => o.h.guard
  | .vote o => o.h.guard
  | .bcast o => o.h.guard
  | .scan o => o.h.guard
  | .redux o => o.h.guard
  | .matchLanes o => o.h.guard
  | .spcomp o | .spexp o => o.h.guard
  | .swz4 o => o.h.guard
  | .lsort o => o.h.guard
  | .bra o | .call o => ⟨o.pr, o.pn⟩
  | .brx o => o.h.guard
  | .ret o => o.h.guard
  | .exit o => o.guard
  | .sleep o => o.h.guard
  | .trap o => o.h.guard
  | .setprio o => o.h.guard
  | .setsr o => o.h.guard
  | .ld8 o | .ld16 o => o.h.guard
  | .ld32 o | .ld64 o | .ld128 o => o.h.guard
  | .ldna o | .ldl o => o.h.guard
  | .st8 o | .st16 o | .st32 o | .st64 o => o.h.guard
  | .st128 o => o.h.guard
  | .stl o => o.h.guard
  | .pref o => o.h.guard
  | .cleanr o | .invr o | .uflush o => o.h.guard
  | .fence o => o.h.guard
  | .barinit o | .barwait o | .barexp o => o.h.guard
  | .bararr o => o.h.guard
  | .phase o => o.h.guard
  | .msend o => o.h.guard
  | .evset o => o.h.guard
  | .evclr o => o.h.guard
  | .hypnew o | .hypqry o => o.h.guard
  | .hypenter o => o.h.guard
  | .hypres o => o.h.guard
  | .atom o => o.h.guard
  | .red o => o.h.guard
  | .redm o => o.h.guard
  | .cas o => o.h.guard
  | .casgt o => o.h.guard
  | .casv o | .caspt o | .cas128 o => o.h.guard
  | .uadd32 o | .uadd64 o | .umins o | .umaxs o | .uminu o | .umaxu o | .uminf o | .umaxf o | .uor64 o => o.h.guard
  | .uacc o => o.h.guard
  | .usnap o => o.h.guard
  | .tdset o => o.h.guard
  | .tdget o => o.h.guard
  | .mload o => o.h.guard
  | .mloadsp o => o.h.guard
  | .mma o => o.h.guard
  | .accz o => o.h.guard
  | .accrd o => o.h.guard
  | .accwr o => o.h.guard
  | .copy o => o.h.guard
  | .copyg o => o.h.guard
  | .coll o => o.h.guard
  | .cell o => o.h.guard
  | .task o => o.h.guard
  | .winarm o => o.h.guard
  | .winclr o => o.guard
  | .csrr o | .csrw o => o.h.guard
  | .trapret o => o.h.guard
  | .trapmsk o => o.h.guard
  | .tlbinv o => o.h.guard
  | .halt o => o.h.guard
  | .qstat o | .qstatAdv o => o.h.guard
  | _ => Guard.none

/-- LA of a long-latency instruction (R127, R130); 0 for the others. -/
def Instr.la (i : Instr) : Nat :=
  match i with
  | .frcp o | .frsq o | .fsqrt o => o.h.la.toNat
  | .fdiv o => o.h.la.toNat
  | .fex2 o | .flg2 o | .fsin o | .fcos o | .ftanh o => o.h.la.toNat
  | .ld8 o | .ld16 o => o.h.la.toNat
  | .ld32 o | .ld64 o | .ld128 o => o.h.la.toNat
  | .ldna o | .ldl o => o.h.la.toNat
  | .st8 o | .st16 o | .st32 o | .st64 o => o.h.la.toNat
  | .st128 o => o.h.la.toNat
  | .stl o => o.h.la.toNat
  | .pref o => o.h.la.toNat
  | .cleanr o | .invr o | .uflush o => o.h.la.toNat
  | .fence o => o.h.la.toNat
  | .barinit o | .barwait o | .barexp o => o.h.la.toNat
  | .bararr o => o.h.la.toNat
  | .phase o => o.h.la.toNat
  | .msend o => o.h.la.toNat
  | .evset o => o.h.la.toNat
  | .evclr o => o.h.la.toNat
  | .waitany o => o.la.toNat
  | .hypnew o | .hypqry o => o.h.la.toNat
  | .hypenter o => o.h.la.toNat
  | .hypres o => o.h.la.toNat
  | .atom o => o.h.la.toNat
  | .red o => o.h.la.toNat
  | .redm o => o.h.la.toNat
  | .cas o => o.h.la.toNat
  | .casgt o => o.h.la.toNat
  | .casv o | .caspt o | .cas128 o => o.h.la.toNat
  | .uadd32 o | .uadd64 o | .umins o | .umaxs o | .uminu o | .umaxu o | .uminf o | .umaxf o | .uor64 o => o.h.la.toNat
  | .uacc o => o.h.la.toNat
  | .usnap o => o.h.la.toNat
  | .tdset o => o.h.la.toNat
  | .tdget o => o.h.la.toNat
  | .mload o => o.h.la.toNat
  | .mloadsp o => o.h.la.toNat
  | .mma o => o.h.la.toNat
  | .accz o => o.h.la.toNat
  | .accrd o => o.h.la.toNat
  | .accwr o => o.h.la.toNat
  | .copy o => o.h.la.toNat
  | .copyg o => o.h.la.toNat
  | .coll o => o.h.la.toNat
  | .cell o => o.h.la.toNat
  | .task o => o.h.la.toNat
  | .winarm o => o.h.la.toNat
  | .winclr o => o.la.toNat
  | _ => 0

/-- The effectful instructions (R38). -/
def Instr.effectful : Instr → Bool
  | .atom _ | .red _ | .redm _ | .cas _ | .casgt _ | .casv _ | .caspt _ | .cas128 _ | .uadd32 _ | .uadd64 _ | .umins _
  | .umaxs _ | .uminu _ | .umaxu _ | .uminf _ | .umaxf _ | .uor64 _ | .uacc _ | .usnap _ | .copy _ | .copyg _ | .coll _
  | .cell _ | .task _ | .msend _ | .hypres _ | .bararr _ => true
  | _ => false

/-- What a slice with a failed access does not pass (R39). -/
def Instr.waitsForChecks (i : Instr) : Bool :=
  match i with
  | .region | .fence _ | .exit _ => true
  | i => i.effectful

end Sys2Proof
end

