-- ==== Sys2Proof/Machine/Tasks.lean ====
section
/-!
DEFINITION. The half of a task record that holds JOIN and STATE (15 R302), and a record becoming RUNNING.
-/
namespace Sys2Proof.Machine

/-- The half of a record with other JOIN and STATE. -/
def recHalf (v : Nat) (join : BitVec 32) (st : BitVec 3) : Nat :=
  let r : BitVec 256 := BitVec.ofNat 256 v
  ((r.extractLsb' 227 29) ++ st ++ join ++ (r.extractLsb' 0 192)).toNat

/-- JOIN and STATE of a half. -/
def halfJoin (v : Nat) : BitVec 32 := (BitVec.ofNat 256 v).extractLsb' 192 32
def halfState (v : Nat) : BitVec 3 := (BitVec.ofNat 256 v).extractLsb' 224 3

/-- One transition: the half read and written in one step, with JOIN and STATE as `f` gives them. -/
def State.recStep (s : State) (x : Ctx) (va : BitVec 64) (f : BitVec 32 → BitVec 3 → BitVec 32 × BitVec 3) : Agd :=
  match s.agentRead .trellis x va 32 with
  | .ok v t =>
    let h := f (halfJoin v) (halfState v)
    t.agentWrite .trellis x va 32 (recHalf v h.1 h.2)
  | r => r

/-- A run becomes RUNNING: its first block is admitted, its command started or its signal performed. A record that can no longer be
written is reported to the context. None where its line must wait, with the state in which it does. -/
def State.markRunning (s : State) (x : Ctx) (r : Run) : Except State State :=
  let begun := fun (t : State) => t.modRun r.uid fun q => { q with running := true }
  match s.recStep x r.va fun j _ => (j, 3) with
  | .ok _ t => .ok (begun t)
  | .bad k d l t => .ok ((begun t).asyncFault x.id k d l r.va r.va)
  | .wait t => .error t

end Sys2Proof.Machine
end

