-- ==== Sys2Proof/Machine/Cellar.lean ====
section
/-!
DEFINITION. Cellar commands: records (10 R251, R252), submission by CELL (09 R246), start (R253), coherent recall and holds (05 R116;
R255), completion and faults (R264 to R266), the atomic units (R258) and transfers in flight (R261).
-/
namespace Sys2Proof.Machine

/-! ## Command records (R251, R252) -/

def crCode (r : BitVec 512) : BitVec 64 := r.extractLsb' 0 64
def crArg (r : BitVec 512) : BitVec 64 := r.extractLsb' 64 64
def crMask (r : BitVec 512) : BitVec 32 := r.extractLsb' 128 32
def crClen (r : BitVec 512) : Nat := (r.extractLsb' 160 15).toNat
def crStack (r : BitVec 512) : Nat := (r.extractLsb' 176 3).toNat
def crCoh (r : BitVec 512) : Bool := r.getLsbD 179
def crNrange (r : BitVec 512) : Nat := (r.extractLsb' 180 3).toNat
def crClimit (r : BitVec 512) : BitVec 64 := r.extractLsb' 192 64
def crRange (r : BitVec 512) (k : Nat) : BitVec 64 := r.extractLsb' (256 + 64 * k) 64
def crRanges (r : BitVec 512) : List (BitVec 64) := (List.range (crNrange r)).map (crRange r)

/-- The first address and the bytes of a declared range. -/
def rangeBase (e : BitVec 64) : BitVec 64 := (e.extractLsb' 12 52) ++ (0 : BitVec 12)
def rangeBytes (e : BitVec 64) : Nat := ((e.extractLsb' 0 8).toNat + 1) * 2 ^ (12 + (e.extractLsb' 8 4).toNat)

/-- An ill-formed record, on a presented device of n dies (R252). -/
def crIll (r : BitVec 512) (dies : Nat) : Bool :=
  r.getLsbD 175 || r.extractLsb' 183 9 != 0 || crMask r == 0 || crClen r == 0 || 16384 < crClen r || dies ≤ crStack r ||
  4 < crNrange r || (crRanges r).any (fun e => !canonical (rangeBase e)) || (crCode r).extractLsb' 0 2 != 0 || !canonical (crCode r)

/-- The 64 queue entries of a stack are held (R253). -/
def State.queueFull (s : State) (stack : Nat) : Bool := 64 ≤ (s.cmdq.filter (·.stack == stack)).length

/-- A command from its record. -/
def mkCmd (id ctx stack : Nat) (r : BitVec 512) (coh : Bool) (route : CmdRoute) (pc : BitVec 64) : Cmd :=
  { id := id, ctx := ctx, stack := stack, code := crCode r, arg := crArg r, mask := crMask r, clen := crClen r, coh := coh || crCoh r,
    ranges := crRanges r, climit := crClimit r, route := route, pc := pc, sum := 0, start := none, halted := 0, held := [],
    epoch := 0 }

/-- CELL (R246). -/
def execCell (o : Cell) (s : State) : Out :=
  asGang s fun c g =>
    match c.lead g o.h.guard with
    | none => s.doneAt c.uid g 12 true
    | some l =>
      let va := c.sea (l / 4) o.a o.off
      if c.hyp != 0 then s.trap c g 12 cHYPEFFECT 0
      else if !canonical va then s.trap c g 12 cPROT 0
      else if va.toNat % 64 != 0 then s.trap c g 12 cMISALIGN 0
      else
        let issue := fun (s : State) =>
          let (id, s) := s.fresh
          (id, (s.pendStatus c.uid g o.d.toNat id).doneAt c.uid g 12 true)
        let answer := fun (s : State) (code : BitVec 4) (cause : BitVec 8) =>
          let (id, s) := issue s
          s.writeStatus (c.statusTo g o.d) id (statusWord code false cause 0)
        match s.engReadN c (.copyUnit c.core) c.uid 0 va 64 with
        | .wait s => s
        | .bad k s => answer s stFAULT k
        | .ok x s =>
          let r : BitVec 512 := BitVec.ofNat 512 x
          let stack := s.firstDie c.ctx + crStack r
          if crIll r (s.ctxDies c.ctx) then answer s stREFUSED 0
          else if s.queueFull stack then answer s stFULL 0
          else
            let (id, s) := issue s
            { s with cmdq := s.cmdq ++
                [mkCmd id c.ctx stack r o.coh (.cell (c.statusTo g o.d) c.uid) (c.gangPc g)] }

/-! ## Start (R116, R253, R255) -/

/-- What a command reads before it starts: a value, a failure of an address, or a wait, with a line to collapse first if there is one. -/
inductive Early (α : Type) where
  | ok (x : α)
  | bad (cause detail : BitVec 8) (level : Nat) (va : BitVec 64)
  | wait (line : Option Nat)

/-- The 4 KiB granules of a range of n pages from an address that translate to DRAM. -/
def State.granules (s : State) (ag : Agent) (x : Ctx) : Nat → BitVec 64 → Early (List Nat)
  | 0, _ => .ok []
  | n + 1, va =>
    match s.granules ag x n (va + 4096) with
    | .ok rest =>
      if x.rewriting va then .wait none
      else
        match s.translate ag x va false false (fun _ => true) with
        | .ok (.dram _ loc _ _) => .ok (insertSorted (loc / 4096) rest)
        | .ok (.host _ _) | .ok (.rmt _ _) | .ok (.chip _ _ _) | .error (.fault _ _ _) => .ok rest
        | .error (.collapse line) => .wait (some line)
        | .error .wait => .wait none
    | e => e

def State.rangeGranules (s : State) (ag : Agent) (x : Ctx) : List (BitVec 64) → Early (List Nat)
  | [] => .ok []
  | e :: es =>
    match s.granules ag x (rangeBytes e / 4096) (rangeBase e) with
    | .ok a =>
      match s.rangeGranules ag x es with
      | .ok b => .ok (a.foldl (fun m g => insertSorted g m) b)
      | r => r
    | r => r

/-- Lines that caches or presses hold in some granules. -/
def State.linesIn (s : State) (gs : List Nat) : List Nat :=
  ((s.caches.map (·.line)) ++ (s.ulines.map (·.line)) ++ (s.regs.filter (·.node.isNone)).map (·.line)).foldl
    (fun m l => if gs.contains (l / 32) then insertSorted l m else m) []

/-- A line leaves every cache, what was dirty written to DRAM (R95, R116, R255); versions stay. False while contributions are
awaited. -/
def State.recallLine (s : State) (line rto : Nat) : Bool × State :=
  match s.drainRegs (s.regs.filter fun r => r.line == line && r.node.isNone) with
  | (false, t) => (false, (t.settle none line rto).2)
  | (true, t) =>
    match t.settle none line rto with
    | (false, u) => (false, u)
    | (true, u) => (true, (u.sweepPhased fun e => e.line == line).flushLine line)

/-- Several lines; the first that must wait for contributions, if one must. -/
def State.recallLines (s : State) : List Nat → Option Nat × State
  | [] => (none, s)
  | l :: ls =>
    match s.recallLine l (s.lineRto l) with
    | (true, t) => t.recallLines ls
    | (false, t) => (some l, t)

/-- n words of DRAM as a command reads its code (R253). -/
def State.codeBytes (s : State) (ag : Agent) (x : Ctx) : Nat → BitVec 64 → Early (List Byte)
  | 0, _ => .ok []
  | n + 1, va =>
    match s.cellarTo ag x va false with
    | .bad k d l => .bad k d l va
    | .collapse line => .wait (some line)
    | .hold _ _ _ | .wait => .wait none
    | .ok loc key _ =>
      if s.storeBad (loc / 128) then .bad cECC 0 0 va
      else
        match s.codeBytes ag x n (va + 4) with
        | .ok bs => .ok (toBytes 4 (s.rawRead loc 4 key) ++ bs)
        | e => e

/-- Bytes from an offset as a local store. -/
def localOf (bs : List Byte) : SMap Byte := (bs.mapIdx fun i b => (i, b)).filter fun e => e.2 != 0

/-- The processors of a mask, ascending. -/
def maskProcs (m : BitVec 32) : List Nat := (List.range 32).filter fun i => m.getLsbD i

/-- A processor as a command finds it (R253). -/
def mkProc (k : Cmd) (code : List Byte) (rank p : Nat) : Proc :=
  { stack := k.stack, proc := p, cmd := k.id,
    c := mput 0 (mput 0 (mput 0 [] 0 (BitVec.ofNat 64 rank)) 1 k.arg) 2 (BitVec.ofNat 64 (maskProcs k.mask).length),
    w := [], pc := 0, loc := localOf code, signalled := false, transfers := [], atoms := 0 }

/-- A task record's run with a state of work. -/
def State.taskDone (s : State) (run : Nat) : State := s.modRun run fun r => { r with workDone := true }

/-- How a command ends: a status code and, of a FAULT, its cause with what a record reports beside it (R265, R336). -/
structure CmdEnd where
  code : BitVec 4
  cause : BitVec 8 := 0
  detail : BitVec 8 := 0
  level : Nat := 0
  val : BitVec 64 := 0

/-- A command's word, or its task record's end; a fault of a cellar task is reported to the context (R264 to R266). -/
def State.answerCmd (s : State) (k : Cmd) (e : CmdEnd) : State :=
  match k.route with
  | .cell dest _ => s.writeStatus dest k.id (statusWord e.code false e.cause k.sum.toNat)
  | .task run =>
    let t := if e.code = stFAULT then s.asyncFault k.ctx e.cause e.detail e.level e.val k.pc else s
    t.taskDone run

/-- The command that waits at the head of a stack's queue. -/
def State.headCmd (s : State) (stack : Nat) : Option Cmd := s.cmdq.find? (·.stack == stack)

/-- A task record's run has begun its work (R302, R308); `.error` while its record's line must wait. -/
def State.taskRunning (s : State) (k : Cmd) : Except State State :=
  match k.route with
  | .cell _ _ => .ok s
  | .task run =>
    match s.run? run, s.ctx? k.ctx with
    | some r, some x => s.markRunning x r
    | _, _ => .ok s

/-- A command that has translated addresses stays at the head of its queue: it keeps its epoch (R318). -/
def State.keepEpoch (s : State) (k : Cmd) : State :=
  { s with cmdq := s.cmdq.map fun q => if q.id == k.id && q.epoch == 0 then { q with epoch := s.epochOf k.ctx } else q }

/-- The head command ends before any instruction of it runs. -/
def State.endEarly (s : State) (k : Cmd) (e : CmdEnd) : State :=
  match s.taskRunning k with
  | .error w => w
  | .ok t => { t with cmdq := t.cmdq.filter (·.id != k.id) }.answerCmd k e

/-- The head command must wait, for a line if one is named; an expired recall ends it (R352). -/
def State.startWait (s : State) (k : Cmd) : Option Nat → State
  | none => s.keepEpoch k
  | some line =>
    if s.expired line then (s.forgetRecall line).endEarly k { code := stFAULT, cause := cTIMEOUT, val := k.code }
    else ((s.settle none line (s.rto k.ctx)).2).keepEpoch k

/-- The granules a coherent command holds, as its first translation found them. -/
def State.heldBy (s : State) (k : Cmd) (ag : Agent) (x : Ctx) : Early (List Nat) :=
  if !k.coh then .ok [] else if k.held.isEmpty then s.rangeGranules ag x k.ranges else .ok k.held

/-- The head command goes from its queue to its processors. -/
def State.runCmd (s : State) (k : Cmd) (gs : List Nat) (code : List Byte) : State :=
  match s.taskRunning k with
  | .error w => w
  | .ok t =>
    { t with cmdq := t.cmdq.filter (·.id != k.id),
             cmds := t.cmds ++ [{ k with start := some t.reftime, held := gs,
                                         epoch := if k.epoch = 0 then t.epochOf k.ctx else k.epoch }],
             procs := t.procs ++ (maskProcs k.mask).mapIdx (mkProc k code) }

/-- CELLAR_COMMAND_START (R253): the head command of a stack, once its processors are free. -/
def State.startCmd (s : State) (stack : Nat) : State :=
  match s.headCmd stack with
  | none => s
  | some k =>
    if s.procs.any fun p => p.stack == stack && k.mask.getLsbD p.proc then s
    else
      match s.ctx? k.ctx with
      | none => s
      | some x =>
        let ag := cellarAgent stack ((maskProcs k.mask).headD 0)
        match s.heldBy k ag x with
        | .wait l => s.startWait k l
        | .bad c d l va => s.endEarly k { code := stFAULT, cause := c, detail := d, level := l, val := va }
        | .ok gs =>
          let s : State := { s with cmdq := s.cmdq.map fun q => if q.id == k.id then { q with held := gs } else q }
          match s.recallLines (s.linesIn gs) with
          | (some line, t) => t.startWait k (some line)
          | (none, t) =>
            match t.codeBytes ag x k.clen k.code with
            | .wait l => t.startWait k l
            | .bad c d l va => t.endEarly k { code := stFAULT, cause := c, detail := d, level := l, val := va }
            | .ok code => t.runCmd k gs code

def execCellarCommandStart (stack : Nat) (s : State) : Out := .next (s.startCmd stack)

/-! ## Completion and faults (R264, R265) -/

/-- A command whose processors have all halted completes (R264). -/
def State.finishCmd (s : State) (id : Nat) : State :=
  match s.cmd? id with
  | none => s
  | some k => if k.halted = k.mask then (s.dropCmd id).answerCmd k { code := stDONE } else s

/-- A running command is stopped (R265, R266). -/
def State.stopCmd (s : State) (id : Nat) (e : CmdEnd) : State :=
  match s.cmd? id with
  | none => s
  | some k => ((s.cutOff k).dropCmd id).answerCmd k e

/-- reftime has reached a running command's start plus CLIMIT. -/
def State.limitPassed (s : State) (k : Cmd) : Bool :=
  k.climit != 0 && k.start.any fun t0 => decide (t0 + k.climit.toNat ≤ s.reftime)

/-- CLIMIT_EXPIRY (R265). -/
def execClimitExpiry (id : Nat) (s : State) : Out :=
  .next (match s.cmd? id with
    | none => s
    | some k => if s.limitPassed k then s.stopCmd id { code := stFAULT, cause := cTIMEOUT } else s)

/-! ## Atomic units (R117, R258) -/

def State.modProc (s : State) (stack proc : Nat) (f : Proc → Proc) : State :=
  { s with procs := s.procs.map fun p => if p.stack == stack && p.proc == proc then f p else p }
def State.proc? (s : State) (stack proc : Nat) : Option Proc := s.procs.find? fun p => p.stack == stack && p.proc == proc

/-- Whose access an operation is, as a home tells a command's own from others. -/
def AtomFrom.agent : AtomFrom → Agent
  | .crew _ _ => .trellis
  | .proc st pr _ => cellarAgent st pr

/-- An operation that arrived earlier waits at the same line: they are replayed in order of arrival (R258, R324). -/
def State.atomBehind (s : State) (idx line : Nat) : Bool :=
  (s.atomq.take idx).any fun q => q.arrived && s.forward q.loc / 128 == line

/-- The idx-th operation has arrived and waits, behind those that arrived before it. -/
def State.atomArrives (s : State) (idx : Nat) (r : AtomReq) : State :=
  if r.arrived then s
  else
    let rest := s.atomq.eraseIdx idx
    { s with atomq := rest.filter (·.arrived) ++ { r with arrived := true } :: rest.filter (!·.arrived) }

/-- A REDM that cannot be performed ends with a late fault of its crew (R39, R352, R369). -/
def State.redmFault (s : State) (idx : Nat) (r : AtomReq) (uid g : Nat) (cause : BitVec 8) (err : Option ErrAt) : State :=
  let t : State := { s with atomq := s.atomq.eraseIdx idx }
  match t.crew? uid with
  | none => t.asyncFault r.ctx cause 0 0 r.va r.pc
  | some c =>
    t.lateFault c g [r.lane] [] []
      { cause := cause, late := true, lane := BitVec.ofNat 5 r.lane, detail := 0, level := 0, epc := r.pc, val := r.va, err := err }

/-- ATOMIC_UNIT_OPERATION of the idx-th operation on its way (R258): a REDM first finds no cached copy of its line (R117). -/
def State.atomUnit (s : State) (idx : Nat) : State :=
  match s.atomq[idx]? with
  | none => s
  | some r =>
    let loc := s.forward r.loc
    if s.homeHolds r.src.agent loc || s.atomBehind idx (loc / 128) then s.atomArrives idx r
    else
      match r.src with
      | .crew uid g =>
        match s.recallLine (loc / 128) (s.rto r.ctx) with
        | (false, t) =>
          if t.expired (loc / 128) then (t.forgetRecall (loc / 128)).redmFault idx r uid g cTIMEOUT none else t
        | (true, t) =>
          if t.storeBad (loc / 128) then t.redmFault idx r uid g cECC (some ⟨2, homeDie loc, 0⟩)
          else { (t.performAtom r).2 with atomq := t.atomq.eraseIdx idx }
      | .proc stack proc d =>
        match s.proc? stack proc with
        | none => { s with atomq := s.atomq.eraseIdx idx }
        | some p =>
          if s.storeBad (loc / 128) then s.stopCmd p.cmd { code := stFAULT, cause := cECC, val := r.va }
          else
            let (old, t) := s.performAtom r
            { t with atomq := t.atomq.eraseIdx idx }.modProc stack proc fun p =>
              { p with c := mput 0 p.c d (BitVec.ofNat 64 old), atoms := p.atoms - 1 }

def execAtomicUnitOperation (idx : Nat) (s : State) : Out := .next (s.atomUnit idx)

/-! ## Transfers (R261) -/

/-- Bytes into a local store. -/
def putLocal (m : SMap Byte) (off : Nat) (bs : List Byte) : SMap Byte :=
  (bs.mapIdx fun i b => (off + i, b)).foldl (fun m e => mput 0 m e.1 e.2) m

/-- The bytes of a list that a mask selects, into a local store. -/
def putMasked (m : SMap Byte) (off : Nat) (bs : List Byte) (mask : BitVec 64) : SMap Byte :=
  (bs.mapIdx fun i b => (i, b)).foldl (fun m e => if mask.getLsbD e.1 then mput 0 m (off + e.1) e.2 else m) m

/-- How the DRAM side of a block ends: done, with the block as it then is; waiting at its home; or on an uncorrectable error. -/
inductive Moved where
  | ok (b : CldxBlock) (s : State)
  | hold
  | ecc

/-- The DRAM side of a block (R261, R276): one write of 64 bytes, or one read. -/
def State.moveBlock (s : State) (ag : Agent) (out : Bool) (b : CldxBlock) : Moved :=
  if b.moved then .ok b s
  else
    let loc := s.blockLoc b
    if s.homeHolds ag loc then .hold
    else if out then .ok { b with moved := true } (s.blockOut b)
    else if s.storeBad (loc / 128) then .ecc
    else .ok { b with moved := true, data := toBytes 64 (s.rawRead loc 64 b.key) } s

/-- Block n of a processor's idx-th transfer moves; of an .in the bytes of the mask reach local store, each once. -/
def State.stepBlock (s : State) (p : Proc) (idx n : Nat) (mask : BitVec 64) : State :=
  match p.transfers[idx]? with
  | none => s
  | some t =>
    match t.blocks[n]? with
    | none => s
    | some b =>
      match s.moveBlock (cellarAgent p.stack p.proc) t.out b with
      | .hold => s
      | .ecc => s.stopCmd p.cmd { code := stFAULT, cause := cECC, val := t.va + BitVec.ofNat 64 (64 * n) }
      | .ok b u =>
        let new := if t.out then 0 else mask &&& ~~~b.put
        u.modProc p.stack p.proc fun q =>
          { q with loc := putMasked q.loc (t.loc + 64 * n) b.data new,
                   transfers := q.transfers.modify idx fun t => { t with blocks := t.blocks.set n { b with put := b.put ||| new } } }

/-- A block of a transfer waits at its home. -/
def State.transferHeld (s : State) (p : Proc) (t : Transfer) : Bool :=
  t.blocks.any fun b => !b.moved && s.homeHolds (cellarAgent p.stack p.proc) (s.blockLoc b)

/-- What a transfer has left is performed (R118, R261). -/
def State.doTransfer (s : State) (stack proc idx : Nat) (t : Transfer) : State :=
  (List.range t.blocks.length).foldl (fun s n =>
    match s.proc? stack proc with
    | none => s
    | some p => s.stepBlock p idx n (BitVec.allOnes 64)) s

/-- CLDX_TRANSFER_COMPLETE of a processor's idx-th transfer. -/
def execCldxTransferComplete (stack proc idx : Nat) (s : State) : Out :=
  .next (match s.proc? stack proc with
    | none => s
    | some p =>
      match p.transfers[idx]? with
      | none => s
      | some t =>
        if s.transferHeld p t then s
        else (s.doTransfer stack proc idx t).modProc stack proc fun p => { p with transfers := p.transfers.eraseIdx idx })

end Sys2Proof.Machine
end

