-- ==== Sys2Proof/Machine/Aqiuf.lean ====
section
/-!
DEFINITION. The Aqiuf instructions of the cellar processors (10 R254, R256, R257, R259 to R264).
-/
namespace Sys2Proof.Machine

/-! ## Acting for a processor -/

/-- An Aqiuf instruction acts for the running processor that `cur` names. -/
def asProc (s : State) (f : Proc → Cmd → State) : Out :=
  match s.cur with
  | .cellar stack proc =>
    match s.proc? stack proc with
    | some p =>
      match s.cmd? p.cmd with
      | some k => .next (f p k)
      | none => .fault .noProcessor
    | none => .fault .noProcessor
  | .none | .crew _ _ => .fault .noProcessor

def Proc.get (p : Proc) (n : BitVec 4) : BitVec 64 := mget 0 p.c n.toNat
def Proc.set (p : Proc) (n : BitVec 4) (x : BitVec 64) : Proc := { p with c := mput 0 p.c n.toNat x }
def Proc.vget (p : Proc) (n : BitVec 3) : BitVec 512 := mget 0 p.w n.toNat
def Proc.vset (p : Proc) (n : BitVec 3) (x : BitVec 512) : Proc := { p with w := mput 0 p.w n.toNat x }

def State.putProc (s : State) (p : Proc) : State := s.modProc p.stack p.proc fun _ => p

/-- A fault of a processor stops its command (R265). -/
def State.procFault (s : State) (p : Proc) (cause : BitVec 8) (val : BitVec 64) (detail : BitVec 8 := 0) (level : Nat := 0) : State :=
  s.stopCmd p.cmd { code := stFAULT, cause := cause, detail := detail, level := level, val := val }

/-- The processor passes on; past the last word it leaves local store (R259). -/
def State.procNext (s : State) (p : Proc) : State :=
  if p.pc = 0x3FFFC then s.procFault p cPROT 0 else s.putProc { p with pc := p.pc + 4 }

/-- The processor goes to a byte offset, or faults outside local store (R259). -/
def State.procJump (s : State) (p : Proc) (target : Int) : State :=
  if 0 ≤ target && target < 0x40000 then s.putProc { p with pc := BitVec.ofInt 18 target } else s.procFault p cPROT 0

/-! ## Scalar and control (R260) -/

def Proc.src (p : Proc) : CSrc → BitVec 64
  | .reg b => p.get b
  | .imm v => v.signExtend 64

def execCli (d : BitVec 4) (imm : BitVec 22) (s : State) : Out := asProc s fun p _ => s.procNext (p.set d (imm.signExtend 64))
def execCadd (o : Crr) (s : State) : Out := asProc s fun p _ => s.procNext (p.set o.d (p.get o.a + p.src o.b))
def execCsub (o : Crr) (s : State) : Out := asProc s fun p _ => s.procNext (p.set o.d (p.get o.a - p.src o.b))
def execCand (o : Crr) (s : State) : Out := asProc s fun p _ => s.procNext (p.set o.d (p.get o.a &&& p.src o.b))

/-- k ≥ 0 shifts left, k < 0 right logically. -/
def cshlOf (x : BitVec 64) (k : BitVec 7) : BitVec 64 :=
  if k.toInt < 0 then x >>> k.toInt.natAbs else x <<< k.toInt.toNat

def execCshl (d a : BitVec 4) (k : BitVec 7) (s : State) : Out := asProc s fun p _ => s.procNext (p.set d (cshlOf (p.get a) k))

def ccond (cc : CCond) (a b : BitVec 64) : Bool :=
  match cc with
  | .eq => a == b
  | .ne => a != b
  | .lt => a.slt b
  | .ge => !a.slt b
  | .ltu => decide (a.toNat < b.toNat)
  | .geu => decide (b.toNat ≤ a.toNat)

/-- A branch target (R259). -/
def Proc.target (p : Proc) (off : Int) : Int := (p.pc.toNat : Int) + 4 * off

def execCbr (cc : CCond) (a b : BitVec 4) (off : BitVec 14) (s : State) : Out :=
  asProc s fun p _ => if ccond cc (p.get a) (p.get b) then s.procJump p (p.target off.toInt) else s.procNext p
def execCjmp (off : BitVec 26) (s : State) : Out := asProc s fun p _ => s.procJump p (p.target off.toInt)
def execCloop (a : BitVec 4) (off : BitVec 22) (s : State) : Out :=
  asProc s fun p _ =>
    let p' := p.set a (p.get a - 1)
    if p'.get a != 0 then s.procJump p' (p'.target off.toInt) else s.procNext p'

/-! ## Memory (R254, R256, R261) -/

/-- How a check of an access ends. -/
inductive CChk where
  | ok (loc key pa : Nat)
  | bad (cause detail : BitVec 8) (level : Nat) (s : State)
  | wait (s : State)

/-- n bytes at an address lie in one declared range (R254 step 1). -/
def inRange (k : Cmd) (va : BitVec 64) (n : Nat) : Bool :=
  k.ranges.any fun e => (rangeBase e).toNat ≤ va.toNat && va.toNat + n ≤ (rangeBase e).toNat + rangeBytes e

/-- The translation of a DRAM address for a processor (R254 steps 3 and 4), or the state in which it waits. -/
def State.cellarGo (s : State) (p : Proc) (k : Cmd) (va : BitVec 64) (write : Bool) : CChk :=
  match s.ctx? k.ctx with
  | none => .bad cPROT 0 0 s
  | some x =>
    match s.cellarTo (cellarAgent p.stack p.proc) x va write with
    | .bad c d l => .bad c d l s
    | .wait => .wait s
    | .hold loc key pa => .wait (s.enqueue (cellarAgent p.stack p.proc) x.id 0 0 va loc key pa)
    | .collapse line =>
      if s.expired line then .bad cTIMEOUT 0 0 (s.forgetRecall line) else .wait (s.settle none line (s.rto k.ctx)).2
    | .ok loc key pa => .ok loc key pa

/-- The checks of a DRAM access of n bytes (R254). -/
def State.cellarChk (s : State) (p : Proc) (k : Cmd) (va : BitVec 64) (n : Nat) (write : Bool) : CChk :=
  if !inRange k va n then .bad cPROT 0 0 s
  else if va.toNat % n != 0 then .bad cMISALIGN 0 0 s
  else s.cellarGo p k va write

/-- n bytes of DRAM that a transfer of the processor has still to read or write: a read waits for writes, a write for both (R256). -/
def State.overlaps (s : State) (p : Proc) (loc n : Nat) (write : Bool) : Bool :=
  p.transfers.any fun t => (write || t.out) && t.blocks.any fun b =>
    !b.moved && decide (s.blockLoc b < loc + n) && decide (loc < s.blockLoc b + 64)

/-- A processor's access has been performed: it waits no more. -/
def State.procDone (s : State) (p : Proc) : State := s.dequeue fun w => w.agent == cellarAgent p.stack p.proc

/-- The failing check of a local-store access of n bytes (R254, R261). -/
def localFail (off : BitVec 64) (n : Nat) : Option (BitVec 8) :=
  if 0x40000 < off.toNat + n then some cPROT else if off.toNat % n != 0 then some cMISALIGN else none

/-- n bytes of local store. -/
def getLocal (m : SMap Byte) (off : Nat) : Nat → List Byte
  | 0 => []
  | n + 1 => mget 0 m off :: getLocal m (off + 1) n

/-- A load of n bytes from local store or DRAM: `f` takes the value. -/
def cellarLoad (s : State) (p : Proc) (k : Cmd) (a : BitVec 4) (off : BitVec 14) (loc : Bool) (n : Nat) (f : Nat → Proc) : State :=
  let va := p.get a + off.signExtend 64
  if loc then
    match localFail va n with
    | some c => s.procFault p c va
    | none => s.procNext (f (ofBytes (getLocal p.loc va.toNat n)))
  else
    match s.cellarChk p k va n false with
    | .bad c d l t => t.procFault p c va d l
    | .wait t => t
    | .ok l key _ =>
      if s.storeBad (l / 128) then s.procFault p cECC va
      else if s.overlaps p l n false then s
      else (s.procDone p).procNext (f (s.rawRead l n key))

/-- A store of n bytes. -/
def cellarStore (s : State) (p : Proc) (k : Cmd) (a : BitVec 4) (off : BitVec 14) (loc : Bool) (n x : Nat) : State :=
  let va := p.get a + off.signExtend 64
  if loc then
    match localFail va n with
    | some c => s.procFault p c va
    | none => s.procNext { p with loc := putLocal p.loc va.toNat (toBytes n x) }
  else
    match s.cellarChk p k va n true with
    | .bad c d l t => t.procFault p c va d l
    | .wait t => t
    | .ok l key _ => if s.overlaps p l n true then s else ((s.procDone p).rawWrite l n key x).procNext p

/-- Bytes of a load size and the sign extension. -/
def cldExt (sz : CLdSize) (x : Nat) : BitVec 64 :=
  match sz with
  | .b true => (BitVec.ofNat 8 x).signExtend 64
  | .h true => (BitVec.ofNat 16 x).signExtend 64
  | .w true => (BitVec.ofNat 32 x).signExtend 64
  | .b false | .h false | .w false | .d => BitVec.ofNat 64 x
def cldBytes : CLdSize → Nat
  | .b _ => 1 | .h _ => 2 | .w _ => 4 | .d => 8
def cstBytes : CSize → Nat
  | .b => 1 | .h => 2 | .w => 4 | .d => 8

def execCld (o : Cld) (s : State) : Out :=
  asProc s fun p k => cellarLoad s p k o.a o.off o.loc (cldBytes o.size) fun x => p.set o.d (cldExt o.size x)
def execCst (o : Cst) (s : State) : Out :=
  asProc s fun p k =>
    cellarStore s p k o.a o.off o.loc (cstBytes o.size) ((p.get o.b).toNat % 2 ^ (8 * cstBytes o.size))
def execVld (o : Vmem) (s : State) : Out :=
  asProc s fun p k => cellarLoad s p k o.a o.off o.loc 64 fun x => p.vset o.w (BitVec.ofNat 512 x)
def execVst (o : Vmem) (s : State) : Out :=
  asProc s fun p k => cellarStore s p k o.a o.off o.loc 64 (p.vget o.w).toNat

/-- How the check of a span ends: the blocks to move, with where each was translated to. -/
inductive SpanChk where
  | ok (bs : List CldxBlock)
  | bad (cause detail : BitVec 8) (level : Nat) (s : State)
  | wait (s : State)

/-- Blocks of 64 bytes of a DRAM span, each page checked in ascending order (R261 step 4). -/
def State.spanChk (s : State) (p : Proc) (k : Cmd) (write : Bool) : Nat → BitVec 64 → SpanChk
  | 0, _ => .ok []
  | n + 1, va =>
    match s.cellarGo p k va write with
    | .bad c d l t => .bad c d l t
    | .wait t => .wait t
    | .ok _ key pa =>
      match s.spanChk p k write n (va + 64) with
      | .ok bs => .ok ({ pa := pa, key := key, moved := false, data := [], put := 0 } :: bs)
      | e => e

/-- The bytes that the blocks of an .out are to write, as local store holds them at issue (R261). -/
def takeLocal (m : SMap Byte) (off : Nat) (out : Bool) (bs : List CldxBlock) : List CldxBlock :=
  if out then bs.mapIdx fun i b => { b with data := getLocal m (off + 64 * i) 64 } else bs

/-- CLDX (R261): every page is checked at issue; the blocks then move, each at its own time. -/
def execCldx (o : Cldx) (s : State) : Out :=
  asProc s fun p k =>
    let l := p.get o.d
    let va := p.get o.a
    let n := (p.get o.b).toNat
    if n = 0 then s.procNext p
    else if !inRange k va n then s.procFault p cPROT va
    else if l.toNat % 64 != 0 || va.toNat % 64 != 0 || n % 64 != 0 then s.procFault p cMISALIGN va
    else if 0x40000 < l.toNat + n then s.procFault p cPROT va
    else
      match s.spanChk p k o.out (n / 64) va with
      | .bad c d l t => t.procFault p c va d l
      | .wait t => t
      | .ok bs =>
        if 8 ≤ p.transfers.length || bs.any fun b => s.overlaps p (s.blockLoc b) 64 o.out then s
        else
          let t : Transfer := { loc := l.toNat, va := va, out := o.out, blocks := takeLocal p.loc l.toNat o.out bs,
                                epoch := s.epochOf k.ctx }
          (s.procDone p).procNext { p with transfers := p.transfers ++ [t] }

/-! ## Vectors (R262) -/

/-- The elements of a vector, n of w bits. -/
def elems (w n : Nat) (v : BitVec 512) : List Nat := (List.range n).map fun i => v.toNat / 2 ^ (w * i) % 2 ^ w
def ofElems (w : Nat) (xs : List Nat) : BitVec 512 := BitVec.ofNat 512 (xs.foldr (fun x acc => x % 2 ^ w + 2 ^ w * acc) 0)

def vmap2 (w n : Nat) (f : Nat → Nat → Nat) (a b : BitVec 512) : BitVec 512 :=
  ofElems w (((elems w n a).zip (elems w n b)).map fun q => f q.1 q.2)

/-- wD := f of wA and wB. -/
def vrr (s : State) (o : Vrr) (f : BitVec 512 → BitVec 512 → BitVec 512) : Out :=
  asProc s fun p _ => s.procNext (p.vset o.d (f (p.vget o.a) (p.vget o.b)))

/-- FP32 operations without flags. -/
def faddN (a b : Nat) : Nat := (f32.addV .rne (f32.read a) (f32.read b)).1
def fmulN (a b : Nat) : Nat := (f32.mulV .rne (f32.read a) (f32.read b)).1
def fmaxN (a b : Nat) : Nat := (f32.minmax true a b).1

def execVaddf (o : Vrr) (s : State) : Out := vrr s o (vmap2 32 16 faddN)
def execVaddb (o : Vrr) (s : State) : Out := vrr s o (vmap2 16 32 fun a b => (bf16.addV .rne (bf16.read a) (bf16.read b)).1)
def execVmulf (o : Vrr) (s : State) : Out := vrr s o (vmap2 32 16 fmulN)
def execVmaxf (o : Vrr) (s : State) : Out := vrr s o (vmap2 32 16 fmaxN)
def execVfmaf (o : Vrr) (s : State) : Out :=
  asProc s fun p _ =>
    let q := ((elems 32 16 (p.vget o.a)).zip ((elems 32 16 (p.vget o.b)).zip (elems 32 16 (p.vget o.d))))
    s.procNext (p.vset o.d (ofElems 32 (q.map fun e => (f32.fmaV .rne (f32.read e.1) (f32.read e.2.1) (f32.read e.2.2)).1)))
def execVrsqf (d a : BitVec 3) (s : State) : Out :=
  asProc s fun p _ =>
    s.procNext (p.vset d (ofElems 32 ((elems 32 16 (p.vget a)).map fun e => (f32.rsqV .rne (f32.read e)).1)))

def vcvtOf (m : VcvtMode) (p : Proc) (a : BitVec 3) : BitVec 512 :=
  let narrow := fun e => (bf16.convert .rne false (f32.read e)).1
  let widen := fun e => (f32.convert .rne false (bf16.read e)).1
  match m with
  | .b wb => ofElems 16 ((elems 32 16 (p.vget a) ++ elems 32 16 (p.vget wb)).map narrow)
  | .f0 => ofElems 32 (((elems 16 32 (p.vget a)).take 16).map widen)
  | .f1 => ofElems 32 (((elems 16 32 (p.vget a)).drop 16).map widen)

def execVcvtb (o : Vcvt) (s : State) : Out := asProc s fun p _ => s.procNext (p.vset o.d (vcvtOf o.m p o.a))
def execVscal (o : Vscal) (s : State) : Out :=
  asProc s fun p _ =>
    s.procNext (p.vset o.d (ofElems 32 ((elems 32 16 (p.vget o.a)).map fun e => fmulN e ((p.get o.b).toNat % 2 ^ 32))))

def vredOf (op : VredOp) (xs : List Nat) : Nat :=
  match op with
  | .fadd => xs.foldl faddN 0x80000000
  | .fmax => xs.foldl fmaxN 0xFF800000
  | .iadd => xs.foldl (fun a b => (a + b) % 2 ^ 32) 0

def execVred (o : Vred) (s : State) : Out :=
  asProc s fun p _ => s.procNext (p.set o.d (BitVec.ofNat 64 (vredOf o.op (elems 32 16 (p.vget o.a)))))

/-! ## CATOM, CSIG, CFENCE and CHALT (R257, R263, R264) -/

def catomOp : CAtomOp → AtomOp
  | .add => .add | .add64 => .add64 | .fadd => .fadd | .maxs => .maxs | .mins => .mins | .exch => .exch | .exch64 => .exch64

/-- The processor has nothing on its way (R257). -/
def Proc.drained (p : Proc) : Bool := p.transfers.isEmpty && p.atoms == 0

/-- CATOM goes to the atomic unit; the processor issues nothing more until cD is written. -/
def execCatom (o : Catom) (s : State) : Out :=
  asProc s fun p k =>
    let op := catomOp o.op
    let n := atomBytes op
    let va := p.get o.a + o.off.signExtend 64
    match s.cellarChk p k va n true with
    | .bad c d l t => t.procFault p c va d l
    | .wait t => t
    | .ok loc key _ =>
      if s.overlaps p loc n true then s
      else
        let r : AtomReq := { loc := loc, key := key, ctx := k.ctx, run := 0, op := op, b := p.get o.b,
                             src := .proc p.stack p.proc o.d.toNat, epoch := s.epochOf k.ctx, va := va }
        { s.procDone p with atomq := s.atomq ++ [r] }.procNext { p with atoms := p.atoms + 1 }

/-- The processor's contribution to the completion (R264). -/
def State.signal (s : State) (p : Proc) (x : BitVec 64) : State :=
  s.modCmd p.cmd fun k => { k with sum := k.sum + x.setWidth 48 }

def execCsig (a : BitVec 4) (s : State) : Out :=
  asProc s fun p _ =>
    if p.signalled then s.procNext p
    else if !p.drained then s
    else (s.signal p (p.get a)).procNext { p with signalled := true }

def execCfence (s : State) : Out := asProc s fun p _ => if p.drained then s.procNext p else s

/-- A processor that halts: what it still had on its way is performed, it stops and is free (R118, R264). -/
def State.haltProc (s : State) (p : Proc) (k : Cmd) : State :=
  let s := (List.range p.transfers.length).foldl (fun s i => match p.transfers[i]? with
    | some t => s.doTransfer p.stack p.proc i t
    | none => s) s
  let s : State := { s with procs := s.procs.filter fun q => !(q.stack == p.stack && q.proc == p.proc) }
  (s.modCmd k.id fun k => { k with halted := k.halted ||| BitVec.ofNat 32 (2 ^ p.proc) }).finishCmd k.id

/-- CHALT: the processor signals if it has not, and halts; a transfer that waits at a home keeps it. -/
def execChalt (s : State) : Out :=
  asProc s fun p k =>
    if (!p.signalled && !p.drained) || p.atoms != 0 || p.transfers.any (s.transferHeld p) then s
    else s.haltProc p k

end Sys2Proof.Machine
end

