-- ==== Sys2Proof/Machine/Fabric.lean ====
section
/-!
DEFINITION. The Scafa fabric (18 R350 to R354; 15 R298): packets in, peer requests, registrations at homes and port presses, recalls
and contributions.
-/
namespace Sys2Proof.Machine

/-! ## Requests that wait at a home (R116, R324, R346, R351) -/

/-- A request from outside waits at a home and is tried again. -/
def State.holdInbound (s : State) (i : Inbound) : State := { s with inbound := s.inbound ++ [i] }

/-- A waiting request that a later one may not pass: of the host, in the order of its link; of a peer, on the same channel for the same
line; of a collective, from the same node. -/
def Inbound.ahead (a b : Inbound) : Bool :=
  match a, b with
  | .peer p, .peer q => p.src == q.src && p.pkt.vc == q.pkt.vc && p.va.toNat / 128 == q.va.toNat / 128
  | .coll p, .coll q => p.src == q.src
  | .read _ _, .read _ _ | .read _ _, .write _ _ | .read _ _, .atomic _ _ | .read _ _, .reg _ => true
  | .write _ _, .read _ _ | .write _ _, .write _ _ | .write _ _, .atomic _ _ | .write _ _, .reg _ => true
  | .atomic _ _, .read _ _ | .atomic _ _, .write _ _ | .atomic _ _, .atomic _ _ | .atomic _ _, .reg _ => true
  | .reg _, .read _ _ | .reg _, .write _ _ | .reg _, .atomic _ _ | .reg _, .reg _ => true
  | .peer _, _ | .coll _, _ | .read _ _, _ | .write _ _, _ | .atomic _ _, _ | .reg _, _ => false

/-- A request as it arrives: behind one that it may not pass, else tried. -/
def State.arrive (s : State) (i : Inbound) (f : State → State) : State :=
  if s.inbound.any (·.ahead i) then s.holdInbound i else f s

/-! ## Packets in (R350, R354) -/

/-- The path's record of a packet: a replayed flit sets ERR; on an encrypted path it must authenticate and count upward. -/
def State.packetIn (s : State) (src : BitVec 10) (p : Packet) : Bool × State :=
  let s := if p.replayed then { s with ports := modAt s.ports p.port fun q => { q with err := true } } else s
  match mfind s.pathKeys src.toNat with
  | none => (true, s)
  | some k =>
    let slot := p.vc.toNat * 16 + p.port
    if !k.enc then (true, s)
    else if p.authentic && (match mfind k.recvCtr slot with
        | some last => decide (last.toNat < p.ctr.toNat)
        | none => true) then
      (true, { s with pathKeys := mset s.pathKeys src.toNat { k with recvCtr := mset k.recvCtr slot p.ctr } })
    else (false, s)

/-! ## Registrations (R82, R94, R191, R352) -/

/-- The update behind a registration ends with a late fault of its crew (R39, R352). -/
def State.regFault (s : State) (r : Reg) (cause : BitVec 8) : State :=
  match s.crew? r.crew with
  | none => s.asyncFault r.ctx cause 0 0 r.va r.pc
  | some c =>
    s.lateFault c r.gang [r.lane] [] []
      { cause := cause, late := true, lane := BitVec.ofNat 5 r.lane, detail := 0, level := 0, epc := r.pc, val := r.va }

/-- A registration has been recorded: it is no longer under way. -/
def State.regDone (s : State) (r : Reg) : State := { s with regs := s.regs.filter (· != r) }

/-- The first registration of a presented device for a line reaches its press (R352): it goes on to the home, over the internal switch
to a device of this package, or out of it, where its record takes effect later (R94). -/
def State.pressFirst (s : State) (r : Reg) (node : BitVec 10) (p : PressLine) : State :=
  let pa := r.line % 2 ^ 48 * 128
  match s.peerOf node with
  | some q =>
    match s.peerCall r.ctx q pa (.reg r.op) with
    | .ok _ t => { t.regDone r with press := t.press ++ [{ p with home := t.peerLine r.ctx q pa }] }
    | .bad k _ _ t => (t.regDone r).regFault r k
    | .wait t => t
  | none =>
    { s.sendScafa 2 node pa (.register r.op) with
      press := s.press ++ [p], regs := s.regs.map fun x => if x == r then { x with out := true } else x }

/-- A registration at the press of its own node: the first for the line goes on to the home, the others end here, once the first has
been recorded there (R94, R352). -/
def State.pressReg (s : State) (r : Reg) (node : BitVec 10) : State :=
  let d := s.firstDie r.ctx
  let same := fun (p : PressLine) => p.pdev == d && p.line == r.line && p.op == r.op
  if r.out then s.regDone r
  else if s.press.any same then
    if s.regs.any fun q => q.out && q.line == r.line && q.op == r.op && s.firstDie q.ctx == d then s
    else
      { s.regDone r with press := s.press.map fun p => if same p then { p with l1s := addL1 p.l1s r.core } else p }
  else s.pressFirst r node { pdev := d, line := r.line, node := node, op := r.op, l1s := [r.core], home := none }

/-- U_REGISTRATION of the idx-th registration on its way; an expired recall of the line is reported to the update's crew, and the
registration stays (R352). -/
def execURegistration (idx : Nat) (s : State) : Out :=
  .next (match s.regs[idx]? with
    | none => s
    | some r =>
      match r.node with
      | some n => s.pressReg r n
      | none =>
        if s.homeHolds .trellis (r.line * 128) then s
        else
          match s.register r with
          | some t => t
          | none =>
            if s.expired r.line then (s.forgetRecall r.line).regFault r cTIMEOUT else (s.settle none r.line (s.rto r.ctx)).2)

/-! ## Peer requests (R298, R351) -/

/-- The bytes that answer a peer's request. -/
def peerAnswer (kind : PeerKind) (v : Nat) : List Byte :=
  match kind with
  | .read n => toBytes n v
  | .rmw r => toBytes (rmwBytes r) v
  | .snap _ => toBytes 128 v
  | .write _ | .reg _ | .range _ => []

/-- A refusal on VC1. -/
def State.refusePeer (s : State) (src : BitVec 10) (va : BitVec 64) (k : BitVec 8) : State := s.sendScafa 1 src va.toNat (.refusal k)

/-- A request that has been refused waits at no home any more. -/
def State.peerLeaves (s : State) (x : Ctx) (va : BitVec 64) : State :=
  s.dequeue fun w => w.agent == .scafa && w.ctx == x.id && w.va.toNat / 128 == va.toNat / 128

/-- A peer's request whose packet has been accepted: checked against the table, performed and answered on VC1, or refused. -/
def State.peerTry (s : State) (o : PeerReq) : State :=
  match s.ctx? o.ctx with
  | none => s.refusePeer o.src o.va cPROT
  | some x =>
    let (rd, wr, n) := peerShape o.kind
    match s.aclOk x o.src o.va n rd wr with
    | .wait t => t.holdInbound (.peer o)
    | .refused k t => (t.peerLeaves x o.va).refusePeer o.src o.va k
    | .open t =>
      match t.peerDo o.src x o.va o.kind with
      | .bad k _ _ u => (u.peerLeaves x o.va).refusePeer o.src o.va k
      | .wait u => u.holdInbound (.peer o)
      | .ok v u => u.sendBytes 1 o.src o.va.toNat (peerAnswer o.kind v) .answer

/-- PEER_REQUEST. -/
def execPeerRequest (o : PeerReq) (s : State) : Out :=
  .next (match s.packetIn o.src o.pkt with
    | (false, s) => s.refusePeer o.src o.va cPROT
    | (true, t) => t.arrive (.peer o) (·.peerTry o))

/-! ## Recalls and contributions (R97, R352) -/

/-- SCAFA_PRESS_RECALL: the press forms its node's contribution, drops the copies and forgets the line; a node without copies
contributes the identity (R97). -/
def execScafaPressRecall (o : PressRecall) (s : State) : Out :=
  .next (match s.packetIn o.home o.pkt with
    | (false, s) => s.refusePeer o.home (BitVec.ofNat 64 o.pa) cPROT
    | (true, s) =>
      let line := remoteLine o.home o.pa
      let (v, t) := match s.press.find? fun p => p.pdev == o.pdev && p.line == line && p.op == o.op with
        | some p => s.pressAnswer p
        | none => (uIdentLine o.op, s)
      t.sendScafa 2 o.home (o.pa / 128 * 128) (.contribution o.op v))

/-- SCAFA_CONTRIBUTION: a recorded node's N arrives at the home. -/
def execScafaContribution (o : Contribution) (s : State) : Out :=
  .next (match s.packetIn o.node o.pkt with
    | (false, s) => s.refusePeer o.node (BitVec.ofNat 64 (o.line * 128)) cPROT
    | (true, s) => s.modULine o.line fun u =>
      if u.holders.contains o.node && !u.back.any (·.1 == o.node) then { u with back := u.back ++ [(o.node, o.data)] } else u)

/-- SCAFA_TIMEOUT of a line's recall (R352): the access that caused the collapse will end with TIMEOUT. -/
def execScafaTimeout (line : Nat) (s : State) : Out :=
  .next (match s.recalls.find? fun r => r.line == line && !r.expired && decide (r.deadline ≤ s.reftime) with
    | none => s
    | some _ =>
      let late := fun (r : Recall) => if r.line == line then { r with expired := true } else r
      { s with recalls := s.recalls.map late }.machineCheck 1 5 (lineHome line) 0)

end Sys2Proof.Machine
end

