-- ==== Sys2Proof/Machine/Collectives.lean ====
section
/-!
DEFINITION. Collectives (09 R243 to R245; 05 R114; 18 R353): COLL, its gathering and sending, delivery at a receiver, completion.
-/
namespace Sys2Proof.Machine

/-! ## Issue (R217, R243) -/

/-- The collective engine of a core's COLL (R353). -/
def State.collEngine (s : State) (c : Crew) : Nat := s.dieid c.ctx c.core % 2

/-- COLL. -/
def execColl (o : Coll) (s : State) : Out :=
  asGang s fun c g =>
    let ls := c.parts g o.h.guard
    match ls with
    | [] => s.doneAt c.uid g 12 true
    | _ :: _ =>
      let t := s.td c.ctx o.n.toNat
      if c.hyp != 0 then s.trap c g 12 cHYPEFFECT 0
      else if tdIll t || tdSpace t == 2 || (o.op != .put && tdFmt t != 6) then s.trap c g 12 cTDESC 0
      else if ls.any (fun l => decide (tdRows t ≤ l)) || decide (2 ^ 20 < ls.length * tdRowBytes t) then s.trap c g 12 cSHAPE 0
      else
        let (id, s) := s.fresh
        let job : CollJob :=
          { id := id, ctx := c.ctx, engine := s.collEngine c, crew := c.uid, dest := c.statusTo g o.d, pc := c.gangPc g,
            block := c.block, td := t,
            lanes := ls.map fun l => (l, c.rget64 false l o.a.toNat, (c.vget l o.b.toNat).setWidth 10),
            red := o.op != .put, sw := o.op == .redSw, rows := [], failed := none, sent := false, delivered := 0, out := 0, pool := 0,
            epoch := 0 }
        ({ s with colls := s.colls ++ [job] }.pendStatus c.uid g o.d.toNat id).doneAt c.uid g 12 true

/-! ## Delivery at a node of this package (R73, R244, R245) -/

/-- A piece of which `left` bytes are to come lies in an armed receive window of a crew of the context (R73). -/
def State.winHolds (s : State) (x : Ctx) (core off left : Nat) : Bool :=
  s.crews.any fun q => q.ctx == x.id && q.core == core && !q.saved && q.inWindow off left

/-- n bytes of a register window from an offset. -/
def State.regGet (s : State) (ctx core off : Nat) : Nat → Nat
  | 0 => 0
  | n + 1 =>
    let b := match s.regAt ctx core off with
      | some (uid, r, l, i) => ((s.crew? uid).map fun c => (c.vget l r).toNat / 2 ^ (8 * i) % 256).getD 0
      | none => 0
    b + 256 * s.regGet ctx core (off + 1) n

/-- k bytes of an on-chip destination changed by `f`: a scratchpad allocation, or an armed receive window that holds all that is left of
the row. -/
def State.collChip (s : State) (x : Ctx) (d c o k left : Nat) (f : Nat → Nat) : Agd :=
  match s.chip x.id d c o with
  | some (kk, .scratch b) =>
    if (s.scratchOwner x.id kk b k).isSome then .ok 0 (s.writeMem (scratchAddr kk b) k (f (s.readMem (scratchAddr kk b) k)))
    else .bad cPROT 0 0 s
  | some (kk, .regs off) =>
    if s.winHolds x kk off left then
      let v := f (s.regGet x.id kk off k)
      .ok 0 ((List.range k).foldl (fun s i => s.regPut x.id kk (off + i) (v / 2 ^ (8 * i) % 256)) s)
    else .bad cPROT 0 0 s
  | some (_, .acc _) | some (_, .mail _) | none => .bad cPROT 0 0 s

/-- One piece written at its destination. -/
def State.collWrite (s : State) (ag : Agent) (x : Ctx) (va : BitVec 64) (k v left : Nat) : Agd :=
  match s.agentTo ag x va true with
  | .chip d c o => s.collChip x d c o k left fun _ => v
  | .dram _ _ _ | .hold _ _ _ | .host _ _ | .rmt _ _ | .bad _ _ _ | .collapse _ | .wait => s.agentWrite ag x va k v

/-- One FP32 element added where it lands (R245), by the addition of ATOM.fadd. -/
def State.collAdd (s : State) (ag : Agent) (x : Ctx) (va : BitVec 64) (v left : Nat) : Agd :=
  if va.toNat % 4 != 0 then .bad cMISALIGN 0 0 s
  else
    match s.agentTo ag x va true with
    | .chip d c o => s.collChip x d c o 4 left fun old => atomApply .fadd old v
    | .host _ _ | .rmt _ _ => .bad cPROT 0 0 s
    | .dram _ _ _ | .hold _ _ _ | .bad _ _ _ | .collapse _ | .wait =>
      match s.agentRead ag x va 4 with
      | .ok old t => t.agentWrite ag x va 4 (atomApply .fadd old v)
      | r => r

/-- How a row's delivery ends: a fault comes with the bytes delivered before it. -/
inductive Delivered where
  | ok (s : State)
  | bad (cause : BitVec 8) (done : Nat) (s : State)
  | wait (s : State)

/-- The bytes of a row from offset `off` on; `fuel` bounds the pieces. -/
def State.deliverFrom (ag : Agent) (x : Ctx) (red : Bool) (va : BitVec 64) (n : Nat) : Nat → State → Nat → Nat → Delivered
  | 0, s, _, _ => .ok s
  | fuel + 1, s, off, v =>
    if n ≤ off then .ok s
    else
      let a := va + BitVec.ofNat 64 off
      let k := if red then 4 else min (n - off) (128 - a.toNat % 128)
      let r := if red then s.collAdd ag x a (v % 2 ^ 32) (n - off) else s.collWrite ag x a k (v % 2 ^ (8 * k)) (n - off)
      match r with
      | .ok _ t => State.deliverFrom ag x red va n fuel t (off + k) (v / 2 ^ (8 * k))
      | .bad cause _ _ t => .bad cause off t
      | .wait t => .wait t

/-- What is kept of a step that is not performed: the recalls it has sent or given up, and its place at a home. -/
def State.keepWaits (s t : State) : State :=
  (t.recalls.filter fun r => !s.recalls.any (·.line == r.line)).foldl (fun u r => (u.settle none r.line (u.lineRto r.line)).2)
    { s with waitq := t.waitq, recalls := s.recalls.filter fun r => t.recalls.any (·.line == r.line) }

/-- A row delivered at an address of a context; while it must wait nothing of it is performed. -/
def State.deliver (s : State) (ag : Agent) (x : Ctx) (red : Bool) (va : BitVec 64) (bytes : List Byte) : Delivered :=
  match State.deliverFrom ag x red va bytes.length (bytes.length + 1) s 0 (ofBytes bytes) with
  | .wait t => .wait (s.keepWaits t)
  | r => r

/-- The engine that receives for an address. -/
def collIn (va : BitVec 64) : Agent := .coll (va.toNat / 64 % 2)

/-- A row for a node of this package: the sender's own, or another presented device under its access-control table (R14, R298); none
for a node elsewhere. -/
def State.deliverTo (s : State) (ag : Agent) (x : Ctx) (red : Bool) (r : CollRow) : Option Delivered :=
  if r.node = Config.nodeId x.pdev then some (s.deliver ag x red r.va r.bytes)
  else
    (s.peerOf r.node).map fun p =>
      match s.peerTarget x.id p r.va.toNat with
      | none => .bad cPROT 0 s
      | some y =>
        match s.aclOk y (Config.nodeId x.pdev) r.va r.bytes.length false true with
        | .open t => t.deliver (collIn r.va) y red r.va r.bytes
        | .refused k t => .bad k 0 t
        | .wait t => .wait t

/-! ## COLL_SEND (R244, R353, R354) -/

/-- Outbound bytes held in an engine, in all and by a context. -/
def State.poolUsed (s : State) (e : Nat) : Nat := ((s.colls.filter (·.engine == e)).map (·.pool)).foldl (· + ·) 0
def State.poolOf (s : State) (e ctx : Nat) : Nat :=
  ((s.colls.filter fun j => j.engine == e && j.ctx == ctx).map (·.pool)).foldl (· + ·) 0

/-- A context's share of the outbound pool, in bytes (R353). -/
def State.collShare (s : State) (ctx : Nat) : Nat :=
  match s.pdevOf ctx with
  | some p => (if p.cectl.toNat = 0 || 28 < p.cectl.toNat then 28 else p.cectl.toNat) * 2 ^ 20
  | none => 28 * 2 ^ 20

/-- Bytes fit the outbound pool of an engine for a context. -/
def State.poolFits (s : State) (e ctx hold : Nat) : Bool :=
  s.poolUsed e + hold ≤ 28 * 2 ^ 20 && s.poolOf e ctx + hold ≤ s.collShare ctx

def hold4k (n : Nat) : Nat := ceilDiv n 4096 * 4096

/-- A request is the first of its engine that has not been sent, and fits the pool: none passes one that waits (R353). -/
def State.collTurn (s : State) (j : CollJob) (hold : Nat) : Bool :=
  (s.colls.find? fun k => k.engine == j.engine && !k.sent).map (·.id) == some j.id && s.poolFits j.engine j.ctx hold

/-- How a gathering ends. -/
inductive Gathered where
  | ok (rows : List CollRow) (s : State)
  | bad (cause : BitVec 8) (s : State)
  | wait (s : State)

/-- The rows of a COLL, read lane by lane. -/
def State.gatherRows (c : Crew) (ag : Agent) (id : Nat) (t : BitVec 256) : State → List (Nat × BitVec 64 × BitVec 10) → Gathered
  | s, [] => .ok [] s
  | s, (l, va, node) :: rest =>
    match s.engReadN c ag id (tdSpace t) (tdAddr t l 0) (tdRowBytes t) with
    | .wait s => .wait s
    | .bad k s => .bad k s
    | .ok x s =>
      match State.gatherRows c ag id t s rest with
      | .ok rows s => .ok (⟨node, va, toBytes (tdRowBytes t) x⟩ :: rows) s
      | r => r

/-- Rows for one node, those at adjoining addresses joined. -/
def joinRows (rows : List CollRow) : List CollRow :=
  rows.foldr (fun r acc => match acc with
    | q :: qs => if r.va + BitVec.ofNat 64 r.bytes.length = q.va then { r with bytes := r.bytes ++ q.bytes } :: qs else r :: acc
    | [] => [r]) []

/-- Rows for other nodes leave as packets of VC3, node by node (R244). -/
def State.sendOut (s : State) (red sw : Bool) (rows : List CollRow) : State :=
  ((rows.map (·.node)).eraseDups.flatMap fun n => joinRows (rows.filter (·.node == n))).foldl
    (fun s r => s.sendBytes 3 r.node r.va.toNat r.bytes (.coll red sw)) s

/-- The causes a COLL's FAULT carries (R218); any other refusal of the fabric counts as PROT. -/
def collCause (k : BitVec 8) : BitVec 8 := if [cPAGE, cPROT, cMISALIGN, cECC, cTIMEOUT].contains k then k else cPROT

/-- How the rows of a COLL go: bytes delivered in this package, a failure, and the rows for other nodes. -/
inductive RowsEnd where
  | ok (n : Nat) (failed : Option (BitVec 8)) (out : List CollRow) (s : State)
  | wait (s : State)

/-- Rows in lane order, up to one that fails here. -/
def State.sendRows (ag : Agent) (x : Ctx) (red : Bool) : State → List CollRow → Nat → RowsEnd
  | s, [], n => .ok n none [] s
  | s, r :: rest, n =>
    match s.deliverTo ag x red r with
    | some (.ok t) => State.sendRows ag x red t rest (n + r.bytes.length)
    | some (.bad k d t) => .ok (n + d) (some (collCause k)) [] t
    | some (.wait t) => .wait t
    | none =>
      match State.sendRows ag x red s rest n with
      | .ok m bad out t => .ok m bad (r :: out) t
      | e => e

def State.modColl (s : State) (id : Nat) (f : CollJob → CollJob) : State :=
  { s with colls := s.colls.map fun j => if j.id == id then f j else j }

/-- The rows of a COLL, once gathered, are sent. -/
def State.sendGathered (s : State) (j : CollJob) (x : Ctx) (rows : List CollRow) (hold : Nat) : State :=
  let fail := fun (s : State) (k : BitVec 8) => s.modColl j.id fun j => { j with failed := some k, sent := true }
  if rows.any fun r => r.node != Config.nodeId x.pdev && s.pathSpent 3 r.node r.va.toNat then fail s cPROT
  else
    match State.sendRows (.coll j.engine) x j.red s rows 0 with
    | .wait t => s.keepWaits t
    | .ok n bad out t =>
      (t.sendOut j.red j.sw out).modColl j.id fun j =>
        { j with rows := rows, failed := bad, sent := true, delivered := n, out := (out.map (·.bytes.length)).foldl (· + ·) 0,
                 pool := if out.isEmpty then 0 else hold, epoch := t.epochOf j.ctx }

/-- The oldest COLL of an engine gathers its rows and sends them once they fit. -/
def State.sendColl (s : State) (op : Nat) : State :=
  match s.colls.find? (·.id == op) with
  | none => s
  | some j =>
    let hold := hold4k (j.lanes.length * tdRowBytes j.td)
    match s.crew? j.crew, s.ctx? j.ctx with
    | some c, some x =>
      if !s.collTurn j hold then s
      else
        match State.gatherRows c (.coll j.engine) j.id j.td s j.lanes with
        | .wait t => t
        | .bad k t => t.modColl op fun j => { j with failed := some k, sent := true }
        | .ok rows t => t.sendGathered j x rows hold
    | _, _ => s

def execCollSend (op : Nat) (s : State) : Out := .next (s.sendColl op)

/-! ## COLL_RECEIVE (R244, R245, R298, R353) -/

/-- Bytes staged in the inbound pool of an engine. -/
def State.staged (s : State) (ag : Agent) : Nat :=
  (s.inbound.map fun i => match i with
    | .coll o => if collIn o.va == ag then o.data.length else 0
    | .peer _ | .read _ _ | .write _ _ | .atomic _ _ | .reg _ => 0).foldl (· + ·) 0

/-- Data whose packet has been accepted: checked as its sender's write, and written or added at once. -/
def State.collTry (s : State) (o : CollIn) : State :=
  match s.ctx? o.ctx with
  | none => s.refusePeer o.src o.va cPROT
  | some x =>
    let leaves := fun (t : State) => t.dequeue fun w => w.agent == collIn o.va && w.ctx == x.id && w.crew == 0 &&
      decide (o.va.toNat ≤ w.va.toNat) && decide (w.va.toNat < o.va.toNat + o.data.length)
    match s.aclOk x o.src o.va o.data.length false true with
    | .wait t => t.holdInbound (.coll o)
    | .refused k t => (leaves t).refusePeer o.src o.va k
    | .open t =>
      match t.deliver (collIn o.va) x o.red o.va o.data with
      | .bad k _ t => (leaves t).refusePeer o.src o.va k
      | .wait t => t.holdInbound (.coll o)
      | .ok t => t.sendScafa 1 o.src o.va.toNat (.answer [])

/-- COLL_RECEIVE: data of a peer's collective, staged while it must wait; a full inbound pool withholds the channel's credits. -/
def execCollReceive (o : CollIn) (s : State) : Out :=
  .next (if 4 * 2 ^ 20 < s.staged (collIn o.va) + o.data.length then s
    else
      match s.packetIn o.src o.pkt with
      | (false, s) => s.refusePeer o.src o.va cPROT
      | (true, t) => t.arrive (.coll o) (·.collTry o))

/-! ## COLL_COMPLETE (R114, R244, R245) -/

/-- A path on which a reduction cannot be offloaded (R245). -/
def State.noSwitch (s : State) (own node : BitVec 10) : Bool :=
  node == own || (s.peerOf node).isSome || !Config.switchReduces node || (mfind s.pathKeys node.toNat).any (·.enc)

/-- The word of a transfer of `total` bytes, `own` of them delivered in this package and `out` sent to other nodes, from the fabric's
answer. -/
def collStatus (a : CollAck) (failed : Option (BitVec 8)) (own out total : Nat) (refused : Bool) : BitVec 64 :=
  match failed with
  | some k => statusWord stFAULT refused k (own + min a.count out)
  | none =>
    if out != 0 && a.fault then statusWord stFAULT refused (collCause a.cause) (own + min a.count out)
    else statusWord stDONE refused 0 total

/-- COLL_COMPLETE. -/
def execCollComplete (o : CollDone) (s : State) : Out :=
  .next (match s.colls.find? (·.id == o.op) with
    | none => s
    | some j =>
      if !j.sent || j.attach.isSome then s
      else
        let own := Config.nodeId (s.firstDie j.ctx)
        let refused := j.sw && ((o.ack.swRefused && j.out != 0) || j.lanes.any fun l => s.noSwitch own l.2.2)
        let w := collStatus o.ack j.failed j.delivered j.out (j.lanes.length * tdRowBytes j.td) refused
        let late := j.failed.isNone && j.out != 0 && o.ack.fault && o.ack.cause == cTIMEOUT
        let s := if late then s.machineCheck 1 5 0 0 else s
        { s with colls := s.colls.filter (·.id != j.id) }.writeStatus j.dest j.id w)

end Sys2Proof.Machine
end

