-- ==== Sys2Proof/Machine/Control.lean ====
section
/-!
DEFINITION. The control instructions (07 R168 to R174; 02 R20 to R25, R38).
-/
namespace Sys2Proof.Machine

/-- Bytes of a control instruction's form (R127). -/
def CHdr.bytes (h : CHdr) : Nat := if h.ext then 12 else 4

/-- The target of a BJ word: 4 × OFF from its own address (R122). -/
def Crew.bjTarget (c : Crew) (g : Nat) (o : Bj) : BitVec 64 := c.gangPc g + (o.off ++ (0 : BitVec 2)).signExtend 64

/-- The gang branches with its taken lanes, or traps with STACKOVF and no effect (R20, R23); `before` is what the instruction
does to a slice with a taken lane first. -/
def State.branchTo (s : State) (c : Crew) (g len : Nat) (taken : List Nat) (target : Nat → BitVec 64) (before : Slice → Slice) :
    State :=
  let t := maskOf taken
  if c.branchOverflows g t then s.trap c g len cSTACKOVF 0
  else
    let c' : Crew := { c with slices := c.slices.mapIdx fun i x => if t i != 0 then before x else x }
    s.setCrew (c'.branch g len t target)

def execBra (o : Bj) (s : State) : Out :=
  asGang s fun c g => s.branchTo c g 4 (c.parts g ⟨o.pr, o.pn⟩) (fun _ => c.bjTarget g o) id

/-- CALL writes s62:s63 in every slice with a taken lane and then branches (R168). -/
def execCall (o : Bj) (s : State) : Out :=
  asGang s fun c g =>
    let after := c.gangPc g + 4
    s.branchTo c g 4 (c.parts g ⟨o.pr, o.pn⟩) (fun _ => c.bjTarget g o) fun x =>
      (x.sset 62 (lo32 after)).sset 63 (hi32 after)

/-- BRX and RET (R169): every target is checked before any slice moves, ascending by slice. -/
def State.branchVia (s : State) (c : Crew) (g len : Nat) (lanes : List Nat) (target : Nat → BitVec 64) : State :=
  let tg := fun i => target (((firstOfSlice lanes).find? (· / 4 == i)).getD 0)
  let bad := (slicesOf lanes).find? fun i => (tg i).extractLsb' 0 2 != 0 || !canonical (tg i)
  match bad with
  | some i => s.trap c g len (if (tg i).extractLsb' 0 2 != 0 then cMISALIGN else cPROT) 0
  | none => s.branchTo c g len lanes tg id

def execBrx (o : Brx) (s : State) : Out :=
  asGang s fun c g => s.branchVia c g (CHdr.bytes o.h) (c.parts g o.h.guard) fun l => c.rget64 o.u l o.a.toNat

def execRet (o : Ret) (s : State) : Out :=
  asGang s fun c g => s.branchVia c g (CHdr.bytes o.h) (c.parts g o.h.guard) fun l => c.rget64 true l o.a.toNat

/-- JOIN (R24). -/
def execJoin (s : State) : Out :=
  asGang s fun c g => s.setCrew (c.modGang g fun x => x.join (x.pc + 4)).groupByPc

/-- REGANG (R22): a crew that is one gang passes and starts a region; otherwise the gang waits, and the last to arrive makes the
meeting. -/
def execRegang (_id : BitVec 14) (s : State) : Out :=
  asGang s fun c g =>
    if c.ganged g then (s.setCrew (c.advance g 4)).startRegion c.uid g
    else (s.setCrew (c.modGang g fun x => { x with wait := .regang x.pc })).meet c.uid g (c.gangPc g)

/-- EXIT in a crew (R25, R170): slices that go on are grouped by pc. -/
def Crew.exitLanes (c : Crew) (g len : Nat) (lanes : List Nat) : Crew :=
  Crew.groupByPc { c with slices := c.slices.mapIdx fun i x => if c.inGang g i then x.exit (maskOf lanes i) len else x }

/-- After an EXIT the slices that wait at a REGANG may be all that are left (R22), and the block may have finished (R25). -/
def execExit (o : CHdr) (s : State) : Out :=
  asGang s fun c g =>
    let s' := s.setCrew (c.exitLanes g (CHdr.bytes o) (c.parts g o.guard))
    match s'.crew? c.uid with
    | some c' => (s'.meet c.uid (c'.gangs.headD 0) (c'.gangPc (c'.gangs.headD 0))).reap
    | none => s'

def execNop (ext : Bool) (s : State) : Out :=
  asGang s fun c g => s.setCrew (c.advance g (if ext then 12 else 4))

def execRegion (s : State) : Out :=
  asGang s fun c g => (s.setCrew (c.advance g 4)).startRegion c.uid g

/-- The largest of a list. -/
def maxOf (xs : List Nat) : Nat := xs.foldl (fun a b => if a < b then b else a) 0

/-- SLEEP (R171). -/
def execSleep (o : Sleep) (s : State) : Out :=
  asGang s fun c g =>
    let d := maxOf ((slicesOf (c.parts g o.h.guard)).map fun i => (c.s32 i o.d).toNat)
    let c' := c.advance g (CHdr.bytes o.h)
    s.setCrew (if d = 0 then c' else c'.modGang g fun x => { x with wait := .sleep (s.dieTime (dieOfCore c.core) + d) })

/-- TRAP (R172). -/
def execTrap (o : TrapOp) (s : State) : Out :=
  asGang s fun c g =>
    if (c.parts g o.h.guard).isEmpty then s.setCrew (c.advance g (CHdr.bytes o.h))
    else s.trap c g (CHdr.bytes o.h) cSOFT (o.code.setWidth 64)

/-- SETPRIO (R173); with no participating lane it does nothing (log 18). -/
def execSetprio (o : SetPrio) (s : State) : Out :=
  asGang s fun c g =>
    let c' := c.advance g (CHdr.bytes o.h)
    s.setCrew (if (c.parts g o.h.guard).isEmpty then c' else { c' with urgent := o.v })

/-- SETSR (R174). -/
def execSetsr (o : SetSr) (s : State) : Out :=
  asGang s fun c g =>
    let c' := c.advance g (CHdr.bytes o.h)
    match slicesOf (c.parts g o.h.guard) with
    | [] => s.setCrew c'
    | i :: _ =>
      let w := c.s32 i o.b
      s.setCrew (match o.r with
        | .emask => c'.writeEmask w
        | .fflags => c'.writeFflags w
        | .frm => c'.writeFrm w)

end Sys2Proof.Machine
end

