-- ==== Sys2Proof/Machine/Hyp.lean ====
section
/-!
DEFINITION. Hypotheses (05 R100 to R104; 08 R206 to R211; 09 R232): allocation, entry, confirmation, commit, refutation, scrubbing and
the redirection of orphans.
-/
namespace Sys2Proof.Machine

/-- The entry HYPQRY writes (R206). -/
def hypEntry (x : Ctx) (h : BitVec 8) : Word :=
  let e := x.hypOf h
  let st : Nat := match e.st with
    | .free => 0 | .live => 1 | .resolving => 2 | .discarding => 3
  BitVec.ofNat 32 (st + 2 ^ 8 * e.parent.toNat + 2 ^ 16 * e.depth.toNat)

/-- An entry of the table written; FREE entries are not listed. -/
def Ctx.setHyp (x : Ctx) (h : BitVec 8) (e : Hyp) : Ctx :=
  { x with hyps := mput { st := .free, parent := 0, depth := 0 } x.hyps h.toNat e }

/-- Ids that are FREE. -/
def Ctx.freeHyps (x : Ctx) : List (BitVec 8) :=
  ((rangeFrom 1 255).map (BitVec.ofNat 8)).filter fun h => (x.hypOf h).st == .free

/-- h and every id that descends from it. -/
def Ctx.descendants (x : Ctx) (h : BitVec 8) : List (BitVec 8) :=
  ((x.hyps.map fun e => BitVec.ofNat 8 e.1).filter fun k => (x.chain 16 k).contains h)

/-! ## HYPNEW, HYPQRY, HYPENTER (R207, R208, R210) -/

/-- An instruction that runs once per gang with sA of the leading slice (R210). -/
def hypOp (s : State) (h : XHdr) (a : BitVec 6) (f : Crew → Nat → BitVec 8 → Ctx → State) : Out :=
  asGang s fun c g =>
    match c.lead g h.guard, s.ctx? c.ctx with
    | none, _ | _, none => s.doneAt c.uid g 12 false
    | some l, some x => f c g ((c.sget (l / 4) a.toNat).setWidth 8) x

def execHypqry (o : HypDA) (s : State) : Out :=
  hypOp s o.h o.a fun c g h x => (s.modCrew c.uid (·.ssetGang g o.d.toNat (hypEntry x h))).doneAt c.uid g 12 false

/-- HYPNEW: any FREE id may be taken (R207). -/
def execHypnew (o : HypDA) (s : State) : Out :=
  hypOp s o.h o.a fun c g h x =>
    let p := x.hypOf h
    if p.st != .live || p.depth = 15 || x.freeHyps.isEmpty then (s.modCrew c.uid (·.ssetGang g o.d.toNat 0)).doneAt c.uid g 12 false
    else
      let (i, s) := s.choose x.freeHyps.length
      let id := x.freeHyps.getD i 0
      let s := s.modCtx c.ctx fun x => x.setHyp id { st := .live, parent := h, depth := p.depth + 1 }
      (s.modCrew c.uid (·.ssetGang g o.d.toNat (id.setWidth 32))).doneAt c.uid g 12 false

/-- HYPENTER (R208): a FREE id gives an orphan under the root at once. -/
def execHypenter (o : HypEnter) (s : State) : Out :=
  asGang s fun c g =>
    match c.lead g o.h.guard, s.ctx? c.ctx with
    | none, _ | _, none => s.doneAt c.uid g 12 false
    | some l, some x =>
      if !c.ganged g then s.trap c g 12 cGANG 0
      else
        let h := (c.sget (l / 4) o.a.toNat).setWidth 8
        let hx := c.sget64 (l / 4) o.b.toNat
        let upd := fun (c : Crew) =>
          match (x.hypOf h).st with
          | .live | .resolving => { c with hyp := h, hxh := hx }
          | .discarding => { c with hyp := h, hxh := hx, orphan := some (x.hypOf h).refuge }
          | .free => { c with hyp := 0, hxh := hx, orphan := some 0 }
        (s.modCrew c.uid upd).doneAt c.uid g 12 false

/-! ## Resolutions (R102 to R104, R209) -/

/-- The versions of a hypothesis. -/
def State.versionsOf (s : State) (ctx : Nat) (h : BitVec 8) : List CEntry :=
  s.caches.filter fun e => e.ctx == ctx && e.hyp == h && e.hyp != 0

/-- h's version of a line joins p's (R102). -/
def State.joinVersion (s : State) (ctx : Nat) (p : BitVec 8) (e : CEntry) : State :=
  let rest := s.caches.filter (· != e)
  match s.version? ctx e.line p with
  | some q => { s with caches := rest.map fun y =>
      if y == q then { q with data := mergeMask e.dmask e.data q.data, dmask := q.dmask ||| e.dmask, bad := q.bad || e.bad } else y }
  | none => { s with caches := rest ++ [{ e with hyp := p }] }

/-- h's version of a line becomes a committed write (R103). -/
def State.commitVersion (s : State) (e : CEntry) : State :=
  let t : State := { s with caches := s.caches.filter (· != e) }
  let t := t.reKey e.line e.key
  let bad := e.bad || (t.poisoned e.line && e.dmask != BitVec.allOnes 128)
  let u := t.putHome e.line e.key (mergeMask e.dmask e.data (t.homeVal e.line e.key))
  { u with caches := u.caches.map fun x => if x.line == e.line && x.plain then { x with bad := bad } else x }

/-- The table after a confirmation: h FREE, its children p's, every descendant one level nearer to the root. -/
def Ctx.confirmHyp (x : Ctx) (h p : BitVec 8) : Ctx :=
  let ds := x.descendants h
  let hyps := (x.hyps.filter (·.1 != h.toNat)).map fun e =>
    if ds.contains (BitVec.ofNat 8 e.1) then
      (e.1, { e.2 with parent := if e.2.parent = h then p else e.2.parent, depth := e.2.depth - 1 })
    else e
  { x with hyps := hyps.map fun e => (e.1, { e.2 with refuge := if e.2.refuge = h then p else e.2.refuge }) }

/-- Cores that are with a context (R372). -/
def State.modCtxCores (s : State) (ctx : Nat) (f : Core → Core) : State :=
  (s.cores.filter fun k => k.2.lastCtx == some ctx).foldl (fun s k => s.modCore k.1 f) s

/-- A confirmation takes effect (R102, R103, R232). -/
def State.confirm (s : State) (ctx : Nat) (h p : BitVec 8) : State :=
  let es := s.versionsOf ctx h
  let s := if p = 0 then es.foldl State.commitVersion s else es.foldl (fun s e => s.joinVersion ctx p e) s
  let s := s.modCtx ctx (·.confirmHyp h p)
  let s := s.modCtxCores ctx (·.confirm ctx h p)
  let follow := fun (c : Crew) =>
    if c.ctx == ctx then
      { c with hyp := if c.hyp = h then p else c.hyp, orphan := c.orphan.map fun k => if k = h then p else k }
    else c
  State.latchHyp { s with crews := s.crews.map follow } ctx

/-- A refutation takes effect (R104, R232): the ids become DISCARDING, their tiles are cleared and their crews orphaned, but for the
crew that asked for it, whose turn comes with its answer (R209). -/
def State.refute (s : State) (ctx : Nat) (h : BitVec 8) (asker : Nat) : State :=
  match s.ctx? ctx with
  | none => s
  | some x =>
    let hs := x.descendants h
    let p := (x.hypOf h).parent
    let s := (s.cores.filter fun k => k.2.lastCtx == some ctx).foldl (fun s k => s.refuteOps ctx k.1 hs) s
    let s := s.modCtx ctx fun x => hs.foldl (fun x k => x.setHyp k { x.hypOf k with st := .discarding, refuge := p }) x
    let orphaned := fun (c : Crew) => if c.ctx == ctx && c.uid != asker && hs.contains c.hyp then { c with orphan := some p } else c
    let s : State := { s with crews := s.crews.map orphaned }
    (s.modCtxCores ctx fun k => k.refuteTiles hs).latchHyp ctx

/-- The lines a commit writes, and whether one is blocked (R95, R116, R324). -/
def State.commitBlocked (s : State) (es : List CEntry) : Bool :=
  es.any fun e => s.held (e.line * 128) || s.migrating (e.line * 128)

/-- HYPRES once the table has accepted it: sD is pending in every slice of the gang, the pc passes on and a region starts (R38,
R209). -/
def State.acceptHyp (s : State) (c : Crew) (g : Nat) (d : BitVec 6) (h : BitVec 8) (effect : Bool) : State :=
  let (id, s) := s.fresh
  let r : Resolve := { id := id, ctx := c.ctx, h := h, crew := c.uid, slices := c.gangSlices g, reg := d.toNat, effect := effect }
  let t : State := { s with resolves := s.resolves ++ [r] }
  (t.modCrew c.uid (·.modGang g fun x => { x with spend := mset x.spend d.toNat id })).doneAt c.uid g 12 true

/-- HYPRES (R209): a release; refused at once where the id is not LIVE. Resolutions of a context are taken one at a time. A
confirmation leaves the id RESOLVING until it takes effect; a commit first collapses the lines it will write. -/
def execHypres (o : HypRes) (s : State) : Out :=
  asGang s fun c g =>
    match c.lead g o.h.guard, s.ctx? c.ctx with
    | none, _ | _, none => s.doneAt c.uid g 12 true
    | some l, some x =>
      let h := (c.sget (l / 4) o.a.toNat).setWidth 8
      let e := x.hypOf h
      let resolving := fun (s : State) => s.modCtx c.ctx fun x => x.setHyp h { x.hypOf h with st := .resolving }
      if s.regsPending c.uid || s.resolves.any (fun r => r.ctx == c.ctx && !r.effect) then s
      else if h = 0 || e.st != .live then (s.modCrew c.uid (·.ssetGang g o.d.toNat 4)).doneAt c.uid g 12 true
      else if o.refute then (s.refute c.ctx h c.uid).acceptHyp c g o.d h true
      else if e.parent = 0 then
        let lines := (s.versionsOf c.ctx h).map (·.line)
        match s.settleAll none (s.rto c.ctx) lines with
        | (true, t) => (resolving t).acceptHyp c g o.d h false
        | (false, t) =>
          match lines.find? s.expired with
          | some line =>
            (s.forgetRecall line).lateAt c g
              { len := 12, lanes := [(l, 0)], acc := ⟨1, true, .store, true⟩, vregs := [], sregs := [o.d.toNat], effect := true,
                rel := true, rootOnly := false, watchRd := false, watchWr := false } l 0 cTIMEOUT 0 0
          | none => t
      else (resolving s).acceptHyp c g o.d h false

/-- The accepted confirmation of a context takes effect, at one instant (R102, R103). A commit waits while a line it writes is held,
or is collapsed. -/
def State.confirmNow (s : State) (r : Resolve) : State :=
  match s.ctx? r.ctx with
  | none => s
  | some x =>
    let done := fun (t : State) => { t with resolves := t.resolves.map fun q => if q.id == r.id then { q with effect := true } else q }
    let p := (x.hypOf r.h).parent
    if p != 0 then done (s.confirm r.ctx r.h p)
    else
      let es := s.versionsOf r.ctx r.h
      if s.commitBlocked es then s
      else
        let t := es.foldl (fun t e => if t.expired e.line then t.forgetRecall e.line else t) s
        match t.settleAll none (t.rto r.ctx) (es.map (·.line)) with
        | (true, u) => done (u.confirm r.ctx r.h 0)
        | (false, u) => u

/-- Every orphan of a context but one crew has stopped (R209, R211). -/
def State.orphansStopped (s : State) (ctx asker : Nat) : Bool :=
  !s.crews.any fun c => c.ctx == ctx && c.uid != asker && c.orphan.isSome && !c.saved && !c.preempted && c.faulted.isNone

/-- The answer of a resolution that has taken effect: sD := 0, and the crew that refuted its own hypothesis is an orphan now (R209). -/
def State.answerHyp (s : State) (r : Resolve) : State :=
  let lost := fun (c : Crew) => (s.ctx? r.ctx).bind fun x =>
    if c.hyp != 0 && (x.hypOf c.hyp).st == .discarding && c.orphan.isNone then some (x.hypOf c.hyp).refuge else c.orphan
  { s with resolves := s.resolves.filter (·.id != r.id) }.modCrew r.crew fun c =>
    { c with orphan := lost c,
             slices := c.slices.mapIdx fun i (y : Slice) => if r.slices.contains i then y.takeScalar r.id r.reg (0 : Word) else y }

/-- The hypothesis table goes on for a context: an accepted confirmation takes effect, else a resolution is answered. -/
def State.resolveStep (s : State) (ctx : Nat) : State :=
  match s.resolves.find? fun r => r.ctx == ctx && !r.effect with
  | some r => s.confirmNow r
  | none =>
    match s.resolves.find? fun r => r.ctx == ctx && s.orphansStopped ctx r.crew with
    | some r => s.answerHyp r
    | none => s

/-! ## Scrubbing and orphans (R206, R211) -/

/-- HYP_SCRUB_COMPLETE of a DISCARDING id: its versions are gone, no tile is tagged with it and no crew runs under it (R206). -/
def execHypScrubComplete (o : CtxNum) (s : State) : Out :=
  .next (match s.ctx? o.ctx with
    | none => s
    | some x =>
      let h := BitVec.ofNat 8 o.n
      if 255 < o.n || (x.hypOf h).st != .discarding || s.crews.any fun c => c.ctx == o.ctx && c.hyp == h && !c.exited then s
      else
        let s : State := { s with caches := s.caches.filter fun e => !(e.ctx == o.ctx && e.hyp == h && e.hyp != 0) }
        s.modCtx o.ctx fun x => x.setHyp h { st := .free, parent := 0, depth := 0 })

/-- An orphan at its handler, or gone where it has none (R211). -/
def Crew.redirect (c : Crew) (h : BitVec 8) : Crew :=
  if c.hxh = 0 then
    { c.halt with hyp := h, orphan := none,
                  slices := c.halt.slices.map fun x => { x with active := 0, exited := 15, stack := [], wait := .none } }
  else
    Crew.groupAll { c with hyp := h, orphan := none, slices := c.slices.map fun x =>
      if x.live then { x with pc := c.hxh, active := ~~~x.exited, stack := [], wait := .none } else x }

/-- ORPHAN_REDIRECTION (R211). -/
def execOrphanRedirection (o : CrewRef) (s : State) : Out :=
  .next (match s.crew? o.crew with
    | none => s
    | some c =>
      match c.orphan with
      | none => s
      | some h =>
        if c.faulted.isSome || c.preempted || c.saved then s
        else
          let c' := c.redirect h
          let c' := { c' with turn := c'.gangs.headD 0 }
          let t := (s.setCrew c').dequeue (·.crew == c.uid)
          if c.hxh = 0 then t.reap else t.startRegion c.uid (c'.gangs.headD 0))

end Sys2Proof.Machine
end

