-- ==== Sys2Proof/Machine/Copies.lean ====
section
/-!
DEFINITION. Copies, gathers and receive windows (09 R238 to R242, R248, R249; 04 R73, R74).
-/
namespace Sys2Proof.Machine

/-! ## Issue (R217, R238, R239, R242) -/

/-- A class whose queue is full holds the gang (R239). -/
def Core.classFull (k : Core) (cls : Nat) : Bool := 32 ≤ (k.copies.filter (·.cls == cls)).length

/-- A copy enters its queue; it is effectful. -/
def State.issueCopy (s : State) (c : Crew) (g : Nat) (l : Nat) (d : BitVec 6) (cls : Nat) (dst src : BitVec 256)
    (idx : Option (BitVec 256)) (cr : Option (BitVec 6)) : State :=
  if (s.core c.core).classFull cls then s
  else
    let (id, s) := s.fresh
    let job : CopyJob :=
      { id := id, ctx := c.ctx, crew := c.uid, block := c.block, dest := c.statusTo g d, pc := c.gangPc g, cls := cls, dst := dst,
        src := src, idx := idx, bar := cr.map fun r => c.sget64 (l / 4) r.toNat, done := [], ended := none, admitted := none,
        credited := 0 }
    ((s.modCore c.core fun k => { k with copies := k.copies ++ [job] }).pendStatus c.uid g d.toNat id).doneAt c.uid g 12 true

/-- COPY (R238). -/
def execCopy (o : CopyOp) (s : State) : Out :=
  asGang s fun c g =>
    match c.lead g o.h.guard with
    | none => s.doneAt c.uid g 12 true
    | some l =>
      let dst := s.td c.ctx o.dst.toNat
      let src := s.td c.ctx o.src.toNat
      if c.hyp != 0 then s.trap c g 12 cHYPEFFECT 0
      else if tdIll dst || tdIll src then s.trap c g 12 cTDESC 0
      else if tdRows dst != tdRows src || tdRowBytes dst != tdRowBytes src then s.trap c g 12 cSHAPE 0
      else s.issueCopy c g l o.d o.cls.toNat dst src none o.cr

/-- COPYG (R242). -/
def execCopyg (o : CopyG) (s : State) : Out :=
  asGang s fun c g =>
    match c.lead g o.h.guard with
    | none => s.doneAt c.uid g 12 true
    | some l =>
      let dst := s.td c.ctx o.dst.toNat
      let src := s.td c.ctx o.src.toNat
      let idx := s.td c.ctx o.idx.toNat
      if c.hyp != 0 then s.trap c g 12 cHYPEFFECT 0
      else if tdIll dst || tdIll src || tdIll idx || tdFmt idx != 8 || tdSpace dst != 1 then s.trap c g 12 cTDESC 0
      else if tdRows dst != tdRows idx * tdCols idx || tdRowBytes dst != tdRowBytes src then s.trap c g 12 cSHAPE 0
      else s.issueCopy c g l o.d o.cls.toNat dst src (some idx) o.cr

/-! ## Chunks (R239 to R242) -/

/-- The chunk that comes next: the one asked for, if it is left, else the first left. -/
def CopyJob.pick (j : CopyJob) (want : Nat) : Nat :=
  if want < j.chunks && !j.done.contains want then want else j.prefixFrom j.chunks 0

/-- The oldest copy of a class with chunks left. -/
def Core.oldest (k : Core) (cls : Nat) : Option CopyJob := k.copies.find? fun j => j.cls == cls && j.hasWork

/-- A class can send its next chunk (R239). -/
def Core.canSend (k : Core) (want cls : Nat) : Bool :=
  match k.oldest cls with
  | some j => decide (j.chunkLen (j.pick want) ≤ k.deficit.getD cls 0)
  | none => false

/-- A new round: every class with chunks left adds its quantum; the others have none. -/
def Core.newRound (k : Core) : Core :=
  { k with deficit := (List.range 4).map fun i => if (k.oldest i).isSome then k.deficit.getD i 0 + 2048 * 2 ^ i else 0 }

/-- The class that sends, by deficit round-robin (R239). -/
def Core.sender (k : Core) (want : Nat) : Option Nat × Core :=
  match (rangeFrom k.rrClass (4 - k.rrClass)).find? (k.canSend want) with
  | some i => (some i, k)
  | none => ((List.range 4).find? (k.newRound.canSend want), k.newRound)

/-- How a run of bytes ends. -/
inductive Ran where
  | ok (s : State)
  | bad (code : BitVec 4) (cause : BitVec 8) (at_ : Nat) (s : State)
  | wait (at_ : Nat) (s : State)

/-- The source row of destination row i. -/
def State.copyRow (s : State) (c : Crew) (ag : Agent) (j : CopyJob) (i : Nat) : Eng :=
  match j.idx with
  | none => .ok i s
  | some t => s.engReadN c ag j.id (tdSpace t) (tdAddr t (i / tdCols t) (i % tdCols t * 4)) 4

/-- n bytes from row-major offset `off`, in pieces that cross no row and no line (R238, R242). -/
def State.copyBytes (c : Crew) (ag : Agent) (j : CopyJob) (adm : Option Nat) : Nat → State → Nat → Nat → Ran
  | 0, s, _, _ => .ok s
  | fuel + 1, s, off, n =>
    if n = 0 then .ok s
    else
      let rb := tdRowBytes j.dst
      match s.copyRow c ag j (off / rb) with
      | .wait s => .wait off s
      | .bad k s => .bad stFAULT k (off / rb * rb) s
      | .ok row s =>
        if j.idx.isSome && tdRows j.src ≤ row then .bad stFAULT cSHAPE (off / rb * rb) s
        else
          let a := tdAddr j.src row (off % rb)
          let b := tdAddr j.dst (off / rb) (off % rb)
          let k := min (min n (rb - off % rb)) (min (128 - a.toNat % 128) (128 - b.toNat % 128))
          match s.engRead c ag j.id (tdSpace j.src) a k with
          | .wait s => .wait off s
          | .bad e s => .bad stFAULT e off s
          | .ok x s =>
            match s.engWrite c ag j.id adm (tdSpace j.dst) b k x with
            | .wait s => .wait off s
            | .bad e s => .bad stFAULT e off s
            | .ok _ s => State.copyBytes c ag j adm fuel s (off + k) (n - k)

/-- The pieces of a copy's destination, row by row, none across a line. -/
def CopyJob.pieces (j : CopyJob) : List (BitVec 64 × Nat) :=
  (List.range (tdRows j.dst)).flatMap fun i => linePieces (tdRowBytes j.dst / 128 + 2) (tdAddr j.dst i 0) (tdRowBytes j.dst)

/-- Where pieces of a destination lie: in registers of a core at an offset, or elsewhere. -/
def State.regPieces (s : State) (c : Crew) (ag : Agent) (j : CopyJob) : List (Option (Nat × Nat × Nat)) :=
  j.pieces.map fun p => match s.engTo c ag j.id true (tdSpace j.dst) p.1 p.2 with
    | .regs k o => some (k, o, p.2)
    | .mem _ | .hold _ _ _ | .acc _ _ | .bad _ | .collapse _ | .wait => none

/-- How a copy begins (R73, R238): admitted by a crew's window or needing none, ended, or made to wait. -/
inductive Opened where
  | ok (w : Option Nat)
  | bad (code : BitVec 4) (cause : BitVec 8) (s : State)
  | wait (s : State)

/-- A copy some of whose target lies in registers meets an armed window, when its first byte arrives (R73): the crew that owns it. -/
def State.letIn (s : State) (ctx : Nat) (ps : List (Option (Nat × Nat × Nat))) : Opened :=
  match ps with
  | some (k, o, n) :: _ =>
    match s.crews.find? fun q => q.ctx == ctx && q.core == k && !q.saved && q.inWindow o 1 with
    | none => .bad stNOWIN 0 s
    | some q =>
      if n != 0 && ps.all fun p => p.any fun p => p.1 == k && q.inWindow p.2.1 p.2.2 then .ok (some q.uid) else .bad stFAULT cWINDOW s
  | none :: _ => if ps.any Option.isSome then .bad stNOWIN 0 s else .ok none
  | [] => .ok none

/-- What is settled before any byte moves (R73, R238): the barrier address, then the window. -/
def State.openCopyJob (s : State) (c : Crew) (ag : Agent) (j : CopyJob) : Opened :=
  let window := match s.engTo c ag j.id true (tdSpace j.dst) (tdBase j.dst) 1 with
    | .bad k => if tdSpace j.dst = 2 then .bad stFAULT k s else s.letIn c.ctx (s.regPieces c ag j)
    | .regs _ _ | .mem _ | .hold _ _ _ | .acc _ _ | .collapse _ | .wait => s.letIn c.ctx (s.regPieces c ag j)
  match j.bar with
  | none => window
  | some obj =>
    match s.checkAddr c.atRoot (barAcc true) obj with
    | .bad k _ _ => .bad stFAULT k s
    | .ok _ | .hold _ => window
    | .collapse line =>
      if s.expired line then .bad stFAULT cTIMEOUT (s.forgetRecall line) else .wait (s.settle none line (s.rto c.ctx)).2
    | .wait => .wait s

def State.modCopy (s : State) (core id : Nat) (f : CopyJob → CopyJob) : State :=
  s.modCore core fun k => { k with copies := k.copies.map fun j => if j.id == id then f j else j }

/-- How a credit ends: made, refused with a cause, or waiting, with the recall it needs sent. -/
inductive Credited where
  | ok (s : State)
  | bad (cause : BitVec 8) (s : State)
  | wait (s : State)

/-- The barrier gets what has newly become part of COUNT (R241). -/
def State.creditJob (s : State) (c : Crew) (core : Nat) (j : CopyJob) (count : Nat) : Credited :=
  match j.bar with
  | none => .ok s
  | some obj =>
    match s.checkAddr c.atRoot (barAcc true) obj with
    | .bad k _ _ => .bad k s
    | .wait => .wait s
    | .hold t => .wait (s.holdLanes c.atRoot 64 [(0, obj, t)])
    | .collapse line => if s.expired line then .bad cTIMEOUT (s.forgetRecall line) else .wait (s.settle none line (s.rto c.ctx)).2
    | .ok t =>
      if s.poisonedAt c.atRoot 16 t then .bad cECC s
      else
        match s.credit c obj t (count - j.credited) with
        | some u => .ok ((u.unhold c.uid 64).modCopy core j.id fun j => { j with credited := count })
        | none =>
          match s.expiredLane c [(0, obj, t)] with
          | some (_, _, line) => .bad cTIMEOUT (s.forgetRecall line)
          | none => .wait (s.recallFor c [(0, obj, t)])

/-- A copy goes on as `set` says once its bytes so far are credited; a barrier that can no longer be credited ends it with COUNT as
credited. While it waits `s` stands, with the recall sent, and the chunk is delivered again. -/
def State.creditThen (s t : State) (c : Crew) (core : Nat) (j : CopyJob) (count : Nat) (set : CopyJob → CopyJob) : State :=
  match (t.modCopy core j.id set).creditJob c core j count with
  | .ok u => u
  | .bad k u => u.modCopy core j.id fun q => { q with ended := some (stFAULT, k, j.credited) }
  | .wait u => s.keepWaits u

/-- One chunk of a copy is delivered (R239 to R242). A bad index of a gather ends it only where every earlier row is delivered. -/
def State.sendChunk (s : State) (core : Nat) (j : CopyJob) (i : Nat) : State :=
  match s.crew? j.crew with
  | none => s
  | some c =>
    let ag := Agent.copyUnit core
    match (if j.done.isEmpty && j.admitted.isNone then s.openCopyJob c ag j else .ok j.admitted) with
    | .bad code k t => t.modCopy core j.id fun j => { j with ended := some (code, k, 0) }
    | .wait t => t
    | .ok w =>
      match State.copyBytes c ag j w 2048 s (2048 * i) (j.chunkLen i) with
      | .wait o t => if 2048 * i < o then t.modCopy core j.id fun j => { j with admitted := w } else t
      | .ok t =>
        let set := fun (j : CopyJob) => { j with done := insertSorted i j.done, admitted := w }
        s.creditThen t c core j (set j).prefixBytes set
      | .bad code cause o t =>
        let first := decide (i ≤ j.prefixFrom j.chunks 0)
        if cause = cSHAPE && !first then s
        else
          let count := if first then o else j.prefixBytes
          s.creditThen t c core j count fun j => { j with ended := some (code, cause, count), admitted := w }

/-- COPY_CHUNK: the unit serves a class (R239). -/
def execCopyChunk (o : CopyChunk) (s : State) : Out :=
  .next (match (s.core o.core).sender o.chunk with
    | (none, _) => s
    | (some cls, k) =>
      match k.oldest cls with
      | none => s
      | some j =>
        let i := j.pick o.chunk
        let t := s.sendChunk o.core j i
        let sent := (t.core o.core).copies.any fun q => q.id == j.id && (q.done != j.done || q.ended != j.ended)
        if sent then
          t.modCore o.core fun q =>
            { q with rrClass := cls, deficit := (List.range 4).map fun n =>
                if (q.oldest n).isNone then 0 else if n = cls then k.deficit.getD n 0 - j.chunkLen i else k.deficit.getD n 0 }
        else t)

/-- A copy ends with a status word (R218). -/
def State.endCopy (s : State) (core : Nat) (j : CopyJob) (code : BitVec 4) (cause : BitVec 8) (count : Nat) : State :=
  (s.modCore core fun k => { k with copies := k.copies.filter (·.id != j.id) }).writeStatus j.dest j.id
    (statusWord code false cause count)

/-- COPY_COMPLETE. -/
def execCopyComplete (o : CoreOp) (s : State) : Out :=
  .next (match (s.core o.core).copies.find? (·.id == o.op) with
    | none => s
    | some j =>
      match j.ended with
      | some (code, cause, count) => s.endCopy o.core j code cause count
      | none => if j.done.length < j.chunks then s else s.endCopy o.core j stDONE 0 j.total)

/-! ## Receive windows (R248, R249) -/

/-- Copies admitted to a crew's window that have not written all their bytes (R73, R249). -/
def State.windowBusy (s : State) (uid : Nat) : Bool :=
  s.cores.any fun k => k.2.copies.any fun j => j.admitted == some uid && j.hasWork

/-- WINARM: an earlier window is disarmed first, with the wait of WINCLR. -/
def execWinarm (o : Winarm) (s : State) : Out :=
  asGang s fun c g =>
    match c.lead g o.h.guard with
    | none => s.doneAt c.uid g 12 false
    | some _ =>
      if s.windowBusy c.uid then s
      else
        let addr := s.chipAddr c.ctx c.core (c.sched * 0x20000 + c.regOff + o.a.toNat * 16 * c.slices.length)
        (s.modCrew c.uid fun c =>
          { c with window := some (o.a.toNat, o.n.toNat) }.ssetGang64 g o.d.toNat (BitVec.ofNat 64 addr)).doneAt c.uid g 12 false

/-- WINCLR. -/
def execWinclr (o : XHdr) (s : State) : Out :=
  asGang s fun c g =>
    match c.lead g o.guard with
    | none => s.doneAt c.uid g 12 false
    | some _ =>
      if s.windowBusy c.uid then s else (s.modCrew c.uid fun c => { c with window := none }).doneAt c.uid g 12 false

end Sys2Proof.Machine
end

