-- ==== Sys2Proof/Machine/Records.lean ====
section
/-!
DEFINITION. Task records (15 R299 to R305): reading and writing them, launches, join counters, TASK and RECORD_LAUNCH, and the end
of a record's work.
-/
namespace Sys2Proof.Machine

/-! ## Records in memory (R299, R302) -/

/-- What a record's address gives: memory that can be read and written in a COHERENT region, a fault, or a place where no record
may lie. -/
inductive RecAt where
  | ok (loc : Nat)
  | fault (cause detail : BitVec 8) (level : Nat) (s : State)
  | refused
  | wait (s : State)

/-- The address of a record (R247, R299). -/
def State.recLoc (s : State) (x : Ctx) (va : BitVec 64) : RecAt :=
  match s.agentTo .trellis x va false with
  | .bad k d l => .fault k d l s
  | .host _ _ | .rmt _ _ | .chip _ _ _ => .refused
  | .collapse line => match s.agentWait line (s.rto x.id) with
    | .bad k d l t => .fault k d l t
    | .ok _ t | .wait t => .wait t
  | .wait => .wait s
  | .hold loc key pa => if x.rKind va = 0 then .wait (s.enqueue .trellis x.id 0 0 va loc key pa) else .refused
  | .dram loc _ kind =>
    match s.agentTo .trellis x va true with
    | .bad k d l => .fault k d l s
    | .dram _ _ _ | .hold _ _ _ | .host _ _ | .rmt _ _ | .chip _ _ _ | .collapse _ | .wait => if kind = 0 then .ok loc else .refused

/-- JOIN is at most 0 (R302). -/
def joinDue (j : BitVec 32) : Bool := j.sle 0

/-- The record in flight at an address or at its memory. -/
def State.runAt (s : State) (x : Ctx) (va : BitVec 64) (loc : Nat) : Option Run :=
  s.runs.find? fun r => r.ctx == x.id && (r.va == va || match s.agentTo .trellis x r.va false with
    | .dram l _ _ | .hold l _ _ => l == loc
    | .host _ _ | .rmt _ _ | .chip _ _ _ | .bad _ _ _ | .collapse _ | .wait => false)

/-! ## Shapes (R13, R16, R29, R33, R300) -/

/-- Bytes a crew takes of its quarter. -/
def crewBytes (slices vregs : Nat) : Nat := ceilDiv (16 * vregs * slices) 1024 * 1024

/-- Crews and blocks of a shape that an empty core holds. -/
def crewsPerCore (r : BitVec 512) : Nat := 4 * min 16 (131072 / crewBytes (rcSlices r) (rcVregs r))
def blocksPerCore (r : BitVec 512) : Nat :=
  let n := crewsPerCore r / rcCrews r
  if rcScr r = 0 then n else min n (262144 / rcScr r)

/-- Cores of a die that work. -/
def State.coresOf (s : State) (die : Nat) : List Nat := (rangeFrom (die * 32) 24).filter fun k => !s.ras.failed.contains k

/-- A launch that no presented device of these dies can hold. -/
def State.tooBig (s : State) (x : Ctx) (r : BitVec 512) : Bool :=
  blocksPerCore r == 0 ||
  !((rangeFrom x.pdev x.dies).any fun d => decide (rcClu r ≤ (s.coresOf d).length * blocksPerCore r)) ||
  (rcKind r == 2 && decide (x.dies < rcSpan r))

/-- A record that R300 refuses. -/
def State.recIll (s : State) (x : Ctx) (r : BitVec 512) : Bool :=
  let k := rcKind r
  r.extractLsb' 230 2 != 0 || r.extractLsb' 240 16 != 0 || r.extractLsb' 300 4 != 0 || r.extractLsb' 448 64 != 0 ||
  4 < rcState r || 4 < k || (rcCode r).toNat % (if k = 4 then 8 else 4) != 0 ||
  (rcParent r != 0 && (!canonical (rcParent r) || (rcParent r).toNat % 64 != 0)) ||
  (if 3 ≤ k then r.extractLsb' 256 64 != 0
   else
    rcNblk r == 0 || 262144 < rcScr r || (k == 0 && (rcClu r != 1 || rcSpan r != 1)) ||
    (k == 1 && (rcSpan r != 1 || rcNblk r % rcClu r != 0)) ||
    (k == 2 && (rcSpan r == 1 || rcNblk r % (rcClu r * rcSpan r) != 0)) || s.tooBig x r)

/-! ## Becoming READY (R251, R302, R309) -/

/-- What is read as a record becomes READY beside itself: its attached collective and, of a cellar task, its command record. -/
inductive Inputs where
  | ok (acoll work : Option (BitVec 512)) (finished : Bool) (s : State)
  | wait (s : State)

/-- 64 bytes at an aligned address of the context; a failure is reported to the context and gives nothing. -/
def State.readSide (s : State) (x : Ctx) (va pc : BitVec 64) : Except State (Option (BitVec 512) × State) :=
  if !canonical va then .ok (none, s.asyncFault x.id cPROT 0 0 va pc)
  else if va.toNat % 64 != 0 then .ok (none, s.asyncFault x.id cMISALIGN 0 0 va pc)
  else
    match s.agentRead .trellis x va 64 with
    | .ok v t => .ok (some (BitVec.ofNat 512 v), t)
    | .bad k d l t => .ok (none, t.asyncFault x.id k d l va pc)
    | .wait t => .error t

def State.inputs (s : State) (x : Ctx) (va : BitVec 64) (r : BitVec 512) : Inputs :=
  match (if rcAcoll r = 0 then .ok (none, s) else s.readSide x (rcAcoll r) va) with
  | .error t => .wait t
  | .ok (acoll, t) =>
    if rcKind r != 3 then .ok acoll none false t
    else
      match t.readSide x (rcCode r) va with
      | .error u => .wait u
      | .ok (none, u) => .ok acoll none true u
      | .ok (some w, u) => .ok acoll (some w) (crIll w (modeDies x.mode)) u

/-- A run becomes READY with its fields and inputs. -/
def Run.ready (r : Run) (rcd : BitVec 512) (now draw : Nat) (acoll work : Option (BitVec 512)) (finished : Bool) : Run :=
  { r with rcd := rcd, readyAt := some now, readyDraw := draw, acoll := acoll, work := work, workDone := finished }

/-! ## Launches (R247, R302) -/

/-- How a launch is decided: a status code with the cause or detail to report, or not yet. -/
inductive Launched where
  | done (code : BitVec 4) (detail : BitVec 8) (s : State)
  | wait (s : State)

/-- A refused launch: the spec gives no detail for these, so it is a free value. -/
def State.refuseLaunch (s : State) : Launched := .done stREFUSED (s.freeWord.1.setWidth 8) s.freeWord.2

/-- A gridid that no unfinished launch has (R19): as near to the launch's own number as can be. -/
def State.newGrid (s : State) (uid : Nat) : BitVec 32 :=
  BitVec.ofNat 32 (((rangeFrom uid (s.runs.length + 1)).find? fun n => !s.runs.any (·.gridid == BitVec.ofNat 32 n)).getD uid)

/-- The record leaves IDLE or DONE. While something of it must wait, nothing is done. -/
def State.startRun (s : State) (x : Ctx) (va : BitVec 64) (r : BitVec 512) (prio : BitVec 2) : Launched :=
  let (uid, s1) := s.fresh
  let run : Run :=
    { uid := uid, ctx := x.id, va := va, rcd := r, prio := prio, readyAt := none, readyDraw := 0, gridid := s.newGrid uid, nextBlk := 0,
      running := false, submitted := false, workDone := false, work := none, acoll := none, collDone := false }
  let write := fun (u : State) (st : BitVec 3) (run : Run) =>
    match u.recStep x va fun j _ => (j, st) with
    | .ok _ t => Launched.done stDONE 0 { t with runs := t.runs ++ [run] }
    | .bad k _ _ t => .done stFAULT k (s.keepWaits t)
    | .wait t => .wait (s.keepWaits t)
  if joinDue (rcJoin r) then
    match s1.inputs x va r with
    | .wait t => .wait (s.keepWaits t)
    | .ok acoll work finished t => write t 2 (run.ready r t.reftime t.draws acoll work finished)
  else write s1 1 run

/-- A launch of the record at an address, in the order of R302. -/
def State.launch (s : State) (ctx : Nat) (va : BitVec 64) (prio : BitVec 2) : Launched :=
  match s.ctx? ctx with
  | none => s.refuseLaunch
  | some x =>
    if x.dead then .done stREFUSED 0x07 s
    else if !canonical va || va.toNat % 64 != 0 then s.refuseLaunch
    else
      match s.recLoc x va with
      | .fault k _ _ t => .done stFAULT k t
      | .refused => s.refuseLaunch
      | .wait t => .wait t
      | .ok loc =>
        match s.agentRead .trellis x va 64 with
        | .bad k _ _ t => .done stFAULT k t
        | .wait t => .wait t
        | .ok v t =>
          let r : BitVec 512 := BitVec.ofNat 512 v
          if (s.runAt x va loc).isSome || (1 ≤ rcState r && rcState r ≤ 3) then .done stBUSY 0 t
          else if t.recIll x r then t.refuseLaunch
          else if 65536 ≤ (t.runs.filter (·.ctx == ctx)).length then .done stFULL 0 t
          else t.startRun x va r prio

/-! ## TASK and RECORD_LAUNCH (R247) -/

/-- TASK: a release; the trellis decides later. -/
def execTask (o : Task) (s : State) : Out :=
  asGang s fun c g =>
    match c.lead g o.h.guard with
    | none => s.doneAt c.uid g 12 true
    | some l =>
      let va := c.sea (l / 4) o.a o.off
      if c.hyp != 0 then s.trap c g 12 cHYPEFFECT 0
      else if !canonical va then s.trap c g 12 cPROT 0
      else if va.toNat % 64 != 0 then s.trap c g 12 cMISALIGN 0
      else if s.regsPending c.uid then s
      else
        let (id, s) := s.fresh
        let q : Launch := { id := id, ctx := c.ctx, va := va, prio := o.prio, dest := c.statusTo g o.d }
        ({ s with launches := s.launches ++ [q] }.pendStatus c.uid g o.d.toNat id).doneAt c.uid g 12 true

/-- RECORD_LAUNCH of the idx-th TASK that waits. -/
def execRecordLaunch (idx : Nat) (s : State) : Out :=
  .next (match s.launches[idx]? with
    | none => s
    | some q =>
      match s.launch q.ctx q.va q.prio with
      | .wait t => t
      | .done code k t =>
        { t with launches := t.launches.filter (·.id != q.id) }.writeStatus q.dest q.id
          (statusWord code false (if code = stFAULT then k else 0) 0))

/-! ## Join counters (R302, R303, R305) -/

/-- A record without JOIN and STATE. -/
def rcFixed (r : BitVec 512) : BitVec 512 := r &&& ~~~(BitVec.ofNat 512 (2 ^ 227 - 2 ^ 192))

/-- The fields with which a WAITING record becomes READY: as they are read in that step (R31, R302); fields that a launch would refuse
give no run, so the launch's are kept (log 20). -/
def State.readyFields (s : State) (x : Ctx) (launched now : BitVec 512) : BitVec 512 :=
  if s.recIll x (rcFixed now) then launched else now

/-- A decrement of the record at an address, for the finishing record at `pc`; `.error` while it must wait. -/
def State.decrement (s : State) (x : Ctx) (va pc : BitVec 64) : Except State State :=
  let fail := fun (t : State) (k d : BitVec 8) (l : Nat) => .ok (t.asyncFault x.id k d l va pc)
  match s.recLoc x va with
  | .fault k d l t => fail t k d l
  | .refused => fail s cPROT 0 0
  | .wait t => .error t
  | .ok loc =>
    match s.agentRead .trellis x va 64 with
    | .bad k d l t => fail t k d l
    | .wait t => .error t
    | .ok v t =>
      let r : BitVec 512 := BitVec.ofNat 512 v
      let put := fun (t : State) (st : BitVec 3 → BitVec 3) => match t.recStep x va fun j q => (j - 1, st q) with
        | .ok _ u => Except.ok u
        | .bad k d l u => .ok (u.asyncFault x.id k d l va pc)
        | .wait u => .error (s.keepWaits u)
      match t.runAt x va loc with
      | some q =>
        if q.readyAt.isSome || !joinDue (rcJoin r - 1) then put t id
        else
          let rcd := t.readyFields x q.rcd r
          match t.inputs x q.va rcd with
          | .wait u => .error (s.keepWaits u)
          | .ok acoll work finished u =>
            (put u fun _ => 2).map fun w => w.modRun q.uid fun r => r.ready rcd w.reftime w.draws acoll work finished
      | none => put t fun q => if q = 1 ∧ joinDue (rcJoin r - 1) then 2 else q

/-! ## The end of a record (R304) -/

/-- Updates and REDMs of a run that are still on their way. -/
def State.runOwed (s : State) (run : Nat) : Bool :=
  (s.regs.any fun r => r.run == run || r.more.any (·.2 == run)) || s.atomq.any fun r => r.run == run && match r.src with
    | .crew _ _ => true
    | .proc _ _ _ => false

/-- The record's work is finished (R304). -/
def State.runOver (s : State) (r : Run) : Bool :=
  r.readyAt.isSome && s.workOver r && !s.runOwed r.uid && (r.acoll.isNone || r.collDone)

/-- DONE is written, with LINK 0; a record that can no longer be written is reported. `.error` while its line must wait. -/
def State.writeDone (s : State) (x : Ctx) (r : Run) : Except State State :=
  match s.recStep x r.va fun j _ => (j, 4) with
  | .bad k d l t => .ok (t.asyncFault x.id k d l r.va r.va)
  | .wait t => .error t
  | .ok _ t =>
    match t.agentWrite .trellis x (r.va + 56) 8 0 with
    | .ok _ u => .ok u
    | .bad k d l u => .ok (u.asyncFault x.id k d l r.va r.va)
    | .wait u => .error (s.keepWaits u)

/-- The parent of a finished record is decremented, once. -/
def State.tellParent (s : State) (x : Ctx) (r : Run) : Except State State :=
  if r.told || rcParent r.rcd = 0 then .ok s
  else (s.decrement x (rcParent r.rcd) r.va).map fun t => t.modRun r.uid fun q => { q with told := true }

/-- RECORD_FINISH: the parent is decremented first, then DONE is written. -/
def execRecordFinish (run : Nat) (s : State) : Out :=
  .next (match s.run? run with
    | none => s
    | some r =>
      match s.ctx? r.ctx with
      | none => s
      | some x =>
        if !s.runOver r then s
        else
          match s.tellParent x r with
          | .error t => t
          | .ok t =>
            match t.writeDone x r with
            | .error u => u
            | .ok u => { u with runs := u.runs.filter (·.uid != run) })

end Sys2Proof.Machine
end

