-- ==== Sys2Proof/Machine/Launch.lean ====
section
/-!
DEFINITION. Serving ready records (15 R306 to R309; 02 R26 to R33, R181; 09 R372): the work distributor, cellar tasks, host signals
and attached collectives.
-/
namespace Sys2Proof.Machine

/-- Work is served only while the firmware runs (R345, R361). -/
def State.serving (s : State) : Bool := s.bar0.boot == 3

/-! ## The ready list (R306, R307) -/

/-- The trellis may serve a context's records (R339, R342, R343). -/
def State.served (s : State) (ctx : Nat) : Bool := s.serving && (s.ctx? ctx).any fun x => !x.dead && !x.stopAdmit

/-- A record's level now. -/
def State.level (s : State) (r : Run) : Nat :=
  match r.readyAt, s.ctx? r.ctx with
  | some t, some x => if x.age = 0 then r.prio.toNat else min 3 (r.prio.toNat + (s.reftime - t) / (x.age.toNat * 1000))
  | _, _ => r.prio.toNat

/-- Record q comes no earlier in its list than r. -/
def State.notAfter (s : State) (r q : Run) : Bool :=
  s.level q < s.level r || (s.level q == s.level r && r.readyAt.getD 0 ≤ q.readyAt.getD 0)

/-- A READY grid whose blocks are not all admitted, of a context served. -/
def State.wantsCores (s : State) (r : Run) : Bool :=
  rcGrid r.rcd && r.readyAt.isSome && decide (r.nextBlk < rcNblk r.rcd) && s.served r.ctx

/-- A record is at the head of its presented device's core list. -/
def State.coreHead (s : State) (r : Run) : Bool :=
  s.wantsCores r && s.runs.all fun q =>
    q.uid == r.uid || !s.wantsCores q || s.firstDie q.ctx != s.firstDie r.ctx ||
      if (q.nextBlk == 0) == (r.nextBlk == 0) then s.notAfter r q else r.nextBlk != 0

/-! ## Room on a core (R26, R33, R292) -/

/-- Two ranges have a byte in common. -/
def overlap (a n b m : Nat) : Bool := a < b + m && b < a + n

/-- A crew slot and a register range of a scheduler are free. -/
def State.slotFree (s : State) (core sched slot off n : Nat) : Bool :=
  sched < 4 && slot < 16 && off % 1024 == 0 && off + n ≤ 131072 &&
  s.crews.all fun c => c.saved || c.core != core || c.sched != sched ||
    (c.slot != slot && !overlap off n c.regOff (crewBytes c.slices.length c.vregs))

/-- A scratchpad range is free. -/
def State.scrFree (s : State) (core off n : Nat) : Bool :=
  off % 1024 == 0 && off + n ≤ 262144 && (n != 0 || off == 0) &&
  s.blocks.all fun b => b.saved || b.core != core || !overlap off n b.scrOff b.scrSize

/-- A core of a context's presented device that works and holds no other context. -/
def State.coreFor (s : State) (x : Ctx) (core : Nat) : Bool :=
  x.pdev ≤ core / 32 && core / 32 < x.pdev + x.dies && core % 32 < 24 && !s.ras.failed.contains core &&
  s.blocks.all fun b => b.saved || b.core != core || b.ctx == x.id

/-! ## A new block (R19, R181, R301, R330) -/

/-- A slice as a crew starts (R37, R38, R301). -/
def Slice.start (frame code : BitVec 64) (tag : Nat) : Slice :=
  { pc := code, active := 15, exited := 0, stack := [], gang := 0, s := mput 0 (mput 0 [] 0 (lo32 frame)) 1 (hi32 frame),
    region := { ent := code, mask := 15, stack := [], tag := tag }, regctr := 0, wait := .none, spend := [], vpend := [],
    drops := [], slate := [], vlate := [], lateHit := false, la := [] }

/-- An event slot that nothing has bound (log 8). -/
def EvSlot.empty : EvSlot := { bound := false, kind := 0, obj := 0, parity := false, handler := 0 }

/-- No trap has been taken (R330). -/
def TrapInfo.none : TrapInfo := { cause := 0, late := false, lane := 0, detail := 0, level := 0, epc := 0, val := 0 }

/-- Crew i of a new block of a run. -/
def Crew.start (r : Run) (uid tag block core die i sched slot regOff : Nat) : Crew :=
  { uid := uid, ctx := r.ctx, run := r.uid, block := block, core := core, sched := sched, slot := slot, regOff := regOff,
    vregs := rcVregs r.rcd, slices := List.replicate (rcSlices r.rcd) (Slice.start (rcFrame r.rcd) (rcCode r.rcd) tag),
    crewid := i, dieId := die, coreId := coreid core, v := [], p := [], fflags := 0, frm := 0, hyp := 0, hxh := 0, pend := 0, emask := 0, evwhich := 0xFFFFFFFF,
    evdata := 0, slots := List.replicate 8 EvSlot.empty, urgent := false, turn := 0,
    tvec := (rcCarg r.rcd).extractLsb' 2 62, tm := false, mask := false, held := false, trap := TrapInfo.none, waddr := 0,
    wrd := false, wwr := false, wk := 0, frame := none, late := none, lateGang := 0, stopped := false, faulted := none,
    faultSeq := none, preempted := false, saved := false, orphan := none, window := none, windowSaved := none }

/-- The numbers of block n of a run (R19, R301). -/
def Block.start (r : Run) (uid core scrOff n : Nat) : Block :=
  let k := rcKind r.rcd
  let clu := if k = 0 then n else n / rcClu r.rcd
  { uid := uid, ctx := r.ctx, run := r.uid, core := core, scrOff := scrOff, scrSize := rcScr r.rcd, blkid := BitVec.ofNat 32 n,
    nblk := BitVec.ofNat 32 (rcNblk r.rcd), cluid := BitVec.ofNat 32 clu,
    clurank := if k = 0 then 0 else BitVec.ofNat 32 (n % rcClu r.rcd),
    spanid := if k = 2 then BitVec.ofNat 32 (clu / rcSpan r.rcd) else 0xFFFFFFFF, gridid := r.gridid, saved := false }

/-- The crews of a block at their slots, one after another: none when one finds no room. -/
def State.placeCrews (r : Run) (block core : Nat) : State → Nat → List (Nat × Nat × Nat) → Option State
  | s, _, [] => some s
  | s, i, (sched, slot, kib) :: rest =>
    if s.slotFree core sched slot (kib * 1024) (crewBytes (rcSlices r.rcd) (rcVregs r.rcd)) then
      let c := Crew.start r s.nextId (s.nextId + 1) block core (s.dieid r.ctx core) i sched slot (kib * 1024)
      State.placeCrews r block core { s with nextId := s.nextId + 2, crews := s.crews ++ [c] } (i + 1) rest
    else none

/-- A core comes to a context (R372); its instruction cache then holds nothing of another (R132). -/
def State.coreComes (s : State) (core ctx : Nat) : State :=
  let k := s.core core
  if k.lastCtx = some ctx then s
  else
    { s.setCore core { k with subs := Core.fresh.subs, acc := [], accBad := [], tags := [], mail := [], mailBad := [],
                              lastCtx := some ctx } with
      icache := s.icache.filter (·.core != core) }

/-- A core whose clock was stopped while it held no block runs again, at a speed that power management chooses (R364, R371). -/
def State.wakeCore (s : State) (core : Nat) : State :=
  if mget 1400 s.ras.mhz core != 0 then s
  else
    let (n, t) := s.choose (if s.ras.hot.contains (core / 32) then 1050 else 1051)
    { t with ras := { t.ras with mhz := mput 1400 t.ras.mhz core (350 + n) } }

/-- Block n of a run put on a core (R26): its scratchpad is zero (R181). -/
def State.placeBlock (s : State) (x : Ctx) (r : Run) (n : Nat) (p : BlockPlace) : Option State :=
  if s.coreFor x p.core && s.scrFree p.core (p.scrKiB * 1024) (rcScr r.rcd) && p.crews.length == rcCrews r.rcd then
    let b := Block.start r s.nextId p.core (p.scrKiB * 1024) n
    let t := { s with nextId := s.nextId + 1, blocks := s.blocks ++ [b] }.coreComes p.core x.id |>.wakeCore p.core
    let t := t.writeMem (scratchAddr p.core b.scrOff) b.scrSize 0
    State.placeCrews r b.uid p.core t 0 p.crews
  else none

def State.placeBlocks (x : Ctx) (r : Run) : State → Nat → List BlockPlace → Option State
  | s, _, [] => some s
  | s, n, p :: rest =>
    match s.placeBlock x r n p with
    | some t => State.placeBlocks x r t (n + 1) rest
    | none => none

/-- The dies of the blocks of cluster i of a group. -/
def cluDies (clu i : Nat) (ps : List BlockPlace) : List Nat := ((ps.drop (i * clu)).take clu).map (·.core / 32)

/-- A cluster lies on one die, the clusters of a span on distinct dies (R27, R28, R307). -/
def diesOk (r : BitVec 512) (ps : List BlockPlace) : Bool :=
  if rcKind r = 0 then true
  else
    let cs := (List.range (rcSpan r)).map fun i => cluDies (rcClu r) i ps
    cs.all (fun ds => ds.all (· == ds.headD 0)) && (cs.map (·.headD 0)).Nodup

/-- BLOCK_ADMISSION: the next block, cluster or span of the head record, whole (R26 to R29, R307). -/
def execBlockAdmission (o : Admit) (s : State) : Out :=
  .next (match s.run? o.run with
    | none => s
    | some r =>
      match s.ctx? r.ctx with
      | none => s
      | some x =>
        let group := if rcKind r.rcd = 0 then 1 else rcClu r.rcd * rcSpan r.rcd
        if !s.coreHead r || o.places.length != group || !diesOk r.rcd o.places then s
        else
          match State.placeBlocks x r s r.nextBlk o.places with
          | none => s
          | some t =>
            let t := t.modRun r.uid fun q => { q with nextBlk := q.nextBlk + group }
            if r.running then t
            else
              match t.markRunning x r with
              | .ok u => u
              | .error u => s.keepWaits u)

/-! ## Cellar tasks and host signals (R308) -/

/-- A cellar task that is READY and not yet submitted, with its stack. -/
def State.wantsStack (s : State) (r : Run) : Option Nat :=
  match r.work with
  | some w => if r.readyAt.isSome && !r.submitted && !r.workDone && s.served r.ctx then some (s.firstDie r.ctx + crStack w) else none
  | none => none

/-- CELLAR_TASK_SUBMIT: the head of a stack's list enters the queue when it has room. -/
def execCellarTaskSubmit (run : Nat) (s : State) : Out :=
  .next (match s.run? run with
    | none => s
    | some r =>
      match s.wantsStack r, r.work with
      | some stack, some w =>
        let head := s.runs.all fun q => q.uid == r.uid || s.wantsStack q != some stack || s.notAfter r q
        if !head || s.queueFull stack then s
        else
          let (id, t) := s.fresh
          { t.modRun run fun q => { q with submitted := true } with
            cmdq := t.cmdq ++ [mkCmd id r.ctx stack w false (.task run) r.va] }
      | _, _ => s)

/-- HOST_SIGNAL: CARG is stored at CODE with a release, then the vector is raised; a store that faults is reported. -/
def execHostSignal (run : Nat) (s : State) : Out :=
  .next (match s.run? run with
    | none => s
    | some r =>
      match s.ctx? r.ctx with
      | none => s
      | some x =>
        if rcKind r.rcd != 4 || r.readyAt.isNone || r.workDone || !s.served r.ctx then s
        else
          let fin := fun (t : State) => match t.markRunning x r with
            | .error u => s.keepWaits u
            | .ok t => if rcIrq r.rcd then (t.taskDone run).raiseVec (rcVec r.rcd) else t.taskDone run
          match s.agentWrite .trellis x (rcCode r.rcd) 8 (rcCarg r.rcd).toNat with
          | .ok _ t => fin t
          | .bad k d l t => fin (t.asyncFault x.id k d l (rcCode r.rcd) r.va)
          | .wait t => t)

/-! ## Attached collectives (R309) -/

def acSrc (d : BitVec 512) : BitVec 64 := d.extractLsb' 0 64
def acDst (d : BitVec 512) : BitVec 64 := d.extractLsb' 64 64
def acLen (d : BitVec 512) : Nat := (d.extractLsb' 128 48).toNat
def acNode (d : BitVec 512) : BitVec 10 := d.extractLsb' 176 10
def acOp (d : BitVec 512) : Nat := (d.extractLsb' 186 2).toNat
def acSw (d : BitVec 512) : Bool := d.getLsbD 188

/-- A descriptor that breaks the table. -/
def acIll (d : BitVec 512) : Bool :=
  d.extractLsb' 189 67 != 0 || d.extractLsb' 320 192 != 0 || 2 ≤ acOp d || (acSw d && acOp d != 1) ||
  (acOp d == 1 && acLen d % 4 != 0)

/-- Bytes of the next chunk of a transfer of which n are done: at most 1 MiB. -/
def acChunk (d : BitVec 512) (n : Nat) : Nat := min (2 ^ 20) (acLen d - n)

/-- The collective of a run in its engine. -/
def State.attachJob (s : State) (run : Nat) : Option CollJob := s.colls.find? (·.attach == some run)

/-- Its word is known: it is written to STATUS, now or once the line lets it. -/
def State.attachEnd (s : State) (x : Ctx) (r : Run) (j : CollJob) (w : BitVec 64) : State :=
  let gone := fun (t : State) => { t with colls := t.colls.filter (·.id != j.id) }.modRun r.uid fun q => { q with collDone := true }
  match s.agentWrite (.coll j.engine) x (rcAcoll r.rcd + 32) 8 w.toNat with
  | .ok _ t => gone t
  | .bad k c l t => gone (t.asyncFault x.id k c l (rcAcoll r.rcd) r.va)
  | .wait t => t.modColl j.id fun j => { j with word := some w }

/-- n bytes more have been delivered: the transfer ends, or goes on with its next chunk. -/
def State.attachMore (s : State) (x : Ctx) (r : Run) (d : BitVec 512) (j : CollJob) (n : Nat) (swRefused : Bool) : State :=
  let refused := j.refused || swRefused
  if acLen d ≤ j.delivered + n then s.attachEnd x r j (statusWord stDONE (acSw d && refused) 0 (acLen d))
  else s.modColl j.id fun j => { j with delivered := j.delivered + n, sent := false, out := 0, pool := 0, refused := refused }

/-- The transfer ends with FAULT after n bytes more. -/
def State.attachFail (s : State) (x : Ctx) (r : Run) (d : BitVec 512) (j : CollJob) (k : BitVec 8) (n : Nat) (swRefused : Bool) : State :=
  s.attachEnd x r j (statusWord stFAULT (acSw d && (j.refused || swRefused)) (collCause k) (j.delivered + n))

/-- The next chunk is gathered and sent: delivered at once at a node of this package, else held until it is acknowledged. -/
def State.attachSend (s : State) (x : Ctx) (r : Run) (d : BitVec 512) (j : CollJob) : State :=
  let ag := Agent.coll j.engine
  let n := acChunk d j.delivered
  let no := s.noSwitch (Config.nodeId x.pdev) (acNode d)
  match s.agentReadN ag x (acSrc d + BitVec.ofNat 64 j.delivered) n with
  | .wait t => s.keepWaits t
  | .bad k _ _ t => t.attachFail x r d j k 0 no
  | .ok v t =>
    let row : CollRow := ⟨acNode d, acDst d + BitVec.ofNat 64 j.delivered, toBytes n v⟩
    match t.deliverTo ag x (acOp d == 1) row with
    | some (.ok u) => u.attachMore x r d j n no
    | some (.bad k m u) => u.attachFail x r d j k m no
    | some (.wait u) => s.keepWaits u
    | none =>
      if t.pathSpent 3 row.node row.va.toNat then t.attachFail x r d j cPROT 0 no
      else
        (t.sendOut (acOp d == 1) (acSw d) [row]).modColl j.id fun j =>
          { j with sent := true, out := n, pool := hold4k n, epoch := t.epochOf j.ctx, refused := j.refused || no }

/-- The chunk in flight is acknowledged, or refused. -/
def State.attachAck (s : State) (x : Ctx) (r : Run) (d : BitVec 512) (j : CollJob) (a : CollAck) : State :=
  if a.fault then
    let t := if a.cause == cTIMEOUT then s.machineCheck 1 5 0 0 else s
    t.attachFail x r d j a.cause (min a.count j.out) a.swRefused
  else s.attachMore x r d j j.out a.swRefused

/-- The collective of a run as it enters its engine. -/
def State.attachNew (s : State) (x : Ctx) (r : Run) : CollJob × State :=
  let d := r.acoll.getD 0
  let (id, t) := s.fresh
  ({ id := id, ctx := x.id, engine := (rcAcoll r.rcd).toNat / 64 % 2, crew := 0, dest := { crew := 0, slices := [], reg := 0 },
     pc := r.va, block := 0, td := 0, lanes := [], red := acOp d == 1, sw := acSw d, rows := [], failed := none, sent := false,
     delivered := 0, out := 0, pool := 0, attach := some r.uid, epoch := 0 }, t)

/-- What an attached collective does next: it enters its engine after its record's own work, then goes chunk by chunk. -/
def State.attachStep (s : State) (x : Ctx) (r : Run) (d : BitVec 512) (a : CollAck) : State :=
  match s.attachJob r.uid with
  | none =>
    let (j, t) := s.attachNew x r
    let u : State := { t with colls := t.colls ++ [j] }
    if acIll d then u.attachEnd x r j (statusWord stREFUSED false 0 0)
    else if acLen d = 0 then u.attachEnd x r j (statusWord stDONE (acSw d && s.noSwitch (Config.nodeId x.pdev) (acNode d)) 0 0)
    else u
  | some j =>
    match j.word with
    | some w => s.attachEnd x r j w
    | none =>
      if j.sent then s.attachAck x r d j a
      else if s.collTurn j (hold4k (acChunk d j.delivered)) then s.attachSend x r d j
      else s

/-- ATTACHED_COLLECTIVE. -/
def execAttachedCollective (o : Attached) (s : State) : Out :=
  .next (match s.run? o.run with
    | none => s
    | some r =>
      match s.ctx? r.ctx, r.acoll with
      | some x, some d => if r.collDone || !s.workOver r || !s.serving then s else s.attachStep x r d o.ack
      | _, _ => s)

end Sys2Proof.Machine
end

