-- ==== Sys2Proof/Machine/Manage.lean ====
section
/-!
DEFINITION. Packets and queues (15 R295 to R297), the management queue (18 R345), partitions and layouts (15 R290, R291; 01 R12),
and the context commands CREATE, DESTROY and KILL (15 R293, R294; 04 R75, R76, R83).
-/
namespace Sys2Proof.Machine

/-! ## Packets (R295) -/

def pkAddr (p : BitVec 128) : BitVec 64 := p.extractLsb' 0 64
def pkOp (p : BitVec 128) : Nat := (p.extractLsb' 64 4).toNat
def pkCtx (p : BitVec 128) : BitVec 10 := p.extractLsb' 68 10

/-- A reserved bit is set. -/
def pkRsv (p : BitVec 128) : Bool := p.extractLsb' 78 38 != 0

/-- The second half of a packet with its result; V is set with it. -/
def pkResult (p : BitVec 128) (ctx : BitVec 10) (code : BitVec 4) (detail : BitVec 8) : BitVec 64 :=
  (1 : BitVec 1) ++ code.setWidth 3 ++ detail ++ p.extractLsb' 78 38 ++ ctx ++ p.extractLsb' 64 4

/-- A producer count is ahead of a consumer count, modulo 2^64 (R297). -/
def ahead (wr rd : BitVec 64) : Bool := (0 : BitVec 64).slt (wr - rd)

/-! ## Launch queues (R296, R297) -/

def State.modQueue (s : State) (ctx n : Nat) (f : Queue → Queue) : State :=
  s.modCtx ctx fun x => { x with queues := modAt x.queues n f }

/-- DOORBELL: the trellis reads the doorbell word, whose home has reported a write. -/
def execDoorbell (o : CtxNum) (s : State) : Out :=
  .next (match s.ctx? o.ctx with
    | none => s
    | some x =>
      match x.queues[o.n]? with
      | none => s
      | some q =>
        if !s.serving then s
        else
          match s.agentRead .trellis x q.door 8 with
          | .ok v t => if ahead (BitVec.ofNat 64 v) q.rd then t.modQueue o.ctx o.n fun q => { q with wr := BitVec.ofNat 64 v } else t
          | .bad k d l t => t.asyncFault x.id k d l q.door 0
          | .wait t => t)

/-- The ring slot of the next packet of a queue. -/
def Queue.slotVa (q : Queue) : BitVec 64 := q.ring + BitVec.ofNat 64 (16 * (q.rd.toNat % 2 ^ q.log2n.toNat))

/-- The next packet of a launch queue, if `mine` picks it: it is decided, its result written, and it counts as taken. A packet that
cannot be read or answered is reported to the context. -/
def State.takePacket (s : State) (o : CtxNum) (mine : BitVec 128 → Bool) (f : State → Queue → BitVec 128 → Launched) : State :=
  match s.ctx? o.ctx with
  | none => s
  | some x =>
    match x.queues[o.n]? with
    | none => s
    | some q =>
      let took := fun (t : State) => t.modQueue o.ctx o.n fun q => { q with rd := q.rd + 1 }
      if !s.serving || !ahead q.wr q.rd then s
      else
        match s.agentRead .trellis x q.slotVa 16 with
        | .wait t => t
        | .bad k d l t => took (t.asyncFault x.id k d l q.slotVa q.slotVa)
        | .ok v t =>
          if !mine (BitVec.ofNat 128 v) then s
          else
            match f t q (BitVec.ofNat 128 v) with
            | .wait u => { u with draws := s.draws }
            | .done code k u =>
              match u.agentWrite .trellis x (q.slotVa + 8) 8 (pkResult (BitVec.ofNat 128 v) (pkCtx (BitVec.ofNat 128 v)) code k).toNat with
              | .ok _ w => took w
              | .bad k d l w => took (w.asyncFault x.id k d l q.slotVa q.slotVa)
              | .wait w => s.keepWaits w

/-- LAUNCH: what TASK would give for the record, at the queue's priority. -/
def execLaunch (o : CtxNum) (s : State) : Out :=
  .next (s.takePacket o (fun p => pkOp p == 0 && !pkRsv p) fun t q p => t.launch o.ctx (pkAddr p) q.pri)

/-! ## The management queue (R294, R345) -/

/-- The physical address of the next management packet. -/
def Bar0.mqSlot (b : Bar0) : Nat :=
  b.mqPa.toNat * 4096 + 16 * (b.mqRd.toNat % 2 ^ (max 4 (min 16 b.mqLog2n.toNat)))

/-- The device whose host windows the management ring uses: the lowest presented one. -/
def State.mqFirst (s : State) : Nat := (minOf (s.pdevs.map (·.first))).getD 0

/-- How a management command ends. -/
inductive Managed where
  | done (ctx : BitVec 10) (code : BitVec 4) (detail : BitVec 8) (s : State)
  | wait (s : State)

/-- The next management packet, if `mine` picks it. One that cannot be read or answered counts as taken (log 58). -/
def State.manage (s : State) (mine : BitVec 128 → Bool) (f : State → BitVec 128 → Managed) : State :=
  let took := fun (t : State) => { t with bar0 := { t.bar0 with mqRd := t.bar0.mqRd + 1 } }
  if !s.serving || !ahead s.bar0.mqWr s.bar0.mqRd then s
  else
    match s.physRead s.mqFirst false s.bar0.mqSlot 16 with
    | .wait t => t
    | .bad _ _ _ t => took t
    | .ok v t =>
      let p := BitVec.ofNat 128 v
      if !mine p then s
      else
        match f t p with
        | .wait u => { u with draws := s.draws }
        | .done ctx code k u =>
          match u.physWrite u.mqFirst false (s.bar0.mqSlot + 8) 8 (pkResult p ctx code k).toNat with
          | .ok _ w => took w
          | .bad _ _ _ w => took w
          | .wait w => s.keepWaits w

/-- A write of the management queue's doorbell (R297). -/
def State.ringMq (s : State) (wr : BitVec 64) : State := { s with bar0 := { s.bar0 with mqWr := wr } }

/-- MQDOOR: a write of the management queue's doorbell (R297, R345), behind the host's earlier requests that wait (R346). -/
def execMqdoor (wr : BitVec 64) (s : State) : Out := .next (s.arrive (.reg ⟨8, wr, false⟩) (·.ringMq wr))

/-- PACKET_NOP: a NOP ends DONE; an operation the queue does not accept, or a reserved bit, ends REFUSED (R295). -/
def execPacketNop (q : QRef) (s : State) : Out :=
  let decided := fun (p : BitVec 128) => if pkOp p = 1 && !pkRsv p then (stDONE, (0 : BitVec 8)) else (stREFUSED, 0x01)
  .next (match q with
    | .launch ctx n =>
      s.takePacket ⟨ctx, n⟩ (fun p => pkOp p != 0 || pkRsv p) fun t _ p => .done (decided p).1 (decided p).2 t
    | .mgmt =>
      s.manage (fun p => pkOp p < 2 || 4 < pkOp p || pkRsv p) fun t p =>
        .done (pkCtx p) (decided p).1 (decided p).2 t)

/-! ## Partitions and layouts (R12, R290, R291) -/

/-- Dies in the partition of a die, and its first die. -/
def State.partDies (s : State) (die : Nat) : Nat := 2 ^ bits s.bar0.partcfg.toNat (2 * die + 1) (2 * die)
def State.partFirst (s : State) (die : Nat) : Nat := die / s.partDies die * s.partDies die

/-- Whether a mode may be used in a partition of n dies. -/
def modeAllowed (mode n : Nat) : Bool := if mode = 0 then n == 8 else if mode = 1 then n == 4 || n == 8 else true

/-- Launch queues of a presented device. -/
def modeQueues (mode : Nat) : Nat := if mode = 0 then 16 else if mode = 1 then 12 else 4

/-- Contexts of the partition of a die. -/
def State.partCtxs (s : State) (die : Nat) : List Ctx := s.ctxs.filter fun y => s.partFirst y.pdev == s.partFirst die

/-- The presented device of a new context. -/
def State.layoutOk (s : State) (x : Ctx) : Bool :=
  modeAllowed x.mode (s.partDies x.pdev) && x.pdev % x.dies == 0 && (s.partCtxs x.pdev).all fun y => y.mode == x.mode

/-- Contexts of a presented device. -/
def State.pdevCtxs (s : State) (first : Nat) : List Ctx := s.ctxs.filter (·.pdev == first)

/-! ## Creating a context (R293, R294) -/

/-- The reserved bits, MODE and the alignments of a control block. -/
def Ctx.blockIll (x : Ctx) : Bool :=
  x.field 261 3 != 0 || x.field 270 18 != 0 || x.field 293 11 != 0 || x.field 313 7 != 0 || x.mode == 3 ||
  x.ptroot % 4096 != 0 || x.rtab % 2048 != 0 || x.aclt % 8 != 0 || x.qtab % 32 != 0

/-- A queue descriptor (R296). -/
def qdQueue (d : BitVec 256) : Queue :=
  { ring := d.extractLsb' 0 64, door := d.extractLsb' 64 64, log2n := d.extractLsb' 128 5, pri := d.extractLsb' 133 2,
    peer := d.getLsbD 135, rd := 0, wr := 0 }

/-- The fixed rules of a descriptor. -/
def qdIll (d : BitVec 256) : Bool :=
  let q := qdQueue d
  d.extractLsb' 136 120 != 0 || q.ring.toNat % 4096 != 0 || q.door.toNat % 8 != 0 || q.log2n.toNat < 4 || 16 < q.log2n.toNat

/-- How a table of a new context is read: its items, a failure, or a wait. -/
inductive Table where
  | ok (vs : List Nat) (s : State)
  | bad (cause : BitVec 8) (s : State)
  | wait (s : State)

/-- n items of w bytes at a physical address of the context's presented device (R15, R293). -/
def State.physTable (x : Ctx) (w : Nat) : Nat → State → Nat → Table
  | 0, s, _ => .ok [] s
  | n + 1, s, pa =>
    match x.tableBad pa 0 with
    | some (.fault k _ _) => .bad k s
    | some (.collapse _) | some .wait | none =>
      match s.physRead x.pdev false pa w with
      | .wait t => .wait t
      | .bad k _ _ t => .bad k t
      | .ok v t =>
        match State.physTable x w n t (pa + w) with
        | .ok vs u => .ok (v :: vs) u
        | r => r

/-- What R76 and R15 refuse of a region entry. -/
def Ctx.regionIll (x : Ctx) (e : BitVec 256) : Bool :=
  rgKind e == 3 || rgLimit e < rgBase e ||
  match apertures.find? fun p => p.code == rgIlv e with
  | some p => !x.ownAperture p
  | none => true

/-- An entry with the bits that read as constants (R76). -/
def regionForm (e : BitVec 256) : BitVec 256 :=
  let base := BitVec.ofNat 57 (rgBase e)
  let limit := BitVec.ofNat 57 (rgLimit e)
  (0 : BitVec 71) ++ limit ++ (0 : BitVec 7) ++ base ++ (0 : BitVec 40) ++ e.extractLsb' 8 16 ++ (0 : BitVec 2) ++ e.extractLsb' 0 6

/-- The active region table as loaded: the valid entries that R76 and R15 accept. -/
def Ctx.loadRegions (x : Ctx) (es : List Nat) : SMap (BitVec 256) :=
  (es.mapIdx fun i v => (i, BitVec.ofNat 256 v)).foldl (fun m e =>
    if rgValid e.2 && !x.regionIll e.2 then mput 0 m e.1 (regionForm e.2) else m) []

/-- A context with nothing but its control block. -/
def Ctx.blank (id : Nat) (cb : BitVec 512) : Ctx :=
  { id := id, dead := false, cb := cb, regions := [], regions0 := [], tds := [], hyps := [], phases := [], queues := [], age := 1000,
    rgnIdx := 0, rgnBusy := false, rgnResult := 0, rgnNew := 0, rgnAct := 0, rgnSeq := 0, rgnGo := none, migK := 0, migSrc := 0,
    migDst := 0, migSlot := 0, migBusy := false, migResult := 0, migAct := none, migSeq := 0, migGo := false, migRetire := false,
    savedAt := none, stopAdmit := false }

/-- A presented device as its registers stand after reset. -/
def PDev.fresh (first dies varea : Nat) : PDev :=
  { first := first, dies := dies, varea := varea, epoch := 1, fwd := [], fqLog2n := 0, fqEn := false, fqVec := 0, fqPa := 0,
    fqProd := 0, fqCons := 0, faultQ := [], fresp := none, peCtx := 0, peReq := 0, peBusy := false, peResult := 0, peStage := 0,
    peSave := 0, peStart := 0, peGo := none, peAct := none, hwin := [], scto := 1000000, cectl := 0, xto := 100000 }

/-- The presented device of a context: its registers are kept while the layout names it, and its version-area size is fixed by
the first context on it (R291). -/
def State.presentDev (s : State) (x : Ctx) : State :=
  if s.pdevs.any fun p => p.first == x.pdev && p.dies == x.dies then
    if (s.pdevCtxs x.pdev).isEmpty then s.modPdev x.pdev fun p => { p with varea := x.varea } else s
  else
    let out := fun (p : PDev) => p.first + p.dies ≤ x.pdev || x.pdev + x.dies ≤ p.first
    { s with pdevs := s.pdevs.filter out ++ [PDev.fresh x.pdev x.dies x.varea] }

/-- How a check of a creation ends: it passes or not, or waits for a walk. -/
inductive Doors where
  | ok (pass : Bool)
  | wait (s : State)

/-- Whether the doorbell words lie in DRAM within COHERENT regions. -/
def State.doorsOk (s : State) (x : Ctx) : List Queue → Doors
  | [] => .ok true
  | q :: qs =>
    match s.agentTo .trellis x q.door false with
    | .dram _ _ _ | .hold _ _ _ => if x.rKind q.door = 0 then s.doorsOk x qs else .ok false
    | .wait => .wait s
    | .collapse line => match s.agentWait line (s.lineRto line) with
      | .wait t => .wait t
      | .ok _ _ | .bad _ _ _ _ => .ok false
    | .host _ _ | .rmt _ _ | .chip _ _ _ | .bad _ _ _ => .ok false

/-- Ids no context has. -/
def State.freeIds (s : State) : List Nat := (rangeFrom 1 1023).filter fun i => (s.ctx? i).isNone

/-- How a creation is decided: a context with everything that creation reads, the check that it fails first, a failure to read, or a
wait. -/
inductive Created where
  | ok (x : Ctx) (s : State)
  | refused (detail : BitVec 8) (s : State)
  | bad (cause : BitVec 8) (s : State)
  | wait (s : State)

/-- The checks of R294 after the first, in their order. -/
def State.createChecks (s : State) (x : Ctx) : Created :=
  let used := ((s.pdevCtxs x.pdev).map Ctx.nq).foldl (· + ·) 0
  if !s.layoutOk x then .refused 0x02 s
  else if x.nq = 0 || modeQueues x.mode < used + x.nq then .refused 0x03 s
  else if 16 < x.varea || (s.pdevCtxs x.pdev).any (fun y => y.varea != x.varea) then .refused 0x04 s
  else if 256 < x.acln then .refused 0x05 s
  else if x.id = 0 then .refused 0x06 s
  else .ok x s

/-- A context with its tables, as creation reads them. -/
def Ctx.withTables (x : Ctx) (qs rs : List Nat) : Ctx :=
  { x with
    regions := x.loadRegions rs, regions0 := (rs.mapIdx fun i v => (i, BitVec.ofNat 256 v)).filter (·.2 != 0),
    queues := (qs.map (BitVec.ofNat 256)).map qdQueue,
    phases := (List.range 8).map fun d => { quota := x.quota d, next := x.quota d, arrived := 0, count := 0 } }

/-- A new context from its control block: checked in order (R294). -/
def State.newCtx (s : State) (id : Nat) (addr : Nat) : Created :=
  let inDram := match physOf addr with
    | .dram _ _ => true
    | .host _ _ | .chip _ _ _ | .none => false
  if addr % 64 != 0 || !inDram then .refused 0x01 s
  else
    match s.physRead s.mqFirst false addr 64 with
    | .wait t => .wait t
    | .bad k _ _ t => .bad k t
    | .ok cb t =>
      let x := Ctx.blank id (BitVec.ofNat 512 cb)
      if x.blockIll then .refused 0x01 t
      else
        match State.physTable x 32 x.nq t x.qtab with
        | .wait u => .wait u
        | .bad k u => .bad k u
        | .ok qs u =>
          match State.physTable x 32 64 u x.rtab with
          | .wait w => .wait w
          | .bad k w => .bad k w
          | .ok rs w =>
            let x := x.withTables qs rs
            if qs.any fun v => qdIll (BitVec.ofNat 256 v) then .refused 0x01 w
            else
              match w.doorsOk x x.queues with
              | .wait y => .wait y
              | .ok false => .refused 0x01 w
              | .ok true => w.createChecks x

/-- CREATE: a block or table that cannot be read ends it FAULT with the cause (R295). -/
def execCreate (s : State) : Out :=
  .next (s.manage (fun p => pkOp p == 2 && !pkRsv p) fun t p =>
    let (k, u) := t.choose t.freeIds.length
    match u.newCtx (t.freeIds.getD k 0) (pkAddr p).toNat with
    | .wait w => .wait w
    | .refused d w => .done (pkCtx p) stREFUSED d { w with draws := t.draws }
    | .bad k w => .done (pkCtx p) stFAULT k { w with draws := t.draws }
    | .ok x w =>
      let w := w.presentDev x
      .done (BitVec.ofNat 10 x.id) stDONE 0 { w with ctxs := w.ctxs ++ [x] })

/-! ## Spares (R16, R370) -/

/-- Failed cores of a die. -/
def Ras.failedOn (r : Ras) (die : Nat) : List Nat := r.failed.filter (· / 32 == die)

/-- The spares of a die take the place of its failed cores, the lowest-numbered first (log 63). -/
def Ras.repair (r : Ras) (die : Nat) : Ras :=
  let left := mget 2 r.spares die
  let fixed := (r.failedOn die).take left
  { r with failed := r.failed.filter fun k => !fixed.contains k, spares := mput 2 r.spares die (left - fixed.length) }

/-- Dies on which no context lies. -/
def State.idleDies (s : State) : List Nat :=
  (List.range 8).filter fun d => !s.ctxs.any fun x => x.pdev ≤ d && decide (d < x.pdev + x.dies)

/-! ## Destroying a context (R294) -/

/-- Something of the context remains. -/
def State.ctxBusy (s : State) (id : Nat) : Bool :=
  s.runs.any (·.ctx == id) || s.blocks.any (·.ctx == id) || s.cmdq.any (·.ctx == id) || s.cmds.any (·.ctx == id) ||
  s.colls.any (·.ctx == id) || s.launches.any (·.ctx == id) ||
  s.cores.any fun k => k.2.mq.any (·.ctx == id) || k.2.copies.any (·.ctx == id)

/-- An update of a context that is gone belongs to none. -/
def CEntry.disown (e : CEntry) (id : Nat) : CEntry :=
  { e with upds := e.upds.map fun r => r.map fun u => if u.ctx == id then { u with ctx := 0 } else u }

/-- Another context of the same presented device: 0 when there is none. -/
def State.neighbour (s : State) (id : Nat) : Nat :=
  ((s.ctxs.filter fun y => y.id != id && y.pdev == s.firstDie id).map (·.id)).headD 0

/-- The id and the queues are free; the device keeps nothing under the id. Updates not yet collapsed stay with their lines, and failed
cores of dies that no context is left on are replaced (R16). -/
def State.removeCtx (s : State) (id : Nat) : State :=
  let t := (s.sweepPhased fun e => e.ctx == id).leaveCores id
  let heir := s.neighbour id
  let t : State := { t with
    ctxs := t.ctxs.filter (·.id != id),
    caches := (t.caches.filter fun e => !(e.hyp != 0 && e.ctx == id)).map (·.disown id),
    tlb := t.tlb.filter (·.ctx != id), ptrs := t.ptrs.filter (·.ctx != id), waitq := t.waitq.filter (·.ctx != id),
    resolves := t.resolves.filter (·.ctx != id), regs := t.regs.map (fun (r : Reg) => if r.ctx == id then { r with ctx := heir } else r),
    mails := t.mails.filter (·.ctx != id), credits := t.credits.filter (·.ctx != id) }
  { t with ras := t.idleDies.foldl Ras.repair t.ras }

/-- A context command: an id that no context has is refused, with a detail that the spec does not give. -/
def State.destroyCtx (s : State) (p : BitVec 128) : Managed :=
  match s.ctx? (pkCtx p).toNat with
  | none => .done (pkCtx p) stREFUSED (s.freeWord.1.setWidth 8) s.freeWord.2
  | some x => if s.ctxBusy x.id then .done (pkCtx p) stBUSY 0 s else .done (pkCtx p) stDONE 0 (s.removeCtx x.id)

/-- DESTROY. -/
def execDestroy (s : State) : Out := .next (s.manage (fun p => pkOp p == 3 && !pkRsv p) State.destroyCtx)

/-- KILL: a forced reset with reason 0, then as DESTROY; a dead context has been reset already. -/
def execKill (s : State) : Out :=
  .next (s.manage (fun p => pkOp p == 4 && !pkRsv p) fun t p =>
    let live := (t.ctx? (pkCtx p).toNat).any fun x => !x.dead
    (if live then t.forcedReset (pkCtx p).toNat 0 0 else t).destroyCtx p)

end Sys2Proof.Machine
end

