-- ==== Sys2Proof/Machine/System.lean ====
section
/-!
DEFINITION. The privileged instructions (15 R310; 16 R317, R318; 17 R329, R332 to R334) and the control registers they read and
write (15 R311; 16 R320, R323; 17 R330, R335, R338; 18 R347, R350, R353; 19 R365, R366, R370, R371).
-/
namespace Sys2Proof.Machine

/-! ## Privilege (R129, R329) -/

/-- The crew may read and write control register n: registers 0x200 to 0x20F also in trap mode. -/
def State.mayCsr (s : State) (c : Crew) (n : Nat) : Bool := s.privCtx c.ctx || (c.tm && n / 16 == 0x20)

/-- The crew may execute TRAPRET, TRAPMSK and HALT. -/
def State.mayTrap (s : State) (c : Crew) : Bool := s.privCtx c.ctx || c.tm

/-! ## Reading (R311, R320, R323, R330, R335, R338, R347, R350, R353, R365, R366, R370, R371) -/

/-- Fields at their places: the sum of x × 2^lo. -/
def fields (fs : List (Nat × Nat)) : BitVec 64 := BitVec.ofNat 64 ((fs.map fun f => f.1 * 2 ^ f.2).foldl (· + ·) 0)

def natOf (b : Bool) : Nat := if b then 1 else 0

/-- TSTAT. -/
def Crew.tstat (c : Crew) : BitVec 64 :=
  fields [(natOf c.tm, 0), (natOf c.mask, 1), (natOf c.held, 2), (natOf c.trap.late, 3), (c.trap.cause.toNat, 4),
    (c.trap.lane.toNat, 12), (c.trap.detail.toNat, 17), (c.trap.level.toNat, 25)]

/-- CTXINFO. -/
def State.ctxInfo (s : State) (x : Ctx) : BitVec 64 :=
  fields [(x.id, 0), (natOf x.priv, 10), (x.mode, 11), (x.pdev, 13), (s.partFirst x.pdev, 16), (Nat.log2 (s.partDies x.pdev), 19),
    ((Config.nodeId x.pdev).toNat, 21), (x.nq, 31), (x.varea, 36)]

/-- QINFOq. -/
def Ctx.qinfo (x : Ctx) (q : Nat) : BitVec 64 :=
  match x.queues[q]? with
  | some k => fields [(k.rd.toNat % 2 ^ 32, 0), (k.pri.toNat, 32), (natOf k.peer, 34), (1, 35)]
  | none => 0

/-- PREEMPT. -/
def PDev.preemptReg (p : PDev) : BitVec 64 :=
  fields [(p.peCtx.toNat, 0), (p.peReq.toNat, 10), (natOf (p.peBusy || p.peGo.isSome), 13), (p.peResult.toNat, 14), (p.peStage.toNat, 17),
    (p.peSave.toNat, 21)]

/-- RASSTAT; the count of retired frames saturates. -/
def Ras.stat (r : Ras) : BitVec 64 := fields [(natOf r.svcreq, 0), (r.degr.toNat, 3), (min 65535 r.retired.length, 11)]

/-- MCSTAT. -/
def Ras.mcstat (r : Ras) : BitVec 64 :=
  fields [(natOf r.valid, 0), (natOf r.ovf, 1), (r.sev.toNat, 2), (r.src.toNat, 4), (r.die.toNat, 8), (r.ce.toNat, 16)]

/-- A Scafa port's register. -/
def Port.reg (p : Port) : BitVec 64 := fields [(natOf p.up, 0), (p.lanes.toNat, 1), (natOf p.err, 5), (p.peer.toNat, 16)]

/-- A control register as a crew of context x reads it; none for an unassigned number. Write-only fields read as 0. -/
def State.csrRead (s : State) (c : Crew) (x : Ctx) (p : PDev) (n : Nat) : Option (BitVec 64) :=
  if n = 0x000 then some (s.ctxInfo x)
  else if n = 0x001 then some (fields [((s.runs.filter (·.ctx == x.id)).length, 0), (x.age.toNat, 32)])
  else if 0x010 ≤ n && n ≤ 0x017 then
    let d := x.phase (BitVec.ofNat 3 (n - 0x010))
    some (fields [(d.next.toNat, 0), (d.arrived.toNat, 16), (d.count.toNat, 32)])
  else if 0x020 ≤ n && n ≤ 0x02F then some (x.qinfo (n - 0x020))
  else if n = 0x100 then some (fields [(x.rgnIdx.toNat, 0), (natOf (x.rgnBusy || x.rgnGo.isSome), 7), (x.rgnResult.toNat, 8)])
  else if n = 0x101 then some (fields [(x.migK.toNat, 0), (x.migSrc.toNat, 12)])
  else if n = 0x102 then some (fields [(x.migDst.toNat, 12)])
  else if n = 0x103 then some (fields [(natOf (x.migBusy || x.migGo), 2), (x.migResult.toNat, 3), (x.migSlot.toNat, 6)])
  else if n = 0x200 then some c.tvecAddr
  else if n = 0x201 then some c.tstat
  else if n = 0x202 then some c.trap.epc
  else if n = 0x203 then some c.trap.val
  else if n = 0x205 then some c.waddr
  else if n = 0x206 then some (fields [(natOf c.wrd, 0), (natOf c.wwr, 1), (c.wk.toNat, 2)])
  else if n = 0x210 then some (fields [(p.fqLog2n.toNat, 0), (natOf p.fqEn, 4), (p.fqVec.toNat, 5), (p.fqPa.toNat, 12)])
  else if n = 0x211 then some p.fqProd
  else if n = 0x212 then some p.fqCons
  else if n = 0x213 then some 0
  else if n = 0x214 then some p.preemptReg
  else if 0x300 ≤ n && n ≤ 0x30F then
    let w := mget HWin.off p.hwin (n - 0x300)
    some (fields [(natOf w.en, 0), (natOf w.wr, 1), (natOf w.ns, 2), (w.hbase.toNat, 12)])
  else if n = 0x310 then some (fields [((Config.nodeId x.pdev).toNat, 0)])
  else if n = 0x311 then some (fields [(p.scto.toNat, 0)])
  else if n = 0x312 then some (fields [(p.cectl.toNat, 0)])
  else if 0x320 ≤ n && n ≤ 0x32B then some ((s.ports.getD (n - 0x320) Port.reset).reg)
  else if n = 0x400 then some s.ras.stat
  else if n = 0x401 then some s.ras.mcstat
  else if n = 0x402 then some (fields [(s.ras.addr.toNat, 0)])
  else if n = 0x403 then some (fields [(p.xto.toNat, 0)])
  else if n = 0x404 then some (fields [(s.ras.watts.toNat, 0), (maxOf (s.ras.temps.map (·.2.toNat)), 12)])
  else none

/-! ## Writing -/

/-- A write of RGNCTL (R320): one with GO while a rewrite runs is discarded entirely. -/
def Ctx.writeRgn (x : Ctx) (w : BitVec 64) : Ctx :=
  let go := w.getLsbD 6
  if go && (x.rgnBusy || x.rgnGo.isSome) then x
  else { x with rgnIdx := w.extractLsb' 0 6, rgnGo := if go then some (w.extractLsb' 0 6) else x.rgnGo }

/-- A write of MIGCTL (R323): one with both GO and RETIRE, or with GO while a move runs, is discarded. -/
def Ctx.writeMig (x : Ctx) (w : BitVec 64) : Ctx :=
  let go := w.getLsbD 0
  let retire := w.getLsbD 1
  if (go && retire) || (go && (x.migBusy || x.migGo)) then x
  else { x with migSlot := w.extractLsb' 6 4, migGo := x.migGo || go, migRetire := x.migRetire || retire }

/-- A write of a phase domain's quota applies from the next phase; a domain that completes no phase while its quota is 0 has
nothing to wait for (R199, R311). -/
def Ctx.writeQuota (x : Ctx) (d : Nat) (q : BitVec 16) : Ctx :=
  { x with phases := modAt x.phases d fun k => { k with next := q, quota := if k.quota = 0 then q else k.quota } }

/-- A write of FRESP (R335, R337): action 3 is discarded. -/
def PDev.writeFresp (p : PDev) (w : BitVec 64) : PDev :=
  if w.extractLsb' 32 2 = 3 then p else { p with fresp := some (w.extractLsb' 0 32, w.extractLsb' 32 2) }

/-- A write of PREEMPT (R338): a GO while a request runs is discarded; REQ 0 does nothing. The request goes on with the fields written
with its GO (log 62). -/
def PDev.writePreempt (p : PDev) (w : BitVec 64) : PDev :=
  let ctx := w.extractLsb' 0 10
  let req := w.extractLsb' 10 2
  let save := w.extractLsb' 21 27
  let go := w.getLsbD 12 && !p.peBusy && p.peGo.isNone && req != 0
  { p with peCtx := ctx, peReq := req, peSave := save, peGo := if go then some (ctx, req, save) else p.peGo }

/-- A write of MCSTAT (R366): VALID and OVF clear on 1; CE takes the written count. -/
def Ras.writeMcstat (r : Ras) (w : BitVec 64) : Ras :=
  { r with valid := r.valid && !w.getLsbD 0, ovf := r.ovf && !w.getLsbD 1, ce := w.extractLsb' 16 32 }

/-- A write of HWINw. -/
def PDev.writeHwin (p : PDev) (i : Nat) (w : BitVec 64) : PDev :=
  let k : HWin := { en := w.getLsbD 0, wr := w.getLsbD 1, ns := w.getLsbD 2, hbase := w.extractLsb' 12 52 }
  { p with hwin := mput HWin.off p.hwin i k }

/-- A control register written by a crew of context x: none for a number that is unassigned or has no field a write acts on. -/
def State.csrWrite (s : State) (c : Crew) (x : Ctx) (n : Nat) (w : BitVec 64) : Option State :=
  let onCtx := fun (f : Ctx → Ctx) => some (s.modCtx x.id f)
  let onCrew := fun (f : Crew → Crew) => some (s.modCrew c.uid f)
  let onPdev := fun (f : PDev → PDev) => some (s.modPdev x.pdev f)
  if n = 0x001 then onCtx fun x => { x with age := w.extractLsb' 32 16 }
  else if 0x010 ≤ n && n ≤ 0x017 then onCtx fun x => x.writeQuota (n - 0x010) (w.extractLsb' 0 16)
  else if n = 0x100 then onCtx fun x => x.writeRgn w
  else if n = 0x101 then onCtx fun x => { x with migK := w.extractLsb' 0 4, migSrc := w.extractLsb' 12 36 }
  else if n = 0x102 then onCtx fun x => { x with migDst := w.extractLsb' 12 36 }
  else if n = 0x103 then onCtx fun x => x.writeMig w
  else if n = 0x200 then onCrew fun c => { c with tvec := w.extractLsb' 2 62 }
  else if n = 0x205 then onCrew fun c => { c with waddr := w }
  else if n = 0x206 then onCrew fun c => { c with wrd := w.getLsbD 0, wwr := w.getLsbD 1, wk := w.extractLsb' 2 6 }
  else if n = 0x210 then
    onPdev fun p => { p with fqLog2n := w.extractLsb' 0 4, fqEn := w.getLsbD 4, fqVec := w.extractLsb' 5 7, fqPa := w.extractLsb' 12 36 }
  else if n = 0x212 then onPdev fun p => { p with fqCons := w }
  else if n = 0x213 then onPdev fun p => p.writeFresp w
  else if n = 0x214 then onPdev fun p => p.writePreempt w
  else if 0x300 ≤ n && n ≤ 0x30F then onPdev fun p => p.writeHwin (n - 0x300) w
  else if n = 0x311 then onPdev fun p => { p with scto := w.extractLsb' 0 32 }
  else if n = 0x312 then onPdev fun p => { p with cectl := w.extractLsb' 0 5 }
  else if 0x320 ≤ n && n ≤ 0x32B then
    some { s with ports := modAt s.ports (n - 0x320) fun q => { q with err := q.err && !w.getLsbD 5 } }
  else if n = 0x401 then some { s with ras := s.ras.writeMcstat w }
  else if n = 0x403 then onPdev fun p => { p with xto := w.extractLsb' 0 32 }
  else if n = 0x404 then some { s with ras := { s.ras with watts := w.extractLsb' 0 12 } }
  else none

/-! ## CSRR and CSRW (R310) -/

/-- The lowest slice with a participating lane. -/
def Crew.leadSlice (c : Crew) (g : Nat) (gd : Guard) : Option Nat := ((c.parts g gd).head?).map (· / 4)

/-- CSRR: the register in every slice of the gang. -/
def execCsrr (o : Csr) (s : State) : Out :=
  asGang s fun c g =>
    if !s.mayCsr c o.n.toNat then s.trap c g (CHdr.bytes o.h) cPRIV 0
    else
      match s.ctx? c.ctx, s.pdevOf c.ctx with
      | some x, some p =>
        match s.csrRead c x p o.n.toNat with
        | none => s.trap c g (CHdr.bytes o.h) cILLEGAL 0
        | some w =>
          let c' := if (c.parts g o.h.guard).isEmpty then c else c.ssetGang64 g o.d.toNat w
          s.setCrew (c'.advance g (CHdr.bytes o.h))
      | _, _ => s

/-- CSRW: the pair of the lowest slice with a participating lane. -/
def execCsrw (o : Csr) (s : State) : Out :=
  asGang s fun c g =>
    if !s.mayCsr c o.n.toNat then s.trap c g (CHdr.bytes o.h) cPRIV 0
    else
      match s.ctx? c.ctx with
      | none => s
      | some x =>
        let i := c.leadSlice g o.h.guard
        match s.csrWrite c x o.n.toNat (c.sget64 (i.getD 0) o.d.toNat) with
        | none => s.trap c g (CHdr.bytes o.h) cILLEGAL 0
        | some t => (if i.isSome then t else s).modCrew c.uid (·.advance g (CHdr.bytes o.h))

/-! ## Trap mode (R332 to R334) -/

/-- TRAPRET. -/
def execTrapret (o : TrapRet) (s : State) : Out :=
  asGang s fun c g =>
    if !s.mayTrap c then s.trap c g (CHdr.bytes o.h) cPRIV 0
    else if !c.tm then s.trap c g (CHdr.bytes o.h) cILLEGAL 0
    else if (c.parts g o.h.guard).isEmpty then s.setCrew (c.advance g (CHdr.bytes o.h))
    else s.setCrew (c.trapReturn o.m)

/-- TRAPMSK: clearing MASK takes a held pre-emption stop at this boundary. -/
def execTrapmsk (o : TrapMsk) (s : State) : Out :=
  asGang s fun c g =>
    if !s.mayTrap c then s.trap c g (CHdr.bytes o.h) cPRIV 0
    else
      let c' := c.advance g (CHdr.bytes o.h)
      if (c.parts g o.h.guard).isEmpty then s.setCrew c'
      else
        let c' := { c' with mask := o.n }
        s.setCrew (if c'.held && !o.n then c'.preempt else c')

/-- HALT. -/
def execHalt (o : Halt) (s : State) : Out :=
  asGang s fun c g =>
    if !s.mayTrap c then s.trap c g (CHdr.bytes o.h) cPRIV 0
    else if (c.parts g o.h.guard).isEmpty then s.setCrew (c.advance g (CHdr.bytes o.h))
    else s.forcedReset c.ctx 3 (o.code.setWidth 64)

/-! ## TLBINV and QSTAT (R317, R318) -/

/-- A TLB entry's page overlaps n pages of 4 KiB from a base; n = 0 covers everything. -/
def TlbEntry.overlaps (t : TlbEntry) (base : BitVec 64) (n : Nat) : Bool :=
  let size := 2 ^ (12 + pteK t.leaf)
  let page := t.va.toNat / size * size
  n == 0 || (page < base.toNat + n * 4096 && base.toNat < page + size)

/-- TLBINV: the gang waits for its updates' registrations, as FENCE.rel.dev does; walks are single steps, so none is under way. The
context's kept pointer entries go. -/
def execTlbinv (o : Tlbinv) (s : State) : Out :=
  asGang s fun c g =>
    if !s.privCtx c.ctx then s.trap c g (CHdr.bytes o.h) cPRIV 0
    else
      match c.leadSlice g o.h.guard with
      | none => s.setCrew (c.advance g (CHdr.bytes o.h))
      | some i =>
        let base := c.sget64 i o.a.toNat
        let n := (c.sget i o.b.toNat).toNat
        if n != 0 && base.toNat % 4096 != 0 then s.trap c g (CHdr.bytes o.h) cMISALIGN 0
        else if s.regsPending c.uid then s
        else
          { s with tlb := s.tlb.filter fun t => !(t.ctx == c.ctx && t.overlaps base n),
                   ptrs := s.ptrs.filter (·.ctx != c.ctx) }.setCrew (c.advance g (CHdr.bytes o.h))

/-- Epochs held by accesses in flight on a presented device (R318): what has not reached its home, what waits there, and cellar commands
from their first translation on. -/
def State.epochsHeld (s : State) (first : Nat) : List (BitVec 64) :=
  let here := fun (ctx : Nat) => s.firstDie ctx == first && (s.ctx? ctx).isSome
  (((s.cmds ++ s.cmdq).filter fun k => here k.ctx && k.epoch != 0).map (·.epoch)) ++
  ((s.atomq.filter fun r => here r.ctx).map (·.epoch)) ++
  ((s.regs.filter fun r => here r.ctx).map (·.epoch)) ++ ((s.mails.filter fun m => here m.ctx).map (·.epoch)) ++
  ((s.colls.filter fun j => j.sent && here j.ctx).map (·.epoch)) ++
  ((s.waitq.filter fun w => here w.ctx && s.waiterAlive w).map (·.epoch))

/-- The least epoch in flight, or E. -/
def State.leastEpoch (s : State) (p : PDev) : BitVec 64 :=
  (s.epochsHeld p.first).foldl (fun m e => if e.toNat < m.toNat then e else m) p.epoch

/-- QSTAT of the issuing gang: the value written in every slice when a lane participates. -/
def qstatOp (s : State) (o : Qstat) (f : PDev → BitVec 64 × State) : Out :=
  asGang s fun c g =>
    if !s.privCtx c.ctx then s.trap c g (CHdr.bytes o.h) cPRIV 0
    else
      match s.pdevOf c.ctx with
      | none => s
      | some p =>
        if (c.parts g o.h.guard).isEmpty then s.setCrew (c.advance g (CHdr.bytes o.h))
        else (f p).2.setCrew ((c.ssetGang64 g o.d.toNat (f p).1).advance g (CHdr.bytes o.h))

def execQstat (o : Qstat) (s : State) : Out := qstatOp s o fun p => (s.leastEpoch p, s)

/-- QSTAT.adv: E + 1, then the new E. -/
def execQstatAdv (o : Qstat) (s : State) : Out :=
  qstatOp s o fun p => (p.epoch + 1, s.modPdev p.first fun q => { q with epoch := q.epoch + 1 })

end Sys2Proof.Machine
end

