-- ==== Sys2Proof/Machine/Pages.lean ====
section
/-!
DEFINITION. The page lifecycle (16 R312 to R325): walks that fill a TLB, region rewrites, page migration and the forwarding slots.
-/
namespace Sys2Proof.Machine

/-! ## Walks (R315) -/

/-- Pointer entries that a walk went by are kept for its die's walkers, in place of older ones (R315). -/
def keepPtrs (ptrs path : List PtrEntry) : List PtrEntry :=
  path.foldl (fun m p => m.filter (fun q => !(q.die == p.die && q.ctx == p.ctx && q.level == p.level && q.upper == p.upper)) ++ [p]) ptrs

/-- A line in U(op) that must collapse has its recall sent; one whose recall has expired is recalled anew (R352). -/
def State.recallAgain (s : State) (line rto : Nat) : State :=
  if s.expired line then ((s.forgetRecall line).settle none line rto).2 else (s.settle none line rto).2

/-- PAGE_WALK: an agent's miss is walked and cached; a failed walk leaves no entry. -/
def execPageWalk (o : Walk) (s : State) : Out :=
  .next (match s.ctx? o.ctx with
    | none => s
    | some x =>
      if !canonical o.va || (s.tlbHit o.agent x.id o.va).isSome then s
      else
        match s.walk o.agent x o.va with
        | .error (.fault _ _ _) | .error .wait => s
        | .error (.collapse line) => s.recallAgain line (s.rto x.id)
        | .ok (leaf, level, path) =>
          { s with tlb := s.tlb ++ [{ agent := o.agent, ctx := x.id, va := o.va, leaf := leaf, level := level }],
                   ptrs := keepPtrs s.ptrs path })

/-! ## The pages of a range -/

/-- A stretch of physical space. -/
structure Seg where
  pa : Nat
  len : Nat
  deriving DecidableEq, Repr

/-- What a leaf maps of a range of virtual addresses [lo, hi]. -/
def leafSeg (leaf : BitVec 64) (va lo hi : Nat) : List Seg :=
  let size := 2 ^ (12 + pteK leaf)
  let page := va / size * size
  let a := max page lo
  let b := min (page + size) (hi + 1)
  if !pteRmt leaf && a < b then [⟨ptePa leaf / size * size + (a - page), b - a⟩] else []

/-- The valid entry at an index of a table: nothing where there is none; an error where it must wait. -/
def State.entryAt (s : State) (table level i : Nat) : Except XErr (Option (BitVec 64)) :=
  match s.pte .trellis (table + 8 * i) level with
  | .error (.fault _ _ _) => .ok none
  | .error e => .error e
  | .ok e => .ok (if e.getLsbD 0 then some e else none)

/-- The stretches that the tables below one map of [lo, hi]; `n` levels are left and `base` is the table's first address. -/
def State.segsFrom (s : State) (lo hi : Nat) : Nat → Nat → Nat → Except XErr (List Seg)
  | 0, _, _ => .ok []
  | n + 1, table, base =>
    let size := 2 ^ (12 + 9 * n)
    (List.range 512).foldl (fun acc i =>
      match acc with
      | .error l => .error l
      | .ok segs =>
        let va := base + i * size
        if va + size ≤ lo || hi < va then .ok segs
        else
          match s.entryAt table n i with
          | .error l => .error l
          | .ok none => .ok segs
          | .ok (some e) =>
            if pteLeaf e then .ok (segs ++ leafSeg e va (max lo va) (min hi (va + size - 1)))
            else
              match s.segsFrom lo hi n (ptePa e) va with
              | .ok more => .ok (segs ++ more)
              | .error l => .error l) (.ok [])

/-- The stretches that the tables behind kept pointer entries map of [lo, hi]. -/
def State.keptSegs (s : State) (lo hi : Nat) : List PtrEntry → Except XErr (List Seg)
  | [] => .ok []
  | p :: ps =>
    match s.segsFrom lo hi p.level (ptePa p.entry) (p.upper * 2 ^ (12 + 9 * p.level)) with
    | .error e => .error e
    | .ok a => (s.keptSegs lo hi ps).map (a ++ ·)

/-- The stretches that a valid region entry's range maps, by the tables, kept pointer entries and TLB entries of the context. -/
def State.rangeSegs (s : State) (x : Ctx) (e : BitVec 256) : Except XErr (List Seg) :=
  if !rgValid e then .ok []
  else
    let lo := rgBase e
    let hi := rgLimit e
    match s.segsFrom lo hi 5 x.ptroot 0, s.keptSegs lo hi (s.ptrs.filter (·.ctx == x.id)) with
    | .error e, _ | _, .error e => .error e
    | .ok a, .ok b => .ok (a ++ b ++ (s.tlb.filter (·.ctx == x.id)).flatMap fun t => leafSeg t.leaf (va57 t.va) lo hi)

/-- A stretch shows a location. -/
def Seg.has (g : Seg) (loc : Nat) : Bool :=
  match apertureOf g.pa with
  | some p =>
    match p.offset loc with
    | some o => g.pa ≤ p.base + o && p.base + o < g.pa + g.len
    | none => false
  | none => false

/-- A line lies in some stretches, or is where forwarding takes one of their lines. -/
def State.lineIn (s : State) (segs : List Seg) (line : Nat) : Bool :=
  segs.any fun g => g.has (line * 128) || (s.pdevs.flatMap fun p => p.fwd).any fun f =>
    match ({ f.2 with src := f.2.dst, dst := f.2.src }.apply (line * 128)) with
    | some l => g.has l
    | none => false

/-! ## Region rewrites (R320, R321) -/

/-- REGION_REWRITE: a GO reads the staged entry; it is refused, or the rewrite begins. An entry that cannot be read is refused (log 57). -/
def execRegionRewrite (ctx : Nat) (s : State) : Out :=
  .next (match s.ctx? ctx with
    | none => s
    | some x =>
      match x.rgnGo with
      | none => s
      | some idx =>
        let refuse := fun (t : State) => t.modCtx ctx fun x => { x with rgnGo := none, rgnResult := 4 }
        match s.physRead x.pdev true (x.rtab + 32 * idx.toNat) 32 with
        | .wait t => t
        | .bad _ _ _ t => refuse t
        | .ok v t =>
          let e := BitVec.ofNat 256 v
          if x.regionIll e then refuse t
          else
            let (n, t) := t.fresh
            t.modCtx ctx fun x =>
              { x with rgnGo := none, rgnBusy := true, rgnAct := idx, rgnSeq := n, rgnNew := if rgValid e then regionForm e else 0 })

/-- A move or rewrite of the presented device that began before number n still runs (R322). -/
def State.earlier (s : State) (first n : Nat) : Bool :=
  (s.pdevCtxs first).any fun y => (y.migBusy && y.migSeq < n) || (y.rgnBusy && y.rgnSeq < n)

/-- The lines in caches, presses and registrations that a test picks. -/
def State.linesWhere (s : State) (p : Nat → Bool) : List Nat :=
  ((s.caches.map (·.line)) ++ (s.ulines.map (·.line)) ++ (s.regs.filter (·.node.isNone)).map (·.line)).foldl
    (fun m l => if p l then insertSorted l m else m) []

/-- Operations on their way to the atomic units that act on lines a test picks are performed (R321 step 2). -/
def State.drainAtoms (s : State) (p : Nat → Bool) : Nat → State
  | 0 => s
  | n + 1 =>
    match s.atomq.findIdx? fun r => p (s.forward r.loc / 128) with
    | some i => (s.atomUnit i).drainAtoms p n
    | none => s

/-- An access of the context to the old or the new range is still in flight: it waits at a home, or is a transfer of a processor whose
block has not moved (R321 step 2). -/
def State.rangeInFlight (s : State) (x : Ctx) : Bool :=
  (s.waitq.any fun w => w.ctx == x.id && x.rewriting w.va && s.waiterAlive w) ||
  s.procs.any fun p => (s.cmd? p.cmd).any (·.ctx == x.id) && p.transfers.any fun t =>
    (t.blocks.mapIdx fun i b => !b.moved && x.rewriting (t.va + BitVec.ofNat 64 (64 * i))).any id

/-- REGION_REWRITE_COMPLETE: the drain, the actions on the old range, and the switch (R321). -/
def execRegionRewriteComplete (ctx : Nat) (s : State) : Out :=
  .next (match s.ctx? ctx with
    | none => s
    | some x =>
      if !x.rgnBusy || s.earlier x.pdev x.rgnSeq then s
      else
        let old := mget 0 x.regions x.rgnAct.toNat
        let switch := fun (t : State) => t.modCtx ctx fun x =>
          { x with regions := mput 0 x.regions x.rgnAct.toNat x.rgnNew, rgnBusy := false, rgnResult := 0, rgnNew := 0 }
        match s.rangeSegs x old, s.rangeSegs x x.rgnNew with
        | .error (.collapse line), _ | _, .error (.collapse line) => s.recallAgain line (s.rto ctx)
        | .error _, _ | _, .error _ => s
        | .ok segs, .ok news =>
          let t := s.drainAtoms (s.lineIn (segs ++ news)) s.atomq.length
          if t.rangeInFlight x || t.atomq.any fun r => t.lineIn (segs ++ news) (t.forward r.loc / 128) then t
          else if rgKind old = 1 then switch (t.sweepPhased fun e => e.ctx == ctx && t.lineIn segs e.line)
          else if rgKind old = 0 then
            match t.recallLines (t.linesWhere (t.lineIn segs)) with
            | (some line, u) => u.recallAgain line (u.rto ctx)
            | (none, u) => switch u
          else switch t)

/-! ## Moves (R323, R324) -/

/-- Locations of the 4 KiB frames of a page; none where an address is not DRAM. -/
def granuleLocs (pa k : Nat) : List (Option Nat) :=
  (List.range (2 ^ k)).map fun i =>
    match physOf (pa + i * 4096) with
    | .dram _ loc => some loc
    | .host _ _ | .chip _ _ _ | .none => none

/-- A page shows a location. -/
def pageHas (pa k loc : Nat) : Bool := ({ src := pa, dst := pa, k := k : Forward }.apply loc).isSome

/-- Every frame of a page is DRAM of the presented device. -/
def Ctx.ownPage (x : Ctx) (pa k : Nat) : Bool :=
  (granuleLocs pa k).all fun l => l.any fun loc => x.pdev ≤ homeDie loc && homeDie loc < x.pdev + x.dies

/-- Two pages have a frame in common. -/
def pagesMeet (pa k pb m : Nat) : Bool := (granuleLocs pa k).any fun l => l.any (pageHas pb m)

/-- Slots in use on a presented device, moves in progress included. -/
def State.slotsUsed (s : State) (first : Nat) : List (Nat × Forward) :=
  ((s.pdev? first).map (·.fwd)).getD [] ++ (s.pdevCtxs first).filterMap fun y => if y.migBusy then y.migAct else none

/-- What R323 refuses. -/
def State.moveIll (s : State) (x : Ctx) (slot : Nat) (f : Forward) : Bool :=
  f.src % 2 ^ (12 + f.k) != 0 || f.dst % 2 ^ (12 + f.k) != 0 || !x.ownPage f.src f.k || !x.ownPage f.dst f.k ||
  pagesMeet f.src f.k f.dst f.k ||
  (s.slotsUsed x.pdev).any fun u => u.1 == slot || pagesMeet f.src f.k u.2.src u.2.k || pagesMeet f.src f.k u.2.dst u.2.k ||
    pagesMeet f.dst f.k u.2.src u.2.k || pagesMeet f.dst f.k u.2.dst u.2.k

/-- MIGRATION_GO. -/
def execMigrationGo (ctx : Nat) (s : State) : Out :=
  .next (match s.ctx? ctx with
    | none => s
    | some x =>
      if !x.migGo then s
      else
        let f : Forward := { src := x.migSrc.toNat * 4096, dst := x.migDst.toNat * 4096, k := x.migK.toNat }
        if s.moveIll x x.migSlot.toNat f then s.modCtx ctx fun x => { x with migGo := false, migResult := 4 }
        else
          let (n, t) := s.fresh
          t.modCtx ctx fun x => { x with migGo := false, migBusy := true, migAct := some (x.migSlot.toNat, f), migSeq := n })

/-- The source and destination lines of a move. -/
def Forward.lines (f : Forward) : List (Nat × Nat) :=
  ((granuleLocs f.src f.k).zip (granuleLocs f.dst f.k)).flatMap fun p =>
    match p with
    | (some a, some b) => (List.range 32).map fun j => (a / 128 + j, b / 128 + j)
    | (none, _) | (_, none) => []

/-- Where the line of a move goes. -/
def Forward.lineTo (f : Forward) (line : Nat) : Option Nat := (f.apply (line * 128)).map (· / 128)

/-- The versions of the source lines. -/
def State.movedVersions (s : State) (f : Forward) : List CEntry := s.caches.filter fun e => e.hyp != 0 && (f.lineTo e.line).isSome

/-- A die's version area lacks room for the versions that come to it (R83, R324). -/
def State.versionsFull (s : State) (f : Forward) : Bool :=
  (List.range 8).any fun d =>
    let come := (s.movedVersions f).filter fun e => (f.lineTo e.line).any fun l => lineHome l == d
    !come.isEmpty && decide (s.vaRoom d < ((s.caches.filter fun e => e.place == .va d).filter fun e => !come.contains e).length + come.length)

/-- A version entry at its new home. -/
def CEntry.moveVersion (f : Forward) (e : CEntry) : CEntry :=
  match (if e.hyp != 0 then f.lineTo e.line else none) with
  | some l => { e with line := l, place := .va (lineHome l) }
  | none => e

/-- The bytes of a line copied with the key they were written under and with their poison (R324, R369). -/
def State.copyLine (s : State) (p : Nat × Nat) : State :=
  let d := BitVec.ofNat 1024 (s.readMem (p.1 * 128) 128)
  let t := s.dramPut p.2 (mget 0 s.lineKey p.1) d
  let clean := t.poison.filter (· != p.2)
  { t with poison := if s.storeBad p.1 then clean ++ [p.2] else clean }

/-- MIGRATION_COMPLETE: recall, copy, forward and release (R324). -/
def execMigrationComplete (ctx : Nat) (s : State) : Out :=
  .next (match s.ctx? ctx with
    | none => s
    | some x =>
      match x.migAct with
      | none => s
      | some (slot, f) =>
        if !x.migBusy || s.earlier x.pdev x.migSeq then s
        else
          match s.recallLines (s.linesWhere fun l => pageHas f.src f.k (l * 128) || pageHas f.dst f.k (l * 128)) with
          | (some line, t) => t.recallAgain line (t.rto ctx)
          | (none, t) =>
            let fin := fun (t : State) (r : BitVec 3) => t.modCtx ctx fun x =>
              { x with migBusy := false, migResult := r, migAct := none }
            if t.versionsFull f then fin t 6
            else
              let u := f.lines.foldl State.copyLine { t with caches := t.caches.map (·.moveVersion f) }
              let hold := fun (g : Nat) => ((f.apply (g * 4096)).map (· / 4096)).getD g
              let u : State := { u with cmds := u.cmds.map fun k => { k with held := k.held.map hold } }
              fin (u.modPdev x.pdev fun p => { p with fwd := mset p.fwd slot f }) 0)

/-- MIGRATION_RETIRE: the slot is free again; a free one is refused (R323, R325). -/
def execMigrationRetire (ctx : Nat) (s : State) : Out :=
  .next (match s.ctx? ctx with
    | none => s
    | some x =>
      if !x.migRetire then s
      else
        let used := (s.pdev? x.pdev).any fun p => mhas p.fwd x.migSlot.toNat
        (s.modPdev x.pdev fun p => { p with fwd := mdel p.fwd x.migSlot.toNat }).modCtx ctx fun x =>
          { x with migRetire := false, migResult := if used then 0 else 4 })

end Sys2Proof.Machine
end

