-- ==== Sys2Proof/Machine/Faults.lean ====
section
/-!
DEFINITION. The driver route (17 R326, R335 to R337), pre-emption in its stages (17 R338 to R340), the save and the restore of a
context (17 R341, R343; 04 R74; 09 R224, R372).
-/
namespace Sys2Proof.Machine

/-- LATE_TRAP: the late fault of a crew that has stopped by R39 is taken (R326). -/
def execLateTrap (o : CrewRef) (s : State) : Out :=
  .next (if (s.crew? o.crew).any (·.stopped) then s.takeLate o.crew else s)

/-! ## The fault ring (R335, R336) -/

/-- The 512 bits of a record with its sequence number. -/
def RingRec.bytes (r : RingRec) (seq : BitVec 32) : BitVec 512 :=
  BitVec.ofNat 512 (([(r.val.toNat, 0), (r.pc.toNat, 64), (r.aux.toNat, 128), (seq.toNat, 192), (r.ctx, 224), (r.kind.toNat, 234),
    (r.cause.toNat, 236), (r.detail.toNat, 244), (r.level.toNat, 252), (natOf r.mc, 255), (r.die.toNat, 256), (r.core.toNat, 259),
    (r.crewid.toNat, 264), (r.lane.toNat, 269), (r.sreg.toNat, 280)].map fun f => f.1 * 2 ^ f.2).foldl (· + ·) 0)

/-- Records of the ring. -/
def PDev.ringSize (p : PDev) : Nat := 2 ^ max 4 p.fqLog2n.toNat

/-- FAULT_RECORD: the oldest record that waits is written, PROD goes up and the vector is raised. A ring that cannot be written keeps its
records waiting (log 55). -/
def execFaultRecord (pdev : Nat) (s : State) : Out :=
  .next (match s.pdev? pdev with
    | none => s
    | some p =>
      match p.faultQ with
      | [] => s
      | r :: rest =>
        if !p.fqEn || (p.fqProd - p.fqCons).toNat = p.ringSize then s
        else
          let seq := p.fqProd.setWidth 32
          let pa := p.fqPa.toNat * 4096 + 64 * (p.fqProd.toNat % p.ringSize)
          match s.physWrite pdev true pa 64 (r.bytes seq).toNat with
          | .wait t => t
          | .bad _ _ _ _ => s
          | .ok _ t =>
            let t := t.modPdev pdev fun p => { p with fqProd := p.fqProd + 1, faultQ := rest }
            let t := match r.crew with
              | some uid => t.modCrew uid fun c => { c with faultSeq := some seq }
              | none => t
            t.raiseVec p.fqVec)

/-! ## Answers (R337) -/

/-- A hard pre-emption of a context is under way. -/
def State.hardStage (s : State) (ctx : Nat) : Bool :=
  (s.pdevOf ctx).any fun p => p.peBusy && p.peStage == 2 && p.peAct.any (·.1 == ctx)

/-- The faulted crew of a presented device whose record has a sequence number, resident or saved. -/
def State.pendingFault (s : State) (pdev : Nat) (seq : BitVec 32) : Option Crew :=
  s.crews.find? fun c => s.firstDie c.ctx == pdev && c.faulted.isSome && c.faultSeq == some seq

/-- An answer with an action that has been written: it acts on the crew it names, if any. -/
def State.answer (s : State) (o : Fresp) (action : BitVec 2) (f : State → Crew → State) : State :=
  if (s.pdev? o.pdev).any fun p => p.fresp == some (o.seq, action) then
    let t := s.modPdev o.pdev fun p => { p with fresp := none }
    match t.pendingFault o.pdev o.seq with
    | some c => f t c
    | none => t
  else s

/-- FRESP_RESUME: every slice resumes at its regent (R40). In a hard pre-emption the crew has stopped, unless its MASK holds the stop
(R340). -/
def execFrespResume (o : Fresp) (s : State) : Out :=
  .next (s.answer o 0 fun s c =>
    let stop := s.hardStage c.ctx
    let c' := { c with faulted := none, faultSeq := none, preempted := stop && !c.mask, held := c.held || (stop && c.mask) }.restart
    s.setCrew c')

/-- FRESP_DELIVER: the crew enters trap mode with the recorded cause; without a handler it is killed. The length of an instruction
whose fetch faulted is open (R332). In a hard pre-emption the handler's MASK holds the stop. -/
def execFrespDeliver (o : Fresp) (s : State) : Out :=
  .next (s.answer o 1 fun s c =>
    match c.faulted with
    | none => s
    | some t =>
      if c.tvec == 0 then s.forcedReset c.ctx 5 0
      else if !canonical c.tvecAddr then s.forcedReset c.ctx 2 0
      else
        let (n, s) := s.choose 3
        let g := (c.gangs.find? fun g => c.gangPc g == t.epc).getD c.holder
        let c' := { c with faulted := none, faultSeq := none, preempted := false }.enterTrap g (4 + 8 * n) t
        s.setCrew { c' with held := s.hardStage c.ctx })

/-- FRESP_KILL. -/
def execFrespKill (o : Fresp) (s : State) : Out := .next (s.answer o 2 fun s c => s.forcedReset c.ctx 5 0)

/-! ## Requests and stages (R338 to R340) -/

/-- A request with a REQ that has been written; refused, or begun on its context. -/
def State.request (s : State) (pdev : Nat) (req : BitVec 2) (ok : BitVec 27 → Ctx → Bool) (f : State → Ctx → State) : State :=
  match (s.pdev? pdev).filter (!·.peBusy) |>.bind (·.peGo) with
  | none => s
  | some (ctx, r, save) =>
    if r != req then s
    else
      let t := s.modPdev pdev fun p => { p with peGo := none }
      match (t.ctx? ctx.toNat).filter fun x => x.pdev == pdev && ok save x with
      | none => t.modPdev pdev fun p => { p with peResult := 4 }
      | some x => f (t.modPdev pdev fun p => { p with peBusy := true, peAct := some (x.id, req, save), peStart := s.reftime }) x

/-- A context that runs. -/
def Ctx.runs (x : Ctx) : Bool := !x.dead && x.savedAt.isNone

/-- PREEMPT_SOFT: admission stops; with no block running the pre-emption is over. -/
def execPreemptSoft (pdev : Nat) (s : State) : Out :=
  .next (s.request pdev 1 (fun _ x => x.runs) fun s x =>
    ((s.modPdev pdev fun p => { p with peStage := 1 }).modCtx x.id fun x => { x with stopAdmit := true }).softDrain)

/-- A crew at the start of the hard stage: stopped, or held while MASK is 1; a faulted crew stays faulted. -/
def Crew.hardStop (c : Crew) : Crew :=
  if c.mask then { c with held := true } else if c.faulted.isSome then c else c.preempt

/-- The hard stage begins. -/
def State.beginHard (s : State) (pdev ctx : Nat) : State :=
  let t := (s.modPdev pdev fun p => { p with peStage := 2, peStart := s.reftime }).modCtx ctx fun x => { x with stopAdmit := true }
  { t with crews := t.crews.map fun c => if c.ctx == ctx then c.hardStop else c }

/-- PREEMPT_HARD. -/
def execPreemptHard (pdev : Nat) (s : State) : Out :=
  .next (s.request pdev 2 (fun _ x => x.runs) fun s x => s.beginHard pdev x.id)

/-- The context of a request in a stage whose deadline has passed. -/
def State.stageOver (s : State) (pdev : Nat) (stage : BitVec 3) (limit : Ctx → Nat) : Option Ctx :=
  match s.pdev? pdev with
  | some p =>
    if p.peBusy && p.peStage == stage then
      (p.peAct.bind fun a => s.ctx? a.1).filter fun x => p.peStart + limit x ≤ s.reftime
    else none
  | none => none

/-- T1_EXPIRY: blocks remain at T1, so the hard stage begins (R339). -/
def execT1Expiry (pdev : Nat) (s : State) : Out :=
  .next (match s.stageOver pdev 1 Ctx.t1 with
    | some x => s.beginHard pdev x.id
    | none => s)

/-- The crew will issue nothing more: a faulted crew whose MASK is 1 has not stopped (log 64). -/
def Crew.stopped' (c : Crew) : Bool := c.preempted || (c.faulted.isSome && !c.mask) || c.exited

/-- Every crew of a context has stopped. -/
def State.allStopped (s : State) (ctx : Nat) : Bool := (s.crews.filter (·.ctx == ctx)).all Crew.stopped'

/-- The registers an operation of a crew still owes hold open values, and nothing is pending for it. -/
def State.freePending (s : State) (uid op : Nat) : State :=
  let keys : List Nat := match s.crew? uid with
    | some c => c.slices.flatMap fun (x : Slice) => (x.vpend.filter fun e => e.2 == op).map Prod.fst
    | none => []
  keys.foldl (fun (s : State) k =>
    s.freeWord.2.modCrew uid fun c => c.takeVector op (k / 128) (k % 128) (s.freeWord.1.setWidth 32)) s

/-- A matrix operation that ends with ABORT: a load spoils its generation (R224); ACCRD leaves its registers open. -/
def State.abortMx (s : State) (core : Nat) (op : MxOp) : State :=
  match op.kind with
  | .load _ _ | .loadSp _ _ _ _ _ _ => op.subs.foldl (fun s b => s.modSub core b.1 (·.spoil b.2)) s
  | .accrd _ _ _ _ _ => s.freePending op.crew op.id
  | .mma _ _ _ _ _ _ | .accz _ _ _ | .accwr _ _ _ => s

/-- A matrix operation that is cut off: the rows it has done stay in their tiles (R340), and its flags are raised. -/
def State.cutMx (s : State) (core : Nat) (op : MxOp) : State :=
  let (n, t) := s.cutRows core op
  let u := match op.refuted, t.crew? op.crew with
    | none, some c => if op.busy then t else t.runRows core c op n
    | _, _ => t.modCrew op.crew (·.raise op.flags)
  (u.abortMx core op).setRows core op.id n

/-- An attached collective ends with ABORT in its descriptor. -/
def State.abortAttached (s : State) (r : Run) (job : Option CollJob) : State :=
  match s.ctx? r.ctx with
  | none => s
  | some x =>
    let (j, t) := match job with
      | some j => (j, s)
      | none => s.attachNew x r
    { t with colls := t.colls ++ [j] }.attachEnd x r j (abortWord j.delivered)

/-- Every incomplete operation of a context ends with ABORT and is journalled (R266, R340). -/
def State.abortOps (s : State) (ctx : Nat) : State :=
  let s := s.cores.foldl (fun t k => (k.2.mq.filter (·.ctx == ctx)).foldl (fun t op => t.cutMx k.1 op) t) s
  let es := s.incomplete ctx
  let owed := (s.runs.filter fun r => r.ctx == ctx && s.collOpen r).map fun r => (r, s.attachJob r.uid)
  let done := s.colls.filter fun j => j.ctx == ctx && j.word.isSome
  let tasks := ((s.cmds ++ s.cmdq).filter (·.ctx == ctx)).filterMap fun (k : Cmd) => match k.route with
    | .task run => some run
    | .cell _ _ => none
  let t := (s.journal ctx es).dropOps ctx
  let t := es.foldl (fun t e => match e.dest with
    | some dest => t.writeStatus dest e.id e.word
    | none => t) { t with colls := t.colls ++ done }
  owed.foldl (fun t r => t.abortAttached r.1 r.2) (tasks.foldl State.taskDone t)

/-- An operation of a context has no word yet. -/
def State.opsOpen (s : State) (ctx : Nat) : Bool := !(s.incomplete ctx).isEmpty || s.cores.any fun k => k.2.mq.any (·.ctx == ctx)

/-- T2_EXPIRY: what is incomplete at T2 is aborted, or the context is reset if a crew has not stopped (R340, R342). -/
def execT2Expiry (pdev : Nat) (s : State) : Out :=
  .next (match s.stageOver pdev 2 Ctx.t2 with
    | some x => if s.allStopped x.id then s.abortOps x.id else s.forcedReset x.id 1 0
    | none => s)

/-! ## Saving (R341) -/

/-- An operation of the context has not ended. -/
def State.opsLeft (s : State) (ctx : Nat) : Bool :=
  s.opsOpen ctx || s.launches.any (·.ctx == ctx) || s.mails.any (·.ctx == ctx) || s.atomq.any (·.ctx == ctx) ||
  s.resolves.any (·.ctx == ctx) || s.runs.any fun r => r.ctx == ctx && s.collOwed r

/-- The save slot of a core, and the physical address of slot n. -/
def State.saveSlot (s : State) (ctx core : Nat) : Nat := 24 * s.dieid ctx core + coreid core
def slotPa (save : BitVec 27) (n : Nat) : Nat := save.toNat * 2 ^ 21 + n * 2 ^ 21

/-- Cores that hold blocks of a context. -/
def State.ctxCores (s : State) (ctx : Nat) : List Nat :=
  (s.blocks.filter fun b => b.ctx == ctx && !b.saved).foldl (fun ks b => insertSorted b.core ks) []

/-- A word of a core's register window, of its resident or its saved crews; none where no crew's registers lie. -/
def State.regWord (s : State) (saved : Bool) (ctx core off : Nat) : Option Word :=
  match s.regOf saved ctx core off with
  | some (uid, n, l, _) => (s.crew? uid).map fun c => c.vget l n
  | none => none

/-- Line i of a save slot: registers, scratchpad and accumulators in the layouts of R71 and R72; the device's own form and registers of
no crew are open. -/
def State.slotLine (s : State) (ctx core i : Nat) : LineData × State :=
  let off := i * 128
  if off < 0x80000 then
    let ws := (List.range 32).map fun k => s.regWord false ctx core (off + 4 * k)
    if ws.all Option.isSome then (BitVec.ofNat 1024 (ofWords (ws.map (·.getD 0))), s)
    else
      let (d, t) := s.freeWord
      (BitVec.ofNat 1024 (ofWords (ws.mapIdx fun k w => w.getD (BitVec.ofNat 32 (lineGet d (4 * k) 4)))), t)
  else if off < 0xC0000 then (BitVec.ofNat 1024 (s.readMem (scratchAddr core (off - 0x80000)) 128), s)
  else if off < 0x100000 then s.freeWord
  else (BitVec.ofNat 1024 (s.accRead core (off - 0x100000) 128), s)

/-- Why a save or a restore does not go on: a line must wait, or cannot be reached. -/
inductive Stuck where
  | wait (s : State)
  | fails (s : State)

/-- The line lies in the scratchpad or the accumulators. -/
def slotData (off : Nat) : Bool := (0x80000 ≤ off && off < 0xC0000) || 0x100000 ≤ off

/-- Lines from the n-th last of a slot on, written at its physical address, with what scratchpad and accumulators hold. -/
def State.saveLines (ctx core pa : Nat) : Nat → State → List Host.Cell → Except Stuck (List Host.Cell × State)
  | 0, s, m => .ok (m, s)
  | n + 1, s, m =>
    let off := (0x4000 - (n + 1)) * 128
    let (d, t) := s.slotLine ctx core (0x4000 - (n + 1))
    match t.physWrite (s.firstDie ctx) true (pa + off) 128 d.toNat with
    | .ok _ u => State.saveLines ctx core pa n u (if slotData off then memWrite m off 128 d.toNat else m)
    | .wait u => .error (.wait u)
    | .bad _ _ _ u => .error (.fails u)

/-- A core's scratchpad and accumulator lines that hold an uncorrectable error, by window offset / 128. -/
def State.badLines (s : State) (core : Nat) : List Nat :=
  ((rangeFrom (0x80000 / 128) (0x40000 / 128)).filter fun l => s.storeBad (chipLine core (l * 128))) ++
  (s.core core).accBad.map (· + 0x100000 / 128)

/-- A core's slot is written, and its mailboxes, tags and contents are kept. -/
def State.saveCore (s : State) (ctx : Nat) (save : BitVec 27) (core : Nat) : Except Stuck State :=
  let n := s.saveSlot ctx core
  match State.saveLines ctx core (slotPa save n) 0x4000 s [] with
  | .error e => .error e
  | .ok (m, t) =>
    let k := t.core core
    .ok { t.modCore core fun k => { k with mail := [] } with
      savedCores := t.savedCores ++
        [{ ctx := ctx, slot := n, mail := k.mail, tags := k.tags, image := m, bad := s.badLines core }] }

/-- Receive windows are disarmed (R74). -/
def Crew.putAway (c : Crew) : Crew := { c with saved := true, windowSaved := c.window, window := none }

/-- A save that fails is a forced reset, with a reason that the spec does not give (R342). -/
def State.failSave (s : State) (ctx : Nat) : State := s.freeWord.2.forcedReset ctx (s.freeWord.1.setWidth 64) 0

/-- PREEMPT_SAVE: every crew has stopped and every operation has ended. -/
def execPreemptSave (pdev : Nat) (s : State) : Out :=
  .next (match s.pdev? pdev with
    | none => s
    | some p =>
      match (if p.peBusy && p.peStage == 2 then p.peAct else none) with
      | none => s
      | some (ctx, _, save) =>
        match s.ctx? ctx with
        | none => s
        | some x =>
          if !s.allStopped ctx || s.opsLeft ctx then s
          else
            let cores := s.ctxCores ctx
            if cores.any fun k => !x.ownPage (slotPa save (s.saveSlot ctx k)) 9 then
              s.failSave ctx
            else
              match cores.foldlM (fun t k => t.saveCore ctx save k) s with
              | .error (.wait t) => s.keepWaits t
              | .error (.fails _) => s.failSave ctx
              | .ok t =>
                let t : State := { t with
                  crews := t.crews.map fun c => if c.ctx == ctx then c.putAway else c,
                  blocks := t.blocks.map fun b => if b.ctx == ctx then { b with saved := true } else b }
                (t.modCtx ctx fun x => { x with savedAt := some (save ++ (0 : BitVec 21)) }).modPdev pdev fun p =>
                  { p with peBusy := false, peStage := 4, peResult := 0, peAct := none })

/-! ## Restoring (R343) -/

/-- The core that receives the slot of a core. -/
def newCore (s : State) (ctx : Nat) (dest : List (Nat × Nat)) (old : Nat) : Nat :=
  ((dest.find? fun p => p.1 == s.saveSlot ctx old).map (·.2)).getD old

/-- Clusters stay on one die and the clusters of a span on distinct dies. -/
def State.spreadOk (s : State) (ctx : Nat) (dest : List (Nat × Nat)) : Bool :=
  let bs := s.blocks.filter (·.ctx == ctx)
  let die := fun (b : Block) => newCore s ctx dest b.core / 32
  bs.all fun a => bs.all fun b =>
    a.run != b.run ||
    match s.run? a.run with
    | none => true
    | some r => rcKind r.rcd == 0 ||
        (if a.cluid == b.cluid then die a == die b else rcKind r.rcd == 1 || a.spanid != b.spanid || die a != die b)

/-- The saved slots go to distinct free cores that work. -/
def State.coresOk (s : State) (x : Ctx) (dest : List (Nat × Nat)) : Bool :=
  let slots := (s.savedCores.filter (·.ctx == x.id)).map (·.slot)
  slots.all (fun n => dest.any (·.1 == n)) && dest.all (fun p => slots.contains p.1) && (dest.map (·.1)).Nodup && (dest.map (·.2)).Nodup &&
  dest.all (fun p => s.coreFor x p.2 && !s.blocks.any fun b => b.core == p.2 && !b.saved) && s.spreadOk x.id dest

/-- Bytes as a restore finds them: where software has written the save area since, each is the saved byte or the written one (R341). -/
def State.eitherByte (s : State) (saved now : LineData) : LineData × State :=
  if saved == now then (saved, s)
  else
    let (m, t) := s.freeWord
    (mergeMask (m.setWidth 128) now saved, t)

/-- A word of a saved crew's registers. -/
def State.setRegWord (s : State) (ctx core off : Nat) (w : Word) : State :=
  match s.regOf true ctx core off with
  | some (uid, n, l, _) => s.modCrew uid fun c => c.vset l n w
  | none => s

/-- A line of a slot put on a core: registers of the crews at their old core, scratchpad or accumulators at the new one. -/
def State.loadLine (s : State) (sc : SavedCore) (old core off : Nat) (now : LineData) : State :=
  if off < 0x80000 then
    let ws := (List.range 32).map fun k => s.regWord true sc.ctx old (off + 4 * k)
    let here := BitVec.ofNat 1024 (ofWords (ws.mapIdx fun k w => w.getD (BitVec.ofNat 32 (lineGet now (4 * k) 4))))
    let (d, t) := s.eitherByte here now
    if here == now then t
    else (List.range 32).foldl (fun t k => t.setRegWord sc.ctx old (off + 4 * k) (BitVec.ofNat 32 (lineGet d (4 * k) 4))) t
  else
    let (d, t) := s.eitherByte (BitVec.ofNat 1024 (memRead sc.image off 128)) now
    if off < 0xC0000 then t.writeMem (scratchAddr core (off - 0x80000)) 128 d.toNat
    else
      let put := fun (acc : SMap Word) (i : Nat) => mput 0 acc ((off - 0x100000) / 4 + i) (BitVec.ofNat 32 (lineGet d (4 * i) 4))
      t.modCore core fun k => { k with acc := (List.range 32).foldl put k.acc }

/-- Lines of a slot put on a core, from the n-th last on; a line of the save area that cannot be read gives the saved bytes. -/
def State.loadLines (sc : SavedCore) (old core pa : Nat) : Nat → State → Except Stuck State
  | 0, s => .ok s
  | n + 1, s =>
    let off := (0x4000 - (n + 1)) * 128
    if 0xC0000 ≤ off && off < 0x100000 then State.loadLines sc old core pa n s
    else
      match s.physRead (s.firstDie sc.ctx) true (pa + off) 128 with
      | .wait t => .error (.wait t)
      | .bad _ _ _ t => State.loadLines sc old core pa n (if off < 0x80000 then t
                          else t.loadLine sc old core off (BitVec.ofNat 1024 (memRead sc.image off 128)))
      | .ok v t => State.loadLines sc old core pa n (t.loadLine sc old core off (BitVec.ofNat 1024 v))

/-- The saved lines that held an uncorrectable error hold it on the new core. -/
def State.loadBad (s : State) (sc : SavedCore) (core : Nat) : State :=
  let scr := (sc.bad.filter (· < 0x100000 / 128)).map fun l => chipLine core (l * 128)
  let t := ((rangeFrom (0x80000 / 128) (0x40000 / 128)).map fun l => chipLine core (l * 128)).foldl (fun t l =>
    if t.storeBad l != scr.contains l then t.setPoison l (scr.contains l) else t) s
  t.modCore core fun k => { k with accBad := (sc.bad.filter (0x100000 / 128 ≤ ·)).map (· - 0x100000 / 128) }

/-- One slot is admitted on a core: no stationary tile is valid there. -/
def State.restoreCore (s : State) (ctx : Nat) (save : BitVec 27) (dest : Nat × Nat) : Except Stuck State :=
  match s.savedCores.find? fun k => k.ctx == ctx && k.slot == dest.1 with
  | none => .ok s
  | some sc =>
    let t := (s.coreComes dest.2 ctx).wakeCore dest.2
    let t := t.modCore dest.2 fun k => { k with subs := Core.fresh.subs, acc := [], mail := sc.mail, tags := sc.tags }
    let old := (s.firstDie ctx + dest.1 / 24) * 32 + dest.1 % 24
    match State.loadLines sc old dest.2 (slotPa save dest.1) 0x4000 t with
    | .error e => .error e
    | .ok u => .ok (u.loadBad sc dest.2)

/-- A crew back on a core: it resumes by R40; a slice that slept sleeps until the same time with its gang. -/
def Crew.comeBack (c : Crew) (core : Nat) : Crew :=
  let until_ := fun (x : Slice) => match x.wait with
    | .sleep d => d
    | .none | .regang _ | .barwait _ _ _ | .phase _ _ _ | .waitany _ => 0
  let deadlines := c.slices.map until_
  let moved := { c with core := core, saved := false, preempted := false, window := c.windowSaved, windowSaved := none }
  if c.faulted.isSome then moved
  else
    let r := moved.restart
    let gangMax := fun (g : Nat) => ((r.gangSlices g).map fun i => deadlines.getD i 0).foldl max 0
    { r with slices := r.slices.map fun x => if x.live && gangMax x.gang != 0 then { x with wait := .sleep (gangMax x.gang) } else x }

/-- Event conditions are sampled again and latched (R205). -/
def State.resample (s : State) (c : Crew) : Crew :=
  let bits := (c.slots.mapIdx fun i e => (i, e)).foldl (fun (m : BitVec 8) p =>
    if p.2.bound && s.evTrue c p.2 then m ||| BitVec.ofNat 8 (2 ^ p.1) else m) 0
  { c with pend := c.pend ||| bits }

/-- The context's slots on their new cores, and the context served again. -/
def State.restoreCtx (s : State) (pdev ctx : Nat) (save : BitVec 27) (dest : List (Nat × Nat)) : State :=
  match dest.foldlM (fun t p => t.restoreCore ctx save p) s with
  | .error (.wait t) | .error (.fails t) => s.keepWaits t
  | .ok t =>
    let t : State := { t with
      crews := t.crews.map fun c => if c.ctx == ctx then c.comeBack (newCore s ctx dest c.core) else c,
      blocks := t.blocks.map fun b => if b.ctx == ctx then { b with core := newCore s ctx dest b.core, saved := false } else b,
      savedCores := t.savedCores.filter (·.ctx != ctx) }
    let t : State := { t with crews := t.crews.map fun c => if c.ctx == ctx then t.resample c else c }
    (t.modCtx ctx fun x => { x with savedAt := none, stopAdmit := false }).modPdev pdev fun p =>
      { p with peBusy := false, peStage := 0, peResult := 0, peAct := none }

/-- A restore that has been asked for is refused or begun (R338). -/
def State.askRestore (s : State) (pdev : Nat) : State :=
  s.request pdev 3 (fun save x => x.savedAt == some (save ++ (0 : BitVec 21))) fun s _ => s

/-- PREEMPT_RESTORE: every slot is admitted once cores are free for them. -/
def execPreemptRestore (o : Restore) (s : State) : Out :=
  .next (
    let t := s.askRestore o.pdev
    match (t.pdev? o.pdev).bind (·.peAct) with
    | some (ctx, 3, save) =>
      match t.ctx? ctx with
      | some x => if t.coresOk x o.cores then t.restoreCtx o.pdev ctx save o.cores else t
      | none => t
    | some _ | none => t)

end Sys2Proof.Machine
end

