-- ==== Sys2Proof/Machine/FloatOps.lean ====
section
/-!
DEFINITION. The floating-point instructions and conversions (07 R153 to R160; 03 R51, R58, R61 to R63).
-/
namespace Sys2Proof.Machine

/-! ## FP32 (R153 to R155) -/

def v32 (w : Word) : FV := f32.read w.toNat

def execFadd (o : DABR) (s : State) : Out := binaryR s o fun rm a b => FRes.w32 (f32.addV rm (v32 a) (v32 b))
def execFsub (o : DABR) (s : State) : Out := binaryR s o fun rm a b => FRes.w32 (f32.addV rm (v32 a) (v32 b).neg)
def execFmul (o : DABR) (s : State) : Out := binaryR s o fun rm a b => FRes.w32 (f32.mulV rm (v32 a) (v32 b))
def execFmac (o : DABCR) (s : State) : Out :=
  ternaryR s o fun rm a b c => FRes.w32 (f32.fmaV rm (v32 a) (v32 b) (v32 c))
def execFmin (o : DAB) (s : State) : Out := binary s o fun a b => FRes.w32 (f32.minmax false a.toNat b.toNat)
def execFmax (o : DAB) (s : State) : Out := binary s o fun a b => FRes.w32 (f32.minmax true a.toNat b.toNat)
def execFcmp (o : FCmp) (s : State) : Out :=
  compare32 s o.h o.u o.pd o.a o.b fun a b => fcmpRes o.cc (v32 a) (v32 b)
def execFclass (o : DA) (s : State) : Out := unary s o fun a => quiet [BitVec.ofNat 32 (fclassOf a.toNat)]
def execFrcp (o : DAR) (s : State) : Out := unaryR s o fun rm a => FRes.w32 (f32.rcpV rm (v32 a))
def execFrsq (o : DAR) (s : State) : Out := unaryR s o fun rm a => FRes.w32 (f32.rsqV rm (v32 a))
def execFsqrt (o : DAR) (s : State) : Out := unaryR s o fun rm a => FRes.w32 (f32.sqrtV rm (v32 a))
def execFdiv (o : DABR) (s : State) : Out := binaryR s o fun rm a b => FRes.w32 (f32.divV rm (v32 a) (v32 b))
def execFex2 (o : DA) (s : State) : Out := unary s o fun a => FRes.w32 (ex2Of (v32 a))
def execFlg2 (o : DA) (s : State) : Out := unary s o fun a => FRes.w32 (lg2Of (v32 a))
def execFsin (o : DA) (s : State) : Out := unary s o fun a => FRes.w32 (sinCosOf false (v32 a))
def execFcos (o : DA) (s : State) : Out := unary s o fun a => FRes.w32 (sinCosOf true (v32 a))
def execFtanh (o : DA) (s : State) : Out := unary s o fun a => FRes.w32 (tanhOf (v32 a))

/-! ## Packed (R156) -/

/-- Both halves of two operands through one rule. -/
def halves2 (f : Nat → Nat → FRes) (a b : Word) : List Word × BitVec 5 :=
  pack2 (f (half0 a) (half0 b)) (f (half1 a) (half1 b))
def halves3 (f : Nat → Nat → Nat → FRes) (a b c : Word) : List Word × BitVec 5 :=
  pack2 (f (half0 a) (half0 b) (half0 c)) (f (half1 a) (half1 b) (half1 c))

def execBadd2 (o : DABR) (s : State) : Out :=
  binaryR s o fun rm a b => halves2 (fun x y => bf16.addV rm (bf16.read x) (bf16.read y)) a b
def execBmul2 (o : DABR) (s : State) : Out :=
  binaryR s o fun rm a b => halves2 (fun x y => bf16.mulV rm (bf16.read x) (bf16.read y)) a b
def execBfma2 (o : DABCR) (s : State) : Out :=
  ternaryR s o fun rm a b c => halves3 (fun x y z => bf16.fmaV rm (bf16.read x) (bf16.read y) (bf16.read z)) a b c
def execBmin2 (o : DAB) (s : State) : Out := binary s o fun a b => halves2 (bf16.minmax false) a b
def execBmax2 (o : DAB) (s : State) : Out := binary s o fun a b => halves2 (bf16.minmax true) a b
def execHadd2 (o : DABR) (s : State) : Out :=
  binaryR s o fun rm a b => halves2 (fun x y => f16.addV rm (f16.read x) (f16.read y)) a b
def execHmul2 (o : DABR) (s : State) : Out :=
  binaryR s o fun rm a b => halves2 (fun x y => f16.mulV rm (f16.read x) (f16.read y)) a b
def execHfma2 (o : DABCR) (s : State) : Out :=
  ternaryR s o fun rm a b c => halves3 (fun x y z => f16.fmaV rm (f16.read x) (f16.read y) (f16.read z)) a b c

/-! ## FP64 (R157) -/

def v64 (w : BitVec 64) : FV := f64.read w.toNat

def execDadd (o : DABR) (s : State) : Out := binaryR64 s o fun rm a b => FRes.w64 (f64.addV rm (v64 a) (v64 b))
def execDmul (o : DABR) (s : State) : Out := binaryR64 s o fun rm a b => FRes.w64 (f64.mulV rm (v64 a) (v64 b))
def execDfma (o : DABCR) (s : State) : Out :=
  ternaryR64 s o fun rm a b c => FRes.w64 (f64.fmaV rm (v64 a) (v64 b) (v64 c))

/-! ## Conversions (R51, R158) -/

def execCvtF32S32 (o : DAR) (s : State) : Out := unaryR s o fun rm a => FRes.w32 (ofInt32 rm a.toInt)
def execCvtF32U32 (o : DAR) (s : State) : Out := unaryR s o fun rm a => FRes.w32 (ofInt32 rm a.toNat)
def execCvtS32F32 (o : DAR) (s : State) : Out :=
  unaryR s o fun rm a => ([(toInt32 true rm (v32 a)).1], (toInt32 true rm (v32 a)).2)
def execCvtU32F32 (o : DAR) (s : State) : Out :=
  unaryR s o fun rm a => ([(toInt32 false rm (v32 a)).1], (toInt32 false rm (v32 a)).2)

/-- Replace w bits of a word at a place (R158). -/
def insertBits (old : Word) (pos w x : Nat) : Word :=
  let m := lowMaskN w <<< pos
  (old &&& ~~~m) ||| (BitVec.ofNat 32 (x * 2 ^ pos) &&& m)
where lowMaskN (n : Nat) : Word := BitVec.ofNat 32 (2 ^ n - 1)

/-- FP32 to a 16-bit half of D; the rest of D is kept (R158). -/
def narrowHalf (s : State) (o : DAHalf) (f : FFmt) : Out :=
  asGang s fun c g => s.setCrew (c.alu g o.h o.u o.d.toNat fun l =>
    let r := f.convert (c.rmode o.rm) false (v32 (c.rget o.u l o.a.toNat))
    ([insertBits (c.rget o.u l o.d.toNat) (if o.half then 16 else 0) 16 r.1], r.2))

/-- A 16-bit half of A to FP32. -/
def widenHalf (s : State) (o : DAHalf) (f : FFmt) : Out :=
  asGang s fun c g => s.setCrew (c.alu g o.h o.u o.d.toNat fun l =>
    let a := c.rget o.u l o.a.toNat
    FRes.w32 (f32.convert .rne false (f.read (if o.half then half1 a else half0 a))))

/-- FP32 to an FP8 byte of D; the rest of D is kept, finite overflow saturates (R51, R158). -/
def narrowByte (s : State) (o : DAByte) (f : FFmt) : Out :=
  asGang s fun c g => s.setCrew (c.alu g o.h o.u o.d.toNat fun l =>
    let r := f.convert (c.rmode o.rm) true (v32 (c.rget o.u l o.a.toNat))
    ([insertBits (c.rget o.u l o.d.toNat) (8 * o.byte.toNat) 8 r.1], r.2))

/-- A byte of A to FP32. -/
def widenByte (s : State) (o : DAByte) (f : FFmt) : Out :=
  asGang s fun c g => s.setCrew (c.alu g o.h o.u o.d.toNat fun l =>
    FRes.w32 (f32.convert .rne false (f.read (bits (c.rget o.u l o.a.toNat).toNat (8 * o.byte.toNat + 7) (8 * o.byte.toNat)))))

def execCvtBf16F32 (o : DAHalf) (s : State) : Out := narrowHalf s o bf16
def execCvtF32Bf16 (o : DAHalf) (s : State) : Out := widenHalf s o bf16
def execCvtF16F32 (o : DAHalf) (s : State) : Out := narrowHalf s o f16
def execCvtF32F16 (o : DAHalf) (s : State) : Out := widenHalf s o f16
def execCvtE4m3F32 (o : DAByte) (s : State) : Out := narrowByte s o e4m3
def execCvtF32E4m3 (o : DAByte) (s : State) : Out := widenByte s o e4m3
def execCvtE5m2F32 (o : DAByte) (s : State) : Out := narrowByte s o e5m2
def execCvtF32E5m2 (o : DAByte) (s : State) : Out := widenByte s o e5m2
def execCvtF64F32 (o : DA) (s : State) : Out := unary s o fun a => FRes.w64 (f64.convert .rne false (v32 a))
def execCvtF32F64 (o : DAR) (s : State) : Out := unaryR64 s o fun rm a => FRes.w32 (f32.convert rm false (v64 a))

/-! ## The shared-exponent path (R61 to R63, R160) -/

def execFexpo (o : DA) (s : State) : Out := unary s o fun a => quiet [w32 (fexpoOf a.toNat)]
def execQalign (o : DAB) (s : State) : Out :=
  binary s o fun a b => (words2 (qalignOf a.toNat b.toInt).1, (qalignOf a.toNat b.toInt).2)
def execQunalign (o : DAB) (s : State) : Out := binary64by32 s o fun a b => FRes.w32 (qunalignOf a b.toInt)

/-! ## QUANT (R58, R159) -/

/-- The largest magnitude of a target. -/
def qMax : QTarget → Nat
  | .e4m3 => 448
  | .e5m2 => 57344
  | .s4 => 7

/-- The NaN code of a target. -/
def qNan : QTarget → Nat
  | .e4m3 => 0x7F
  | .e5m2 => 0x7E
  | .s4 => 8

/-- An integer as an S4 code. -/
def s4Code (z : Int) : Nat := (BitVec.ofInt 4 z).toNat

/-- x / scale rounded once with RNE to the target (R58). -/
def quantElem (t : QTarget) (x scale : FV) : FRes :=
  match x, scale with
  | .fin n m e, .fin _ sm se =>
    if m = 0 then
      match t with
      | .e4m3 => (e4m3.zero n, 0)
      | .e5m2 => (e5m2.zero n, 0)
      | .s4 => (0, 0)
    else
      let (q, qe, st) := exactDiv m e sm se
      match t with
      | .e4m3 => e4m3.round .rne true n q qe st
      | .e5m2 => e5m2.round .rne true n q qe st
      | .s4 =>
        let (k, inexact) := roundAt .rne n q qe st 0
        if 7 < k then (s4Code (if n then -7 else 7), fOF ||| fNX)
        else (s4Code (if n then -(k : Int) else k), if inexact then fNX else 0)
  | _, _ => (qNan t, 0)

/-- The larger of two finite magnitudes. -/
def maxMag (a b : FV) : FV :=
  match a, b with
  | .fin _ m e, .fin _ m' e' => if dyLt m e m' e' then .fin false m' e' else .fin false m e
  | _, _ => a

/-- The scale, the elements in order and the flags of a block of codes (R58). -/
def quantBlock (t : QTarget) (xs : List Nat) : Nat × List Nat × BitVec 5 :=
  let vs := xs.map f32.read
  let finite := vs.all fun v => match v with
    | .fin _ _ _ => true
    | .nan _ | .inf _ => false
  if !finite then (f32.nan, xs.map fun _ => qNan t, fNV)
  else
    match vs.foldl maxMag (.fin false 0 0) with
    | .fin _ m e =>
      if m = 0 then (0x3F800000, vs.map fun v => (quantElem t v (.fin false 1 0)).1, 0)
      else
        let (q, qe, st) := exactDiv m e (qMax t) 0
        let (sc, fl) := f32.round .rne false false q qe st
        let (sc, fl) := if sc = 0 then (1, fNX ||| fUF) else (sc, fl)
        let rs := vs.map fun v => quantElem t v (f32.read sc)
        (sc, rs.map (·.1), rs.foldl (fun a r => a ||| r.2) fl)
    | .nan _ | .inf _ => (f32.nan, [], 0)

/-- Lane l's word of the elements (R159). -/
def quantWord (t : QTarget) (els : List Nat) (l : Nat) : Word :=
  let w := if t == .s4 then 4 else 8
  BitVec.ofNat 32 (((List.range 4).map fun i => (els.getD (4 * l + i) 0) * 2 ^ (w * i)).foldl (· + ·) 0)

def execQuant (o : Quant) (s : State) : Out :=
  asGang s fun c g =>
    if c.slices.length == 8 && c.gangSlices g == List.range 8 && c.parts g o.h.guard == List.range 32 then
      let r := quantBlock o.t ((List.range 128).map fun k => (c.vget (k / 4) (o.a.toNat + k % 4)).toNat)
      let c' := (List.range 32).foldl (fun k l => k.vset l o.d.toNat (quantWord o.t r.2.1 l)) c
      s.setCrew (((c'.ssetGang g o.sc.toNat (BitVec.ofNat 32 r.1)).raise r.2.2).advance g o.h.form.bytes)
    else s.trap c g o.h.form.bytes cSHAPE 0

end Sys2Proof.Machine
end

