-- ==== Sys2Proof/Machine/HostLink.lean ====
section
/-!
DEFINITION. The host link (18 R344 to R349): BAR2 reads, writes and AtomicOps, the registers of BAR0, MSI-X unmasking, and the
time-outs of requests that nothing answers (18 R348; 19 R365). Partitions are written through BAR0 (19 R362).
-/
namespace Sys2Proof.Machine

/-! ## BAR2 (R346) -/

/-- The key of a slot for host accesses: none when it is EMPTY or NOHOST. -/
def State.hostKeyOf (s : State) (slot : Nat) : Option Nat :=
  if slot = 0 then some s.deviceKey
  else
    match mfind s.keys slot with
    | some k => if k.nohost then none else some (2 * k.key.toNat + 1)
    | none => none

/-- The key of host accesses now. -/
def State.hostKey (s : State) : Option Nat := s.hostKeyOf s.bar0.hkey.toNat

/-- The ALL8 address of a BAR2 offset. -/
def State.bar2 (s : State) (off : BitVec 39) : Nat := (s.bar0.b2off.toNat * 4096 + off.toNat) % 2 ^ 39

/-- A request at a BAR2 offset as the device takes it. -/
def State.hostAt (s : State) (off : BitVec 39) : HostAt := ⟨s.bar2 off, s.bar0.hkey.toNat⟩

/-- The location of an ALL8 address (R68, R69), forwarded. -/
def State.all8 (s : State) (a : Nat) : Nat := s.forward (Aperture.loc ⟨0, 0, 3, 0⟩ (a % 2 ^ 39))

/-- A host access to an ALL8 address waits at the home of its location: a move blocks it or a command's hold (R116, R324), or an
access that a move has queued stands before it. -/
def State.hostWaits (s : State) (a : Nat) : Bool := s.mustWait .scafa 0 0 (BitVec.ofNat 64 a) (s.all8 a)

/-- It joins the accesses that wait there; a host access has no epoch (R318). -/
def State.hostQueue (s : State) (key a : Nat) : State :=
  if s.waitq.any (·.is .scafa 0 0 (BitVec.ofNat 64 a)) then s
  else { s with waitq := s.waitq ++ [{ agent := .scafa, ctx := 0, crew := 0, gang := 0, va := BitVec.ofNat 64 a, loc := s.all8 a,
                                       key := key, pa := a, epoch := 0, moved := s.migrating (s.all8 a) }] }

/-- It has been performed and waits no more. -/
def State.hostLeaves (s : State) (a : Nat) : State := s.dequeue (·.is .scafa 0 0 (BitVec.ofNat 64 a))

/-- n bytes at an ALL8 address, within one line, read or written at the home under a key. -/
def State.hostRead1 (s : State) (key a n : Nat) : Agd :=
  if s.hostWaits a then .wait (s.hostQueue key a)
  else
    match s.homeRead (s.all8 a) n key (s.lineRto (s.all8 a / 128)) with
    | some (v, t) => .ok v (t.hostLeaves a)
    | none => s.agentWait (s.all8 a / 128) (s.lineRto (s.all8 a / 128))
def State.hostWrite1 (s : State) (key a n v : Nat) : Agd :=
  if s.hostWaits a then .wait (s.hostQueue key a)
  else
    match s.homeWrite (s.all8 a) n key v (s.lineRto (s.all8 a / 128)) with
    | some t => .ok 0 (t.hostLeaves a)
    | none => s.agentWait (s.all8 a / 128) (s.lineRto (s.all8 a / 128))

/-- The pieces of n bytes at an ALL8 address, none across a line. -/
def hostPieces (a n : Nat) : List (BitVec 64 × Nat) := linePieces (n / 128 + 2) (BitVec.ofNat 64 a) n

/-- n bytes at an ALL8 address, line by line. -/
def State.hostReadN (s : State) (key a n : Nat) : Agd :=
  State.readPieces (fun s b k => s.hostRead1 key (b.toNat % 2 ^ 39) k) (hostPieces a n) s
def State.hostWriteN (s : State) (key a n v : Nat) : Agd :=
  State.writePieces (fun s b k v => s.hostWrite1 key (b.toNat % 2 ^ 39) k v) (hostPieces a n) s v

/-- One of n bytes at an ALL8 address is poisoned (R369). -/
def State.hostBad (s : State) (a n : Nat) : Bool := (hostPieces a n).any fun p => s.poisoned (s.all8 p.1.toNat / 128)

/-- The answer to a request that is not performed. -/
def State.hostRefuse (s : State) : State := { s with sent := s.sent ++ [.hostAbort] }

/-- A host request that has come to its turn: aborted without a key or when its line's recall expires (R352), made to wait, or
performed and ended by `done`. A slot that is being erased holds it back (R356). -/
def State.hostTry (s : State) (i : Inbound) (h : HostAt) (f : Nat → Agd) (done : Nat → State → State) : State :=
  if s.erasing == some h.slot then s.holdInbound i
  else
    match s.hostKeyOf h.slot with
    | none => s.hostRefuse
    | some key =>
      match f key with
      | .ok v t => done v t
      | .bad _ _ _ t => (s.keepWaits t).hostRefuse
      | .wait t => (s.keepWaits t).holdInbound i

/-- A host read: poisoned data comes back marked (R369). -/
def State.readTry (s : State) (o : HostRead) (h : HostAt) : State :=
  s.hostTry (.read o h) h (fun key => s.hostReadN key h.all8 o.len)
    fun v t => { t with sent := t.sent ++ [.hostReply (toBytes o.len v) (t.hostBad h.all8 o.len)] }

/-- HOST_READ: behind the host's earlier requests (R346). -/
def execHostRead (o : HostRead) (s : State) : Out := .next (s.arrive (.read o (s.hostAt o.off)) (·.readTry o (s.hostAt o.off)))

/-- A host write. -/
def State.writeTry (s : State) (o : HostWrite) (h : HostAt) : State :=
  s.hostTry (.write o h) h (fun key => s.hostWriteN key h.all8 o.data.length (ofBytes o.data)) fun _ t => t

/-- HOST_WRITE. -/
def execHostWrite (o : HostWrite) (s : State) : Out :=
  .next (s.arrive (.write o (s.hostAt o.off)) (·.writeTry o (s.hostAt o.off)))

/-- Bytes and effect of an AtomicOp. -/
def hostAtomBytes : HostAtom → Nat
  | .fetchAdd32 _ | .swap32 _ | .cas32 _ _ => 4
  | .fetchAdd64 _ | .swap64 _ | .cas64 _ _ => 8
  | .cas128 _ _ => 16
def hostAtomApply (op : HostAtom) (old : Nat) : Nat :=
  match op with
  | .fetchAdd32 b => (old + b.toNat) % 2 ^ 32
  | .fetchAdd64 b => (old + b.toNat) % 2 ^ 64
  | .swap32 b => b.toNat
  | .swap64 b => b.toNat
  | .cas32 c b => if old = c.toNat then b.toNat else old
  | .cas64 c b => if old = c.toNat then b.toNat else old
  | .cas128 c b => if old = c.toNat then b.toNat else old

/-- A host AtomicOp, at the home as ATOM or CAS. -/
def State.atomicTry (s : State) (o : HostAtomic) (h : HostAt) : State :=
  let n := hostAtomBytes o.op
  let both := fun (key : Nat) => match s.hostReadN key h.all8 n with
    | .ok old t =>
      match t.hostWriteN key h.all8 n (hostAtomApply o.op old) with
      | .ok _ u => Agd.ok old u
      | r => r
    | r => r
  s.hostTry (.atomic o h) h both fun old t => { t with sent := t.sent ++ [.hostReply (toBytes n old) (t.hostBad h.all8 n)] }

/-- HOST_ATOMIC; an address that is not aligned to its width is aborted (log 67). -/
def execHostAtomic (o : HostAtomic) (s : State) : Out :=
  .next (if o.off.toNat % hostAtomBytes o.op != 0 then s.hostRefuse
    else s.arrive (.atomic o (s.hostAt o.off)) (·.atomicTry o (s.hostAt o.off)))

/-! ## MSI-X (R349) -/

/-- A vector's mask is cleared: one that is pending is sent. -/
def State.unmask (s : State) (vec : Nat) : State :=
  let bit : BitVec 128 := BitVec.ofNat 128 (2 ^ vec)
  let t : State := { s with bar0 := { s.bar0 with msixMask := s.bar0.msixMask &&& ~~~bit, msixPending := s.bar0.msixPending &&& ~~~bit } }
  if s.bar0.msixPending.getLsbD vec then { t with sent := t.sent ++ [.msix (BitVec.ofNat 7 vec)] } else t

/-- MSIX_UNMASK: a write of the vector's control word, behind the host's earlier requests that wait (R346). -/
def execMsixUnmask (vec : BitVec 7) (s : State) : Out :=
  .next (s.arrive (.reg ⟨BitVec.ofNat 26 (0x10000C + 16 * vec.toNat), 0, true⟩) (·.unmask vec.toNat))

/-! ## BAR0 (R345, R357, R360, R362) -/

/-- The SIZE fields form valid partitions (R290, R362). -/
def partsOk (v : Nat) : Bool :=
  let size := fun d => bits v (2 * d + 1) (2 * d)
  (List.range 8).all fun d => (rangeFrom (d / 2 ^ size d * 2 ^ size d) (2 ^ size d)).all fun e => size e == size d

/-- A write of PARTCFG. -/
def State.writePart (s : State) (v : BitVec 64) : State :=
  if s.ctxs.isEmpty && partsOk (v.toNat % 65536) then
    { s with bar0 := { s.bar0 with partcfg := v.setWidth 16, partRefused := false } }
  else { s with bar0 := { s.bar0 with partRefused := true } }

/-- PARTCFG_WRITE, behind the host's earlier requests that wait (R346). -/
def execPartcfgWrite (v : BitVec 64) (s : State) : Out := .next (s.arrive (.reg ⟨0x1010, v, false⟩) (·.writePart v))

/-- BOOTCTL. -/
def Bar0.bootctl (b : Bar0) : BitVec 64 := fields [(b.boot.toNat, 2), (b.bootDetail.toNat, 5)]

/-- SMCTL. -/
def Bar0.smctl (b : Bar0) : BitVec 64 :=
  fields [(natOf b.smBusy, 1), (b.smResult.toNat, 2), (b.smVec.toNat, 5), (b.smDetail.toNat, 12)]

/-- The 16 bytes of entry i of the MSI-X table: address, data and vector control. -/
def Bar0.msixEntry (b : Bar0) (i : Nat) : BitVec 128 :=
  (if b.msixMask.getLsbD i then (1 : BitVec 32) else 0) ++ mget 0 b.msixTable i

/-- A BAR0 register as the host reads it. -/
def Bar0.read (b : Bar0) (off : Nat) : BitVec 64 :=
  if off = 0x000000 then fields [(b.mqLog2n.toNat, 0), (b.mqPa.toNat, 12)]
  else if off = 0x000008 then b.mqWr
  else if off = 0x000010 then b.mqRd
  else if off = 0x000018 then fields [(b.b2off.toNat, 12)]
  else if off = 0x000020 then fields [(b.hkey.toNat, 0)]
  else if off = 0x000028 then fields [(b.mcvec.toNat, 0)]
  else if off = 0x001000 then b.bootctl
  else if off = 0x001008 then b.fwaddr.setWidth 64
  else if off = 0x001010 then fields [(b.partcfg.toNat, 0), (natOf b.partRefused, 16)]
  else if 0x100000 ≤ off && off < 0x100800 then
    let e := b.msixEntry ((off - 0x100000) / 16)
    if off / 8 % 2 = 0 then e.extractLsb' 0 64 else e.extractLsb' 64 64
  else if off = 0x110000 then b.msixPending.extractLsb' 0 64
  else if off = 0x110008 then b.msixPending.extractLsb' 64 64
  else if off = 0x200000 then fields [(b.smcmd.toNat, 8)]
  else if off = 0x200008 then b.smctl
  else 0

/-- A write of an MSI-X table entry's half: address, or data with the mask. -/
def State.writeMsix (s : State) (off : Nat) (v : BitVec 64) : State :=
  let i := (off - 0x100000) / 16
  let e := mget 0 s.bar0.msixTable i
  if off / 8 % 2 = 0 then { s with bar0 := { s.bar0 with msixTable := mput 0 s.bar0.msixTable i (e.extractLsb' 64 32 ++ v) } }
  else
    let t : State := { s with bar0 := { s.bar0 with msixTable := mput 0 s.bar0.msixTable i (v.extractLsb' 0 32 ++ e.extractLsb' 0 64) } }
    if v.getLsbD 32 then { t with bar0 := { t.bar0 with msixMask := t.bar0.msixMask ||| BitVec.ofNat 128 (2 ^ i) } } else t.unmask i

/-- A write of SMCTL: a GO starts the command at SMCMD, unless one runs. -/
def Bar0.writeSm (b : Bar0) (v : BitVec 64) : Bar0 := { b with smVec := v.extractLsb' 5 7, smBusy := b.smBusy || v.getLsbD 0 }

/-- A 64-bit write of a BAR0 register; what no table names ignores it. A BOOTCTL write with GO waits for the verification, one
with RESET for the reset. -/
def State.bar0Write (s : State) (reset : State → State) (off : Nat) (v : BitVec 64) : State :=
  let b := s.bar0
  let put := fun (b : Bar0) => { s with bar0 := b }
  if off = 0x000000 then put { b with mqLog2n := v.extractLsb' 0 5, mqPa := v.extractLsb' 12 36 }
  else if off = 0x000008 then s.ringMq v
  else if off = 0x000018 then put { b with b2off := v.extractLsb' 12 27 }
  else if off = 0x000020 then put { b with hkey := v.extractLsb' 0 12 }
  else if off = 0x000028 then put { b with mcvec := v.extractLsb' 0 7 }
  else if off = 0x001000 then
    if v.getLsbD 1 then reset s
    else if v.getLsbD 0 && (b.boot == 1 || b.boot == 4) then put { b with boot := 2 } else s
  else if off = 0x001008 then put { b with fwaddr := v.extractLsb' 0 48 }
  else if off = 0x001010 then s.writePart v
  else if 0x100000 ≤ off && off < 0x100800 then s.writeMsix off v
  else if off = 0x200000 then put { b with smcmd := v.extractLsb' 8 31 }
  else if off = 0x200008 then put (b.writeSm v)
  else s

/-- A write of 64 or 32 bits; a 32-bit one leaves the other half as it reads. -/
def State.writeBar0 (s : State) (reset : State → State) (o : RegWrite) : State :=
  let off := o.off.toNat / 8 * 8
  if !o.narrow then (if o.off.toNat % 8 = 0 then s.bar0Write reset off o.val else s)
  else if o.off.toNat % 4 != 0 then s
  else
    let old := s.bar0.read off
    let w := o.val.extractLsb' 0 32
    s.bar0Write reset off (if o.off.toNat % 8 = 0 then hi32 old ++ w else w ++ lo32 old)

/-! ## Requests that nothing answers (R348, R365) -/

/-- A request whose address an agent translates: what it reaches. -/
def State.lostReach (s : State) (ag : Agent) (x : Ctx) (va : BitVec 64) : Option Reach :=
  match s.translate ag x va false false (fun _ => true) with
  | .ok r => some r
  | .error _ => none

/-- A request that no answer ended, if `fits` says that its deadline applies to what it reaches from a die: a crew's ends with a late
TIMEOUT in its gang, a copy and a COLL with FAULT; each with a machine check of the requesting die. -/
def State.lostRequest (s : State) (o : LostReq) (fits : Ctx → Nat → Reach → Option (BitVec 4)) : State :=
  match o.who with
  | .crew uid lane =>
    match s.crew? uid with
    | none => s
    | some c =>
      match s.ctx? c.ctx with
      | none => s
      | some x =>
        match (s.lostReach (.core c.core) x o.va).bind (fits x (c.core / 32)) with
        | none => s
        | some src =>
          if c.saved || c.exited || c.faulted.isSome then s
          else
            (s.lateFault c c.holder [lane.toNat] [] []
              { cause := cTIMEOUT, late := true, lane := lane, detail := 0, level := 0, epc := o.pc, val := o.va }).machineCheck
              1 src (c.core / 32) 0
  | .copy core op =>
    match (s.core core).copies.find? (·.id == op) with
    | none => s
    | some j =>
      match (s.ctx? j.ctx).bind fun x => (s.lostReach (.copyUnit core) x o.va).bind (fits x (core / 32)) with
      | none => s
      | some src =>
        if j.ended.isSome then s
        else (s.modCopy core op fun j => { j with ended := some (stFAULT, cTIMEOUT, j.prefixBytes) }).machineCheck 1 src (core / 32) 0
  | .coll op =>
    match s.colls.find? (·.id == op) with
    | none => s
    | some j =>
      match (s.ctx? j.ctx).bind fun x => (s.lostReach (.coll j.engine) x o.va).bind (fits x 8) with
      | none => s
      | some src =>
        if j.failed.isSome then s
        else (s.modColl op fun j => { j with failed := some cTIMEOUT, sent := true }).machineCheck 1 src 0 0

/-- PCIE_COMPLETION_TIMEOUT of a request to a host window; the time-out is the host port's own (R348). -/
def execPcieCompletionTimeout (o : LostReq) (s : State) : Out :=
  .next (s.lostRequest o fun _ _ r => match r with
    | .host _ _ => some 6
    | .dram _ _ _ _ | .rmt _ _ | .chip _ _ _ => none)

/-- The cross-die time-out of a presented device in ticks (R365). -/
def State.crossTicks (s : State) (first : Nat) : Nat :=
  match s.pdev? first with
  | some p => max 1000 p.xto.toNat
  | none => 100000

/-- CROSS_DIE_TIMEOUT of a request to another die, once XTO.TICKS have passed since its issue on the requesting die, or to another
node, once SCTO has (R365). -/
def execCrossDieTimeout (o : LostReq) (s : State) : Out :=
  .next (s.lostRequest o fun x die r =>
    let late := fun (ticks : Nat) => decide (o.issued + ticks ≤ s.dieTime die)
    match r with
    | .dram _ loc _ _ => if homeDie loc != die && late (s.crossTicks x.pdev) then some 4 else none
    | .chip d _ _ => if x.pdev + d != die && late (s.crossTicks x.pdev) then some 4 else none
    | .rmt node _ => if (s.peerOf node).isNone && late (s.rto x.id) then some 5 else none
    | .host _ _ => none)

end Sys2Proof.Machine
end

