-- ==== Sys2Proof/Machine/Integer.lean ====
section
/-!
DEFINITION. The integer and logic instructions, comparisons, selection and moves (07 R148 to R152).
-/
namespace Sys2Proof.Machine

/-! ## The functions (R148, R149) -/

/-- Bits [63:32] of a 64-bit product. -/
def mulHiS (a b : Word) : Word := hi32 (w64 (a.toInt * b.toInt))
def mulHiU (a b : Word) : Word := hi32 (a.setWidth 64 * b.setWidth 64)

def divU (a b : Word) : Word := if b = 0 then BitVec.allOnes 32 else a / b
def remU (a b : Word) : Word := if b = 0 then a else a % b

/-- The shift count is the whole 32-bit value (R148). -/
def shl32 (a b : Word) : Word := if 32 ≤ b.toNat then 0 else a <<< b.toNat
def shr32 (a b : Word) : Word := if 32 ≤ b.toNat then 0 else a >>> b.toNat
def sar32 (a b : Word) : Word := a.sshiftRight (if 32 ≤ b.toNat then 31 else b.toNat)
def rotl32 (a b : Word) : Word := a.rotateLeft (b.toNat % 32)
def shl64 (a : BitVec 64) (b : Word) : BitVec 64 := if 64 ≤ b.toNat then 0 else a <<< b.toNat
def shr64 (a : BitVec 64) (b : Word) : BitVec 64 := if 64 ≤ b.toNat then 0 else a >>> b.toNat
def sar64 (a : BitVec 64) (b : Word) : BitVec 64 := a.sshiftRight (if 64 ≤ b.toNat then 63 else b.toNat)

/-- |s(a)| modulo 2^32. -/
def abs32 (a : Word) : Word := if a.msb then -a else a

/-- The field control (R149): position, and length capped at 32. -/
def fieldPos (ctl : Word) : Nat := ctl.toNat % 256
def fieldLen (ctl : Word) : Nat := if 32 < ctl.toNat / 256 % 256 then 32 else ctl.toNat / 256 % 256

/-- The low n bits set. -/
def lowMask (n : Nat) : Word := BitVec.ofNat 32 (2 ^ n - 1)

def bfeuOf (a ctl : Word) : Word := (a >>> fieldPos ctl) &&& lowMask (fieldLen ctl)
def bfesOf (a ctl : Word) : Word :=
  if fieldLen ctl = 0 then 0
  else ((a.sshiftRight (fieldPos ctl)) <<< (32 - fieldLen ctl)).sshiftRight (32 - fieldLen ctl)
def bfiOf (a b ctl : Word) : Word :=
  let m := lowMask (fieldLen ctl) <<< fieldPos ctl
  (b &&& ~~~m) ||| ((a <<< fieldPos ctl) &&& m)

/-- One result byte of BYSEL by its five-bit selector (R149). -/
def byselByte (ab : BitVec 64) (sel : Nat) : Byte :=
  let y : Byte := ab.extractLsb' (8 * (sel % 8)) 8
  match sel / 8 with
  | 0 => y
  | 1 => 0
  | 2 => if y.msb then 0xFF else 0
  | _ => y.reverse
def byselOf (a b c : Word) : Word :=
  let x := fun i => byselByte (b ++ a) (bits c.toNat (5 * i + 4) (5 * i))
  x 3 ++ x 2 ++ x 1 ++ x 0
def fshrOf (a b c : Word) : Word := ((b ++ a) >>> (c.toNat % 32)).extractLsb' 0 32

/-- The byte products of IDP4S and IDP4U (R148). -/
def idp4 (ext : Byte → Int) (a b c : Word) : Word :=
  w32 (c.toNat + ([0, 8, 16, 24].map fun i => ext (a.extractLsb' i 8) * ext (b.extractLsb' i 8)).foldl (· + ·) 0)

def icond (cc : ICond) (lt : Word → Word → Bool) (a b : Word) : Bool :=
  match cc with
  | .eq => a == b
  | .ne => a != b
  | .lt => lt a b
  | .le => !lt b a
  | .gt => lt b a
  | .ge => !lt a b

/-- The order of ICMP64 (R150). -/
def lt64 (unsigned : Bool) (a b : BitVec 64) : Bool := if unsigned then a.ult b else a.slt b
def icond64 (cc : ICond64) (a b : BitVec 64) : Bool :=
  match cc with
  | .eq => a == b
  | .ne => a != b
  | .lt u => lt64 u a b
  | .le u => !lt64 u b a
  | .gt u => lt64 u b a
  | .ge u => !lt64 u a b

/-! ## Meanings -/

def execIadd (o : DAB) (s : State) : Out := binary s o fun a b => quiet [a + b]
def execIsub (o : DAB) (s : State) : Out := binary s o fun a b => quiet [a - b]
def execImul (o : DAB) (s : State) : Out := binary s o fun a b => quiet [a * b]
def execImulhs (o : DAB) (s : State) : Out := binary s o fun a b => quiet [mulHiS a b]
def execImulhu (o : DAB) (s : State) : Out := binary s o fun a b => quiet [mulHiU a b]
def execImad (o : DABC) (s : State) : Out := ternary s o fun a b c => quiet [a * b + c]
def execImadws (o : DABC) (s : State) : Out := ternaryWide s o fun a b c => a.signExtend 64 * b.signExtend 64 + c
def execImadwu (o : DABC) (s : State) : Out := ternaryWide s o fun a b c => a.setWidth 64 * b.setWidth 64 + c
def execIadd64 (o : DAB) (s : State) : Out := binary64 s o fun a b => a + b
def execIsub64 (o : DAB) (s : State) : Out := binary64 s o fun a b => a - b
def execImins (o : DAB) (s : State) : Out := binary s o fun a b => quiet [if b.slt a then b else a]
def execIminu (o : DAB) (s : State) : Out := binary s o fun a b => quiet [if b.ult a then b else a]
def execImaxs (o : DAB) (s : State) : Out := binary s o fun a b => quiet [if a.slt b then b else a]
def execImaxu (o : DAB) (s : State) : Out := binary s o fun a b => quiet [if a.ult b then b else a]
def execIabs (o : DA) (s : State) : Out := unary s o fun a => quiet [abs32 a]
def execIdivu (o : DAB) (s : State) : Out := binary s o fun a b => quiet [divU a b]
def execIremu (o : DAB) (s : State) : Out := binary s o fun a b => quiet [remU a b]
def execAnd (o : DAB) (s : State) : Out := binary s o fun a b => quiet [a &&& b]
def execOr (o : DAB) (s : State) : Out := binary s o fun a b => quiet [a ||| b]
def execXor (o : DAB) (s : State) : Out := binary s o fun a b => quiet [a ^^^ b]
def execAndn (o : DAB) (s : State) : Out := binary s o fun a b => quiet [a &&& ~~~b]
def execShl (o : DAB) (s : State) : Out := binary s o fun a b => quiet [shl32 a b]
def execShr (o : DAB) (s : State) : Out := binary s o fun a b => quiet [shr32 a b]
def execSar (o : DAB) (s : State) : Out := binary s o fun a b => quiet [sar32 a b]
def execRotl (o : DAB) (s : State) : Out := binary s o fun a b => quiet [rotl32 a b]
def execShl64 (o : DAB) (s : State) : Out := binary64by32 s o fun a b => quiet (words2 (shl64 a b))
def execShr64 (o : DAB) (s : State) : Out := binary64by32 s o fun a b => quiet (words2 (shr64 a b))
def execSar64 (o : DAB) (s : State) : Out := binary64by32 s o fun a b => quiet (words2 (sar64 a b))
def execClz (o : DA) (s : State) : Out := unary s o fun a => quiet [BitVec.ofNat 32 (leadZeros 32 a.toNat)]
def execPopc (o : DA) (s : State) : Out := unary s o fun a => quiet [BitVec.ofNat 32 (popCount 32 a.toNat)]
def execBrev (o : DA) (s : State) : Out := unary s o fun a => quiet [BitVec.ofNat 32 (revBits 32 a.toNat)]
def execBfeu (o : DAB) (s : State) : Out := binary s o fun a b => quiet [bfeuOf a b]
def execBfes (o : DAB) (s : State) : Out := binary s o fun a b => quiet [bfesOf a b]
def execBfi (o : DABCi) (s : State) : Out := ternaryCi s o bfiOf
def execBysel (o : DABCi) (s : State) : Out := ternaryCi s o byselOf
def execFshr (o : DABCi) (s : State) : Out := ternaryCi s o fshrOf
def execIdp4s (o : DABC) (s : State) : Out := ternary s o fun a b c => quiet [idp4 BitVec.toInt a b c]
def execIdp4u (o : DABC) (s : State) : Out := ternary s o fun a b c => quiet [idp4 (fun x => (x.toNat : Int)) a b c]

/-! ### Comparison and selection (R150, R151) -/

def execIcmps (o : ICmp) (s : State) : Out :=
  compare32 s o.h o.u o.pd o.a o.b fun a b => (icond o.cc (fun x y => x.slt y) a b, 0)
def execIcmpu (o : ICmp) (s : State) : Out :=
  compare32 s o.h o.u o.pd o.a o.b fun a b => (icond o.cc (fun x y => x.ult y) a b, 0)
def execIcmp64 (o : ICmp64) (s : State) : Out :=
  asGang s fun c g => s.setCrew (c.aluP g o.h o.u o.pd.toNat fun l =>
    (icond64 o.cc (c.rget64 o.u l o.a.toNat) (c.b64 o.u l o.b), 0))

/-- SEL: with U = 1 the predicate is that of the slice's lowest participating lane, which is the unit (R151). -/
def execSel (o : Sel) (s : State) : Out :=
  asGang s fun c g => s.setCrew (c.alu g o.h o.u o.d.toNat fun l =>
    quiet [if c.pget l o.pc.toNat then c.rget o.u l o.a.toNat else c.b32 o.u l o.b])

/-- PLOP's table index (R151). -/
def plopIndex (a b c : Bool) : Nat := 4 * a.toNat + 2 * b.toNat + c.toNat
def execPlop (o : Plop) (s : State) : Out :=
  asGang s fun c g => s.setCrew (c.aluP g o.h false o.pd.toNat fun l =>
    (o.t.getLsbD (plopIndex (c.pget l o.pa.toNat) (c.pget l o.pb.toNat) (c.pget l o.pc.toNat)), 0))

/-- p15 … p0 of a lane, bit 15 always 1 (R151). -/
def Crew.predWord (c : Crew) (l : Nat) : Word := BitVec.ofNat 32 (0x8000 + (mget 0 c.p l).toNat)

/-- Set p0 to p14 of the participating lanes from words (R151). -/
def Crew.setPreds (c : Crew) (lanes : List Nat) (f : Nat → Word) : Crew :=
  lanes.foldl (fun k l => { k with p := mput 0 k.p l ((f l).extractLsb' 0 15) }) c

def execPmov (o : Pmov) (s : State) : Out :=
  match o.m with
  | .copy pd pa => asGang s fun c g => s.setCrew (c.aluP g o.h false pd.toNat fun l => (c.pget l pa.toNat, 0))
  | .get vd => asGang s fun c g => s.setCrew (c.alu g o.h false vd.toNat fun l => quiet [c.predWord l])
  | .set va => asGang s fun c g =>
      s.setCrew ((c.setPreds (c.parts g o.h.guard) fun l => c.vget l va.toNat).advance g o.h.form.bytes)

/-! ### Moves (R152) -/

def execLea (o : Lea) (s : State) : Out :=
  asGang s fun c g => s.setCrew (c.alu g o.h o.u o.d.toNat fun l =>
    let a := c.rget64 (o.u || o.scalarA) l o.a.toNat
    let b := c.rget o.u l o.b.toNat
    let x : BitVec 64 := if o.sx then b.signExtend 64 else b.setWidth 64
    quiet (words2 (a + x <<< o.k.toNat)))

def execMov (o : Mov) (s : State) : Out :=
  match o.m with
  | .vv d a => asGang s fun c g => s.setCrew (c.alu g o.h false d.toNat fun l => quiet [c.vget l a.toNat])
  | .ss d a => asGang s fun c g => s.setCrew (c.alu g o.h true d.toNat fun l => quiet [c.sget (l / 4) a.toNat])
  | .vs d a => asGang s fun c g => s.setCrew (c.alu g o.h false d.toNat fun l => quiet [c.sget (l / 4) a.toNat])
  | .sv d a => asGang s fun c g => s.setCrew (c.alu g o.h true d.toNat fun l => quiet [c.vget l a.toNat])

/-- MOVI's value (R152). -/
def moviValue : MoviImm → Word
  | .short v => v.signExtend 32
  | .long v => v

def execMovi (o : Movi) (s : State) : Out :=
  asGang s fun c g => s.setCrew (c.alu g o.h o.u o.d.toNat fun _ => quiet [moviValue o.imm])
def execMovl (o : Movl) (s : State) : Out :=
  asGang s fun c g => s.setCrew (c.alu g o.h o.u o.d.toNat fun _ => quiet (words2 o.imm))

/-- The words of a special register as lane l reads it (R19, R134). -/
def State.sreg (s : State) (c : Crew) (l : Nat) (r : SReg) : List Word :=
  let b := s.block? c.block
  let n := fun (x : Nat) => [BitVec.ofNat 32 x]
  let ofBlock := fun (f : Block → Word) => [(b.map f).getD 0]
  let x := c.slices[l / 4]?
  match r with
  | .laneid => n l
  | .sliceid => n (l / 4)
  | .crewid => n c.crewid
  | .blkid => ofBlock (·.blkid)
  | .nblk => ofBlock (·.nblk)
  | .cluid => ofBlock (·.cluid)
  | .clurank => ofBlock (·.clurank)
  | .spanid => ofBlock (·.spanid)
  | .dieid => n (s.dieid c.ctx c.core)
  | .coreid => n (coreid c.core)
  | .gridid => ofBlock (·.gridid)
  | .scrbase => n (if (s.scratch c).2 = 0 then 0 else (s.scratch c).1)
  | .clock => words2 (BitVec.ofNat 64 (mget 0 s.clock c.core))
  | .reftime => words2 (BitVec.ofNat 64 (s.dieTime (dieOfCore c.core)))
  | .hyp => [c.hyp.setWidth 32]
  | .hxh => words2 c.hxh
  | .pend => [c.pend.setWidth 32]
  | .emask => [c.emask.setWidth 32]
  | .evwhich => [c.evwhich]
  | .evdata => words2 c.evdata
  | .fflags => [c.fflags.setWidth 32]
  | .frm => [c.frm.setWidth 32]
  | .regent => words2 ((x.map (·.region.ent)).getD 0)
  | .regctr => [(x.map (·.regctr)).getD 0]

def execMovsr (o : Movsr) (s : State) : Out :=
  asGang s fun c g => s.setCrew (c.alu g o.h o.u o.d.toNat fun l => quiet (s.sreg c l o.sr))

end Sys2Proof.Machine
end

