-- ==== Sys2Proof/Machine/Lanes.lean ====
section
/-!
DEFINITION. The lane instructions (07 R161 to R167). Every read is of the crew before the instruction.
-/
namespace Sys2Proof.Machine

/-- vA of lane s where it is reachable, else of lane l (R161, R162). -/
def Crew.moveFrom (c : Crew) (g l a : Nat) (src : Int) : Word :=
  if 0 ≤ src && src < 4 * c.slices.length && c.reachable g src.toNat then c.vget src.toNat a else c.vget l a

/-- A lane move: the source lane by lane and B value (R162). -/
def laneMove (s : State) (o : Shfl) (f : Nat → Word → Int) : Out :=
  asGang s fun c g => s.setCrew (c.alu g o.h false o.d.toNat fun l =>
    quiet [c.moveFrom g l o.a.toNat (f l (c.b32 false l o.b))])

def execShfli (o : Shfl) (s : State) : Out := laneMove s o fun _ n => (n.toNat : Int)
def execShflup (o : Shfl) (s : State) : Out := laneMove s o fun l n => (l : Int) - (n.toNat : Int)
def execShfldn (o : Shfl) (s : State) : Out := laneMove s o fun l n => (l : Int) + (n.toNat : Int)
def execShflx (o : Shfl) (s : State) : Out := laneMove s o fun l n => ((Nat.xor l (n.toNat % 32) : Nat) : Int)
def execBcast (o : Bcast) (s : State) : Out :=
  asGang s fun c g => s.setCrew (c.alu g o.h false o.d.toNat fun l =>
    quiet [c.moveFrom g l o.a.toNat ((c.sl32 l o.b).toNat : Int)])

/-- SWZ4's source lane (R162). -/
def swzLane (pat : BitVec 8) (l : Nat) : Nat := 4 * (l / 4) + bits pat.toNat (2 * (l % 4) + 1) (2 * (l % 4))
def execSwz4 (o : Swz) (s : State) : Out :=
  asGang s fun c g => s.setCrew (c.alu g o.h false o.d.toNat fun l =>
    quiet [c.moveFrom g l o.a.toNat (swzLane o.pat l : Nat)])

/-- A mask of the lanes that satisfy a test. -/
def laneMask (lanes : List Nat) (p : Nat → Bool) : Word :=
  (lanes.filter p).foldl (fun m l => m ||| BitVec.ofNat 32 (2 ^ l)) 0

/-- BALLOT (R163): A stays a predicate or a vector register whatever U is. -/
def execBallot (o : Ballot) (s : State) : Out :=
  asGang s fun c g =>
    let ls := c.parts g o.h.guard
    let m := match o.src with
      | .pred pa => laneMask ls fun l => c.pget l pa.toNat
      | .bit va b => laneMask ls fun l => (c.vget l va.toNat).getLsbD ((c.b32 false l b).toNat % 32)
    s.setCrew (c.alu g o.h o.u o.d.toNat fun _ => quiet [m])

/-- VOTE (R163). -/
def voteOf (m : VoteMode) (xs : List Bool) : Bool :=
  match m with
  | .all => xs.all id
  | .any => xs.any id
  | .uni => xs.all id || xs.all (!·)
def execVote (o : Vote) (s : State) : Out :=
  asGang s fun c g =>
    let v := voteOf o.m ((c.parts g o.h.guard).map fun l => c.pget l o.pa.toNat)
    s.setCrew (c.aluP g o.h false o.pd.toNat fun _ => (v, 0))

/-- MATCH (R163). -/
def execMatchLanes (o : MatchOp) (s : State) : Out :=
  asGang s fun c g =>
    let key := fun l => if o.w64 then c.rget64 false l o.a.toNat else (c.vget l o.a.toNat).setWidth 64
    let ls := c.parts g o.h.guard
    s.setCrew (c.alu g o.h false o.d.toNat fun l => quiet [laneMask ls fun j => key j == key l])

/-! ### Folds (R164) -/

def foldIdentity : FoldOp → Word
  | .iadd | .imaxu | .or | .xor => 0
  | .fadd => 0x80000000
  | .imins => 0x7FFFFFFF
  | .iminu | .and => 0xFFFFFFFF
  | .imaxs => 0x80000000
  | .fmin => 0x7F800000
  | .fmax => 0xFF800000

/-- One step with the accumulated value on the left. -/
def foldStep (op : FoldOp) (rm : RMode) (x y : Word) : Word × BitVec 5 :=
  match op with
  | .iadd => (x + y, 0)
  | .fadd => let r := f32.addV rm (v32 x) (v32 y); (BitVec.ofNat 32 r.1, r.2)
  | .imins => (if y.slt x then y else x, 0)
  | .iminu => (if y.ult x then y else x, 0)
  | .imaxs => (if x.slt y then y else x, 0)
  | .imaxu => (if x.ult y then y else x, 0)
  | .and => (x &&& y, 0)
  | .or => (x ||| y, 0)
  | .xor => (x ^^^ y, 0)
  | .fmin => let r := f32.minmax false x.toNat y.toNat; (BitVec.ofNat 32 r.1, r.2)
  | .fmax => let r := f32.minmax true x.toNat y.toNat; (BitVec.ofNat 32 r.1, r.2)

/-- The fold of values from the identity, with the flags of its steps. -/
def foldAll (op : FoldOp) (rm : RMode) (xs : List Word) : Word × BitVec 5 :=
  xs.foldl (fun a x => ((foldStep op rm a.1 x).1, a.2 ||| (foldStep op rm a.1 x).2)) (foldIdentity op, 0)

/-- SCAN: lane l gets the fold of the participating lanes up to it, or below it. The flags are those of the steps taken. -/
def execScan (o : Scan) (s : State) : Out :=
  asGang s fun c g =>
    let ls := c.parts g o.h.guard
    s.setCrew (c.alu g o.h false o.d.toNat fun l =>
      let r := foldAll o.op (c.rmode o.rm) ((ls.filter fun k => k < l || (!o.excl && k == l)).map fun k => c.vget k o.a.toNat)
      ([r.1], r.2))

def execRedux (o : Redux) (s : State) : Out :=
  asGang s fun c g =>
    let r := foldAll o.op (c.rmode o.rm) ((c.parts g o.h.guard).map fun k => c.vget k o.a.toNat)
    s.setCrew (c.alu g o.h o.u o.d.toNat fun _ => ([r.1], r.2))

/-! ### LSORT (R165) -/

/-- Insert after every element that does not come later, so that equal keys keep their order. -/
def insertKey (lt : Word → Word → Bool) (k : Word × Nat) : List (Word × Nat) → List (Word × Nat)
  | [] => [k]
  | x :: xs => if lt k.1 x.1 then k :: x :: xs else x :: insertKey lt k xs
def sortKeys (lt : Word → Word → Bool) (ks : List (Word × Nat)) : List (Word × Nat) :=
  ks.foldl (fun acc k => insertKey lt k acc) []

/-- The place of a lane in a list. -/
def indexIn (ls : List Nat) (l : Nat) : Nat := (ls.takeWhile (· != l)).length

def execLsort (o : Lsort) (s : State) : Out :=
  asGang s fun c g =>
    let ls := c.parts g o.h.guard
    let lt := fun (a b : Word) => if o.signed then a.slt b else a.ult b
    let sorted := sortKeys lt (ls.map fun l => (c.vget l o.a.toNat, l))
    s.setCrew (c.alu g o.h false o.d.toNat fun l =>
      let k := sorted.getD (indexIn ls l) (0, 0)
      quiet [k.1, BitVec.ofNat 32 k.2])

/-! ### SPCOMP and SPEXP (R166, R167) -/

def spWidth : SpFmt → Nat
  | .e4m3 | .e5m2 | .int8 => 8
  | .s4 => 4
  | .bf16 => 16
def spGroup : SpPat → Nat
  | .p24 => 4
  | .p48 => 8
  | .p1632 => 32

/-- The rank of an element as a number: larger is kept first. NaN above infinity above every magnitude. -/
def spRank (f : SpFmt) (x : Nat) : Nat :=
  let ofFloat := fun (k : FFmt) => match k.read x with
    | .nan _ => 2 ^ 17
    | .inf _ => 2 ^ 16
    | .fin _ _ _ => x % 2 ^ k.signBit
  match f with
  | .e4m3 => ofFloat e4m3
  | .e5m2 => ofFloat e5m2
  | .bf16 => ofFloat bf16
  | .int8 => (BitVec.ofNat 8 x).toInt.natAbs
  | .s4 => if x == 8 then 2 ^ 17 else (BitVec.ofNat 4 x).toInt.natAbs

/-- The elements of lanes that rank above index i in its group: equal ranks go to the lower index. -/
def spAbove (rank : Nat → Nat) (m i : Nat) : Nat :=
  ((List.range m).filter fun j => rank i < rank j || (rank i == rank j && j < i)).length

/-- The words SPCOMP gives the lanes of one group, from its elements (R166). -/
def spcompGroup (f : SpFmt) (m : Nat) (el : Nat → Nat) : List Word :=
  let kept := (List.range m).filter fun i => spAbove (fun j => spRank f (el j)) m i < m / 2
  kept.map (fun i => BitVec.ofNat 32 (i * 2 ^ 16 + el i)) ++ List.replicate (m - kept.length) 0

def execSpcomp (o : Sp) (s : State) : Out :=
  asGang s fun c g =>
    let ls := c.parts g o.h.guard
    let m := spGroup o.m
    let el := fun l => if ls.contains l then (c.vget l o.a.toNat).toNat % 2 ^ spWidth o.f else 0
    s.setCrew (c.alu g o.h false o.d.toNat fun l =>
      quiet [(spcompGroup o.f m fun i => el (l / m * m + i)).getD (l % m) 0])

/-- The element SPEXP gives index i of a group: the entry of the highest lane that names it (R167). -/
def spexpElem (w : Nat) (entries : List Word) (i : Nat) : Word :=
  match entries.reverse.find? fun e => bits e.toNat 20 16 == i with
  | some e => BitVec.ofNat 32 (e.toNat % 2 ^ w)
  | none => 0

def execSpexp (o : Sp) (s : State) : Out :=
  asGang s fun c g =>
    let m := spGroup o.m
    let w := spWidth o.f
    s.setCrew (c.alu g o.h false o.d.toNat fun l =>
      let base := l / m * m
      let entries := ((rangeFrom base (m / 2)).filter (c.reachable g)).map fun k => c.vget k o.a.toNat
      quiet [spexpElem w entries (l % m)])

end Sys2Proof.Machine
end

