-- ==== Sys2Proof/Machine/Security.lean ====
section
/-!
DEFINITION. Device reset and firmware (19 R360, R361), the device's identity (18 R358), the commands of the security mailbox
(18 R357) and the attestation report (18 R359). The cryptographic functions are opaque constants of Config (log 14).
-/
namespace Sys2Proof.Machine

/-! ## Device reset (R360) -/

/-- Spares take the place of failed cores on every die (R370). -/
def Ras.repairAll (r : Ras) : Ras := (List.range 8).foldl Ras.repair r

/-- Bit d: die d presents fewer than 24 cores (R16, R370). -/
def degrOf (failed : List Nat) : BitVec 8 :=
  BitVec.ofNat 8 (((List.range 8).map fun d => if failed.any (· / 32 == d) then 2 ^ d else 0).foldl (· + ·) 0)

/-- The reliability registers after a reset: the parts that have failed stay failed. -/
def Ras.afterReset (r : Ras) : Ras :=
  let k := r.repairAll
  { Ras.reset with spares := k.spares, failed := k.failed, degr := degrOf k.failed }

/-- A device reset: DRAM and what it was encrypted under are kept, every register takes its reset value, slot 0 has a new key. What
has left the device and the model's own counters go on. -/
def State.deviceReset (s : State) : State :=
  { State.reset with
    mem := s.mem.filter fun c => c.1 < 2 ^ 39, lineKey := s.lineKey, poison := s.poison.filter (· < 2 ^ 32), draws := s.draws, nextId := s.nextId,
    agenda := s.agenda, resets := s.resets + 1, ras := s.ras.afterReset, sent := s.sent }

def execDeviceReset (s : State) : Out := .next s.deviceReset
def execBootctlReset (s : State) : Out := .next s.deviceReset

/-- REGISTER_WRITE of a BAR0 register (R345), behind the host's earlier requests that wait (R346); a FAILED device serves those no
more (R367). -/
def execRegisterWrite (o : RegWrite) (s : State) : Out :=
  .next (if s.bar0.boot == 5 then s.writeBar0 State.deviceReset o else s.arrive (.reg o) (·.writeBar0 State.deviceReset o))

/-! ## Keys of the device (R358) -/

/-- Bytes of a number of bits, lowest first. -/
def bytesOf {n : Nat} (x : BitVec n) : List Byte := toBytes ((n + 7) / 8) x.toNat

/-- The seed of the alias key: the fuse seed with the firmware measurement. -/
def State.aliasSeed (s : State) : List Byte := bytesOf (Config.shake512 (Config.fuseSeed ++ bytesOf s.fwm))

/-- The seed of the ML-KEM key pair: fresh at every reset. -/
def State.kemSeed (s : State) : List Byte := s.aliasSeed ++ toBytes 8 s.resets

/-- The certificate chain. -/
def State.certChain (s : State) : List Byte :=
  Config.mfrCert ++ Config.aliasCert (bytesOf (Config.shake512 Config.fuseSeed)) (Config.falconPublic s.aliasSeed)

/-! ## Firmware (R361) -/

/-- What the checks of an image find: a refusal's detail, or the measurement with the payload; or they wait at a home. -/
inductive Verified where
  | refuse (detail : BitVec 8) (s : State)
  | ok (m : BitVec 512) (payload : List Byte) (s : State)
  | wait (s : State)

/-- The checks of R361 in their order; an image with a poisoned byte fails the check that reads it. -/
def State.verify (s : State) (base : Nat) : Verified :=
  match s.hostReadN s.deviceKey base 4096 with
  | .bad _ _ _ t | .wait t => .wait (s.keepWaits t)
  | .ok h t =>
    let len := bits h 95 64
    let siglen := bits h (1818 * 8 - 1) (1816 * 8)
    let part := fun lo n => toBytes n (h / 2 ^ (8 * lo))
    if t.hostBad base 4096 || bits h 31 0 != 0x5A464C56 || len < 1 || 64 * 2 ^ 20 < len || 1280 < siglen then .refuse 0x01 t
    else
      let pub := part 16 1793
      if Config.shake512 pub != Config.keyHash then .refuse 0x02 t
      else if bits h 63 32 < Config.svnMin.toNat then .refuse 0x03 t
      else
        match t.hostReadN t.deviceKey (base + 4096) len with
        | .bad _ _ _ u | .wait u => .wait (s.keepWaits u)
        | .ok payload u =>
          let m := Config.shake512 (part 0 1816 ++ toBytes len payload)
          if u.hostBad (base + 4096) len || !Config.falconVerify pub (bytesOf m) (part 1818 siglen) then .refuse 0x04 u
          else .ok (Config.shake512 (part 0 4096 ++ toBytes len payload)) (toBytes len payload) u

/-- FIRMWARE_VERIFY: a GO in WAIT or REFUSED, or one already written. An accepted payload is copied into the firmware store. -/
def execFirmwareVerify (s : State) : Out :=
  .next (
    if s.bar0.boot != 1 && s.bar0.boot != 4 && s.bar0.boot != 2 then s
    else
      match s.verify s.bar0.fwaddr.toNat with
      | .wait t => { t with bar0 := { t.bar0 with boot := 2 } }
      | .refuse d t => { t with bar0 := { t.bar0 with boot := 4, bootDetail := d } }
      | .ok m payload t => { t with fwm := m, firmware := payload, bar0 := { t.bar0 with boot := 3, bootDetail := 0 } })

/-! ## The mailbox (R357) -/

/-- A command ends: its result, the vector. -/
def State.smDone (s : State) (result : BitVec 3) (detail : BitVec 8) : State :=
  { s with bar0 := { s.bar0 with smBusy := false, smResult := result, smDetail := detail } }.raiseVec s.bar0.smVec

/-- A refusal: the spec gives no detail, so it is a free value. -/
def State.smRefuse (s : State) : State := s.freeWord.2.smDone 4 (s.freeWord.1.setWidth 8)

/-- The command block's address, in ALL8. -/
def State.smAddr (s : State) : Nat := s.bar0.smcmd.toNat * 256 % 2 ^ 39

/-- A command goes on from an access of its own; while that waits nothing else of the command is done (R352: after a time-out it is
tried again). -/
def State.smAfter (s : State) (r : Agd) (f : Nat → State → State) : State :=
  match r with
  | .ok v t => f v t
  | .bad _ _ _ t | .wait t => s.keepWaits t

/-- The running command, if `mine` picks its OP: refused when its block cannot be read, else run. Commands run one at a time. -/
def State.smCmd (s : State) (mine : Nat → Bool) (f : State → Nat → Nat → SmOperands → State) : State :=
  if !s.bar0.smBusy || !s.serving || s.erasing.isSome then s
  else
    match s.hostKey with
    | none => if mine 6 then s.smRefuse else s
    | some key =>
      s.smAfter (s.hostReadN key s.smAddr 256) fun b t =>
        if mine (b % 256) then f t key (b % 256) (Config.smOperands (BitVec.ofNat 2048 b)) else s

/-! ### ATTEST (R359) -/

/-- LAYOUT: per die log2 of its partition's size, and the mode; a partition without a context has none, so that is open. -/
def State.layout (s : State) : Nat × State :=
  ((List.range 8).map fun d =>
    (bits s.bar0.partcfg.toNat (2 * d + 1) (2 * d) +
      4 * (match (s.partCtxs d).head? with
        | some x => x.mode
        | none => bits s.freeWord.1.toNat (2 * d + 1) (2 * d))) * 2 ^ (4 * d)).foldl (· + ·) 0 |> fun v => (v, s.freeWord.2)

/-- CTXM: 0 for context 0; a number that names no context has no measurement that the spec gives. -/
def State.ctxMeasure (s : State) (ctx : Nat) : BitVec 512 × State :=
  if ctx = 0 then (0, s)
  else
    match s.ctx? ctx with
    | some x => (Config.shake512 (bytesOf x.cb ++ (List.range 64).flatMap fun i => bytesOf (mget (0 : BitVec 256) x.regions0 i)), s)
    | none => (s.freeWord.1.setWidth 512, s.freeWord.2)

/-- KEYM of a context. -/
def State.keyMeasure (s : State) (ctx : Nat) : BitVec 512 :=
  Config.keyMeasure ((s.keys.filter fun k => k.2.owner == ctx).map fun k => (k.1, k.2.owner, k.2.nohost))

/-- n bytes of a list, padded with zeros. -/
def padTo (n : Nat) (bs : List Byte) : List Byte := bs.take n ++ List.replicate (n - bs.length) 0

/-- The report's bytes 0 to 1,943. -/
def State.reportBody (s : State) (o : SmOperands) : List Byte × State :=
  let (lay, s) := s.layout
  let (cm, s) := s.ctxMeasure o.ctx.toNat
  (padTo 8 (toBytes 4 1) ++ bytesOf o.nonce ++ bytesOf Config.romMeasurement ++ bytesOf s.fwm ++ bytesOf Config.fuseMeasurement ++
    toBytes 8 lay ++ padTo 8 (toBytes 4 o.ctx.toNat) ++ bytesOf cm ++ bytesOf (s.keyMeasure o.ctx.toNat) ++
    padTo 1568 (Config.mlkemEncapKey s.kemSeed), s)

/-- The whole report, signed by the alias key. -/
def State.report (s : State) (o : SmOperands) : List Byte × State :=
  let (body, t) := s.reportBody o
  let sig := (Config.falconSign t.aliasSeed (bytesOf (Config.shake512 body))).take 1280
  (padTo 4096 (body ++ toBytes 2 sig.length ++ sig), t)

/-- ATTEST; it also refuses an OP that no command has. -/
def execAttest (s : State) : Out :=
  .next (s.smCmd (fun op => op == 0 || 5 < op) fun t key op o =>
    if 5 < op then t.smRefuse
    else s.smAfter ((t.report o).2.hostWriteN key o.out.toNat 4096 (ofBytes (t.report o).1)) fun _ u => u.smDone 0 0)

/-- CERTS. -/
def execCerts (s : State) : Out :=
  .next (s.smCmd (· == 1) fun t key _ o =>
    s.smAfter (t.hostWriteN key o.out.toNat t.certChain.length (ofBytes t.certChain)) fun _ u => u.smDone 0 0)

/-- SESSION: the wrapping key is SHAKE256 of the shared secret, truncated to 256 bits. -/
def execSession (s : State) : Out :=
  .next (s.smCmd (· == 2) fun t key _ o =>
    s.smAfter (t.hostReadN key o.out.toNat 1568) fun v u =>
      { u with session := some ((Config.shake512 (Config.mlkemDecap u.kemSeed (toBytes 1568 v))).setWidth 256) }.smDone 0 0)

/-- A slot number that may be loaded or erased. -/
def slotOk (n : Nat) : Bool := 1 ≤ n && n ≤ 4095

/-- KEYLOAD: an EMPTY slot becomes LOADED. -/
def execKeyload (s : State) : Out :=
  .next (s.smCmd (· == 3) fun t _ _ o =>
    if !slotOk o.slot || mhas t.keys o.slot then t.smRefuse
    else
      match t.session.bind fun k => Config.aesUnwrap k (o.wrapped.take 72) with
      | none => t.smRefuse
      | some key =>
        { t with keys := mset t.keys o.slot { owner := o.owner.toNat, nohost := o.nohost, key := BitVec.ofNat 512 (ofBytes key) } }.smDone
          0 0)

/-- Lines that caches hold under a key. -/
def State.linesUnder (s : State) (key : Nat) : List Nat :=
  s.linesWhere fun l =>
    (s.caches.any fun e => e.line == l && e.key == key) || (s.ulines.any fun u => u.line == l && u.key == key) ||
    s.regs.any fun r => r.line == l && r.key == key

/-- Operations on their way to the atomic units under a key are performed. -/
def State.drainKeyed (s : State) (key : Nat) : Nat → State
  | 0 => s
  | n + 1 =>
    match s.atomq.findIdx? (·.key == key) with
    | some i => (s.atomUnit i).drainKeyed key n
    | none => s

/-- An access in flight holds a key: an operation of an atomic unit, one that waits at a home, a block of a transfer, or a request of
the host for the slot (R356). -/
def State.keyInFlight (s : State) (slot key : Nat) : Bool :=
  s.atomq.any (·.key == key) || (s.waitq.any fun w => w.key == key && s.waiterAlive w) ||
  (s.procs.any fun p => p.transfers.any fun t => t.blocks.any fun b => !b.moved && b.key == key) ||
  s.inbound.any fun i => match i with
    | .read _ h | .write _ h | .atomic _ h => h.slot == slot
    | .peer _ | .coll _ | .reg _ => false

/-- A slot is EMPTY: nothing is kept that was filled under its key; versions under it go unwritten (log 80). -/
def State.emptySlot (s : State) (slot key : Nat) : State :=
  { s with keys := mdel s.keys slot, erasing := none, icache := s.icache.filter (·.key != key),
           caches := s.caches.filter fun e => !(e.hyp != 0 && e.key == key) }

/-- A slot is erased: accesses that hold its key perform, lines filled under it are written back and invalidated, and it is EMPTY
(R356). -/
def State.eraseSlot (s : State) (slot : Nat) : State :=
  match mfind s.keys slot with
  | none => { s with erasing := none }
  | some k =>
    let key := 2 * k.key.toNat + 1
    let t := s.drainKeyed key s.atomq.length
    if t.keyInFlight slot key then t
    else
      match t.recallLines (t.linesUnder key) with
      | (some line, u) => u.recallAgain line (u.lineRto line)
      | (none, u) => (u.emptySlot slot key).smDone 0 0

/-- KEYERASE: accesses translated from here on wait until the slot is EMPTY. Requests that the host has made for it come first. -/
def execKeyerase (s : State) : Out :=
  .next (match s.erasing with
    | some slot => s.eraseSlot slot
    | none => s.smCmd (· == 4) fun t _ _ o =>
      if mhas t.keys o.slot then { t with erasing := some o.slot }.eraseSlot o.slot else t.smRefuse)

/-- PATHKEY: the path's key, its counters at their start. -/
def execPathkey (s : State) : Out :=
  .next (s.smCmd (· == 5) fun t _ _ o =>
    match t.session.bind fun k => Config.aesUnwrap k (o.wrapped.take 40) with
    | none => t.smRefuse
    | some key =>
      { t with pathKeys := mset t.pathKeys o.node.toNat { enc := o.enc, key := BitVec.ofNat 256 (ofBytes key), sentCtr := [], recvCtr := [] } }.smDone
        0 0)

end Sys2Proof.Machine
end

