-- ==== Sys2Proof/Machine/Reliability.lean ====
section
/-!
DEFINITION. Time, power and reliability (19 R363, R364, R366 to R371; 18 R350, R352): timebase syncs, scrubbing, core failures,
temperature, clocks, links, soft errors and failed parts.
-/
namespace Sys2Proof.Machine

/-- The next sync word of a die is due: one is sent every 1,024 ticks (R363). -/
def State.syncDue (s : State) (die : Nat) : Bool := decide ((mget 0 s.ras.synced die + 1) * 1024 ≤ s.reftime)

/-- A sync word of a die has been sent: syncs missed and the copy's offset are now these. -/
def State.synced (s : State) (die missed : Nat) (skew : Int) : State :=
  { s with ras := { s.ras with synced := mput 0 s.ras.synced die (mget 0 s.ras.synced die + 1),
                               missed := mput 0 s.ras.missed die missed, skew := mput 0 s.ras.skew die skew } }

/-- TIMEBASE_SYNC at a compute die (0 to 7) or a cellar die (8 to 15): its copy is corrected; sixteen missed in a row, or a copy off by
more than one tick, lose the timebase (R363). -/
def execTimebaseSync (o : Sync) (s : State) : Out :=
  .next (
    if 16 ≤ o.die || !s.syncDue o.die then s
    else if o.missed then
      let t := s.synced o.die (mget 0 s.ras.missed o.die + 1) (mget 0 s.ras.skew o.die)
      if 16 ≤ mget 0 s.ras.missed o.die + 1 then t.deviceFatal 7 (o.die % 8) else t
    else if 1 < o.skew.natAbs then (s.synced o.die 0 0).deviceFatal 7 (o.die % 8)
    else s.synced o.die 0 0)

/-- PATROL_SCRUB of a line: a corrected line is rewritten with the same contents and counted (R368). -/
def execPatrolScrub (o : Scrub) (s : State) : Out := .next (if o.corrected then s.corrected else s)

/-- The crews of a failed core trap with ECC (R370). -/
def State.failCrews (s : State) (core : Nat) : State :=
  (s.crews.filter fun c => c.core == core && !c.saved && !c.exited && c.faulted.isNone).foldl (fun s c =>
    let g := c.holder
    s.takeTrap c.uid g 0
      { cause := cECC, late := true, lane := 0, detail := 0, level := 0, epc := c.gangPc g, val := 0 }) s

/-- Failed cores of a die beyond its spares. -/
def Ras.short (r : Ras) (die : Nat) : Bool := mget 2 r.spares die < (r.failedOn die).length

/-- The registers after a core of a die has failed: without a spare left, service is requested and the die is degraded. -/
def Ras.fail (r : Ras) (core : Nat) : Ras :=
  let k := { r with failed := insertSorted core r.failed }
  if k.short (core / 32) then { k with svcreq := true, degr := k.degr ||| BitVec.ofNat 8 (2 ^ (core / 32)) } else k

/-- CORE_FAILURE of a physical core; where no context exists on its die, a spare replaces it at once (R370). -/
def execCoreFailure (core : Nat) (s : State) : Out :=
  .next (
    if 8 ≤ core / 32 || 24 ≤ core % 32 || s.ras.failed.contains core then s
    else
      let ras := s.ras.fail core
      let t : State := { s with ras := if s.idleDies.contains (core / 32) then ras.repair (core / 32) else ras }
      (t.machineCheck 1 0 (core / 32) 0).failCrews core)

/-- Cores of a die that run at the full clock are stretched (R371). -/
def State.stretchDie (s : State) (die : Nat) : State :=
  let (n, t) := s.choose 1050
  let slow := fun (m : SMap Nat) (k : Nat) => if mget 1400 m k = 1400 then mput 1400 m k (350 + n) else m
  { t with ras := { t.ras with mhz := (rangeFrom (die * 32) 24).foldl slow t.ras.mhz } }

/-- THERMAL_EVENT: above 95 °C a die's clocks are stretched until it is below 90 °C; 110 °C is device-fatal (R371). -/
def execThermalEvent (o : Thermal) (s : State) : Out :=
  .next (
    if 8 ≤ o.die then s
    else
      let t : State := { s with ras := { s.ras with temps := mput 0 s.ras.temps o.die o.temp } }
      if 1760 ≤ o.temp.toNat then t.deviceFatal 8 o.die
      else if 1520 < o.temp.toNat then
        { t with ras := { t.ras with hot := insertSorted o.die t.ras.hot } }.stretchDie o.die
      else if o.temp.toNat < 1440 then { t with ras := { t.ras with hot := t.ras.hot.filter (· != o.die) } }
      else t)

/-- CLOCK_STRETCH of a core: 350 to 1,400 MHz, below that maximum on a hot die; stopped only without a block (R364, R371). -/
def execClockStretch (o : Stretch) (s : State) : Out :=
  .next (
    let top := if s.ras.hot.contains (o.core / 32) then 1399 else 1400
    let idle := !s.blocks.any fun b => b.core == o.core && !b.saved
    if o.core / 32 < 8 && o.core % 32 < 24 && ((350 ≤ o.mhz && o.mhz ≤ top) || (o.mhz == 0 && idle)) then
      { s with ras := { s.ras with mhz := mput 1400 s.ras.mhz o.core o.mhz } }
    else s)

/-- LINK_TRAINED (R350). -/
def execLinkTrained (o : Trained) (s : State) : Out :=
  .next { s with ports := modAt s.ports o.port fun p => { p with up := true, lanes := if o.lanes.toNat ≤ 8 then o.lanes else 8, peer := o.peer } }

/-- LINK_DOWN (R352). -/
def execLinkDown (port : Nat) (s : State) : Out :=
  .next { s with ports := modAt s.ports port fun p => { p with up := false, lanes := 0 } }

/-- A cache entry holds the only copy of something: a dirty line, a version, or updates. -/
def CEntry.only (e : CEntry) : Bool := e.st == .m || e.st == .u || e.hyp != 0

/-- The entries of a line that a test picks hold an uncorrectable error, where they are the only copy; a clean copy is fetched again
and counted as corrected (R369). -/
def State.poisonCopies (s : State) (line : Nat) (p : Place → Bool) : State :=
  let hit := fun (e : CEntry) => e.line == line && p e.place && e.only && !e.gone
  if s.caches.any hit then { s with caches := s.caches.map fun e => if hit e then { e with bad := true } else e } else s.corrected

/-- Places of an L1, and of an L2 with its version area and parked copies. -/
def Place.inL1 (p : Place) (core : Nat) : Bool := p == .l1 core
def Place.inL2 : Place → Nat → Bool
  | .l2 d, die | .va d, die | .park d _, die => d == die
  | .l1 _, _ => false

/-- An uncorrectable error: it poisons the data it is in, faults a cellar command, is a machine check of a link, or is device-fatal in
the hub's control state (R265, R366, R367, R369). -/
def State.uncorrected (s : State) (o : SoftErr) : State :=
  match o.site with
  | .core core line => s.poisonCopies line (·.inL1 core)
  | .l2 line => s.poisonCopies line (·.inL2 o.die)
  | .dram line => s.setPoison line true
  | .scratch core piece => s.setPoison (chipLine core (0x80000 + piece * 128)) true
  | .acc core piece => s.modCore core fun k => { k with accBad := insertSorted piece k.accBad }
  | .mail core slot => if (mget [] (s.core core).mail slot).isEmpty then s.corrected
      else s.modCore core fun k => { k with mailBad := insertSorted slot k.mailBad }
  | .coll op => s.modColl op fun j => if j.failed.isNone && !j.rows.isEmpty then { j with failed := some cECC } else j
  | .cellar proc =>
    match s.proc? o.die proc with
    | some p => (s.stopCmd p.cmd { code := stFAULT, cause := cECC }).machineCheck 1 3 o.die 0
    | none => s.corrected
  | .dieLink => s.machineCheck 1 4 o.die 0
  | .scafa => s.machineCheck 1 5 o.die 0
  | .pcie => s.machineCheck 1 6 o.die 0
  | .hub => s.deviceFatal 9 o.die

/-- SOFT_ERROR (R368, R369): errors corrected, or in clean data that is fetched again, are counted. -/
def execSoftError (o : SoftErr) (s : State) : Out :=
  .next (match o.kind with
    | .corrected | .clean => s.corrected
    | .poison => s.uncorrected o)

/-- FAILED_PART (R370). -/
def execFailedPart (o : Part) (s : State) : Out :=
  .next (
    let ask := fun (s : State) => { s with ras := { s.ras with svcreq := true } }
    match o with
    | .dramRow frame spare =>
      if spare then s else ask { s with ras := { s.ras with retired := insertSorted frame s.ras.retired } }
    | .scafaLane port spare =>
      if spare then s
      else ask { s with ports := modAt s.ports port fun p => { p with lanes := if p.lanes = 0 then 0 else p.lanes - 1, up := p.up && decide (1 < p.lanes.toNat) } }
    | .dieLane _ spare => if spare then s else ask s)

end Sys2Proof.Machine
end

