-- ==== Sys2Proof/Machine/Dispatch.lean ====
section
/-!
DEFINITION. The dispatch: one arm for each constructor of Instr, each one direct call of that instruction's meaning.
-/
namespace Sys2Proof.Machine

/-- One instruction, or one step that no word encodes. -/
def exec (i : Instr) (s : State) : Host.Outcome State Fault Refusal :=
  match i with
  | .iadd o => Sys2Proof.Machine.execIadd o s
  | .isub o => Sys2Proof.Machine.execIsub o s
  | .imul o => Sys2Proof.Machine.execImul o s
  | .imulhs o => Sys2Proof.Machine.execImulhs o s
  | .imulhu o => Sys2Proof.Machine.execImulhu o s
  | .imad o => Sys2Proof.Machine.execImad o s
  | .imadws o => Sys2Proof.Machine.execImadws o s
  | .imadwu o => Sys2Proof.Machine.execImadwu o s
  | .iadd64 o => Sys2Proof.Machine.execIadd64 o s
  | .isub64 o => Sys2Proof.Machine.execIsub64 o s
  | .imins o => Sys2Proof.Machine.execImins o s
  | .iminu o => Sys2Proof.Machine.execIminu o s
  | .imaxs o => Sys2Proof.Machine.execImaxs o s
  | .imaxu o => Sys2Proof.Machine.execImaxu o s
  | .iabs o => Sys2Proof.Machine.execIabs o s
  | .idivu o => Sys2Proof.Machine.execIdivu o s
  | .iremu o => Sys2Proof.Machine.execIremu o s
  | .and o => Sys2Proof.Machine.execAnd o s
  | .or o => Sys2Proof.Machine.execOr o s
  | .xor o => Sys2Proof.Machine.execXor o s
  | .andn o => Sys2Proof.Machine.execAndn o s
  | .shl o => Sys2Proof.Machine.execShl o s
  | .shr o => Sys2Proof.Machine.execShr o s
  | .sar o => Sys2Proof.Machine.execSar o s
  | .rotl o => Sys2Proof.Machine.execRotl o s
  | .shl64 o => Sys2Proof.Machine.execShl64 o s
  | .shr64 o => Sys2Proof.Machine.execShr64 o s
  | .sar64 o => Sys2Proof.Machine.execSar64 o s
  | .clz o => Sys2Proof.Machine.execClz o s
  | .popc o => Sys2Proof.Machine.execPopc o s
  | .brev o => Sys2Proof.Machine.execBrev o s
  | .bfeu o => Sys2Proof.Machine.execBfeu o s
  | .bfes o => Sys2Proof.Machine.execBfes o s
  | .bfi o => Sys2Proof.Machine.execBfi o s
  | .bysel o => Sys2Proof.Machine.execBysel o s
  | .fshr o => Sys2Proof.Machine.execFshr o s
  | .icmps o => Sys2Proof.Machine.execIcmps o s
  | .icmpu o => Sys2Proof.Machine.execIcmpu o s
  | .icmp64 o => Sys2Proof.Machine.execIcmp64 o s
  | .sel o => Sys2Proof.Machine.execSel o s
  | .plop o => Sys2Proof.Machine.execPlop o s
  | .pmov o => Sys2Proof.Machine.execPmov o s
  | .lea o => Sys2Proof.Machine.execLea o s
  | .mov o => Sys2Proof.Machine.execMov o s
  | .movi o => Sys2Proof.Machine.execMovi o s
  | .movl o => Sys2Proof.Machine.execMovl o s
  | .movsr o => Sys2Proof.Machine.execMovsr o s
  | .fadd o => Sys2Proof.Machine.execFadd o s
  | .fsub o => Sys2Proof.Machine.execFsub o s
  | .fmul o => Sys2Proof.Machine.execFmul o s
  | .fmac o => Sys2Proof.Machine.execFmac o s
  | .fmin o => Sys2Proof.Machine.execFmin o s
  | .fmax o => Sys2Proof.Machine.execFmax o s
  | .fcmp o => Sys2Proof.Machine.execFcmp o s
  | .fclass o => Sys2Proof.Machine.execFclass o s
  | .frcp o => Sys2Proof.Machine.execFrcp o s
  | .frsq o => Sys2Proof.Machine.execFrsq o s
  | .fsqrt o => Sys2Proof.Machine.execFsqrt o s
  | .fdiv o => Sys2Proof.Machine.execFdiv o s
  | .fex2 o => Sys2Proof.Machine.execFex2 o s
  | .flg2 o => Sys2Proof.Machine.execFlg2 o s
  | .fsin o => Sys2Proof.Machine.execFsin o s
  | .fcos o => Sys2Proof.Machine.execFcos o s
  | .ftanh o => Sys2Proof.Machine.execFtanh o s
  | .badd2 o => Sys2Proof.Machine.execBadd2 o s
  | .bmul2 o => Sys2Proof.Machine.execBmul2 o s
  | .bfma2 o => Sys2Proof.Machine.execBfma2 o s
  | .bmin2 o => Sys2Proof.Machine.execBmin2 o s
  | .bmax2 o => Sys2Proof.Machine.execBmax2 o s
  | .hadd2 o => Sys2Proof.Machine.execHadd2 o s
  | .hmul2 o => Sys2Proof.Machine.execHmul2 o s
  | .hfma2 o => Sys2Proof.Machine.execHfma2 o s
  | .dadd o => Sys2Proof.Machine.execDadd o s
  | .dmul o => Sys2Proof.Machine.execDmul o s
  | .dfma o => Sys2Proof.Machine.execDfma o s
  | .cvtF32S32 o => Sys2Proof.Machine.execCvtF32S32 o s
  | .cvtF32U32 o => Sys2Proof.Machine.execCvtF32U32 o s
  | .cvtS32F32 o => Sys2Proof.Machine.execCvtS32F32 o s
  | .cvtU32F32 o => Sys2Proof.Machine.execCvtU32F32 o s
  | .cvtBf16F32 o => Sys2Proof.Machine.execCvtBf16F32 o s
  | .cvtF32Bf16 o => Sys2Proof.Machine.execCvtF32Bf16 o s
  | .cvtF16F32 o => Sys2Proof.Machine.execCvtF16F32 o s
  | .cvtF32F16 o => Sys2Proof.Machine.execCvtF32F16 o s
  | .cvtE4m3F32 o => Sys2Proof.Machine.execCvtE4m3F32 o s
  | .cvtF32E4m3 o => Sys2Proof.Machine.execCvtF32E4m3 o s
  | .cvtE5m2F32 o => Sys2Proof.Machine.execCvtE5m2F32 o s
  | .cvtF32E5m2 o => Sys2Proof.Machine.execCvtF32E5m2 o s
  | .cvtF64F32 o => Sys2Proof.Machine.execCvtF64F32 o s
  | .cvtF32F64 o => Sys2Proof.Machine.execCvtF32F64 o s
  | .quant o => Sys2Proof.Machine.execQuant o s
  | .fexpo o => Sys2Proof.Machine.execFexpo o s
  | .qalign o => Sys2Proof.Machine.execQalign o s
  | .qunalign o => Sys2Proof.Machine.execQunalign o s
  | .idp4s o => Sys2Proof.Machine.execIdp4s o s
  | .idp4u o => Sys2Proof.Machine.execIdp4u o s
  | .shfli o => Sys2Proof.Machine.execShfli o s
  | .shflup o => Sys2Proof.Machine.execShflup o s
  | .shfldn o => Sys2Proof.Machine.execShfldn o s
  | .shflx o => Sys2Proof.Machine.execShflx o s
  | .ballot o => Sys2Proof.Machine.execBallot o s
  | .vote o => Sys2Proof.Machine.execVote o s
  | .bcast o => Sys2Proof.Machine.execBcast o s
  | .scan o => Sys2Proof.Machine.execScan o s
  | .redux o => Sys2Proof.Machine.execRedux o s
  | .matchLanes o => Sys2Proof.Machine.execMatchLanes o s
  | .spcomp o => Sys2Proof.Machine.execSpcomp o s
  | .spexp o => Sys2Proof.Machine.execSpexp o s
  | .swz4 o => Sys2Proof.Machine.execSwz4 o s
  | .lsort o => Sys2Proof.Machine.execLsort o s
  | .bra o => Sys2Proof.Machine.execBra o s
  | .brx o => Sys2Proof.Machine.execBrx o s
  | .call o => Sys2Proof.Machine.execCall o s
  | .ret o => Sys2Proof.Machine.execRet o s
  | .join => Sys2Proof.Machine.execJoin s
  | .regang id => Sys2Proof.Machine.execRegang id s
  | .exit o => Sys2Proof.Machine.execExit o s
  | .nop ext => Sys2Proof.Machine.execNop ext s
  | .region => Sys2Proof.Machine.execRegion s
  | .sleep o => Sys2Proof.Machine.execSleep o s
  | .trap o => Sys2Proof.Machine.execTrap o s
  | .setprio o => Sys2Proof.Machine.execSetprio o s
  | .setsr o => Sys2Proof.Machine.execSetsr o s
  | .ld8 o => Sys2Proof.Machine.execLd8 o s
  | .ld16 o => Sys2Proof.Machine.execLd16 o s
  | .ld32 o => Sys2Proof.Machine.execLd32 o s
  | .ld64 o => Sys2Proof.Machine.execLd64 o s
  | .ld128 o => Sys2Proof.Machine.execLd128 o s
  | .st8 o => Sys2Proof.Machine.execSt8 o s
  | .st16 o => Sys2Proof.Machine.execSt16 o s
  | .st32 o => Sys2Proof.Machine.execSt32 o s
  | .st64 o => Sys2Proof.Machine.execSt64 o s
  | .st128 o => Sys2Proof.Machine.execSt128 o s
  | .ldl o => Sys2Proof.Machine.execLdl o s
  | .stl o => Sys2Proof.Machine.execStl o s
  | .pref o => Sys2Proof.Machine.execPref o s
  | .cleanr o => Sys2Proof.Machine.execCleanr o s
  | .invr o => Sys2Proof.Machine.execInvr o s
  | .uflush o => Sys2Proof.Machine.execUflush o s
  | .fence o => Sys2Proof.Machine.execFence o s
  | .barinit o => Sys2Proof.Machine.execBarinit o s
  | .bararr o => Sys2Proof.Machine.execBararr o s
  | .barexp o => Sys2Proof.Machine.execBarexp o s
  | .barwait o => Sys2Proof.Machine.execBarwait o s
  | .phase o => Sys2Proof.Machine.execPhase o s
  | .msend o => Sys2Proof.Machine.execMsend o s
  | .evset o => Sys2Proof.Machine.execEvset o s
  | .evclr o => Sys2Proof.Machine.execEvclr o s
  | .waitany o => Sys2Proof.Machine.execWaitany o s
  | .hypnew o => Sys2Proof.Machine.execHypnew o s
  | .hypenter o => Sys2Proof.Machine.execHypenter o s
  | .hypres o => Sys2Proof.Machine.execHypres o s
  | .hypqry o => Sys2Proof.Machine.execHypqry o s
  | .ldna o => Sys2Proof.Machine.execLdna o s
  | .atom o => Sys2Proof.Machine.execAtom o s
  | .red o => Sys2Proof.Machine.execRed o s
  | .redm o => Sys2Proof.Machine.execRedm o s
  | .cas o => Sys2Proof.Machine.execCas o s
  | .casgt o => Sys2Proof.Machine.execCasgt o s
  | .casv o => Sys2Proof.Machine.execCasv o s
  | .caspt o => Sys2Proof.Machine.execCaspt o s
  | .cas128 o => Sys2Proof.Machine.execCas128 o s
  | .uadd32 o => Sys2Proof.Machine.execUadd32 o s
  | .uadd64 o => Sys2Proof.Machine.execUadd64 o s
  | .umins o => Sys2Proof.Machine.execUmins o s
  | .umaxs o => Sys2Proof.Machine.execUmaxs o s
  | .uminu o => Sys2Proof.Machine.execUminu o s
  | .umaxu o => Sys2Proof.Machine.execUmaxu o s
  | .uminf o => Sys2Proof.Machine.execUminf o s
  | .umaxf o => Sys2Proof.Machine.execUmaxf o s
  | .uor64 o => Sys2Proof.Machine.execUor64 o s
  | .uacc o => Sys2Proof.Machine.execUacc o s
  | .usnap o => Sys2Proof.Machine.execUsnap o s
  | .tdset o => Sys2Proof.Machine.execTdset o s
  | .tdget o => Sys2Proof.Machine.execTdget o s
  | .mload o => Sys2Proof.Machine.execMload o s
  | .mloadsp o => Sys2Proof.Machine.execMloadsp o s
  | .mma o => Sys2Proof.Machine.execMma o s
  | .accz o => Sys2Proof.Machine.execAccz o s
  | .accrd o => Sys2Proof.Machine.execAccrd o s
  | .accwr o => Sys2Proof.Machine.execAccwr o s
  | .copy o => Sys2Proof.Machine.execCopy o s
  | .copyg o => Sys2Proof.Machine.execCopyg o s
  | .coll o => Sys2Proof.Machine.execColl o s
  | .cell o => Sys2Proof.Machine.execCell o s
  | .task o => Sys2Proof.Machine.execTask o s
  | .winarm o => Sys2Proof.Machine.execWinarm o s
  | .winclr o => Sys2Proof.Machine.execWinclr o s
  | .csrr o => Sys2Proof.Machine.execCsrr o s
  | .csrw o => Sys2Proof.Machine.execCsrw o s
  | .trapret o => Sys2Proof.Machine.execTrapret o s
  | .trapmsk o => Sys2Proof.Machine.execTrapmsk o s
  | .tlbinv o => Sys2Proof.Machine.execTlbinv o s
  | .halt o => Sys2Proof.Machine.execHalt o s
  | .qstat o => Sys2Proof.Machine.execQstat o s
  | .qstatAdv o => Sys2Proof.Machine.execQstatAdv o s
  | .cli d imm => Sys2Proof.Machine.execCli d imm s
  | .cadd o => Sys2Proof.Machine.execCadd o s
  | .csub o => Sys2Proof.Machine.execCsub o s
  | .cshl d a k => Sys2Proof.Machine.execCshl d a k s
  | .cand o => Sys2Proof.Machine.execCand o s
  | .cbr cc a b off => Sys2Proof.Machine.execCbr cc a b off s
  | .cjmp off => Sys2Proof.Machine.execCjmp off s
  | .cloop a off => Sys2Proof.Machine.execCloop a off s
  | .cld o => Sys2Proof.Machine.execCld o s
  | .cst o => Sys2Proof.Machine.execCst o s
  | .cldx o => Sys2Proof.Machine.execCldx o s
  | .vld o => Sys2Proof.Machine.execVld o s
  | .vst o => Sys2Proof.Machine.execVst o s
  | .vaddf o => Sys2Proof.Machine.execVaddf o s
  | .vaddb o => Sys2Proof.Machine.execVaddb o s
  | .vmulf o => Sys2Proof.Machine.execVmulf o s
  | .vfmaf o => Sys2Proof.Machine.execVfmaf o s
  | .vmaxf o => Sys2Proof.Machine.execVmaxf o s
  | .vrsqf d a => Sys2Proof.Machine.execVrsqf d a s
  | .vcvtb o => Sys2Proof.Machine.execVcvtb o s
  | .vscal o => Sys2Proof.Machine.execVscal o s
  | .vred o => Sys2Proof.Machine.execVred o s
  | .catom o => Sys2Proof.Machine.execCatom o s
  | .csig a => Sys2Proof.Machine.execCsig a s
  | .cfence => Sys2Proof.Machine.execCfence s
  | .chalt => Sys2Proof.Machine.execChalt s
  | .climitExpiry id => Sys2Proof.Machine.execClimitExpiry id s
  | .cldxTransferComplete stack proc idx => Sys2Proof.Machine.execCldxTransferComplete stack proc idx s
  | .cellarCommandStart stack => Sys2Proof.Machine.execCellarCommandStart stack s
  | .atomicUnitOperation idx => Sys2Proof.Machine.execAtomicUnitOperation idx s
  | .lateTrap o => Sys2Proof.Machine.execLateTrap o s
  | .orphanRedirection o => Sys2Proof.Machine.execOrphanRedirection o s
  | .blockAdmission o => Sys2Proof.Machine.execBlockAdmission o s
  | .recordFinish run => Sys2Proof.Machine.execRecordFinish run s
  | .sleepExpiry o => Sys2Proof.Machine.execSleepExpiry o s
  | .barwaitResume o => Sys2Proof.Machine.execBarwaitResume o s
  | .eventTimer o => Sys2Proof.Machine.execEventTimer o s
  | .waitanyResume o => Sys2Proof.Machine.execWaitanyResume o s
  | .mailboxDelivery idx => Sys2Proof.Machine.execMailboxDelivery idx s
  | .uRegistration idx => Sys2Proof.Machine.execURegistration idx s
  | .hypScrubComplete o => Sys2Proof.Machine.execHypScrubComplete o s
  | .matrixQueueStart o => Sys2Proof.Machine.execMatrixQueueStart o s
  | .matrixComplete o => Sys2Proof.Machine.execMatrixComplete o s
  | .copyChunk o => Sys2Proof.Machine.execCopyChunk o s
  | .copyComplete o => Sys2Proof.Machine.execCopyComplete o s
  | .collSend op => Sys2Proof.Machine.execCollSend op s
  | .collReceive o => Sys2Proof.Machine.execCollReceive o s
  | .collComplete o => Sys2Proof.Machine.execCollComplete o s
  | .recordLaunch idx => Sys2Proof.Machine.execRecordLaunch idx s
  | .cellarTaskSubmit run => Sys2Proof.Machine.execCellarTaskSubmit run s
  | .hostSignal run => Sys2Proof.Machine.execHostSignal run s
  | .attachedCollective o => Sys2Proof.Machine.execAttachedCollective o s
  | .doorbell o => Sys2Proof.Machine.execDoorbell o s
  | .launch o => Sys2Proof.Machine.execLaunch o s
  | .packetNop q => Sys2Proof.Machine.execPacketNop q s
  | .create => Sys2Proof.Machine.execCreate s
  | .destroy => Sys2Proof.Machine.execDestroy s
  | .kill => Sys2Proof.Machine.execKill s
  | .peerRequest o => Sys2Proof.Machine.execPeerRequest o s
  | .scafaPressRecall o => Sys2Proof.Machine.execScafaPressRecall o s
  | .scafaContribution o => Sys2Proof.Machine.execScafaContribution o s
  | .scafaTimeout line => Sys2Proof.Machine.execScafaTimeout line s
  | .pageWalk o => Sys2Proof.Machine.execPageWalk o s
  | .regionRewrite ctx => Sys2Proof.Machine.execRegionRewrite ctx s
  | .regionRewriteComplete ctx => Sys2Proof.Machine.execRegionRewriteComplete ctx s
  | .migrationGo ctx => Sys2Proof.Machine.execMigrationGo ctx s
  | .migrationComplete ctx => Sys2Proof.Machine.execMigrationComplete ctx s
  | .migrationRetire ctx => Sys2Proof.Machine.execMigrationRetire ctx s
  | .faultRecord pdev => Sys2Proof.Machine.execFaultRecord pdev s
  | .frespResume o => Sys2Proof.Machine.execFrespResume o s
  | .frespDeliver o => Sys2Proof.Machine.execFrespDeliver o s
  | .frespKill o => Sys2Proof.Machine.execFrespKill o s
  | .preemptSoft pdev => Sys2Proof.Machine.execPreemptSoft pdev s
  | .preemptHard pdev => Sys2Proof.Machine.execPreemptHard pdev s
  | .preemptRestore o => Sys2Proof.Machine.execPreemptRestore o s
  | .t1Expiry pdev => Sys2Proof.Machine.execT1Expiry pdev s
  | .t2Expiry pdev => Sys2Proof.Machine.execT2Expiry pdev s
  | .preemptSave pdev => Sys2Proof.Machine.execPreemptSave pdev s
  | .hostRead o => Sys2Proof.Machine.execHostRead o s
  | .hostWrite o => Sys2Proof.Machine.execHostWrite o s
  | .hostAtomic o => Sys2Proof.Machine.execHostAtomic o s
  | .mqdoor wr => Sys2Proof.Machine.execMqdoor wr s
  | .registerWrite o => Sys2Proof.Machine.execRegisterWrite o s
  | .msixUnmask vec => Sys2Proof.Machine.execMsixUnmask vec s
  | .pcieCompletionTimeout o => Sys2Proof.Machine.execPcieCompletionTimeout o s
  | .attest => Sys2Proof.Machine.execAttest s
  | .certs => Sys2Proof.Machine.execCerts s
  | .session => Sys2Proof.Machine.execSession s
  | .keyload => Sys2Proof.Machine.execKeyload s
  | .keyerase => Sys2Proof.Machine.execKeyerase s
  | .pathkey => Sys2Proof.Machine.execPathkey s
  | .deviceReset => Sys2Proof.Machine.execDeviceReset s
  | .bootctlReset => Sys2Proof.Machine.execBootctlReset s
  | .firmwareVerify => Sys2Proof.Machine.execFirmwareVerify s
  | .partcfgWrite v => Sys2Proof.Machine.execPartcfgWrite v s
  | .timebaseSync o => Sys2Proof.Machine.execTimebaseSync o s
  | .crossDieTimeout o => Sys2Proof.Machine.execCrossDieTimeout o s
  | .patrolScrub o => Sys2Proof.Machine.execPatrolScrub o s
  | .coreFailure core => Sys2Proof.Machine.execCoreFailure core s
  | .thermalEvent o => Sys2Proof.Machine.execThermalEvent o s
  | .clockStretch o => Sys2Proof.Machine.execClockStretch o s
  | .linkTrained o => Sys2Proof.Machine.execLinkTrained o s
  | .linkDown port => Sys2Proof.Machine.execLinkDown port s
  | .softError o => Sys2Proof.Machine.execSoftError o s
  | .failedPart o => Sys2Proof.Machine.execFailedPart o s

end Sys2Proof.Machine
end

