-- ==== Sys2Proof/Machine/Inputs.lean ====
section
/-!
DEFINITION. The choices of the hardware that no program makes and no step of the opcode table names, beside the evictions of
Machine/Cache.lean: instruction-cache fills (06 R132), TLB and pointer-entry evictions (16 R315), blocks of a transfer (10 R261),
requests that wait at a home (05 R116; 18 R346, R351), and time (01 R9; 19 R363). Each comes as an input of the agenda (log 1).
-/
namespace Sys2Proof.Machine

/-! ## Instruction caches, TLBs and walkers -/

/-- Where a core fetches an address of a context from. -/
def State.fetchPlace (s : State) (core : Nat) (x : Ctx) (va : BitVec 64) : Option (Nat × Nat) :=
  match s.translate (.core core) x va false true (fun _ => true) with
  | .ok (.dram _ loc key _) => some (loc, key)
  | .ok (.host _ _) | .ok (.rmt _ _) | .ok (.chip _ _ _) | .error _ => none

/-- A core's instruction cache takes the word at an address as its home gives it, dated now (R132). -/
def State.icFill (s : State) (core ctx : Nat) (va : BitVec 64) : State :=
  match s.ctx? ctx with
  | none => s
  | some x =>
    match s.fetchPlace core x va, s.fetchWord core (s.draws + 1) x va with
    | some (loc, key), .word w =>
      { s with icache := (s.icache.filter fun e => !(e.core == core && e.loc == loc && e.key == key)) ++ [⟨core, loc, key, w, s.draws⟩] }
    | _, _ => s

def State.icDrop (s : State) (core loc : Nat) : State :=
  { s with icache := s.icache.filter fun e => !(e.core == core && e.loc == loc) }

def State.tlbDrop (s : State) (a : Agent) (ctx : Nat) (va : BitVec 64) : State :=
  match s.tlbHit a ctx va with
  | none => s
  | some t => { s with tlb := s.tlb.filter (· != t) }

def State.ptrDrop (s : State) (die ctx level upper : Nat) : State :=
  { s with ptrs := s.ptrs.filter fun p => !(p.die == die && p.ctx == ctx && p.level == level && p.upper == upper) }

/-! ## Blocks of a transfer (R261, R276) -/

/-- One block of a processor's idx-th transfer moves. -/
def State.cldxMove (s : State) (stack proc idx block : Nat) (mask : BitVec 64) : State :=
  match s.proc? stack proc with
  | none => s
  | some p => s.stepBlock p idx block mask

/-! ## Requests that wait at a home (R116, R324, R346, R351) -/

/-- A waiting request tried again. -/
def State.tryIn (s : State) : Inbound → State
  | .peer o => s.peerTry o
  | .coll o => s.collTry o
  | .read o h => s.readTry o h
  | .write o h => s.writeTry o h
  | .atomic o h => s.atomicTry o h
  | .reg o => s.writeBar0 State.deviceReset o

/-- The nth waiting request is tried, unless one it may not pass is ahead of it; it keeps its place while it waits. -/
def State.retry (s : State) (n : Nat) : State :=
  match s.inbound[n]? with
  | none => s
  | some i =>
    if (s.inbound.take n).any (·.ahead i) then s
    else
      let t := { s with inbound := [] }.tryIn i
      if t.resets = s.resets then { t with inbound := s.inbound.take n ++ t.inbound ++ s.inbound.drop (n + 1) } else t

/-! ## Time -/

/-- n ticks of the reference timebase. -/
def State.tick (s : State) (n : Nat) : State := { s with reftime := s.reftime + n }

/-- A die's copy of reftime runs a tick ahead or behind until its next sync; copies never differ by more than one tick (R363). -/
def State.drift (s : State) (die : Nat) (ahead : Bool) : State :=
  let d : Int := if ahead then 1 else -1
  if die < 16 && s.ras.skew.all fun e => e.2 != -d then { s with ras := { s.ras with skew := mput 0 s.ras.skew die d } } else s

/-- n cycles of a core's clock, unless it is stopped (R9, R371). -/
def State.coreTick (s : State) (core n : Nat) : State :=
  if mget 1400 s.ras.mhz core = 0 then s else { s with clock := mput 0 s.clock core (mget 0 s.clock core + n) }

end Sys2Proof.Machine
end

