-- ==== Sys2Proof/Machine/Issue.lean ====
section
/-!
DEFINITION. Issue: fetching and checking a gang's next instruction (06 R128, R129, R132; 17 R329), what it waits for (02 R35, R39;
06 R136), lookahead windows (06 R130), the schedulers (02 R34, R35), cellar processors (10 R250, R259), and what moves when the
agenda names nothing (log 1).
-/
namespace Sys2Proof.Machine

/-! ## Fetch and check (R129) -/

/-- What a gang finds at its pc. -/
inductive Fetch where
  | instr (i : Instr) (len : Nat)
  /-- ILLEGAL or PRIV at the instruction, of this length -/
  | bad (cause : BitVec 8) (len : Nat)
  /-- the fetch of the word at `epc` faults; `len` is the instruction's length where a word has told it -/
  | fault (cause detail : BitVec 8) (level : Nat) (epc : BitVec 64) (len : Option Nat)
  | ecc (err : ErrAt) (epc : BitVec 64) (len : Option Nat)
  | collapse (line : Nat) (epc : BitVec 64) (len : Option Nat)
  | wait
  deriving DecidableEq, Repr

/-- The words after the first, n of them from an address. -/
def State.fetchRest (s : State) (core since : Nat) (x : Ctx) (len : Nat) : Nat → BitVec 64 → Except Fetch (List Word)
  | 0, _ => .ok []
  | n + 1, va =>
    match s.fetchWord core since x va with
    | .fault k d l => .error (.fault k d l va (some len))
    | .ecc e => .error (.ecc e va (some len))
    | .collapse line => .error (.collapse line va (some len))
    | .wait => .error .wait
    | .word w =>
      match s.fetchRest core since x len n (va + 4) with
      | .ok ws => .ok (w :: ws)
      | .error e => .error e

/-- The crew may use a privileged opcode whose word 0 is w (R129, R329). -/
def State.mayPriv (s : State) (c : Crew) (w : Word) : Bool :=
  match (wordOpc w).toNat with
  | 0xF0 | 0xF1 => s.mayCsr c (w.extractLsb' 0 14).toNat
  | 0xF2 | 0xF3 | 0xF5 => s.mayTrap c
  | _ => s.privCtx c.ctx

/-- When the launch of a crew became READY, as instruction-cache words are dated (R132). -/
def State.codeSince (s : State) (c : Crew) : Nat :=
  match s.run? c.run with
  | some r => r.readyDraw
  | none => 0

/-- The instruction at a crew's address, with the checks of R129 in their order. -/
def State.fetchInstr (s : State) (c : Crew) (x : Ctx) (va : BitVec 64) : Fetch :=
  match s.fetchWord c.core (s.codeSince c) x va with
  | .fault k d l => .fault k d l va none
  | .ecc e => .ecc e va none
  | .collapse line => .collapse line va none
  | .wait => .wait
  | .word w =>
    let form := Form.ofCode (w.extractLsb' 30 2)
    if !opcAssigned (wordOpc w) then .bad cILLEGAL form.bytes
    else if opcPrivileged (wordOpc w) && !s.mayPriv c w then .bad cPRIV form.bytes
    else if !lenOk (wordOpc w) form then .bad cILLEGAL form.bytes
    else
      match s.fetchRest c.core (s.codeSince c) x form.bytes (form.bytes / 4 - 1) (va + 4) with
      | .error e => e
      | .ok ws =>
        match decode (w :: ws) with
        | .error _ => .bad cILLEGAL form.bytes
        | .ok (i, len) => if i.uses.ok c.vregs then .instr i len else .bad cILLEGAL len

/-! ## Registers an instruction meets -/

/-- A register of a slice: scalar n, or vector lane × 128 + n. -/
structure RKey where
  slice : Nat
  sc : Bool
  key : Nat
  deriving DecidableEq, Repr

/-- The registers of a use in some lanes and slices. -/
def RegUse.keys (r : RegUse) (lanes slices : List Nat) : List RKey :=
  if r.sc then slices.flatMap fun i => (rangeFrom r.n r.k).map fun n => ⟨i, true, n⟩
  else lanes.flatMap fun l => (rangeFrom r.n r.k).map fun n => ⟨l / 4, false, vkey l n⟩

/-- Lanes of a gang, whether active or not. -/
def Crew.gangLanes (c : Crew) (g : Nat) : List Nat := c.lanes.filter (c.reachable g)

/-- The registers that gang g's instruction reads. -/
def Crew.readKeys (c : Crew) (g : Nat) (i : Instr) : List RKey :=
  let ps := c.parts g i.guard
  if ps.isEmpty then [] else i.uses.reads.flatMap fun r => r.keys (if i.uses.cross then c.gangLanes g else ps) (slicesOf ps)

/-- The registers it writes. -/
def Crew.writeKeys (c : Crew) (g : Nat) (i : Instr) : List RKey :=
  let ps := c.parts g i.guard
  if ps.isEmpty then [] else i.uses.writes.flatMap fun r => r.keys ps (if i.uses.wide then c.gangSlices g else slicesOf ps)

def Crew.keyGet (c : Crew) (k : RKey) : Word := if k.sc then c.sget k.slice k.key else mget 0 c.v k.key
def Crew.keySet (c : Crew) (k : RKey) (w : Word) : Crew :=
  if k.sc then c.sset k.slice k.key w else { c with v := mput 0 c.v k.key w }

/-- The operation a register awaits (R136). -/
def Crew.keyPend (c : Crew) (k : RKey) : Option Nat :=
  match c.slices[k.slice]? with
  | some x => if k.sc then mfind x.spend k.key else mfind x.vpend k.key
  | none => none
def Crew.keySetPend (c : Crew) (k : RKey) (op : Nat) : Crew :=
  c.modSlice k.slice fun x =>
    if k.sc then { x with spend := mset x.spend k.key op } else { x with vpend := mset x.vpend k.key op }

/-- The entries of a slice's open windows for a register (R130). -/
def Crew.keyLa (c : Crew) (k : RKey) : List LaReg :=
  match c.slices[k.slice]? with
  | some x => x.la.flatMap fun a => a.regs.filter fun r => r.sc == k.sc && r.key == k.key
  | none => []

/-- The gang waits for a register: pending, outside every window of the operation that writes it (R130, R136). -/
def Crew.keyBusy (c : Crew) (k : RKey) : Bool :=
  match c.keyPend k with
  | some op => !(c.keyLa k).any fun r => r.new == .op op
  | none => false

/-- A register holds no result because its access has faulted (R39). -/
def Crew.keyLate (c : Crew) (k : RKey) : Bool :=
  (c.slices[k.slice]?).any fun x => x.lateHit && if k.sc then x.slate.contains k.key else x.vlate.contains k.key

/-- Gang g stops before this instruction (R39). -/
def Crew.stopsAt (c : Crew) (g : Nat) (i : Instr) : Bool :=
  c.late.isSome && ((i.waitsForChecks && (c.gangSlices g).any fun n => (c.slices[n]?).any Slice.lateHit) ||
    (c.readKeys g i).any c.keyLate)

/-- A new write ends the memory of an access that faulted (R39). -/
def Crew.forgetLate (c : Crew) (ks : List RKey) : Crew :=
  if c.late.isNone then c
  else ks.foldl (fun c k => c.modSlice k.slice fun x =>
    if k.sc then { x with slate := x.slate.filter (· != k.key) } else { x with vlate := x.vlate.filter (· != k.key) }) c

/-! ## Lookahead windows (R130) -/

/-- What the instruction reads of registers that open windows leave unchecked: the newest value, or an old one of any of the windows, by
free choice. -/
def State.laReads (s : State) (c : Crew) : List RKey → List (RKey × Word) × State
  | [] => ([], s)
  | k :: ks =>
    let olds := (c.keyLa k).map (·.old)
    if olds.isEmpty then s.laReads c ks
    else
      let (n, s) := s.choose (olds.length + 1)
      let (rest, s) := s.laReads c ks
      match olds[n]? with
      | some w => ((k, w) :: rest, s)
      | none => (rest, s)

/-- One register that an instruction in some windows has written: its own value stays, or the result of an earlier instruction; a word
still to come that is not the one chosen will be dropped. -/
def State.laWrite (s : State) (before : Crew) (k : RKey) : State :=
  match before.keyLa k, s.crew? before.uid with
  | r :: rs, some c =>
    if c.keyLate k then s
    else
      let (n, s) := s.choose (rs.length + 2)
      let late := (before.keyPend k).filter fun id => (r :: rs).any fun q => q.new == .op id
      let overtake := fun (c : Crew) => match late with
        | some id => if c.keyPend k == some id then
            c.modSlice k.slice fun x => { x with drops := (k.sc, k.key) :: x.drops.filter (· != (k.sc, k.key)) } else c
        | none => c
      match (((r :: rs)[n]?).map LaReg.new) with
      | none => s.setCrew (overtake c)
      | some (.word w) => s.setCrew (overtake (c.keySet k w))
      | some (.op id) =>
        if late == some id then s.setCrew ((c.keySet k (before.keyGet k)).keySetPend k id) else s.setCrew (overtake c)
  | [], _ | _ :: _, none => s

/-- The windows of a slice after an instruction has issued: one less to go, and the instruction's own. -/
def Crew.laNext (c before : Crew) (gang : List Nat) (la : Nat) (writes : List RKey) : Crew :=
  { c with slices := c.slices.mapIdx fun i x =>
      if !gang.contains i then x
      else
        let kept := x.la.filterMap fun a => if a.left ≤ 1 then none else some { a with left := a.left - 1 }
        let mine := (writes.filter (·.slice == i)).map fun k =>
          { sc := k.sc, key := k.key, old := before.keyGet k,
            new := match c.keyPend k with
              | some op => LaNew.op op
              | none => LaNew.word (c.keyGet k) : LaReg }
        { x with la := if la = 0 || mine.isEmpty then kept else kept ++ [⟨la, mine⟩] } }

/-- No window is open and none opens. -/
def Crew.noLa (c : Crew) (i : Instr) : Bool := i.la == 0 && c.slices.all fun x => x.la.isEmpty

/-- A jump: the one kind of instruction that can issue and leave its crew as it was. -/
def Instr.jumps : Instr → Bool
  | .bra _ | .brx _ | .call _ | .ret _ => true
  | _ => false

/-- An instruction of gang g runs with the lookahead rules around it (R130): `before` is the crew as it issues. What was read in place
of a newer value is put back where the instruction has not written. -/
def State.laRun (s : State) (before : Crew) (g : Nat) (i : Instr) : Out :=
  if before.noLa i then exec i s
  else
    let writes := before.writeKeys g i
    let (olds, s) := s.laReads before (before.readKeys g i)
    let swapped := olds.foldl (fun c o => c.keySet o.1 o.2) before
    let putBack := fun (p : RKey → Bool) (c : Crew) => olds.foldl (fun c o => if p o.1 then c.keySet o.1 (before.keyGet o.1) else c) c
    match exec i (s.setCrew swapped) with
    | .fault f => .fault f
    | .refused r => .refused r
    | .next t =>
      match t.crew? before.uid with
      | none => .next t
      | some c =>
        if (!Instr.jumps i && c == swapped) || c.tm != before.tm || c.faulted != before.faulted then
          .next (t.setCrew (putBack (fun _ => true) c))
        else
          let t := t.setCrew (putBack (fun k => !writes.contains k || c.keyLate k || (c.keyPend k).isSome) c)
          let t := writes.foldl (fun t k => t.laWrite before k) t
          .next (t.modCrew before.uid (·.laNext before (before.gangSlices g) i.la writes))

/-! ## One gang (R35) -/

/-- A crew takes part in issue: resident on a core that works, running, and not stopped. -/
def State.crewRuns (s : State) (c : Crew) : Bool :=
  !(c.saved || c.preempted || c.stopped || c.faulted.isSome || c.orphan.isSome) && !s.ras.failed.contains c.core &&
    !c.gangs.isEmpty

/-- The gang waits at nothing. -/
def Crew.gangFree (c : Crew) (g : Nat) : Bool :=
  (c.gangSlices g).all fun i => (c.slices[i]?).any fun x => x.wait == .none

/-- The gang stands at a HYPRES that has not taken effect, or has refuted the crew's own hypothesis and is not yet answered: what follows
in its program finds the resolution made (R102 to R104, R209; DEDUCED, log 81). -/
def State.atHypres (s : State) (c : Crew) (g : Nat) : Bool :=
  s.resolves.any fun r => r.crew == c.uid &&
    ((!r.effect && (c.gangSlices g).any r.slices.contains) ||
      (c.hyp != 0 && (s.ctx? c.ctx).any fun x => (x.hypOf c.hyp).st == .discarding))

/-- The turn passes to the next gang (R35). -/
def State.passTurn (s : State) (uid g : Nat) : State := s.modCrew uid fun c => { c with turn := c.nextGang g }

/-- A fetch fault (R132, R326): TEPC is the fetch address; ECC and TIMEOUT are found late. Where no word tells the length, TRAPRET.next
goes on after a length that is free. -/
def State.fetchFault (s : State) (c : Crew) (g : Nat) (cause detail : BitVec 8) (level : Nat) (epc : BitVec 64) (len : Option Nat)
    (err : Option ErrAt := none) : State :=
  let (n, s) := match len with
    | some n => (n, s)
    | none => ([4, 12, 20].getD (s.choose 3).1 4, (s.choose 3).2)
  s.takeTrap c.uid g n
    { cause := cause, late := withCheck cause, lane := 0, detail := detail, level := BitVec.ofNat 3 level, epc := epc, val := 0,
      err := err }

/-- Converting reads of accumulators that the gang has issued and that have not written their results: a read of fflags waits for them
(R50), but not inside their lookahead windows (R130). -/
def State.flagsPending (s : State) (c : Crew) (g : Nat) : Bool :=
  (s.core c.core).mq.any fun o =>
    o.crew == c.uid && o.slices.any (c.inGang g) && (match o.kind with
      | .accrd _ _ _ bf16 _ => bf16
      | .load _ _ | .loadSp _ _ _ _ _ _ | .mma _ _ _ _ _ _ | .accz _ _ _ | .accwr _ _ _ => false) &&
    !c.slices.any fun x => x.la.any fun a => a.regs.any fun r => r.new == .op o.id

/-- The instruction reads fflags. -/
def Instr.readsFlags : Instr → Bool
  | .movsr o => o.sr == .fflags
  | _ => false

/-- How a gang's try to issue ends: nothing came of it where its unit does not accept the instruction, which then is not ready (R35);
a try that has sent a recall or joined a queue has used the cycle. -/
def State.issued (s : State) (c c' : Crew) (g : Nat) (i : Instr) (o : Out) : Option Out :=
  match o with
  | .next t =>
    if !Instr.jumps i && t.crew? c.uid == some c' then
      let u := t.setCrew c
      if { u with cur := s.cur, draws := s.draws } == s then none else some (.next (u.passTurn c.uid g))
    else some (.next (t.passTurn c.uid g))
  | .fault f => some (.fault f)
  | .refused r => some (.refused r)

/-- What the gang that holds the turn does when its crew is chosen: none when it is not ready (R35). -/
def State.tryGang (s : State) (c : Crew) (g : Nat) : Option Out :=
  if !(s.crewRuns c && c.gangFree g) || s.atHypres c g then none
  else
    match s.ctx? c.ctx with
    | none => none
    | some x =>
      match s.fetchInstr c x (c.gangPc g) with
      | .wait => none
      | .fault k d l epc len => some (.next (s.fetchFault c g k d l epc len))
      | .ecc e epc len => some (.next (s.fetchFault c g cECC 0 0 epc len (some e)))
      | .collapse line epc len =>
        if s.expired line then some (.next ((s.forgetRecall line).fetchFault c g cTIMEOUT 0 0 epc len))
        else if s.recalls.any (·.line == line) then none
        else some (.next (s.settle none line (s.rto c.ctx)).2)
      | .bad k len => some (.next (s.trap c g len k 0))
      | .instr i _ =>
        if c.stopsAt g i then some (execLateTrap ⟨c.uid⟩ (s.setCrew { c with stopped := true }))
        else if (c.readKeys g i ++ c.writeKeys g i).any c.keyBusy || (Instr.readsFlags i && s.flagsPending c g) then none
        else
          let c' := c.forgetLate (c.writeKeys g i)
          s.issued c c' g i ({ s.setCrew c' with cur := .crew c.uid g }.laRun c' g i)

/-! ## Schedulers (R34) -/

/-- The crew in a slot of a scheduler. -/
def State.crewAt (s : State) (core sched slot : Nat) : Option Crew :=
  s.crews.find? fun c => c.core == core && c.sched == sched && c.slot == slot && !c.saved

/-- The sixteen slots from one on, wrapping. -/
def slotsFrom (n : Nat) : List Nat := (List.range 16).map fun i => (n + i) % 16

/-- The crew of a slot issues, if the gang that holds its turn is ready. -/
def State.trySlot (s : State) (core sched slot : Nat) : Option Out :=
  match s.crewAt core sched slot with
  | some c => s.tryGang c c.holder
  | none => none

/-- A slot holds an urgent crew. -/
def State.urgentAt (s : State) (core sched slot : Nat) : Bool := (s.crewAt core sched slot).any Crew.urgent

/-- The first slot of a list whose crew issues. -/
def State.trySlots (s : State) (core sched : Nat) : List Nat → Option (Nat × Out)
  | [] => none
  | n :: ns =>
    match s.trySlot core sched n with
    | some o => some (n, o)
    | none => s.trySlots core sched ns

/-- The crews of a scheduler whose holder cannot issue, with that holder. -/
def State.stuck (s : State) (core sched : Nat) : List (Nat × Nat) :=
  (slotsFrom 0).filterMap fun n =>
    match s.crewAt core sched n with
    | some c => if (s.tryGang c c.holder).isNone then some (c.uid, c.holder) else none
    | none => none

/-- Their turns pass in the same cycle (R35). -/
def State.passStuck (s : State) (ps : List (Nat × Nat)) : State := ps.foldl (fun t p => t.passTurn p.1 p.2) s

/-- Round-robin goes on after slot n. -/
def setRR (f : Core → List Nat) (g : Core → List Nat → Core) (sched n : Nat) (k : Core) : Core :=
  g k (modAt (f k) sched fun _ => (n + 1) % 16)
def Out.map (f : State → State) : Out → Out
  | .next t => .next (f t)
  | .fault e => .fault e
  | .refused r => .refused r

/-- Which slot issues in a cycle: the owner, else an urgent crew's, else any crew's, with the pointer that moves (R34). -/
def State.pickSlot (s : State) (core sched : Nat) : Option (Out × (State → State)) :=
  match s.trySlot core sched (mget 0 s.clock core % 16) with
  | some o => some (o, id)
  | none =>
    let k := s.core core
    match s.trySlots core sched ((slotsFrom (k.rrUrgent.getD sched 0)).filter (s.urgentAt core sched)) with
    | some (n, o) => some (o, fun u => u.modCore core (setRR Core.rrUrgent (fun k r => { k with rrUrgent := r }) sched n))
    | none =>
      match s.trySlots core sched (slotsFrom (k.rr.getD sched 0)) with
      | some (n, o) => some (o, fun u => u.modCore core (setRR Core.rr (fun k r => { k with rr := r }) sched n))
      | none => none

/-- One issue cycle of a scheduler (R34, R35); a core whose clock is stopped has none (R364). -/
def State.issueCycle (s : State) (core sched : Nat) : Out :=
  let ps := s.stuck core sched
  if mget 1400 s.ras.mhz core = 0 then .next s
  else match s.pickSlot core sched with
  | some (o, f) => Out.map (fun t => (f t).passStuck ps) o
  | none => .next (s.passStuck ps)

/-! ## Cellar processors (R250, R259) -/

/-- One instruction of a running processor: the word of local store at its pc. While a CATOM is on its way the processor waits
(R263). -/
def State.cellarCycle (s : State) (stack proc : Nat) : Out :=
  match s.proc? stack proc with
  | none => .next s
  | some p =>
    if p.atoms != 0 || (s.cmd? p.cmd).isNone then .next s
    else match decodeAqiuf (BitVec.ofNat 32 (ofBytes (getLocal p.loc p.pc.toNat 4))) with
    | .error _ => .next (s.procFault p cILLEGAL (p.pc.setWidth 64))
    | .ok i => exec i { s with cur := .cellar stack proc }

end Sys2Proof.Machine
end

