-- ==== Sys2Proof/Machine/Auto.lean ====
section
/-!
DEFINITION. Which agent moves next (log 1): the inputs of the agenda, what a control register has set going, and, when the agenda is
empty, one of the machine's own moves by free choice.
-/
namespace Sys2Proof.Machine

/-! ## Inputs -/

/-- A step that no word encodes, which an input may name. -/
def isEvent (i : Instr) : Bool := i.raw.isNone && i.craw.isNone

/-- One input. -/
def State.input (s : State) (i : Stim) : Out :=
  match i with
  | .issue core sched => s.issueCycle core sched
  | .cellar stack proc => s.cellarCycle stack proc
  | .event i => if isEvent i then exec i s else .next s
  | .evict p line hyp room => .next (s.evict p line hyp room)
  | .writeback p line => .next (s.writeBack p line)
  | .icFill core ctx va => .next (s.icFill core ctx va)
  | .icDrop core loc => .next (s.icDrop core loc)
  | .ptrDrop die ctx level upper => .next (s.ptrDrop die ctx level upper)
  | .cldxMove stack proc idx block mask => .next (s.cldxMove stack proc idx block mask)
  | .resolve ctx => .next (s.resolveStep ctx)
  | .retry n => .next (s.retry n)
  | .tlbDrop a ctx va => .next (s.tlbDrop a ctx va)
  | .tick n => .next (s.tick n)
  | .drift die ahead => .next (s.drift die ahead)
  | .coreTick core n => .next (s.coreTick core n)

/-- What a device in FAILED still does (R360, R367): a reset, and time. -/
def failedInput : Stim → Bool
  | .event .deviceReset | .event .bootctlReset | .event (.registerWrite _) => true
  | .tick _ => true
  | .event _ | .issue _ _ | .cellar _ _ | .evict _ _ _ _ | .writeback _ _ | .icFill _ _ _ | .icDrop _ _ | .ptrDrop _ _ _ _
  | .cldxMove _ _ _ _ _ | .resolve _ | .retry _ | .tlbDrop _ _ _ | .drift _ _ | .coreTick _ _ => false

/-! ## What a control register has set going -/

/-- A result that changes something: a request that must still wait changes nothing once its recall is sent. -/
def State.moved (s : State) (o : Out) : Option Out :=
  match o with
  | .next t => if { t with draws := s.draws } == s then none else some (.next t)
  | .fault _ | .refused _ => none

/-- The stage that a presented device's pre-emption is in has passed its deadline, with something left to do (R339, R340). -/
def State.stageDue (s : State) (p : PDev) : Option Out :=
  match s.stageOver p.first 1 Ctx.t1, s.stageOver p.first 2 Ctx.t2 with
  | some _, _ => s.moved (execT1Expiry p.first s)
  | none, some x => if !s.allStopped x.id || s.opsOpen x.id then s.moved (execT2Expiry p.first s) else none
  | none, none => none

/-- A write of PREEMPT with GO. -/
def State.preemptDue (s : State) (p : PDev) : Option Out :=
  match p.peGo with
  | none => none
  | some (_, req, _) =>
    s.moved (if req = 1 then execPreemptSoft p.first s else if req = 2 then execPreemptHard p.first s else .next (s.askRestore p.first))

/-- Writes of FRESP, RGNCTL, MIGCTL and PREEMPT, and deadlines that have passed, act before anything else that can be done (R265, R266,
R310, R339, R352). -/
def State.urgent (s : State) : Option Out :=
  (s.pdevs.findSome? fun p =>
    match p.fresp with
    | some (seq, a) =>
      some (if a = 0 then execFrespResume ⟨p.first, seq⟩ s else if a = 1 then execFrespDeliver ⟨p.first, seq⟩ s
            else execFrespKill ⟨p.first, seq⟩ s)
    | none => none).or <|
  (s.ctxs.findSome? fun x => if x.migRetire then some (execMigrationRetire x.id s) else none).or <|
  (s.ctxs.findSome? fun x => if x.rgnGo.isSome then s.moved (execRegionRewrite x.id s) else none).or <|
  (s.ctxs.findSome? fun x => if x.migGo then s.moved (execMigrationGo x.id s) else none).or <|
  (s.pdevs.findSome? s.preemptDue).or <|
  (s.cmds.findSome? fun k => if s.limitPassed k then some (execClimitExpiry k.id s) else none).or <|
  (s.pdevs.findSome? s.stageDue).or <|
  s.recalls.findSome? fun r => if !r.expired && decide (r.deadline ≤ s.reftime) then some (execScafaTimeout r.line s) else none

/-! ## Moves of its own -/

/-- Moves of the cores: issue cycles, and their engines. -/
def State.coreMoves (s : State) : List (State → Out) :=
  ((s.crews.filter (!·.saved)).map fun c s => s.issueCycle c.core c.sched) ++
  (s.crews.flatMap fun c =>
    [execSleepExpiry ⟨c.uid, c.holder⟩, execBarwaitResume ⟨c.uid, c.holder⟩, execWaitanyResume ⟨c.uid⟩,
     execOrphanRedirection ⟨c.uid⟩] ++ (List.range 8).map fun e => execEventTimer ⟨c.uid, e⟩) ++
  (s.cores.flatMap fun k =>
    (k.2.mq.map fun o => if o.started then execMatrixComplete ⟨k.1, o.id, .done⟩ else execMatrixQueueStart ⟨k.1, o.id⟩) ++
    k.2.copies.flatMap fun j =>
      execCopyComplete ⟨k.1, j.id⟩ :: (List.range j.chunks).map fun i => execCopyChunk ⟨k.1, i⟩)

/-- Moves of the cellars. -/
def State.cellarMoves (s : State) : List (State → Out) :=
  (s.procs.flatMap fun p =>
    (fun (s : State) => s.cellarCycle p.stack p.proc) :: (p.transfers.mapIdx fun i t =>
      execCldxTransferComplete p.stack p.proc i ::
        t.blocks.mapIdx fun n _ => fun (s : State) => .next (s.cldxMove p.stack p.proc i n (BitVec.allOnes 64))).flatten) ++
  (s.cmdq.map fun k => execCellarCommandStart k.stack) ++ (s.cmds.map fun k => execClimitExpiry k.id) ++
  (s.atomq.mapIdx fun i _ => execAtomicUnitOperation i)

/-- The answer that local delivery gives: nothing to add. -/
def localAck : CollAck := { count := 0, fault := false, cause := 0, swRefused := false }

/-- Collectives and attached collectives go on by themselves but for the answer of another node (R243, R309). -/
def State.collMoves (s : State) : List (State → Out) :=
  (s.colls.flatMap fun j =>
    if j.attach.isSome then [] else if !j.sent then [execCollSend j.id] else if j.out = 0 then [execCollComplete ⟨j.id, localAck⟩] else []) ++
  s.runs.flatMap fun r =>
    if r.acoll.isSome && (match s.attachJob r.uid with
        | some j => !j.sent || j.word.isSome
        | none => true) then [execAttachedCollective ⟨r.uid, localAck⟩] else []

/-- Moves of the queues, the security processor and the boot ROM (R295, R345, R357, R360). -/
def State.queueMoves (s : State) : List (State → Out) :=
  (s.ctxs.flatMap fun x => (List.range x.queues.length).flatMap fun q =>
    [execDoorbell ⟨x.id, q⟩, execLaunch ⟨x.id, q⟩, execPacketNop (.launch x.id q)]) ++
  (if s.bar0.mqRd == s.bar0.mqWr then [] else [execPacketNop .mgmt, execCreate, execDestroy, execKill]) ++
  (if s.bar0.smBusy then [execAttest, execCerts, execSession, execKeyload, execKeyerase, execPathkey] else []) ++
  if s.bar0.boot == 2 then [execFirmwareVerify] else []

/-- Moves of the hub and of messages under way. -/
def State.hubMoves (s : State) : List (State → Out) :=
  (s.mails.mapIdx fun i _ => execMailboxDelivery i) ++ (s.regs.mapIdx fun i _ => execURegistration i) ++
  s.collMoves ++ (s.launches.mapIdx fun i _ => execRecordLaunch i) ++
  (s.runs.flatMap fun r => [execRecordFinish r.uid, execCellarTaskSubmit r.uid, execHostSignal r.uid]) ++ s.queueMoves ++
  (s.ctxs.flatMap fun x =>
    (x.hyps.map fun h => execHypScrubComplete ⟨x.id, h.1⟩) ++ [execRegionRewriteComplete x.id, execMigrationComplete x.id]) ++
  (s.pdevs.flatMap fun p => [execFaultRecord p.first, execT1Expiry p.first, execT2Expiry p.first, execPreemptSave p.first]) ++
  (s.inbound.mapIdx fun n _ => fun (s : State) => .next (s.retry n)) ++
  (s.resolves.map fun r => fun (s : State) => .next (s.resolveStep r.ctx)) ++
  ((List.range 16).filter s.syncDue).map fun d => execTimebaseSync ⟨d, 0, false⟩

/-- Five ticks of the timebase, with the cycles each core's clock makes in them (R9). -/
def State.idle (s : State) : State :=
  let run := fun (m : SMap Nat) (core : Nat) => mput 0 m core (mget 0 m core + 5 * mget 1400 s.ras.mhz core / 1000)
  { s.tick 5 with clock := ((List.range 8).flatMap fun d => rangeFrom (d * 32) 24).foldl run s.clock }

/-- One of the machine's own moves: time when there is no other, else a free choice among them all. -/
def State.autoStep (s : State) : Out :=
  match s.coreMoves ++ s.cellarMoves ++ s.hubMoves with
  | [] => .next s.idle
  | m :: ms =>
    let (n, t) := s.choose (ms.length + 2)
    ((m :: ms).getD n fun u => .next u.idle) t

/-- What moves: what a control register or a deadline has set going, else the next input, else one of the machine's own moves; a
FAILED device answers only to a reset (R367). -/
def State.move (s : State) : Out :=
  let failed := s.bar0.boot == 5
  match (if failed then none else s.urgent) with
  | some o => o
  | none =>
    match s.agenda with
    | [] => if failed then .next s.idle else s.autoStep
    | i :: rest =>
      let t := { s with agenda := rest }
      if failed && !failedInput i then .next t else t.input i

/-- After a move: accesses whose asker is gone wait no more, event slots whose condition holds latch (R202, R203), and no cache holds
more than it can (R67). -/
def State.settled (s : State) : State := { s with waitq := s.waitq.filter s.waiterAlive }.sample.trim

/-- Steps are counted, so that what happens in one can be told from what happened in an earlier one (R132; log 3). -/
def State.counted (s : State) : State := { s with draws := s.draws + 1 }

end Sys2Proof.Machine
end

