-- ==== Sys2Proof/Machine/Place.lean ====
section
/-!
DEFINITION. A program put where the machine runs it next (log 17): a privileged context on the whole device with one page, one block
of one crew at the start of the code, or a running cellar command with the code in its processor's local store.
-/
namespace Sys2Proof.Machine

/-- A page-table entry of a frame, with its low byte. -/
def placePte (pa low : Nat) : LineData := BitVec.ofNat 1024 (low + pa / 4096 * 2 ^ 20)

/-- The place of the page tables and the code in die 0's own aperture, where an offset is a location (R69). -/
def placeBase : Nat := 0x020000000000

/-- Five tables of one entry each, levels 4 to 0, and the page of virtual address 0 after them: readable, writable, executable. -/
def State.placeTables (s : State) : State :=
  (List.range 5).foldl (fun s i =>
    s.dramPut ((i + 1) * 32) s.deviceKey (placePte (placeBase + (i + 2) * 4096) (if i = 4 then 0xF else 1))) s

/-- The control block: page-table root, mode whole, PRIV. -/
def placeCb : BitVec 512 := BitVec.ofNat 512 (placeBase + 0x1000 + 2 ^ 269)

def placeCtx : Ctx :=
  { Ctx.blank 1 placeCb with phases := List.replicate 8 { quota := 0, next := 0, arrived := 0, count := 0 } }

/-- A task record of one block of one crew of eight slices with 128 vector registers and 1 KiB of scratchpad, its code at 0x100 and
its trap vector at 0x800. -/
def placeRecord : BitVec 512 :=
  BitVec.ofNat 512 (0x100 + 2 ^ 256 + 7 * 2 ^ 293 + 15 * 2 ^ 296 + 2 ^ 304 + 0x800 * 2 ^ 384 + 3 * 2 ^ 224)

def placeRun (va : BitVec 64) : Run :=
  { uid := 1, ctx := 1, va := va, rcd := placeRecord, prio := 0, readyAt := some 0, readyDraw := 0, gridid := 1, nextBlk := 1,
    running := true, submitted := false, workDone := false, work := none, acoll := none, collDone := false }

/-- What both kinds of program need: the device runs, with this context alone and nothing cached or in flight. -/
def State.placeBasis (s : State) : State :=
  { s with caches := [], ulines := [], press := [], recalls := [], tlb := [], ptrs := [], waitq := [], bars := [], icache := [],
           resolves := [], erasing := none, regs := [], atomq := [], inbound := [], poison := [], cmdq := [], cmds := [], procs := [], colls := [], mails := [], launches := [], savedCores := [],
           ctxs := [placeCtx], pdevs := [PDev.fresh 0 8 8], bar0 := { s.bar0 with boot := 3 },
           ras := { s.ras with failed := [], mhz := [] }, nextId := s.nextId + 8 }.placeTables

/-- The words in memory at 0x100 of the page, and a crew at them that issues next. -/
def State.placeMain (s : State) (ws : List Word) : State :=
  let t := s.placeBasis
  let r := placeRun 0xC00
  let u := t.dramPut (6 * 32 + 2) t.deviceKey (BitVec.ofNat 1024 (ofWords ws))
  { u with runs := [r], blocks := [Block.start r 2 0 0 0], crews := [Crew.start r 3 4 2 0 0 0 0 0 0], cur := .none,
           agenda := [.issue 0 0] }

/-- The word at offset 0 of the local store of processor 0 of stack 0, which runs next. -/
def State.placeCellar (s : State) (w : Word) : State :=
  let t := s.placeBasis
  let k : Cmd :=
    { id := 1, ctx := 1, stack := 0, code := 0, arg := 0, mask := 1, clen := 1, coh := false, ranges := [0], climit := 0,
      route := .task 0, pc := 0, sum := 0, start := some s.reftime, halted := 0, held := [], epoch := 1 }
  let p : Proc :=
    { stack := 0, proc := 0, cmd := 1, c := [], w := [], pc := 0,
      loc := ((toBytes 4 w.toNat).mapIdx fun i b => (i, b)).filter fun e => e.2 != 0, signalled := false, transfers := [],
      atoms := 0 }
  { t with runs := [], blocks := [], crews := [], cmds := [k], procs := [p], cur := .none, agenda := [.cellar 0 0] }

/-- The instruction of a table word, placed where the kind of its instruction runs. -/
def State.placeWord (s : State) (nbits w : Nat) : State :=
  match decodeTableWord nbits w with
  | some i =>
    if i.craw.isSome then s.placeCellar (BitVec.ofNat 32 (w % 2 ^ nbits)) else s.placeMain (tableWords (w % 2 ^ nbits))
  | none => s.placeMain (tableWords (w % 2 ^ nbits))

end Sys2Proof.Machine
end

