-- ==== Sys2Proof/Safety.lean ====
section
/-!
DEFINITION. What counts as a safe run, who acts, and what an instruction may change: the terms that the statements use.
-/
namespace Sys2Proof.Machine

/-! ## Runs -/

/-- A step answered a next state: it met no fault and no refusal. -/
def Out.Answers (o : Out) : Prop := ∃ t, o = Host.Outcome.next t

/-- Memory is in its canonical form (log 5). -/
def State.MemOk (s : State) : Prop := memWf s.mem = true

/-- k steps from a state never stop, and memory is canonical in every state on the way. -/
def State.SafeFor : Nat → State → Prop
  | 0, s => s.MemOk
  | k + 1, s => s.MemOk ∧ ∃ t, step s = .next t ∧ t.SafeFor k

/-! ## Who acts -/

/-- Gang g of crew c, number uid, is the one whose instruction i runs, and i's register fields are within the crew's limits (R128;
V is at most 128, R32). -/
structure State.Issues (s : State) (uid g : Nat) (c : Crew) (i : Instr) : Prop where
  cur : s.cur = .crew uid g
  crew : s.crew? uid = some c
  gang : c.inGang g g = true
  v : c.vregs ≤ 128
  legal : i.uses.ok c.vregs = true

/-- Processor p, running command k, is the one whose instruction runs. -/
structure State.Runs (s : State) (stack proc : Nat) (p : Proc) (k : Cmd) : Prop where
  cur : s.cur = .cellar stack proc
  proc : s.proc? stack proc = some p
  cmd : s.cmd? p.cmd = some k

/-! ## Participating lanes (R126, R146) -/

/-- Lane l participates: it is an active lane of gang g and the guard passes in it. -/
def Crew.Takes (c : Crew) (g : Nat) (gd : Guard) (l : Nat) : Prop :=
  ∃ x, c.slices[l / 4]? = some x ∧ x.live = true ∧ x.gang = g ∧ x.active.getLsbD (l % 4) = true ∧ c.pget l gd.pr.toNat ≠ gd.pn

/-- Lane l computes: each participating lane, or with U the lowest one of its slice. -/
def Crew.Unit (c : Crew) (g : Nat) (gd : Guard) (u : Bool) (l : Nat) : Prop :=
  c.Takes g gd l ∧ (u = true → ∀ k, k / 4 = l / 4 → k < l → ¬c.Takes g gd k)

/-! ## What an arithmetic instruction changes (R146, R147, R50) -/

/-- Of every slice only scalars may differ, and slices of gang g have passed n bytes. -/
def Crew.SlicesPass (c c' : Crew) (g n : Nat) : Prop :=
  c'.slices.length = c.slices.length ∧
  ∀ (i : Nat) (x x' : Slice), c.slices[i]? = some x → c'.slices[i]? = some x' →
    x' = { x with s := x'.s, pc := if c.inGang g i then x.pc + BitVec.ofNat 64 n else x.pc }

/-- Crew c' is crew c after an instruction of n bytes of gang g that writes in each unit the words of `f` from register d on and
raises its flags. Everything else of the crew is unchanged: other vector and scalar registers, predicates, special registers,
event slots, the trap registers and every field of its slices but the pc. -/
structure Crew.Wrote (c c' : Crew) (g n : Nat) (u : Bool) (d : Nat) (unit : Nat → Prop) (f : Nat → List Word × BitVec 5) :
    Prop where
  rest : c' = { c with v := c'.v, slices := c'.slices, fflags := c'.fflags }
  slices : c.SlicesPass c' g n
  result : ∀ l, unit l → ∀ i w, (f l).1[i]? = some w → c'.rget u l (d + i) = w
  vectors : ∀ l n, n < 128 → (u = true ∨ ¬unit l ∨ n < d ∨ d + (f l).1.length ≤ n) → c'.vget l n = c.vget l n
  scalars : ∀ i n, (u = false ∨ ∀ l, l / 4 = i → unit l → n < d ∨ d + (f l).1.length ≤ n) → c'.sget i n = c.sget i n
  flags : ∀ j, c'.fflags.getLsbD j = true ↔ c.fflags.getLsbD j = true ∨ ∃ l, unit l ∧ (f l).2.getLsbD j = true

/-- Crew c' is crew c after an instruction of n bytes of gang g that writes predicate pd in each participating lane and raises
flags: with U the value of the slice's unit, else the lane's own. A write to p15 is discarded and reads of it stay true (R128,
R147). -/
structure Crew.Decided (c c' : Crew) (g n : Nat) (u : Bool) (pd : Nat) (takes unit : Nat → Prop) (f : Nat → Bool × BitVec 5) :
    Prop where
  rest : c' = { c with p := c'.p, slices := c'.slices, fflags := c'.fflags }
  slices : c.SlicesPass c' g n
  scalars : ∀ i n, c'.sget i n = c.sget i n
  result : pd < 15 → ∀ l k, takes l → unit k → (if u then k / 4 = l / 4 else k = l) → c'.pget l pd = (f k).1
  others : ∀ l n, n < 16 → (¬takes l ∨ n ≠ pd ∨ pd = 15) → c'.pget l n = c.pget l n
  flags : ∀ j, c'.fflags.getLsbD j = true ↔ c.fflags.getLsbD j = true ∨ ∃ l, unit l ∧ (f l).2.getLsbD j = true

/-- exec answers the state in which crew c alone has changed, to a crew of which P holds. -/
def State.CrewTo (s : State) (o : Out) (c : Crew) (P : Crew → Prop) : Prop :=
  ∃ c', o = .next (s.setCrew c') ∧ c'.uid = c.uid ∧ P c'

/-- Instruction i completes for every issuing gang: each unit gets the words and flags that `f` gives for the crew before it. -/
def Computes (i : Instr) (h : Hdr) (u : Bool) (d : Nat) (f : Crew → Nat → Nat → List Word × BitVec 5) : Prop :=
  ∀ (s : State) (uid g : Nat) (c : Crew), s.Issues uid g c i →
    s.CrewTo (exec i s) c fun c' => c.Wrote c' g h.form.bytes u d (c.Unit g h.guard u) (f c g)

/-- Instruction i completes for every issuing gang: predicate pd of each participating lane becomes what `f` gives. -/
def Decides (i : Instr) (h : Hdr) (u : Bool) (pd : Nat) (f : Crew → Nat → Bool × BitVec 5) : Prop :=
  ∀ (s : State) (uid g : Nat) (c : Crew), s.Issues uid g c i →
    s.CrewTo (exec i s) c fun c' => c.Decided c' g h.form.bytes u pd (c.Takes g h.guard) (c.Unit g h.guard u) (f c)

/-- No flag. -/
def noFlags (ws : List Word) : List Word × BitVec 5 := (ws, 0)

/-! ### Shapes of operands (R145) -/

/-- `OP D, A, B/imm` gives f a b, without a flag. -/
def Bin (mk : DAB → Instr) (f : Word → Word → Word) : Prop :=
  ∀ o : DAB, Computes (mk o) o.h o.u o.d.toNat fun c _ l => noFlags [f (c.rget o.u l o.a.toNat) (c.b32 o.u l o.b)]

/-- `OP D, A` gives f a, without a flag. -/
def Un (mk : DA → Instr) (f : Word → Word) : Prop :=
  ∀ o : DA, Computes (mk o) o.h o.u o.d.toNat fun c _ l => noFlags [f (c.rget o.u l o.a.toNat)]

/-- `OP D, A, B/imm, C` gives f a b c, without a flag. -/
def Tern (mk : DABC → Instr) (f : Word → Word → Word → Word) : Prop :=
  ∀ o : DABC, Computes (mk o) o.h o.u o.d.toNat fun c _ l =>
    noFlags [f (c.rget o.u l o.a.toNat) (c.b32 o.u l o.b) (c.rget o.u l o.c.toNat)]

/-- `OP D pair, A, B/imm, C pair`. -/
def TernWide (mk : DABC → Instr) (f : Word → Word → BitVec 64 → BitVec 64) : Prop :=
  ∀ o : DABC, Computes (mk o) o.h o.u o.d.toNat fun c _ l =>
    noFlags (words2 (f (c.rget o.u l o.a.toNat) (c.b32 o.u l o.b) (c.rget64 o.u l o.c.toNat)))

/-- `OP D pair, A pair, B pair/imm`. -/
def Bin64 (mk : DAB → Instr) (f : BitVec 64 → BitVec 64 → BitVec 64) : Prop :=
  ∀ o : DAB, Computes (mk o) o.h o.u o.d.toNat fun c _ l =>
    noFlags (words2 (f (c.rget64 o.u l o.a.toNat) (c.b64 o.u l o.b)))

/-- `OP D pair, A pair, B/imm`. -/
def Bin64By32 (mk : DAB → Instr) (f : BitVec 64 → Word → BitVec 64) : Prop :=
  ∀ o : DAB, Computes (mk o) o.h o.u o.d.toNat fun c _ l =>
    noFlags (words2 (f (c.rget64 o.u l o.a.toNat) (c.b32 o.u l o.b)))

/-- `OP D, A, B, C/imm`. -/
def TernCi (mk : DABCi → Instr) (f : Word → Word → Word → Word) : Prop :=
  ∀ o : DABCi, Computes (mk o) o.h o.u o.d.toNat fun c _ l =>
    noFlags [f (c.rget o.u l o.a.toNat) (c.rget o.u l o.b.toNat) (c.c32 o.u l o.c)]

/-! ## Results of the integer instructions, from the tables of 07 R148 to R150 -/

/-- Bit i of an r of 32 bits, for each i. -/
def bitsOf (r : Nat → Bool) : Word := BitVec.ofNat 32 (((List.range 32).map fun i => (r i).toNat * 2 ^ i).sum)

/-- A shift count that reaches the width leaves 0. -/
def shlRule (w : Nat) (a n : Nat) : BitVec w := if w ≤ n then 0 else BitVec.ofNat w (a * 2 ^ n)
def shrRule (w : Nat) (a n : Nat) : BitVec w := if w ≤ n then 0 else BitVec.ofNat w (a / 2 ^ n)

/-- A signed shift right: a count that reaches the width leaves copies of the sign. -/
def sarRule (w : Nat) (a : Int) (n : Nat) : BitVec w :=
  if w ≤ n then (if a < 0 then BitVec.allOnes w else 0) else BitVec.ofInt w (a / 2 ^ n)

/-- Byte i of a word. -/
def byteAtWord (a : Word) (i : Nat) : Byte := a.extractLsb' (8 * i) 8

/-- BFEU, BFES and BFI: position, and length capped at 32 (R149). -/
def ctlPos (ctl : Word) : Nat := ctl.toNat % 256
def ctlLen (ctl : Word) : Nat := min (ctl.toNat / 256 % 256) 32
def bfeuRule (a ctl : Word) : Word := bitsOf fun i => decide (i < ctlLen ctl) && a.getLsbD (ctlPos ctl + i)
def bfesRule (a ctl : Word) : Word :=
  let bit := fun i => a.getLsbD (min i 31)
  bitsOf fun i => ctlLen ctl != 0 && bit (ctlPos ctl + min i (ctlLen ctl - 1))
def bfiRule (a b ctl : Word) : Word :=
  bitsOf fun i => if ctlPos ctl ≤ i ∧ i < ctlPos ctl + ctlLen ctl then a.getLsbD (i - ctlPos ctl) else b.getLsbD i

/-- BYSEL: result byte i by the selector c[5i+4:5i] (R149). -/
def byselRule (a b c : Word) : Word := bitsOf fun k =>
  let sel := c.toNat / 2 ^ (5 * (k / 8)) % 32
  let y : Byte := if sel % 8 < 4 then byteAtWord a (sel % 8) else byteAtWord b (sel % 8 - 4)
  if sel / 8 = 0 then y.getLsbD (k % 8)
  else if sel / 8 = 1 then false
  else if sel / 8 = 2 then y.getLsbD 7
  else y.getLsbD (7 - k % 8)
def fshrRule (a b c : Word) : Word := bitsOf fun i =>
  if i + c.toNat % 32 < 32 then a.getLsbD (i + c.toNat % 32) else b.getLsbD (i + c.toNat % 32 - 32)

/-- The conditions of ICMPS, ICMPU and ICMP64 on the numbers compared (R150). -/
def condRule (cc : ICond) (a b : Int) : Bool :=
  match cc with
  | .eq => decide (a = b)
  | .ne => decide (a ≠ b)
  | .lt => decide (a < b)
  | .le => decide (a ≤ b)
  | .gt => decide (a > b)
  | .ge => decide (a ≥ b)
def cond64Rule (cc : ICond64) (a b : BitVec 64) : Bool :=
  let num := fun (u : Bool) (x : BitVec 64) => if u then (x.toNat : Int) else x.toInt
  match cc with
  | .eq => decide (a.toNat = b.toNat)
  | .ne => decide (a.toNat ≠ b.toNat)
  | .lt u => decide (num u a < num u b)
  | .le u => decide (num u a ≤ num u b)
  | .gt u => decide (num u a > num u b)
  | .ge u => decide (num u a ≥ num u b)

/-! ## Shapes of the floating-point instructions -/

/-- A 32-bit or 64-bit code with its flags. -/
def code32 (r : FRes) : List Word × BitVec 5 := ([BitVec.ofNat 32 r.1], r.2)
def code64 (r : FRes) : List Word × BitVec 5 := (words2 (BitVec.ofNat 64 r.1), r.2)

/-- `OP{.round} D, A, B/imm` on 32-bit words gives f in the mode selected, with its flags. -/
def BinR (mk : DABR → Instr) (f : RMode → Word → Word → List Word × BitVec 5) : Prop :=
  ∀ o : DABR, Computes (mk o) o.h o.u o.d.toNat fun c _ l =>
    f (c.rmode o.rm) (c.rget o.u l o.a.toNat) (c.b32 o.u l o.b)

/-- `OP{.round} D, A, B/imm, C`. -/
def TernR (mk : DABCR → Instr) (f : RMode → Word → Word → Word → List Word × BitVec 5) : Prop :=
  ∀ o : DABCR, Computes (mk o) o.h o.u o.d.toNat fun c _ l =>
    f (c.rmode o.rm) (c.rget o.u l o.a.toNat) (c.b32 o.u l o.b) (c.rget o.u l o.c.toNat)

/-- `OP{.round} D, A`. -/
def UnR (mk : DAR → Instr) (f : RMode → Word → List Word × BitVec 5) : Prop :=
  ∀ o : DAR, Computes (mk o) o.h o.u o.d.toNat fun c _ l => f (c.rmode o.rm) (c.rget o.u l o.a.toNat)

/-- `OP D, A`, with flags. -/
def UnF (mk : DA → Instr) (f : Word → List Word × BitVec 5) : Prop :=
  ∀ o : DA, Computes (mk o) o.h o.u o.d.toNat fun c _ l => f (c.rget o.u l o.a.toNat)

/-- `OP D, A, B/imm`, with flags. -/
def BinF (mk : DAB → Instr) (f : Word → Word → List Word × BitVec 5) : Prop :=
  ∀ o : DAB, Computes (mk o) o.h o.u o.d.toNat fun c _ l => f (c.rget o.u l o.a.toNat) (c.b32 o.u l o.b)

/-- Both 16-bit halves of two or three words by one rule, the flags of both (R156). -/
def perHalf2 (f : Nat → Nat → FRes) (a b : Word) : List Word × BitVec 5 :=
  let lo := f (a.toNat % 2 ^ 16) (b.toNat % 2 ^ 16)
  let hi := f (a.toNat / 2 ^ 16) (b.toNat / 2 ^ 16)
  ([BitVec.ofNat 32 (lo.1 + 2 ^ 16 * hi.1)], lo.2 ||| hi.2)
def perHalf3 (f : Nat → Nat → Nat → FRes) (a b c : Word) : List Word × BitVec 5 :=
  let lo := f (a.toNat % 2 ^ 16) (b.toNat % 2 ^ 16) (c.toNat % 2 ^ 16)
  let hi := f (a.toNat / 2 ^ 16) (b.toNat / 2 ^ 16) (c.toNat / 2 ^ 16)
  ([BitVec.ofNat 32 (lo.1 + 2 ^ 16 * hi.1)], lo.2 ||| hi.2)

/-! ## Special registers -/

/-- What MOVSR reads in lane l of crew c (R19, R49, R134): block registers from the block that holds the crew. -/
def sregRule (s : State) (c : Crew) (b : Block) (x : Slice) (l : Nat) : SReg → List Word
  | .laneid => [BitVec.ofNat 32 l]
  | .sliceid => [BitVec.ofNat 32 (l / 4)]
  | .crewid => [BitVec.ofNat 32 c.crewid]
  | .blkid => [b.blkid]
  | .nblk => [b.nblk]
  | .cluid => [b.cluid]
  | .clurank => [b.clurank]
  | .spanid => [b.spanid]
  | .dieid => [BitVec.ofNat 32 c.dieId]
  | .coreid => [BitVec.ofNat 32 c.coreId]
  | .gridid => [b.gridid]
  | .scrbase => [BitVec.ofNat 32 (if b.scrSize = 0 then 0 else b.scrOff)]
  | .clock => words2 (BitVec.ofNat 64 (mget 0 s.clock c.core))
  | .reftime => words2 (BitVec.ofNat 64 (s.dieTime (c.core / 32)))
  | .hyp => [c.hyp.setWidth 32]
  | .hxh => words2 c.hxh
  | .pend => [c.pend.setWidth 32]
  | .emask => [c.emask.setWidth 32]
  | .evwhich => [c.evwhich]
  | .evdata => words2 c.evdata
  | .fflags => [c.fflags.setWidth 32]
  | .frm => [c.frm.setWidth 32]
  | .regent => words2 x.region.ent
  | .regctr => [x.regctr]

/-- Crew c' is crew c after an instruction of n bytes of gang g that sets predicates p0 to p14 of each participating lane from a
word, and leaves every other predicate. -/
structure Crew.SetPreds (c c' : Crew) (g n : Nat) (takes : Nat → Prop) (w : Nat → Word) : Prop where
  rest : c' = { c with p := c'.p, slices := c'.slices }
  slices : c.SlicesPass c' g n
  scalars : ∀ i n, c'.sget i n = c.sget i n
  result : ∀ l n, takes l → n < 15 → c'.pget l n = (w l).getLsbD n
  others : ∀ l n, n < 16 → (¬takes l ∨ n = 15) → c'.pget l n = c.pget l n

/-! ## Minimum, maximum, comparison and class by codes (R154) -/

/-- The place of a code that is no NaN in the order −∞ … −0, +0 … +∞: codes of one sign are in the order of their magnitude. -/
def orderKey (f : FFmt) (x : Nat) : Int :=
  if x.testBit f.signBit then -((x % 2 ^ f.signBit : Nat) : Int) - 1 else (x % 2 ^ f.signBit : Nat)

/-- The same with −0 equal to +0. -/
def valueKey (f : FFmt) (x : Nat) : Int :=
  if x.testBit f.signBit then -((x % 2 ^ f.signBit : Nat) : Int) else (x % 2 ^ f.signBit : Nat)

/-- A NaN code is above infinity's in magnitude; it signals when its top fraction bit is 0 (R43). -/
def isNanCode (f : FFmt) (x : Nat) : Bool := decide ((2 ^ f.eb - 1) * 2 ^ f.fb < x % 2 ^ f.signBit)
def isSigCode (f : FFmt) (x : Nat) : Bool := isNanCode f x && !x.testBit (f.fb - 1)

/-- The flag invalid, or none. -/
def invalidIf (b : Bool) : BitVec 5 := if b then 0x10 else 0

/-- FMIN and FMAX (R154). -/
def minMaxRule (f : FFmt) (isMax : Bool) (a b : Nat) : FRes :=
  (if isNanCode f a && isNanCode f b then f.nan
   else if isNanCode f a then b
   else if isNanCode f b then a
   else if isMax then (if orderKey f a < orderKey f b then b else a)
   else (if orderKey f b < orderKey f a then b else a),
   invalidIf (isSigCode f a || isSigCode f b))

/-- FCMP (R154): ordered conditions raise invalid for any NaN, the others for a signalling one. -/
def fcmpRule (cc : FCond) (a b : Nat) : Bool × BitVec 5 :=
  let un := isNanCode f32 a || isNanCode f32 b
  let sig := isSigCode f32 a || isSigCode f32 b
  let x := valueKey f32 a
  let y := valueKey f32 b
  match cc with
  | .eq => (!un && decide (x = y), invalidIf sig)
  | .ne => (un || decide (x ≠ y), invalidIf sig)
  | .lt => (!un && decide (x < y), invalidIf un)
  | .le => (!un && decide (x ≤ y), invalidIf un)
  | .gt => (!un && decide (x > y), invalidIf un)
  | .ge => (!un && decide (x ≥ y), invalidIf un)
  | .un => (un, invalidIf sig)
  | .or => (!un, invalidIf sig)

/-- The bit of the FCLASS mask that an FP32 code sets (R154). -/
def fclassRule (x : Nat) : Nat :=
  let mag := x % 2 ^ 31
  let neg := x.testBit 31
  if 0x7F800000 < mag then (if mag.testBit 22 then 9 else 8)
  else if mag = 0x7F800000 then (if neg then 0 else 7)
  else if mag = 0 then (if neg then 3 else 4)
  else if mag < 2 ^ 23 then (if neg then 2 else 5)
  else (if neg then 1 else 6)

/-! ## Exact values rounded once (R46 to R48) -/

/-- m × 2^e against m' × 2^e'. -/
def dyCmp (m : Nat) (e : Int) (m' : Nat) (e' : Int) : Ordering :=
  compare (m * 2 ^ (e - min e e').toNat) (m' * 2 ^ (e' - min e e').toNat)

/-- An exact magnitude, given by how it compares with each n × 2^q. -/
abbrev Exact := Nat → Int → Ordering

def exactly (m : Nat) (e : Int) : Exact := fun n q => dyCmp m e n q
/-- m × 2^e over m' × 2^e'. -/
def exactQuotient (m : Nat) (e : Int) (m' : Nat) (e' : Int) : Exact := fun n q => dyCmp m e (n * m') (e' + q)
/-- √(m × 2^e). -/
def exactRoot (m : Nat) (e : Int) : Exact := fun n q => dyCmp m e (n * n) (2 * q)
/-- 1 / √(m × 2^e). -/
def exactInverseRoot (m : Nat) (e : Int) : Exact := fun n q => dyCmp 1 0 (n * n * m) (2 * q + e)

/-- n × 2^q is the multiple of 2^q that the mode chooses for the magnitude x of that sign (R46): x itself where it is one, else the
multiple below it or the one above. -/
def Neighbour (rm : RMode) (neg : Bool) (x : Exact) (q : Int) (n : Nat) : Prop :=
  ∃ k, x k q ≠ .lt ∧ x (k + 1) q = .lt ∧
    n = if x k q = .eq then k
      else match rm with
        | .rz => k
        | .ru => if neg then k else k + 1
        | .rd => if neg then k + 1 else k
        | .rne => match x (2 * k + 1) (q - 1) with
          | .lt => k
          | .eq => k + k % 2
          | .gt => k + 1
        | .rn => if x (2 * k + 1) (q - 1) = .lt then k else k + 1

/-- r is the magnitude x of that sign rounded once to the format, with the flags of that rounding (R47, R48): 2^top is its leading
power; overflow and tininess are those of the value nU rounded with unbounded exponent, and what is delivered is rounded to the
format's own precision, subnormal where x is that small. -/
def FFmt.Rounded (f : FFmt) (rm : RMode) (sat neg : Bool) (x : Exact) (r : FRes) : Prop :=
  ∃ (top : Int) (nU : Nat), x 1 top ≠ .lt ∧ x 1 (top + 1) = .lt ∧ Neighbour rm neg x (top - f.fb) nU ∧
    (dyCmp nU (top - f.fb) f.maxFin.1 f.maxFin.2 = .gt →
      r = (if sat = true ∨ rm = .rz ∨ (rm = .ru ∧ neg = true) ∨ (rm = .rd ∧ neg = false) then f.signed neg f.maxCode
        else f.infinity neg, 5)) ∧
    (dyCmp nU (top - f.fb) f.maxFin.1 f.maxFin.2 ≠ .gt → ∃ (n m : Nat) (q e : Int),
      q = max (top - f.fb) (1 - (f.bias : Int) - f.fb) ∧ Neighbour rm neg x q n ∧
      r.1 < 2 ^ (f.signBit + 1) ∧ f.read r.1 = .fin neg m e ∧ dyCmp m e n q = .eq ∧
      r.2 = if x n q = .eq then 0 else if dyCmp nU (top - f.fb) 1 (1 - (f.bias : Int)) = .lt then 3 else 1)

/-- a + b (R45, R47, R48, R153): a NaN operand, ∞ − ∞, an infinite operand, an exact zero sum, and else the exact sum rounded once. -/
def FFmt.Summed (f : FFmt) (rm : RMode) (a b : FV) (r : FRes) : Prop :=
  match a, b with
  | .nan i, b => r = (f.nan, invalidIf (i || b.isSig))
  | .inf _, .nan j | .fin _ _ _, .nan j => r = (f.nan, invalidIf j)
  | .inf i, .inf j => r = if i = j then (f.infinity i, 0) else (f.nan, 16)
  | .inf i, .fin _ _ _ | .fin _ _ _, .inf i => r = (f.infinity i, 0)
  | .fin i m e, .fin j n k =>
    let z := (if i then -1 else 1) * ((m * 2 ^ (e - min e k).toNat : Nat) : Int) +
      (if j then -1 else 1) * ((n * 2 ^ (k - min e k).toNat : Nat) : Int)
    (z = 0 → r = (f.zero (if m = 0 ∧ i = j then i else decide (rm = .rd)), 0)) ∧
    (z ≠ 0 → f.Rounded rm false (decide (z < 0)) (exactly z.natAbs (min e k)) r)

/-- a × b (R45, R47, R48, R153). -/
def FFmt.Multiplied (f : FFmt) (rm : RMode) (a b : FV) (r : FRes) : Prop :=
  match a, b with
  | .nan i, b => r = (f.nan, invalidIf (i || b.isSig))
  | .inf _, .nan j | .fin _ _ _, .nan j => r = (f.nan, invalidIf j)
  | .inf i, .inf j => r = (f.infinity (i != j), 0)
  | .inf i, .fin j m _ | .fin j m _, .inf i => r = if m = 0 then (f.nan, 16) else (f.infinity (i != j), 0)
  | .fin i m e, .fin j n k =>
    (m * n = 0 → r = (f.zero (i != j), 0)) ∧ (m * n ≠ 0 → f.Rounded rm false (i != j) (exactly (m * n) (e + k)) r)

/-- a × b + c rounded once (R153): 0 × ∞ raises invalid even beside a quiet NaN. -/
def FFmt.Fused (f : FFmt) (rm : RMode) (a b c : FV) (r : FRes) : Prop :=
  let undefinedProduct := (∃ i j k, a = .inf i ∧ b = .fin j 0 k) ∨ ∃ i j k, a = .fin i 0 j ∧ b = .inf k
  let anyNan := a.isNan = true ∨ b.isNan = true ∨ c.isNan = true
  let invalid := a.isSig = true ∨ b.isSig = true ∨ c.isSig = true ∨ undefinedProduct
  (anyNan ∨ undefinedProduct → (invalid → r = (f.nan, 16)) ∧ (¬invalid → r = (f.nan, 0))) ∧
  (¬anyNan → ¬undefinedProduct → ∃ p, f.Summed rm p c r ∧
    match a, b with
    | .fin i m e, .fin j n k => p = .fin (i != j) (m * n) (e + k)
    | .inf i, .inf j | .inf i, .fin j _ _ | .fin i _ _, .inf j => p = .inf (i != j)
    | .nan _, _ | .inf _, .nan _ | .fin _ _ _, .nan _ => False)

/-- A value in a format with a format's own NaN and infinities (R51): what a conversion to it gives. -/
def FFmt.Converted (f : FFmt) (rm : RMode) (sat : Bool) (a : FV) (r : FRes) : Prop :=
  match a with
  | .nan i => r = (f.nan, invalidIf i)
  | .inf i => r = if f.inf then (f.infinity i, 0) else (f.signed i f.maxCode, 5)
  | .fin i m e => (m = 0 → r = (f.zero i, 0)) ∧ (m ≠ 0 → f.Rounded rm sat i (exactly m e) r)

/-- FP32 to a 32-bit integer from lo to hi (R51). -/
def Integral (lo hi : Int) (rm : RMode) (a : FV) (r : Word × BitVec 5) : Prop :=
  match a with
  | .nan _ => r = (0, 16)
  | .inf i => r = (BitVec.ofInt 32 (if i then lo else hi), 16)
  | .fin i m e => ∃ n z, Neighbour rm i (exactly m e) 0 n ∧ z = (if i then -(n : Int) else n) ∧
    r = if z < lo then (BitVec.ofInt 32 lo, 16) else if hi < z then (BitVec.ofInt 32 hi, 16)
      else (BitVec.ofInt 32 z, if dyCmp m e n 0 = .eq then 0 else 1)

/-- An element of QUANT's block over its scale (R58): a code of the target and its flags. -/
def Quantised (t : QTarget) (a scale : FV) (r : FRes) : Prop :=
  ∃ i m e n k, a = .fin i m e ∧ scale = .fin false n k ∧
    match t with
    | .e4m3 => (m = 0 → r = (e4m3.zero i, 0)) ∧ (m ≠ 0 → e4m3.Rounded .rne true i (exactQuotient m e n k) r)
    | .e5m2 => (m = 0 → r = (e5m2.zero i, 0)) ∧ (m ≠ 0 → e5m2.Rounded .rne true i (exactQuotient m e n k) r)
    | .s4 => ∃ z : Nat, Neighbour .rne i (exactQuotient m e n k) 0 z ∧
      r.1 = (BitVec.ofInt 4 ((if i then -1 else 1) * (min z 7 : Nat))).toNat ∧
      r.2 = if 7 < z then 5 else if exactQuotient m e n k z 0 = .eq then 0 else 1

/-- The scale, the elements and the flags of a block of FP32 codes (R58). -/
def BlockQuantised (t : QTarget) (xs : List Nat) (r : Nat × List Nat × BitVec 5) : Prop :=
  let finite := ∀ x ∈ xs, ∃ i m e, f32.read x = .fin i m e
  let largest : Nat := match t with
    | .e4m3 => 448
    | .e5m2 => 57344
    | .s4 => 7
  let nanCode : Nat := match t with
    | .e4m3 => 0x7F
    | .e5m2 => 0x7E
    | .s4 => 8
  (¬finite → r = (0x7FC00000, xs.map fun _ => nanCode, 16)) ∧
  (finite → (∀ x ∈ xs, ∃ i e, f32.read x = .fin i 0 e) → r.1 = 0x3F800000 ∧ r.2.2 = 0 ∧ r.2.1.length = xs.length ∧
    ∀ (j x y : Nat), xs[j]? = some x → r.2.1[j]? = some y → Quantised t (f32.read x) (.fin false 1 0) (y, 0)) ∧
  (finite → ∀ a ∈ xs, ∀ i m e, f32.read a = .fin i m e → m ≠ 0 →
    (∀ b ∈ xs, ∀ j n k, f32.read b = .fin j n k → dyCmp n k m e ≠ .gt) →
    ∃ (q : FRes) (els : List FRes), f32.Rounded .rne false false (exactQuotient m e largest 0) q ∧
      r.1 = (if q.1 = 0 then 1 else q.1) ∧ r.2.1 = els.map (·.1) ∧ els.length = xs.length ∧
      (∀ (j x : Nat) (y : FRes), xs[j]? = some x → els[j]? = some y → Quantised t (f32.read x) (f32.read r.1) y) ∧
      ∀ n, r.2.2.getLsbD n = true ↔ q.2.getLsbD n = true ∨ ∃ y ∈ els, y.2.getLsbD n = true)

/-- Bits pos to pos + w - 1 of a word replaced by those of x, the others kept (R158). -/
def insertRule (old : Word) (pos w x : Nat) : Word :=
  bitsOf fun i => if pos ≤ i ∧ i < pos + w then x.testBit (i - pos) else old.getLsbD i

/-- Instruction i completes for every issuing gang; the words and flags of each unit l satisfy R for the crew before it. -/
def ComputesBy (i : Instr) (h : Hdr) (u : Bool) (d : Nat) (R : Crew → Nat → Nat → List Word × BitVec 5 → Prop) : Prop :=
  ∀ (s : State) (uid g : Nat) (c : Crew), s.Issues uid g c i → ∃ f : Nat → List Word × BitVec 5,
    (∀ l, c.Unit g h.guard u l → R c g l (f l)) ∧
    s.CrewTo (exec i s) c fun c' => c.Wrote c' g h.form.bytes u d (c.Unit g h.guard u) f

/-! ## Lane instructions (R161 to R167) -/

/-- Lane k exists and its slice is live and of gang g. -/
def Crew.Reaches (c : Crew) (g k : Nat) : Prop := ∃ x, c.slices[k / 4]? = some x ∧ x.live = true ∧ x.gang = g

/-- The word of a lane move: vA of the source lane where that is reachable, else vA of the lane itself (R162). -/
def Crew.MovedFrom (c : Crew) (g l a : Nat) (src : Int) (w : Word) : Prop :=
  (∀ k : Nat, src = k → c.Reaches g k → w = c.vget k a) ∧ ((∀ k : Nat, src = k → ¬c.Reaches g k) → w = c.vget l a)

/-- A lane move writes vD of each participating lane by `src`, from the lane's number and its B value. -/
def LaneMove (mk : Shfl → Instr) (src : Nat → Nat → Int) : Prop :=
  ∀ o : Shfl, ComputesBy (mk o) o.h false o.d.toNat fun c g l r =>
    ∃ w, r = noFlags [w] ∧ c.MovedFrom g l o.a.toNat (src l (c.b32 false l o.b).toNat) w

/-- The step and identity of a fold (R164). -/
def foldStepRule (op : FoldOp) (rm : RMode) (x y : Word) : Word × BitVec 5 :=
  match op with
  | .iadd => (BitVec.ofNat 32 (x.toNat + y.toNat), 0)
  | .fadd => (BitVec.ofNat 32 (f32.addV rm (f32.read x.toNat) (f32.read y.toNat)).1,
      (f32.addV rm (f32.read x.toNat) (f32.read y.toNat)).2)
  | .imins => (BitVec.ofInt 32 (min x.toInt y.toInt), 0)
  | .iminu => (BitVec.ofNat 32 (min x.toNat y.toNat), 0)
  | .imaxs => (BitVec.ofInt 32 (max x.toInt y.toInt), 0)
  | .imaxu => (BitVec.ofNat 32 (max x.toNat y.toNat), 0)
  | .and => (x &&& y, 0)
  | .or => (x ||| y, 0)
  | .xor => (x ^^^ y, 0)
  | .fmin => (BitVec.ofNat 32 (minMaxRule f32 false x.toNat y.toNat).1, (minMaxRule f32 false x.toNat y.toNat).2)
  | .fmax => (BitVec.ofNat 32 (minMaxRule f32 true x.toNat y.toNat).1, (minMaxRule f32 true x.toNat y.toNat).2)
def foldStart : FoldOp → Word
  | .iadd | .imaxu | .or | .xor => 0
  | .fadd | .imaxs => 0x80000000
  | .imins => 0x7FFFFFFF
  | .iminu | .and => 0xFFFFFFFF
  | .fmin => 0x7F800000
  | .fmax => 0xFF800000

/-- ((identity op x0) op x1) op …, with the flags of every step. -/
def foldRule (op : FoldOp) (rm : RMode) (xs : List Word) : List Word × BitVec 5 :=
  let r := xs.foldl (fun (a : Word × BitVec 5) x => ((foldStepRule op rm a.1 x).1, a.2 ||| (foldStepRule op rm a.1 x).2))
    (foldStart op, 0)
  ([r.1], r.2)

/-- The rank of an element of SPCOMP: NaN and the S4 code 0b1000 highest, then infinities, then the magnitude (R166). -/
def sparseRank (f : SpFmt) (x : Nat) : Nat :=
  let mag := fun (w top inf : Nat) => -- magnitude codes above `inf` are NaN, `inf` itself is an infinity
    let m := x % 2 ^ (w - 1)
    if inf < m then top + 1 else if m = inf then top else m
  match f with
  | .e4m3 => if x % 2 ^ 7 = 0x7F then 2 ^ 16 else x % 2 ^ 7
  | .e5m2 => mag 8 (2 ^ 16) 0x7C
  | .bf16 => mag 16 (2 ^ 16) 0x7F80
  | .int8 => (BitVec.ofNat 8 x).toInt.natAbs
  | .s4 => if x = 8 then 2 ^ 16 else (BitVec.ofNat 4 x).toInt.natAbs

/-- `kept` are the m / 2 highest-ranked of m elements in ascending index order, equal ranks going to the lower index (R166). -/
def KeptOf (rank : Nat → Nat) (m : Nat) (kept : List Nat) : Prop :=
  kept.Pairwise (· < ·) ∧ kept.length = m / 2 ∧ (∀ i ∈ kept, i < m) ∧
  ∀ i ∈ kept, ∀ j, j < m → j ∉ kept → rank j < rank i ∨ (rank j = rank i ∧ i < j)

/-- Lanes in a group and bits of an element (R166). -/
def sparseGroup : SpPat → Nat
  | .p24 => 4
  | .p48 => 8
  | .p1632 => 32
def sparseBits : SpFmt → Nat
  | .e4m3 | .e5m2 | .int8 => 8
  | .s4 => 4
  | .bf16 => 16

/-! ## Control (R20 to R25, R37, R38, R168 to R174) -/

/-- The bits of the participating lanes of slice i. -/
def Crew.takenMask (c : Crew) (g : Nat) (gd : Guard) (i : Nat) : BitVec 4 :=
  BitVec.ofNat 4 (((List.range 4).map fun j => if (c.parts g gd).contains (4 * i + j) then 2 ^ j else 0).sum)

/-- The slices of c' that are live stand in gangs: two in one gang exactly if `same` relates them, and each gang is named by its
lowest slice. -/
def Crew.Grouped (c' : Crew) (same : Nat → Nat → Prop) : Prop :=
  ∀ (i : Nat) (x : Slice), c'.slices[i]? = some x → x.live = true →
    x.gang ≤ i ∧ c'.inGang x.gang x.gang = true ∧ ∀ (j : Nat) (y : Slice), c'.slices[j]? = some y → y.live = true →
      (x.gang = y.gang ↔ same i j)

/-- Slices i and j were in one gang. -/
def Crew.Together (c : Crew) (i j : Nat) : Prop := ∃ g, c.inGang g i = true ∧ c.inGang g j = true

/-- Crew c' is crew c with each slice replaced by `f`, but for the gangs it stands in; nothing else of the crew differs. -/
def Crew.SlicesTo (c c' : Crew) (f : Nat → Slice → Slice) : Prop :=
  c' = { c with slices := c'.slices } ∧ c'.slices.length = c.slices.length ∧
  ∀ (i : Nat) (x x' : Slice), c.slices[i]? = some x → c'.slices[i]? = some x' → x' = { f i x with gang := x'.gang }

/-- Where a slice with these taken lanes goes (R23): on to the next instruction, to the target, or to the target with the other
active lanes pushed. -/
def branchRule (taken : BitVec 4) (next target : BitVec 64) (x : Slice) : Slice :=
  if taken = 0 then { x with pc := next }
  else if taken = x.active then { x with pc := target }
  else { x with pc := target, active := taken, stack := ⟨next, x.active &&& ~~~taken⟩ :: x.stack }

/-- A slice of gang g would have to push a fifth entry (R23). -/
def Crew.WouldOverflow (c : Crew) (g : Nat) (gd : Guard) : Prop :=
  ∃ (i : Nat) (x : Slice), c.slices[i]? = some x ∧ c.inGang g i = true ∧ c.takenMask g gd i ≠ 0 ∧ c.takenMask g gd i ≠ x.active ∧
    4 ≤ x.stack.length

/-- Crew c' is crew c after gang g's branch of n bytes (R20, R23, R169): slices with taken lanes go to their target, after `link`;
slices in the gang that go to different places part, and every other gang stays as it is. -/
def Crew.Branched (c c' : Crew) (g n : Nat) (gd : Guard) (target : Nat → BitVec 64) (link : Slice → Slice) : Prop :=
  c.SlicesTo c' (fun i x =>
    if c.inGang g i then
      branchRule (c.takenMask g gd i) (x.pc + BitVec.ofNat 64 n) (target i) (if c.takenMask g gd i = 0 then x else link x)
    else x) ∧
  c'.Grouped fun i j => c.Together i j ∧ (c.inGang g i = true →
    (c.takenMask g gd i = 0 ∧ c.takenMask g gd j = 0) ∨
    (c.takenMask g gd i ≠ 0 ∧ c.takenMask g gd j ≠ 0 ∧ target i = target j))

/-- JOIN in a slice, with the address after it (R24). -/
def joinRule (after : BitVec 64) (x : Slice) : Slice :=
  match x.stack with
  | [] => { x with pc := after }
  | top :: rest =>
    if top.addr = after then { x with active := x.active ||| top.mask, pc := after, stack := rest }
    else { x with active := top.mask, pc := top.addr, stack := ⟨after, x.active⟩ :: rest }

/-- EXIT of lanes in a slice, with the address after it (R25, R170): they leave the active mask and every stacked mask; active lanes
that remain go on, else the top entry is joined. -/
def exitRule (gone : BitVec 4) (after : BitVec 64) (x : Slice) : Slice :=
  let y : Slice := { x with active := x.active &&& ~~~gone, exited := x.exited ||| gone,
                            stack := x.stack.map fun (e : DivEntry) => { e with mask := e.mask &&& ~~~gone } }
  if y.active ≠ 0 then { y with pc := after }
  else
    match y.stack with
    | [] => if y.exited = 15 then y else { y with pc := after }
    | top :: _ => joinRule top.addr y

/-- The crew passes an instruction of n bytes in gang g and a region starts in each of its slices (R37, R38). -/
def State.PassesIntoRegion (s t : State) (c : Crew) (g n : Nat) : Prop :=
  ∃ c', t = { s.setCrew c' with nextId := s.nextId + 1 } ∧ c' = { c with slices := c'.slices } ∧
    c'.slices.length = c.slices.length ∧
    ∀ (i : Nat) (x x' : Slice), c.slices[i]? = some x → c'.slices[i]? = some x' →
      x' = if c.inGang g i then
        { x with pc := x.pc + BitVec.ofNat 64 n, regctr := x.regctr + 1,
                 region := { ent := x.pc + BitVec.ofNat 64 n, mask := x.active, stack := x.stack, tag := s.nextId } }
      else x

/-- Only the pc of gang g's slices has moved, by n bytes, after `f` on the crew. -/
def Crew.Passed (c c' : Crew) (g n : Nat) (f : Crew → Crew) : Prop :=
  c' = { f c with slices := c'.slices } ∧ c'.slices.length = c.slices.length ∧
  ∀ (i : Nat) (x x' : Slice), c.slices[i]? = some x → c'.slices[i]? = some x' →
    x' = if c.inGang g i then { x with pc := x.pc + BitVec.ofNat 64 n } else x

/-! ## Memory (04 R66 to R83; 05 R89, R90, R100; 08 R175 to R192) -/

/-- Crew c has become c', and no other crew has changed. -/
def State.OnlyCrew (s t : State) (c c' : Crew) : Prop :=
  t.crew? c.uid = some c' ∧ t.crews.length = s.crews.length ∧
  ∀ (j : Nat) (k : Crew), s.crews[j]? = some k → k.uid ≠ c.uid → t.crews[j]? = some k

/-- A slice that has passed n bytes, into a new region if `tag` names one (R37, R38). -/
def Slice.past (x : Slice) (n : Nat) (tag : Option Nat) : Slice :=
  let y : Slice := { x with pc := x.pc + BitVec.ofNat 64 n }
  match tag with
  | none => y
  | some k => { y with regctr := x.regctr + 1, region := { ent := y.pc, mask := x.active, stack := x.stack, tag := k } }

/-- Crew c' is crew c after `f` and after gang g has passed n bytes. -/
def Crew.Went (c c' : Crew) (g n : Nat) (tag : Option Nat) (f : Crew → Crew) : Prop :=
  c' = { f c with slices := c'.slices } ∧ c'.slices.length = c.slices.length ∧
  ∀ (i : Nat) (x x' : Slice), c.slices[i]? = some x → c'.slices[i]? = some x' → x' = if c.inGang g i then x.past n tag else x

/-- The participating lanes with their addresses (R176). -/
def Crew.eas (c : Crew) (g : Nat) (h : XHdr) (e : Ea) : List (Nat × BitVec 64) := (c.parts g h.guard).map fun l => (l, c.ea l e)

/-- What the memory instructions do at issue (R175 to R177): bytes of the encoding, the lanes' addresses, the access, the vector
registers written, and whether they are effectful, release, and trap under a non-root hypothesis. -/
def accessOf (i : Instr) (c : Crew) (g : Nat) : Option MemOp :=
  let wide := fun (sc : Scope) => sc == .dev || sc == .sys
  let ld := fun (h : XHdr) (e : Ea) (d : BitVec 7) (sc : Scope) (acq : Bool) (n : Nat) => some
    { len := 12, lanes := c.eas g h e, acc := ⟨n, false, .load, wide sc && !acq⟩, vregs := rangeFrom d.toNat (if n ≤ 4 then 1 else n / 4),
      sregs := [], effect := false, rel := false, rootOnly := false, watchRd := true, watchWr := false : MemOp }
  let st := fun (h : XHdr) (e : Ea) (len : Nat) (sc : Scope) (rel : Bool) (n : Nat) => some
    { len := len, lanes := c.eas g h e, acc := ⟨n, true, .store, wide sc && !rel⟩, vregs := [], sregs := [], effect := false,
      rel := rel, rootOnly := false, watchRd := false, watchWr := true : MemOp }
  let rmw := fun (h : XHdr) (e : Ea) (len n : Nat) (sort : Sort_) (d : Option (BitVec 7)) (rel : Bool) => some
    { len := len, lanes := c.eas g h e, acc := ⟨n, true, sort, false⟩,
      vregs := match d with
        | some r => rangeFrom r.toNat (n / 4)
        | none => [],
      sregs := [], effect := true, rel := rel, rootOnly := true, watchRd := true, watchWr := true : MemOp }
  let upd := fun (h : XHdr) (e : Ea) (op : UOp) => some
    { len := 12, lanes := c.eas g h e, acc := ⟨uBytes op, true, .update, false⟩, vregs := [], sregs := [], effect := true,
      rel := false, rootOnly := true, watchRd := false, watchWr := true : MemOp }
  let lit := fun (b : SrcV) => match b with
    | .reg _ => 12
    | .lit _ => 20
  let rel4 := fun (o : Ord4) => o == .rel || o == .ar
  let w := fun (w64 : Bool) => if w64 then 8 else 4
  match i with
  | .ld8 o => ld o.h o.ea o.d o.scope o.acq 1
  | .ld16 o => ld o.h o.ea o.d o.scope o.acq 2
  | .ld32 o => ld o.h o.ea o.d o.scope o.acq 4
  | .ld64 o => ld o.h o.ea o.d o.scope o.acq 8
  | .ld128 o => ld o.h o.ea o.d o.scope o.acq 16
  | .ldna o => ld o.h o.ea o.d o.scope o.acq (lsize o.size).1
  | .st8 o => st o.h o.ea (lit o.b) o.scope o.rel 1
  | .st16 o => st o.h o.ea (lit o.b) o.scope o.rel 2
  | .st32 o => st o.h o.ea (lit o.b) o.scope o.rel 4
  | .st64 o => st o.h o.ea (lit o.b) o.scope o.rel 8
  | .st128 o => st o.h o.ea 12 o.scope o.rel 16
  | .atom o => rmw o.h o.ea (lit o.b) (atomBytes o.op)
      (.atomic (o.op == .add || o.op == .add64 || o.op == .exch || o.op == .exch64)) (some o.d) (rel4 o.ord)
  | .red o => rmw o.h o.ea (lit o.b) (atomBytes o.op)
      (.atomic (o.op == .add || o.op == .add64 || o.op == .exch || o.op == .exch64)) none o.rel
  | .redm o => rmw o.h o.ea (lit o.b) (atomBytes o.op) .redm none false
  | .cas o => rmw o.h o.ea (lit o.b) (w o.w64) (.atomic true) (some o.d) (rel4 o.ord)
  | .casgt o => rmw o.h o.ea (lit o.b) (w o.w64) (.atomic false) (some o.d) (rel4 o.ord)
  | .casv o => rmw o.h o.ea 12 8 (.atomic false) (some o.d) (rel4 o.ord)
  | .caspt o => rmw o.h o.ea 12 8 (.atomic false) (some o.d) (rel4 o.ord)
  | .cas128 o => rmw o.h o.ea 12 16 (.atomic true) (some o.d) (rel4 o.ord)
  | .uadd32 o => upd o.h o.ea .uadd32
  | .uadd64 o => upd o.h o.ea .uadd64
  | .umins o => upd o.h o.ea .umins
  | .umaxs o => upd o.h o.ea .umaxs
  | .uminu o => upd o.h o.ea .uminu
  | .umaxu o => upd o.h o.ea .umaxu
  | .uminf o => upd o.h o.ea .uminf
  | .umaxf o => upd o.h o.ea .umaxf
  | .uor64 o => upd o.h o.ea .uor64
  | .uacc o => upd o.h o.ea .uacc
  | .usnap o => rmw o.h o.ea 12 (uBytes o.op) .update (some o.d) true
  | .msend o => some
      { len := 12, lanes := c.eas g o.h o.ea, acc := ⟨8, true, .msend, false⟩, vregs := [o.d.toNat], sregs := [], effect := true,
        rel := o.rel, rootOnly := false, watchRd := false, watchWr := true }
  | _ => none

/-- The line and key a target in DRAM has. -/
def Target.line? : Target → Option (Nat × Nat)
  | .dram loc key _ _ _ => some (loc / 128, key)
  | .scratch _ _ | .mail _ _ | .host _ _ | .rmt _ _ => none

/-- Where a target's bytes are: their locations, or their scratchpad addresses. -/
def Target.place : Target → Option Nat
  | .dram loc _ _ _ _ => some loc
  | .scratch k b => some (scratchAddr k b)
  | .mail _ _ | .host _ _ | .rmt _ _ => none

/-- COHERENT memory or a scratchpad. -/
def Target.committed : Target → Bool
  | .dram _ _ kind _ _ => kind == 0
  | .scratch _ _ => true
  | .mail _ _ | .host _ _ | .rmt _ _ => false

/-- A target lies in storage that exists, at a multiple of its size. -/
def Target.Placed (t : Target) (n : Nat) : Prop :=
  match t with
  | .dram loc _ _ _ _ => loc < 2 ^ 39 ∧ loc % n = 0
  | .scratch _ b => b % n = 0
  | .rmt _ pa => pa % n = 0
  | .mail _ _ | .host _ _ => True

/-- The lanes of list ts reach line `line`, under no other key than `key`. -/
def ReachOnly (ts : List LaneTo) (line key : Nat) : Prop := ∀ t ∈ ts, ∀ k, t.2.2.line? = some (line, k) → k = key
def ReachLine (ts : List LaneTo) (line : Nat) : Prop := ∃ t ∈ ts, ∃ k, t.2.2.line? = some (line, k)

/-- Nothing of a line must move before crew c's access to it: it is not in U, no update of it is on its way, and the L1 holds no PHASED
copy of it. -/
def State.Quiet (s : State) (c : Crew) (line : Nat) : Prop :=
  s.uline? line = none ∧ s.regsOf c.core line = [] ∧
  ∀ e ∈ s.caches, e.line = line → e.ph = true → e.place = .l1 c.core → e.gone = true

/-- State t is s after a memory instruction of gang g of crew c: crews, the places of copies and the bytes and poison of lines that
targets ts reach may differ, and the gang waits at no home. -/
def State.MemTo (s t : State) (c : Crew) (g : Nat) (ts : List LaneTo) : Prop :=
  t = { s.unhold c.uid g with crews := t.crews, caches := t.caches, mem := t.mem, lineKey := t.lineKey, poison := t.poison,
                              draws := t.draws, nextId := t.nextId } ∧
  ∀ line, (∀ x ∈ ts, ∀ p, x.2.2.place = some p → p / 128 ≠ line) → t.storeBad line = s.storeBad line

/-- Memory instruction m of crew c reaches ts, and nothing stands in its way: its checks pass (R177), no watch covers it (R331), no
line is poisoned (R369), no line is in U or about to be (R95) or has a PHASED copy in the L1 (R80), a release has no update to wait
for (R94) and a load no version of a RESOLVING id (R178). Lanes that reach one line use one key. -/
structure State.Ready (s : State) (c : Crew) (m : MemOp) (ts : List LaneTo) : Prop where
  mem : s.MemOk
  root : m.rootOnly = true → c.hyp = 0
  checks : s.checkLanes c m.acc m.lanes = .ok ts
  watch : c.watchHit m.watchRd m.watchWr m.acc.size m.lanes = none
  poison : m.watchRd = true → ∀ t ∈ ts, s.poisonedAt c m.acc.size t.2.2 = false
  quiet : ∀ t ∈ ts, ∀ line key, t.2.2.line? = some (line, key) → s.Quiet c line
  oneKey : ∀ t ∈ ts, ∀ line key, t.2.2.line? = some (line, key) → ReachOnly ts line key
  placed : ∀ t ∈ ts, t.2.2.Placed m.acc.size
  release : m.rel = true → s.regsPending c.uid = false
  resolved : m.acc.sort = .load → s.resolving c m.acc.size ts = false

/-- A committed line as a core reads it (R90): its L1's copy, else its die's, else the home's. -/
def State.coreLine (s : State) (core line key : Nat) : LineData := (s.fillL1 core line key).1

/-- A committed target's n bytes as a core reads them. -/
def State.coreVal (s : State) (core : Nat) (t : Target) (n : Nat) : Nat :=
  match t with
  | .dram loc key _ _ _ => lineGet (s.coreLine core (loc / 128) key) (loc % 128) n
  | .scratch k b => s.readMem (scratchAddr k b) n
  | .mail _ _ | .host _ _ | .rmt _ _ => 0

/-- A lane's store of n bytes covers byte a of a line, or scratchpad address a, with the byte of x there. -/
def Covers (t : Target) (n : Nat) (a : Nat) : Prop := ∃ p, t.place = some p ∧ p ≤ a ∧ a < p + n

/-- The value of the element at place p after lanes have applied f in list order: each leaves its result, or the old value where f
gives none (R187, R189). -/
def valueAfter (f : Nat → Nat → Option Nat) (p : Option Nat) (v : Nat) : List LaneTo → Nat
  | [] => v
  | (l, _, t) :: rest => valueAfter f p (if t.place = p then (f l v).getD v else v) rest

/-- Words of a loaded value (R178). -/
def loadRule (n : Nat) (signed : Bool) (x : Nat) : List Word :=
  match n with
  | 1 => [if signed then (BitVec.ofNat 8 x).signExtend 32 else (BitVec.ofNat 8 x).zeroExtend 32]
  | 2 => [if signed then (BitVec.ofNat 16 x).signExtend 32 else (BitVec.ofNat 16 x).zeroExtend 32]
  | 4 => [BitVec.ofNat 32 x]
  | 8 => [BitVec.ofNat 32 x, BitVec.ofNat 32 (x / 2 ^ 32)]
  | _ => [BitVec.ofNat 32 x, BitVec.ofNat 32 (x / 2 ^ 32), BitVec.ofNat 32 (x / 2 ^ 64), BitVec.ofNat 32 (x / 2 ^ 96)]

/-- The registers d of lanes hold the words of f, and no other vector register has changed. -/
def Crew.Loaded (c c' : Crew) (takes : Nat → Prop) (d k : Nat) (f : Nat → List Word → Prop) : Prop :=
  (∀ l, takes l → ∃ ws, f l ws ∧ ws.length = k ∧ ∀ i w, ws[i]? = some w → c'.vget l (d + i) = w) ∧
  ∀ l n, n < 128 → (¬takes l ∨ n < d ∨ d + k ≤ n) → c'.vget l n = c.vget l n

/-- Load i of n bytes into d completes: each lane gets its bytes, through the crew's hypothesis, and nothing else changes but the
places of copies. -/
def Loads (i : Instr) (h : XHdr) (d n : Nat) (signed na : Bool) : Prop :=
  ∀ (s : State) (uid g : Nat) (c : Crew) (m : MemOp) (ts : List LaneTo), s.Issues uid g c i → accessOf i c g = some m →
    s.Ready c m ts → (∀ t ∈ ts, t.2.2.committed = true) →
    ∃ t c', exec i s = .next t ∧ s.OnlyCrew t c c' ∧
      s.MemTo t c g ts ∧ t.draws = s.draws ∧ t.nextId = s.nextId ∧
      c.Went c' g 12 none (fun k => { k with v := c'.v }) ∧
      c.Loaded c' (c.Takes g h.guard) d (if n ≤ 4 then 1 else n / 4) (fun l ws =>
        ∃ va x r, (l, va, x) ∈ ts ∧ s.readTo c na x n = some r ∧ ws = loadRule n signed r.1) ∧
      t.MemOk ∧ (∀ a, ¬ReachLine ts (a / 128) → t.readMem a 1 = s.readMem a 1) ∧
      ∀ line key, ReachOnly ts line key → t.homeVal line key = s.homeVal line key

/-- The data of a store of n bytes (R175, R178). -/
def storeRule (c : Crew) (n l : Nat) : SrcV → Nat
  | .lit v => v.toNat % 2 ^ (8 * n)
  | .reg r =>
    let w := fun i => (c.vget l (r.toNat + i)).toNat
    match n with
    | 1 => w 0 % 2 ^ 8
    | 2 => w 0 % 2 ^ 16
    | 4 => w 0
    | 8 => w 0 + 2 ^ 32 * w 1
    | _ => w 0 + 2 ^ 32 * w 1 + 2 ^ 64 * w 2 + 2 ^ 96 * w 3

/-- After lanes have stored f, byte j of every reached line, as any core reads it, is the byte of some lane that covers it, else as
the storing core read it before; the same for scratchpads. -/
def State.Stored (s t : State) (c : Crew) (n : Nat) (ts : List LaneTo) (f : Nat → Nat) : Prop :=
  (∀ core line key j, j < 128 → ReachLine ts line → ReachOnly ts line key →
    (∃ x ∈ ts, Covers x.2.2 n (line * 128 + j) ∧
      ∀ p, x.2.2.place = some p → lineGet (t.coreLine core line key) j 1 = (f x.1 / 2 ^ (8 * (line * 128 + j - p))) % 256) ∨
    ((∀ x ∈ ts, ¬Covers x.2.2 n (line * 128 + j)) ∧
      lineGet (t.coreLine core line key) j 1 = lineGet (s.coreLine c.core line key) j 1)) ∧
  ∀ a, ¬ReachLine ts (a / 128) →
    (∃ x ∈ ts, Covers x.2.2 n a ∧ ∀ p, x.2.2.place = some p → t.readMem a 1 = (f x.1 / 2 ^ (8 * (a - p))) % 256) ∨
    ((∀ x ∈ ts, ¬Covers x.2.2 n a) ∧ t.readMem a 1 = s.readMem a 1)

/-- Store i of n bytes of b completes at the root: the bytes its lanes cover change, and no other byte of memory. -/
def Stores (i : Instr) (n : Nat) (b : SrcV) : Prop :=
  ∀ (s : State) (uid g : Nat) (c : Crew) (m : MemOp) (ts : List LaneTo), s.Issues uid g c i → accessOf i c g = some m →
    s.Ready c m ts → c.hyp = 0 → (∀ t ∈ ts, t.2.2.committed = true) →
    ∃ t c', exec i s = .next t ∧ s.OnlyCrew t c c' ∧
      s.MemTo t c g ts ∧ t.nextId = s.nextId ∧ c.Went c' g m.len none id ∧ t.MemOk ∧ s.Stored t c n ts (fun l => storeRule c n l b) ∧
      ∀ line key, ¬ReachLine ts line → t.homeVal line key = s.homeVal line key

/-- Atomic i completes: its lanes apply f one at a time in some order; `d` receives the old values (R187, R189). -/
def Applies (i : Instr) (h : XHdr) (n : Nat) (d : Option Nat) (f : Crew → Nat → Nat → Option Nat) : Prop :=
  ∀ (s : State) (uid g : Nat) (c : Crew) (m : MemOp) (ts : List LaneTo), s.Issues uid g c i → accessOf i c g = some m →
    s.Ready c m ts → (∀ t ∈ ts, t.2.2.committed = true) →
    ∃ (t : State) (c' : Crew) (order : List LaneTo), order.Perm ts ∧ exec i s = .next t ∧ s.OnlyCrew t c c' ∧
      s.MemTo t c g ts ∧ t.nextId = s.nextId + 1 ∧
      c.Went c' g m.len (some s.nextId) (fun k => { k with v := c'.v }) ∧
      (match d with
        | none => c'.v = c.v
        | some r => c.Loaded c' (c.Takes g h.guard) r (n / 4) fun l ws => ∃ k va x, order[k]? = some (l, va, x) ∧
            ws = loadRule n false (valueAfter (f c) x.place (s.coreVal c.core x n) (order.take k))) ∧
      t.MemOk ∧
      (∀ x ∈ ts, t.coreVal c.core x.2.2 n = valueAfter (f c) x.2.2.place (s.coreVal c.core x.2.2 n) order) ∧
      -- every byte outside the elements is as it was
      (∀ line key j, j < 128 → ReachLine ts line → ReachOnly ts line key → (∀ x ∈ ts, ¬Covers x.2.2 n (line * 128 + j)) →
        lineGet (t.coreLine c.core line key) j 1 = lineGet (s.coreLine c.core line key) j 1) ∧
      (∀ a, ¬ReachLine ts (a / 128) → (∀ x ∈ ts, ¬Covers x.2.2 n a) → t.readMem a 1 = s.readMem a 1) ∧
      ∀ line key, ¬ReachLine ts line → t.homeVal line key = s.homeVal line key

/-- mem := old op b (R186). -/
def atomRule (op : AtomOp) (old b : Nat) : Nat :=
  let lt32 := (BitVec.ofNat 32 old).slt (BitVec.ofNat 32 b)
  let lt64 := (BitVec.ofNat 64 old).slt (BitVec.ofNat 64 b)
  match op with
  | .add => (old + b) % 2 ^ 32
  | .add64 => (old + b) % 2 ^ 64
  | .fadd => (f32.addV .rne (f32.read old) (f32.read b)).1
  | .mins => if lt32 then old else b
  | .maxs => if lt32 then b else old
  | .minu | .minu64 => min old b
  | .maxu | .maxu64 => max old b
  | .mins64 => if lt64 then old else b
  | .maxs64 => if lt64 then b else old
  | .and | .and64 => old &&& b
  | .or | .or64 => old ||| b
  | .xor | .xor64 => old ^^^ b
  | .exch | .exch64 => b

/-- A lane's operand of n bytes, 4, 8 or 16 (R186, R189). -/
def Crew.opnd (c : Crew) (l n : Nat) (b : SrcV) : Nat := storeRule c n l b

/-- The lane operands of an update (R190, R191). -/
def updRule (op : UOp) (a b : Nat) : Nat :=
  match op with
  | .uadd32 => (a + b) % 2 ^ 32
  | .uadd64 => (a + b) % 2 ^ 64
  | .umins => if (BitVec.ofNat 32 b).slt (BitVec.ofNat 32 a) then b else a
  | .umaxs => if (BitVec.ofNat 32 a).slt (BitVec.ofNat 32 b) then b else a
  | .uminu => min a b
  | .umaxu => max a b
  | .uminf => (f32.minmax false a b).1
  | .umaxf => (f32.minmax true a b).1
  | .uor64 => a ||| b
  | .uacc => (f32.addV .rne (f32.read a) (f32.read b)).1

/-- The operands that hit the element at byte k of a line, in lane order. -/
def hits (ts : List LaneTo) (x : Nat → Nat) (line k : Nat) : List Nat :=
  ts.filterMap fun t => match updTarget t.2.2 with
    | some (ln, i, _, _) => if ln = line ∧ i = k then some (x t.1) else none
    | none => none

/-- Update i completes: in the issuing L1's copy of each line the lanes fold their operands, ascending, into what the copy held, or
into the identity; a copy it opens is registered; nothing else changes but what the L1 held of those lines (R191). -/
def Updates (i : Instr) (op : UOp) (x : Crew → Nat → Nat) : Prop :=
  ∀ (s : State) (uid g : Nat) (c : Crew) (m : MemOp) (ts : List LaneTo), s.Issues uid g c i → accessOf i c g = some m →
    s.MemOk → c.hyp = 0 → s.checkLanes c m.acc m.lanes = .ok ts → c.watchHit false true m.acc.size m.lanes = none →
    -- no peer of the package refuses (R298)
    (s.farFault c m ts).1 = none →
    (∀ t ∈ ts, t.2.2.Placed (uBytes op)) →
    -- the L1's copy of each line, if it has one, is under this operator and key
    (∀ t ∈ ts, ∀ line k key node, updTarget t.2.2 = some (line, k, key, node) →
      (∀ e, s.uCur c.core line = some e → e.op = some op ∧ e.key = key) ∧
      (∀ e ∈ s.caches, e.line = line → e.ph = true → e.place = .l1 c.core → e.gone = true) ∧
      ∀ t' ∈ ts, ∀ k' key' node', updTarget t'.2.2 = some (line, k', key', node') → key' = key) →
    let reached := fun line => ∃ t ∈ ts, ∃ r, updTarget t.2.2 = some (line, r)
    ∃ t c', exec i s = .next t ∧ s.OnlyCrew t c c' ∧
      t = { s.unhold c.uid g with crews := t.crews, caches := t.caches, regs := t.regs, mem := t.mem, lineKey := t.lineKey,
                                  poison := t.poison, nextId := s.nextId + 1 } ∧
      c.Went c' g 12 (some s.nextId) id ∧ t.MemOk ∧
      (∀ line, reached line → ∃ e, t.uCur c.core line = some e ∧ e.op = some op ∧
        ∀ k, k < 128 → k % uBytes op = 0 → lineGet e.data k (uBytes op) =
          (hits ts (x c) line k).foldl (updRule op) (match s.uCur c.core line with
            | some old => lineGet old.data k (uBytes op)
            | none => uIdent op)) ∧
      (∀ line, reached line → s.uCur c.core line = none → t.plainAt (.l1 c.core) line = none) ∧
      -- the home knows the L1's copy, or a registration on its way carries the crew, whose releases then wait for it (R94)
      (∀ line, reached line →
        (∃ u, s.uline? line = some u ∧ u.op = op ∧ c.core ∈ u.l1s) ∨
        (∃ r ∈ t.regs, r.line = line ∧ r.core = c.core ∧ r.op = op ∧ (r.crew = c.uid ∨ ∃ q ∈ r.more, q.1 = c.uid)) ∨
        (∃ p ∈ s.press, p.line = line ∧ p.op = op ∧ c.core ∈ p.l1s)) ∧
      (∀ line key, (¬reached line ∨ s.plainAt (.l1 c.core) line = none) → t.homeVal line key = s.homeVal line key) ∧
      (∀ core line, core ≠ c.core ∨ ¬reached line → t.uCur core line = s.uCur core line) ∧
      ∀ a, (∀ line, reached line → a / 128 = line → s.plainAt (.l1 c.core) line = none) → t.readMem a 1 = s.readMem a 1

/-- A chain of states, one for each element of a list. -/
def Chain {α : Type} (r : State → α → State → Prop) : State → List α → State → Prop
  | s, [], t => t = s
  | s, a :: as, t => ∃ m, r s a m ∧ Chain r m as t

/-- What a range instruction does to the line at an address (R183): a COHERENT line in U collapses; CLEANR leaves no dirty copy of it
and INVR none at all, its value in DRAM; PHASED dirty bytes of the issuing L1 are written back under their mask. -/
def State.RangeStep (c : Crew) (op : RangeOp) (s : State) (va : BitVec 64) (t : State) : Prop :=
  match s.checkAddr c ⟨1, false, .load, true⟩ va with
  | .ok (.dram loc key kind _ _) =>
    let line := loc / 128
    (∀ ln k, ln ≠ line → t.homeVal ln k = s.homeVal ln k) ∧ (∀ a, a / 128 ≠ line → t.readMem a 1 = s.readMem a 1) ∧
    t.crews = s.crews ∧
    (kind = 0 → t.uline? line = none ∧
      -- a U line's collapsed value is its home's, with what the package's other devices contribute; else the dirty copy is
      (∀ u, s.uline? line = some u → s.regsOf c.core line = [] → u.key = key → op = .uflush →
        t.homeVal line key = (s.gather u).2.collapseVal (s.gather u).1) ∧
      (s.uline? line = none → s.regsOf c.core line = [] → op = .uflush → t = s) ∧
      (s.uline? line = none → s.regsOf c.core line = [] → ∀ e, s.dirtyOf line = some e → op ≠ .uflush →
        t.dramLine line e.key = e.data) ∧
      (op ≠ .uflush → t.dirtyOf line = none) ∧ (op = .inv → t.anyPlain line = false)) ∧
    (kind = 1 → op ≠ .uflush → ∀ e, s.phased? c.core line c.ctx = some e → e.gone = false → e.dmask ≠ 0 → s.anyPlain line = false →
      s.uline? line = none → (∀ e' ∈ s.caches, e'.line = line → e'.ph = true → e'.place = .l1 c.core → e'.gone = false → e' = e) →
      t.dramLine line e.key = mergeMask e.dmask e.data (s.dramLine line e.key)) ∧
    ((kind = 2 ∨ kind = 1 ∧ op = .uflush) → t = s)
  | .ok (.rmt node pa) =>
    -- at its home: of another package by a packet, of this one through the switch
    (s.peerOf node = none → t = s.sendScafa 2 node pa (.range op.code)) ∧
    ∀ p, s.peerOf node = some p →
      match s.peerCall c.ctx p pa (.range op.code) with
      | .ok _ u => t = u
      | .bad _ _ _ _ => t = s
      | .wait _ => False
  | .ok (.scratch _ _) | .ok (.mail _ _) | .ok (.host _ _) | .hold _ | .bad _ _ _ | .collapse _ | .wait => t = s

/-- The 128-byte lines that [base, base + len) meets, each by its lowest address (R183). -/
def linesMet (base : BitVec 64) (len : Nat) : List (BitVec 64) :=
  (List.range ((base.toNat + len - 1) / 128 + 1 - base.toNat / 128)).map fun k => BitVec.ofNat 64 ((base.toNat / 128 + k) * 128)

/-! ## Barriers, mailboxes and events (05 R109 to R112; 08 R193 to R205) -/

/-- The lane that gives a once-per-gang instruction its operands: the lowest participating one. -/
def Crew.Leads (c : Crew) (g : Nat) (gd : Guard) (l : Nat) : Prop := c.Takes g gd l ∧ ∀ k, k < l → ¬c.Takes g gd k

/-- The fields of a barrier object after a step that changes ARRV or PEND (R111): the phase completes when nothing is missing. -/
def barRule (pend : BitVec 64) (arrv quota : Nat) (par : Bool) : BitVec 64 × Nat × Bool :=
  if arrv = 0 ∧ pend = 0 then (pend, quota, !par) else (pend, arrv, par)

/-- The object of 16 bytes at a target is in storage that needs no waiting, and reads as these fields (R109). -/
structure State.BarAt (s : State) (c : Crew) (va : BitVec 64) (write : Bool) (x : Target) (pend : BitVec 64) (arrv quota : Nat)
    (par : Bool) : Prop where
  mem : s.MemOk
  checks : s.checkAddr c ⟨16, write, .barrier, false⟩ va = .ok x
  poison : s.poisonedAt c.atRoot 16 x = false
  kind : x.committed = true
  placed : x.Placed 16
  quiet : ∀ line key, x.line? = some (line, key) → s.Quiet c line
  pend : s.coreVal c.core x 8 = pend.toNat
  counts : s.coreVal c.core x 16 / 2 ^ 64 % 2 ^ 32 = arrv + 2 ^ 16 * quota
  range : arrv < 2 ^ 16 ∧ quota < 2 ^ 16
  parity : (s.coreVal c.core x 16).testBit 96 = par

/-- The object reads as these fields for core k. -/
def State.BarIs (s : State) (k : Nat) (x : Target) (pend : BitVec 64) (arrv quota : Nat) (par : Bool) : Prop :=
  s.coreVal k x 16 = pend.toNat + 2 ^ 64 * arrv + 2 ^ 80 * quota + 2 ^ 96 * par.toNat

/-- The fields after a step that computes r from (pend, arrv, quota, par): each is the one computed, or, where software has stored
another value there since the last step, the one that it stored (R110). -/
def State.BarLeaves (s t : State) (x : Target) (pend : BitVec 64) (arrv quota : Nat) (par : Bool) (r : BitVec 64 × Nat × Bool) : Prop :=
  let stored := fun (P : Bar → Prop) => ∃ m ∈ s.bars, m.loc = s.placeNow (barPlace x) ∧ P (Bar.read m.value.toNat)
  ∃ pe ar pa, (∀ k, t.BarIs k x pe ar quota pa) ∧ (pe = r.1 ∨ pe = pend ∧ stored fun m => m.pending ≠ pend) ∧
    (ar = r.2.1 ∨ ar = arrv ∧ stored fun m => m.arrv.toNat ≠ arrv) ∧ (pa = r.2.2 ∨ pa = par ∧ stored fun m => m.par ≠ par)

/-- A barrier step writes the object and nothing else of memory; only crews' pend bits may follow from it (R202). -/
def State.BarStep (s t : State) (c : Crew) (g : Nat) (x : Target) : Prop :=
  t = { s.unhold c.uid g with crews := t.crews, caches := t.caches, mem := t.mem, lineKey := t.lineKey, poison := t.poison,
                              bars := t.bars, credits := t.credits, nextId := t.nextId, draws := t.draws } ∧ t.MemOk ∧
  (∀ m, m.loc ≠ s.placeNow (barPlace x) → (m ∈ t.bars ↔ m ∈ s.bars)) ∧
  (∀ line, (∀ p, x.place = some p → p / 128 ≠ line) → t.storeBad line = s.storeBad line) ∧
  (∀ line key, x.line?.map (·.1) ≠ some line → t.homeVal line key = s.homeVal line key) ∧
  (∀ a, x.line?.map (·.1) ≠ some (a / 128) → ¬Covers x 16 a → t.readMem a 1 = s.readMem a 1) ∧
  (∀ line key j, x.line? = some (line, key) → j < 128 → ¬Covers x 16 (line * 128 + j) →
    lineGet (t.coreLine c.core line key) j 1 = lineGet (s.coreLine c.core line key) j 1)

/-- Every crew but c is as it was, but for its pend bits, which may rise. -/
def State.OnlyPends (s t : State) (c c' : Crew) : Prop :=
  t.crew? c.uid = some c' ∧ t.crews.length = s.crews.length ∧
  ∀ (j : Nat) (k : Crew), s.crews[j]? = some k → k.uid ≠ c.uid →
    ∃ k', t.crews[j]? = some k' ∧ k' = { k with pend := k'.pend } ∧ k'.pend &&& k.pend = k.pend

/-- Crew c' is crew c after `f`, with scalar register n of every slice of gang g set, and gang g past the instruction. -/
def Crew.SetsScalar (c c' : Crew) (g len n : Nat) (tag : Option Nat) (w : Word) (f : Crew → Crew) : Prop :=
  c' = { f c with slices := c'.slices } ∧ c'.slices.length = c.slices.length ∧
  ∀ (i : Nat) (x x' : Slice), c.slices[i]? = some x → c'.slices[i]? = some x' →
    if c.inGang g i then x' = { x.past len tag with s := x'.s } ∧ x'.sget n = w ∧ ∀ k, k ≠ n → x'.sget k = x.sget k else x' = x

/-- One operation still owes a slice both registers of pair a (R203). -/
def Slice.OwesPair (x : Slice) (a : Nat) : Prop := ∃ id, mfind x.spend a = some id ∧ mfind x.spend (a + 1) = some id

/-- A slot's condition (R202), for the kinds that are no barrier. -/
def State.EventTrue (s : State) (c : Crew) (kind : EvKind) (a : BitVec 6) (obj : BitVec 64) : Prop :=
  match kind with
  | .bar _ => False
  -- the status pair is pending in no live slice (R203)
  | .stat => ∀ x ∈ c.slices, x.live = true → ¬x.OwesPair a.toNat
  | .mbox => mget [] (s.core c.core).mail obj.toNat ≠ []
  | .hyp => ∃ x, s.ctx? c.ctx = some x ∧ ((x.hypOf (obj.setWidth 8)).st = .free ∨ (x.hypOf (obj.setWidth 8)).st = .discarding)
  | .timer => obj.toNat ≤ s.dieTime (c.core / 32)

/-- Every live slice goes on at a handler in a new region (R205). -/
def Crew.AtHandler (c c' : Crew) (h : BitVec 64) (tag : Nat) (f : Crew → Crew) : Prop :=
  c' = { f c with slices := c'.slices } ∧ c'.slices.length = c.slices.length ∧
  ∀ (i : Nat) (x x' : Slice), c.slices[i]? = some x → c'.slices[i]? = some x' →
    x' = if x.live then
      { x with pc := h, wait := .none, regctr := x.regctr + 1, region := { ent := h, mask := x.active, stack := x.stack, tag := tag } }
    else x

/-- The crew's issue of memory instruction m ends in a late fault (R39, R177): the pc passes on, the first fault of the crew is kept,
each slice with a participating lane remembers it and its lanes' destinations, and nothing else changes. -/
def State.LateAs (s : State) (o : Out) (c : Crew) (g : Nat) (m : MemOp) (lane : Nat) (va : BitVec 64) (cause detail : BitVec 8)
    (level : Nat) (err : Option ErrAt := none) : Prop :=
  ∃ t c', o = .next t ∧ s.OnlyCrew t c c' ∧ t = { s.unhold c.uid g with crews := t.crews } ∧
    c' = { c with slices := c'.slices, late := c'.late, lateGang := c'.lateGang } ∧
    c'.late = some (c.late.getD { cause := cause, late := true, lane := BitVec.ofNat 5 lane, detail := detail,
                                  level := BitVec.ofNat 3 level, epc := c.gangPc g, val := va, err := err }) ∧
    c'.lateGang = (if c.late.isSome then c.lateGang else g) ∧ c'.slices.length = c.slices.length ∧
    ∀ (i : Nat) (x x' : Slice), c.slices[i]? = some x → c'.slices[i]? = some x' →
      let y := if c.inGang g i then x.past m.len none else x
      if ∃ l ∈ m.lanes, l.1 / 4 = i then
        x' = { y with lateHit := true, vlate := x'.vlate } ∧
        ∀ k, k ∈ x'.vlate ↔ k ∈ x.vlate ∨ ∃ l ∈ m.lanes, l.1 / 4 = i ∧ ∃ n ∈ m.vregs, k = l.1 * 128 + n
      else x' = y

/-- Event slot e of crew c may be taken: it is live and pending, and no mailbox that is empty (R205). -/
def State.Takable (s : State) (c : Crew) (live : BitVec 8) (e : Nat) : Prop :=
  live.getLsbD e = true ∧ c.pend.getLsbD e = true ∧
  ∃ v, c.slots[e]? = some v ∧ (v.kind = 2 → mget [] (s.core c.core).mail v.obj.toNat ≠ [])

/-- The mailbox that event e of crew c names, if it names one, gives a message without an uncorrectable error (R369). -/
def State.Sound (s : State) (c : Crew) (e : Nat) : Prop :=
  ∀ v, c.slots[e]? = some v → v.kind = 2 → v.obj.toNat ∉ (s.core c.core).mailBad

/-- The crew takes event e of its live slots (R205): the lowest takable one. A mailbox gives its oldest message and stays bound, any
other slot is disarmed, and every slice goes on at the handler in a new region. -/
def State.TakesEvent (s t : State) (c : Crew) (live : BitVec 8) (e : Nat) : Prop :=
  ∃ c' v, s.OnlyCrew t c c' ∧ c.slots[e]? = some v ∧
    t = { s with crews := t.crews, cores := t.cores, nextId := s.nextId + 1 } ∧
    c.AtHandler c' v.handler s.nextId (fun k =>
      { k with pend := c'.pend, evwhich := BitVec.ofNat 32 e, evdata := c'.evdata, slots := c'.slots }) ∧
    (∀ j, j < 8 → j ≠ e → c'.pend.getLsbD j = (c.pend.getLsbD j && !(live.getLsbD j && decide (j < e)))) ∧
    (v.kind ≠ 2 → c'.pend.getLsbD e = false ∧ c'.evdata = c.evdata ∧ t.cores = s.cores ∧
      ∀ j, c'.slots[j]? = if j = e then some { v with bound := false } else c.slots[j]?) ∧
    (v.kind = 2 → c'.slots = c.slots ∧ ∃ m ms, mget [] (s.core c.core).mail v.obj.toNat = m :: ms ∧ c'.evdata = m ∧
      c'.pend.getLsbD e = !ms.isEmpty ∧ (∀ k, k ≠ c.core → t.core k = s.core k) ∧
      t.core c.core = { s.core c.core with mail := (t.core c.core).mail } ∧
      ∀ n, mget [] (t.core c.core).mail n = if n = v.obj.toNat then ms else mget [] (s.core c.core).mail n)

/-- A context's hypothesis table is as it was but for the ids that `p` picks. -/
def Ctx.HypsBut (x x' : Ctx) (p : BitVec 8 → Prop) : Prop := x' = { x with hyps := x'.hyps } ∧ ∀ h, ¬p h → x'.hypOf h = x.hypOf h

/-- The word of a hypothesis entry (R206). -/
def hypWord (e : Hyp) : Word :=
  BitVec.ofNat 32 ((match e.st with
    | .free => 0 | .live => 1 | .resolving => 2 | .discarding => 3) + 2 ^ 8 * e.parent.toNat + 2 ^ 16 * e.depth.toNat)

/-! ## Engines (09 R214 to R249; 06 R135, R136) -/

/-- A status word (R135). -/
def wordRule (code cause count : Nat) (refused : Bool) : BitVec 64 :=
  BitVec.ofNat 64 (count % 2 ^ 48 + 2 ^ 48 * cause + 2 ^ 56 * refused.toNat + 2 ^ 60 * code)

/-- Crew c' is crew c after gang g has passed n bytes of an instruction whose status pair d waits for operation id (R136). -/
def Crew.Awaits (c c' : Crew) (g n : Nat) (tag : Option Nat) (d id : Nat) (f : Crew → Crew) : Prop :=
  c' = { f c with slices := c'.slices } ∧ c'.slices.length = c.slices.length ∧
  ∀ (i : Nat) (x x' : Slice), c.slices[i]? = some x → c'.slices[i]? = some x' →
    if c.inGang g i then
      x' = { x.past n tag with spend := x'.spend } ∧ mfind x'.spend d = some id ∧ mfind x'.spend (d + 1) = some id ∧
      ∀ k, k ≠ d → k ≠ d + 1 → mfind x'.spend k = mfind x.spend k
    else x' = x

/-- Only core `n` has changed, to k. -/
def State.CoreIs (s t : State) (n : Nat) (k : Core) : Prop := t.core n = k ∧ ∀ j, j ≠ n → t.core j = s.core j

/-- The matrix instruction of gang g enters its queues on the crew's core, whose records are now those of k (R224); `d` is its
status pair; format and pattern of each sub-array's record go with it. -/
def State.QueuesMx (s : State) (o : Out) (c : Crew) (g : Nat) (d : Option Nat) (subs : List Nat) (kind : MxKind) (k : Core) : Prop :=
  ∃ t c', o = .next t ∧ s.OnlyCrew t c c' ∧
    t = { s.unhold c.uid g with crews := t.crews, cores := t.cores, nextId := s.nextId + 1 } ∧
    s.CoreIs t c.core { k with mq := (s.core c.core).mq ++
      [{ id := s.nextId, ctx := c.ctx, crew := c.uid, block := c.block, slices := c.gangSlices g,
         dest := d.map fun r => { crew := c.uid, slices := c.gangSlices g, reg := r }, pc := c.gangPc g, kind := kind, hyp := c.hyp,
         subs := subs.map (fun i => (i, (k.sub i).gen)), recs := subs.map (fun i => (i, (k.sub i).fmt, (k.sub i).pat)),
         started := false, tiles := [], busy := false, refuted := none, flags := 0 }] } ∧
    ∀ r, d = some r → c.Awaits c' g 12 none r s.nextId id

/-- A descriptor that a stationary load takes (R225, R227). -/
def LoadTd (t : BitVec 256) (sparse : Nat) : Prop :=
  tdIll t = false ∧ tdFmt t ≤ 4 ∧ tdSpace t ≤ 1 ∧ tdSparse t = sparse ∧ (tdSgran t = 0 ∨ tdSgran t = 2) ∧
  (tdBase t).toNat % 16 = 0 ∧ tdStride t % 16 = 0

/-- The chains of an MMA with their descriptors (R229). -/
def mmaUses (mode : MmaMode) (n : Nat) : List (Nat × List Nat) :=
  match mode with
  | .m1x4 => [(n, [0]), (n, [1]), (n, [2]), (n, [3])]
  | .m2x2 => [(n, [0, 1]), (n, [2, 3])]
  | .m4x1 => [(n, [0, 1, 2, 3])]
  | .m4i => [(n, [0]), (n + 1, [1]), (n + 2, [2]), (n + 3, [3])]

/-- Descriptor and records of one chain agree (R229, R52): formats, VALID, one pattern, and a pair that may be multiplied. -/
def ChainTd (k : Core) (t : BitVec 256) (subs : List Nat) : Prop :=
  tdIll t = false ∧ tdFmt t ≤ 4 ∧ tdSpace t = 1 ∧ tdSparse t = 0 ∧ (tdSgran t = 0 ∨ tdSgran t = 1) ∧
  (tdBase t).toNat % 16 = 0 ∧ tdStride t % 16 = 0 ∧
  ∀ i ∈ subs, (k.sub i).valid = true ∧ (k.sub i).fmt.toNat ≤ 4 ∧
    ((tdFmt t = 2 ∨ tdFmt t = 3) ↔ ((k.sub i).fmt.toNat = 2 ∨ (k.sub i).fmt.toNat = 3)) ∧
    ∀ j ∈ subs, (k.sub j).fmt = (k.sub i).fmt ∧ (k.sub j).pat = (k.sub i).pat

/-- Its shape fits: n rows from `row`, and COLS is the chain's logical K. -/
def ChainShape (k : Core) (t : BitVec 256) (subs : List Nat) (row n : Nat) : Prop :=
  row + n ≤ tdRows t ∧ tdCols t = subs.length * (if (k.sub (subs.headD 0)).pat = 0 then 256 else 512)

/-- Its rows and scale words lie in the scratchpad allocation. -/
def ChainInside (size : Nat) (t : BitVec 256) (row n : Nat) : Prop :=
  ∀ r, row ≤ r → r < row + n → (tdBase t).toNat + r * tdStride t + tdRowBytes t ≤ size ∧
    (tdSgran t ≠ 0 → (tdSbase t).toNat + (r + 1) * tdScaleCols t * 4 ≤ size)

/-- State u is s after word w of operation id has reached its pair (R136): both halves at once in each slice of its gang that still
awaits it, and slots bound to a pair that is now written latch (R203). -/
def State.WordIn (s u : State) (dest : StatusTo) (id : Nat) (w : BitVec 64) : Prop :=
  u = { s with crews := u.crews } ∧ u.crews.length = s.crews.length ∧
  ∀ (j : Nat) (k k' : Crew), s.crews[j]? = some k → u.crews[j]? = some k' →
    (k.uid ≠ dest.crew → k' = k) ∧ k' = { k with slices := k'.slices, pend := k'.pend } ∧ k'.slices.length = k.slices.length ∧
    k'.pend &&& k.pend = k.pend ∧
    (k.uid = dest.crew → (∀ (i : Nat) (x x' : Slice), k.slices[i]? = some x → k'.slices[i]? = some x' →
      (i ∉ dest.slices → x' = x) ∧
      (i ∈ dest.slices → mfind x.spend dest.reg = some id → mfind x.spend (dest.reg + 1) = some id → x.drops = [] →
        x' = { x with s := x'.s, spend := x'.spend, la := x'.la } ∧ x'.sget dest.reg = w.extractLsb' 0 32 ∧
        x'.sget (dest.reg + 1) = w.extractLsb' 32 32 ∧ mfind x'.spend dest.reg = none ∧ mfind x'.spend (dest.reg + 1) = none ∧
        ∀ n, n ≠ dest.reg → n ≠ dest.reg + 1 → x'.sget n = x.sget n ∧ mfind x'.spend n = mfind x.spend n)) ∧
      ∀ (e : Nat) (v : EvSlot), e < 8 → k.slots[e]? = some v → v.bound = true → v.kind = 1 →
        (∀ x ∈ k'.slices, x.live = true → ¬x.OwesPair v.obj.toNat) →
        k'.pend.getLsbD e = true)

/-- An operation ends: its word reaches its pair, and what has finished by it leaves (R25). -/
def State.Ends (s : State) (o : Out) (dest : StatusTo) (id : Nat) (w : BitVec 64) : Prop := ∃ u, o = .next u.reap ∧ s.WordIn u dest id w

/-- Core k without matrix operation id. -/
def Core.without (k : Core) (id : Nat) : Core := { k with mq := k.mq.filter (·.id != id) }

/-- Byte o of a copy's destination, and where it comes from (R238): row-major, each side at its own stride. -/
def copyAt (t : BitVec 256) (rowBytes o : Nat) : BitVec 64 :=
  tdBase t + BitVec.ofNat 64 (o / rowBytes * tdStride t + o % rowBytes)

/-- The queued copy of an instruction. -/
def State.QueuesCopy (s : State) (o : Out) (c : Crew) (g : Nat) (d cls : Nat) (dst src : BitVec 256) (idx : Option (BitVec 256))
    (bar : Option (BitVec 64)) : Prop :=
  -- a full class holds the gang
  (32 ≤ ((s.core c.core).copies.filter fun j => j.cls = cls).length → o = .next s) ∧
  (((s.core c.core).copies.filter fun j => j.cls = cls).length < 32 → ∃ t c', o = .next t ∧ s.OnlyCrew t c c' ∧
    t = { s.unhold c.uid g with crews := t.crews, cores := t.cores, nextId := s.nextId + 2 } ∧
    s.CoreIs t c.core { s.core c.core with copies := (s.core c.core).copies ++
      [{ id := s.nextId, ctx := c.ctx, crew := c.uid, block := c.block,
         dest := { crew := c.uid, slices := c.gangSlices g, reg := d }, pc := c.gangPc g, cls := cls, dst := dst, src := src, idx := idx,
         bar := bar, done := [], ended := none, admitted := none, credited := 0 }] } ∧
    c.Awaits c' g 12 (some (s.nextId + 1)) d s.nextId id)

/-! ## Cellar processors and commands (10 R250 to R266) -/

/-- State t is s with processor p become p'. -/
def State.ProcIs (s t : State) (p p' : Proc) : Prop :=
  t = { s with procs := t.procs } ∧ t.procs = s.procs.map fun q => if q.stack = p.stack ∧ q.proc = p.proc then p' else q

/-- Command k is stopped or completes (R264, R265): it leaves with its processors and holds; writes still on their way were
performed or not; its word reaches its pair, or its task record's run ends its work, with a fault reported to the context. -/
def State.CmdStopped (s t : State) (k : Cmd) (code cause : Nat) (val : BitVec 64) (detail : BitVec 8 := 0) (level : Nat := 0) : Prop :=
  ∃ m : State, m = { s with mem := m.mem, lineKey := m.lineKey, draws := m.draws, atomq := m.atomq } ∧ (s.MemOk → m.MemOk) ∧
    (∀ r ∈ m.atomq, r ∈ s.atomq) ∧
    let g : State := { m with cmds := m.cmds.filter fun j => j.id != k.id, procs := m.procs.filter fun q => q.cmd != k.id }
    match k.route with
    | .cell dest _ => ∃ u : State, t = u.reap ∧ g.WordIn u dest k.id (wordRule code cause k.sum.toNat false)
    | .task run => t = State.taskDone
        (if code = 1 then g.asyncFault k.ctx (BitVec.ofNat 8 cause) detail level val k.pc else g) run

/-- A fault of a processor: its command ends with FAULT, a cause and the address (R265). -/
def State.CmdFails (s : State) (o : Out) (k : Cmd) (cause : Nat) (val : BitVec 64) (detail : BitVec 8 := 0) (level : Nat := 0) : Prop :=
  ∃ t, o = .next t ∧ s.CmdStopped t k 1 cause val detail level

/-- Processor p passes on to the next word, and past the last word of local store its command faults with PROT (R259). -/
def State.Advances (s : State) (o : Out) (p : Proc) (k : Cmd) (P : Proc → Prop) : Prop :=
  (p.pc = 0x3FFFC → s.CmdFails o k 5 0) ∧
  (p.pc ≠ 0x3FFFC → ∃ t p', o = .next t ∧ s.ProcIs t p p' ∧ p'.pc = p.pc + 4 ∧ P p')

/-- Processor p, become p', goes off words from its pc, or faults with PROT outside local store (R259). -/
def State.Jumps (s : State) (o : Out) (p p' : Proc) (k : Cmd) (off : Int) : Prop :=
  let target := (p.pc.toNat : Int) + 4 * off
  (0 ≤ target ∧ target < 0x40000 → ∃ t, o = .next t ∧ s.ProcIs t p { p' with pc := BitVec.ofInt 18 target }) ∧
  (target < 0 ∨ 0x40000 ≤ target → s.CmdFails o k 5 0)

/-- Processor p' is p but for scalar register d, which is x, and pc. -/
def Proc.SetsC (p p' : Proc) (d : BitVec 4) (x : BitVec 64) : Prop :=
  p' = { p with pc := p'.pc, c := p'.c } ∧ p'.get d = x ∧ ∀ m, m ≠ d → p'.get m = p.get m

/-- Processor p' is p but for vector register d, whose n elements of w bits are f, and pc. -/
def Proc.SetsW (p p' : Proc) (d : BitVec 3) (w n : Nat) (f : Nat → Nat) : Prop :=
  p' = { p with pc := p'.pc, w := p'.w } ∧ (∀ j, j < n → ((p'.vget d).extractLsb' (w * j) w).toNat = f j % 2 ^ w) ∧
    ∀ m, m ≠ d → p'.vget m = p.vget m

/-- Element j of w bits of a vector register (R250). -/
def Proc.el (p : Proc) (r : BitVec 3) (w j : Nat) : Nat := ((p.vget r).extractLsb' (w * j) w).toNat

/-- Instruction i writes scalar register d and nothing else. -/
def ScalarOp (i : Instr) (d : BitVec 4) (f : Proc → BitVec 64) : Prop :=
  ∀ (s : State) (stack proc : Nat) (p : Proc) (k : Cmd), s.Runs stack proc p k →
    s.Advances (exec i s) p k fun p' => p.SetsC p' d (f p)

/-- Instruction i writes vector register d and nothing else. -/
def VectorOp (i : Instr) (d : BitVec 3) (w n : Nat) (f : Proc → Nat → Nat) : Prop :=
  ∀ (s : State) (stack proc : Nat) (p : Proc) (k : Cmd), s.Runs stack proc p k →
    s.Advances (exec i s) p k fun p' => p.SetsW p' d w n (f p)

/-- The second operand of an RR instruction (R260). -/
def Proc.opnd (p : Proc) : CSrc → BitVec 64
  | .reg b => p.get b
  | .imm v => BitVec.ofInt 64 v.toInt

/-- Bytes va to va + n lie in one declared range (R251, R254 step 1). -/
def Cmd.Declares (k : Cmd) (va n : Nat) : Prop :=
  ∃ e ∈ k.ranges, e.toNat / 4096 * 4096 ≤ va ∧ va + n ≤ e.toNat / 4096 * 4096 + (e.toNat % 256 + 1) * 2 ^ (12 + e.toNat / 256 % 16)

/-- n bytes at va pass the checks of R254 for processor p, are DRAM location loc under a key, wait for nothing at their home, and
overlap no transfer still to be performed (R256). -/
structure State.CellarReach (s : State) (p : Proc) (k : Cmd) (va : BitVec 64) (n : Nat) (write : Bool) (loc key : Nat) : Prop where
  declared : k.Declares va.toNat n
  aligned : va.toNat % n = 0
  dest : ∃ x q, s.ctx? k.ctx = some x ∧ s.cellarTo (.cellar p.stack p.proc) x va write = .ok loc key q
  clean : write = false → s.storeBad (loc / 128) = false
  alone : ∀ t ∈ p.transfers, (write = true ∨ t.out = true) → ∀ b ∈ t.blocks, b.moved = false →
    loc + n ≤ s.blockLoc b ∨ s.blockLoc b + 64 ≤ loc
  placed : loc < 2 ^ 39 ∧ loc % n = 0

/-- The checks that fail, in their order (R254), with what R314 says of a page. -/
def State.CellarStops (s : State) (o : Out) (p : Proc) (k : Cmd) (va : BitVec 64) (n : Nat) (write : Bool) : Prop :=
  (¬k.Declares va.toNat n → s.CmdFails o k 5 va) ∧
  (k.Declares va.toNat n → va.toNat % n ≠ 0 → s.CmdFails o k 3 va) ∧
  (k.Declares va.toNat n → va.toNat % n = 0 → ∀ x, s.ctx? k.ctx = some x →
    (canonical va = false → s.CmdFails o k 5 va) ∧
    (canonical va = true → x.rewriting va = false → s.waiting? (.cellar p.stack p.proc) x.id 0 va = none →
      (∀ c d l, s.translate (.cellar p.stack p.proc) x va write false (fun _ => true) = .error (.fault c d l) →
        s.CmdFails o k c.toNat va d l) ∧
      ∀ r, s.translate (.cellar p.stack p.proc) x va write false (fun _ => true) = .ok r →
        (match r with
          | .dram _ _ _ _ => False
          | .host _ _ | .rmt _ _ | .chip _ _ _ => True) → s.CmdFails o k 5 va))

/-- A read meets an uncorrectable error (R254, R369). -/
def State.CellarSpoilt (s : State) (o : Out) (p : Proc) (k : Cmd) (va : BitVec 64) (n : Nat) : Prop :=
  k.Declares va.toNat n → va.toNat % n = 0 → ∀ x loc key q, s.ctx? k.ctx = some x →
    s.cellarTo (.cellar p.stack p.proc) x va false = .ok loc key q → s.storeBad (loc / 128) = true → s.CmdFails o k 0x0D va

/-- The failing checks of n bytes of local store (R254). -/
def State.LocalStops (s : State) (o : Out) (k : Cmd) (off : BitVec 64) (n : Nat) : Prop :=
  (0x40000 < off.toNat + n → s.CmdFails o k 5 off) ∧ (off.toNat + n ≤ 0x40000 → off.toNat % n ≠ 0 → s.CmdFails o k 3 off)

/-- Bytes of local store as a number, lowest first. -/
def Proc.localAt (p : Proc) (off n : Nat) : Nat := ((List.range n).map fun i => (mget 0 p.loc (off + i)).toNat * 2 ^ (8 * i)).sum

/-- State t is s with n bytes of x written to DRAM at location loc under a key, and no other byte (R255, R355). -/
def State.Puts (s t : State) (loc n key x : Nat) : Prop :=
  t = { s with mem := t.mem, lineKey := t.lineKey } ∧
  (s.MemOk → loc % 128 + n ≤ 128 → t.MemOk ∧ t.rawRead loc n key = x % 2 ^ (8 * n) ∧
    (∀ j, j < 128 → (j < loc % 128 ∨ loc % 128 + n ≤ j) →
      lineGet (t.dramLine (loc / 128) key) j 1 = lineGet (s.dramLine (loc / 128) key) j 1) ∧
    (∀ a, a / 128 ≠ loc / 128 → t.readMem a 1 = s.readMem a 1) ∧
    ∀ line, mget 0 t.lineKey line = if line = loc / 128 then key else mget 0 s.lineKey line)

/-- Load i of n bytes: `f` says what processor it leaves, given the value. -/
def CellarLoads (i : Instr) (a : BitVec 4) (off : BitVec 14) (loc : Bool) (n : Nat) (f : Proc → Nat → Proc → Prop) : Prop :=
  ∀ (s : State) (stack proc : Nat) (p : Proc) (k : Cmd), s.Runs stack proc p k →
    let va := p.get a + BitVec.ofInt 64 off.toInt
    (loc = true → s.LocalStops (exec i s) k va n ∧
      (va.toNat + n ≤ 0x40000 → va.toNat % n = 0 → s.Advances (exec i s) p k (f p (p.localAt va.toNat n)))) ∧
    (loc = false → s.CellarStops (exec i s) p k va n false ∧ s.CellarSpoilt (exec i s) p k va n ∧
      ∀ l key, s.CellarReach p k va n false l key →
        (s.procDone p).Advances (exec i s) p k (f p (s.rawRead l n key)) ∧
        (s.MemOk → mget 0 s.lineKey (l / 128) = key → s.rawRead l n key = s.readMem l n))

/-- Store i of n bytes of x. -/
def CellarStores (i : Instr) (a : BitVec 4) (off : BitVec 14) (loc : Bool) (n : Nat) (x : Proc → Nat) : Prop :=
  ∀ (s : State) (stack proc : Nat) (p : Proc) (k : Cmd), s.Runs stack proc p k →
    let va := p.get a + BitVec.ofInt 64 off.toInt
    (loc = true → s.LocalStops (exec i s) k va n ∧
      (va.toNat + n ≤ 0x40000 → va.toNat % n = 0 → s.Advances (exec i s) p k fun p' =>
        p' = { p with pc := p'.pc, loc := p'.loc } ∧ p'.localAt va.toNat n = x p % 2 ^ (8 * n) ∧
        ∀ j, (j < va.toNat ∨ va.toNat + n ≤ j) → mget 0 p'.loc j = mget 0 p.loc j)) ∧
    (loc = false → s.CellarStops (exec i s) p k va n true ∧
      ∀ l key, s.CellarReach p k va n true l key →
        ∃ w, (s.procDone p).Puts w l n key (x p) ∧ w.Advances (exec i s) p k fun p' => p' = { p with pc := p'.pc })

/-- Sign or zero extension of a load (R261). -/
def cldRule (size : CLdSize) (x : Nat) : BitVec 64 :=
  match size with
  | .b false | .h false | .w false | .d => BitVec.ofNat 64 x
  | .b true => BitVec.ofInt 64 (BitVec.ofNat 8 x).toInt
  | .h true => BitVec.ofInt 64 (BitVec.ofNat 16 x).toInt
  | .w true => BitVec.ofInt 64 (BitVec.ofNat 32 x).toInt

/-- The blocks of 64 bytes of a span of n bytes that a CLDX moves (R261): each passes R254 steps 3 and 4; an outbound one takes its
bytes of local store. -/
def State.SpanOk (s : State) (p : Proc) (x : Ctx) (va : BitVec 64) (l n : Nat) (out : Bool) (bs : List CldxBlock) : Prop :=
  bs.length = n / 64 ∧ ∀ (i : Nat) (b : CldxBlock), bs[i]? = some b →
    (∃ loc, s.cellarTo (.cellar p.stack p.proc) x (va + BitVec.ofNat 64 (64 * i)) out = .ok loc b.key b.pa) ∧
    b.moved = false ∧ b.put = 0 ∧
    b.data = if out then (List.range 64).map fun j => mget 0 p.loc (l + 64 * i + j) else []

/-- A block of an outbound transfer that has not moved is written where it was translated to (R261). -/
def State.BlockStep (s : State) (b : CldxBlock) (u : State) : Prop :=
  (b.moved = true → u = s) ∧
  (b.moved = false → s.Puts u (s.blockLoc b) 64 b.key (((List.range 64).map fun j => (b.data.getD j 0).toNat * 2 ^ (8 * j)).sum))

/-- A transfer is performed (R261): an inbound one changes processors only, an outbound one writes its blocks in order. -/
def State.TransferStep (s : State) (t : Transfer) (u : State) : Prop :=
  (t.out = false → u = { s with procs := u.procs }) ∧
  (t.out = true → ∃ w, Chain State.BlockStep s t.blocks w ∧ u = { w with procs := u.procs })

/-- No block that a transfer of processor p has left waits at its home or reads an uncorrectable error. -/
def State.TransferFree (s : State) (p : Proc) (t : Transfer) : Prop :=
  s.transferHeld p t = false ∧ ∀ b ∈ t.blocks, b.moved = false → t.out = false → s.storeBad (s.blockLoc b / 128) = false

/-! ## Traps, forced reset and control registers (15 R310, R311; 16 R317, R318; 17 R326 to R342) -/

/-- State t is s after a forced reset of context ctx (R342): its crews, blocks, records, operations, commands, messages, updates and
saved cores are gone, its hypotheses discarded and tagged tiles cleared; the context is dead, its journal ends with a KIND 3 record,
and a pre-emption of it ends with ABORT. Nothing of another context's crews has changed, nor their updates (R4). -/
structure State.ForcedReset (s t : State) (ctx : Nat) (reason aux : BitVec 64) : Prop where
  frame : t = { s with mem := t.mem, lineKey := t.lineKey, caches := t.caches, draws := t.draws, atomq := t.atomq, cmds := t.cmds,
                       procs := t.procs, cmdq := t.cmdq, colls := t.colls, cores := t.cores, regs := t.regs, crews := t.crews,
                       blocks := t.blocks, runs := t.runs, launches := t.launches, mails := t.mails, credits := t.credits,
                       savedCores := t.savedCores, ctxs := t.ctxs, pdevs := t.pdevs, poison := t.poison, ulines := t.ulines,
                       press := t.press, recalls := t.recalls, waitq := t.waitq, resolves := t.resolves }
  memOk : s.MemOk → t.MemOk
  crews : t.crews = s.crews.filter fun c => c.ctx != ctx
  blocks : t.blocks = s.blocks.filter fun b => b.ctx != ctx
  runs : t.runs = s.runs.filter fun r => r.ctx != ctx
  launches : t.launches = s.launches.filter fun l => l.ctx != ctx
  mails : t.mails = s.mails.filter fun m => m.ctx != ctx
  credits : t.credits = s.credits.filter fun c => c.ctx != ctx
  saved : t.savedCores = s.savedCores.filter fun c => c.ctx != ctx
  colls : t.colls = s.colls.filter fun j => j.ctx != ctx
  commands : (∀ k ∈ t.cmds, k.ctx ≠ ctx ∧ k ∈ s.cmds) ∧ (∀ k ∈ t.cmdq, k.ctx ≠ ctx ∧ k ∈ s.cmdq)
  messages : ∀ r ∈ t.atomq, r.ctx ≠ ctx ∧ r ∈ s.atomq
  answers : t.resolves = s.resolves.filter fun r => r.ctx != ctx
  waits : t.waitq = s.waitq.filter fun w => w.ctx != ctx
  registrations : (∀ r ∈ t.regs, r ∈ s.regs) ∧ ∀ r ∈ s.regs, r.ctx ≠ ctx → r ∈ t.regs
  updates : ∀ e ∈ t.caches, ¬(e.ph = true ∧ e.ctx = ctx) ∧
    (e.st = .u → e.op ≠ none → ∀ r ∈ e.upds, ∀ u ∈ r, u.ctx ≠ ctx)
  kept : (∀ e ∈ s.caches, e.ph = true → e.ctx ≠ ctx) → ∀ e ∈ s.caches, e.st = .u → e.op ≠ none →
    (∀ r ∈ e.upds, ∀ u ∈ r, u.ctx ≠ ctx) → e ∈ t.caches
  engines : ∀ n, (∀ o ∈ (t.core n).mq, o.ctx ≠ ctx) ∧ (∀ j ∈ (t.core n).copies, j.ctx ≠ ctx) ∧
    ((s.core n).lastCtx = some ctx → (t.core n).tags = [] ∧ (t.core n).mail = [] ∧ (t.core n).lastCtx = none ∧
      ∀ k, mget 0 (s.core n).tags (k / 32768) ≠ 0 → mget 0 (t.core n).acc k = 0)
  dead : ∀ x, s.ctx? ctx = some x → t.ctx? ctx = some
    { x with dead := true, savedAt := none, hyps := x.hyps.map fun e => (e.1, { e.2 with st := .discarding }) }
  others : ∀ id, id ≠ ctx → t.ctx? id = s.ctx? id
  journal : ∀ p, s.pdevOf ctx = some p → ∃ p' es, t.pdev? p.first = some p' ∧
    p' = { p with faultQ := p'.faultQ, peBusy := p'.peBusy, peResult := p'.peResult, peStage := p'.peStage, peAct := p'.peAct } ∧
    p'.faultQ = p.faultQ ++ es ++
      [{ val := reason, pc := 0, aux := aux, ctx := ctx, kind := 3, cause := 0, detail := 0, level := 0, mc := false, die := 0, core := 0,
         crewid := 0, lane := 0, sreg := 0, crew := none }] ∧
    (∀ e ∈ es, e.kind = 2 ∧ e.ctx = ctx) ∧
    ((∃ q, p.peAct = some (ctx, q)) → p'.peBusy = false ∧ p'.peResult = 3 ∧ p'.peAct = none)

/-- What a trap of crew c comes with: its waits at homes are given up, and an error met in memory is a machine check (R326, R366). -/
def State.trapping (s : State) (c : Crew) (info : TrapInfo) : State :=
  (match info.err with
    | some e => s.machineCheck 1 e.src e.die e.addr
    | none => s).dequeue (·.crew == c.uid)

/-- Crew c of state s takes the crew route with a trap of gang g, whose instruction has n bytes (R328): the frame is saved, TSTAT,
TEPC and TVAL written, and every live slice goes to TVEC with its remaining lanes and an empty stack, in one gang. Registers,
predicates and memory stay. -/
def State.EntersTrap (s t : State) (c : Crew) (g n : Nat) (info : TrapInfo) : Prop :=
  ∃ c' f, s.OnlyCrew t c c' ∧ t = { s.trapping c info with crews := t.crews } ∧
    c' = { c with slices := c'.slices, frame := some f, trap := info, tm := true, mask := true, late := none, stopped := false,
                  turn := c'.turn } ∧
    f.gang = g ∧ f.len = n ∧ f.slices = c.slices.map (fun x =>
      { pc := x.pc, active := x.active, stack := x.stack, gang := x.gang, wait := x.wait, region := x.region }) ∧
    c.SlicesTo { c' with frame := c.frame, trap := c.trap, tm := c.tm, mask := c.mask, late := c.late, stopped := c.stopped,
                         turn := c.turn } (fun _ x =>
      if x.live then { x with pc := c.tvec ++ (0 : BitVec 2), active := ~~~x.exited, stack := [], wait := .none, la := [], slate := [],
                              vlate := [], lateHit := false }
      else x) ∧
    c'.Grouped fun _ _ => True

/-- Crew c is faulted and waits for the driver (R337): a KIND 0 record is queued on its presented device's ring (R336). -/
def State.Faulted (s t : State) (c : Crew) (info : TrapInfo) : Prop :=
  ∃ c', s.OnlyCrew t c c' ∧ t = { s.trapping c info with crews := t.crews, pdevs := t.pdevs } ∧
    c' = { c with slices := c'.slices, late := none, stopped := false, faulted := some info } ∧
    c'.slices = c.slices.map (fun x => { x with la := [], slate := [], vlate := [], lateHit := false }) ∧
    ∀ p, s.pdevOf c.ctx = some p → ∃ r, t.pdev? p.first = some { p with faultQ := p.faultQ ++ [r] } ∧
      r.kind = 0 ∧ r.crew = some c.uid ∧ r.ctx = c.ctx ∧ r.cause = info.cause ∧ r.detail = info.detail ∧ r.level = info.level ∧
      r.lane = info.lane ∧ r.pc = info.epc ∧ r.val = info.val ∧ r.mc = decide (info.cause = 0x0D ∨ info.cause = 0x0E) ∧
      r.die = BitVec.ofNat 3 (c.core / 32 - p.first) ∧ r.core = BitVec.ofNat 5 (c.core % 32) ∧ r.crewid = BitVec.ofNat 5 c.crewid ∧
      ∀ b, s.block? c.block = some b → r.aux = b.gridid ++ b.blkid

/-- A crew is privileged for control register n, and for TRAPRET, TRAPMSK and HALT (R129, R329). -/
def State.CsrAllowed (s : State) (c : Crew) (n : Nat) : Prop :=
  (∃ x, s.ctx? c.ctx = some x ∧ x.priv = true) ∨ (c.tm = true ∧ 0x200 ≤ n ∧ n ≤ 0x20F)
def State.TrapAllowed (s : State) (c : Crew) : Prop := (∃ x, s.ctx? c.ctx = some x ∧ x.priv = true) ∨ c.tm = true

/-- The fields (lowest bit, width, value) of each control register of 15 R311, 16 R320 and R323, 17 R330, R335 and R338, 18 R347,
R350 and R353, 19 R365, R366, R370 and R371; none for an unassigned number. -/
def csrRule (s : State) (c : Crew) (x : Ctx) (p : PDev) (n : Nat) : Option (List (Nat × Nat × Nat)) :=
  let bit := fun (b : Bool) => if b then 1 else 0
  if 0x010 ≤ n ∧ n ≤ 0x017 then
    let d := x.phases.getD (n - 0x010) { quota := 0, next := 0, arrived := 0, count := 0 }
    some [(0, 16, d.next.toNat), (16, 16, d.arrived.toNat), (32, 32, d.count.toNat)]
  else if 0x020 ≤ n ∧ n ≤ 0x02F then
    match x.queues[n - 0x020]? with
    | some q => some [(0, 32, q.rd.toNat % 2 ^ 32), (32, 2, q.pri.toNat), (34, 1, bit q.peer), (35, 1, 1)]
    | none => some []
  else if 0x300 ≤ n ∧ n ≤ 0x30F then
    let w := mget { en := false, wr := false, ns := false, hbase := 0 } p.hwin (n - 0x300)
    some [(0, 1, bit w.en), (1, 1, bit w.wr), (2, 1, bit w.ns), (12, 52, w.hbase.toNat)]
  else if 0x320 ≤ n ∧ n ≤ 0x32B then
    let q := s.ports.getD (n - 0x320) { up := false, lanes := 0, err := false, peer := 0 }
    some [(0, 1, bit q.up), (1, 4, q.lanes.toNat), (5, 1, bit q.err), (16, 10, q.peer.toNat)]
  else match n with
    | 0x000 => some [(0, 10, x.id), (10, 1, bit x.priv), (11, 2, x.mode), (13, 3, x.pdev), (16, 3, s.partFirst x.pdev),
        (19, 2, Nat.log2 (s.partDies x.pdev)), (21, 10, (Config.nodeId x.pdev).toNat), (31, 5, x.nq), (36, 5, x.varea)]
    | 0x001 => some [(0, 17, (s.runs.filter fun r => r.ctx == x.id).length), (32, 16, x.age.toNat)]
    | 0x100 => some [(0, 6, x.rgnIdx.toNat), (7, 1, bit (x.rgnBusy || x.rgnGo.isSome)), (8, 3, x.rgnResult.toNat)]
    | 0x101 => some [(0, 4, x.migK.toNat), (12, 36, x.migSrc.toNat)]
    | 0x102 => some [(12, 36, x.migDst.toNat)]
    | 0x103 => some [(2, 1, bit (x.migBusy || x.migGo)), (3, 3, x.migResult.toNat), (6, 4, x.migSlot.toNat)]
    | 0x200 => some [(2, 62, c.tvec.toNat)]
    | 0x201 => some [(0, 1, bit c.tm), (1, 1, bit c.mask), (2, 1, bit c.held), (3, 1, bit c.trap.late), (4, 8, c.trap.cause.toNat),
        (12, 5, c.trap.lane.toNat), (17, 8, c.trap.detail.toNat), (25, 3, c.trap.level.toNat)]
    | 0x202 => some [(0, 64, c.trap.epc.toNat)]
    | 0x203 => some [(0, 64, c.trap.val.toNat)]
    | 0x205 => some [(0, 64, c.waddr.toNat)]
    | 0x206 => some [(0, 1, bit c.wrd), (1, 1, bit c.wwr), (2, 6, c.wk.toNat)]
    | 0x210 => some [(0, 4, p.fqLog2n.toNat), (4, 1, bit p.fqEn), (5, 7, p.fqVec.toNat), (12, 36, p.fqPa.toNat)]
    | 0x211 => some [(0, 64, p.fqProd.toNat)]
    | 0x212 => some [(0, 64, p.fqCons.toNat)]
    | 0x213 => some []
    | 0x214 => some [(0, 10, p.peCtx.toNat), (10, 2, p.peReq.toNat), (13, 1, bit (p.peBusy || p.peGo.isSome)), (14, 3, p.peResult.toNat),
        (17, 3, p.peStage.toNat), (21, 27, p.peSave.toNat)]
    | 0x310 => some [(0, 10, (Config.nodeId x.pdev).toNat)]
    | 0x311 => some [(0, 32, p.scto.toNat)]
    | 0x312 => some [(0, 5, p.cectl.toNat)]
    | 0x400 => some [(0, 1, bit s.ras.svcreq), (3, 8, s.ras.degr.toNat), (11, 16, min 65535 s.ras.retired.length)]
    | 0x401 => some [(0, 1, bit s.ras.valid), (1, 1, bit s.ras.ovf), (2, 2, s.ras.sev.toNat), (4, 4, s.ras.src.toNat),
        (8, 3, s.ras.die.toNat), (16, 32, s.ras.ce.toNat)]
    | 0x402 => some [(0, 48, s.ras.addr.toNat)]
    | 0x403 => some [(0, 32, p.xto.toNat)]
    | 0x404 => some [(0, 12, s.ras.watts.toNat), (12, 12, (s.ras.temps.map fun e => e.2.toNat).foldl max 0)]
    | _ => none

/-- Numbers whose register has a field that a write acts on. -/
def csrWritable (n : Nat) : Prop :=
  n = 0x001 ∨ (0x010 ≤ n ∧ n ≤ 0x017) ∨ (0x100 ≤ n ∧ n ≤ 0x103) ∨ n = 0x200 ∨ n = 0x205 ∨ n = 0x206 ∨ n = 0x210 ∨
  (0x212 ≤ n ∧ n ≤ 0x214) ∨ (0x300 ≤ n ∧ n ≤ 0x30F) ∨ n = 0x311 ∨ n = 0x312 ∨ (0x320 ≤ n ∧ n ≤ 0x32B) ∨ n = 0x401 ∨ n = 0x403 ∨
  n = 0x404

/-- State t is s after a CSRW: the crew has passed the instruction, with `f` on its own registers; context c.ctx, its presented
device, the ports and the reliability registers are as `g`, `h`, `q` and `r` make them, and nothing else has changed. -/
def State.CsrWritten (s t : State) (c : Crew) (gang n : Nat) (f : Crew → Crew) (g : Ctx → Ctx) (h : PDev → PDev) (q : List Port)
    (r : Ras) : Prop :=
  ∃ c', s.OnlyCrew t c c' ∧ c.Passed c' gang n f ∧
    t = { s with crews := t.crews, ctxs := t.ctxs, pdevs := t.pdevs, ports := q, ras := r } ∧
    (∀ id, t.ctx? id = if id = c.ctx then (s.ctx? id).map g else s.ctx? id) ∧
    ∀ d, t.pdev? d = if d = s.firstDie c.ctx then (s.pdev? d).map h else s.pdev? d

/-- A scalar pair d of every slice of gang g receives w, and the crew passes n bytes. -/
def Crew.SetsPair (c c' : Crew) (g n d : Nat) (w : BitVec 64) : Prop :=
  c' = { c with slices := c'.slices } ∧ c'.slices.length = c.slices.length ∧
  ∀ (i : Nat) (x x' : Slice), c.slices[i]? = some x → c'.slices[i]? = some x' →
    if c.inGang g i then
      x' = { x with pc := x.pc + BitVec.ofNat 64 n, s := x'.s } ∧ x'.sget d = w.extractLsb' 0 32 ∧
      x'.sget (d + 1) = w.extractLsb' 32 32 ∧ ∀ k, k ≠ d → k ≠ d + 1 → x'.sget k = x.sget k
    else x' = x

/-- The lowest slice of gang g with a participating lane. -/
def Crew.LeadSlice (c : Crew) (g : Nat) (gd : Guard) (i : Nat) : Prop :=
  (∃ l, c.Takes g gd l ∧ l / 4 = i) ∧ ∀ l, c.Takes g gd l → i ≤ l / 4

/-! ## The trellis, records and launches (02 R26 to R33; 15 R293 to R309) -/

/-- n bytes at va are DRAM location loc for an agent of context x, within one line, under a key, and nothing stands in the way: no
poison, and no line in U (R95, R299). -/
structure State.AgentReach (s : State) (ag : Agent) (x : Ctx) (va : BitVec 64) (n : Nat) (write : Bool) (loc key : Nat) : Prop where
  dest : ∃ kind, s.agentTo ag x va write = .dram loc key kind ∧ (write = true → kind = 2 → s.anyPlain (loc / 128) = false)
  clean : write = false → s.poisoned (loc / 128) = false
  quiet : s.uline? (loc / 128) = none
  inLine : loc % 128 + n ≤ 128

/-- State t is s but for where copies of lines lie: the committed value of line `line` under `key`, and every other line's, is the
same. -/
def State.OnlyCopies (s t : State) (line key : Nat) : Prop :=
  t = { s with caches := t.caches, mem := t.mem, lineKey := t.lineKey, poison := t.poison, waitq := t.waitq } ∧
  t.waitq.Sublist s.waitq ∧ (∀ ln, ln ≠ line → t.storeBad ln = s.storeBad ln) ∧
  (s.MemOk → t.MemOk ∧ t.homeVal line key = s.homeVal line key ∧ ∀ ln k, ln ≠ line → t.homeVal ln k = s.homeVal ln k)

/-- State t is s with n bytes of v written at location loc through its home. -/
def State.HomePuts (s t : State) (loc n key v : Nat) : Prop :=
  t = { s with caches := t.caches, mem := t.mem, lineKey := t.lineKey, poison := t.poison, waitq := t.waitq } ∧
  t.waitq.Sublist s.waitq ∧ t.homeVal (loc / 128) key = lineSet (s.homeVal (loc / 128) key) (loc % 128) n v ∧
  (s.MemOk → t.MemOk ∧ ∀ ln k, ln ≠ loc / 128 → t.homeVal ln k = s.homeVal ln k) ∧
  (∀ ln, ln ≠ loc / 128 → t.storeBad ln = s.storeBad ln) ∧ (n = 128 → t.poisoned (loc / 128) = false)

/-- A record as the trellis puts it in flight (R301 to R303): its fields, its priority, and READY since now or WAITING. -/
def FreshRun (r : Run) (uid ctx : Nat) (va : BitVec 64) (rcd : BitVec 512) (prio : BitVec 2) (readyAt : Option Nat) : Prop :=
  r = { uid := uid, ctx := ctx, va := va, rcd := rcd, prio := prio, readyAt := readyAt, readyDraw := r.readyDraw, gridid := r.gridid, nextBlk := 0,
        running := false, submitted := false, workDone := false, work := none, acoll := none, collDone := false }

/-- Run `uid` alone of the runs differs from s, and is as `f` makes it. -/
def State.RunTo (t s : State) (uid : Nat) (f : Run → Run) : Prop := ∀ k, t.run? k = if k = uid then (s.run? k).map f else s.run? k

/-- An attached collective ends in state s with word w: it leaves its engine once the word is in STATUS (R309), an address that faults is
reported to the context, and a line that must wait keeps the word. -/
def State.AttachEnds (s : State) (o : Out) (x : Ctx) (r : Run) (j : CollJob) (w : BitVec 64) : Prop :=
  let put := s.agentWrite (.coll j.engine) x (rcAcoll r.rcd + 32) 8 w.toNat
  let gone := fun (u : State) => ∃ v, o = .next v ∧ v = { u with runs := v.runs, colls := u.colls.filter fun k => k.id != j.id } ∧
    v.RunTo u r.uid fun q => { q with collDone := true }
  (∀ k u, put = .ok k u → gone u) ∧ (∀ c d l u, put = .bad c d l u → gone (u.asyncFault x.id c d l (rcAcoll r.rcd) r.va)) ∧
  ∀ u, put = .wait u → ∃ v, o = .next v ∧ v = { u with colls := u.colls.map fun k => if k.id = j.id then { k with word := some w } else k }

/-- Crew i of a block as it starts (R19, R301, R330): every register zero but s0:s1, all lanes active at the record's code, a region
open there, the root hypothesis, no event bound, TVEC from the record. -/
structure CrewStarts (c : Crew) (r : Run) (b : Block) (i : Nat) : Prop where
  names : c.ctx = r.ctx ∧ c.run = r.uid ∧ c.block = b.uid ∧ c.core = b.core ∧ c.crewid = i ∧ c.coreId = b.core % 32
  vectors : c.v = [] ∧ c.p = [] ∧ c.vregs = 8 * ((r.rcd.extractLsb' 296 4).toNat + 1)
  special : c.fflags = 0 ∧ c.frm = 0 ∧ c.hyp = 0 ∧ c.hxh = 0 ∧ c.pend = 0 ∧ c.emask = 0 ∧ c.urgent = false
  trap : c.tvec = (r.rcd.extractLsb' 384 64).extractLsb' 2 62 ∧ c.tm = false ∧ c.mask = false ∧ c.held = false ∧ c.wrd = false ∧
    c.wwr = false ∧ c.faulted = none ∧ c.late = none
  count : c.slices.length = (r.rcd.extractLsb' 293 3).toNat + 1
  slices : ∀ x ∈ c.slices, x.pc = r.rcd.extractLsb' 0 64 ∧ x.active = 15 ∧ x.exited = 0 ∧ x.stack = [] ∧ x.gang = 0 ∧ x.regctr = 0 ∧
    x.wait = .none ∧ x.region.ent = x.pc ∧ x.region.mask = 15 ∧ x.region.stack = [] ∧ x.sget 0 = r.rcd.extractLsb' 64 32 ∧
    x.sget 1 = r.rcd.extractLsb' 96 32 ∧ ∀ n, 2 ≤ n → x.sget n = 0

/-- Block n of run r as it starts (R19, R26). -/
structure BlockStarts (b : Block) (r : Run) (core n : Nat) : Prop where
  names : b.ctx = r.ctx ∧ b.run = r.uid ∧ b.core = core ∧ b.saved = false ∧ b.gridid = r.gridid
  numbers : b.blkid = BitVec.ofNat 32 n ∧ b.nblk = r.rcd.extractLsb' 256 32
  scratch : b.scrSize = (r.rcd.extractLsb' 304 9).toNat * 1024
  clusters : let kind := (r.rcd.extractLsb' 227 3).toNat
    let clu := (r.rcd.extractLsb' 313 4).toNat + 1
    let span := (r.rcd.extractLsb' 317 3).toNat + 1
    (kind = 0 → b.cluid = BitVec.ofNat 32 n ∧ b.clurank = 0 ∧ b.spanid = 0xFFFFFFFF) ∧
    (kind = 1 → b.cluid = BitVec.ofNat 32 (n / clu) ∧ b.clurank = BitVec.ofNat 32 (n % clu) ∧ b.spanid = 0xFFFFFFFF) ∧
    (kind = 2 → b.cluid = BitVec.ofNat 32 (n / clu) ∧ b.clurank = BitVec.ofNat 32 (n % clu) ∧
      b.spanid = BitVec.ofNat 32 (n / clu / span))

/-- The result half of a packet (R295): its operation, a context id, the code and detail, and V. -/
def packetRule (p : BitVec 128) (ctx : BitVec 10) (code : Nat) (detail : BitVec 8) : BitVec 64 :=
  BitVec.ofNat 64 ((p.extractLsb' 64 4).toNat + ctx.toNat * 2 ^ 4 + (p.extractLsb' 78 38).toNat * 2 ^ 14 + detail.toNat * 2 ^ 52 +
    code % 8 * 2 ^ 60 + 2 ^ 63)

/-- The next packet of queue q of context x is p (R296): the firmware runs, the producer count is ahead and the slot is read. -/
def State.NextPacket (s : State) (x : Ctx) (n : Nat) (q : Queue) (p : BitVec 128) (t : State) : Prop :=
  s.bar0.boot = 3 ∧ s.ctx? x.id = some x ∧ x.queues[n]? = some q ∧ 0 < (q.wr - q.rd).toInt ∧
  s.agentRead .trellis x (q.ring + BitVec.ofNat 64 (16 * (q.rd.toNat % 2 ^ q.log2n.toNat))) 16 = .ok p.toNat t

/-- The packet ends with a code and detail after work that left state u: its result is written and RD goes up. -/
def State.PacketEnds (u : State) (o : Out) (x : Ctx) (n : Nat) (q : Queue) (p : BitVec 128) (code : Nat) (detail : BitVec 8) : Prop :=
  ∀ w v, u.agentWrite .trellis x (q.ring + BitVec.ofNat 64 (16 * (q.rd.toNat % 2 ^ q.log2n.toNat)) + 8) 8
      (packetRule p (p.extractLsb' 68 10) code detail).toNat = .ok v w →
    ∃ t, o = .next t ∧ t = { w with ctxs := t.ctxs } ∧ (∀ id, id ≠ x.id → t.ctx? id = w.ctx? id) ∧
      ∀ y, w.ctx? x.id = some y → y.queues[n]? = some q → t.ctx? x.id = some { y with queues := y.queues.set n { q with rd := q.rd + 1 } }

/-- The next management packet is p (R345). -/
def State.NextManaged (s : State) (p : BitVec 128) (t : State) : Prop :=
  s.bar0.boot = 3 ∧ 0 < (s.bar0.mqWr - s.bar0.mqRd).toInt ∧ s.physRead s.mqFirst false s.bar0.mqSlot 16 = .ok p.toNat t

/-- It ends with a code and detail in state u. -/
def State.ManagedEnds (s u : State) (o : Out) (p : BitVec 128) (ctx : BitVec 10) (code : Nat) (detail : BitVec 8) : Prop :=
  ∀ v w, u.physWrite u.mqFirst false (s.bar0.mqSlot + 8) 8 (packetRule p ctx code detail).toNat = .ok v w →
    o = .next { w with bar0 := { w.bar0 with mqRd := w.bar0.mqRd + 1 } }

/-! ## Pages, faults and pre-emption (16 R312 to R325; 17 R335 to R343; 18 R351, R352) -/

/-- From s one packet for an address of a node has gone out on a channel, counted on its path where that is encrypted (R350, R354). -/
def State.Sends (s t : State) (vc : BitVec 2) (node : BitVec 10) (pa : Nat) (body : ScafaBody) : Prop :=
  t = { s with sent := s.sent ++ [.scafa vc node (BitVec.ofNat 64 pa) body (s.nonceFor vc.toNat node pa)], pathKeys := t.pathKeys } ∧
  ∀ n, mfind t.pathKeys n = (mfind s.pathKeys n).map fun k : PathKey =>
    if n = node.toNat ∧ k.enc = true then
      { k with sentCtr := mput 0 k.sentCtr (pathSlot vc.toNat node pa) (mget 0 k.sentCtr (pathSlot vc.toNat node pa) + 1) }
    else k

/-- A peer's request is refused in state s (R298, R351). -/
def State.RefusesPeer (s : State) (o : Out) (src : BitVec 10) (va : BitVec 64) (cause : BitVec 8) : Prop :=
  ∃ m t : State, o = .next t ∧ m = { s with waitq := m.waitq } ∧ m.waitq.Sublist s.waitq ∧ m.Sends t 1 src va.toNat (.refusal cause)

/-- Context `id` alone of the contexts differs, and is as `f` makes it. -/
def State.CtxTo (s t : State) (id : Nat) (f : Ctx → Ctx) : Prop := ∀ k, t.ctx? k = if k = id then (s.ctx? k).map f else s.ctx? k

/-- Presented device d alone of the presented devices differs, and is as `f` makes it. -/
def State.DevTo (s t : State) (d : Nat) (f : PDev → PDev) : Prop := ∀ k, t.pdev? k = if k = d then (s.pdev? k).map f else s.pdev? k

/-- A page-table entry that leads to the next table (R312): valid, no leaf, no reserved bit, not remote. -/
def PointerEntry (e : BitVec 64) : Prop :=
  e.getLsbD 0 = true ∧ e.getLsbD 1 = false ∧ e.extractLsb' 2 18 = 0 ∧ e.getLsbD 56 = false ∧ e.extractLsb' 57 7 = 0

/-- A leaf of a small page (R313): K at most 8, its address a multiple of its size, DRAM of the device. -/
def SmallLeaf (e : BitVec 64) : Prop :=
  e.getLsbD 0 = true ∧ e.getLsbD 1 = true ∧ (e.extractLsb' 4 4).toNat ≤ 8 ∧ e.getLsbD 56 = false ∧ e.extractLsb' 57 7 = 0 ∧
  (e.extractLsb' 20 36).toNat * 4096 % 2 ^ (12 + (e.extractLsb' 4 4).toNat) = 0

/-- Slices back at their region records, gangs by tag (R40). -/
def Crew.AtRegents (c c' : Crew) : Prop :=
  c.SlicesTo c' (fun _ x =>
    if x.live then { x with pc := x.region.ent, active := x.region.mask &&& ~~~x.exited,
                            stack := x.region.stack.map (fun e => { e with mask := e.mask &&& ~~~x.exited }), wait := .none, la := [],
                            slate := [], vlate := [], lateHit := false }
    else x) ∧
  c'.Grouped fun i j => ∃ x y, c.slices[i]? = some x ∧ c.slices[j]? = some y ∧ x.region.tag = y.region.tag

/-- A crew as the hard stage leaves it (R340): held by its MASK, faulted still, or stopped with its waits ended, but for SLEEP. -/
def HardStopped (c c' : Crew) : Prop :=
  (c.mask = true → c' = { c with held := true }) ∧
  (c.mask = false → c.faulted.isSome = true → c' = c) ∧
  (c.mask = false → c.faulted = none → c' = { c with late := none, stopped := false, preempted := true, held := false,
                                                     slices := c'.slices } ∧ c'.slices.length = c.slices.length ∧
    ∀ (i : Nat) (x x' : Slice), c.slices[i]? = some x → c'.slices[i]? = some x' →
      x' = { x with la := [], slate := [], vlate := [], lateHit := false, wait := x'.wait } ∧
      ((∃ d, x.wait = .sleep d) → x'.wait = x.wait) ∧ ((∀ d, x.wait ≠ .sleep d) → x'.wait = .none))

/-- The hard stage of context ctx begins on presented device d (R339, R340). -/
def State.HardBegins (s t : State) (d ctx : Nat) : Prop :=
  t = { s with crews := t.crews, ctxs := t.ctxs, pdevs := t.pdevs } ∧
  s.DevTo t d (fun p => { p with peStage := 2, peStart := s.reftime }) ∧ s.CtxTo t ctx (fun x => { x with stopAdmit := true }) ∧
  t.crews.length = s.crews.length ∧ ∀ (j : Nat) (k k' : Crew), s.crews[j]? = some k → t.crews[j]? = some k' →
    (k.ctx ≠ ctx → k' = k) ∧ (k.ctx = ctx → HardStopped k k')

/-- A PREEMPT request has been written on presented device d: it names context `ctx` with REQ `req` and SAVE `save` (R338). -/
def State.Requests (s : State) (d : Nat) (p : PDev) (ctx : BitVec 10) (req : BitVec 2) (save : BitVec 27) : Prop :=
  s.pdev? d = some p ∧ p.peGo = some (ctx, req, save) ∧ p.peBusy = false

/-- The request is begun: BUSY, with the context, REQ and SAVE kept. -/
def PDev.begun (p : PDev) (ctx : Nat) (req : BitVec 2) (save : BitVec 27) (now : Nat) : PDev :=
  { p with peGo := none, peBusy := true, peAct := some (ctx, req, save), peStart := now }

/-! ## Host, security and reliability (18 R344 to R359; 19 R360 to R371) -/

/-- The key material of the host's accesses (R346, R355): slot 0, or a LOADED slot whose NOHOST is 0. -/
def State.HostKey (s : State) (key : Nat) : Prop :=
  (s.bar0.hkey = 0 ∧ key = s.deviceKey) ∨
  s.bar0.hkey ≠ 0 ∧ ∃ k, mfind s.keys s.bar0.hkey.toNat = some k ∧ k.nohost = false ∧ key = 2 * k.key.toNat + 1

/-- No request of the host waits (R346): a new one is tried as it arrives. -/
def State.LinkFree (s : State) : Prop := ∀ i ∈ s.inbound, (∃ o, i = .peer o) ∨ ∃ o, i = .coll o

/-- A host request to n bytes at a BAR2 offset goes to location loc under `key` now (R346): within a line, behind no waiting request,
and no coherent command, migration, key erasure or U copy makes it wait. -/
structure State.HostReach (s : State) (off : BitVec 39) (n loc key : Nat) : Prop where
  key : s.HostKey key
  first : s.LinkFree
  kept : s.erasing ≠ some s.bar0.hkey.toNat
  size : 0 < n ∧ off.toNat % 128 + n ≤ 128
  dest : loc = s.forward (Aperture.loc ⟨0, 0, 3, 0⟩ ((s.bar0.b2off.toNat * 4096 + off.toNat) % 2 ^ 39))
  free : s.hostWaits ((s.bar0.b2off.toNat * 4096 + off.toNat) % 2 ^ 39) = false
  quiet : s.uline? (loc / 128) = none

/-- What an AtomicOp leaves (R344). -/
def hostAtomRule (op : HostAtom) (old : Nat) : Nat :=
  match op with
  | .fetchAdd32 b => (BitVec.ofNat 32 old + b).toNat
  | .fetchAdd64 b => (BitVec.ofNat 64 old + b).toNat
  | .swap32 b => b.toNat
  | .swap64 b => b.toNat
  | .cas32 c b => if BitVec.ofNat 32 old = c then b.toNat else old
  | .cas64 c b => if BitVec.ofNat 64 old = c then b.toNat else old
  | .cas128 c b => if BitVec.ofNat 128 old = c then b.toNat else old

/-- The security processor runs a command (R357): `op` is the OP of the block at SMCMD, which it has read; t is the state after. -/
structure State.SmRuns (s t : State) (key op : Nat) (o : SmOperands) : Prop where
  busy : s.bar0.smBusy = true
  serving : s.bar0.boot = 3
  idle : s.erasing = none
  slot : s.HostKey key
  block : ∃ b, s.hostReadN key (s.bar0.smcmd.toNat * 256 % 2 ^ 39) 256 = .ok b t ∧ op = b % 256 ∧
    o = Config.smOperands (BitVec.ofNat 2048 b)

/-- A security command ends (R357): BUSY falls, RESULT and DETAIL are written and VEC is raised. -/
def State.SmEnds (s : State) (o : Out) (result : BitVec 3) (detail : BitVec 8) : Prop :=
  o = .next ({ s with bar0 := { s.bar0 with smBusy := false, smResult := result, smDetail := detail } }.raiseVec s.bar0.smVec)

/-- A security command is refused, with a DETAIL that the spec leaves open (log 21). -/
def State.SmRefuses (s : State) (o : Out) : Prop := ∃ d, State.SmEnds { s with draws := s.draws + 1 } o 4 d

/-- The attestation report (R359): 4,096 bytes, the first 1,944 signed by the alias key, zeros after the signature. -/
def State.ReportIs (s : State) (o : SmOperands) (bs : List Byte) : Prop :=
  ∃ sig, sig = (Config.falconSign s.aliasSeed (toBytes 64 (Config.shake512 (bs.take 1944)).toNat)).take 1280 ∧ bs.length = 4096 ∧
    bs.take 4 = [1, 0, 0, 0] ∧ (bs.drop 8).take 32 = toBytes 32 o.nonce.toNat ∧
    (bs.drop 40).take 64 = toBytes 64 Config.romMeasurement.toNat ∧ (bs.drop 104).take 64 = toBytes 64 s.fwm.toNat ∧
    (bs.drop 168).take 64 = toBytes 64 Config.fuseMeasurement.toNat ∧ (bs.drop 240).take 4 = toBytes 4 o.ctx.toNat ∧
    (o.ctx = 0 → (bs.drop 248).take 64 = List.replicate 64 0) ∧
    (∀ x, o.ctx ≠ 0 → s.ctx? o.ctx.toNat = some x → (bs.drop 248).take 64 = toBytes 64 (Config.shake512
      (toBytes 64 x.cb.toNat ++ (List.range 64).flatMap fun i => toBytes 32 (mget (0 : BitVec 256) x.regions0 i).toNat)).toNat) ∧
    (bs.drop 1944).take 2 = toBytes 2 sig.length ∧ (bs.drop 1946).take sig.length = sig ∧
    bs.drop (1946 + sig.length) = List.replicate (2150 - sig.length) 0

/-- A request of a crew's lane that no answer ended (R348, R365): a late TIMEOUT in its gang and a machine check of `src`. -/
def State.TimesOut (s : State) (out : Out) (o : LostReq) (lane : BitVec 5) (c : Crew) (src : BitVec 4) : Prop :=
  ∃ m c', out = .next (m.machineCheck 1 src (c.core / 32) 0) ∧ s.OnlyCrew m c c' ∧ m = { s with crews := m.crews } ∧
    c' = { c with slices := c'.slices, late := c'.late, lateGang := c'.lateGang } ∧
    c'.late = some (c.late.getD { cause := 0x0E, late := true, lane := lane, detail := 0, level := 0, epc := o.pc, val := o.va }) ∧
    c'.lateGang = (if c.late.isSome then c.lateGang else c.holder) ∧ c'.slices.length = c.slices.length ∧
    ∀ (i : Nat) (x x' : Slice), c.slices[i]? = some x → c'.slices[i]? = some x' →
      x' = { x with lateHit := x'.lateHit } ∧ (x'.lateHit = true ↔ x.lateHit = true ∨ i = lane.toNat / 4)

/-- What a request whose answer does not come reaches from an agent (R348, R365). -/
def State.Lost (s : State) (ag : Agent) (x : Ctx) (o : LostReq) (r : Reach) : Prop :=
  s.translate ag x o.va false false (fun _ => true) = .ok r

/-- A device-fatal event (R367): a machine check of severity 2, and FAILED with DETAIL equal to SRC. -/
def State.Fails (s : State) (o : Out) (src : BitVec 4) (die : Nat) : Prop :=
  ∃ m, m = s.machineCheck 2 src die 0 ∧ o = .next { m with bar0 := { m.bar0 with boot := 5, bootDetail := src.setWidth 8 } }

/-- A corrected event is counted and raises no vector (R366). -/
def State.Counts (s : State) (o : Out) : Prop :=
  ∃ t, o = .next t ∧ t = { s with ras := { s.ras with ce := t.ras.ce } } ∧ t.ras.ce.toNat = min (2 ^ 32 - 1) (s.ras.ce.toNat + 1)

end Sys2Proof.Machine
end

