-- ==== Sys2Proof/Certificates/Slice0/Obligations.lean ====
section
/-!
DEFINITION. The statements for the provers, chapter by chapter of spec/. Each docstring names the rules or the log entry that a
statement formalises.
-/
open Sys2Proof Sys2Proof.Machine

/-! ## Arithmetic, selection and moves (07 R145 to R160) -/

/-- R148, R149: every integer, logic, bit-field and byte instruction writes in each unit the r of its row, raises no flag and changes nothing else. A
and C are registers of the file U selects; B, or C of BFI, BYSEL and FSHR, is a register or IMM32, and B can be the literal. -/
def Obligations.IntegerLogicAndBitFields : Prop :=
  Bin .iadd (fun a b => BitVec.ofNat 32 (a.toNat + b.toNat)) ∧
  Bin .isub (fun a b => BitVec.ofInt 32 ((a.toNat : Int) - b.toNat)) ∧
  Bin .imul (fun a b => BitVec.ofNat 32 (a.toNat * b.toNat)) ∧
  Bin .imulhs (fun a b => BitVec.ofInt 32 (a.toInt * b.toInt / 2 ^ 32)) ∧
  Bin .imulhu (fun a b => BitVec.ofNat 32 (a.toNat * b.toNat / 2 ^ 32)) ∧
  Tern .imad (fun a b c => BitVec.ofNat 32 (a.toNat * b.toNat + c.toNat)) ∧
  TernWide .imadws (fun a b c => BitVec.ofInt 64 (a.toInt * b.toInt + c.toNat)) ∧
  TernWide .imadwu (fun a b c => BitVec.ofNat 64 (a.toNat * b.toNat + c.toNat)) ∧
  Bin64 .iadd64 (fun a b => BitVec.ofNat 64 (a.toNat + b.toNat)) ∧
  Bin64 .isub64 (fun a b => BitVec.ofInt 64 ((a.toNat : Int) - b.toNat)) ∧
  Bin .imins (fun a b => BitVec.ofInt 32 (min a.toInt b.toInt)) ∧
  Bin .imaxs (fun a b => BitVec.ofInt 32 (max a.toInt b.toInt)) ∧
  Bin .iminu (fun a b => BitVec.ofNat 32 (min a.toNat b.toNat)) ∧
  Bin .imaxu (fun a b => BitVec.ofNat 32 (max a.toNat b.toNat)) ∧
  Un .iabs (fun a => BitVec.ofNat 32 a.toInt.natAbs) ∧
  Bin .idivu (fun a b => if b = 0 then 0xFFFFFFFF else BitVec.ofNat 32 (a.toNat / b.toNat)) ∧
  Bin .iremu (fun a b => if b = 0 then a else BitVec.ofNat 32 (a.toNat % b.toNat)) ∧
  Bin .and (fun a b => bitsOf fun i => a.getLsbD i && b.getLsbD i) ∧
  Bin .or (fun a b => bitsOf fun i => a.getLsbD i || b.getLsbD i) ∧
  Bin .xor (fun a b => bitsOf fun i => a.getLsbD i != b.getLsbD i) ∧
  Bin .andn (fun a b => bitsOf fun i => a.getLsbD i && !b.getLsbD i) ∧
  Bin .shl (fun a b => shlRule 32 a.toNat b.toNat) ∧
  Bin .shr (fun a b => shrRule 32 a.toNat b.toNat) ∧
  Bin .sar (fun a b => sarRule 32 a.toInt b.toNat) ∧
  Bin .rotl (fun a b => bitsOf fun i => a.getLsbD ((i + 32 - b.toNat % 32) % 32)) ∧
  Bin64By32 .shl64 (fun a b => shlRule 64 a.toNat b.toNat) ∧
  Bin64By32 .shr64 (fun a b => shrRule 64 a.toNat b.toNat) ∧
  Bin64By32 .sar64 (fun a b => sarRule 64 a.toInt b.toNat) ∧
  Un .clz (fun a => BitVec.ofNat 32 ((List.range 32).countP fun k => decide (a.toNat < 2 ^ k))) ∧
  Un .popc (fun a => BitVec.ofNat 32 ((List.range 32).countP fun k => a.getLsbD k)) ∧
  Un .brev (fun a => bitsOf fun i => a.getLsbD (31 - i)) ∧
  Tern .idp4s (fun a b c => BitVec.ofInt 32 (c.toNat +
    ((List.range 4).map fun i => (byteAtWord a i).toInt * (byteAtWord b i).toInt).sum)) ∧
  Tern .idp4u (fun a b c => BitVec.ofNat 32 (c.toNat +
    ((List.range 4).map fun i => (byteAtWord a i).toNat * (byteAtWord b i).toNat).sum)) ∧
  -- R149
  Bin .bfeu bfeuRule ∧ Bin .bfes bfesRule ∧ TernCi .bfi bfiRule ∧ TernCi .bysel byselRule ∧ TernCi .fshr fshrRule

/-- R147, R150, R151: comparisons, SEL, PLOP and PMOV. Predicate results go to every participating lane, a write to p15 is
discarded, and with U the comparison is made once a slice. -/
def Obligations.ComparisonsAndPredicates : Prop :=
  (∀ o : ICmp, Decides (.icmps o) o.h o.u o.pd.toNat fun c l =>
    (condRule o.cc (c.rget o.u l o.a.toNat).toInt (c.b32 o.u l o.b).toInt, 0)) ∧
  (∀ o : ICmp, Decides (.icmpu o) o.h o.u o.pd.toNat fun c l =>
    (condRule o.cc (c.rget o.u l o.a.toNat).toNat (c.b32 o.u l o.b).toNat, 0)) ∧
  (∀ o : ICmp64, Decides (.icmp64 o) o.h o.u o.pd.toNat fun c l =>
    (cond64Rule o.cc (c.rget64 o.u l o.a.toNat) (c.b64 o.u l o.b), 0)) ∧
  (∀ o : Sel, Computes (.sel o) o.h o.u o.d.toNat fun c _ l =>
    noFlags [if c.pget l o.pc.toNat then c.rget o.u l o.a.toNat else c.b32 o.u l o.b]) ∧
  (∀ o : Plop, Decides (.plop o) o.h false o.pd.toNat fun c l =>
    (o.t.getLsbD (4 * (c.pget l o.pa.toNat).toNat + 2 * (c.pget l o.pb.toNat).toNat + (c.pget l o.pc.toNat).toNat), 0)) ∧
  (∀ (h : Hdr) (pd pa : BitVec 4), Decides (.pmov ⟨h, .copy pd pa⟩) h false pd.toNat fun c l => (c.pget l pa.toNat, 0)) ∧
  (∀ (h : Hdr) (vd : BitVec 7), Computes (.pmov ⟨h, .get vd⟩) h false vd.toNat fun c _ l =>
    noFlags [bitsOf fun i => decide (i < 16) && c.pget l i]) ∧
  (∀ (h : Hdr) (va : BitVec 7) (s : State) (uid g : Nat) (c : Crew), s.Issues uid g c (.pmov ⟨h, .set va⟩) →
    s.CrewTo (exec (.pmov ⟨h, .set va⟩) s) c fun c' =>
      c.SetPreds c' g h.form.bytes (c.Takes g h.guard) fun l => c.vget l va.toNat)

/-- R134, R152: MOV in its four forms, MOVI, MOVL, LEA, and MOVSR, whose registers are in `sregRule`. -/
def Obligations.MovesAndAddresses : Prop :=
  (∀ (h : Hdr) (d a : BitVec 7), Computes (.mov ⟨h, .vv d a⟩) h false d.toNat fun c _ l => noFlags [c.vget l a.toNat]) ∧
  (∀ (h : Hdr) (d a : BitVec 6), Computes (.mov ⟨h, .ss d a⟩) h true d.toNat fun c _ l => noFlags [c.sget (l / 4) a.toNat]) ∧
  (∀ (h : Hdr) (d : BitVec 7) (a : BitVec 6), Computes (.mov ⟨h, .vs d a⟩) h false d.toNat fun c _ l =>
    noFlags [c.sget (l / 4) a.toNat]) ∧
  (∀ (h : Hdr) (d : BitVec 6) (a : BitVec 7), Computes (.mov ⟨h, .sv d a⟩) h true d.toNat fun c _ l =>
    noFlags [c.vget l a.toNat]) ∧
  (∀ (h : Hdr) (u : Bool) (d : BitVec 7) (v : BitVec 14), Computes (.movi ⟨h, u, d, .short v⟩) h u d.toNat fun _ _ _ =>
    noFlags [BitVec.ofInt 32 v.toInt]) ∧
  (∀ (h : Hdr) (u : Bool) (d : BitVec 7) (v : BitVec 32), Computes (.movi ⟨h, u, d, .long v⟩) h u d.toNat fun _ _ _ =>
    noFlags [v]) ∧
  (∀ o : Movl, Computes (.movl o) o.h o.u o.d.toNat fun _ _ _ => noFlags (words2 o.imm)) ∧
  (∀ o : Lea, Computes (.lea o) o.h o.u o.d.toNat fun c _ l =>
    let b := c.rget o.u l o.b.toNat
    let x : Int := if o.sx then b.toInt else b.toNat
    noFlags (words2 (BitVec.ofInt 64 ((c.rget64 (o.u || o.scalarA) l o.a.toNat).toNat + x * 2 ^ o.k.toNat)))) ∧
  -- a special register, which each lane, slice or crew has
  ∀ (o : Movsr) (s : State) (uid g : Nat) (c : Crew) (b : Block), s.Issues uid g c (.movsr o) → s.block? c.block = some b →
    s.CrewTo (exec (.movsr o) s) c fun c' => ∃ f : Nat → List Word × BitVec 5,
      c.Wrote c' g o.h.form.bytes o.u o.d.toNat (c.Unit g o.h.guard o.u) f ∧
      ∀ l x, c.slices[l / 4]? = some x → f l = noFlags (sregRule s c b x l o.sr)

/-- R153, R156, R157: FP32, packed BF16 and FP16, and FP64 arithmetic round the exact result once in the mode selected; both
halves of a packed operation raise their flags. -/
def Obligations.FloatArithmeticRoundsOnce : Prop :=
  let r32 := fun (w : Word) => f32.read w.toNat
  let r64 := fun (w : BitVec 64) => f64.read w.toNat
  BinR .fadd (fun rm a b => code32 (f32.addV rm (r32 a) (r32 b))) ∧
  BinR .fsub (fun rm a b => code32 (f32.addV rm (r32 a) (r32 b).neg)) ∧
  BinR .fmul (fun rm a b => code32 (f32.mulV rm (r32 a) (r32 b))) ∧
  TernR .fmac (fun rm a b c => code32 (f32.fmaV rm (r32 a) (r32 b) (r32 c))) ∧
  BinR .badd2 (fun rm => perHalf2 fun x y => bf16.addV rm (bf16.read x) (bf16.read y)) ∧
  BinR .bmul2 (fun rm => perHalf2 fun x y => bf16.mulV rm (bf16.read x) (bf16.read y)) ∧
  TernR .bfma2 (fun rm => perHalf3 fun x y z => bf16.fmaV rm (bf16.read x) (bf16.read y) (bf16.read z)) ∧
  BinF .bmin2 (perHalf2 (bf16.minmax false)) ∧
  BinF .bmax2 (perHalf2 (bf16.minmax true)) ∧
  BinR .hadd2 (fun rm => perHalf2 fun x y => f16.addV rm (f16.read x) (f16.read y)) ∧
  BinR .hmul2 (fun rm => perHalf2 fun x y => f16.mulV rm (f16.read x) (f16.read y)) ∧
  TernR .hfma2 (fun rm => perHalf3 fun x y z => f16.fmaV rm (f16.read x) (f16.read y) (f16.read z)) ∧
  (∀ o : DABR, Computes (.dadd o) o.h o.u o.d.toNat fun c _ l =>
    code64 (f64.addV (c.rmode o.rm) (r64 (c.rget64 o.u l o.a.toNat)) (r64 (c.b64 o.u l o.b)))) ∧
  (∀ o : DABR, Computes (.dmul o) o.h o.u o.d.toNat fun c _ l =>
    code64 (f64.mulV (c.rmode o.rm) (r64 (c.rget64 o.u l o.a.toNat)) (r64 (c.b64 o.u l o.b)))) ∧
  (∀ o : DABCR, Computes (.dfma o) o.h o.u o.d.toNat fun c _ l =>
    code64 (f64.fmaV (c.rmode o.rm) (r64 (c.rget64 o.u l o.a.toNat)) (r64 (c.b64 o.u l o.b))
      (r64 (c.rget64 o.u l o.c.toNat)))) ∧
  -- what the sum, the product and the fused sum are, in each format and mode
  ∀ f, f = f64 ∨ f = f32 ∨ f = f16 ∨ f = bf16 → ∀ (rm : RMode) (a b c : FV),
    f.Summed rm a b (f.addV rm a b) ∧ f.Multiplied rm a b (f.mulV rm a b) ∧ f.Fused rm a b c (f.fmaV rm a b c)

/-- R154: FMIN, FMAX, FCMP and FCLASS, decided on the codes; the FP32 rule and, for BMIN2 and BMAX2, that of each half are in
`minMaxRule`. -/
def Obligations.MinMaxCompareAndClass : Prop :=
  BinF .fmin (fun a b => code32 (minMaxRule f32 false a.toNat b.toNat)) ∧
  BinF .fmax (fun a b => code32 (minMaxRule f32 true a.toNat b.toNat)) ∧
  BinF .bmin2 (perHalf2 (minMaxRule bf16 false)) ∧
  BinF .bmax2 (perHalf2 (minMaxRule bf16 true)) ∧
  (∀ o : FCmp, Decides (.fcmp o) o.h o.u o.pd.toNat fun c l =>
    fcmpRule o.cc (c.rget o.u l o.a.toNat).toNat (c.b32 o.u l o.b).toNat) ∧
  Un .fclass (fun a => BitVec.ofNat 32 (2 ^ fclassRule a.toNat))

/-- R155: the special functions write the value of their row with its flags, and the special cases of the table are as it gives
them, in every rounding mode. -/
def Obligations.SpecialFunctionsAndTheirCases : Prop :=
  let r := fun (w : Word) => f32.read w.toNat
  UnR .frcp (fun rm a => code32 (f32.rcpV rm (r a))) ∧
  UnR .frsq (fun rm a => code32 (f32.rsqV rm (r a))) ∧
  UnR .fsqrt (fun rm a => code32 (f32.sqrtV rm (r a))) ∧
  BinR .fdiv (fun rm a b => code32 (f32.divV rm (r a) (r b))) ∧
  UnF .fex2 (fun a => code32 (ex2Of (r a))) ∧
  UnF .flg2 (fun a => code32 (lg2Of (r a))) ∧
  UnF .fsin (fun a => code32 (sinCosOf false (r a))) ∧
  UnF .fcos (fun a => code32 (sinCosOf true (r a))) ∧
  UnF .ftanh (fun a => code32 (tanhOf (r a))) ∧
  -- a NaN operand gives the canonical NaN, with invalid if it signals
  (∀ rm sig y, f32.rcpV rm (.nan sig) = (0x7FC00000, invalidIf sig) ∧ f32.rsqV rm (.nan sig) = (0x7FC00000, invalidIf sig) ∧
    f32.sqrtV rm (.nan sig) = (0x7FC00000, invalidIf sig) ∧
    f32.divV rm (.nan sig) y = (0x7FC00000, invalidIf (sig || y.isSig)) ∧
    ex2Of (.nan sig) = (0x7FC00000, invalidIf sig) ∧ lg2Of (.nan sig) = (0x7FC00000, invalidIf sig) ∧
    (∀ k, sinCosOf k (.nan sig) = (0x7FC00000, invalidIf sig)) ∧ tanhOf (.nan sig) = (0x7FC00000, invalidIf sig)) ∧
  -- 1 / a and 1 / √a of zeros and infinities
  (∀ rm n e, f32.rcpV rm (.fin n 0 e) = (f32.infinity n, 8) ∧ f32.rcpV rm (.inf n) = (f32.zero n, 0) ∧
    f32.rsqV rm (.fin n 0 e) = (f32.infinity n, 8) ∧ f32.rsqV rm (.inf false) = (0, 0) ∧
    f32.sqrtV rm (.fin n 0 e) = (f32.zero n, 0) ∧ f32.sqrtV rm (.inf false) = (0x7F800000, 0)) ∧
  -- negative operands of a root or a logarithm
  (∀ rm m e, m ≠ 0 → f32.rsqV rm (.fin true m e) = (0x7FC00000, 16) ∧ f32.sqrtV rm (.fin true m e) = (0x7FC00000, 16) ∧
    lg2Of (.fin true m e) = (0x7FC00000, 16)) ∧
  (∀ rm, f32.rsqV rm (.inf true) = (0x7FC00000, 16) ∧ f32.sqrtV rm (.inf true) = (0x7FC00000, 16)) ∧
  lg2Of (.inf true) = (0x7FC00000, 16) ∧
  -- a / b
  (∀ rm n n' m e e', f32.divV rm (.fin n 0 e) (.fin n' 0 e') = (0x7FC00000, 16) ∧
    f32.divV rm (.inf n) (.inf n') = (0x7FC00000, 16) ∧
    (m ≠ 0 → f32.divV rm (.fin n m e) (.fin n' 0 e') = (f32.infinity (n != n'), 8))) ∧
  -- 2^a, log2 a, sin a, cos a, tanh a
  ex2Of (.inf true) = (0, 0) ∧ ex2Of (.inf false) = (0x7F800000, 0) ∧
  (∀ n e, lg2Of (.fin n 0 e) = (0xFF800000, 8)) ∧ lg2Of (.inf false) = (0x7F800000, 0) ∧
  lg2Of (f32.read 0x3F800000) = (0, 0) ∧
  (∀ k n, sinCosOf k (.inf n) = (0x7FC00000, 16)) ∧
  (∀ n e, sinCosOf false (.fin n 0 e) = (f32.zero n, 0) ∧ sinCosOf true (.fin n 0 e) = (0x3F800000, 0)) ∧
  (∀ n e, tanhOf (.inf n) = (f32.signed n 0x3F800000, 0) ∧ tanhOf (.fin n 0 e) = (f32.zero n, 0)) ∧
  -- the finite values: the exact reciprocal, quotient and roots rounded once; the operands are those that FP32 codes stand for
  (∀ (rm : RMode) (x y : Nat) (n n' : Bool) (m m' : Nat) (e e' : Int), f32.read x = .fin n m e → f32.read y = .fin n' m' e' → m ≠ 0 →
    f32.Rounded rm false n (exactQuotient 1 0 m e) (f32.rcpV rm (.fin n m e)) ∧
    (m' ≠ 0 → f32.Rounded rm false (n != n') (exactQuotient m e m' e') (f32.divV rm (.fin n m e) (.fin n' m' e'))) ∧
    (m' ≠ 0 → f32.divV rm (.fin n 0 e) (.fin n' m' e') = (f32.zero (n != n'), 0)) ∧
    (n = false → f32.Rounded rm false false (exactRoot m e) (f32.sqrtV rm (.fin n m e)) ∧
      f32.Rounded rm false false (exactInverseRoot m e) (f32.rsqV rm (.fin n m e)))) ∧
  (∀ rm n n' m e, f32.divV rm (.inf n) (.fin n' m e) = (f32.infinity (n != n'), 0) ∧
    f32.divV rm (.fin n m e) (.inf n') = (f32.zero (n != n'), 0) ∧
    ∀ sig, f32.divV rm (.fin n m e) (.nan sig) = (0x7FC00000, invalidIf sig)) ∧
  -- 2^a of an integer and log2 of a power of two
  (∀ (x : Nat) (n : Bool) (m : Nat) (e : Int) (k : Nat), f32.read x = .fin n m e → dyCmp m e k 0 = .eq →
    f32.Rounded .rne false false (exactly 1 (if n then -(k : Int) else k)) (ex2Of (.fin n m e))) ∧
  ∀ (k : Nat) (e : Int), f32.Converted .rne false (.fin (decide (k + e < 0)) (k + e).natAbs 0) (lg2Of (.fin false (2 ^ k) e))

/-- R51, R158: the conversions. A narrowing one writes only the half or byte selected and keeps the rest of D; a widening one
reads only it. -/
def Obligations.ConversionsAndTheirParts : Prop :=
  let r := fun (w : Word) => f32.read w.toNat
  UnR .cvtF32S32 (fun rm a => code32 (f32.convert rm false (.fin (decide (a.toInt < 0)) a.toInt.natAbs 0))) ∧
  UnR .cvtF32U32 (fun rm a => code32 (f32.convert rm false (.fin false a.toNat 0))) ∧
  UnR .cvtS32F32 (fun rm a => ([(toInt32 true rm (r a)).1], (toInt32 true rm (r a)).2)) ∧
  UnR .cvtU32F32 (fun rm a => ([(toInt32 false rm (r a)).1], (toInt32 false rm (r a)).2)) ∧
  (∀ o : DAHalf, Computes (.cvtBf16F32 o) o.h o.u o.d.toNat fun c _ l =>
    let x := bf16.convert (c.rmode o.rm) false (r (c.rget o.u l o.a.toNat))
    ([insertRule (c.rget o.u l o.d.toNat) (if o.half then 16 else 0) 16 x.1], x.2)) ∧
  (∀ o : DAHalf, Computes (.cvtF16F32 o) o.h o.u o.d.toNat fun c _ l =>
    let x := f16.convert (c.rmode o.rm) false (r (c.rget o.u l o.a.toNat))
    ([insertRule (c.rget o.u l o.d.toNat) (if o.half then 16 else 0) 16 x.1], x.2)) ∧
  (∀ o : DAHalf, Computes (.cvtF32Bf16 o) o.h o.u o.d.toNat fun c _ l =>
    let a := (c.rget o.u l o.a.toNat).toNat
    code32 (f32.convert .rne false (bf16.read (if o.half then a / 2 ^ 16 else a % 2 ^ 16)))) ∧
  (∀ o : DAHalf, Computes (.cvtF32F16 o) o.h o.u o.d.toNat fun c _ l =>
    let a := (c.rget o.u l o.a.toNat).toNat
    code32 (f32.convert .rne false (f16.read (if o.half then a / 2 ^ 16 else a % 2 ^ 16)))) ∧
  (∀ o : DAByte, Computes (.cvtE4m3F32 o) o.h o.u o.d.toNat fun c _ l =>
    let x := e4m3.convert (c.rmode o.rm) true (r (c.rget o.u l o.a.toNat))
    ([insertRule (c.rget o.u l o.d.toNat) (8 * o.byte.toNat) 8 x.1], x.2)) ∧
  (∀ o : DAByte, Computes (.cvtE5m2F32 o) o.h o.u o.d.toNat fun c _ l =>
    let x := e5m2.convert (c.rmode o.rm) true (r (c.rget o.u l o.a.toNat))
    ([insertRule (c.rget o.u l o.d.toNat) (8 * o.byte.toNat) 8 x.1], x.2)) ∧
  (∀ o : DAByte, Computes (.cvtF32E4m3 o) o.h o.u o.d.toNat fun c _ l =>
    code32 (f32.convert .rne false (e4m3.read ((c.rget o.u l o.a.toNat).toNat / 2 ^ (8 * o.byte.toNat) % 2 ^ 8)))) ∧
  (∀ o : DAByte, Computes (.cvtF32E5m2 o) o.h o.u o.d.toNat fun c _ l =>
    code32 (f32.convert .rne false (e5m2.read ((c.rget o.u l o.a.toNat).toNat / 2 ^ (8 * o.byte.toNat) % 2 ^ 8)))) ∧
  UnF .cvtF64F32 (fun a => code64 (f64.convert .rne false (r a))) ∧
  (∀ o : DAR, Computes (.cvtF32F64 o) o.h o.u o.d.toNat fun c _ l =>
    code32 (f32.convert (c.rmode o.rm) false (f64.read (c.rget64 o.u l o.a.toNat).toNat))) ∧
  -- every value converted: rounded once to the format, saturating for FP8 and for the integers
  (∀ (f : FFmt), f = f64 ∨ f = f32 ∨ f = f16 ∨ f = bf16 → ∀ rm a, f.Converted rm false a (f.convert rm false a)) ∧
  (∀ rm a, e4m3.Converted rm true a (e4m3.convert rm true a) ∧ e5m2.Converted rm true a (e5m2.convert rm true a)) ∧
  (∀ rm a, Integral (-(2 ^ 31)) (2 ^ 31 - 1) rm a (toInt32 true rm a) ∧ Integral 0 (2 ^ 32 - 1) rm a (toInt32 false rm a)) ∧
  -- NaN and infinity, and the saturation of the rows to integers and FP8
  (∀ (f : FFmt) rm sat sig, f.convert rm sat (.nan sig) = (f.nan, invalidIf sig)) ∧
  (∀ (f : FFmt) rm sat n, f.inf = true → f.convert rm sat (.inf n) = (f.infinity n, 0)) ∧
  (∀ rm n, e4m3.convert rm true (.inf n) = (e4m3.signed n 0x7E, 5)) ∧
  (∀ sg rm k, toInt32 sg rm (.nan k) = (0, 16)) ∧
  (∀ rm, toInt32 true rm (.inf false) = (0x7FFFFFFF, 16) ∧ toInt32 true rm (.inf true) = (0x80000000, 16) ∧
    toInt32 false rm (.inf false) = (0xFFFFFFFF, 16) ∧ toInt32 false rm (.inf true) = (0, 16))

/-- R61 to R63, R159, R160: QUANT needs all 32 lanes and writes a block's elements and scale; FEXPO gives ⌊log2 |x|⌋, QALIGN the integer RNE(x × 2^(51 − e)) or the saturated one with OF,
QUNALIGN the FP32 value of an aligned sum. -/
def Obligations.SharedExponentPath : Prop :=
  (∃ f : Nat → Int, UnF .fexpo (fun a => noFlags [BitVec.ofInt 32 (f a.toNat)]) ∧
    (∀ x, (f32.read x).isNan = true ∨ (∃ n, f32.read x = .inf n) → f x = 32767) ∧
    (∀ x n e, f32.read x = .fin n 0 e → f x = -32768) ∧
    ∀ x n m e, f32.read x = .fin n m e → m ≠ 0 → ∃ k : Nat, f x = k + e ∧ 2 ^ k ≤ m ∧ m < 2 ^ (k + 1)) ∧
  (∃ f : Nat → Int → BitVec 64 × BitVec 5, BinF .qalign (fun a b => (words2 (f a.toNat b.toInt).1, (f a.toNat b.toInt).2)) ∧
    (∀ x e, (f32.read x).isNan = true ∨ (∃ n, f32.read x = .inf n) → f x e = (0x8000000000000000, 16)) ∧
    (∀ x n m k, f32.read x = .fin n m k → f x 32767 = (0, 0)) ∧
    -- x × 2^(51 − e) is an integer of at most 63 bits: the result is exact
    (∀ x n m k e, f32.read x = .fin n m k → e ≠ 32767 → e ≤ k + 51 → m * 2 ^ (k + 51 - e).toNat < 2 ^ 63 →
      f x e = (BitVec.ofInt 64 ((if n then -1 else 1) * (m * 2 ^ (k + 51 - e).toNat : Nat)), 0)) ∧
    -- an integer of more bits saturates with overflow
    (∀ x n m k e, f32.read x = .fin n m k → e ≠ 32767 → e ≤ k + 51 → 2 ^ 63 ≤ m * 2 ^ (k + 51 - e).toNat →
      f x e = (BitVec.ofInt 64 ((if n then -1 else 1) * (2 ^ 63 - 1)), 4)) ∧
    -- else it is the nearest integer, ties to even, and NX says whether it differs
    (∀ x n m k e, f32.read x = .fin n m k → e ≠ 32767 → k + 51 < e → ∃ y : Nat,
      f x e = (BitVec.ofInt 64 ((if n then -1 else 1) * (y : Int)), if y * 2 ^ (e - k - 51).toNat = m then 0 else 1) ∧
      2 * m ≤ (2 * y + 1) * 2 ^ (e - k - 51).toNat ∧ 2 * y * 2 ^ (e - k - 51).toNat ≤ 2 * m + 2 ^ (e - k - 51).toNat ∧
      (2 * m = (2 * y + 1) * 2 ^ (e - k - 51).toNat ∨ 2 * y * 2 ^ (e - k - 51).toNat = 2 * m + 2 ^ (e - k - 51).toNat →
        y % 2 = 0))) ∧
  (∀ o : DAB, ∃ f : BitVec 64 → Int → FRes, Computes (.qunalign o) o.h o.u o.d.toNat (fun c _ l =>
      code32 (f (c.rget64 o.u l o.a.toNat) (c.b32 o.u l o.b).toInt)) ∧
    (∀ t, f t 32767 = (0x7FC00000, 16)) ∧ (∀ e, f 0x8000000000000000 e = (0x7FC00000, 16)) ∧
    (∀ e, e ≠ 32767 → f 0 e = (0, 0)) ∧
    ∀ t e, e ≠ 32767 → t ≠ 0x8000000000000000 → t ≠ 0 →
      f t e = f32.round .rne false (decide (t.toInt < 0)) t.toInt.natAbs (e - 51) false) ∧
  -- a block's scale, elements and flags
  (∀ t xs, BlockQuantised t xs (quantBlock t xs)) ∧
  -- QUANT with any lane missing traps with SHAPE and has no effect
  (∀ (o : Quant) (s : State) (uid g : Nat) (c : Crew), s.Issues uid g c (.quant o) →
    (c.slices.length = 8 ∧ (∀ l, l < 32 → c.Takes g o.h.guard l) →
      s.CrewTo (exec (.quant o) s) c fun c' =>
        let block := (List.range 128).map fun k => (c.vget (k / 4) (o.a.toNat + k % 4)).toNat
        c' = { c with v := c'.v, slices := c'.slices, fflags := c.fflags ||| (quantBlock o.t block).2.2 } ∧
        c.SlicesPass c' g o.h.form.bytes ∧
        (∀ l n, n < 128 → c'.vget l n = if l < 32 ∧ n = o.d.toNat then quantWord o.t (quantBlock o.t block).2.1 l
          else c.vget l n) ∧
        ∀ i n, c'.sget i n = if i < 8 ∧ n = o.sc.toNat then BitVec.ofNat 32 (quantBlock o.t block).1 else c.sget i n) ∧
    (¬(c.slices.length = 8 ∧ ∀ l, l < 32 → c.Takes g o.h.guard l) →
      exec (.quant o) s = .next (s.trap c g o.h.form.bytes 0x11 0)))

/-- R42, R46 to R48: rounding m × 2^e to a multiple n × 2^q keeps an exact value, and else chooses the neighbour the mode names;
the second component says whether the delivered value differs. The code of a result that does not overflow reads back as that
multiple; one that overflows is what its mode delivers, with overflow and inexact (FP64, FP32, FP16 and BF16). -/
def Obligations.RoundingChoosesTheNeighbour : Prop :=
  (∀ (rm : RMode) (neg : Bool) (m : Nat) (e q : Int),
    (q ≤ e → roundAt rm neg m e false q = (m * 2 ^ (e - q).toNat, false)) ∧
    (e < q → ∀ k n : Nat, k = (q - e).toNat → n = (roundAt rm neg m e false q).1 →
      ((roundAt rm neg m e false q).2 = decide (n * 2 ^ k ≠ m)) ∧
      m < (n + 1) * 2 ^ k ∧ n * 2 ^ k < m + 2 ^ k ∧
      match rm with
      | .rz => n * 2 ^ k ≤ m
      | .ru => if neg then n * 2 ^ k ≤ m else m ≤ n * 2 ^ k
      | .rd => if neg then m ≤ n * 2 ^ k else n * 2 ^ k ≤ m
      | .rne => 2 * (n * 2 ^ k) ≤ 2 * m + 2 ^ k ∧ 2 * m ≤ 2 * (n * 2 ^ k) + 2 ^ k ∧
          (2 * (n * 2 ^ k) = 2 * m + 2 ^ k ∨ 2 * m = 2 * (n * 2 ^ k) + 2 ^ k → n % 2 = 0)
      | .rn => 2 * (n * 2 ^ k) ≤ 2 * m + 2 ^ k ∧ 2 * m < 2 * (n * 2 ^ k) + 2 ^ k)) ∧
  (∀ f : FFmt, f = f64 ∨ f = f32 ∨ f = f16 ∨ f = bf16 → ∀ (rm : RMode) (neg : Bool) (m : Nat) (e : Int), m ≠ 0 →
    let qU := (Nat.log2 m : Int) + e - f.fb
    let q := max qU (1 - (f.bias : Int) - f.fb)
    let exceeds := dyLt f.maxFin.1 f.maxFin.2 (roundAt rm neg m e false qU).1 qU
    (exceeds = false → ∃ n k, f.read (f.round rm false neg m e false).1 = .fin neg n k ∧ q ≤ k ∧
      n * 2 ^ (k - q).toNat = (roundAt rm neg m e false q).1 ∧
      ((f.round rm false neg m e false).2.getLsbD 0 = (roundAt rm neg m e false q).2) ∧
      ((f.round rm false neg m e false).2.getLsbD 2 = false)) ∧
    (exceeds = true → (f.round rm false neg m e false).2 = 5 ∧
      (f.round rm false neg m e false).1 =
        if rm = .rz ∨ (rm = .ru ∧ neg = true) ∨ (rm = .rd ∧ neg = false) then f.signed neg f.maxCode else f.infinity neg))

/-! ## Lanes (07 R161 to R167) -/

/-- R161, R162: the lane moves write vA of the source lane where it is reachable and vA of the lane itself elsewhere. -/
def Obligations.LaneMovesReadReachableLanes : Prop :=
  LaneMove .shfli (fun _ n => n) ∧
  LaneMove .shflup (fun l n => (l : Int) - n) ∧
  LaneMove .shfldn (fun l n => (l : Int) + n) ∧
  LaneMove .shflx (fun l n => ((l ^^^ (n % 32) : Nat) : Int)) ∧
  (∀ o : Bcast, ComputesBy (.bcast o) o.h false o.d.toNat fun c g l r => ∃ w, r = noFlags [w] ∧
    c.MovedFrom g l o.a.toNat (match o.b with
      | .reg n => (c.sget (l / 4) n.toNat).toNat
      | .imm v => v.toNat
      | .lit v => v.toNat % 2 ^ 32) w) ∧
  (∀ o : Swz, ComputesBy (.swz4 o) o.h false o.d.toNat fun c g l r => ∃ w, r = noFlags [w] ∧
    c.MovedFrom g l o.a.toNat ((4 * (l / 4) + o.pat.toNat / 2 ^ (2 * (l % 4)) % 4 : Nat) : Int) w)

/-- R163: BALLOT, VOTE and MATCH over the participating lanes. -/
def Obligations.BallotVoteAndMatch : Prop :=
  (∀ (h : Hdr) (u : Bool) (d : BitVec 7) (pa : BitVec 4), Computes (.ballot ⟨h, u, d, .pred pa⟩) h u d.toNat fun c g _ =>
    noFlags [bitsOf fun j => (c.parts g h.guard).contains j && c.pget j pa.toNat]) ∧
  (∀ (h : Hdr) (u : Bool) (d va : BitVec 7) (b : SrcB), Computes (.ballot ⟨h, u, d, .bit va b⟩) h u d.toNat fun c g _ =>
    noFlags [bitsOf fun j => (c.parts g h.guard).contains j && (c.vget j va.toNat).getLsbD ((c.b32 false j b).toNat % 32)]) ∧
  (∀ (o : Vote) (s : State) (uid g : Nat) (c : Crew), s.Issues uid g c (.vote o) →
    s.CrewTo (exec (.vote o) s) c fun c' => ∃ v : Bool,
      (v = true ↔ match o.m with
        | .all => ∀ l, c.Takes g o.h.guard l → c.pget l o.pa.toNat = true
        | .any => ∃ l, c.Takes g o.h.guard l ∧ c.pget l o.pa.toNat = true
        | .uni => ∀ l k, c.Takes g o.h.guard l → c.Takes g o.h.guard k → c.pget l o.pa.toNat = c.pget k o.pa.toNat) ∧
      c.Decided c' g o.h.form.bytes false o.pd.toNat (c.Takes g o.h.guard) (c.Unit g o.h.guard false) fun _ => (v, 0)) ∧
  (∀ o : MatchOp, Computes (.matchLanes o) o.h false o.d.toNat fun c g l =>
    noFlags [bitsOf fun j => (c.parts g o.h.guard).contains j &&
      (if o.w64 then c.rget64 false j o.a.toNat == c.rget64 false l o.a.toNat
       else c.vget j o.a.toNat == c.vget l o.a.toNat)])

/-- R164: SCAN and REDUX fold the participating lanes in ascending order from the identity, with the flags of the steps. -/
def Obligations.ScanAndReduxFoldInLaneOrder : Prop :=
  (∀ o : Scan, Computes (.scan o) o.h false o.d.toNat fun c g l =>
    foldRule o.op (c.rmode o.rm) (((c.parts g o.h.guard).filter fun k => if o.excl then k < l else k ≤ l).map fun k =>
      c.vget k o.a.toNat)) ∧
  (∀ o : Redux, Computes (.redux o) o.h o.u o.d.toNat fun c g _ =>
    foldRule o.op (c.rmode o.rm) ((c.parts g o.h.guard).map fun k => c.vget k o.a.toNat)) ∧
  ∀ (c : Crew) (g : Nat) (gd : Guard), (c.parts g gd).Pairwise (· < ·) ∧ ∀ l, l ∈ c.parts g gd ↔ c.Takes g gd l

/-- R165: LSORT gives the k-th participating lane the k-th key of a stable ascending sort, and the lane it came from. -/
def Obligations.LsortIsStable : Prop :=
  ∀ (o : Lsort) (s : State) (uid g : Nat) (c : Crew), s.Issues uid g c (.lsort o) → ∃ ks : List (Word × Nat),
    ks.Perm ((c.parts g o.h.guard).map fun l => (c.vget l o.a.toNat, l)) ∧
    ks.Pairwise (fun x y =>
      let key := fun (w : Word) => if o.signed then w.toInt else (w.toNat : Int)
      key x.1 < key y.1 ∨ (key x.1 = key y.1 ∧ x.2 < y.2)) ∧
    s.CrewTo (exec (.lsort o) s) c fun c' => ∃ f : Nat → List Word × BitVec 5,
      c.Wrote c' g o.h.form.bytes false o.d.toNat (c.Unit g o.h.guard false) f ∧
      ∀ (k l : Nat) (x : Word × Nat), (c.parts g o.h.guard)[k]? = some l → ks[k]? = some x →
        f l = noFlags [x.1, BitVec.ofNat 32 x.2]

/-- R166, R167: SPCOMP keeps the half of each group's elements that ranks highest, with their indices; SPEXP puts entries back at
their indices, the entry of the highest lane winning. -/
def Obligations.SparseCompressAndExpand : Prop :=
  (∀ o : Sp, ComputesBy (.spcomp o) o.h false o.d.toNat fun c g l r =>
    let m := sparseGroup o.m
    let el := fun i => if (c.parts g o.h.guard).contains (l / m * m + i)
      then (c.vget (l / m * m + i) o.a.toNat).toNat % 2 ^ sparseBits o.f else 0
    ∃ kept, KeptOf (fun i => sparseRank o.f (el i)) m kept ∧
      r = noFlags [match kept[l % m]? with
        | some i => BitVec.ofNat 32 (i * 2 ^ 16 + el i)
        | none => 0]) ∧
  (∀ o : Sp, ComputesBy (.spexp o) o.h false o.d.toNat fun c g l r =>
    let m := sparseGroup o.m
    let names := fun k => l / m * m ≤ k ∧ k < l / m * m + m / 2 ∧ c.Reaches g k ∧
      (c.vget k o.a.toNat).toNat / 2 ^ 16 % 32 = l % m
    (∀ k, names k → (∀ k', names k' → k' ≤ k) →
      r = noFlags [BitVec.ofNat 32 ((c.vget k o.a.toNat).toNat % 2 ^ sparseBits o.f)]) ∧
    ((∀ k, ¬names k) → r = noFlags [0]))

/-! ## Control (07 R168 to R174, 02 R20 to R25) -/

/-- R20, R23, R168, R169: the branches. A slice with taken lanes goes to its target and pushes its other active lanes; a fifth
entry traps with STACKOVF, and a bad computed target with MISALIGN or PROT, before anything moves. -/
def Obligations.BranchesDivergeAndSplit : Prop :=
  (∀ (o : Bj) (s : State) (uid g : Nat) (c : Crew), s.Issues uid g c (.bra o) →
    let target := c.gangPc g + BitVec.ofInt 64 (4 * o.off.toInt)
    (¬c.WouldOverflow g ⟨o.pr, o.pn⟩ →
      s.CrewTo (exec (.bra o) s) c fun c' => c.Branched c' g 4 ⟨o.pr, o.pn⟩ (fun _ => target) id) ∧
    (c.WouldOverflow g ⟨o.pr, o.pn⟩ → exec (.bra o) s = .next (s.trap c g 4 0x10 0))) ∧
  (∀ (o : Bj) (s : State) (uid g : Nat) (c : Crew), s.Issues uid g c (.call o) →
    let target := c.gangPc g + BitVec.ofInt 64 (4 * o.off.toInt)
    let after := c.gangPc g + 4
    (¬c.WouldOverflow g ⟨o.pr, o.pn⟩ →
      s.CrewTo (exec (.call o) s) c fun c' => c.Branched c' g 4 ⟨o.pr, o.pn⟩ (fun _ => target) fun x =>
        (x.sset 62 (lo32 after)).sset 63 (hi32 after)) ∧
    (c.WouldOverflow g ⟨o.pr, o.pn⟩ → exec (.call o) s = .next (s.trap c g 4 0x10 0))) ∧
  (∀ (i : Instr) (len : Nat) (gd : Guard) (addr : Crew → Nat → BitVec 64),
    ((∃ o : Brx, i = .brx o ∧ len = CHdr.bytes o.h ∧ gd = o.h.guard ∧ addr = fun c l => c.rget64 o.u l o.a.toNat) ∨
     (∃ o : Ret, i = .ret o ∧ len = CHdr.bytes o.h ∧ gd = o.h.guard ∧ addr = fun c l => c.sget64 (l / 4) o.a.toNat)) →
    ∀ (s : State) (uid g : Nat) (c : Crew), s.Issues uid g c i → ∀ target : Nat → BitVec 64,
      -- a slice's target is that of its lowest participating lane
      (∀ l, c.Unit g gd true l → target (l / 4) = addr c l) →
      ((∀ l, c.Unit g gd true l → (target (l / 4)).toNat % 4 = 0 ∧ canonical (target (l / 4)) = true) →
        ¬c.WouldOverflow g gd → s.CrewTo (exec i s) c fun c' => c.Branched c' g len gd target id) ∧
      ((∀ l, c.Unit g gd true l → (target (l / 4)).toNat % 4 = 0 ∧ canonical (target (l / 4)) = true) →
        c.WouldOverflow g gd → exec i s = .next (s.trap c g len 0x10 0)) ∧
      -- the lowest slice with a bad target decides
      (∀ l, c.Unit g gd true l → (∀ k, k < l → c.Unit g gd true k →
          (target (k / 4)).toNat % 4 = 0 ∧ canonical (target (k / 4)) = true) →
        ((target (l / 4)).toNat % 4 ≠ 0 → exec i s = .next (s.trap c g len 0x03 0)) ∧
        ((target (l / 4)).toNat % 4 = 0 → canonical (target (l / 4)) = false → exec i s = .next (s.trap c g len 0x05 0))))

/-- R24, R25, R170: JOIN and EXIT in every slice of the gang, and the grouping of the slices by pc that follows. An EXIT that leaves
a slice which does not wait at a REGANG, and no block finished, does nothing else. -/
def Obligations.JoinAndExitRegroupByPc : Prop :=
  (∀ (s : State) (uid g : Nat) (c : Crew), s.Issues uid g c .join →
    s.CrewTo (exec .join s) c fun c' =>
      c.SlicesTo c' (fun i x => if c.inGang g i then joinRule (x.pc + 4) x else x) ∧
      c'.Grouped fun i j => c.Together i j ∧ (c'.slices[i]?).map (·.pc) = (c'.slices[j]?).map (·.pc)) ∧
  (∀ (o : CHdr) (s : State) (uid g : Nat) (c : Crew), s.Issues uid g c (.exit o) → ∃ c' : Crew, c'.uid = c.uid ∧
    c.SlicesTo c' (fun i x =>
      if c.inGang g i then exitRule (c.takenMask g o.guard i) (x.pc + BitVec.ofNat 64 (CHdr.bytes o)) x else x) ∧
    c'.Grouped (fun i j => c.Together i j ∧ (c'.slices[i]?).map (·.pc) = (c'.slices[j]?).map (·.pc)) ∧
    ((∃ (i : Nat) (x : Slice), c'.slices[i]? = some x ∧ x.live = true ∧ ∀ a, x.wait ≠ .regang a) →
      exec (.exit o) s = .next (s.setCrew c').reap ∧
      ((∀ b ∈ s.blocks, (s.setCrew c').finished b = false) → exec (.exit o) s = .next (s.setCrew c'))) ∧
    -- the last lanes of a block whose operations have ended take it off its core
    ((∀ x ∈ c'.slices, x.live = false) → ∃ t, exec (.exit o) s = .next t ∧ t = (s.setCrew c').reap ∧
      ∀ b ∈ s.blocks, (s.setCrew c').finished b = true → b ∉ t.blocks ∧ t.crews.all (fun k => k.block != b.uid) = true))

/-- R22, R38: REGANG. A crew of one gang passes; a gang waits while a live slice does not stand at a REGANG; slices that meet at one
address go on as one gang in a new region; at different addresses the crew traps with GANG. -/
def Obligations.RegangIsAMeeting : Prop :=
  ∀ (id : BitVec 14) (s : State) (uid g : Nat) (c : Crew), s.Issues uid g c (.regang id) →
    let live := fun (i : Nat) (x : Slice) => c.slices[i]? = some x ∧ x.live = true
    -- where a slice stands: the issuing gang's at this REGANG, another at the one it waits at
    let stands := fun (i : Nat) (x : Slice) (a : BitVec 64) => if c.inGang g i then x.pc = a else x.wait = .regang a
    ((∀ i x, live i x → x.gang = g) → ∃ t, exec (.regang id) s = .next t ∧ s.PassesIntoRegion t c g 4) ∧
    ((∃ i x, live i x ∧ x.gang ≠ g) → (∃ i x, live i x ∧ ∀ a, ¬stands i x a) →
      s.CrewTo (exec (.regang id) s) c fun c' => c' = { c with slices := c'.slices } ∧
        ∀ (i : Nat) (x x' : Slice), c.slices[i]? = some x → c'.slices[i]? = some x' →
          x' = if c.inGang g i then { x with wait := .regang x.pc } else x) ∧
    (∀ a, (∃ i x, live i x ∧ x.gang ≠ g) → (∀ i x, live i x → stands i x a) → ∃ t c', exec (.regang id) s = .next t ∧
      t = { s.setCrew c' with nextId := s.nextId + 1 } ∧ c' = { c with slices := c'.slices } ∧
      ∀ (i : Nat) (x x' : Slice), c.slices[i]? = some x → c'.slices[i]? = some x' →
        if x.live then
          x' = { x with pc := a + 4, wait := .none, gang := x'.gang, regctr := x.regctr + 1,
                        region := { ent := a + 4, mask := x.active, stack := x.stack, tag := s.nextId } } ∧
          ∀ (j : Nat) (y y' : Slice), c.slices[j]? = some y → c'.slices[j]? = some y' → y.live = true → x'.gang = y'.gang
        else x' = x) ∧
    (∀ (a : Nat → BitVec 64) (lowest : Nat), (∃ i x, live i x ∧ x.gang ≠ g) → (∀ i x, live i x → stands i x (a i)) →
      (∃ x, live lowest x) → (∀ i x, live i x → lowest ≤ i) → (∃ i x, live i x ∧ a i ≠ a lowest) →
      exec (.regang id) s = .next ((s.setCrew (c.modGang g fun x => { x with wait := .regang x.pc })).takeTrap uid g 4
        { cause := 0x06, late := false, lane := 0, detail := 0, level := 0, epc := c.gangPc g, val := a lowest }))

/-- R37, R38, R170 to R174: REGION, NOP, SLEEP, TRAP, SETPRIO and SETSR. -/
def Obligations.RegionSleepTrapAndSetsr : Prop :=
  (∀ (s : State) (uid g : Nat) (c : Crew), s.Issues uid g c .region →
    ∃ t, exec .region s = .next t ∧ s.PassesIntoRegion t c g 4) ∧
  (∀ (ext : Bool) (s : State) (uid g : Nat) (c : Crew), s.Issues uid g c (.nop ext) →
    s.CrewTo (exec (.nop ext) s) c fun c' => c.Passed c' g (if ext then 12 else 4) id) ∧
  -- SLEEP waits until reftime reaches the largest duration among the slices with a participating lane
  (∀ (o : Sleep) (s : State) (uid g : Nat) (c : Crew), s.Issues uid g c (.sleep o) →
    s.CrewTo (exec (.sleep o) s) c fun c' => c' = { c with slices := c'.slices } ∧ ∃ d : Nat,
      (∀ l, c.Takes g o.h.guard l → (c.s32 (l / 4) o.d).toNat ≤ d) ∧
      (d ≠ 0 → ∃ l, c.Takes g o.h.guard l ∧ (c.s32 (l / 4) o.d).toNat = d) ∧
      ∀ (i : Nat) (x x' : Slice), c.slices[i]? = some x → c'.slices[i]? = some x' →
        x' = if c.inGang g i then
          { x with pc := x.pc + BitVec.ofNat 64 (CHdr.bytes o.h),
                   wait := if d = 0 then x.wait else .sleep (s.dieTime (c.core / 32) + d) } else x) ∧
  -- TRAP traps with SOFT and its code unless no lane participates
  (∀ (o : TrapOp) (s : State) (uid g : Nat) (c : Crew), s.Issues uid g c (.trap o) →
    ((∃ l, c.Takes g o.h.guard l) →
      exec (.trap o) s = .next (s.trap c g (CHdr.bytes o.h) 0x0C (BitVec.ofNat 64 o.code.toNat))) ∧
    ((∀ l, ¬c.Takes g o.h.guard l) →
      s.CrewTo (exec (.trap o) s) c fun c' => c.Passed c' g (CHdr.bytes o.h) id)) ∧
  (∀ (o : SetPrio) (s : State) (uid g : Nat) (c : Crew), s.Issues uid g c (.setprio o) →
    s.CrewTo (exec (.setprio o) s) c fun c' =>
      ((∃ l, c.Takes g o.h.guard l) → c.Passed c' g (CHdr.bytes o.h) fun k => { k with urgent := o.v }) ∧
      ((∀ l, ¬c.Takes g o.h.guard l) → c.Passed c' g (CHdr.bytes o.h) id)) ∧
  -- SETSR takes the value of the lowest slice with a participating lane; reserved bits and reserved modes are ignored
  (∀ (o : SetSr) (s : State) (uid g : Nat) (c : Crew), s.Issues uid g c (.setsr o) →
    s.CrewTo (exec (.setsr o) s) c fun c' =>
      (∀ l, c.Takes g o.h.guard l → (∀ k, k / 4 < l / 4 → ¬c.Takes g o.h.guard k) →
        c.Passed c' g (CHdr.bytes o.h) fun k =>
          let w := c.s32 (l / 4) o.b
          match o.r with
          | .emask => { k with emask := w.setWidth 8 }
          | .fflags => { k with fflags := w.setWidth 5 }
          | .frm => if w.toNat % 8 ≤ 4 then { k with frm := w.setWidth 3 } else k) ∧
      ((∀ l, ¬c.Takes g o.h.guard l) → c.Passed c' g (CHdr.bytes o.h) id))

/-! ## Memory (08 R175 to R192; 04 R66, R73, R78; 05 R89 to R95, R100) -/

/-- R66, R73, R177: what the checks let a lane reach exists and is aligned. R39: a failing check stops no lane's effect halfway: the pc passes on, the lowest failing lane is reported, every slice with a participating
lane remembers the fault, and nothing else changes. -/
def Obligations.ChecksReachStorageOrPerformNothing : Prop :=
  (∀ (s : State) (c : Crew) (a : Acc) (lanes : List (Nat × BitVec 64)) (ts : List LaneTo),
     (a.size = 1 ∨ a.size = 2 ∨ a.size = 4 ∨ a.size = 8 ∨ a.size = 16) →
     s.checkLanes c a lanes = .ok ts →
     ts.map (fun t => (t.1, t.2.1)) = lanes ∧ ∀ t ∈ ts, t.2.2.Placed a.size ∧ canonical t.2.1 = true ∧ t.2.1.toNat % a.size = 0 ∧
       (∀ k b, t.2.2 = .scratch k b → ∃ x ∈ s.blocks, x.ctx = c.ctx ∧ x.core = k ∧ x.scrOff ≤ b ∧
         b + a.size ≤ x.scrOff + x.scrSize)) ∧
  ∀ (i : Instr) (s : State) (uid g : Nat) (c : Crew) (m : MemOp), s.Issues uid g c i → accessOf i c g = some m →
    ∀ (lane : Nat) (va : BitVec 64) (cause detail : BitVec 8) (level : Nat),
      (m.rootOnly = true → c.hyp ≠ 0 → m.lanes.head? = some (lane, va) → cause = 0x07 → detail = 0 → level = 0 →
        s.LateAs (exec i s) c g m lane va cause detail level) ∧
      ((m.rootOnly = true → c.hyp = 0) → s.checkLanes c m.acc m.lanes = .bad lane va cause detail level →
        s.LateAs (exec i s) c g m lane va cause detail level ∧ m.lanes.contains (lane, va) = true ∧
        s.checkAddr c m.acc va = .bad cause detail level)

/-- R178, R179, R180: the loads. -/
def Obligations.LoadsReadTheirBytes : Prop :=
  (∀ o : LdS, Loads (.ld8 o) o.h o.d.toNat 1 o.s false) ∧ (∀ o : LdS, Loads (.ld16 o) o.h o.d.toNat 2 o.s false) ∧
  (∀ o : Ld, Loads (.ld32 o) o.h o.d.toNat 4 false false) ∧ (∀ o : Ld, Loads (.ld64 o) o.h o.d.toNat 8 false false) ∧
  (∀ o : Ld, Loads (.ld128 o) o.h o.d.toNat 16 false false) ∧
  (∀ o : LdSz, Loads (.ldna o) o.h o.d.toNat (lsize o.size).1 (lsize o.size).2 true) ∧
  -- LDL reads the block's scratchpad
  (∀ (o : LdSz) (s : State) (uid g : Nat) (c : Crew), s.Issues uid g c (.ldl o) → s.MemOk →
    let n := (lsize o.size).1
    (∀ l, c.Takes g o.h.guard l → (c.ea l o.ea).toNat % n = 0 ∧ (c.ea l o.ea).toNat + n ≤ (s.scratch c).2 ∧
      s.poisonedAt c n (.scratch c.core ((s.scratch c).1 + (c.ea l o.ea).toNat)) = false) →
    ∃ t c', exec (.ldl o) s = .next t ∧ s.OnlyCrew t c c' ∧ t = { s.unhold c.uid g with crews := t.crews } ∧
      c.Went c' g 12 none (fun k => { k with v := c'.v }) ∧
      c.Loaded c' (c.Takes g o.h.guard) o.d.toNat (if n ≤ 4 then 1 else n / 4) fun l ws =>
        ws = loadRule n (lsize o.size).2 (s.readMem (scratchAddr c.core ((s.scratch c).1 + (c.ea l o.ea).toNat)) n))

/-- R178, R180, R85, R90: the stores, at the root. -/
def Obligations.StoresWriteTheirBytes : Prop :=
  (∀ o : St, Stores (.st8 o) 1 o.b) ∧ (∀ o : St, Stores (.st16 o) 2 o.b) ∧ (∀ o : St, Stores (.st32 o) 4 o.b) ∧
  (∀ o : St, Stores (.st64 o) 8 o.b) ∧ (∀ o : St128, Stores (.st128 o) 16 (.reg o.b)) ∧
  -- STL writes the block's scratchpad, under any hypothesis
  (∀ (o : StSz) (s : State) (uid g : Nat) (c : Crew), s.Issues uid g c (.stl o) → s.MemOk →
    let n := ssize o.size
    let at' := fun l => scratchAddr c.core ((s.scratch c).1 + (c.ea l o.ea).toNat)
    (o.rel = true → s.regsPending c.uid = false) →
    (∀ l, c.Takes g o.h.guard l → (c.ea l o.ea).toNat % n = 0 ∧ (c.ea l o.ea).toNat + n ≤ (s.scratch c).2) →
    ∃ t c', exec (.stl o) s = .next t ∧ s.OnlyCrew t c c' ∧
      t = { s.unhold c.uid g with crews := t.crews, mem := t.mem, poison := t.poison, draws := t.draws } ∧ c.Went c' g 12 none id ∧ t.MemOk ∧
      ∀ a, (∃ l, c.Takes g o.h.guard l ∧ at' l ≤ a ∧ a < at' l + n ∧
          t.readMem a 1 = (storeRule c n l (.reg o.b) / 2 ^ (8 * (a - at' l))) % 256) ∨
        ((∀ l, c.Takes g o.h.guard l → ¬(at' l ≤ a ∧ a < at' l + n)) ∧ t.readMem a 1 = s.readMem a 1))

/-- R78, R100, R106, R347, R348, R350: one lane's access to memory that is not plain. UNCACHED goes to DRAM and leaves no copy; a
PHASED store stays in the issuing L1's copy, and of its core's crews only its own reads it; a store under a hypothesis makes a
version, which its crew reads and the root does not; an access to a host window or to another package goes out as a request, and what
it reads is a free value (log 13). -/
def Obligations.OtherMemoryKindsBehave : Prop :=
  -- a load or store of one lane completes as its target's read or write does
  (∀ (o : Ld) (s : State) (uid g : Nat) (c : Crew) (m : MemOp) (l : Nat) (va : BitVec 64) (x : Target) (r : Nat × State),
    s.Issues uid g c (.ld32 o) → accessOf (.ld32 o) c g = some m → s.Ready c m [(l, va, x)] →
    (s.farFault c m [(l, va, x)]).1 = none →
    State.readTo { s with draws := (s.farFault c m [(l, va, x)]).2.draws } c false x 4 = some r →
    ∃ t c', exec (.ld32 o) s = .next t ∧ r.2.OnlyCrew t c c' ∧ t = { r.2.unhold c.uid g with crews := t.crews } ∧
      c.Went c' g 12 none (fun k => { k with v := c'.v }) ∧
      c.Loaded c' (· = l) o.d.toNat 1 fun _ ws => ws = [BitVec.ofNat 32 r.1]) ∧
  (∀ (o : St) (s v : State) (uid g : Nat) (c : Crew) (m : MemOp) (l : Nat) (va : BitVec 64) (x : Target) (w : State),
    s.Issues uid g c (.st32 o) → accessOf (.st32 o) c g = some m → s.Ready c m [(l, va, x)] →
    -- the version of a store under a hypothesis finds its place
    (if c.hyp = 0 then v = s else s.hypRoom c [(l, va, x)] = (none, v)) →
    (State.farFault { s with draws := v.draws } c m [(l, va, x)]).1 = none → v.writeTo c x 4 (storeRule c 4 l o.b) = some w →
    ∃ t c', exec (.st32 o) s = .next t ∧ w.OnlyCrew t c c' ∧ t = { w.unhold c.uid g with crews := t.crews } ∧
      c.Went c' g m.len none id) ∧
  ∀ (s : State) (c : Crew), s.MemOk → ∀ (loc key : Nat) (dom : BitVec 3) (pa n v : Nat), loc % 128 + n ≤ 128 → v < 2 ^ (8 * n) →
    let line := loc / 128
    s.uline? line = none → s.regsOf c.core line = [] →
    -- UNCACHED
    (∀ w, s.writeTo c (.dram loc key 2 dom pa) n v = some w → w.anyPlain line = false ∧
      lineGet (w.dramLine line key) (loc % 128) n = v ∧ ∀ ln k, ln ≠ line → w.homeVal ln k = s.homeVal ln k) ∧
    (∀ r, c.hyp = 0 → s.readTo c false (.dram loc key 2 dom pa) n = some r →
      r.1 = lineGet ((s.flushLine line).dramLine line key) (loc % 128) n ∧ r.2 = s.flushLine line) ∧
    -- PHASED, where the L1 holds the line under this key
    (∀ e w, s.phased? c.core line c.ctx = some e → e.key = key → e.gone = false → s.writeTo c (.dram loc key 1 dom pa) n v = some w →
      (∀ ln k, w.homeVal ln k = s.homeVal ln k) ∧ (∀ k, k ≠ c.core → w.phased? k line c.ctx = s.phased? k line c.ctx) ∧
      ∃ e', w.phased? c.core line c.ctx = some e' ∧ lineGet e'.data (loc % 128) n = v ∧
        (∀ j, j < 128 → (e'.dmask.getLsbD j = true ↔ e.dmask.getLsbD j = true ∨ loc % 128 ≤ j ∧ j < loc % 128 + n)) ∧
        lineGet (e'.viewFor c.uid) (loc % 128) n = v ∧ ∀ k, k ≠ c.uid → e'.viewFor k = e.viewFor k) ∧
    (∀ e r, s.phased? c.core line c.ctx = some e → e.key = key → e.gone = false → c.hyp = 0 →
      s.readTo c false (.dram loc key 1 dom pa) n = some r → r = (lineGet (e.viewFor c.uid) (loc % 128) n, s)) ∧
    -- versions
    (∀ w, c.hyp ≠ 0 → (∀ e ∈ s.caches, e.line = line → e.hyp = c.hyp → e.ctx = c.ctx → some e = s.version? c.ctx line c.hyp) →
      s.writeTo c (.dram loc key 0 dom pa) n v = some w →
      (∀ ln k, w.homeVal ln k = s.homeVal ln k) ∧ (∀ ln h, (ln ≠ line ∨ h ≠ c.hyp) → w.version? c.ctx ln h = s.version? c.ctx ln h) ∧
      ∃ e, w.version? c.ctx line c.hyp = some e ∧ e.place = .l1 c.core ∧ lineGet e.data (loc % 128) n = v ∧
        (∀ j, j < 128 → (e.dmask.getLsbD j = true ↔
          (∃ old, s.version? c.ctx line c.hyp = some old ∧ old.dmask.getLsbD j = true) ∨ loc % 128 ≤ j ∧ j < loc % 128 + n))) ∧
    -- another package, and the host
    (∀ node p' w, s.peerOf node = none → 0 < n → s.writeTo c (.rmt node p') n v = some w →
      w = { s with sent := w.sent, pathKeys := w.pathKeys } ∧
      ∃ nonce, w.sent = s.sent ++ [.scafa 0 node (BitVec.ofNat 64 p') (.write (toBytes n v)) nonce]) ∧
    (∀ node p' r, s.peerOf node = none → s.readTo c false (.rmt node p') n = some r →
      r.1 = (Config.freeWord s.draws).toNat % 2 ^ (8 * n) ∧
      r.2 = { s with draws := s.draws + 1, sent := r.2.sent, pathKeys := r.2.pathKeys } ∧
      ∃ nonce, r.2.sent = s.sent ++ [.scafa 0 node (BitVec.ofNat 64 p') (.read n) nonce]) ∧
    (∀ win off, let h := s.hwin c.ctx win
      let addr := h.hbase ++ (0 : BitVec 12) + BitVec.ofNat 64 off
      0 < n → n ≤ 64 →
      s.writeTo c (.host win off) n v = some { s with sent := s.sent ++ [.hostWrite addr (toBytes n v) h.ns] } ∧
      s.readTo c false (.host win off) n = some ((Config.freeWord s.draws).toNat % 2 ^ (8 * n),
        { s with draws := s.draws + 1, sent := s.sent ++ [.hostRead addr n h.ns] }) ∧
      ∀ q, s.rmwAt c (.host win off) q = some ((Config.freeWord s.draws).toNat % 2 ^ (8 * rmwBytes q),
        { s with draws := s.draws + 1, sent := s.sent ++ [.hostAtomic addr q h.ns] }))

/-- R186, R187, R189: atomics and compare-and-swap on COHERENT memory and scratchpads. -/
def Obligations.AtomicsApplyOneAtATime : Prop :=
  (∀ o : Atom, Applies (.atom o) o.h (atomBytes o.op) (some o.d.toNat) fun c l old =>
    some (atomRule o.op old (storeRule c (atomBytes o.op) l o.b))) ∧
  (∀ o : Red, Applies (.red o) o.h (atomBytes o.op) none fun c l old =>
    some (atomRule o.op old (storeRule c (atomBytes o.op) l o.b))) ∧
  (∀ o : Cas, Applies (.cas o) o.h (if o.w64 then 8 else 4) (some o.d.toNat) fun c l old =>
    let n := if o.w64 then 8 else 4
    if old = storeRule c n l (.reg o.c) then some (storeRule c n l o.b) else none) ∧
  (∀ o : CasGt, Applies (.casgt o) o.h (if o.w64 then 8 else 4) (some o.d.toNat) fun c l old =>
    let n := if o.w64 then 8 else 4
    let b := storeRule c n l o.b
    if (BitVec.ofNat (8 * n) old).toInt < (BitVec.ofNat (8 * n) b).toInt then some b else none) ∧
  (∀ o : CasR, Applies (.casv o) o.h 8 (some o.d.toNat) fun c l old =>
    if old % 2 ^ 16 = (c.vget l o.c.toNat).toNat % 2 ^ 16
    then some (storeRule c 8 l (.reg o.b) / 2 ^ 16 * 2 ^ 16 + (old + 1) % 2 ^ 16) else none) ∧
  (∀ o : CasR, Applies (.caspt o) o.h 8 (some o.d.toNat) fun c l old =>
    if old % 2 ^ 48 = storeRule c 8 l (.reg o.c) % 2 ^ 48
    then some ((old / 2 ^ 48 + 1) % 2 ^ 16 * 2 ^ 48 + storeRule c 8 l (.reg o.b) % 2 ^ 48) else none) ∧
  (∀ o : CasR, Applies (.cas128 o) o.h 16 (some o.d.toNat) fun c l old =>
    if old = storeRule c 16 l (.reg o.c) then some (storeRule c 16 l (.reg o.b)) else none)

/-- R188, R190, R191: REDM leaves its line without a copy and asks the cellar die; updates fold into the issuing L1's copy. -/
def Obligations.RedmAndUpdatesTravel : Prop :=
  (∀ (o : Redm) (s : State) (uid g : Nat) (c : Crew) (m : MemOp) (ts : List LaneTo), s.Issues uid g c (.redm o) →
    accessOf (.redm o) c g = some m → s.Ready c m ts → (∀ t ∈ ts, ∃ r, t.2.2.line? = some r) →
    ∃ t c', exec (.redm o) s = .next t ∧ s.OnlyCrew t c c' ∧
      t = { s.unhold c.uid g with crews := t.crews, caches := t.caches, mem := t.mem, lineKey := t.lineKey, poison := t.poison,
                                  atomq := t.atomq, nextId := s.nextId + 1 } ∧
      (∀ line, ¬ReachLine ts line → t.storeBad line = s.storeBad line) ∧ c.Went c' g m.len (some s.nextId) id ∧ t.MemOk ∧
      t.atomq = s.atomq ++ ts.filterMap (fun x => match x.2.2 with
        | .dram loc key _ _ _ => some
          { loc := loc, key := key, ctx := c.ctx, run := c.run, op := o.op,
            b := BitVec.ofNat 64 (storeRule c (atomBytes o.op) x.1 o.b), src := .crew c.uid g, epoch := s.epochOf c.ctx,
            lane := x.1, va := x.2.1, pc := c.gangPc g }
        | .scratch _ _ | .mail _ _ | .host _ _ | .rmt _ _ => none) ∧
      (∀ line, ReachLine ts line → t.anyPlain line = false ∧ ∀ e, s.dirtyOf line = some e → t.dramLine line e.key = e.data) ∧
      (∀ line key, ¬ReachLine ts line → t.homeVal line key = s.homeVal line key) ∧
      ∀ a, ¬ReachLine ts (a / 128) → t.readMem a 1 = s.readMem a 1) ∧
  (∀ o : Upd, Updates (.uadd32 o) .uadd32 fun c l => storeRule c 4 l (.reg o.b)) ∧
  (∀ o : Upd, Updates (.uadd64 o) .uadd64 fun c l => storeRule c 8 l (.reg o.b)) ∧
  (∀ o : Upd, Updates (.umins o) .umins fun c l => storeRule c 4 l (.reg o.b)) ∧
  (∀ o : Upd, Updates (.umaxs o) .umaxs fun c l => storeRule c 4 l (.reg o.b)) ∧
  (∀ o : Upd, Updates (.uminu o) .uminu fun c l => storeRule c 4 l (.reg o.b)) ∧
  (∀ o : Upd, Updates (.umaxu o) .umaxu fun c l => storeRule c 4 l (.reg o.b)) ∧
  (∀ o : Upd, Updates (.uminf o) .uminf fun c l => storeRule c 4 l (.reg o.b)) ∧
  (∀ o : Upd, Updates (.umaxf o) .umaxf fun c l => storeRule c 4 l (.reg o.b)) ∧
  (∀ o : Upd, Updates (.uor64 o) .uor64 fun c l => storeRule c 8 l (.reg o.b)) ∧
  (∀ o : Uacc, Updates (.uacc o) .uacc fun c l =>
    (if o.h1 then (c.vget l o.b.toNat).toNat / 2 ^ 16 else (c.vget l o.b.toNat).toNat % 2 ^ 16) * 2 ^ 16)

/-- R95, R96, R192: USNAP gives each lane its element of the line's value, collapsed if the line is in U, and leaves the line in U
under its operator, with identities and no copies. -/
def Obligations.UsnapSnapsAndClears : Prop :=
  ∀ (o : Usnap) (s : State) (uid g : Nat) (c : Crew) (m : MemOp) (ts : List LaneTo), s.Issues uid g c (.usnap o) →
    accessOf (.usnap o) c g = some m → s.MemOk → c.hyp = 0 → s.checkLanes c m.acc m.lanes = .ok ts →
    c.watchHit true true m.acc.size m.lanes = none → (∀ t ∈ ts, s.poisonedAt c (uBytes o.op) t.2.2 = false) →
    (∀ t ∈ ts, t.2.2.Placed (uBytes o.op)) → s.regsPending c.uid = false →
    (∀ t ∈ ts, ∃ line key, t.2.2.line? = some (line, key) ∧ ReachOnly ts line key ∧ s.regsOf c.core line = [] ∧
      ∀ u, s.uline? line = some u → u.ready = true ∧ u.key = key) →
    let before := fun line key => match s.uline? line with
      | some u => s.collapseVal u
      | none => s.homeVal line key
    ∃ t c', exec (.usnap o) s = .next t ∧ s.OnlyCrew t c c' ∧
      t = { s.unhold c.uid g with crews := t.crews, caches := t.caches, mem := t.mem, lineKey := t.lineKey, poison := t.poison,
                                  ulines := t.ulines, recalls := t.recalls, nextId := s.nextId + 1 } ∧
      c.Went c' g 12 (some s.nextId) (fun k => { k with v := c'.v }) ∧
      c.Loaded c' (c.Takes g o.h.guard) o.d.toNat (uBytes o.op / 4) (fun l ws =>
        ∃ va loc key kind dom pa, (l, va, Target.dram loc key kind dom pa) ∈ ts ∧
          ws = loadRule (uBytes o.op) false (lineGet (before (loc / 128) key) (loc % 128) (uBytes o.op))) ∧
      (∀ line key, ReachLine ts line → ReachOnly ts line key → t.anyPlain line = false ∧ t.uline? line = some
        { line := line, op := o.op, home := uIdentLine o.op, dirty := true, key := key, l1s := [], nodes := [], groups := [],
          back := [] }) ∧
      (∀ line, ¬ReachLine ts line → t.uline? line = s.uline? line) ∧
      (∀ line key, ¬ReachLine ts line → t.homeVal line key = s.homeVal line key) ∧
      ∀ a, ¬ReachLine ts (a / 128) → t.readMem a 1 = s.readMem a 1

/-- R182 to R185, R117: prefetch moves copies only; range instructions act line by line; a fence waits only for what it names. -/
def Obligations.PrefetchRangesAndFences : Prop :=
  (∀ (o : Pref) (s : State) (uid g : Nat) (c : Crew), s.Issues uid g c (.pref o) → s.MemOk →
    ∃ t c', exec (.pref o) s = .next t ∧ s.OnlyCrew t c c' ∧
      t = { s.unhold c.uid g with crews := t.crews, caches := t.caches, mem := t.mem, lineKey := t.lineKey, poison := t.poison } ∧
      c.Went c' g 12 none id ∧ t.MemOk ∧
      -- for one lane: every committed value is as it was, if the L1 has no PHASED bytes of the line to give up
      ∀ l va, c.eas g o.h o.ea = [(l, va)] → ∀ line key,
        (∀ loc k kind dom pa, s.checkAddr c ⟨1, false, .load, true⟩ va = .ok (.dram loc k kind dom pa) → loc / 128 = line →
          k = key ∧ ∀ e ∈ s.caches, e.line = line → e.ph = true → e.place = .l1 c.core → e.gone = false → e.dmask = 0) →
        t.homeVal line key = s.homeVal line key) ∧
  (∀ (i : Instr) (o : Range) (op : RangeOp),
    ((i = .cleanr o ∧ op = .clean) ∨ (i = .invr o ∧ op = .inv) ∨ (i = .uflush o ∧ op = .uflush)) →
    ∀ (s : State) (uid g : Nat) (c : Crew), s.Issues uid g c i → s.MemOk →
      let base := fun l => c.rget64 o.u l o.a.toNat
      let lines := (c.parts g o.h.guard).flatMap fun l => linesMet (base l) o.len.toNat
      (o.len = 0 → ∃ t c', exec i s = .next t ∧ s.OnlyCrew t c c' ∧ t = { s.unhold c.uid g with crews := t.crews } ∧
        c.Went c' g 12 none id) ∧
      (o.len ≠ 0 → (∀ l, c.Takes g o.h.guard l → s.checkRange c (base l) o.len.toNat = none) →
        (∃ m, s.rangeLanes c op lines = some m) →
        ∃ m t c', Chain (State.RangeStep c op) s lines m ∧ exec i s = .next t ∧ m.OnlyCrew t c c' ∧
          t = { m.unhold c.uid g with crews := t.crews } ∧ c.Went c' g 12 none id) ∧
      -- a range that wraps or is not canonical stops the lowest such lane with PROT at its base
      (o.len ≠ 0 → ∀ l, c.Leads g o.h.guard l → 2 ^ 64 ≤ (base l).toNat + o.len.toNat - 1 ∨ canonical (base l) = false →
        ∃ t c', exec i s = .next t ∧ s.OnlyCrew t c c' ∧ t = { s.unhold c.uid g with crews := t.crews } ∧
          c'.late = some (c.late.getD { cause := 0x05, late := true, lane := BitVec.ofNat 5 l, detail := 0, level := 0,
                                        epc := c.gangPc g, val := base l }))) ∧
  (∀ (o : Fence) (s : State) (uid g : Nat) (c : Crew), s.Issues uid g c (.fence o) →
    let releases := o.ord = .rel ∨ o.ord = .ar ∨ o.ord = .sc ∨ (o.ord = .dflt ∧ o.rm = false)
    let holds := (releases ∧ ∃ r ∈ s.regs, r.crew = c.uid ∨ ∃ q ∈ r.more, q.1 = c.uid) ∨
      (o.rm = true ∧ ∃ r ∈ s.atomq, ∃ k, r.src = .crew c.uid k)
    ((∃ l, c.Takes g o.h.guard l) → holds → exec (.fence o) s = .next s) ∧
    ((∀ l, ¬c.Takes g o.h.guard l) ∨ ¬holds →
      ∃ t c', exec (.fence o) s = .next t ∧ s.OnlyCrew t c c' ∧ t = { s.unhold c.uid g with crews := t.crews } ∧
        c.Went c' g 12 none id))

/-! ## Barriers, phases, mailboxes and events (08 R193 to R205; 05 R107, R109 to R112) -/

/-- R193 to R197, R111: the barrier instructions. -/
def Obligations.BarriersCountAndWait : Prop :=
  -- a gang without a participating lane does nothing (BARARR starts its region)
  (∀ (i : Instr) (h : XHdr) (tag : State → Option Nat),
    ((∃ o : BarB, (i = .barinit o ∨ i = .barexp o ∨ i = .barwait o) ∧ h = o.h ∧ tag = fun _ => none) ∨
     (∃ o : BarArr, i = .bararr o ∧ h = o.h ∧ tag = fun s => some s.nextId)) →
    ∀ (s : State) (uid g : Nat) (c : Crew), s.Issues uid g c i → (∀ l, ¬c.Takes g h.guard l) →
      ∃ t c', exec i s = .next t ∧ s.OnlyCrew t c c' ∧ t = { s.unhold c.uid g with crews := t.crews, nextId := t.nextId } ∧
        c.Went c' g 12 (tag s) id) ∧
  -- BARINIT: the quota, and whatever credits were held at the object
  (∀ (o : BarB) (s : State) (uid g : Nat) (c : Crew) (l : Nat), s.Issues uid g c (.barinit o) → c.Leads g o.h.guard l →
    let q := (c.sget (l / 4) o.b.toNat).toNat
    (q = 0 ∨ 0xFFFF < q → exec (.barinit o) s = .next (s.trap c g 12 0x11 0)) ∧
    (q ≠ 0 → q ≤ 0xFFFF → ∀ x pend arrv quota par, s.BarAt c (c.sea (l / 4) o.a o.off) true x pend arrv quota par →
      let here := fun (k : Credit) => k.ctx == c.ctx && s.placeNow k.place == s.placeNow (barPlace x)
      ∃ t c', exec (.barinit o) s = .next t ∧ s.OnlyPends t c c' ∧ s.BarStep t c g x ∧ t.nextId = s.nextId ∧ t.draws = s.draws ∧
        t.credits = s.credits.filter (fun k => !here k) ∧
        c.Went c' g 12 none (fun k => { k with pend := c'.pend }) ∧
        ∀ k, t.BarIs k x (BitVec.ofInt 64 (-((((s.credits.filter here).map (·.bytes)).sum : Nat) : Int))) q q false)) ∧
  -- BARARR: sD gets PAR before the step; a phase with nothing missing completes
  (∀ (o : BarArr) (s : State) (uid g : Nat) (c : Crew) (l : Nat), s.Issues uid g c (.bararr o) → c.Leads g o.h.guard l →
    let n := match o.n with
      | some r => (c.sget (l / 4) r.toNat).toNat
      | none => 1
    (0xFFFF < n → exec (.bararr o) s = .next (s.trap c g 12 0x11 0)) ∧
    (n ≤ 0xFFFF → (o.ord ≠ .rlx → s.regsPending c.uid = false) → ∀ x pend arrv quota par,
      s.BarAt c (c.sea (l / 4) o.a o.off) true x pend arrv quota par →
      (quota ≠ 0 → ∃ t c', exec (.bararr o) s = .next t ∧ s.OnlyPends t c c' ∧ s.BarStep t c g x ∧ t.nextId = s.nextId + 1 ∧
        t.credits = s.credits ∧
        c.SetsScalar c' g 12 o.d.toNat (some s.nextId) (if par then 1 else 0) (fun k => { k with pend := c'.pend }) ∧
        s.BarLeaves t x pend arrv quota par (if arrv - n = arrv then (pend, arrv, par) else barRule pend (arrv - n) quota par)) ∧
      -- at an object whose QUOTA is 0 the gang waits
      (quota = 0 → (∀ r ∈ s.recalls, r.expired = false) → exec (.bararr o) s = .next s))) ∧
  -- BAREXP: its pair joins PEND
  (∀ (o : BarB) (s : State) (uid g : Nat) (c : Crew) (l : Nat), s.Issues uid g c (.barexp o) → c.Leads g o.h.guard l →
    ∀ x pend arrv quota par, s.BarAt c (c.sea (l / 4) o.a o.off) true x pend arrv quota par → quota ≠ 0 →
      ∃ t c', exec (.barexp o) s = .next t ∧ s.OnlyPends t c c' ∧ s.BarStep t c g x ∧ t.nextId = s.nextId ∧ t.credits = s.credits ∧
        c.Went c' g 12 none (fun k => { k with pend := c'.pend }) ∧
        s.BarLeaves t x pend arrv quota par (barRule (pend + c.sget64 (l / 4) o.b.toNat) arrv quota par)) ∧
  -- BARWAIT passes when PAR differs from sB[0], else the gang waits at the object
  (∀ (o : BarB) (s : State) (uid g : Nat) (c : Crew) (l : Nat), s.Issues uid g c (.barwait o) → c.Leads g o.h.guard l →
    let va := c.sea (l / 4) o.a o.off
    let want := (c.sget (l / 4) o.b.toNat).getLsbD 0
    ∀ x pend arrv quota par, s.BarAt c va false x pend arrv quota par →
      ∃ t c', exec (.barwait o) s = .next t ∧ s.OnlyCrew t c c' ∧
        t = { s.unhold c.uid g with crews := t.crews, caches := t.caches, mem := t.mem, lineKey := t.lineKey, poison := t.poison } ∧
        (∀ line key, (∀ k, x.line? = some (line, k) → k = key) → t.homeVal line key = s.homeVal line key) ∧
        c' = { c with slices := c'.slices } ∧ c'.slices.length = c.slices.length ∧
        ∀ (i : Nat) (y y' : Slice), c.slices[i]? = some y → c'.slices[i]? = some y' →
          y' = if !c.inGang g i then y else if par ≠ want then { y with pc := y.pc + 12, wait := .none }
            else { y with wait := .barwait va want l }) ∧
  -- a waiting gang reads the object again, and a check that fails ends the wait with its fault
  (∀ (s : State) (o : CrewGang) (c : Crew) (y : Slice) (va : BitVec 64) (want : Bool) (x : Target) (pend : BitVec 64)
      (arrv quota : Nat) (par : Bool) (l : Nat), s.crew? o.crew = some c → c.preempted = false → c.saved = false → c.faulted = none →
    c.orphan = none → c.slices[o.gang]? = some y → y.wait = .barwait va want l →
    (s.BarAt c va false x pend arrv quota par → ∃ t c', exec (.barwaitResume o) s = .next t ∧ s.OnlyCrew t c c' ∧
      t = { s.unhold c.uid o.gang with crews := t.crews, caches := t.caches, mem := t.mem, lineKey := t.lineKey,
                                       poison := t.poison } ∧
      c' = { c with slices := c'.slices } ∧ c'.slices.length = c.slices.length ∧
      ∀ (i : Nat) (z z' : Slice), c.slices[i]? = some z → c'.slices[i]? = some z' →
        z' = if !c.inGang o.gang i then z else if par ≠ want then { z with wait := .none, pc := z.pc + 12 }
          else { z with wait := .barwait va want l }) ∧
    ∀ k d v, s.checkAddr c ⟨16, false, .barrier, false⟩ va = .bad k d v → ∃ t c', exec (.barwaitResume o) s = .next t ∧
      s.OnlyCrew t c c' ∧ t = { s.unhold c.uid o.gang with crews := t.crews } ∧
      c'.late = some (c.late.getD { cause := k, late := true, lane := BitVec.ofNat 5 l, detail := d, level := BitVec.ofNat 3 v,
                                    epc := c.gangPc o.gang, val := va }) ∧
      ∀ (i : Nat) (z' : Slice), c.inGang o.gang i = true → c'.slices[i]? = some z' → z'.wait = .none)

/-- R107, R199: PHASE arrives and waits; the arrival that completes the quota advances the domain, and every gang that waits in it
goes on with the new count, none of the domain's PHASED lines left. -/
def Obligations.PhasesAdvanceTogether : Prop :=
  ∀ (o : PhaseOp) (s : State) (uid g : Nat) (c : Crew) (x : Ctx), s.Issues uid g c (.phase o) → s.ctx? c.ctx = some x →
    ((∀ l, ¬c.Takes g o.h.guard l) → ∃ t c', exec (.phase o) s = .next t ∧ s.OnlyCrew t c c' ∧
      t = { s.unhold c.uid g with crews := t.crews } ∧ c.Went c' g 12 none id) ∧
    ((∃ l, c.Takes g o.h.guard l) → s.regsPending c.uid = false →
      let p := x.phase o.dom
      (p.quota = 0 → ∃ t c', exec (.phase o) s = .next t ∧ s.OnlyCrew t c c' ∧ t = { s.unhold c.uid g with crews := t.crews } ∧
        c.SetsScalar c' g 12 o.d.toNat none p.count id) ∧
      (p.arrived.toNat + 1 < p.quota.toNat → ∃ t c' x', exec (.phase o) s = .next t ∧ s.OnlyCrew t c c' ∧
        t = { s with crews := t.crews, ctxs := t.ctxs } ∧ c' = { c with slices := c'.slices } ∧
        (∀ (i : Nat) (y y' : Slice), c.slices[i]? = some y → c'.slices[i]? = some y' →
          y' = if c.inGang g i then { y with wait := .phase o.dom.toNat p.count o.d.toNat } else y) ∧
        t.ctx? c.ctx = some x' ∧ x' = { x with phases := x'.phases } ∧
        ∀ k, x'.phase k = if k = o.dom then { p with arrived := p.arrived + 1 } else x.phase k) ∧
      (p.quota ≠ 0 → p.quota.toNat ≤ p.arrived.toNat + 1 → ∃ t x', exec (.phase o) s = .next t ∧
        t = { s with crews := t.crews, ctxs := t.ctxs, caches := t.caches, mem := t.mem, lineKey := t.lineKey, poison := t.poison,
                     ulines := t.ulines, press := t.press, recalls := t.recalls } ∧
        t.ctx? c.ctx = some x' ∧ x' = { x with phases := x'.phases } ∧
        (∀ k, x'.phase k = if k = o.dom then { quota := p.next, next := p.next, arrived := 0, count := p.count + 1 }
          else x.phase k) ∧
        (∀ e ∈ t.caches, ¬(e.ph = true ∧ e.ctx = c.ctx ∧ e.dom = o.dom)) ∧
        ∀ (j : Nat) (k : Crew), s.crews[j]? = some k → ∃ k', t.crews[j]? = some k' ∧ (k.ctx ≠ c.ctx → k.uid ≠ c.uid → k' = k) ∧
          (k.ctx = c.ctx → k.frame = none → k' = { k with slices := k'.slices } ∧
            ∀ (i : Nat) (y y' : Slice), k.slices[i]? = some y → k'.slices[i]? = some y' →
              match (if k.uid = c.uid ∧ k.inGang g i then Wait.phase o.dom.toNat p.count o.d.toNat else y.wait) with
              | .phase dm _ r =>
                if dm = o.dom.toNat then
                  y' = { y with pc := y.pc + 12, wait := .none, s := y'.s } ∧ y'.sget r = p.count + 1 ∧
                  ∀ n, n ≠ r → y'.sget n = y.sget n
                else y' = y
              | .none | .regang _ | .barwait _ _ _ | .waitany _ | .sleep _ => y' = y)))

/-- R200: MSEND sends a message per lane in ascending order and leaves its answer registers pending; a delivery takes effect at the
slot and answers. -/
def Obligations.MessagesAreSentAndAnswered : Prop :=
  (∀ (o : Msend) (s : State) (uid g : Nat) (c : Crew) (m : MemOp) (ts : List LaneTo), s.Issues uid g c (.msend o) →
    accessOf (.msend o) c g = some m → s.checkLanes c m.acc m.lanes = .ok ts → c.watchHit false true 8 m.lanes = none →
    (o.rel = true → s.regsPending c.uid = false) →
    ∃ t c', exec (.msend o) s = .next t ∧ s.OnlyCrew t c c' ∧
      let op := s.nextId
      let tag := if ts = [] then s.nextId else s.nextId + 1
      t = { s.unhold c.uid g with crews := t.crews, mails := t.mails, nextId := tag + 1 } ∧
      t.mails = s.mails ++ ts.filterMap (fun x => match x.2.2 with
        | .mail k slot => some { op := op, crew := c.uid, gang := g, mates := c.gangSlices g, slice := x.1 / 4, lane := x.1, reg := o.d.toNat, core := k,
                                 slot := slot, msg := c.rget64 false x.1 o.b.toNat, ctx := c.ctx, epoch := s.epochOf c.ctx }
        | .dram _ _ _ _ _ | .scratch _ _ | .host _ _ | .rmt _ _ => none) ∧
      (∀ x ∈ ts, ∃ k slot, x.2.2 = .mail k slot) ∧
      c' = { c with slices := c'.slices } ∧ c'.slices.length = c.slices.length ∧
      ∀ (i : Nat) (y y' : Slice), c.slices[i]? = some y → c'.slices[i]? = some y' →
        y' = { (if c.inGang g i then y.past 12 (some tag) else y) with vpend := y'.vpend } ∧
        (∀ l, c.Takes g o.h.guard l → l / 4 = i → mfind y'.vpend (l * 128 + o.d.toNat) = some op) ∧
        ∀ k, (∀ l, c.Takes g o.h.guard l → l / 4 = i → k ≠ l * 128 + o.d.toNat) → mfind y'.vpend k = mfind y.vpend k) ∧
  -- a delivery: DONE, FULL or REFUSED
  (∀ (s : State) (idx : Nat) (m : Mail) (c : Crew) (y : Slice), s.mails[idx]? = some m → mailBlocked m (s.mails.take idx) = false →
    s.crew? m.crew = some c → c.slices[m.lane / 4]? = some y → y.drops = [] → m.reg < 128 →
    mfind y.vpend (m.lane * 128 + m.reg) = some m.op →
    let q := mget [] (s.core m.core).mail m.slot
    let holds := ∃ b ∈ s.blocks, b.core = m.core ∧ b.ctx = m.ctx ∧ b.saved = false
    ∃ (t : State) (c' : Crew), exec (.mailboxDelivery idx) s = .next t ∧ t.crew? m.crew = some c' ∧
      t = { s with crews := t.crews, cores := t.cores, mails := s.mails.eraseIdx idx } ∧
      c'.vget m.lane m.reg = (if ¬holds then 4 else if 4 ≤ q.length then 6 else 0) ∧
      (∀ l n, n < 128 → l ≠ m.lane ∨ n ≠ m.reg → c'.vget l n = c.vget l n) ∧
      (∀ y', c'.slices[m.lane / 4]? = some y' → mfind y'.vpend (m.lane * 128 + m.reg) = none) ∧
      (∀ k, k ≠ m.core → t.core k = s.core k) ∧ (holds → q.length < 4 →
        mget [] (t.core m.core).mail m.slot = q ++ [m.msg] ∧
        -- slots bound to the mailbox latch
        ∀ (j : Nat) (k k' : Crew), s.crews[j]? = some k → t.crews[j]? = some k' → k.core = m.core → k.saved = false →
          ∀ (e : Nat) (v : EvSlot), e < 8 → k.slots[e]? = some v → v.bound = true → v.kind = 2 → v.obj.toNat = m.slot →
            k'.pend.getLsbD e = true) ∧
      (¬(holds ∧ q.length < 4) → t.cores = s.cores))

/-- R201 to R205: EVSET arms a slot and samples its condition, EVCLR clears it, WAITANY and its resume take the lowest event. -/
def Obligations.EventsLatchAndAreTaken : Prop :=
  (∀ (o : Evset) (s : State) (uid g : Nat) (c : Crew), s.Issues uid g c (.evset o) →
    ((∀ l, ¬c.Takes g o.h.guard l) → ∃ t c', exec (.evset o) s = .next t ∧ s.OnlyCrew t c c' ∧
      t = { s.unhold c.uid g with crews := t.crews } ∧ c.Went c' g 12 none id) ∧
    ∀ l, c.Leads g o.h.guard l →
      let i := l / 4
      let obj : BitVec 64 := match o.kind with
        | .bar _ | .timer => c.sget64 i o.a.toNat
        | .stat => o.a.setWidth 64
        | .mbox => (c.sget i o.a.toNat).setWidth 64
        | .hyp => BitVec.ofNat 64 ((c.sget i o.a.toNat).toNat % 2 ^ 8)
      let armed := fun (t : State) (kind : BitVec 3) (parity on : Bool) (place : Nat) => ∃ c', s.OnlyCrew t c c' ∧
        t = { s.unhold c.uid g with crews := t.crews } ∧
        c.Went c' g 12 none (fun k => { k with slots := c'.slots, pend := c'.pend }) ∧
        (∀ j, c'.slots[j]? = if j = o.e.toNat then (c.slots[j]?).map (fun _ =>
            { bound := true, kind := kind, obj := obj, parity := parity, handler := c.gangPc g + o.off.signExtend 64,
              place := place })
          else c.slots[j]?) ∧
        ∀ j, c'.pend.getLsbD j = if j = o.e.toNat then on else c.pend.getLsbD j
      match o.kind with
      | .bar b => ∀ x v, s.checkAddr c ⟨16, false, .barrier, false⟩ obj = .ok x → s.poisonedAt c.atRoot 16 x = false →
          -- reading the object moves no copy of it
          s.readTo c.atRoot false x 16 = some (v, s) →
          ∃ t, exec (.evset o) s = .next t ∧
            armed t 0 ((c.sget i b.toNat).getLsbD 0) (v.testBit 96 != (c.sget i b.toNat).getLsbD 0) (barPlace x)
      | .mbox => (63 < obj.toNat → exec (.evset o) s = .next (s.trap c g 12 0x11 0)) ∧
          (obj.toNat ≤ 63 → ∃ t on, exec (.evset o) s = .next t ∧ armed t 2 false on 0 ∧
            (on = true ↔ s.EventTrue c o.kind o.a obj))
      | .stat => ∃ t on, exec (.evset o) s = .next t ∧ armed t 1 false on 0 ∧ (on = true ↔ s.EventTrue c o.kind o.a obj)
      | .hyp => ∃ t on, exec (.evset o) s = .next t ∧ armed t 3 false on 0 ∧ (on = true ↔ s.EventTrue c o.kind o.a obj)
      | .timer => ∃ t on, exec (.evset o) s = .next t ∧ armed t 4 false on 0 ∧ (on = true ↔ s.EventTrue c o.kind o.a obj)) ∧
  (∀ (o : Evclr) (s : State) (uid g : Nat) (c : Crew), s.Issues uid g c (.evclr o) →
    ∃ t c', exec (.evclr o) s = .next t ∧ s.OnlyCrew t c c' ∧ t = { s.unhold c.uid g with crews := t.crews } ∧
      ((∀ l, ¬c.Takes g o.h.guard l) → c.Went c' g 12 none id) ∧
      ((∃ l, c.Takes g o.h.guard l) → c.Went c' g 12 none (fun k => { k with slots := c'.slots, pend := c'.pend }) ∧
        (∀ j, c'.slots[j]? = if j = o.e.toNat then (c.slots[j]?).map (fun v => { v with bound := false }) else c.slots[j]?) ∧
        ∀ j, c'.pend.getLsbD j = (c.pend.getLsbD j && j != o.e.toNat))) ∧
  (∀ (o : Waitany) (s : State) (uid g : Nat) (c : Crew), s.Issues uid g c (.waitany o) →
    ((∃ (i : Nat) (x : Slice), c.slices[i]? = some x ∧ x.live = true ∧ x.gang ≠ g) →
      exec (.waitany o) s = .next (s.trap c g 12 0x06 0)) ∧
    ((∀ (i : Nat) (x : Slice), c.slices[i]? = some x → x.live = true → x.gang = g) → ∀ live : BitVec 8,
      (∀ j, j < 8 → (live.getLsbD j = true ↔
        o.list.getLsbD j = true ∧ (∃ v, c.slots[j]? = some v ∧ v.bound = true) ∧ c.emask.getLsbD j = false)) →
      (live = 0 → ∃ t c', exec (.waitany o) s = .next t ∧ s.OnlyCrew t c c' ∧ t = { s.unhold c.uid g with crews := t.crews } ∧
        c.Went c' g 12 none (fun k => { k with evwhich := 0xFFFFFFFF })) ∧
      (∀ e, e < 8 → s.Takable c live e → (∀ j, j < e → ¬s.Takable c live j) → s.Sound c e →
        ∃ t, exec (.waitany o) s = .next t ∧ s.TakesEvent t c live e) ∧
      (live ≠ 0 → (∀ e, e < 8 → ¬s.Takable c live e) → ∃ t c', exec (.waitany o) s = .next t ∧ s.OnlyCrew t c c' ∧
        t = { s with crews := t.crews } ∧ c' = { c with slices := c'.slices, pend := c'.pend } ∧
        ∀ (i : Nat) (x x' : Slice), c.slices[i]? = some x → c'.slices[i]? = some x' →
          x' = if x.live then { x with wait := .waitany live } else x))) ∧
  (∀ (s : State) (o : CrewRef) (c : Crew) (g : Nat) (live : BitVec 8) (e : Nat), s.crew? o.crew = some c → c.preempted = false →
    c.saved = false → c.faulted = none → c.orphan = none → c.inGang g g = true →
    (∀ (i : Nat) (x : Slice), c.slices[i]? = some x → x.live = true → x.gang = g ∧ x.wait = .waitany live) →
    (∀ j, live.getLsbD j = true → (c.slots[j]?).isSome = true) → e < 8 → s.Takable c live e → (∀ j, j < e → ¬s.Takable c live j) →
    (s.Sound c e → ∃ t, exec (.waitanyResume o) s = .next t ∧ s.TakesEvent t c live e) ∧
    -- a message with an uncorrectable error comes with a late ECC
    (¬s.Sound c e → ∃ t c', exec (.waitanyResume o) s = .next t ∧ t.crew? c.uid = some c' ∧ c'.evwhich = BitVec.ofNat 32 e ∧
      ∃ w, c'.late = some (c.late.getD w) ∧ w.cause = 0x0D ∧ w.late = true))

/-! ## Hypotheses (08 R206 to R211; 05 R100 to R104) -/

/-- R206 to R209: allocation, entry, query and resolution of hypotheses. How long an id stays RESOLVING, and when an answer comes, is
the hardware's choice (log 81): the table goes on in steps of its own. -/
def Obligations.HypothesesBranchAndResolve : Prop :=
  (∀ (o : HypDA) (s : State) (uid g : Nat) (c : Crew) (x : Ctx) (l : Nat), s.Issues uid g c (.hypqry o) → s.ctx? c.ctx = some x →
    c.Leads g o.h.guard l → ∃ t c', exec (.hypqry o) s = .next t ∧ s.OnlyCrew t c c' ∧ t = { s.unhold c.uid g with crews := t.crews } ∧
      c.SetsScalar c' g 12 o.d.toNat none (hypWord (x.hypOf ((c.sget (l / 4) o.a.toNat).setWidth 8))) id) ∧
  (∀ (o : HypDA) (s : State) (uid g : Nat) (c : Crew) (x : Ctx) (l : Nat), s.Issues uid g c (.hypnew o) → s.ctx? c.ctx = some x →
    c.Leads g o.h.guard l →
    let p := (c.sget (l / 4) o.a.toNat).setWidth 8
    let can := (x.hypOf p).st = .live ∧ (x.hypOf p).depth ≠ 15 ∧ ∃ h, h ≠ 0 ∧ (x.hypOf h).st = .free
    (¬can → ∃ t c', exec (.hypnew o) s = .next t ∧ s.OnlyCrew t c c' ∧ t = { s.unhold c.uid g with crews := t.crews } ∧
      c.SetsScalar c' g 12 o.d.toNat none 0 id) ∧
    (can → ∃ t c' x' h, exec (.hypnew o) s = .next t ∧ s.OnlyCrew t c c' ∧
      t = { s.unhold c.uid g with crews := t.crews, ctxs := t.ctxs, draws := t.draws } ∧ h ≠ 0 ∧ (x.hypOf h).st = .free ∧
      t.ctx? c.ctx = some x' ∧ x.HypsBut x' (· = h) ∧
      x'.hypOf h = { st := .live, parent := p, depth := (x.hypOf p).depth + 1 } ∧
      c.SetsScalar c' g 12 o.d.toNat none (h.setWidth 32) id)) ∧
  (∀ (o : HypEnter) (s : State) (uid g : Nat) (c : Crew) (x : Ctx) (l : Nat), s.Issues uid g c (.hypenter o) →
    s.ctx? c.ctx = some x → c.Leads g o.h.guard l →
    let h := (c.sget (l / 4) o.a.toNat).setWidth 8
    let hx := c.sget64 (l / 4) o.b.toNat
    ((∃ (i : Nat) (y : Slice), c.slices[i]? = some y ∧ y.live = true ∧ y.gang ≠ g) →
      exec (.hypenter o) s = .next (s.trap c g 12 0x06 0)) ∧
    ((∀ (i : Nat) (y : Slice), c.slices[i]? = some y → y.live = true → y.gang = g) →
      ∃ t c', exec (.hypenter o) s = .next t ∧ s.OnlyCrew t c c' ∧ t = { s.unhold c.uid g with crews := t.crews } ∧
        c.Went c' g 12 none (fun k => match (x.hypOf h).st with
          | .live | .resolving => { k with hyp := h, hxh := hx }
          | .discarding => { k with hyp := h, hxh := hx, orphan := some (x.hypOf h).refuge }
          | .free => { k with hyp := 0, hxh := hx, orphan := some 0 }))) ∧
  -- nothing happens in a gang without a participating lane; HYPRES starts its region
  (∀ (i : Instr) (h : XHdr) (tag : State → Option Nat),
    ((∃ o : HypDA, (i = .hypnew o ∨ i = .hypqry o) ∧ h = o.h ∧ tag = fun _ => none) ∨
     (∃ o : HypEnter, i = .hypenter o ∧ h = o.h ∧ tag = fun _ => none) ∨
     (∃ o : HypRes, i = .hypres o ∧ h = o.h ∧ tag = fun s => some s.nextId)) →
    ∀ (s : State) (uid g : Nat) (c : Crew), s.Issues uid g c i → (∀ l, ¬c.Takes g h.guard l) →
      ∃ t c', exec i s = .next t ∧ s.OnlyCrew t c c' ∧ t = { s.unhold c.uid g with crews := t.crews, nextId := t.nextId } ∧
        c.Went c' g 12 (tag s) id) ∧
  (∀ (o : HypRes) (s : State) (uid g : Nat) (c : Crew) (x : Ctx) (l : Nat), s.Issues uid g c (.hypres o) → s.ctx? c.ctx = some x →
    c.Leads g o.h.guard l →
    let h := (c.sget (l / 4) o.a.toNat).setWidth 8
    let open' := ∃ r ∈ s.resolves, r.ctx = c.ctx ∧ r.effect = false
    -- a release, and one resolution of the context at a time
    ((s.regsPending c.uid = true ∨ open') → exec (.hypres o) s = .next s) ∧
    (s.regsPending c.uid = false → ¬open' →
      -- refused
      (h = 0 ∨ (x.hypOf h).st ≠ .live → ∃ t c', exec (.hypres o) s = .next t ∧ s.OnlyCrew t c c' ∧
        t = { s.unhold c.uid g with crews := t.crews, nextId := s.nextId + 1 } ∧
        c.SetsScalar c' g 12 o.d.toNat (some s.nextId) 4 id) ∧
      (h ≠ 0 → (x.hypOf h).st = .live →
        -- accepted: its answer is awaited
        let asks := fun (t : State) (c' : Crew) (effect : Bool) => t.crew? c.uid = some c' ∧
          t.resolves = s.resolves ++ [{ id := s.nextId, ctx := c.ctx, h := h, crew := c.uid, slices := c.gangSlices g,
                                        reg := o.d.toNat, effect := effect }] ∧
          c' = { c with slices := c'.slices, pend := c'.pend } ∧ c'.slices.length = c.slices.length ∧
          ∀ (i : Nat) (y y' : Slice), c.slices[i]? = some y → c'.slices[i]? = some y' →
            if c.inGang g i then
              y' = { y.past 12 (some (s.nextId + 1)) with spend := y'.spend } ∧ mfind y'.spend o.d.toNat = some s.nextId ∧
              ∀ k, k ≠ o.d.toNat → mfind y'.spend k = mfind y.spend k
            else y' = y
        -- a refutation discards h and its descendants and orphans every other crew under them
        (o.refute = true → ∃ t c' x', exec (.hypres o) s = .next t ∧ asks t c' true ∧
          t = { s.unhold c.uid g with crews := t.crews, ctxs := t.ctxs, cores := t.cores, draws := t.draws, resolves := t.resolves,
                                      nextId := s.nextId + 2 } ∧
          t.ctx? c.ctx = some x' ∧ x.HypsBut x' (fun k => k ∈ x.descendants h) ∧
          (∀ k ∈ x.descendants h, x'.hypOf k = { x.hypOf k with st := .discarding, refuge := (x.hypOf h).parent }) ∧
          h ∈ x.descendants h ∧
          ∀ (j : Nat) (k : Crew), s.crews[j]? = some k → ∃ k', t.crews[j]? = some k' ∧ k'.hyp = k.hyp ∧
            k'.orphan = if k.ctx = c.ctx ∧ k.uid ≠ c.uid ∧ k.hyp ∈ x.descendants h then some (x.hypOf h).parent else k.orphan) ∧
        -- a confirmation leaves it RESOLVING; a commit first collapses its lines
        (o.refute = false → (x.hypOf h).parent ≠ 0 ∨ (∀ e ∈ s.versionsOf c.ctx h, s.uline? e.line = none) →
          ∃ t c' x', exec (.hypres o) s = .next t ∧ asks t c' false ∧ s.OnlyCrew t c c' ∧
          t = { s.unhold c.uid g with crews := t.crews, ctxs := t.ctxs, resolves := t.resolves, nextId := s.nextId + 2 } ∧
          t.ctx? c.ctx = some x' ∧ x.HypsBut x' (· = h) ∧ x'.hypOf h = { x.hypOf h with st := .resolving })))) ∧
  -- a confirmation takes effect: h is free, its crews run under its parent, its versions are the parent's or committed writes
  (∀ (s : State) (ctx : Nat) (x : Ctx) (r : Resolve), s.MemOk → s.ctx? ctx = some x →
    (s.resolves.find? fun q => q.ctx == ctx && !q.effect) = some r →
    let h := r.h
    let p := (x.hypOf h).parent
    let es := s.versionsOf ctx h
    h ≠ 0 → p ≠ h → (p = 0 → s.commitBlocked es = false ∧ ∀ e ∈ es, s.uline? e.line = none ∧ s.expired e.line = false) →
    ∃ x', let t := s.resolveStep ctx
      t = { s with crews := t.crews, ctxs := t.ctxs, cores := t.cores, caches := t.caches, mem := t.mem, lineKey := t.lineKey,
                   poison := t.poison, resolves := s.resolves.map fun q => if q.id = r.id then { q with effect := true } else q } ∧
      t.ctx? ctx = some x' ∧ x' = { x with hyps := x'.hyps } ∧ (x'.hypOf h).st = .free ∧
      (∀ (j : Nat) (k : Crew), s.crews[j]? = some k → ∃ k', t.crews[j]? = some k' ∧
        k'.hyp = (if k.ctx = ctx ∧ k.hyp = h then p else k.hyp)) ∧
      t.versionsOf ctx h = [] ∧ (p ≠ 0 → t.mem = s.mem) ∧
      (p = 0 → (es.map (·.line)).Nodup →
        (∀ e ∈ es, t.homeVal e.line e.key = mergeMask e.dmask e.data (s.homeVal e.line e.key)) ∧
        ∀ line key, (∀ e ∈ es, e.line ≠ line) → t.homeVal line key = s.homeVal line key)) ∧
  -- once it has taken effect and every other orphan of the context is redirected, sD is 0 and the asker an orphan if it lost its own
  ∀ (s : State) (ctx : Nat) (x : Ctx) (r : Resolve) (rest : List Resolve) (c : Crew), s.ctx? ctx = some x →
    s.resolves = r :: rest → (∀ q ∈ s.resolves, q.ctx = ctx → q.effect = true) → r.ctx = ctx → s.crew? r.crew = some c →
    (∀ k ∈ s.crews, k.ctx = ctx → k.uid ≠ r.crew → k.orphan = none) →
    ∃ c', let t := s.resolveStep ctx
      s.OnlyCrew t c c' ∧ t = { s with crews := t.crews, resolves := t.resolves } ∧
      t.resolves = s.resolves.filter (fun q => q.id != r.id) ∧
      c' = { c with slices := c'.slices, orphan :=
        if c.hyp ≠ 0 ∧ (x.hypOf c.hyp).st = .discarding ∧ c.orphan = none then some (x.hypOf c.hyp).refuge else c.orphan } ∧
      ∀ (i : Nat) (y y' : Slice), c.slices[i]? = some y → c'.slices[i]? = some y' →
        (i ∉ r.slices → y' = y) ∧
        (i ∈ r.slices → mfind y.spend r.reg = some r.id → y.drops = [] →
          y' = { y with s := y'.s, spend := y'.spend, la := y'.la } ∧ y'.sget r.reg = 0 ∧ mfind y'.spend r.reg = none ∧
          ∀ n, n ≠ r.reg → y'.sget n = y.sget n ∧ mfind y'.spend n = mfind y.spend n)

/-! ## Engines (09 R214 to R249) -/

/-- R216: the once-per-gang engine instructions do nothing in a gang without a participating lane, and trap on nothing; the
effectful ones start their region. COLL and ACCRD act alike (R126). -/
def Obligations.EnginesNeedALane : Prop :=
  ∀ (i : Instr) (h : XHdr) (effect : Bool),
    ((∃ o : Tdset, i = .tdset o ∧ h = o.h ∧ effect = false) ∨ (∃ o : Tdget, i = .tdget o ∧ h = o.h ∧ effect = false) ∨
     (∃ o : Mload, i = .mload o ∧ h = o.h ∧ effect = false) ∨ (∃ o : Mloadsp, i = .mloadsp o ∧ h = o.h ∧ effect = false) ∨
     (∃ o : Mma, i = .mma o ∧ h = o.h ∧ effect = false) ∨ (∃ o : Accz, i = .accz o ∧ h = o.h ∧ effect = false) ∨
     (∃ o : Accrd, i = .accrd o ∧ h = o.h ∧ effect = false) ∨ (∃ o : Accwr, i = .accwr o ∧ h = o.h ∧ effect = false) ∨
     (∃ o : CopyOp, i = .copy o ∧ h = o.h ∧ effect = true) ∨ (∃ o : CopyG, i = .copyg o ∧ h = o.h ∧ effect = true) ∨
     (∃ o : Coll, i = .coll o ∧ h = o.h ∧ effect = true) ∨ (∃ o : Cell, i = .cell o ∧ h = o.h ∧ effect = true) ∨
     (∃ o : Task, i = .task o ∧ h = o.h ∧ effect = true) ∨ (∃ o : Winarm, i = .winarm o ∧ h = o.h ∧ effect = false) ∨
     (i = .winclr h ∧ effect = false)) →
    ∀ (s : State) (uid g : Nat) (c : Crew), s.Issues uid g c i → (∀ l, ¬c.Takes g h.guard l) →
      ∃ t c', exec i s = .next t ∧ s.OnlyCrew t c c' ∧
        t = { s.unhold c.uid g with crews := t.crews, nextId := s.nextId + (if effect then 1 else 0) } ∧
        c.Went c' g 12 (if effect then some s.nextId else none) id

/-- R217, R220 to R222: TDSET writes all 256 bits of a descriptor, from eight scalars or 32 bytes of memory; TDGET reads them, and traps
with TDESC where the descriptor is ill-formed. -/
def Obligations.DescriptorsAreWrittenWhole : Prop :=
  (∀ (o : Tdset) (s : State) (uid g : Nat) (c : Crew) (x : Ctx) (l : Nat), s.Issues uid g c (.tdset o) → s.ctx? c.ctx = some x →
    c.Leads g o.h.guard l → ∀ (w : State) (v : BitVec 256),
      (match o.src with
        | .regs a => w = s ∧ ∀ i : Nat, i < 8 → v.extractLsb' (32 * i) 32 = c.sget (l / 4) (a.toNat + i)
        | .mem a off => ∃ y u r, let m := tdsetLoad l (c.sea (l / 4) a off)
            s.checkAddr c.atRoot m.acc (c.sea (l / 4) a off) = .ok y ∧ c.watchHit true false 32 m.lanes = none ∧
            s.poisonedAt c.atRoot 32 y = false ∧ s.resolving c.atRoot 32 [(l, c.sea (l / 4) a off, y)] = false ∧
            s.farFault c.atRoot m [(l, c.sea (l / 4) a off, y)] = (none, u) ∧
            State.readTo { s with draws := u.draws } c.atRoot false y 32 = some r ∧ w = r.2 ∧ v = BitVec.ofNat 256 r.1) →
      ∃ t c' x', exec (.tdset o) s = .next t ∧ s.OnlyCrew t c c' ∧ t = { w.unhold c.uid g with crews := t.crews, ctxs := t.ctxs } ∧
        c.Went c' g 12 none id ∧ w.ctx? c.ctx = some x ∧ t.ctx? c.ctx = some x' ∧ x' = { x with tds := x'.tds } ∧
        ∀ n, t.td c.ctx n = if n = o.n.toNat then v else s.td c.ctx n) ∧
  (∀ (o : Tdget) (s : State) (uid g : Nat) (c : Crew), s.Issues uid g c (.tdget o) → (∃ l, c.Takes g o.h.guard l) →
    (tdIll (s.td c.ctx o.n.toNat) = true → exec (.tdget o) s = .next (s.trap c g 12 0x0A 0)) ∧
    (tdIll (s.td c.ctx o.n.toNat) = false →
    ∃ t c', exec (.tdget o) s = .next t ∧ s.OnlyCrew t c c' ∧ t = { s.unhold c.uid g with crews := t.crews } ∧
      c' = { c with slices := c'.slices } ∧ c'.slices.length = c.slices.length ∧
      ∀ (i : Nat) (y y' : Slice), c.slices[i]? = some y → c'.slices[i]? = some y' →
        if c.inGang g i then
          y' = { y.past 12 none with s := y'.s } ∧
          (∀ q, q < 8 → y'.sget (o.d.toNat + q) = (s.td c.ctx o.n.toNat).extractLsb' (32 * q) 32) ∧
          ∀ n, (n < o.d.toNat ∨ o.d.toNat + 8 ≤ n) → y'.sget n = y.sget n
        else y' = y))

/-- R217, R224, R225, R227, R229, R235 to R237: at issue a matrix instruction is checked, its record updated and its operation
queued; ACCRD's destinations are pending. -/
def Obligations.MatrixInstructionsAreQueued : Prop :=
  (∀ (o : Mload) (s : State) (uid g : Nat) (c : Crew), s.Issues uid g c (.mload o) → (∃ l, c.Takes g o.h.guard l) →
    let t := s.td c.ctx o.n.toNat
    let i := o.sub.toNat
    let k := s.core c.core
    (¬LoadTd t 0 → exec (.mload o) s = .next (s.trap c g 12 0x0A 0)) ∧
    (LoadTd t 0 → 256 < tdRows t ∨ 256 < tdCols t → exec (.mload o) s = .next (s.trap c g 12 0x11 0)) ∧
    (LoadTd t 0 → tdRows t ≤ 256 → tdCols t ≤ 256 → i < k.subs.length →
      ∃ k', k' = { k with subs := k'.subs } ∧ (∀ j, j ≠ i → k'.sub j = k.sub j) ∧
        k'.sub i = { k.sub i with valid := true, fmt := BitVec.ofNat 4 (tdFmt t), pat := 0, gen := (k.sub i).gen + 1 } ∧
        s.QueuesMx (exec (.mload o) s) c g (some o.d.toNat) [i] (.load t o.west) k')) ∧
  (∀ (o : Mloadsp) (s : State) (uid g : Nat) (c : Crew), s.Issues uid g c (.mloadsp o) → (∃ l, c.Takes g o.h.guard l) →
    let t := s.td c.ctx o.n.toNat
    let i := o.sub.toNat
    let k := s.core c.core
    let pat : BitVec 2 := match o.pat with
      | .p24 => 1 | .p48 => 2 | .p1632 => 3
    let width := match o.pat with
      | .p24 => 2 | .p48 => 3 | .p1632 => 5
    let bands := if o.four then 4 else 2
    let whole := c.slices.length = 8 ∧ ∀ l, l < 32 → c.Takes g o.h.guard l
    (¬LoadTd t pat.toNat → exec (.mloadsp o) s = .next (s.trap c g 12 0x0A 0)) ∧
    (LoadTd t pat.toNat → c.slices.length ≤ 8 → (256 < tdRows t ∨ 256 < tdCols t ∨ ¬whole) →
      exec (.mloadsp o) s = .next (s.trap c g 12 0x11 0)) ∧
    (LoadTd t pat.toNat → tdRows t ≤ 256 → tdCols t ≤ 256 → whole → i < k.subs.length → ∃ k' metas,
      (∀ l q, l < 32 → q < 4 * width * bands → (l * 128 + q, c.vget l (o.b.toNat + q)) ∈ metas) ∧
      (o.first = 0 → k' = { k with subs := k'.subs } ∧ (∀ j, j ≠ i → k'.sub j = k.sub j) ∧
        k'.sub i = { k.sub i with valid := true, fmt := BitVec.ofNat 4 (tdFmt t), pat := pat, gen := (k.sub i).gen + 1 }) ∧
      (o.first ≠ 0 → k' = k) ∧ s.QueuesMx (exec (.mloadsp o) s) c g (some o.d.toNat) [i] (.loadSp t pat o.first.toNat bands metas
        (decide (o.first ≠ 0 ∧ ((k.sub i).valid = false ∨ (k.sub i).fmt.toNat ≠ tdFmt t ∨ (k.sub i).pat ≠ pat)))) k')) ∧
  (∀ (o : Mma) (s : State) (uid g : Nat) (c : Crew) (l : Nat), s.Issues uid g c (.mma o) → c.Leads g o.h.guard l →
    let k := s.core c.core
    let uses := mmaUses o.mode o.n.toNat
    let n := o.rows1.toNat + 1
    let row := (c.sget (l / 4) o.a.toNat).toNat
    let tds := ∀ u ∈ uses, ChainTd k (s.td c.ctx u.1) u.2
    let shape := n ≤ 128 ∧ o.accrow.toNat + n ≤ 128 ∧ ∀ u ∈ uses, ChainShape k (s.td c.ctx u.1) u.2 row n
    let inside := ∀ u ∈ uses, ChainInside (s.scratch c).2 (s.td c.ctx u.1) row n
    (¬tds → exec (.mma o) s = .next (s.trap c g 12 0x0A 0)) ∧
    (tds → ¬shape → exec (.mma o) s = .next (s.trap c g 12 0x11 0)) ∧
    (tds → shape → ¬inside → exec (.mma o) s = .next (s.trap c g 12 0x05 0)) ∧
    (tds → shape → inside → s.QueuesMx (exec (.mma o) s) c g (some o.d.toNat) [0, 1, 2, 3]
      (.mma (uses.map fun u => s.td c.ctx u.1) o.t.toNat row n o.accrow.toNat o.mode) k)) ∧
  (∀ (o : Accz) (s : State) (uid g : Nat) (c : Crew), s.Issues uid g c (.accz o) → (∃ l, c.Takes g o.h.guard l) →
    let n := o.count1.toNat + 1
    (128 < o.first.toNat + n → exec (.accz o) s = .next (s.trap c g 12 0x11 0)) ∧
    (o.first.toNat + n ≤ 128 → s.QueuesMx (exec (.accz o) s) c g (some o.d.toNat) [o.tile.toNat / 2]
      (.accz o.tile.toNat o.first.toNat n) (s.core c.core))) ∧
  (∀ (o : Accwr) (s : State) (uid g : Nat) (c : Crew) (l : Nat), s.Issues uid g c (.accwr o) → c.Leads g o.h.guard l →
    let row := (c.sget (l / 4) o.a.toNat).toNat
    (127 < row → exec (.accwr o) s = .next (s.trap c g 12 0x11 0)) ∧
    (row ≤ 127 → ∃ vals : List (Nat × Word),
      (∀ col w, (col, w) ∈ vals ↔ ∃ k q, q < 8 ∧ c.Takes g o.h.guard k ∧ col = k + 32 * q ∧ w = c.vget k (o.b.toNat + q)) ∧
      s.QueuesMx (exec (.accwr o) s) c g (some o.d.toNat) [o.tile.toNat / 2] (.accwr o.tile.toNat row vals) (s.core c.core))) ∧
  (∀ (o : Accrd) (s : State) (uid g : Nat) (c : Crew) (l : Nat), s.Issues uid g c (.accrd o) → c.Leads g o.h.guard l →
    let row := (c.sget (l / 4) o.a.toNat).toNat
    (127 < row → exec (.accrd o) s = .next (s.trap c g 12 0x11 0)) ∧
    (row ≤ 127 → s.QueuesMx (exec (.accrd o) s) c g none [o.tile.toNat / 2]
        (.accrd o.tile.toNat row o.d.toNat o.bf16 (c.parts g o.h.guard)) (s.core c.core) ∧
      ∃ t c', exec (.accrd o) s = .next t ∧ s.OnlyCrew t c c' ∧ c' = { c with slices := c'.slices } ∧
        ∀ (i : Nat) (x x' : Slice), c.slices[i]? = some x → c'.slices[i]? = some x' →
          x' = { (if c.inGang g i then x.past 12 none else x) with vpend := x'.vpend } ∧
          ∀ k, ((∃ q, q < (if o.bf16 then 4 else 8) ∧ ∃ m, c.Takes g o.h.guard m ∧ m / 4 = i ∧ k = m * 128 + (o.d.toNat + q)) →
              mfind x'.vpend k = some s.nextId) ∧
            ((∀ q, q < (if o.bf16 then 4 else 8) → ∀ m, c.Takes g o.h.guard m → m / 4 = i → k ≠ m * 128 + (o.d.toNat + q)) →
              mfind x'.vpend k = mfind x.vpend k)))

/-- R224, R231, R233: an operation starts when no earlier one of the queue shares a sub-array with it, and one that acts on tiles then
decides each by the tags: busy, the tile itself at the root, else its partner, claimed with a copy if it is untagged. Only an MMA whose
generation has failed, or an operation already refuted, starts without. -/
def Obligations.MatrixOperationsStartInOrder : Prop :=
  ∀ (s : State) (core id : Nat) (op : MxOp), (s.core core).mq.find? (·.id == id) = some op → op.started = false →
    let k := s.core core
    let behind := ∃ a b x, k.mq = a ++ op :: b ∧ (∀ y ∈ a, y.id ≠ id) ∧ x ∈ a ∧ ∃ p ∈ x.subs, ∃ q ∈ op.subs, p.1 = q.1
    let starts := fun (op' : MxOp) (k' : Core) => ∃ t, exec (.matrixQueueStart ⟨core, id⟩) s = .next t ∧
      t = { s with cores := t.cores } ∧ s.CoreIs t core { k' with mq := k.mq.map fun x => if x.id == id then op' else x }
    let failed := ∃ p ∈ op.subs, p.2 ∈ (k.sub p.1).badGens
    let other := fun (tile : Nat) => if tile % 2 = 0 then tile + 1 else tile - 1
    let anc := match s.ctx? op.ctx with
      | some x => (x.chain 16 op.hyp).drop 1
      | none => []
    let foreign := fun (tile : Nat) => k.tag tile ≠ 0 ∧ k.tag tile ≠ op.hyp ∧ k.tag tile ∉ anc
    -- the tiles that it writes, and whether it is an MMA
    let writes := fun (ts : List Nat) (mma : Bool) =>
      (∃ tile f n, op.kind = .accz tile f n ∧ ts = [tile] ∧ mma = false) ∨
      (∃ tile r v, op.kind = .accwr tile r v ∧ ts = [tile] ∧ mma = false) ∨
      ∃ tds tl row n r mode, op.kind = .mma tds tl row n r mode ∧ ts = (mmaUses mode 0).map (fun u => 2 * u.2.headD 0 + tl) ∧ mma = true
    (behind → exec (.matrixQueueStart ⟨core, id⟩) s = .next s) ∧
    (¬behind →
      (∀ td w, op.kind = .load td w → starts { op with started := true } k) ∧
      (∀ td p f b m x, op.kind = .loadSp td p f b m x → starts { op with started := true } k) ∧
      (∀ ts mma, writes ts mma →
        (op.refuted.isSome = true ∨ (mma = true ∧ failed) → starts { op with started := true } k) ∧
        (op.refuted = none → ¬(mma = true ∧ failed) → mwf 0 k.acc = true →
          let blocked := fun tile => foreign tile ∨ (op.hyp ≠ 0 ∧ k.tag (other tile) ≠ op.hyp ∧ k.tag (other tile) ≠ 0)
          let claimed := fun n => op.hyp ≠ 0 ∧ k.tag n = 0 ∧ ∃ tile ∈ ts, other tile = n
          ((∃ tile ∈ ts, blocked tile) → starts { op with started := true, busy := true } k) ∧
          ((∀ tile ∈ ts, ¬blocked tile) → ∃ k',
            starts { op with started := true, tiles := ts.map fun tile => if op.hyp = 0 then tile else other tile } k' ∧
            k' = { k with acc := k'.acc, tags := k'.tags, accBad := k'.accBad } ∧
            ∀ n, (claimed n → k'.tag n = op.hyp ∧ ∀ i, i < 32768 →
                mget 0 k'.acc (n * 32768 + i) = mget 0 k.acc (other n * 32768 + i) ∧
                (n * 1024 + i / 32 ∈ k'.accBad ↔ other n * 1024 + i / 32 ∈ k.accBad)) ∧
              (¬claimed n → k'.tag n = k.tag n ∧ ∀ i, i < 32768 → mget 0 k'.acc (n * 32768 + i) = mget 0 k.acc (n * 32768 + i) ∧
                (n * 1024 + i / 32 ∈ k'.accBad ↔ n * 1024 + i / 32 ∈ k.accBad))))) ∧
      (∀ tile r d bf ls, op.kind = .accrd tile r d bf ls →
        (foreign tile → starts { op with started := true, busy := true } k) ∧
        (¬foreign tile → starts { op with started := true, tiles :=
          [if op.hyp ≠ 0 ∧ (k.tag (other tile) = op.hyp ∨ k.tag (other tile) ∈ anc) then other tile else tile] } k)))

/-- R218, R225, R230 to R237, R57, R369: what a matrix operation leaves when it completes: a dense load fills its tile, ACCZ and ACCWR
write their rows, an MMA adds each chain to the rows of its tile; a load that fails spoils its generation; a busy or refuted operation,
and an MMA whose generation has failed, change nothing now, a refuted MMA but for the flags of the rows it had done. An uncorrectable
error ends ACCZ and ACCWR with the rows done before it. -/
def Obligations.MatrixOperationsComplete : Prop :=
  ∀ (s : State) (core id : Nat) (op : MxOp) (c : Crew), (s.core core).mq.find? (·.id == id) = some op → op.started = true →
    s.crew? op.crew = some c →
    let k := s.core core
    -- the operation's word, and the core it leaves, from state m
    let ends := fun (how : MxEnd) (m : State) (dest : StatusTo) (code cause count : Nat) (k' : Core) => ∃ t,
      m.CoreIs t core (k'.without op.id) ∧ t = { m with cores := t.cores } ∧
      t.Ends (exec (.matrixComplete ⟨core, id, how⟩) s) dest op.id (wordRule code cause count false)
    let leaves := fun (how : MxEnd) => ends how s
    let raises := fun (f : BitVec 5) (dest : StatusTo) (code cause count : Nat) (k' : Core) => ∃ m c', s.OnlyCrew m c c' ∧
      m = { s with crews := m.crews } ∧ c' = { c with fflags := c.fflags ||| f } ∧ ends .done m dest code cause count k'
    let failed := ∃ p ∈ op.subs, p.2 ∈ (k.sub p.1).badGens
    -- rows done: all n, or fewer before an uncorrectable error
    let rows := fun (how : MxEnd) (n code cause count : Nat) => (how = .done ∧ code = 0 ∧ cause = 0 ∧ count = n) ∨
      ∃ q, how = .err 0x0D q ∧ code = 1 ∧ cause = 0x0D ∧ count = min q (n - 1)
    let at' := fun (o : Nat) => scratchAddr c.core ((s.scratch c).1 + o)
    let clean := ∀ a, at' 0 ≤ a → a < at' (s.scratch c).2 → s.storeBad (a / 128) = false
    let spoils := fun (how : MxEnd) (dest : StatusTo) (cause count : Nat) => ∀ i gen, op.subs = [(i, gen)] → i < k.subs.length →
      ∃ k', k' = { k with subs := k'.subs } ∧ (∀ j, j ≠ i → k'.sub j = k.sub j) ∧ leaves how dest 1 cause count k' ∧
        k'.sub i = { k.sub i with valid := if (k.sub i).gen = gen then false else (k.sub i).valid, badGens := (k.sub i).badGens ++ [gen] }
    ∀ dest, op.dest = some dest →
    (∀ tds tl row n accrow mode, op.kind = .mma tds tl row n accrow mode →
      (op.refuted.isSome → raises op.flags dest 3 0 (op.refuted.getD 0) k) ∧
      (op.refuted = none → failed → leaves .done dest 1 0x0A 0 k) ∧
      (op.refuted = none → ¬failed → op.busy = true → leaves .done dest 5 0 0 k) ∧
      -- A rows and scales lie in the scratchpad and nothing read holds an error
      (op.refuted = none → ¬failed → op.busy = false → op.tiles.length = tds.length → tds.length = (mmaUses mode 0).length →
        op.tiles.Nodup → accrow + n ≤ 128 → (s.scratch c).2 ≤ 2 ^ 18 → clean →
        (∀ t p, (t, p) ∈ tds.zip op.tiles → ∀ i, i < n → k.rowBad p (accrow + i) = false ∧
          (tdBase t).toNat + (row + i) * tdStride t + tdRowBytes t ≤ (s.scratch c).2 ∧
          (tdSgran t ≠ 0 → (tdSbase t).toNat + (row + i + 1) * tdScaleCols t * 4 ≤ (s.scratch c).2)) →
        ∃ k' f, k' = { k with acc := k'.acc } ∧ raises f dest 0 0 n k' ∧
          -- element (i, j) of chain x: the chunks of its A row, with their scales, added in order (R230)
          let el := fun (x i j : Nat) =>
            let t := tds.getD x 0
            let codes := (List.range (tdCols t)).map
              (elemAt (tdFmt t) (s.readMem (at' ((tdBase t).toNat + (row + i) * tdStride t)) (tdRowBytes t)))
            let sas := (List.range (tdScaleCols t)).map fun q => if tdSgran t = 0 then 0x3F800000 else
              s.readMem (at' ((tdSbase t).toNat + (row + i) * tdScaleCols t * 4)) (tdScaleCols t * 4) / 2 ^ (32 * q) % 2 ^ 32
            chainElem ((((mmaUses mode 0).map (·.2)).getD x []).map (op.sub k)) (tdFmt t) codes sas j
              (mget 0 k.acc (op.tiles.getD x 0 * 32768 + (accrow + i) * 256 + j)).toNat
          (∀ x i j, x < tds.length → i < n → j < 256 →
            mget 0 k'.acc (op.tiles.getD x 0 * 32768 + (accrow + i) * 256 + j) = BitVec.ofNat 32 (el x i j).1) ∧
          (∀ key, (∀ x i j, x < tds.length → i < n → j < 256 → key ≠ op.tiles.getD x 0 * 32768 + (accrow + i) * 256 + j) →
            mget 0 k'.acc key = mget 0 k.acc key) ∧
          ∀ b, f.getLsbD b = true ↔ ∃ x i j, x < tds.length ∧ i < n ∧ j < 256 ∧ (el x i j).2.getLsbD b = true)) ∧
    (∀ tile first n, op.kind = .accz tile first n →
      (op.refuted.isSome → leaves .done dest 3 0 (op.refuted.getD 0) k) ∧
      (op.refuted = none → op.busy = true → leaves .done dest 5 0 0 k) ∧
      (op.refuted = none → op.busy = false → ∀ p how code cause count, op.tiles = [p] → rows how n code cause count →
        mwf 0 k.acc = true → ∃ k', k' = { k with acc := k'.acc, accBad := k'.accBad } ∧ leaves how dest code cause count k' ∧
          (∀ key, mget 0 k'.acc key =
            if p * 32768 + first * 256 ≤ key ∧ key < p * 32768 + (first + count) * 256 then 0 else mget 0 k.acc key) ∧
          ∀ l, l ∈ k'.accBad ↔ l ∈ k.accBad ∧ ¬(p * 1024 + first * 8 ≤ l ∧ l < p * 1024 + (first + count) * 8))) ∧
    (∀ tile row vals, op.kind = .accwr tile row vals →
      (op.refuted.isSome → leaves .done dest 3 0 (op.refuted.getD 0) k) ∧
      (op.refuted = none → op.busy = true → leaves .done dest 5 0 0 k) ∧
      (op.refuted = none → op.busy = false → (∀ q, leaves (.err 0x0D q) dest 1 0x0D 0 k) ∧
        ∀ p, op.tiles = [p] → (vals.map (·.1)).Nodup → ∃ k', k' = { k with acc := k'.acc, accBad := k'.accBad } ∧
        leaves .done dest 0 0 1 k' ∧ (∀ col w, (col, w) ∈ vals → mget 0 k'.acc (p * 32768 + row * 256 + col) = w) ∧
        (∀ key, (∀ col w, (col, w) ∈ vals → key ≠ p * 32768 + row * 256 + col) → mget 0 k'.acc key = mget 0 k.acc key) ∧
        ∀ l, l ∈ k'.accBad ↔ l ∈ k.accBad ∧ ¬(vals.length = 256 ∧ p * 1024 + row * 8 ≤ l ∧ l < p * 1024 + row * 8 + 8))) ∧
    (∀ t west, op.kind = .load t west → ∀ cause : BitVec 8, cause = 0x0D ∨ cause = 0x0E → ∀ q,
      spoils (.err cause q) dest cause.toNat (if west then 0 else min q (tdRows t - 1))) ∧
    -- a part whose record does not match fails
    (∀ t pat first bands metas, op.kind = .loadSp t pat first bands metas true → spoils .done dest 0x0A 0) ∧
    -- an unscaled dense load by rows from the scratchpad
    (∀ t i gen, op.kind = .load t false → op.subs = [(i, gen)] → i < k.subs.length → s.MemOk → tdFmt t ≤ 4 → tdSpace t = 1 →
      tdSgran t = 0 → 0 < tdRows t → tdRows t ≤ 256 → tdCols t ≤ 256 → clean → (∀ r, r < tdRows t → tdRowBytes t ≠ 0 ∧
        (tdBase t).toNat + r * tdStride t + tdRowBytes t ≤ (s.scratch c).2) → (s.scratch c).2 ≤ 2 ^ 18 →
      ∃ m k', m = { s with waitq := m.waitq } ∧ m.waitq.Sublist s.waitq ∧ k' = { k with subs := k'.subs } ∧
        ends .done m dest 0 0 256 k' ∧ (∀ j, j ≠ i → k'.sub j = k.sub j) ∧
        k'.sub i = { k.sub i with cells := (k'.sub i).cells, idx := [], scales := [] } ∧
        ∀ r j, r < 256 → j < 256 → ((k'.sub i).code r j =
          if r < tdRows t ∧ j < tdCols t then elemAt (tdFmt t) (s.readMem (at' ((tdBase t).toNat + r * tdStride t)) (tdRowBytes t)) j
          else 0))

/-- R236, R51, R369: ACCRD delivers its row, zeros if it was busy, and leaves the queue; a row with an uncorrectable error gives its
crew a late ECC trap. -/
def Obligations.AccumulatorsAreRead : Prop :=
  ∀ (s : State) (core id : Nat) (op : MxOp) (c : Crew) (tile row d : Nat) (bf : Bool) (ls : List Nat) (how : MxEnd),
    (s.core core).mq.find? (·.id == id) = some op → op.started = true → s.crew? op.crew = some c → op.dest = none →
    op.kind = .accrd tile row d bf ls → ls.Nodup → d + 8 ≤ 128 →
    (∀ l ∈ ls, ∃ x, c.slices[l / 4]? = some x ∧ x.drops = [] ∧
      ∀ q, q < (if bf then 4 else 8) → mfind x.vpend (l * 128 + (d + q)) = some op.id) →
    let k := s.core core
    let bad := op.busy = false ∧ ∃ p ∈ op.tiles, k.rowBad p row = true
    let at' := fun col => if op.busy then (0 : Word) else
      match op.tiles with
      | p :: _ => mget 0 k.acc (p * 32768 + row * 256 + col)
      | [] => 0
    ∃ t c', exec (.matrixComplete ⟨core, id, how⟩) s = .next t.reap ∧ s.OnlyCrew t c c' ∧
      t = { s with crews := t.crews, cores := t.cores } ∧ s.CoreIs t core (k.without op.id) ∧
      c' = { c with v := c'.v, fflags := c'.fflags, slices := c'.slices, late := c'.late, lateGang := c'.lateGang } ∧
      (¬bad → c'.late = c.late) ∧
      (bad → ∃ x, c'.late = some (c.late.getD x) ∧ x.cause = 0x0D ∧ x.late = true ∧ x.epc = op.pc ∧
        x.lane = BitVec.ofNat 5 (ls.headD 0)) ∧
      (∀ l ∈ ls, ∀ q, q < (if bf then 4 else 8) →
        c'.vget l (d + q) = (if bf then
            BitVec.ofNat 32 ((bf16.convert .rne false (f32.read (at' (l + 64 * q)).toNat)).1 +
              2 ^ 16 * (bf16.convert .rne false (f32.read (at' (l + 64 * q + 32)).toNat)).1)
          else at' (l + 32 * q)) ∧
        ∀ x', c'.slices[l / 4]? = some x' → mfind x'.vpend (l * 128 + (d + q)) = none) ∧
      ∀ l n, n < 128 → (l ∉ ls ∨ n < d ∨ d + (if bf then 4 else 8) ≤ n) → c'.vget l n = c.vget l n

/-- R52 to R57: a chunk of an integer pair is the exact dot product, rounded once; an element that is reserved gives NaN and the
invalid flag; a chunk of zeros is +0 without a flag. -/
def Obligations.MatrixChunksAreDotProducts : Prop :=
  ∀ (b : SubArray) (a : List Nat) (k j : Nat), a.length = 128 → b.pat = 0 →
    let ok := fun fa => (∀ x ∈ a, mBad fa x = false) ∧ ∀ r, r < 128 → mBad b.fmt.toNat (b.code (128 * k + r) j) = false
    (∀ fa, (fa = 2 ∨ fa = 3) → (b.fmt = 2 ∨ b.fmt = 3) → ok fa →
      let dot := ((List.range 128).map fun r => mInt fa (a.getD r 0) * mInt b.fmt.toNat (b.code (128 * k + r) j)).sum
      b.chunk fa a k j = f32.round .rne false (decide (dot < 0)) dot.natAbs 0 false) ∧
    (∀ fa, ¬ok fa → b.chunk fa a k j = (0x7FC00000, 0x10)) ∧
    (∀ fa, ok fa → (∀ x ∈ a, x = 0) → b.chunk fa a k j = (0, 0))

/-- R217, R238, R239, R242, R248, R249: copies are checked and queued; windows are armed and cleared once no copy writes into one. -/
def Obligations.CopiesAndWindowsAreIssued : Prop :=
  (∀ (o : CopyOp) (s : State) (uid g : Nat) (c : Crew) (l : Nat), s.Issues uid g c (.copy o) → c.Leads g o.h.guard l →
    let dst := s.td c.ctx o.dst.toNat
    let src := s.td c.ctx o.src.toNat
    let formed := tdIll dst = false ∧ tdIll src = false
    let shape := tdRows dst = tdRows src ∧ tdRowBytes dst = tdRowBytes src
    (c.hyp ≠ 0 → exec (.copy o) s = .next (s.trap c g 12 0x07 0)) ∧
    (c.hyp = 0 → ¬formed → exec (.copy o) s = .next (s.trap c g 12 0x0A 0)) ∧
    (c.hyp = 0 → formed → ¬shape → exec (.copy o) s = .next (s.trap c g 12 0x11 0)) ∧
    (c.hyp = 0 → formed → shape → s.QueuesCopy (exec (.copy o) s) c g o.d.toNat o.cls.toNat dst src none
      (o.cr.map fun r => c.sget64 (l / 4) r.toNat))) ∧
  (∀ (o : CopyG) (s : State) (uid g : Nat) (c : Crew) (l : Nat), s.Issues uid g c (.copyg o) → c.Leads g o.h.guard l →
    let dst := s.td c.ctx o.dst.toNat
    let src := s.td c.ctx o.src.toNat
    let idx := s.td c.ctx o.idx.toNat
    let formed := tdIll dst = false ∧ tdIll src = false ∧ tdIll idx = false ∧ tdFmt idx = 8 ∧ tdSpace dst = 1
    let shape := tdRows dst = tdRows idx * tdCols idx ∧ tdRowBytes dst = tdRowBytes src
    (c.hyp ≠ 0 → exec (.copyg o) s = .next (s.trap c g 12 0x07 0)) ∧
    (c.hyp = 0 → ¬formed → exec (.copyg o) s = .next (s.trap c g 12 0x0A 0)) ∧
    (c.hyp = 0 → formed → ¬shape → exec (.copyg o) s = .next (s.trap c g 12 0x11 0)) ∧
    (c.hyp = 0 → formed → shape → s.QueuesCopy (exec (.copyg o) s) c g o.d.toNat o.cls.toNat dst src (some idx)
      (o.cr.map fun r => c.sget64 (l / 4) r.toNat))) ∧
  (∀ (s : State) (uid g : Nat) (c : Crew),
    let busy := ∃ k ∈ s.cores, ∃ j ∈ k.2.copies, j.admitted = some c.uid ∧ j.hasWork = true
    (∀ (o : Winarm), s.Issues uid g c (.winarm o) → (∃ l, c.Takes g o.h.guard l) →
      (busy → exec (.winarm o) s = .next s) ∧
      (¬busy → ∃ t c', exec (.winarm o) s = .next t ∧ s.OnlyCrew t c c' ∧ t = { s.unhold c.uid g with crews := t.crews } ∧
        c' = { c with slices := c'.slices, window := some (o.a.toNat, o.n.toNat) } ∧
        let addr : BitVec 64 := BitVec.ofNat 64 (0xFF0000000000 + s.dieid c.ctx c.core * 2 ^ 33 + c.core % 32 * 2 ^ 24 +
          (c.sched * 0x20000 + c.regOff + o.a.toNat * 16 * c.slices.length))
        ∀ (i : Nat) (x x' : Slice), c.slices[i]? = some x → c'.slices[i]? = some x' →
          if c.inGang g i then x' = { x.past 12 none with s := x'.s } ∧ x'.sget o.d.toNat = addr.extractLsb' 0 32 ∧
            x'.sget (o.d.toNat + 1) = addr.extractLsb' 32 32 ∧
            ∀ n, n ≠ o.d.toNat → n ≠ o.d.toNat + 1 → x'.sget n = x.sget n
          else x' = x)) ∧
    (∀ (h : XHdr), s.Issues uid g c (.winclr h) → (∃ l, c.Takes g h.guard l) →
      (busy → exec (.winclr h) s = .next s) ∧
      (¬busy → ∃ t c', exec (.winclr h) s = .next t ∧ s.OnlyCrew t c c' ∧ t = { s.unhold c.uid g with crews := t.crews } ∧
        c.Went c' g 12 none (fun k => { k with window := none }))))

/-- R239, R218: a chunk of a plain copy within the scratchpad moves its bytes and no other, and the class pays for it; a copy with
no chunk left ends with its bytes counted, and one found to fail with its cause. -/
def Obligations.CopiesMoveAndEnd : Prop :=
  (∀ (s : State) (core want : Nat) (c : Crew) (cls : Nat) (k : Core) (j : CopyJob), s.MemOk → c.core = core →
    (s.core core).sender want = (some cls, k) → k.oldest cls = some j → s.crew? j.crew = some c → j.idx = none → j.bar = none →
    (∀ q ∈ (s.core core).copies, q.id = j.id → q = j) →
    tdSpace j.dst = 1 → tdSpace j.src = 1 → 0 < tdRowBytes j.dst → (s.scratch c).2 ≤ 2 ^ 18 →
    (∀ o, o < j.total → (copyAt j.src (tdRowBytes j.dst) o).toNat < (s.scratch c).2 ∧
      (copyAt j.dst (tdRowBytes j.dst) o).toNat < (s.scratch c).2) →
    -- the source, the destination's rows and each other do not overlap
    (∀ o o', o < j.total → o' < j.total → copyAt j.src (tdRowBytes j.dst) o ≠ copyAt j.dst (tdRowBytes j.dst) o' ∧
      (o ≠ o' → copyAt j.dst (tdRowBytes j.dst) o ≠ copyAt j.dst (tdRowBytes j.dst) o')) →
    let i := j.pick want
    let at' := fun t o => scratchAddr core ((s.scratch c).1 + (copyAt t (tdRowBytes j.dst) o).toNat)
    -- nothing that is read holds an uncorrectable error
    (∀ o, o < j.total → s.storeBad (at' j.src o / 128) = false) →
    ∃ t, exec (.copyChunk ⟨core, want⟩) s = .next t ∧
      t = { s with mem := t.mem, cores := t.cores, poison := t.poison, waitq := t.waitq } ∧ t.waitq.Sublist s.waitq ∧ t.MemOk ∧
      (∀ line, (∀ o, 2048 * i ≤ o → o < 2048 * i + j.chunkLen i → at' j.dst o / 128 ≠ line) → t.storeBad line = s.storeBad line) ∧
      (∀ o, 2048 * i ≤ o → o < 2048 * i + j.chunkLen i → t.readMem (at' j.dst o) 1 = s.readMem (at' j.src o) 1) ∧
      (∀ a, (∀ o, 2048 * i ≤ o → o < 2048 * i + j.chunkLen i → a ≠ at' j.dst o) → t.readMem a 1 = s.readMem a 1) ∧
      (∀ n, n ≠ core → t.core n = s.core n) ∧
      (t.core core).copies = ((s.core core).copies.map fun q => if q.id = j.id then { j with done := insertSorted i j.done } else q) ∧
      (t.core core).rrClass = cls ∧ (t.core core).mq = (s.core core).mq ∧ (t.core core).acc = (s.core core).acc) ∧
  (∀ (s : State) (core id : Nat) (j : CopyJob), (s.core core).copies.find? (·.id == id) = some j →
    let leaves := fun (code cause count : Nat) => ∃ t, t = { s with cores := t.cores } ∧
      s.CoreIs t core { s.core core with copies := (s.core core).copies.filter (·.id != j.id) } ∧
      t.Ends (exec (.copyComplete ⟨core, id⟩) s) j.dest j.id (wordRule code cause count false)
    (j.ended = none → j.done.length < j.chunks → exec (.copyComplete ⟨core, id⟩) s = .next s) ∧
    (j.ended = none → j.chunks ≤ j.done.length → leaves 0 0 (tdRows j.dst * tdRowBytes j.dst)) ∧
    (∀ code cause count, j.ended = some (code, cause, count) → leaves code.toNat cause.toNat count))

/-- R217, R243, R246, R247: COLL, CELL and TASK are checked and handed over; their words come later. -/
def Obligations.CollectivesCommandsAndTasksAreIssued : Prop :=
  (∀ (o : Coll) (s : State) (uid g : Nat) (c : Crew), s.Issues uid g c (.coll o) → (∃ l, c.Takes g o.h.guard l) →
    let t := s.td c.ctx o.n.toNat
    let ls := c.parts g o.h.guard
    let formed := tdIll t = false ∧ tdSpace t ≠ 2 ∧ (o.op ≠ .put → tdFmt t = 6)
    let shape := (∀ l ∈ ls, l < tdRows t) ∧ ls.length * tdRowBytes t ≤ 2 ^ 20
    (c.hyp ≠ 0 → exec (.coll o) s = .next (s.trap c g 12 0x07 0)) ∧
    (c.hyp = 0 → ¬formed → exec (.coll o) s = .next (s.trap c g 12 0x0A 0)) ∧
    (c.hyp = 0 → formed → ¬shape → exec (.coll o) s = .next (s.trap c g 12 0x11 0)) ∧
    (c.hyp = 0 → formed → shape → ∃ u c', exec (.coll o) s = .next u ∧ s.OnlyCrew u c c' ∧
      u = { s.unhold c.uid g with crews := u.crews, colls := u.colls, nextId := s.nextId + 2 } ∧
      c.Awaits c' g 12 (some (s.nextId + 1)) o.d.toNat s.nextId id ∧
      u.colls = s.colls ++
        [{ id := s.nextId, ctx := c.ctx, engine := s.dieid c.ctx c.core % 2, crew := c.uid,
           dest := { crew := c.uid, slices := c.gangSlices g, reg := o.d.toNat }, pc := c.gangPc g, block := c.block, td := t,
           lanes := ls.map (fun l => (l, c.rget64 false l o.a.toNat, (c.vget l o.b.toNat).setWidth 10)),
           red := o.op != .put, sw := o.op == .redSw, rows := [], failed := none, sent := false, delivered := 0, out := 0, pool := 0,
           epoch := 0 }])) ∧
  -- CELL and TASK: the checks of their address
  (∀ (i : Instr) (h : XHdr) (a : BitVec 6) (off : BitVec 32),
    ((∃ o : Cell, i = .cell o ∧ h = o.h ∧ a = o.a ∧ off = o.off) ∨ (∃ o : Task, i = .task o ∧ h = o.h ∧ a = o.a ∧ off = o.off)) →
    ∀ (s : State) (uid g : Nat) (c : Crew) (l : Nat), s.Issues uid g c i → c.Leads g h.guard l →
      let va := c.sea (l / 4) a off
      (c.hyp ≠ 0 → exec i s = .next (s.trap c g 12 0x07 0)) ∧
      (c.hyp = 0 → canonical va = false → exec i s = .next (s.trap c g 12 0x05 0)) ∧
      (c.hyp = 0 → canonical va = true → va.toNat % 64 ≠ 0 → exec i s = .next (s.trap c g 12 0x03 0))) ∧
  (∀ (o : Task) (s : State) (uid g : Nat) (c : Crew) (l : Nat), s.Issues uid g c (.task o) → c.Leads g o.h.guard l →
    let va := c.sea (l / 4) o.a o.off
    c.hyp = 0 → canonical va = true → va.toNat % 64 = 0 →
    (s.regsPending c.uid = true → exec (.task o) s = .next s) ∧
    (s.regsPending c.uid = false → ∃ t c', exec (.task o) s = .next t ∧ s.OnlyCrew t c c' ∧
      t = { s.unhold c.uid g with crews := t.crews, launches := t.launches, nextId := s.nextId + 2 } ∧
      c.Awaits c' g 12 (some (s.nextId + 1)) o.d.toNat s.nextId id ∧
      t.launches = s.launches ++ [{ id := s.nextId, ctx := c.ctx, va := va, prio := o.prio,
                                    dest := { crew := c.uid, slices := c.gangSlices g, reg := o.d.toNat } }])) ∧
  -- CELL: a record that cannot be read answers with its cause
  (∀ (o : Cell) (s : State) (uid g : Nat) (c : Crew) (l : Nat) (k : BitVec 8) (w : State), s.Issues uid g c (.cell o) →
    c.Leads g o.h.guard l →
    let va := c.sea (l / 4) o.a o.off
    c.hyp = 0 → canonical va = true → va.toNat % 64 = 0 → s.engReadN c (.copyUnit c.core) c.uid 0 va 64 = .bad k w →
    w.crew? c.uid = some c → ∃ t c', w.OnlyCrew t c c' ∧ c.Awaits c' g 12 (some (w.nextId + 1)) o.d.toNat w.nextId id ∧
      t = { w.unhold c.uid g with crews := t.crews, nextId := w.nextId + 2 } ∧
      t.Ends (exec (.cell o) s) { crew := c.uid, slices := c.gangSlices g, reg := o.d.toNat } w.nextId (wordRule 1 k.toNat 0 false)) ∧
  -- one that can is queued, or answered at once
  (∀ (o : Cell) (s : State) (uid g : Nat) (c : Crew) (l x : Nat) (w : State), s.Issues uid g c (.cell o) → c.Leads g o.h.guard l →
    let va := c.sea (l / 4) o.a o.off
    c.hyp = 0 → canonical va = true → va.toNat % 64 = 0 → s.engReadN c (.copyUnit c.core) c.uid 0 va 64 = .ok x w →
    w.crew? c.uid = some c →
    let r : BitVec 512 := BitVec.ofNat 512 x
    let stack := s.firstDie c.ctx + crStack r
    let dest : StatusTo := { crew := c.uid, slices := c.gangSlices g, reg := o.d.toNat }
    let full := 64 ≤ (w.cmdq.filter fun k => k.stack = stack).length
    let waits := fun (t : State) => ∃ c', w.OnlyCrew t c c' ∧ c.Awaits c' g 12 (some (w.nextId + 1)) o.d.toNat w.nextId id
    (crIll r (w.ctxDies c.ctx) = true → ∃ t, waits t ∧ t = { w.unhold c.uid g with crews := t.crews, nextId := w.nextId + 2 } ∧
      t.Ends (exec (.cell o) s) dest w.nextId (wordRule 4 0 0 false)) ∧
    (crIll r (w.ctxDies c.ctx) = false → w.firstDie c.ctx = s.firstDie c.ctx → full → ∃ t, waits t ∧
      t = { w.unhold c.uid g with crews := t.crews, nextId := w.nextId + 2 } ∧
      t.Ends (exec (.cell o) s) dest w.nextId (wordRule 6 0 0 false)) ∧
    (crIll r (w.ctxDies c.ctx) = false → w.firstDie c.ctx = s.firstDie c.ctx → ¬full → ∃ t, exec (.cell o) s = .next t ∧ waits t ∧
      t = { w.unhold c.uid g with crews := t.crews, nextId := w.nextId + 2, cmdq := w.cmdq ++
        [{ id := w.nextId, ctx := c.ctx, stack := stack, code := crCode r, arg := crArg r, mask := crMask r, clen := crClen r,
           coh := o.coh || crCoh r, ranges := crRanges r, climit := crClimit r, route := .cell dest c.uid, pc := c.gangPc g, sum := 0,
           start := none, halted := 0, held := [], epoch := 0 }] }))

/-- R244, R245, R114, R218, R298, R353, R354: the oldest collective of an engine gathers its rows and sends them once they fit, each
node's bytes in packets of at most 32 flits; data from a peer waits behind its node's earlier data, is refused with its cause or
written and answered; DONE counts every byte, and a FAULT those that became visible. -/
def Obligations.CollectivesTravel : Prop :=
  (∀ (s : State) (op : Nat) (j : CollJob) (c : Crew) (x : Ctx) (rows : List CollRow) (w : State),
    s.colls.find? (·.id == op) = some j → s.crew? j.crew = some c → s.ctx? j.ctx = some x →
    (s.colls.find? fun k => k.engine == j.engine && !k.sent) = some j →
    State.gatherRows c (.coll j.engine) j.id j.td s j.lanes = .ok rows w → w.colls = s.colls →
    (∀ r ∈ rows, r.node ≠ Config.nodeId x.pdev ∧ w.peerOf r.node = none ∧ w.pathSpent 3 r.node r.va.toNat = false) →
    let hold := (j.lanes.length * tdRowBytes j.td + 4095) / 4096 * 4096
    (s.poolFits j.engine j.ctx hold = false → exec (.collSend op) s = .next s) ∧
    (s.poolFits j.engine j.ctx hold = true → ∃ (t : State) (ps : List (BitVec 10 × BitVec 64 × List Byte × Option (BitVec 96))),
      exec (.collSend op) s = .next t ∧
      t = { w with sent := t.sent, pathKeys := t.pathKeys, colls := t.colls } ∧
      t.sent = w.sent ++ ps.map (fun p => Sent.scafa 3 p.1 p.2.1 (.coll j.red j.sw p.2.2.1) p.2.2.2) ∧
      (∀ p ∈ ps, p.2.2.1.length ≤ 2048) ∧
      -- every byte of a row is in a packet for its node and address, and no packet holds another
      (∀ r ∈ rows, ∀ i, i < r.bytes.length → ∃ p ∈ ps, p.1 = r.node ∧
        ∃ q, p.2.1 + BitVec.ofNat 64 q = r.va + BitVec.ofNat 64 i ∧ p.2.2.1[q]? = r.bytes[i]?) ∧
      (ps.map fun p => p.2.2.1.length).sum = (rows.map fun r => r.bytes.length).sum ∧
      t.colls = s.colls.map fun k => if k.id = op then
        { j with rows := rows, failed := none, sent := true, delivered := 0, out := (rows.map fun r => r.bytes.length).sum,
                 pool := if rows = [] then 0 else hold, epoch := t.epochOf j.ctx } else k)) ∧
  (∀ (s : State) (o : CollIn),
    let staged := ((s.inbound.map fun i => match i with
      | .coll q => if collIn q.va = collIn o.va then q.data.length else 0
      | .peer _ | .read _ _ | .write _ _ | .atomic _ _ | .reg _ => 0)).sum
    let refused := fun (t : State) (k : BitVec 8) => ∃ q : State, q = { t with waitq := q.waitq } ∧ q.waitq.Sublist t.waitq ∧
      exec (.collReceive o) s = .next (q.sendScafa 1 o.src o.va.toNat (.refusal k))
    let held := fun (t : State) => exec (.collReceive o) s = .next { t with inbound := t.inbound ++ [.coll o] }
    -- a full pool withholds the channel's credits
    (4 * 2 ^ 20 < staged + o.data.length → exec (.collReceive o) s = .next s) ∧
    (staged + o.data.length ≤ 4 * 2 ^ 20 →
      (∀ t, s.packetIn o.src o.pkt = (false, t) → refused t 0x05) ∧
      (∀ t, s.packetIn o.src o.pkt = (true, t) →
        ((∃ q, .coll q ∈ t.inbound ∧ q.src = o.src) → held t) ∧
        ((∀ q, .coll q ∈ t.inbound → q.src ≠ o.src) →
          (t.ctx? o.ctx = none → refused t 0x05) ∧
          ∀ x, t.ctx? o.ctx = some x →
            (∀ k u, t.aclOk x o.src o.va o.data.length false true = .refused k u → refused u k) ∧
            (∀ u, t.aclOk x o.src o.va o.data.length false true = .wait u → held u) ∧
            ∀ u, t.aclOk x o.src o.va o.data.length false true = .open u →
              (∀ w, u.deliver (collIn o.va) x o.red o.va o.data = .ok w →
                exec (.collReceive o) s = .next (w.sendScafa 1 o.src o.va.toNat (.answer []))) ∧
              (∀ k d w, u.deliver (collIn o.va) x o.red o.va o.data = .bad k d w → refused w k) ∧
              ∀ w, u.deliver (collIn o.va) x o.red o.va o.data = .wait w → held w)))) ∧
  (∀ (s : State) (o : CollDone) (j : CollJob), s.colls.find? (·.id == o.op) = some j →
    (j.sent = false ∨ j.attach.isSome = true → exec (.collComplete o) s = .next s) ∧
    (j.sent = true → j.attach = none →
      let own := Config.nodeId (s.firstDie j.ctx)
      let total := j.lanes.length * tdRowBytes j.td
      let refused := j.sw && ((o.ack.swRefused && decide (j.out ≠ 0)) || j.lanes.any fun l => s.noSwitch own l.2.2)
      let seen := j.delivered + min o.ack.count j.out
      let without : State := { s with colls := s.colls.filter (·.id != j.id) }
      let cause : BitVec 8 := if o.ack.cause ∈ [0x04, 0x05, 0x03, 0x0D, 0x0E] then o.ack.cause else 0x05
      (∀ k, j.failed = some k → without.Ends (exec (.collComplete o) s) j.dest j.id (wordRule 1 k.toNat seen refused)) ∧
      (j.failed = none → (j.out = 0 ∨ o.ack.fault = false) →
        without.Ends (exec (.collComplete o) s) j.dest j.id (wordRule 0 0 total refused)) ∧
      (j.failed = none → j.out ≠ 0 → o.ack.fault = true →
        (if o.ack.cause = 0x0E then without.machineCheck 1 5 0 0 else without).Ends (exec (.collComplete o) s) j.dest j.id
          (wordRule 1 cause.toNat seen refused))))

/-! ## The cellar tier (10 R250 to R266) -/

/-- R259, R260, R262: the register instructions of the cellar processors: 64-bit scalars that wrap, branches in words, and vectors
by element, rounded to nearest even, without flags. -/
def Obligations.AqiufComputesAndBranches : Prop :=
  (∀ d imm, ScalarOp (.cli d imm) d fun _ => BitVec.ofInt 64 imm.toInt) ∧
  (∀ o : Crr, ScalarOp (.cadd o) o.d fun p => p.get o.a + p.opnd o.b) ∧
  (∀ o : Crr, ScalarOp (.csub o) o.d fun p => p.get o.a - p.opnd o.b) ∧
  (∀ o : Crr, ScalarOp (.cand o) o.d fun p => p.get o.a &&& p.opnd o.b) ∧
  (∀ (d a : BitVec 4) (k : BitVec 7), ScalarOp (.cshl d a k) d fun p => BitVec.ofNat 64
    (if 0 ≤ k.toInt then (p.get a).toNat * 2 ^ k.toInt.toNat else (p.get a).toNat / 2 ^ (-k.toInt).toNat)) ∧
  (∀ (cc : CCond) (a b : BitVec 4) (off : BitVec 14) (s : State) (stack proc : Nat) (p : Proc) (k : Cmd),
    s.Runs stack proc p k →
    let x := p.get a
    let y := p.get b
    let taken := match cc with
      | .eq => x = y
      | .ne => x ≠ y
      | .lt => x.toInt < y.toInt
      | .ge => y.toInt ≤ x.toInt
      | .ltu => x.toNat < y.toNat
      | .geu => y.toNat ≤ x.toNat
    (taken → s.Jumps (exec (.cbr cc a b off) s) p p k off.toInt) ∧
    (¬taken → s.Advances (exec (.cbr cc a b off) s) p k fun p' => p' = { p with pc := p'.pc })) ∧
  (∀ (off : BitVec 26) (s : State) (stack proc : Nat) (p : Proc) (k : Cmd), s.Runs stack proc p k →
    s.Jumps (exec (.cjmp off) s) p p k off.toInt) ∧
  (∀ (a : BitVec 4) (off : BitVec 22) (s : State) (stack proc : Nat) (p : Proc) (k : Cmd), s.Runs stack proc p k →
    (p.get a ≠ 1 → ∃ p', p.SetsC p' a (p.get a - 1) ∧ p'.pc = p.pc ∧ s.Jumps (exec (.cloop a off) s) p p' k off.toInt) ∧
    (p.get a = 1 → s.Advances (exec (.cloop a off) s) p k fun p' => p.SetsC p' a 0)) ∧
  (∀ o : Vrr, VectorOp (.vaddf o) o.d 32 16 fun p j => (f32.addV .rne (f32.read (p.el o.a 32 j)) (f32.read (p.el o.b 32 j))).1) ∧
  (∀ o : Vrr, VectorOp (.vaddb o) o.d 16 32 fun p j => (bf16.addV .rne (bf16.read (p.el o.a 16 j)) (bf16.read (p.el o.b 16 j))).1) ∧
  (∀ o : Vrr, VectorOp (.vmulf o) o.d 32 16 fun p j => (f32.mulV .rne (f32.read (p.el o.a 32 j)) (f32.read (p.el o.b 32 j))).1) ∧
  (∀ o : Vrr, VectorOp (.vfmaf o) o.d 32 16 fun p j =>
    (f32.fmaV .rne (f32.read (p.el o.a 32 j)) (f32.read (p.el o.b 32 j)) (f32.read (p.el o.d 32 j))).1) ∧
  (∀ o : Vrr, VectorOp (.vmaxf o) o.d 32 16 fun p j => (minMaxRule f32 true (p.el o.a 32 j) (p.el o.b 32 j)).1) ∧
  (∀ d a : BitVec 3, VectorOp (.vrsqf d a) d 32 16 fun p j => (f32.rsqV .rne (f32.read (p.el a 32 j))).1) ∧
  (∀ o : Vcvt, (∀ wb, o.m = .b wb → VectorOp (.vcvtb o) o.d 16 32 fun p j =>
      (bf16.convert .rne false (f32.read (if j < 16 then p.el o.a 32 j else p.el wb 32 (j - 16)))).1) ∧
    (o.m = .f0 → VectorOp (.vcvtb o) o.d 32 16 fun p j => p.el o.a 16 j |> fun e => (f32.convert .rne false (bf16.read e)).1) ∧
    (o.m = .f1 → VectorOp (.vcvtb o) o.d 32 16 fun p j =>
      p.el o.a 16 (16 + j) |> fun e => (f32.convert .rne false (bf16.read e)).1)) ∧
  (∀ o : Vscal, VectorOp (.vscal o) o.d 32 16 fun p j =>
    (f32.mulV .rne (f32.read (p.el o.a 32 j)) (f32.read ((p.get o.b).toNat % 2 ^ 32))).1) ∧
  (∀ o : Vred, ScalarOp (.vred o) o.d fun p =>
    let xs := (List.range 16).map fun j => p.el o.a 32 j
    BitVec.ofNat 64 (match o.op with
      | .fadd => xs.foldl (fun x y => (f32.addV .rne (f32.read x) (f32.read y)).1) 0x80000000
      | .fmax => xs.foldl (fun x y => (minMaxRule f32 true x y).1) 0xFF800000
      | .iadd => xs.sum % 2 ^ 32)) ∧
  -- the sums, products and roots of the elements, and their conversions
  (∀ (f : FFmt), f = f32 ∨ f = bf16 → ∀ a b c : FV, f.Summed .rne a b (f.addV .rne a b) ∧ f.Multiplied .rne a b (f.mulV .rne a b) ∧
    f.Fused .rne a b c (f.fmaV .rne a b c) ∧ f.Converted .rne false a (f.convert .rne false a)) ∧
  ∀ (x m : Nat) (e : Int), f32.read x = .fin false m e → m ≠ 0 →
    f32.Rounded .rne false false (exactInverseRoot m e) (f32.rsqV .rne (.fin false m e))

/-- R254, R256, R257, R261, R263, R264: Aqiuf memory accesses are checked in their order, the first failure faulting the command,
and then read or write exactly their bytes; transfers and atomics are queued; CSIG, CFENCE and CHALT wait for them. -/
def Obligations.AqiufReachesMemory : Prop :=
  (∀ o : Cld, CellarLoads (.cld o) o.a o.off o.loc (match o.size with
      | .b _ => 1 | .h _ => 2 | .w _ => 4 | .d => 8) fun p x p' => p.SetsC p' o.d (cldRule o.size x)) ∧
  (∀ o : Cst, CellarStores (.cst o) o.a o.off o.loc (match o.size with
      | .b => 1 | .h => 2 | .w => 4 | .d => 8) fun p => (p.get o.b).toNat) ∧
  (∀ o : Vmem, CellarLoads (.vld o) o.a o.off o.loc 64 fun p x p' =>
    p' = { p with pc := p'.pc, w := p'.w } ∧ p'.vget o.w = BitVec.ofNat 512 x ∧ ∀ m, m ≠ o.w → p'.vget m = p.vget m) ∧
  (∀ o : Vmem, CellarStores (.vst o) o.a o.off o.loc 64 fun p => (p.vget o.w).toNat) ∧
  (∀ (o : Cldx) (s : State) (stack proc : Nat) (p : Proc) (k : Cmd), s.Runs stack proc p k →
    let l := (p.get o.d).toNat
    let va := p.get o.a
    let n := (p.get o.b).toNat
    let run := exec (.cldx o) s
    (n = 0 → s.Advances run p k fun p' => p' = { p with pc := p'.pc }) ∧
    (n ≠ 0 → ¬k.Declares va.toNat n → s.CmdFails run k 5 va) ∧
    (n ≠ 0 → k.Declares va.toNat n → (l % 64 ≠ 0 ∨ va.toNat % 64 ≠ 0 ∨ n % 64 ≠ 0) → s.CmdFails run k 3 va) ∧
    (n ≠ 0 → k.Declares va.toNat n → l % 64 = 0 → va.toNat % 64 = 0 → n % 64 = 0 → 0x40000 < l + n → s.CmdFails run k 5 va) ∧
    (n ≠ 0 → k.Declares va.toNat n → l % 64 = 0 → va.toNat % 64 = 0 → n % 64 = 0 → l + n ≤ 0x40000 →
      ∀ x, s.ctx? k.ctx = some x →
      -- the first block that fails its checks
      (∀ j bs c d e, j < n / 64 → s.SpanOk p x va l (64 * j) o.out bs →
        s.cellarTo (.cellar p.stack p.proc) x (va + BitVec.ofNat 64 (64 * j)) o.out = .bad c d e → s.CmdFails run k c.toNat va d e) ∧
      ∀ bs, s.SpanOk p x va l n o.out bs →
        let free := p.transfers.length < 8 ∧ ∀ t ∈ p.transfers, (o.out = true ∨ t.out = true) → ∀ q ∈ t.blocks, q.moved = false →
          ∀ b ∈ bs, s.blockLoc b + 64 ≤ s.blockLoc q ∨ s.blockLoc q + 64 ≤ s.blockLoc b
        (¬free → run = .next s) ∧
        (free → (s.procDone p).Advances run p k fun p' =>
          p' = { p with pc := p'.pc, transfers := p.transfers ++
            [{ loc := l, va := va, out := o.out, blocks := bs, epoch := s.epochOf k.ctx }] }))) ∧
  (∀ (o : Catom) (s : State) (stack proc : Nat) (p : Proc) (k : Cmd), s.Runs stack proc p k →
    let op := match o.op with
      | .add => AtomOp.add | .add64 => .add64 | .fadd => .fadd | .maxs => .maxs | .mins => .mins | .exch => .exch
      | .exch64 => .exch64
    let n := if o.op = .add64 ∨ o.op = .exch64 then 8 else 4
    let va := p.get o.a + BitVec.ofInt 64 o.off.toInt
    s.CellarStops (exec (.catom o) s) p k va n true ∧
    ∀ loc key, s.CellarReach p k va n true loc key → ∃ w : State, w = { s.procDone p with atomq := s.atomq ++
          [{ loc := loc, key := key, ctx := k.ctx, run := 0, op := op, b := p.get o.b, src := .proc p.stack p.proc o.d.toNat,
             epoch := s.epochOf k.ctx, va := va }] } ∧
        w.Advances (exec (.catom o) s) p k fun p' => p' = { p with pc := p'.pc, atoms := p.atoms + 1 }) ∧
  (∀ (a : BitVec 4) (s : State) (stack proc : Nat) (p : Proc) (k : Cmd), s.Runs stack proc p k →
    let drained := p.transfers = [] ∧ p.atoms = 0
    (p.signalled = true → s.Advances (exec (.csig a) s) p k fun p' => p' = { p with pc := p'.pc }) ∧
    (p.signalled = false → ¬drained → exec (.csig a) s = .next s) ∧
    (p.signalled = false → drained → ∃ w : State, ∃ k' : Cmd, k' = { k with sum := k'.sum } ∧
      k'.sum.toNat = (k.sum.toNat + (p.get a).toNat % 2 ^ 48) % 2 ^ 48 ∧ w.cmd? k.id = some k' ∧
      w = { s with cmds := w.cmds } ∧ (∀ j ∈ s.cmds, j.id ≠ k.id → j ∈ w.cmds) ∧
      w.Advances (exec (.csig a) s) p k' fun p' => p' = { p with pc := p'.pc, signalled := true })) ∧
  (∀ (s : State) (stack proc : Nat) (p : Proc) (k : Cmd), s.Runs stack proc p k →
    let drained := p.transfers = [] ∧ p.atoms = 0
    (drained → s.Advances (exec .cfence s) p k fun p' => p' = { p with pc := p'.pc }) ∧
    (¬drained → exec .cfence s = .next s)) ∧
  (∀ (s : State) (stack proc : Nat) (p : Proc) (k : Cmd), s.Runs stack proc p k → p.proc < 32 →
    let drained := p.transfers = [] ∧ p.atoms = 0
    (p.signalled = false ∧ ¬drained ∨ p.atoms ≠ 0 ∨ (∃ t ∈ p.transfers, s.transferHeld p t = true) → exec .chalt s = .next s) ∧
    (p.signalled = true ∨ drained → p.atoms = 0 → (∀ t ∈ p.transfers, s.TransferFree p t) →
      ∃ (v w : State) (k' : Cmd), Chain State.TransferStep s p.transfers v ∧
      k' = { k with halted := k'.halted } ∧
      (∀ j, k'.halted.getLsbD j = true ↔ k.halted.getLsbD j = true ∨ j = p.proc) ∧
      w = { v with cmds := w.cmds, procs := s.procs.filter fun q => !(q.stack == p.stack && q.proc == p.proc) } ∧
      w.cmd? k.id = some k' ∧ (∀ j ∈ s.cmds, j.id ≠ k.id → j ∈ w.cmds) ∧
      (k'.halted ≠ k.mask → exec .chalt s = .next w) ∧
      (k'.halted = k.mask → ∃ t, exec .chalt s = .next t ∧ w.CmdStopped t k' 0 0 0)))

/-- R117, R253, R258, R261, R265: a command starts when its processors are free, each with its code, rank, argument and count;
transfers deliver their bytes; the atomic unit applies one operation; a command past its limit is stopped with TIMEOUT. -/
def Obligations.CellarUnitsAct : Prop :=
  (∀ (s : State) (stack : Nat) (k : Cmd), s.cmdq.find? (fun j => j.stack == stack) = some k →
    let run := exec (.cellarCommandStart stack) s
    ((∃ q ∈ s.procs, q.stack = stack ∧ k.mask.getLsbD q.proc = true) → run = .next s) ∧
    ((∀ q ∈ s.procs, q.stack = stack → k.mask.getLsbD q.proc = false) →
      ∀ dest crew x gs w, k.route = .cell dest crew → s.ctx? k.ctx = some x →
      let procs := (List.range 32).filter fun j => k.mask.getLsbD j
      let ag : Agent := .cellar stack (procs.headD 0)
      -- what a coherent command holds: the granules of its ranges, as first translated
      (k.coh = false ∧ gs = [] ∨ k.coh = true ∧ k.held = [] ∧ s.rangeGranules ag x k.ranges = .ok gs ∨
        k.coh = true ∧ k.held ≠ [] ∧ gs = k.held) →
      let s1 : State := { s with cmdq := s.cmdq.map fun q => if q.id = k.id then { q with held := gs } else q }
      s1.recallLines (s1.linesIn gs) = (none, w) →
      let word := fun (i loc key : Nat) => ∃ q, w.cellarTo ag x (k.code + BitVec.ofNat 64 (4 * i)) false = .ok loc key q
      (∀ i, i < k.clen → ∃ loc key, word i loc key ∧ w.storeBad (loc / 128) = false) →
      ∃ t ps, run = .next t ∧
        t = { w with cmdq := w.cmdq.filter (fun j => j.id != k.id), procs := w.procs ++ ps,
                     cmds := w.cmds ++ [{ k with start := some w.reftime, held := gs,
                                                 epoch := if k.epoch = 0 then w.epochOf k.ctx else k.epoch }] } ∧
        ps.map Proc.proc = procs ∧
        ∀ (r : Nat) (p : Proc), ps[r]? = some p →
          p = { p with stack := k.stack, cmd := k.id, w := [], pc := 0, signalled := false, transfers := [], atoms := 0 } ∧
          p.get 0 = BitVec.ofNat 64 r ∧ p.get 1 = k.arg ∧ p.get 2 = BitVec.ofNat 64 ps.length ∧ (∀ n, 3 ≤ n → p.get n = 0) ∧
          (∀ j, 4 * k.clen ≤ j → mget 0 p.loc j = 0) ∧
          ∀ i loc key, i < k.clen → word i loc key → p.localAt (4 * i) 4 = w.rawRead loc 4 key)) ∧
  (∀ (s : State) (stack proc idx : Nat) (p : Proc) (t : Transfer), s.proc? stack proc = some p → p.transfers[idx]? = some t →
    let run := exec (.cldxTransferComplete stack proc idx) s
    (s.transferHeld p t = true → run = .next s) ∧
    (s.TransferFree p t →
      (t.out = false → (∀ b ∈ t.blocks, b.moved = true → b.data.length = 64) → ∃ u p', run = .next u ∧ u = { s with procs := u.procs } ∧
        u.proc? stack proc = some p' ∧ p' = { p with loc := p'.loc, transfers := p.transfers.eraseIdx idx } ∧
        -- bytes that have not reached local store yet do so now
        (∀ m b i, t.blocks[m]? = some b → i < 64 → mget 0 p'.loc (t.loc + 64 * m + i) =
          if b.put.getLsbD i then mget 0 p.loc (t.loc + 64 * m + i)
          else if b.moved then b.data.getD i 0
          else BitVec.ofNat 8 (s.rawRead (s.blockLoc b) 64 b.key / 2 ^ (8 * i))) ∧
        ∀ j, (j < t.loc ∨ t.loc + 64 * t.blocks.length ≤ j) → mget 0 p'.loc j = mget 0 p.loc j) ∧
      (t.out = true → ∃ (w u : State) (p' : Proc), Chain State.BlockStep s t.blocks w ∧ run = .next u ∧ u = { w with procs := u.procs } ∧
        u.proc? stack proc = some p' ∧ p' = { p with transfers := p.transfers.eraseIdx idx }))) ∧
  (∀ (s : State) (idx : Nat) (r : AtomReq), s.atomq[idx]? = some r →
    let run := exec (.atomicUnitOperation idx) s
    let loc := s.forward r.loc
    let n := atomBytes r.op
    let after := fun (w : State) => atomRule r.op (w.rawRead loc n r.key) (r.b.toNat % 2 ^ (8 * n))
    let waits := s.homeHolds r.src.agent loc = true ∨
      ∃ q ∈ s.atomq.take idx, q.arrived = true ∧ s.forward q.loc / 128 = loc / 128
    -- it waits its turn behind those that arrived before it
    (waits → r.arrived = true → run = .next s) ∧
    (waits → r.arrived = false → ∃ u a b, run = .next u ∧ u = { s with atomq := a ++ { r with arrived := true } :: b } ∧
      (∀ q ∈ a, q.arrived = true) ∧ (∀ q ∈ b, q.arrived = false) ∧ (a ++ b).Perm (s.atomq.eraseIdx idx)) ∧
    (¬waits → loc % n = 0 →
      (∀ stack proc d p, r.src = .proc stack proc d → s.proc? stack proc = some p →
        (s.storeBad (loc / 128) = true → ∀ k, s.cmd? p.cmd = some k → s.CmdFails run k 0x0D r.va) ∧
        (s.storeBad (loc / 128) = false → ∃ (w u : State) (p' : Proc), s.Puts w loc n r.key (after s) ∧ run = .next u ∧
          u = { w with atomq := s.atomq.eraseIdx idx, procs := u.procs } ∧ u.proc? stack proc = some p' ∧
          p' = { p with c := p'.c, atoms := p.atoms - 1 } ∧
          ∀ j, mget 0 p'.c j = if j = d then BitVec.ofNat 64 (s.rawRead loc n r.key) else mget 0 p.c j)) ∧
      (∀ crew gang v, r.src = .crew crew gang → s.recallLine (loc / 128) (s.rto r.ctx) = (true, v) → v.forward r.loc = loc →
        v.storeBad (loc / 128) = false →
        ∃ w u : State, v.Puts w loc n r.key (after v) ∧ run = .next u ∧ u = { w with atomq := v.atomq.eraseIdx idx }))) ∧
  (∀ (s : State) (id : Nat) (k : Cmd) (t0 : Nat), s.cmd? id = some k → k.start = some t0 →
    (k.climit ≠ 0 → t0 + k.climit.toNat ≤ s.reftime →
      ∃ t, exec (.climitExpiry id) s = .next t ∧ s.CmdStopped t k 1 0x0E 0) ∧
    ((k.climit = 0 ∨ s.reftime < t0 + k.climit.toNat) → exec (.climitExpiry id) s = .next s))

/-! ## Control registers, traps and returns (15 R310, R311; 16 R317, R318; 17 R326 to R342) -/

/-- R129, R310, R317, R318, R329, R334, R342: control registers are read and written field by field, by privileged crews; TLBINV
drops what it covers, QSTAT tells the least epoch in flight, HALT resets the context. -/
def Obligations.PrivilegedRegistersReadAndWrite : Prop :=
  (∀ (o : Csr) (s : State) (uid g : Nat) (c : Crew) (x : Ctx) (p : PDev), s.Issues uid g c (.csrr o) → s.ctx? c.ctx = some x →
    s.pdevOf c.ctx = some p →
    let n := o.n.toNat
    (¬s.CsrAllowed c n → exec (.csrr o) s = .next (s.trap c g (CHdr.bytes o.h) 0x02 0)) ∧
    (s.CsrAllowed c n → csrRule s c x p n = none → exec (.csrr o) s = .next (s.trap c g (CHdr.bytes o.h) 0x01 0)) ∧
    (∀ fs, s.CsrAllowed c n → csrRule s c x p n = some fs → (∀ f ∈ fs, f.2.2 < 2 ^ f.2.1) →
      ((∀ l, ¬c.Takes g o.h.guard l) → s.CrewTo (exec (.csrr o) s) c fun c' => c.Passed c' g (CHdr.bytes o.h) id) ∧
      ((∃ l, c.Takes g o.h.guard l) → ∃ w : BitVec 64,
        s.CrewTo (exec (.csrr o) s) c (fun c' => c.SetsPair c' g (CHdr.bytes o.h) o.d.toNat w) ∧
        (∀ f ∈ fs, w.extractLsb' f.1 f.2.1 = BitVec.ofNat f.2.1 f.2.2) ∧
        ∀ j, (∀ f ∈ fs, j < f.1 ∨ f.1 + f.2.1 ≤ j) → w.getLsbD j = false))) ∧
  (∀ (o : Csr) (s : State) (uid g : Nat) (c : Crew) (x : Ctx), s.Issues uid g c (.csrw o) → s.ctx? c.ctx = some x →
    let n := o.n.toNat
    let run := exec (.csrw o) s
    let len := CHdr.bytes o.h
    (¬s.CsrAllowed c n → run = .next (s.trap c g len 0x02 0)) ∧
    (s.CsrAllowed c n → ¬csrWritable n → run = .next (s.trap c g len 0x01 0)) ∧
    (s.CsrAllowed c n → csrWritable n → (∀ l, ¬c.Takes g o.h.guard l) → s.CrewTo run c fun c' => c.Passed c' g len id) ∧
    (∀ i, s.CsrAllowed c n → c.LeadSlice g o.h.guard i →
      let w := c.sget64 i o.d.toNat
      let onCrew := fun (f : Crew → Crew) => ∃ t, run = .next t ∧ s.CsrWritten t c g len f id id s.ports s.ras
      let onCtx := fun (f : Ctx → Ctx) => ∃ t, run = .next t ∧ s.CsrWritten t c g len id f id s.ports s.ras
      let onDev := fun (f : PDev → PDev) => ∃ t, run = .next t ∧ s.CsrWritten t c g len id id f s.ports s.ras
      let onRas := fun (r : Ras) => ∃ t, run = .next t ∧ s.CsrWritten t c g len id id id s.ports r
      (n = 0x001 → onCtx fun x => { x with age := w.extractLsb' 32 16 }) ∧
      (∀ d q, n = 0x010 + d → d < 8 → x.phases[d]? = some q → onCtx fun x =>
        { x with phases :=
          x.phases.set d { q with next := w.extractLsb' 0 16, quota := if q.quota = 0 then w.extractLsb' 0 16 else q.quota } }) ∧
      (n = 0x100 → w.getLsbD 6 = false → onCtx fun x => { x with rgnIdx := w.extractLsb' 0 6 }) ∧
      (n = 0x100 → w.getLsbD 6 = true → x.rgnBusy = false → x.rgnGo = none →
        onCtx fun x => { x with rgnIdx := w.extractLsb' 0 6, rgnGo := some (w.extractLsb' 0 6) }) ∧
      (n = 0x100 → w.getLsbD 6 = true → (x.rgnBusy = true ∨ x.rgnGo.isSome = true) → onCtx id) ∧
      (n = 0x101 → onCtx fun x => { x with migK := w.extractLsb' 0 4, migSrc := w.extractLsb' 12 36 }) ∧
      (n = 0x102 → onCtx fun x => { x with migDst := w.extractLsb' 12 36 }) ∧
      (n = 0x103 → w.getLsbD 0 = true → (w.getLsbD 1 = true ∨ x.migBusy = true ∨ x.migGo = true) → onCtx id) ∧
      (n = 0x103 → w.getLsbD 0 = true → w.getLsbD 1 = false → x.migBusy = false → x.migGo = false →
        onCtx fun x => { x with migSlot := w.extractLsb' 6 4, migGo := true }) ∧
      (n = 0x103 → w.getLsbD 0 = false →
        onCtx fun x => { x with migSlot := w.extractLsb' 6 4, migRetire := x.migRetire || w.getLsbD 1 }) ∧
      (n = 0x200 → onCrew fun c => { c with tvec := w.extractLsb' 2 62 }) ∧
      (n = 0x205 → onCrew fun c => { c with waddr := w }) ∧
      (n = 0x206 → onCrew fun c => { c with wrd := w.getLsbD 0, wwr := w.getLsbD 1, wk := w.extractLsb' 2 6 }) ∧
      (n = 0x210 → onDev fun p =>
        { p with fqLog2n := w.extractLsb' 0 4, fqEn := w.getLsbD 4, fqVec := w.extractLsb' 5 7, fqPa := w.extractLsb' 12 36 }) ∧
      (n = 0x212 → onDev fun p => { p with fqCons := w }) ∧
      (n = 0x213 → onDev fun p => if w.extractLsb' 32 2 = 3 then p else { p with fresp := some (w.extractLsb' 0 32, w.extractLsb' 32 2) }) ∧
      (n = 0x214 → onDev fun p =>
        { p with peCtx := w.extractLsb' 0 10, peReq := w.extractLsb' 10 2, peSave := w.extractLsb' 21 27,
                 peGo := if w.getLsbD 12 = true ∧ p.peBusy = false ∧ p.peGo = none ∧ w.extractLsb' 10 2 ≠ 0 then
                   some (w.extractLsb' 0 10, w.extractLsb' 10 2, w.extractLsb' 21 27) else p.peGo }) ∧
      (∀ k, n = 0x300 + k → k < 16 → ∃ f, onDev f ∧ ∀ p, f p = { p with hwin := (f p).hwin } ∧
        ∀ j, mget { en := false, wr := false, ns := false, hbase := 0 } (f p).hwin j =
          if j = k then { en := w.getLsbD 0, wr := w.getLsbD 1, ns := w.getLsbD 2, hbase := w.extractLsb' 12 52 }
          else mget { en := false, wr := false, ns := false, hbase := 0 } p.hwin j) ∧
      (n = 0x311 → onDev fun p => { p with scto := w.extractLsb' 0 32 }) ∧
      (n = 0x312 → onDev fun p => { p with cectl := w.extractLsb' 0 5 }) ∧
      (∀ k q, n = 0x320 + k → s.ports[k]? = some q → k < 12 → ∃ t, run = .next t ∧ s.CsrWritten t c g len id id id
        (s.ports.set k { q with err := q.err && !w.getLsbD 5 }) s.ras) ∧
      (n = 0x401 → onRas { s.ras with valid := s.ras.valid && !w.getLsbD 0, ovf := s.ras.ovf && !w.getLsbD 1,
                                      ce := w.extractLsb' 16 32 }) ∧
      (n = 0x403 → onDev fun p => { p with xto := w.extractLsb' 0 32 }) ∧
      (n = 0x404 → onRas { s.ras with watts := w.extractLsb' 0 12 }))) ∧
  (∀ (o : Tlbinv) (s : State) (uid g : Nat) (c : Crew), s.Issues uid g c (.tlbinv o) →
    let run := exec (.tlbinv o) s
    let len := CHdr.bytes o.h
    let priv := ∃ x, s.ctx? c.ctx = some x ∧ x.priv = true
    (¬priv → run = .next (s.trap c g len 0x02 0)) ∧
    (priv → (∀ l, ¬c.Takes g o.h.guard l) → s.CrewTo run c fun c' => c.Passed c' g len id) ∧
    (∀ i, priv → c.LeadSlice g o.h.guard i →
      let base := (c.sget64 i o.a.toNat).toNat
      let n := (c.sget i o.b.toNat).toNat
      (n ≠ 0 → base % 4096 ≠ 0 → run = .next (s.trap c g len 0x03 0)) ∧
      let pending := ∃ r ∈ s.regs, r.crew = c.uid ∨ ∃ q ∈ r.more, q.1 = c.uid
      (n = 0 ∨ base % 4096 = 0 → pending → run = .next s) ∧
      (n = 0 ∨ base % 4096 = 0 → ¬pending → ∃ t c', run = .next t ∧ s.OnlyCrew t c c' ∧
        c.Passed c' g len id ∧ t = { s with crews := t.crews, tlb := t.tlb, ptrs := t.ptrs } ∧
        t.ptrs = s.ptrs.filter (fun p => p.ctx != c.ctx) ∧
        ∀ e, e ∈ t.tlb ↔ e ∈ s.tlb ∧ (e.ctx ≠ c.ctx ∨ n ≠ 0 ∧
          let size := 2 ^ (12 + (e.leaf.extractLsb' 4 4).toNat)
          let page := e.va.toNat / size * size
          (base + n * 4096 ≤ page ∨ page + size ≤ base))))) ∧
  (∀ (o : Qstat) (s : State) (uid g : Nat) (c : Crew) (p : PDev) (adv : Bool) (i : Instr),
    i = (if adv then .qstatAdv o else .qstat o) → s.Issues uid g c i → s.pdevOf c.ctx = some p →
    let len := CHdr.bytes o.h
    let priv := ∃ x, s.ctx? c.ctx = some x ∧ x.priv = true
    (¬priv → exec i s = .next (s.trap c g len 0x02 0)) ∧
    (priv → (∀ l, ¬c.Takes g o.h.guard l) → s.CrewTo (exec i s) c fun c' => c.Passed c' g len id) ∧
    (priv → (∃ l, c.Takes g o.h.guard l) → ∃ t c' w, exec i s = .next t ∧ s.OnlyCrew t c c' ∧ c.SetsPair c' g len o.d.toNat w ∧
      t = { s with crews := t.crews, pdevs := t.pdevs } ∧
      (adv = false → t.pdevs = s.pdevs ∧ w.toNat ≤ p.epoch.toNat ∧ (∀ e ∈ s.epochsHeld p.first, w.toNat ≤ e.toNat) ∧
        (w = p.epoch ∨ w ∈ s.epochsHeld p.first)) ∧
      (adv = true → w = p.epoch + 1 ∧ ∀ d, t.pdev? d = if d = p.first then some { p with epoch := p.epoch + 1 } else s.pdev? d))) ∧
  (∀ (o : Halt) (s : State) (uid g : Nat) (c : Crew), s.Issues uid g c (.halt o) →
    (¬s.TrapAllowed c → exec (.halt o) s = .next (s.trap c g (CHdr.bytes o.h) 0x02 0)) ∧
    (s.TrapAllowed c → (∀ l, ¬c.Takes g o.h.guard l) →
      s.CrewTo (exec (.halt o) s) c fun c' => c.Passed c' g (CHdr.bytes o.h) id) ∧
    (s.TrapAllowed c → (∃ l, c.Takes g o.h.guard l) → ∃ t, exec (.halt o) s = .next t ∧
      s.ForcedReset t c.ctx 3 (BitVec.ofNat 64 o.code.toNat)))

/-- R326 to R330, R332, R333, R337, R340, R366: a trap saves the crew's frame and sends its slices to TVEC, or leaves the crew faulted
with a record for the driver, or, in trap mode, resets the context, with a machine check of the place of an error that it carries;
TRAPRET restores the slices by its mode. -/
def Obligations.TrapsAreTakenAndReturn : Prop :=
  (∀ (s : State) (uid g n : Nat) (c : Crew) (info : TrapInfo), s.crew? uid = some c →
    -- an earlier late fault of the crew was found first and decides (R327)
    let found := c.late.getD info
    let gang := if c.late.isSome then c.lateGang else g
    let driver := found.cause = 0x04 ∨ found.cause = 0x0D ∨ found.cause = 0x0E ∨ c.tvec = 0
    let t := s.takeTrap uid g n info
    let m := s.trapping c found
    (c.tm = true → m.ForcedReset t c.ctx 2 0) ∧
    (c.tm = false → driver → (∃ p, s.pdevOf c.ctx = some p ∧ p.fqEn = true) → s.Faulted t c found) ∧
    (c.tm = false → driver → (∀ p, s.pdevOf c.ctx = some p → p.fqEn = false) → m.ForcedReset t c.ctx 4 0) ∧
    (c.tm = false → ¬driver → canonical (c.tvec ++ (0 : BitVec 2)) = false → m.ForcedReset t c.ctx 2 0) ∧
    (c.tm = false → ¬driver → canonical (c.tvec ++ (0 : BitVec 2)) = true → s.EntersTrap t c gang n found)) ∧
  (∀ (o : TrapRet) (s : State) (uid g : Nat) (c : Crew), s.Issues uid g c (.trapret o) →
    let run := exec (.trapret o) s
    let len := CHdr.bytes o.h
    (¬s.TrapAllowed c → run = .next (s.trap c g len 0x02 0)) ∧
    (s.TrapAllowed c → c.tm = false → run = .next (s.trap c g len 0x01 0)) ∧
    (c.tm = true → (∀ l, ¬c.Takes g o.h.guard l) → s.CrewTo run c fun c' => c.Passed c' g len id) ∧
    (∀ f, c.tm = true → (∃ l, c.Takes g o.h.guard l) → c.frame = some f → f.slices.length = c.slices.length →
      let part := fun i => f.slices.getD i
        { pc := 0, active := 0, stack := [], gang := 0, wait := .none, region := { ent := 0, mask := 0, stack := [], tag := 0 } }
      let kept := fun (x : Slice) (st : List DivEntry) => st.map fun (e : DivEntry) => { e with mask := e.mask &&& ~~~x.exited }
      let back := fun (P : Crew → Prop) => s.CrewTo run c fun c' =>
        (c.held = true → c'.preempted = true ∧ c'.held = false ∧ c'.tm = false ∧ c'.mask = false ∧ c'.frame = none) ∧
        (c.held = false → c' = { c with slices := c'.slices, tm := false, mask := false, frame := none, turn := c'.turn,
                                        late := c'.late, stopped := c'.stopped } ∧
          P { c with slices := c'.slices } )
      ((o.m = .reg ∨ c.trap.late = true) → back fun c' =>
        c.SlicesTo c' (fun i x =>
          let r := (part i).region
          if x.live then { x with pc := r.ent, active := r.mask &&& ~~~x.exited, stack := kept x r.stack, wait := .none, la := [],
                                  slate := [], vlate := [], lateHit := false, region := r }
          else { x with region := r }) ∧
        c'.Grouped fun i j => (part i).region.tag = (part j).region.tag) ∧
      (o.m ≠ .reg → c.trap.late = false → back fun c' =>
        c.SlicesTo c' (fun i x =>
          let r := part i
          let y := { x with active := r.active &&& ~~~x.exited, stack := kept x r.stack, region := r.region, la := [] }
          if !x.live then { x with region := r.region }
          else if o.m = .next ∧ r.gang = f.gang then { y with pc := c.trap.epc + BitVec.ofNat 64 f.len, wait := .none }
          -- an arrival at a phase stands and a SLEEP keeps its deadline; another wait begins again (log 28)
          else { y with pc := r.pc, wait := match r.wait with
            | .phase d n k => .phase d n k
            | .sleep d => .sleep d
            | .none | .regang _ | .barwait _ _ _ | .waitany _ => .none }) ∧
        c'.Grouped fun i j => (part i).gang = (part j).gang))) ∧
  (∀ (o : TrapMsk) (s : State) (uid g : Nat) (c : Crew), s.Issues uid g c (.trapmsk o) →
    let run := exec (.trapmsk o) s
    let len := CHdr.bytes o.h
    (¬s.TrapAllowed c → run = .next (s.trap c g len 0x02 0)) ∧
    (s.TrapAllowed c → (∀ l, ¬c.Takes g o.h.guard l) → s.CrewTo run c fun c' => c.Passed c' g len id) ∧
    (s.TrapAllowed c → (∃ l, c.Takes g o.h.guard l) → s.CrewTo run c fun c' =>
      (c.held = false ∨ o.n = true → c.Passed c' g len fun k => { k with mask := o.n }) ∧
      (c.held = true → o.n = false → c'.preempted = true ∧ c'.held = false ∧ c'.mask = false)))

/-! ## The trellis, records and contexts (02 R26 to R33; 15 R293 to R309; 08 R191, R202, R206, R211) -/

/-- R26 to R29, R94, R171, R191, R202, R206, R211, R295 to R309, R326: the steps of the trellis, the hub and the crews that no word
encodes: admission of blocks, launches, join counters and the end of records, cellar tasks, host signals and attached collectives,
packets, registrations, timers, late traps and orphans. -/
def Obligations.RecordsAreServed : Prop :=
  -- device agents go to the homes
  (∀ (s : State) (ag : Agent) (x : Ctx) (va : BitVec 64) (n loc key : Nat), s.AgentReach ag x va n false loc key →
    ∃ t, s.agentRead ag x va n = .ok (lineGet (s.homeVal (loc / 128) key) (loc % 128) n) t ∧ s.OnlyCopies t (loc / 128) key) ∧
  (∀ (s : State) (ag : Agent) (x : Ctx) (va : BitVec 64) (n v loc key : Nat), s.AgentReach ag x va n true loc key →
    ∃ t, s.agentWrite ag x va n v = .ok 0 t ∧ s.HomePuts t loc n key v) ∧
  -- LATE_TRAP
  (∀ (s : State) (uid : Nat) (c : Crew) (info : TrapInfo), s.crew? uid = some c → c.stopped = true → c.late = some info →
    exec (.lateTrap ⟨uid⟩) s = .next (s.takeTrap uid c.lateGang 0 info)) ∧
  -- ORPHAN_REDIRECTION with a handler: all lanes left go there in one gang and a new region
  (∀ (s : State) (uid : Nat) (c : Crew) (h : BitVec 8), s.crew? uid = some c → c.orphan = some h → c.faulted = none →
    c.preempted = false → c.saved = false → c.hxh ≠ 0 →
    ∃ t c', exec (.orphanRedirection ⟨uid⟩) s = .next t ∧ s.OnlyCrew t c c' ∧
      t = { s with crews := t.crews, nextId := s.nextId + 1, waitq := s.waitq.filter fun w => w.crew ≠ uid } ∧
      c' = { c with hyp := h, orphan := none, slices := c'.slices, turn := c'.turn } ∧ c'.Grouped (fun _ _ => True) ∧
      ∀ (i : Nat) (y y' : Slice), c.slices[i]? = some y → c'.slices[i]? = some y' → y.live = true →
        y' = { y with pc := c.hxh, active := ~~~y.exited, stack := [], wait := .none, gang := y'.gang, regctr := y.regctr + 1,
                      region := { ent := c.hxh, mask := ~~~y.exited, stack := [], tag := s.nextId } }) ∧
  -- SLEEP_EXPIRY and EVENT_TIMER
  (∀ (s : State) (uid g d : Nat) (c : Crew), s.crew? uid = some c →
    (∀ (i : Nat) (y : Slice), c.slices[i]? = some y → c.inGang g i = true → y.wait = .sleep d) →
    ∃ t c', exec (.sleepExpiry ⟨uid, g⟩) s = .next t ∧ s.OnlyCrew t c c' ∧ t = { s with crews := t.crews } ∧
      c' = { c with slices := c'.slices } ∧ c'.slices.length = c.slices.length ∧
      ∀ (i : Nat) (y y' : Slice), c.slices[i]? = some y → c'.slices[i]? = some y' →
        y' = if c.inGang g i ∧ d ≤ s.dieTime (c.core / 32) then { y with wait := .none } else y) ∧
  (∀ (s : State) (uid e : Nat) (c : Crew) (v : EvSlot), s.crew? uid = some c → c.slots[e]? = some v → e < 8 → v.bound = true →
    v.kind = 4 → ∃ t c', exec (.eventTimer ⟨uid, e⟩) s = .next t ∧ s.OnlyCrew t c c' ∧ t = { s with crews := t.crews } ∧
      c' = { c with pend := c'.pend } ∧
      ∀ j, j < 8 → (c'.pend.getLsbD j = true ↔ c.pend.getLsbD j = true ∨ j = e ∧ v.obj.toNat ≤ s.dieTime (c.core / 32))) ∧
  -- U_REGISTRATION at a home on this device: the L1 joins the line's record, or starts it from the value in DRAM
  (∀ (s : State) (idx : Nat) (r : Reg), s.regs[idx]? = some r → r.node = none → s.homeHolds .trellis (r.line * 128) = false →
    (∀ u, s.uline? r.line = some u → u.op = r.op → u.key = r.key → ∃ t u', exec (.uRegistration idx) s = .next t ∧
      t = { s with regs := s.regs.filter (fun q => q != r), ulines := t.ulines } ∧ t.uline? r.line = some u' ∧
      u' = { u with l1s := u'.l1s } ∧ (∀ k, k ∈ u'.l1s ↔ k ∈ u.l1s ∨ k = r.core) ∧
      ∀ l, l ≠ r.line → t.uline? l = s.uline? l) ∧
    (s.uline? r.line = none → ∃ t, exec (.uRegistration idx) s = .next t ∧
      t = { s with regs := s.regs.filter (fun q => q != r), ulines := t.ulines, caches := t.caches, mem := t.mem,
                   lineKey := t.lineKey, poison := t.poison } ∧ t.anyPlain r.line = false ∧
      (s.MemOk → t.MemOk ∧ ∀ e, s.dirtyOf r.line = some e → t.dramLine r.line e.key = e.data) ∧
      t.uline? r.line = some { line := r.line, op := r.op, home := t.dramLine r.line r.key, dirty := false, key := r.key,
                               l1s := [r.core], nodes := [], groups := [], back := [], bad := t.storeBad r.line } ∧
      ∀ l, l ≠ r.line → t.uline? l = s.uline? l)) ∧
  -- HYP_SCRUB_COMPLETE
  (∀ (s : State) (id n : Nat) (x : Ctx), s.ctx? id = some x → 0 < n → n ≤ 255 → (x.hypOf (BitVec.ofNat 8 n)).st = .discarding →
    (∀ c ∈ s.crews, c.ctx = id → c.hyp = BitVec.ofNat 8 n → c.exited = true) →
    ∃ t x', exec (.hypScrubComplete ⟨id, n⟩) s = .next t ∧ t = { s with caches := t.caches, ctxs := t.ctxs } ∧
      t.ctx? id = some x' ∧ x.HypsBut x' (fun h => h = BitVec.ofNat 8 n) ∧ (x'.hypOf (BitVec.ofNat 8 n)).st = .free ∧
      (∀ e, e ∈ t.caches ↔ e ∈ s.caches ∧ ¬(e.ctx = id ∧ e.hyp = BitVec.ofNat 8 n)) ∧ ∀ k, k ≠ id → t.ctx? k = s.ctx? k) ∧
  -- a launch (R302)
  (∀ (s : State) (ctx : Nat) (va : BitVec 64) (prio : BitVec 2),
    (s.ctx? ctx = none → ∃ d, s.launch ctx va prio = .done 4 d { s with draws := s.draws + 1 }) ∧
    (∀ x, s.ctx? ctx = some x → x.dead = true → s.launch ctx va prio = .done 4 0x07 s) ∧
    (∀ x, s.ctx? ctx = some x → x.dead = false → (canonical va = false ∨ va.toNat % 64 ≠ 0) →
      ∃ d, s.launch ctx va prio = .done 4 d { s with draws := s.draws + 1 }) ∧
    (∀ x loc v t, s.ctx? ctx = some x → x.dead = false → canonical va = true → va.toNat % 64 = 0 → s.recLoc x va = .ok loc →
      s.agentRead .trellis x va 64 = .ok v t →
      let rcd : BitVec 512 := BitVec.ofNat 512 v
      let st := (rcd.extractLsb' 224 3).toNat
      let join := (rcd.extractLsb' 192 32).toInt
      let busy := (s.runAt x va loc).isSome = true ∨ (1 ≤ st ∧ st ≤ 3)
      (busy → s.launch ctx va prio = .done 5 0 t) ∧
      (¬busy → t.recIll x rcd = true → ∃ d, s.launch ctx va prio = .done 4 d { t with draws := t.draws + 1 }) ∧
      (¬busy → t.recIll x rcd = false → 65536 ≤ (t.runs.filter fun r => r.ctx == ctx).length → s.launch ctx va prio = .done 6 0 t) ∧
      (¬busy → t.recIll x rcd = false → (t.runs.filter fun r => r.ctx == ctx).length < 65536 →
        (0 < join ∨ rcd.extractLsb' 320 64 = 0 ∧ (rcd.extractLsb' 227 3).toNat ≠ 3) →
        ∀ k w, { t with nextId := t.nextId + 1 }.recStep x va (fun j _ => (j, if join ≤ 0 then 2 else 1)) = .ok k w →
        ∃ r, s.launch ctx va prio = .done 0 0 { w with runs := w.runs ++ [r] } ∧
          FreshRun r t.nextId x.id va rcd prio (if join ≤ 0 then some t.reftime else none) ∧
          (t.runs.length < 2 ^ 32 → ∀ q ∈ t.runs, q.gridid ≠ r.gridid)))) ∧
  -- RECORD_LAUNCH, LAUNCH and PACKET_NOP
  (∀ (s : State) (idx : Nat) (q : Launch), s.launches[idx]? = some q →
    (∀ code d t, s.launch q.ctx q.va q.prio = .done code d t →
      State.Ends { t with launches := t.launches.filter fun l => l.id != q.id } (exec (.recordLaunch idx) s) q.dest q.id
        (wordRule code.toNat (if code = 1 then d.toNat else 0) 0 false)) ∧
    (∀ t, s.launch q.ctx q.va q.prio = .wait t → exec (.recordLaunch idx) s = .next t)) ∧
  (∀ (s : State) (x : Ctx) (n : Nat) (q : Queue) (p : BitVec 128) (t : State), s.NextPacket x n q p t →
    let reserved := p.extractLsb' 78 38 ≠ 0
    let op := (p.extractLsb' 64 4).toNat
    (op = 0 → ¬reserved → ∀ code d u, t.launch x.id (p.extractLsb' 0 64) q.pri = .done code d u →
      u.PacketEnds (exec (.launch ⟨x.id, n⟩) s) x n q p code.toNat d) ∧
    (op = 1 → ¬reserved → t.PacketEnds (exec (.packetNop (.launch x.id n)) s) x n q p 0 0) ∧
    (1 < op ∨ reserved → t.PacketEnds (exec (.packetNop (.launch x.id n)) s) x n q p 4 1)) ∧
  -- DOORBELL
  (∀ (s : State) (x : Ctx) (n v : Nat) (q : Queue) (t : State), s.bar0.boot = 3 → s.ctx? x.id = some x → x.queues[n]? = some q →
    s.agentRead .trellis x q.door 8 = .ok v t → t.ctxs = s.ctxs →
    ∃ u, exec (.doorbell ⟨x.id, n⟩) s = .next u ∧ u = { t with ctxs := u.ctxs } ∧ (∀ id, id ≠ x.id → u.ctx? id = t.ctx? id) ∧
      u.ctx? x.id = some
        { x with queues := x.queues.set n (if 0 < (BitVec.ofNat 64 v - q.rd).toInt then { q with wr := BitVec.ofNat 64 v } else q) }) ∧
  -- BLOCK_ADMISSION
  (∀ (s w : State) (r : Run) (x : Ctx) (ps : List BlockPlace), s.run? r.uid = some r → s.ctx? r.ctx = some x → s.coreHead r = true →
    diesOk r.rcd ps = true →
    ps.length = (if rcKind r.rcd = 0 then 1 else ((r.rcd.extractLsb' 313 4).toNat + 1) * ((r.rcd.extractLsb' 317 3).toNat + 1)) →
    State.placeBlocks x r s r.nextBlk ps = some w →
    ∃ t, t = { w with runs := t.runs } ∧ t.RunTo w r.uid (fun q => { q with nextBlk := q.nextBlk + ps.length }) ∧
      (r.running = true → exec (.blockAdmission ⟨r.uid, ps⟩) s = .next t) ∧
      -- with its first block the record becomes RUNNING; while its line must wait nothing is placed
      (r.running = false → ∀ k u, t.recStep x r.va (fun j _ => (j, 3)) = .ok k u → ∃ v, exec (.blockAdmission ⟨r.uid, ps⟩) s = .next v ∧
        v = { u with runs := v.runs } ∧ v.RunTo u r.uid fun q => { q with running := true }) ∧
      (r.running = false → ∀ u, t.recStep x r.va (fun j _ => (j, 3)) = .wait u →
        exec (.blockAdmission ⟨r.uid, ps⟩) s = .next (s.keepWaits u))) ∧
  (∀ (s w : State) (r : Run) (x : Ctx) (n : Nat) (p : BlockPlace), s.placeBlock x r n p = some w → s.MemOk →
    ∃ b cs, w.blocks = s.blocks ++ [b] ∧ BlockStarts b r p.core n ∧ b.scrOff = p.scrKiB * 1024 ∧ w.crews = s.crews ++ cs ∧
      cs.length = (r.rcd.extractLsb' 288 5).toNat + 1 ∧ (∀ (i : Nat) (c : Crew), cs[i]? = some c → CrewStarts c r b i ∧
        c.dieId = p.core / 32 - s.firstDie r.ctx ∧ p.crews[i]? = some (c.sched, c.slot, c.regOff / 1024)) ∧
      w = { s with blocks := w.blocks, crews := w.crews, cores := w.cores, icache := w.icache, mem := w.mem, nextId := w.nextId,
                   ras := w.ras, draws := w.draws } ∧
      -- a stopped clock runs again (R364)
      w.ras = { s.ras with mhz := w.ras.mhz } ∧ (∀ k, k ≠ p.core → mget 1400 w.ras.mhz k = mget 1400 s.ras.mhz k) ∧
      (mget 1400 s.ras.mhz p.core ≠ 0 → w.ras = s.ras ∧ w.draws = s.draws) ∧
      (mget 1400 s.ras.mhz p.core = 0 → 350 ≤ mget 1400 w.ras.mhz p.core ∧ mget 1400 w.ras.mhz p.core ≤ 1400) ∧
      w.MemOk ∧ (∀ a, w.readMem a 1 =
        if scratchAddr p.core b.scrOff ≤ a ∧ a < scratchAddr p.core b.scrOff + b.scrSize then 0 else s.readMem a 1) ∧
      (∀ k, k ≠ p.core → w.core k = s.core k) ∧ (w.core p.core).lastCtx = some x.id ∧
      ((s.core p.core).lastCtx ≠ some x.id → (w.core p.core).tags = [] ∧ (w.core p.core).acc = [] ∧ (w.core p.core).mail = [] ∧
        (w.core p.core).accBad = [] ∧ (w.core p.core).mailBad = [] ∧ ∀ q ∈ (w.core p.core).subs, q.valid = false)) ∧
  -- RECORD_FINISH: the parent first, once, then DONE
  (∀ (s t v w : State) (r : Run) (x : Ctx) (k k' : Nat), s.run? r.uid = some r → s.ctx? r.ctx = some x → s.runOver r = true →
    ((r.told = true ∨ rcParent r.rcd = 0) ∧ t = s ∨ r.told = false ∧ rcParent r.rcd ≠ 0 ∧
      ∃ q, s.decrement x (rcParent r.rcd) r.va = .ok q ∧ t = q.modRun r.uid fun q => { q with told := true }) →
    t.recStep x r.va (fun j _ => (j, 4)) = .ok k v → v.agentWrite .trellis x (r.va + 56) 8 0 = .ok k' w →
    exec (.recordFinish r.uid) s = .next { w with runs := w.runs.filter fun q => q.uid != r.uid }) ∧
  (∀ (s t : State) (x : Ctx) (va pc : BitVec 64) (loc v : Nat), s.recLoc x va = .ok loc → s.agentRead .trellis x va 64 = .ok v t →
    let rcd : BitVec 512 := BitVec.ofNat 512 v
    let join := rcd.extractLsb' 192 32 - 1
    (∀ q k u, t.runAt x va loc = some q → (q.readyAt.isSome = true ∨ 0 < join.toInt) →
      t.recStep x va (fun j st => (j - 1, st)) = .ok k u → s.decrement x va pc = .ok u) ∧
    -- READY with the fields as they are read now, or with the launch's where a launch would refuse them (log 20)
    (∀ q k u f, t.runAt x va loc = some q → q.readyAt = none → join.toInt ≤ 0 →
      f = (if t.recIll x (rcd &&& ~~~(BitVec.ofNat 512 (2 ^ 227 - 2 ^ 192))) then q.rcd else rcd) → f.extractLsb' 320 64 = 0 →
      (f.extractLsb' 227 3).toNat ≠ 3 → t.recStep x va (fun j _ => (j - 1, 2)) = .ok k u → ∃ w, s.decrement x va pc = .ok w ∧
        w = { u with runs := w.runs } ∧ w.RunTo u q.uid fun y =>
          { y with rcd := f, readyAt := some u.reftime, readyDraw := u.draws, acoll := none, work := none, workDone := false }) ∧
    (t.runAt x va loc = none → ∀ k u, t.recStep x va (fun j st => (j - 1, if st = 1 ∧ join.toInt ≤ 0 then 2 else st)) = .ok k u →
      s.decrement x va pc = .ok u)) ∧
  -- CELLAR_TASK_SUBMIT
  (∀ (s : State) (r : Run) (w : BitVec 512), s.run? r.uid = some r → r.work = some w → r.readyAt.isSome = true → r.submitted = false →
    r.workDone = false → s.served r.ctx = true →
    let stack := s.firstDie r.ctx + (w.extractLsb' 176 3).toNat
    (∀ q ∈ s.runs, q.uid = r.uid ∨ s.wantsStack q ≠ some stack ∨ s.notAfter r q = true) →
    (64 ≤ (s.cmdq.filter fun k => k.stack == stack).length → exec (.cellarTaskSubmit r.uid) s = .next s) ∧
    ((s.cmdq.filter fun k => k.stack == stack).length < 64 → ∃ t k, exec (.cellarTaskSubmit r.uid) s = .next t ∧
      t = { s with runs := t.runs, cmdq := s.cmdq ++ [k], nextId := s.nextId + 1 } ∧ t.run? r.uid = some { r with submitted := true } ∧
      k.id = s.nextId ∧ k.ctx = r.ctx ∧ k.stack = stack ∧ k.code = w.extractLsb' 0 64 ∧ k.arg = w.extractLsb' 64 64 ∧
      k.mask = w.extractLsb' 128 32 ∧ k.clen = (w.extractLsb' 160 15).toNat ∧ k.coh = w.getLsbD 179 ∧
      k.climit = w.extractLsb' 192 64 ∧ k.route = .task r.uid ∧ k.sum = 0 ∧ k.start = none ∧
      k.ranges = (List.range (w.extractLsb' 180 3).toNat).map fun i => w.extractLsb' (256 + 64 * i) 64)) ∧
  -- HOST_SIGNAL
  (∀ (s t u : State) (r : Run) (x : Ctx) (k j : Nat), s.run? r.uid = some r → s.ctx? r.ctx = some x → (r.rcd.extractLsb' 227 3).toNat = 4 →
    r.readyAt.isSome = true → r.workDone = false → s.served r.ctx = true →
    s.agentWrite .trellis x (r.rcd.extractLsb' 0 64) 8 (r.rcd.extractLsb' 384 64).toNat = .ok k t →
    t.recStep x r.va (fun j _ => (j, 3)) = .ok j u → ∃ w, w = { u with runs := w.runs } ∧
      w.RunTo u r.uid (fun q => { q with running := true, workDone := true }) ∧
      exec (.hostSignal r.uid) s = .next (if r.rcd.getLsbD 239 then w.raiseVec (r.rcd.extractLsb' 232 7) else w)) ∧
  -- ATTACHED_COLLECTIVE: it enters its engine, goes chunk by chunk, and ends with its word in STATUS
  (∀ (s : State) (r : Run) (x : Ctx) (d : BitVec 512) (ack : CollAck), s.run? r.uid = some r → s.ctx? r.ctx = some x → r.acoll = some d →
    r.collDone = false → s.workOver r = true → s.bar0.boot = 3 →
    let o := exec (.attachedCollective ⟨r.uid, ack⟩) s
    let node := d.extractLsb' 176 10
    let len := (d.extractLsb' 128 48).toNat
    let red := decide ((d.extractLsb' 186 2).toNat = 1)
    let sw := d.getLsbD 188
    let no := s.noSwitch (Config.nodeId x.pdev) node
    let ill := d.extractLsb' 189 67 ≠ 0 ∨ d.extractLsb' 320 192 ≠ 0 ∨ 2 ≤ (d.extractLsb' 186 2).toNat ∨ (sw = true ∧ red = false) ∨
      (red = true ∧ len % 4 ≠ 0)
    (s.attachJob r.uid = none → ∃ (j : CollJob) (t : State), t = { s with nextId := s.nextId + 1, colls := s.colls ++ [j] } ∧
      j.id = s.nextId ∧ j.ctx = x.id ∧ j.engine = (rcAcoll r.rcd).toNat / 64 % 2 ∧ j.attach = some r.uid ∧ j.sent = false ∧
      j.delivered = 0 ∧ j.word = none ∧ j.refused = false ∧ (ill → t.AttachEnds o x r j (wordRule 4 0 0 false)) ∧
      (¬ill → len = 0 → t.AttachEnds o x r j (wordRule 0 0 0 (sw && no))) ∧ (¬ill → len ≠ 0 → o = .next t)) ∧
    (∀ j, s.attachJob r.uid = some j →
      let n := min (2 ^ 20) (len - j.delivered)
      let more := fun (u : State) (f : CollJob → CollJob) => ∃ w, o = .next w ∧ w = { u with colls := w.colls } ∧
        w.colls = u.colls.map fun k => if k.id = j.id then f k else k
      (∀ w, j.word = some w → s.AttachEnds o x r j w) ∧
      (∀ v t, j.word = none → j.sent = false → s.collTurn j (ceilDiv n 4096 * 4096) = true →
        s.agentReadN (.coll j.engine) x (d.extractLsb' 0 64 + BitVec.ofNat 64 j.delivered) n = .ok v t →
        let row : CollRow := ⟨node, d.extractLsb' 64 64 + BitVec.ofNat 64 j.delivered, toBytes n v⟩
        let into := t.deliverTo (.coll j.engine) x red row
        (∀ u, into = some (.ok u) → len ≤ j.delivered + n → u.AttachEnds o x r j (wordRule 0 0 len (sw && (j.refused || no)))) ∧
        (∀ u, into = some (.ok u) → j.delivered + n < len → more u fun k =>
          { k with delivered := k.delivered + n, sent := false, out := 0, pool := 0, refused := j.refused || no }) ∧
        (∀ c m u, into = some (.bad c m u) → u.AttachEnds o x r j
          (wordRule 1 (BitVec.toNat (if c ∈ [0x03, 0x04, 0x05, 0x0D, 0x0E] then c else 0x05)) (j.delivered + m) (sw && (j.refused || no)))) ∧
        (into = none → t.pathSpent 3 node row.va.toNat = false → more (t.sendOut red sw [row]) fun k =>
          { k with sent := true, out := n, pool := ceilDiv n 4096 * 4096, epoch := t.epochOf k.ctx, refused := k.refused || no })) ∧
      (j.word = none → j.sent = true → ack.fault = false → len ≤ j.delivered + j.out →
        s.AttachEnds o x r j (wordRule 0 0 len (sw && (j.refused || ack.swRefused)))) ∧
      (j.word = none → j.sent = true → ack.fault = false → j.delivered + j.out < len → more s fun k =>
        { k with delivered := k.delivered + j.out, sent := false, out := 0, pool := 0, refused := j.refused || ack.swRefused }) ∧
      (j.word = none → j.sent = true → ack.fault = true → ack.cause ≠ 0x0E → s.AttachEnds o x r j
        (wordRule 1 (BitVec.toNat (if ack.cause ∈ [0x03, 0x04, 0x05, 0x0D] then ack.cause else 0x05)) (j.delivered + min ack.count j.out)
          (sw && (j.refused || ack.swRefused))))))

/-- R290 to R294, R342, R345: management packets: CREATE adds a context whose control block passes its checks, with its phases and
queues; DESTROY removes an idle one; KILL resets it first; others end REFUSED with detail 1. -/
def Obligations.ContextsAreManaged : Prop :=
  (∀ (s t : State) (p : BitVec 128), s.NextManaged p t →
    let op := (p.extractLsb' 64 4).toNat
    let id := p.extractLsb' 68 10
    let reserved := p.extractLsb' 78 38 ≠ 0
    (op = 1 → ¬reserved → s.ManagedEnds t (exec (.packetNop .mgmt) s) p id 0 0) ∧
    (op = 0 ∨ 4 < op ∨ reserved → s.ManagedEnds t (exec (.packetNop .mgmt) s) p id 4 1) ∧
    -- CREATE
    (op = 2 → ¬reserved →
      let free := (List.range 1024).filter fun i => decide (0 < i) && (t.ctx? i).isNone
      let pick := free.getD (Config.freeNat t.draws % free.length) 0
      let made := { t with draws := t.draws + 1 }.newCtx pick (p.extractLsb' 0 64).toNat
      ((p.extractLsb' 0 64).toNat % 64 ≠ 0 → s.ManagedEnds t (exec .create s) p id 4 0x01) ∧
      (∀ d u, made = .refused d u → s.ManagedEnds { u with draws := t.draws } (exec .create s) p id 4 d) ∧
      (∀ k u, made = .bad k u → s.ManagedEnds { u with draws := t.draws } (exec .create s) p id 1 k) ∧
      (∀ u, made = .wait u → exec .create s = .next { u with draws := s.draws }) ∧
      (∀ x u, made = .ok x u → ∃ v : State,
        v = { u with ctxs := u.ctxs ++ [x], pdevs := v.pdevs } ∧
        s.ManagedEnds v (exec .create s) p (BitVec.ofNat 10 x.id) 0 0 ∧ x.id = pick ∧ x.id ≠ 0 ∧ x.dead = false ∧ x.hyps = [] ∧ x.tds = [] ∧
        (x.phases.map Phase.count = List.replicate 8 0) ∧ (∀ d q, x.phases[d]? = some q → q.quota = x.cb.extractLsb' (320 + 16 * d) 16) ∧
        x.queues.length = (x.cb.extractLsb' 288 5).toNat ∧ 0 < x.queues.length ∧ (∀ q ∈ x.queues, q.rd = 0 ∧ q.wr = 0) ∧
        (x.cb.extractLsb' 256 2).toNat ≠ 3 ∧ ∃ pd ∈ v.pdevs, pd.first = x.pdev ∧ pd.dies = modeDies x.mode)) ∧
    -- DESTROY
    (op = 3 → ¬reserved →
      (t.ctx? id.toNat = none → ∃ d, s.ManagedEnds { t with draws := t.draws + 1 } (exec .destroy s) p id 4 d) ∧
      (∀ x, t.ctx? id.toNat = some x → t.ctxBusy x.id = true → s.ManagedEnds t (exec .destroy s) p id 5 0) ∧
      (∀ x, t.ctx? id.toNat = some x → t.ctxBusy x.id = false → ∃ u, s.ManagedEnds u (exec .destroy s) p id 0 0 ∧
        u.ctxs = t.ctxs.filter (fun y => y.id != x.id) ∧ (∀ e ∈ u.caches, ¬(e.hyp ≠ 0 ∧ e.ctx = x.id)) ∧ (∀ e ∈ u.tlb, e.ctx ≠ x.id) ∧
        (∀ e ∈ u.ptrs, e.ctx ≠ x.id) ∧ (∀ w ∈ u.waitq, w.ctx ≠ x.id) ∧ (∀ m ∈ u.mails, m.ctx ≠ x.id) ∧ u.crews = t.crews)) ∧
    -- KILL of a live context
    (op = 4 → ¬reserved → ∀ x, t.ctx? id.toNat = some x → x.dead = false → ∃ u, t.ForcedReset u x.id 0 0 ∧
      (u.ctxBusy x.id = false → ∃ v, s.ManagedEnds v (exec .kill s) p id 0 0 ∧ v.ctxs = u.ctxs.filter fun y => y.id != x.id)))

/-! ## Translation, the fabric, faults and pre-emption (16 R312 to R325; 17 R335 to R343; 18 R350 to R354) -/

/-- R97, R298, R312 to R315, R320 to R325, R350 to R352: walks, region rewrites, page moves and their slots; what peers may do, and
the recalls and contributions of remote copies. -/
def Obligations.PagesAndPeersAct : Prop :=
  -- a walk of five levels, where no pointer entry is kept and the entries of no group differ
  (∀ (s : State) (ag : Agent) (x : Ctx) (va : BitVec 64) (e4 e3 e2 e1 e0 : BitVec 64),
    let index := fun (l : Nat) => va.toNat / 2 ^ (12 + 9 * l) % 512
    let next := fun (e : BitVec 64) => (e.extractLsb' 20 36).toNat * 4096
    let root := (x.cb.extractLsb' 0 64).toNat
    (∀ l, l < 5 → s.keptPtr ag x va l = none) → x.tableBad root 4 = none → x.tableBad (next e4) 4 = none →
    x.tableBad (next e3) 3 = none → x.tableBad (next e2) 2 = none → x.tableBad (next e1) 1 = none →
    s.pte ag (root + 8 * index 4) 4 = .ok e4 → s.pte ag (next e4 + 8 * index 3) 3 = .ok e3 →
    s.pte ag (next e3 + 8 * index 2) 2 = .ok e2 → s.pte ag (next e2 + 8 * index 1) 1 = .ok e1 → s.pte ag (next e1 + 8 * index 0) 0 = .ok e0 →
    s.entryFor va (next e2) 1 e1 = e1 → s.entryFor va (next e1) 0 e0 = e0 → PointerEntry e4 →
    (e3.getLsbD 0 = false → s.walk ag x va = .error (.fault 0x04 0x01 3)) ∧
    (PointerEntry e3 → PointerEntry e2 → PointerEntry e1 → SmallLeaf e0 →
      let size := 2 ^ (12 + (e0.extractLsb' 4 4).toNat)
      leafPa e0 va = next e0 + va.toNat % size ∧
      (physOf (leafPa e0 va) ≠ .none → ∃ path, s.walk ag x va = .ok (e0, 0, path) ∧ path.map PtrEntry.entry = [e4, e3, e2, e1] ∧
        path.map PtrEntry.level = [4, 3, 2, 1] ∧ ∀ p ∈ path, p.ctx = x.id ∧ p.upper = va.toNat % 2 ^ 57 / 2 ^ (12 + 9 * p.level)) ∧
      (physOf (leafPa e0 va) = .none → s.walk ag x va = .error (.fault 0x04 0x03 0)))) ∧
  -- tables that no walk may read (R15, R66), and what an access takes where the entries of a group differ (R313)
  (∀ (s : State) (ag : Agent) (x : Ctx) (va : BitVec 64),
    let root := (x.cb.extractLsb' 0 64).toNat
    (physOf root = .none → s.walk ag x va = .error (.fault 0x04 0x03 4)) ∧
    (∀ p loc, physOf root = .dram p loc → x.ownLoc loc = false → s.walk ag x va = .error (.fault 0x05 0x06 4))) ∧
  (∀ (s : State) (va : BitVec 64) (table l : Nat) (own : BitVec 64),
    let e := s.entryFor va table l own
    e = own ∨ l < 2 ∧ ∃ n, n = (if l = 0 then 256 else 64) ∧ ∃ i, i / n = va.toNat / 2 ^ (12 + 9 * l) % 512 / n ∧
      (e = mget 0 (s.tableEntries table) i ∨ (i, e) ∈ s.tableEntries table)) ∧
  (∀ (s : State) (o : Walk) (x : Ctx), s.ctx? o.ctx = some x → canonical o.va = true → s.tlbHit o.agent x.id o.va = none →
    (∀ leaf level path, s.walk o.agent x o.va = .ok (leaf, level, path) → ∃ t, exec (.pageWalk o) s = .next t ∧
      t = { s with tlb := s.tlb ++ [{ agent := o.agent, ctx := x.id, va := o.va, leaf := leaf, level := level }], ptrs := t.ptrs } ∧
      (∀ p ∈ t.ptrs, p ∈ s.ptrs ∨ p ∈ path) ∧ ((path.map PtrEntry.level).Nodup → ∀ p ∈ path, p ∈ t.ptrs)) ∧
    (∀ k d l, s.walk o.agent x o.va = .error (.fault k d l) → exec (.pageWalk o) s = .next s) ∧
    (s.walk o.agent x o.va = .error .wait → exec (.pageWalk o) s = .next s)) ∧
  -- region rewrites
  (∀ (s t : State) (x : Ctx) (idx : BitVec 6) (v : Nat), s.ctx? x.id = some x → x.rgnGo = some idx →
    s.physRead x.pdev true (x.rtab + 32 * idx.toNat) 32 = .ok v t → t.ctxs = s.ctxs →
    let e : BitVec 256 := BitVec.ofNat 256 v
    let bad := rgKind e = 3 ∨ rgLimit e < rgBase e ∨ ∀ p ∈ apertures, p.code = rgIlv e → x.ownAperture p = false
    ∃ u, exec (.regionRewrite x.id) s = .next u ∧ u = { t with ctxs := u.ctxs, nextId := u.nextId } ∧
      (bad → t.CtxTo u x.id fun y => { y with rgnGo := none, rgnResult := 4 }) ∧
      (¬bad → ∃ new, t.CtxTo u x.id (fun y =>
        { y with rgnGo := none, rgnBusy := true, rgnAct := idx, rgnSeq := t.nextId, rgnNew := new }) ∧
        (e.getLsbD 0 = false → new = 0) ∧ (e.getLsbD 0 = true → new.getLsbD 0 = true ∧ rgBase new = rgBase e ∧
          rgLimit new = rgLimit e ∧ rgKind new = rgKind e ∧ rgKey new = rgKey e ∧ rgIlv new = rgIlv e))) ∧
  (∀ (s : State) (x : Ctx) (segs news : List Seg), s.ctx? x.id = some x → x.rgnBusy = true → s.earlier x.pdev x.rgnSeq = false →
    s.rangeSegs x (mget 0 x.regions x.rgnAct.toNat) = .ok segs → s.rangeSegs x x.rgnNew = .ok news → s.atomq = [] →
    let kind := rgKind (mget 0 x.regions x.rgnAct.toNat)
    let done := fun (u : State) => ∃ t, exec (.regionRewriteComplete x.id) s = .next t ∧ t = { u with ctxs := t.ctxs } ∧
      u.CtxTo t x.id fun y =>
        { y with regions := mput 0 y.regions y.rgnAct.toNat y.rgnNew, rgnBusy := false, rgnResult := 0, rgnNew := 0 }
    -- accesses to either range that are in flight come first (R321 step 2)
    (s.rangeInFlight x = true → exec (.regionRewriteComplete x.id) s = .next s) ∧
    (s.rangeInFlight x = false → kind = 1 → done (s.sweepPhased fun e => e.ctx == x.id && s.lineIn segs e.line)) ∧
    (s.rangeInFlight x = false → kind = 0 → ∀ u, s.recallLines (s.linesWhere (s.lineIn segs)) = (none, u) → done u) ∧
    (s.rangeInFlight x = false → 1 < kind → done s)) ∧
  -- moves
  (∀ (s : State) (x : Ctx), s.ctx? x.id = some x → x.migGo = true →
    let f : Forward := { src := x.migSrc.toNat * 4096, dst := x.migDst.toNat * 4096, k := x.migK.toNat }
    ∃ t, exec (.migrationGo x.id) s = .next t ∧ t = { s with ctxs := t.ctxs, nextId := t.nextId } ∧
      (s.moveIll x x.migSlot.toNat f = true → s.CtxTo t x.id fun y => { y with migGo := false, migResult := 4 }) ∧
      (s.moveIll x x.migSlot.toNat f = false → s.CtxTo t x.id fun y =>
        { y with migGo := false, migBusy := true, migAct := some (x.migSlot.toNat, f), migSeq := s.nextId })) ∧
  (∀ (s t : State) (x : Ctx) (slot : Nat) (f : Forward), s.ctx? x.id = some x → x.migBusy = true → x.migAct = some (slot, f) →
    s.earlier x.pdev x.migSeq = false →
    s.recallLines (s.linesWhere fun l => pageHas f.src f.k (l * 128) || pageHas f.dst f.k (l * 128)) = (none, t) →
    t.MemOk →
    (t.versionsFull f = true → ∃ u, exec (.migrationComplete x.id) s = .next u ∧ u = { t with ctxs := u.ctxs } ∧
      t.CtxTo u x.id fun y => { y with migBusy := false, migResult := 6, migAct := none }) ∧
    (t.versionsFull f = false → (f.lines.map Prod.snd).Nodup → (∀ p ∈ f.lines, ∀ q ∈ f.lines, p.1 ≠ q.2) →
      ∃ u, exec (.migrationComplete x.id) s = .next u ∧ u.MemOk ∧
        u = { t with ctxs := u.ctxs, pdevs := u.pdevs, caches := u.caches, mem := u.mem, lineKey := u.lineKey, poison := u.poison,
                     cmds := u.cmds } ∧
        (t.CtxTo u x.id fun y => { y with migBusy := false, migResult := 0, migAct := none }) ∧
        (t.DevTo u x.pdev fun p => { p with fwd := mset p.fwd slot f }) ∧
        (∀ p ∈ f.lines, ∀ j, j < 128 → u.readMem (p.2 * 128 + j) 1 = t.readMem (p.1 * 128 + j) 1) ∧
        (∀ p ∈ f.lines, mget 0 u.lineKey p.2 = mget 0 t.lineKey p.1 ∧ u.storeBad p.2 = t.storeBad p.1) ∧
        ∀ a, (∀ p ∈ f.lines, a / 128 ≠ p.2) → u.readMem a 1 = t.readMem a 1)) ∧
  (∀ (s : State) (x : Ctx), s.ctx? x.id = some x → x.migRetire = true →
    let used := ∃ p, s.pdev? x.pdev = some p ∧ mhas p.fwd x.migSlot.toNat = true
    ∃ t, exec (.migrationRetire x.id) s = .next t ∧ t = { s with ctxs := t.ctxs, pdevs := t.pdevs } ∧
      (∀ p, s.pdev? x.pdev = some p → ∃ p', t.pdev? x.pdev = some p' ∧ p' = { p with fwd := p'.fwd } ∧
        ∀ j, mfind p'.fwd j = if j = x.migSlot.toNat then none else mfind p.fwd j) ∧
      (used → s.CtxTo t x.id fun y => { y with migRetire := false, migResult := 0 }) ∧
      (¬used → s.CtxTo t x.id fun y => { y with migRetire := false, migResult := 4 })) ∧
  -- packets and peers
  (∀ (s : State) (src : BitVec 10) (p : Packet) (k : PathKey), mfind s.pathKeys src.toNat = some k → k.enc = true → p.replayed = false →
    let slot := p.vc.toNat * 16 + p.port
    let fresh := p.authentic = true ∧ ∀ last, mfind k.recvCtr slot = some last → last.toNat < p.ctr.toNat
    (¬fresh → s.packetIn src p = (false, s)) ∧
    (fresh → ∃ t k', s.packetIn src p = (true, t) ∧ t = { s with pathKeys := t.pathKeys } ∧ mfind t.pathKeys src.toNat = some k' ∧
      k' = { k with recvCtr := k'.recvCtr } ∧ mfind k'.recvCtr slot = some p.ctr)) ∧
  (∀ (s t : State) (o : PeerReq), s.packetIn o.src o.pkt = (false, t) → t.RefusesPeer (exec (.peerRequest o) s) o.src o.va 0x05) ∧
  (∀ (s t : State) (o : PeerReq), s.packetIn o.src o.pkt = (true, t) →
    let out := exec (.peerRequest o) s
    -- in order behind an earlier one of the same source, channel and line (R351)
    ((∃ i ∈ t.inbound, i.ahead (.peer o) = true) → out = .next { t with inbound := t.inbound ++ [.peer o] }) ∧
    ((∀ i ∈ t.inbound, i.ahead (.peer o) = false) →
      (t.ctx? o.ctx = none → t.RefusesPeer out o.src o.va 0x05) ∧
      (∀ x u, t.ctx? o.ctx = some x → t.aclFind x o.src x.acln 0 = .entry none u → u.RefusesPeer out o.src o.va 0x05) ∧
      (∀ x u, t.ctx? o.ctx = some x → t.aclFind x o.src x.acln 0 = .wait u → out = .next { u with inbound := u.inbound ++ [.peer o] }) ∧
      (∀ x e u, t.ctx? o.ctx = some x → x.dead = true → t.aclFind x o.src x.acln 0 = .entry (some e) u →
        u.RefusesPeer out o.src o.va 0x05) ∧
      (∀ x e u, t.ctx? o.ctx = some x → x.dead = false → t.aclFind x o.src x.acln 0 = .entry (some e) u →
        (∀ n, o.kind = .read n →
          (e.getLsbD 36 = false → u.RefusesPeer out o.src o.va 0x05) ∧
          (e.getLsbD 36 = true → n ≤ 2048 → ∀ v w, u.hereReadN .scafa x o.va n = .ok v w →
            ∃ q, out = .next q ∧ w.Sends q 1 o.src o.va.toNat (.answer (toBytes n v)))) ∧
        (∀ d, o.kind = .write d →
          (e.getLsbD 37 = false → u.RefusesPeer out o.src o.va 0x05) ∧
          -- a doorbell word that the entry or the queue does not open to peers
          (∀ (i : Nat) (q : Queue), x.queues[i]? = some q → (q.peer = false ∨ e.getLsbD (20 + i) = false) →
            q.door.toNat < o.va.toNat + d.length → o.va.toNat < q.door.toNat + 8 → u.RefusesPeer out o.src o.va 0x05) ∧
          (e.getLsbD 37 = true → u.doorShut x e o.va d.length = false →
            ∀ v w, u.hereWriteN .scafa x o.va d.length (ofBytes d) = .ok v w →
            ∃ q, out = .next q ∧ w.Sends q 1 o.src o.va.toNat (.answer [])))))) ∧
  (∀ (s m : State) (o : PressRecall), s.packetIn o.home o.pkt = (true, m) →
    let line := remoteLine o.home o.pa
    let found := m.press.find? fun p => p.pdev == o.pdev && p.line == line && p.op == o.op
    (found = none → ∃ t, exec (.scafaPressRecall o) s = .next t ∧
      m.Sends t 2 o.home (o.pa / 128 * 128) (.contribution o.op (uIdentLine o.op))) ∧
    (∀ q, found = some q → ∃ u t : State, exec (.scafaPressRecall o) s = .next t ∧ u = { m with press := u.press, caches := u.caches } ∧
      u.Sends t 2 o.home (o.pa / 128 * 128) (.contribution o.op (m.deviceFold o.op line q.l1s (uIdentLine o.op))) ∧
      (∀ p, p ∈ u.press ↔ p ∈ m.press ∧ p ≠ q) ∧
      ∀ e ∈ u.caches, e ∈ m.caches ∧ ∀ k ∈ q.l1s, ¬(e.line = line ∧ e.st = .u ∧ e.op = some o.op ∧ e.place = .l1 k))) ∧
  (∀ (s m : State) (o : Contribution) (u : ULine), s.packetIn o.node o.pkt = (true, m) → m.uline? o.line = some u → o.node ∈ u.holders →
    (∀ b ∈ u.back, b.1 ≠ o.node) → ∃ t, exec (.scafaContribution o) s = .next t ∧ t = { m with ulines := t.ulines } ∧
      t.uline? o.line = some { u with back := u.back ++ [(o.node, o.data)] } ∧ ∀ l, l ≠ o.line → t.uline? l = m.uline? l) ∧
  (∀ (s : State) (line : Nat), (∃ r ∈ s.recalls, r.line = line ∧ r.expired = false ∧ r.deadline ≤ s.reftime) →
    ∃ m : State, exec (.scafaTimeout line) s = .next (m.machineCheck 1 5 (line / 2 ^ 29) 0) ∧
      m = { s with recalls := s.recalls.map fun (r : Recall) => if r.line = line then { r with expired := true } else r })

/-- R335 to R343: fault records are written in order, answers resume, deliver or kill, and pre-emption goes through its stages, with
its deadlines, to a save that a restore undoes. -/
def Obligations.FaultsAreAnsweredAndContextsPreempted : Prop :=
  (∀ (s t : State) (d : Nat) (p : PDev) (r : RingRec) (rest : List RingRec), s.pdev? d = some p → p.faultQ = r :: rest →
    let size := 2 ^ max 4 p.fqLog2n.toNat
    (p.fqEn = false ∨ (p.fqProd - p.fqCons).toNat = size → exec (.faultRecord d) s = .next s) ∧
    (p.fqEn = true → (p.fqProd - p.fqCons).toNat ≠ size →
      ∀ k, s.physWrite d true (p.fqPa.toNat * 4096 + 64 * (p.fqProd.toNat % size)) 64 (r.bytes (p.fqProd.setWidth 32)).toNat = .ok k t →
      t.crews = s.crews → ∃ u, exec (.faultRecord d) s = .next (u.raiseVec p.fqVec) ∧ u = { t with crews := u.crews, pdevs := u.pdevs } ∧
        (t.DevTo u d fun p => { p with fqProd := p.fqProd + 1, faultQ := rest }) ∧
        ∀ c, r.crew = some c.uid → s.crew? c.uid = some c → u.crew? c.uid = some { c with faultSeq := some (p.fqProd.setWidth 32) }) ∧
    -- a ring on another device cannot be written, and its records wait (R15, log 55)
    (∀ a loc, physOf (p.fqPa.toNat * 4096 + 64 * (p.fqProd.toNat % size)) = .dram a loc → s.onDev d (s.forward loc) = false →
      exec (.faultRecord d) s = .next s)) ∧
  -- the record's bits (R336)
  (∀ (r : RingRec) (seq : BitVec 32), r.ctx < 1024 →
    let b := r.bytes seq
    b.extractLsb' 0 64 = r.val ∧ b.extractLsb' 64 64 = r.pc ∧ b.extractLsb' 128 64 = r.aux ∧ b.extractLsb' 192 32 = seq ∧
    (b.extractLsb' 224 10).toNat = r.ctx ∧ b.extractLsb' 234 2 = r.kind ∧ b.extractLsb' 236 8 = r.cause ∧
    b.extractLsb' 244 8 = r.detail ∧ b.extractLsb' 252 3 = r.level ∧ b.getLsbD 255 = r.mc ∧ b.extractLsb' 256 3 = r.die ∧
    b.extractLsb' 259 5 = r.core ∧ b.extractLsb' 264 5 = r.crewid ∧ b.extractLsb' 269 5 = r.lane ∧ b.extractLsb' 274 6 = 0 ∧
    b.extractLsb' 280 8 = r.sreg ∧ b.extractLsb' 288 224 = 0) ∧
  -- answers (R337)
  (∀ (s : State) (o : Fresp) (p : PDev) (a : BitVec 2) (i : Instr), s.pdev? o.pdev = some p → p.fresp = some (o.seq, a) →
    (i = .frespResume o ∧ a = 0 ∨ i = .frespDeliver o ∧ a = 1 ∨ i = .frespKill o ∧ a = 2) →
    ∃ m, m = { s with pdevs := m.pdevs } ∧ (s.DevTo m o.pdev fun p => { p with fresp := none }) ∧
      (s.pendingFault o.pdev o.seq = none → exec i s = .next m) ∧
      ∀ c k, s.pendingFault o.pdev o.seq = some c → s.crew? c.uid = some c → c.faulted = some k →
        (a = 0 → ∃ t c', exec i s = .next t ∧ m.OnlyCrew t c c' ∧ t = { m with crews := t.crews } ∧
          c' = { c with slices := c'.slices, faulted := none, faultSeq := none, preempted := m.hardStage c.ctx && !c.mask,
                        held := c.held || (m.hardStage c.ctx && c.mask), late := none, stopped := false } ∧ c.AtRegents { c with slices := c'.slices }) ∧
        (a = 1 → c.tvec ≠ 0 → canonical (c.tvec ++ (0 : BitVec 2)) = true → ∃ t c', exec i s = .next t ∧ m.OnlyCrew t c c' ∧
          t = { m with crews := t.crews, draws := m.draws + 1 } ∧ c'.faulted = none ∧ c'.faultSeq = none ∧ c'.trap = k ∧ c'.tm = true ∧
          c'.mask = true ∧ c'.frame.isSome = true ∧ c'.preempted = false ∧ c'.held = m.hardStage c.ctx ∧ c'.v = c.v ∧ c'.p = c.p ∧
          ∀ (j : Nat) (x x' : Slice), c.slices[j]? = some x → c'.slices[j]? = some x' → x.live = true →
            x'.pc = c.tvec ++ (0 : BitVec 2) ∧ x'.active = ~~~x.exited ∧ x'.stack = [] ∧ x'.s = x.s) ∧
        (a = 1 → c.tvec = 0 → ∃ t, exec i s = .next t ∧ m.ForcedReset t c.ctx 5 0) ∧
        (a = 2 → ∃ t, exec i s = .next t ∧ m.ForcedReset t c.ctx 5 0)) ∧
  -- requests (R338 to R340)
  (∀ (s : State) (d : Nat) (p : PDev) (ctx : BitVec 10) (req : BitVec 2) (save : BitVec 27) (i : Instr), s.Requests d p ctx req save →
    (i = .preemptSoft d ∧ req = 1 ∨ i = .preemptHard d ∧ req = 2) →
    ((∀ x, s.ctx? ctx.toNat = some x → x.pdev ≠ d ∨ x.dead = true ∨ x.savedAt.isSome = true) →
      ∃ t, exec i s = .next t ∧ t = { s with pdevs := t.pdevs } ∧ s.DevTo t d fun q => { q with peGo := none, peResult := 4 }) ∧
    (∀ x, s.ctx? ctx.toNat = some x → x.pdev = d → x.dead = false → x.savedAt = none → ∃ m, m = { s with pdevs := m.pdevs } ∧
      (s.DevTo m d fun q => q.begun x.id req save s.reftime) ∧
      (req = 1 → (∃ b ∈ s.blocks, b.ctx = x.id) → (∀ q ∈ s.pdevs, q.first ≠ d → q.peBusy = false) → (s.pdevs.map PDev.first).Nodup →
        ∃ t, exec i s = .next t ∧ t = { m with pdevs := t.pdevs, ctxs := t.ctxs } ∧
        (m.DevTo t d fun q => { q with peStage := 1 }) ∧ m.CtxTo t x.id fun y => { y with stopAdmit := true }) ∧
      (req = 2 → ∃ t, exec i s = .next t ∧ m.HardBegins t d x.id))) ∧
  -- deadlines (R339, R340, R342)
  (∀ (s : State) (d ctx : Nat) (p : PDev) (x : Ctx) (a : BitVec 2 × BitVec 27), s.pdev? d = some p → p.peBusy = true →
    p.peAct = some (ctx, a) → s.ctx? ctx = some x →
    (p.peStage = 1 → p.peStart + x.t1 ≤ s.reftime → ∃ t, exec (.t1Expiry d) s = .next t ∧ s.HardBegins t d x.id) ∧
    (p.peStage = 1 → s.reftime < p.peStart + x.t1 → exec (.t1Expiry d) s = .next s) ∧
    (p.peStage = 2 → s.reftime < p.peStart + x.t2 → exec (.t2Expiry d) s = .next s) ∧
    (p.peStage = 2 → p.peStart + x.t2 ≤ s.reftime → (∃ c ∈ s.crews, c.ctx = x.id ∧ c.preempted = false ∧ (c.faulted = none ∨ c.mask = true) ∧ c.exited = false) →
      ∃ t, exec (.t2Expiry d) s = .next t ∧ s.ForcedReset t x.id 1 0) ∧
    (p.peStage = 2 → p.peStart + x.t2 ≤ s.reftime → (∀ c ∈ s.crews, c.ctx = x.id → c.preempted = true ∨ (c.faulted.isSome = true ∧ c.mask = false) ∨ c.exited = true) →
      ∃ t, exec (.t2Expiry d) s = .next t ∧ (∀ n, (∀ q ∈ (t.core n).mq, q.ctx ≠ x.id) ∧ ∀ j ∈ (t.core n).copies, j.ctx ≠ x.id) ∧
        (∀ j ∈ t.colls, j.ctx ≠ x.id ∨ j.word.isSome = true) ∧ (∀ k ∈ t.cmds, k.ctx ≠ x.id) ∧ ∀ k ∈ t.cmdq, k.ctx ≠ x.id) ∧
    -- the save (R341)
    (∀ w, p.peStage = 2 → (∀ c ∈ s.crews, c.ctx = x.id → c.preempted = true ∨ (c.faulted.isSome = true ∧ c.mask = false) ∨ c.exited = true) →
      s.opsLeft x.id = false → (∀ k ∈ s.ctxCores x.id, x.ownPage (a.2.toNat * 2 ^ 21 + s.saveSlot x.id k * 2 ^ 21) 9 = true) →
      (s.ctxCores x.id).foldlM (fun t k => t.saveCore x.id a.2 k) s = .ok w → w.crews = s.crews → w.blocks = s.blocks →
      ∃ t, exec (.preemptSave d) s = .next t ∧ t = { w with crews := t.crews, blocks := t.blocks, ctxs := t.ctxs, pdevs := t.pdevs } ∧
        (w.CtxTo t x.id fun y => { y with savedAt := some (a.2 ++ (0 : BitVec 21)) }) ∧
        (w.DevTo t d fun q => { q with peBusy := false, peStage := 4, peResult := 0, peAct := none }) ∧
        t.crews = s.crews.map (fun c => if c.ctx = x.id then { c with saved := true, windowSaved := c.window, window := none } else c) ∧
        t.blocks = s.blocks.map fun b => if b.ctx = x.id then { b with saved := true } else b)) ∧
  -- restore (R343)
  (∀ (s : State) (o : Restore) (p : PDev) (ctx : BitVec 10) (save : BitVec 27), s.Requests o.pdev p ctx 3 save →
    ((∀ x, s.ctx? ctx.toNat = some x → x.pdev ≠ o.pdev ∨ x.savedAt ≠ some (save ++ (0 : BitVec 21))) →
      p.peAct = none → ∃ t, exec (.preemptRestore o) s = .next t ∧ t = { s with pdevs := t.pdevs } ∧
        s.DevTo t o.pdev fun q => { q with peGo := none, peResult := 4 }) ∧
    (∀ x, s.ctx? ctx.toNat = some x → x.pdev = o.pdev → x.savedAt = some (save ++ (0 : BitVec 21)) → ∃ m,
      m = { s with pdevs := m.pdevs } ∧ (s.DevTo m o.pdev fun q => q.begun x.id 3 save s.reftime) ∧
      (m.coresOk x o.cores = false → exec (.preemptRestore o) s = .next m) ∧
      (∀ w, m.coresOk x o.cores = true → o.cores.foldlM (fun t q => t.restoreCore x.id save q) m = .ok w → w.crews = s.crews →
        ∃ t, exec (.preemptRestore o) s = .next t ∧ (w.CtxTo t x.id fun y => { y with savedAt := none, stopAdmit := false }) ∧
          (w.DevTo t o.pdev fun q => { q with peBusy := false, peStage := 0, peResult := 0, peAct := none }) ∧
          (∀ k ∈ t.savedCores, k.ctx ≠ x.id) ∧ t.crews.length = s.crews.length ∧
          ∀ (j : Nat) (c c' : Crew), s.crews[j]? = some c → t.crews[j]? = some c' →
            (c.ctx ≠ x.id → c' = c) ∧
            (c.ctx = x.id → c'.saved = false ∧ c'.preempted = false ∧ c'.window = c.windowSaved ∧ c'.v = c.v ∧ c'.p = c.p ∧
              c'.hyp = c.hyp ∧ c'.tm = c.tm ∧ c'.faulted = c.faulted ∧ c'.pend &&& c.pend = c.pend ∧
              ∀ (l : Nat) (y y' : Slice), c.slices[l]? = some y → c'.slices[l]? = some y' → y'.s = y.s ∧ y'.region = y.region ∧
                (c.faulted = none → y.live = true → y'.pc = y.region.ent)))))

/-! ## Host link, security and reset (18 R344 to R359; 19 R360 to R362) -/

/-- R344 to R346, R349, R360 to R362: what the host does through BAR2 and BAR0, MSI-X, firmware and resets. -/
def Obligations.HostRequestsAndResetsAct : Prop :=
  -- BAR2
  (∀ (s : State) (o : HostRead) (loc key : Nat), s.HostReach o.off o.len loc key → ∃ t u, exec (.hostRead o) s = .next t ∧
    s.OnlyCopies u (loc / 128) key ∧ t = { u with sent := s.sent ++
      [.hostReply (toBytes o.len (lineGet (s.homeVal (loc / 128) key) (loc % 128) o.len)) (u.poisoned (loc / 128))] }) ∧
  (∀ (s : State) (o : HostWrite) (loc key : Nat), s.HostReach o.off o.data.length loc key →
    ∃ t, exec (.hostWrite o) s = .next t ∧ s.HomePuts t loc o.data.length key (ofBytes o.data)) ∧
  (∀ (s : State) (o : HostAtomic) (loc key n : Nat), n = hostAtomBytes o.op → o.off.toNat % n = 0 → s.HostReach o.off n loc key →
    let old := lineGet (s.homeVal (loc / 128) key) (loc % 128) n
    ∃ t u, exec (.hostAtomic o) s = .next t ∧ s.HomePuts u loc n key (hostAtomRule o.op old) ∧
      t = { u with sent := s.sent ++ [.hostReply (toBytes n old) (u.poisoned (loc / 128))] }) ∧
  (∀ (s : State) (o : HostAtomic), o.off.toNat % hostAtomBytes o.op ≠ 0 →
    exec (.hostAtomic o) s = .next { s with sent := s.sent ++ [.hostAbort] }) ∧
  -- the host's requests keep their order, each with the address and slot it came with (R346)
  (∀ (s : State) (off : BitVec 39), ¬s.LinkFree →
    let h : HostAt := ⟨(s.bar0.b2off.toNat * 4096 + off.toNat) % 2 ^ 39, s.bar0.hkey.toNat⟩
    let waits := fun (i : Instr) (q : Inbound) => exec i s = .next { s with inbound := s.inbound ++ [q] }
    (∀ n, waits (.hostRead ⟨off, n⟩) (.read ⟨off, n⟩ h)) ∧ (∀ d, waits (.hostWrite ⟨off, d⟩) (.write ⟨off, d⟩ h)) ∧
    (∀ op, off.toNat % hostAtomBytes op = 0 → waits (.hostAtomic ⟨off, op⟩) (.atomic ⟨off, op⟩ h)) ∧
    (∀ v, waits (.mqdoor v) (.reg ⟨8, v, false⟩)) ∧ ∀ o, s.bar0.boot ≠ 5 → waits (.registerWrite o) (.reg o)) ∧
  (∀ (s : State) (i : Instr), s.LinkFree → s.erasing ≠ some s.bar0.hkey.toNat → s.bar0.hkey ≠ 0 → (∀ k, mfind s.keys s.bar0.hkey.toNat = some k → k.nohost = true) →
    ((∃ o, i = .hostRead o) ∨ (∃ o, i = .hostWrite o) ∨ ∃ o, i = .hostAtomic o) →
    exec i s = .next { s with sent := s.sent ++ [.hostAbort] }) ∧
  -- vectors
  (∀ (s : State) (v : BitVec 7),
    (s.bar0.msixMask.getLsbD v.toNat = false → s.raiseVec v = { s with sent := s.sent ++ [.msix v] }) ∧
    (s.bar0.msixMask.getLsbD v.toNat = true → ∃ p, s.raiseVec v = { s with bar0 := { s.bar0 with msixPending := p } } ∧
      ∀ j, p.getLsbD j = (s.bar0.msixPending.getLsbD j || decide (j = v.toNat)))) ∧
  (∀ (s : State) (v : BitVec 7), s.LinkFree → ∃ t m p, exec (.msixUnmask v) s = .next t ∧
    t = { s with bar0 := { s.bar0 with msixMask := m, msixPending := p },
                 sent := s.sent ++ if s.bar0.msixPending.getLsbD v.toNat then [.msix v] else [] } ∧
    ∀ j, m.getLsbD j = (s.bar0.msixMask.getLsbD j && decide (j ≠ v.toNat)) ∧
      p.getLsbD j = (s.bar0.msixPending.getLsbD j && decide (j ≠ v.toNat))) ∧
  -- registers of BAR0
  (∀ (s : State) (v : BitVec 64), s.LinkFree →
    let wr := fun (off : BitVec 26) => exec (.registerWrite ⟨off, v, false⟩) s
    let is := fun (b : Bar0) => (Host.Outcome.next { s with bar0 := b } : Out)
    exec (.mqdoor v) s = is { s.bar0 with mqWr := v } ∧
    wr 0x000000 = is { s.bar0 with mqLog2n := v.extractLsb' 0 5, mqPa := v.extractLsb' 12 36 } ∧
    wr 0x000008 = exec (.mqdoor v) s ∧ wr 0x000010 = .next s ∧
    wr 0x000018 = is { s.bar0 with b2off := v.extractLsb' 12 27 } ∧
    wr 0x000020 = is { s.bar0 with hkey := v.extractLsb' 0 12 } ∧
    wr 0x000028 = is { s.bar0 with mcvec := v.extractLsb' 0 7 } ∧
    wr 0x001008 = is { s.bar0 with fwaddr := v.extractLsb' 0 48 } ∧
    wr 0x001010 = exec (.partcfgWrite v) s ∧
    wr 0x200000 = is { s.bar0 with smcmd := v.extractLsb' 8 31 } ∧
    wr 0x200008 = is { s.bar0 with smVec := v.extractLsb' 5 7, smBusy := s.bar0.smBusy || v.getLsbD 0 } ∧
    (v.getLsbD 1 = true → wr 0x001000 = exec .bootctlReset s) ∧
    (v.getLsbD 1 = false → v.getLsbD 0 = true → s.bar0.boot = 1 ∨ s.bar0.boot = 4 → wr 0x001000 = is { s.bar0 with boot := 2 }) ∧
    (v.getLsbD 1 = false → (v.getLsbD 0 = true → s.bar0.boot ≠ 1 ∧ s.bar0.boot ≠ 4) → wr 0x001000 = .next s) ∧
    (∀ i, i < 128 → let off : BitVec 26 := BitVec.ofNat 26 (0x100000 + 16 * i)
      ∃ t, wr off = .next t ∧ t = { s with bar0 := { s.bar0 with msixTable := t.bar0.msixTable } } ∧
        ∀ j, mget 0 t.bar0.msixTable j =
          if j = i then (mget 0 s.bar0.msixTable i).extractLsb' 64 32 ++ v else mget 0 s.bar0.msixTable j) ∧
    (∀ i, i < 128 → let off : BitVec 26 := BitVec.ofNat 26 (0x100008 + 16 * i)
      ∃ t, t = { s with bar0 := { s.bar0 with msixTable := t.bar0.msixTable, msixMask := t.bar0.msixMask } } ∧
        (∀ j, mget 0 t.bar0.msixTable j =
          if j = i then v.extractLsb' 0 32 ++ (mget 0 s.bar0.msixTable i).extractLsb' 0 64 else mget 0 s.bar0.msixTable j) ∧
        (v.getLsbD 32 = true → wr off = .next t ∧ ∀ j, t.bar0.msixMask.getLsbD j = (s.bar0.msixMask.getLsbD j || decide (j = i))) ∧
        (v.getLsbD 32 = false → t.bar0.msixMask = s.bar0.msixMask ∧ wr off = exec (.msixUnmask (BitVec.ofNat 7 i)) t)) ∧
    (∀ off : BitVec 26, off.toNat % 8 ≠ 0 → wr off = .next s) ∧
    ∀ off : BitVec 26, 0x200008 < off.toNat ∨ (0x001010 < off.toNat ∧ off.toNat < 0x100000) → wr off = .next s) ∧
  (∀ (s : State) (off : BitVec 26) (v old : BitVec 64), s.LinkFree → off.toNat % 8 = 0 → old = s.bar0.read off.toNat →
    exec (.registerWrite ⟨off, v, true⟩) s =
      exec (.registerWrite ⟨off, old.extractLsb' 32 32 ++ v.extractLsb' 0 32, false⟩) s ∧
    exec (.registerWrite ⟨off + 4, v, true⟩) s =
      exec (.registerWrite ⟨off, v.extractLsb' 0 32 ++ old.extractLsb' 0 32, false⟩) s) ∧
  (∀ (s : State) (v : BitVec 64), s.LinkFree →
    let size := fun d => v.toNat / 2 ^ (2 * d) % 4
    let good := s.ctxs = [] ∧ ∀ d e, d < 8 → e < 8 → e / 2 ^ size d = d / 2 ^ size d → size e = size d
    (good → exec (.partcfgWrite v) s = .next { s with bar0 := { s.bar0 with partcfg := v.setWidth 16, partRefused := false } }) ∧
    (¬good → exec (.partcfgWrite v) s = .next { s with bar0 := { s.bar0 with partRefused := true } })) ∧
  -- reset
  (∀ s : State, exec .bootctlReset s = exec .deviceReset s ∧ ∃ t, exec .deviceReset s = .next t ∧
    t = { State.reset with mem := t.mem, lineKey := s.lineKey, poison := s.poison.filter (· < 2 ^ 32), draws := s.draws, nextId := s.nextId,
                           agenda := s.agenda, resets := s.resets + 1, ras := t.ras, sent := s.sent } ∧
    (s.MemOk → t.MemOk ∧ ∀ a, t.readMem a 1 = if a < 2 ^ 39 then s.readMem a 1 else 0) ∧
    (1 ≤ s.resets → t.deviceKey ≠ s.deviceKey) ∧
    t.ras = { Ras.reset with spares := t.ras.spares, failed := t.ras.failed, degr := t.ras.degr } ∧
    (∀ k ∈ t.ras.failed, k ∈ s.ras.failed) ∧
    (∀ d, d < 8 → mget 2 s.ras.spares d = 0 → ∀ k ∈ s.ras.failed, k / 32 = d → k ∈ t.ras.failed) ∧
    ∀ d, d < 8 → (t.ras.degr.getLsbD d = true ↔ ∃ k ∈ t.ras.failed, k / 32 = d)) ∧
  -- firmware
  (∀ s : State, s.bar0.boot ≠ 1 → s.bar0.boot ≠ 2 → s.bar0.boot ≠ 4 → exec .firmwareVerify s = .next s) ∧
  (∀ (s t : State) (h : Nat), s.bar0.boot = 1 ∨ s.bar0.boot = 2 ∨ s.bar0.boot = 4 →
    s.hostReadN s.deviceKey s.bar0.fwaddr.toNat 4096 = .ok h t → t.deviceKey = s.deviceKey →
    let len := h / 2 ^ 64 % 2 ^ 32
    let siglen := h / 2 ^ 14528 % 2 ^ 16
    let pub := toBytes 1793 (h / 2 ^ 128)
    let refuses := fun (u : State) (d : BitVec 8) =>
      exec .firmwareVerify s = .next { u with bar0 := { u.bar0 with boot := 4, bootDetail := d } }
    let shape := t.hostBad s.bar0.fwaddr.toNat 4096 = false ∧ h % 2 ^ 32 = 0x5A464C56 ∧ 1 ≤ len ∧ len ≤ 64 * 2 ^ 20 ∧ siglen ≤ 1280
    let signer := Config.shake512 pub = Config.keyHash
    let svn := Config.svnMin.toNat ≤ h / 2 ^ 32 % 2 ^ 32
    (¬shape → refuses t 1) ∧ (shape → ¬signer → refuses t 2) ∧ (shape → signer → ¬svn → refuses t 3) ∧
    (shape → signer → svn → ∀ p u, t.hostReadN s.deviceKey (s.bar0.fwaddr.toNat + 4096) len = .ok p u →
      let m := Config.shake512 (toBytes 1816 h ++ toBytes len p)
      let holds := u.hostBad (s.bar0.fwaddr.toNat + 4096) len = false ∧ Config.falconVerify pub (toBytes 64 m.toNat) (toBytes siglen (h / 2 ^ 14544)) = true
      (¬holds → refuses u 4) ∧
      (holds → exec .firmwareVerify s = .next { u with
        fwm := Config.shake512 (toBytes 4096 h ++ toBytes len p), firmware := toBytes len p, bar0 := { u.bar0 with boot := 3, bootDetail := 0 } })))

/-- R355 to R359: the commands of the security mailbox. The layout of their operands is open (log 21). -/
def Obligations.SecurityCommandsAct : Prop :=
  (∀ (s : State) (i : Instr), s.erasing = none → s.bar0.smBusy = false ∨ s.bar0.boot ≠ 3 →
    i = .attest ∨ i = .certs ∨ i = .session ∨ i = .keyload ∨ i = .keyerase ∨ i = .pathkey → exec i s = .next s) ∧
  -- no other command runs while a slot is being erased
  (∀ (s : State) (i : Instr), s.erasing.isSome = true → i = .attest ∨ i = .certs ∨ i = .session ∨ i = .keyload ∨ i = .pathkey →
    exec i s = .next s) ∧
  ∀ (s t : State) (key op : Nat) (o : SmOperands), s.SmRuns t key op o →
    (op ≠ 0 → op ≤ 5 → exec .attest s = .next s) ∧ (op ≠ 1 → exec .certs s = .next s) ∧ (op ≠ 2 → exec .session s = .next s) ∧
    (op ≠ 3 → exec .keyload s = .next s) ∧ (op ≠ 4 → exec .keyerase s = .next s) ∧ (op ≠ 5 → exec .pathkey s = .next s) ∧
    (5 < op → t.SmRefuses (exec .attest s)) ∧
    (op = 0 → ∀ bs u k w, t.report o = (bs, u) → u.hostWriteN key o.out.toNat 4096 (ofBytes bs) = .ok k w →
      t.ReportIs o bs ∧ u = { t with draws := u.draws } ∧ w.SmEnds (exec .attest s) 0 0) ∧
    (op = 1 → ∀ chain k w,
      chain = Config.mfrCert ++ Config.aliasCert (toBytes 64 (Config.shake512 Config.fuseSeed).toNat) (Config.falconPublic t.aliasSeed) →
      t.hostWriteN key o.out.toNat chain.length (ofBytes chain) = .ok k w → w.SmEnds (exec .certs s) 0 0) ∧
    (op = 2 → ∀ v w, t.hostReadN key o.out.toNat 1568 = .ok v w → ∃ u : State, u.SmEnds (exec .session s) 0 0 ∧
      u = { w with session := some ((Config.shake512 (Config.mlkemDecap w.kemSeed (toBytes 1568 v))).setWidth 256) }) ∧
    (op = 3 →
      let good := 1 ≤ o.slot ∧ o.slot ≤ 4095 ∧ mhas t.keys o.slot = false
      (¬good ∨ (∀ k, t.session = some k → Config.aesUnwrap k (o.wrapped.take 72) = none) → t.SmRefuses (exec .keyload s)) ∧
      (∀ k bytes, good → t.session = some k → Config.aesUnwrap k (o.wrapped.take 72) = some bytes →
        ∃ u : State, u.SmEnds (exec .keyload s) 0 0 ∧ u = { t with keys := u.keys } ∧ ∀ n, mfind u.keys n =
          if n = o.slot then some { owner := o.owner.toNat, nohost := o.nohost, key := BitVec.ofNat 512 (ofBytes bytes) }
          else mfind t.keys n)) ∧
    (op = 4 → (mfind t.keys o.slot = none → t.SmRefuses (exec .keyerase s)) ∧
      ∀ k, mfind t.keys o.slot = some k → t.atomq = [] →
        let q : State := { t with erasing := some o.slot }
        let key := 2 * k.key.toNat + 1
        -- accesses that hold the key perform first (R356)
        (q.keyInFlight o.slot key = true → exec .keyerase s = .next q) ∧
        ∀ u, q.keyInFlight o.slot key = false → q.recallLines (q.linesUnder key) = (none, u) →
          ∃ w : State, w.SmEnds (exec .keyerase s) 0 0 ∧
            w = { u with keys := w.keys, erasing := none, icache := w.icache, caches := w.caches } ∧
            (∀ n, mfind w.keys n = if n = o.slot then none else mfind u.keys n) ∧ (∀ e ∈ w.icache, e.key ≠ key) ∧
            ∀ e, e ∈ w.caches ↔ e ∈ u.caches ∧ ¬(e.hyp ≠ 0 ∧ e.key = key)) ∧
    (op = 5 → ((∀ k, t.session = some k → Config.aesUnwrap k (o.wrapped.take 40) = none) → t.SmRefuses (exec .pathkey s)) ∧
      ∀ k bytes, t.session = some k → Config.aesUnwrap k (o.wrapped.take 40) = some bytes →
        ∃ u : State, u.SmEnds (exec .pathkey s) 0 0 ∧ u = { t with pathKeys := u.pathKeys } ∧ ∀ n, mfind u.pathKeys n =
          if n = o.node.toNat then some { enc := o.enc, key := BitVec.ofNat 256 (ofBytes bytes), sentCtr := [], recvCtr := [] }
          else mfind t.pathKeys n)

/-! ## Time-outs, time, links and failures (18 R348, R350, R352; 19 R363 to R371) -/

/-- R348, R350, R352, R363 to R371: lost requests, machine checks, the timebase, scrubbing, cores, clocks, temperature, links, errors
and failed parts. -/
def Obligations.TimeLinksAndFailuresAct : Prop :=
  -- machine checks
  (∀ (s : State) (sev : BitVec 2) (src : BitVec 4) (die addr : Nat), ∃ m : State,
    s.machineCheck sev src die addr = m.raiseVec s.bar0.mcvec ∧
    m = { s with ras := if s.ras.valid then { s.ras with ovf := true, lost := s.ras.lost + 1 } else
      { s.ras with valid := true, sev := sev, src := src, die := BitVec.ofNat 3 die, addr := BitVec.ofNat 48 addr } }) ∧
  -- lost requests of a lane, and of a copy
  (∀ (s : State) (o : LostReq) (lane : BitVec 5) (c : Crew) (x : Ctx) (r : Reach), o.who = .crew c.uid lane → s.crew? c.uid = some c →
    s.ctx? c.ctx = some x → c.saved = false → c.exited = false → c.faulted = none → s.Lost (.core c.core) x o r →
    let die := c.core / 32
    let due := fun (ticks : Nat) => o.issued + ticks ≤ s.dieTime die
    let cross := ∃ p, s.pdev? x.pdev = some p ∧ due (max 1000 p.xto.toNat)
    (∀ w off, r = .host w off → s.TimesOut (exec (.pcieCompletionTimeout o) s) o lane c 6) ∧
    ((∀ w off, r ≠ .host w off) → exec (.pcieCompletionTimeout o) s = .next s) ∧
    (∀ a loc key pa, r = .dram a loc key pa → loc / 2 ^ 36 ≠ die → cross → s.TimesOut (exec (.crossDieTimeout o) s) o lane c 4) ∧
    (∀ a loc key pa, r = .dram a loc key pa → loc / 2 ^ 36 = die ∨ (∃ p, s.pdev? x.pdev = some p ∧ ¬due (max 1000 p.xto.toNat)) →
      exec (.crossDieTimeout o) s = .next s) ∧
    (∀ d k off, r = .chip d k off → x.pdev + d ≠ die → cross → s.TimesOut (exec (.crossDieTimeout o) s) o lane c 4) ∧
    (∀ node pa, r = .rmt node pa → s.peerOf node = none → due (s.rto x.id) → s.TimesOut (exec (.crossDieTimeout o) s) o lane c 5)) ∧
  (∀ (s : State) (o : LostReq) (core op w off : Nat) (j : CopyJob) (x : Ctx), o.who = .copy core op →
    (s.core core).copies.find? (fun k => k.id == op) = some j → j.ended = none → s.ctx? j.ctx = some x →
    s.Lost (.copyUnit core) x o (.host w off) → ∃ m, exec (.pcieCompletionTimeout o) s = .next (m.machineCheck 1 6 (core / 32) 0) ∧
      m = { s with cores := m.cores } ∧ s.CoreIs m core { s.core core with copies := (s.core core).copies.map fun k =>
        if k.id = op then { k with ended := some (1, 0x0E, k.prefixBytes) } else k }) ∧
  -- the timebase: a word every 1,024 ticks, to eight compute dies and eight cellar dies
  (∀ (s : State) (o : Sync), (16 ≤ o.die ∨ s.reftime < (mget 0 s.ras.synced o.die + 1) * 1024) → exec (.timebaseSync o) s = .next s) ∧
  (∀ (s : State) (o : Sync), o.die < 16 → (mget 0 s.ras.synced o.die + 1) * 1024 ≤ s.reftime →
    let seen := fun (n : Nat) (k : Int) (t : State) =>
      t = { s with ras := { s.ras with missed := t.ras.missed, skew := t.ras.skew, synced := t.ras.synced } } ∧
      (∀ d, mget 0 t.ras.missed d = if d = o.die then n else mget 0 s.ras.missed d) ∧
      (∀ d, mget 0 t.ras.synced d = if d = o.die then mget 0 s.ras.synced d + 1 else mget 0 s.ras.synced d) ∧
      ∀ d, mget 0 t.ras.skew d = if d = o.die then k else mget 0 s.ras.skew d
    let n := mget 0 s.ras.missed o.die + 1
    let k := mget 0 s.ras.skew o.die
    (o.missed = false → -1 ≤ o.skew → o.skew ≤ 1 → ∃ t, exec (.timebaseSync o) s = .next t ∧ seen 0 0 t) ∧
    (o.missed = false → o.skew < -1 ∨ 1 < o.skew → ∃ t, seen 0 0 t ∧ t.Fails (exec (.timebaseSync o) s) 7 (o.die % 8)) ∧
    (o.missed = true → n < 16 → ∃ t, exec (.timebaseSync o) s = .next t ∧ seen n k t) ∧
    (o.missed = true → 16 ≤ n → ∃ t, seen n k t ∧ t.Fails (exec (.timebaseSync o) s) 7 (o.die % 8))) ∧
  -- errors
  (∀ (s : State) (o : Scrub), (o.corrected = true → s.Counts (exec (.patrolScrub o) s)) ∧
    (o.corrected = false → exec (.patrolScrub o) s = .next s)) ∧
  (∀ (s : State) (o : SoftErr),
    (o.kind = .corrected ∨ o.kind = .clean → s.Counts (exec (.softError o) s)) ∧
    (o.kind = .poison →
      let poisons := fun (line : Nat) => exec (.softError o) s = .next
        { s with poison := if s.poison.contains line then s.poison else s.poison ++ [line] }
      -- entries that are the only copy of what they hold are marked; an error in clean copies alone is counted (R369)
      let marks := fun (line : Nat) (at' : Place → Prop) =>
        ((∀ e ∈ s.caches, e.line = line → at' e.place → e.gone = false → e.st ≠ .m ∧ e.st ≠ .u ∧ e.hyp = 0) →
          s.Counts (exec (.softError o) s)) ∧
        ((∃ e ∈ s.caches, e.line = line ∧ at' e.place ∧ e.gone = false ∧ (e.st = .m ∨ e.st = .u ∨ e.hyp ≠ 0)) →
          ∃ t, exec (.softError o) s = .next t ∧ t = { s with caches := t.caches } ∧ t.caches.length = s.caches.length ∧
            ∀ (i : Nat) (e e' : CEntry), s.caches[i]? = some e → t.caches[i]? = some e' → e' = { e with bad := e'.bad } ∧
              (e'.bad = true ↔ e.bad = true ∨
                (e.line = line ∧ at' e.place ∧ e.gone = false ∧ (e.st = .m ∨ e.st = .u ∨ e.hyp ≠ 0))))
      (∀ line, o.site = .dram line → poisons line) ∧
      (∀ core piece, o.site = .scratch core piece → poisons (chipLine core (0x80000 + piece * 128))) ∧
      (∀ core piece, o.site = .acc core piece → ∃ t k, exec (.softError o) s = .next t ∧ t = { s with cores := t.cores } ∧
        s.CoreIs t core { s.core core with accBad := k } ∧ ∀ n, n ∈ k ↔ n = piece ∨ n ∈ (s.core core).accBad) ∧
      (∀ line k, o.site = .core k line → marks line (· = .l1 k)) ∧
      (∀ line, o.site = .l2 line → marks line fun p => p = .l2 o.die ∨ p = .va o.die ∨ ∃ k, p = .park o.die k) ∧
      (∀ n p k, o.site = .cellar n → s.proc? o.die n = some p → s.cmd? p.cmd = some k →
        ∃ t, s.CmdStopped t k 1 0x0D 0 ∧ exec (.softError o) s = .next (t.machineCheck 1 3 o.die 0)) ∧
      (∀ src, (o.site = .dieLink ∧ src = 4) ∨ (o.site = .scafa ∧ src = 5) ∨ (o.site = .pcie ∧ src = 6) →
        exec (.softError o) s = .next (s.machineCheck 1 src o.die 0)) ∧
      (o.site = .hub → s.Fails (exec (.softError o) s) 9 o.die))) ∧
  -- cores
  (∀ (s : State) (core : Nat), (8 ≤ core / 32 ∨ 24 ≤ core % 32 ∨ core ∈ s.ras.failed) → exec (.coreFailure core) s = .next s) ∧
  (∀ (s : State) (core : Nat), core / 32 < 8 → core % 32 < 24 → core ∉ s.ras.failed → (s.crews.map Crew.uid).Nodup →
    let stops := fun (c : Crew) => c.core = core ∧ c.saved = false ∧ c.exited = false ∧ c.faulted = none
    (∀ c ∈ s.crews, stops c → c.tm = false ∧ c.late = none ∧ ∃ p, s.pdevOf c.ctx = some p ∧ p.fqEn = true) →
    let used := ∃ x ∈ s.ctxs, x.pdev ≤ core / 32 ∧ core / 32 < x.pdev + x.dies
    ∃ m t : State, exec (.coreFailure core) s = .next t ∧ m = { s with ras := m.ras } ∧
      t = { (m.machineCheck 1 0 (core / 32) 0) with crews := t.crews, pdevs := t.pdevs, waitq := t.waitq } ∧ t.waitq.Sublist s.waitq ∧
      m.ras = { s.ras with failed := m.ras.failed, svcreq := m.ras.svcreq, degr := m.ras.degr, spares := m.ras.spares } ∧
      (used → m.ras.spares = s.ras.spares ∧ (∀ k, k ∈ m.ras.failed ↔ k = core ∨ k ∈ s.ras.failed) ∧
        let short := mget 2 s.ras.spares (core / 32) < (m.ras.failed.filter fun k => k / 32 == core / 32).length
        (m.ras.svcreq = true ↔ s.ras.svcreq = true ∨ short) ∧
        ∀ d, m.ras.degr.getLsbD d = true ↔ s.ras.degr.getLsbD d = true ∨ (d = core / 32 ∧ short)) ∧
      -- no context on the die: a spare takes the core's place at once (R16)
      (¬used → (∀ k ∈ s.ras.failed, k / 32 ≠ core / 32) → 0 < mget 2 s.ras.spares (core / 32) →
        m.ras.svcreq = s.ras.svcreq ∧ m.ras.degr = s.ras.degr ∧ (∀ k, k ∈ m.ras.failed ↔ k ∈ s.ras.failed) ∧
        ∀ d, mget 2 m.ras.spares d = if d = core / 32 then mget 2 s.ras.spares d - 1 else mget 2 s.ras.spares d) ∧
      t.crews.length = s.crews.length ∧ ∀ (j : Nat) (c c' : Crew), s.crews[j]? = some c → t.crews[j]? = some c' →
        (¬stops c → c' = c) ∧
        (stops c → c'.faulted = some { cause := 0x0D, late := true, lane := 0, detail := 0, level := 0, epc := c.gangPc c.holder, val := 0 } ∧
          c' = { c with faulted := c'.faulted, late := none, stopped := false, slices := c'.slices })) ∧
  -- temperature and clocks
  (∀ (s : State) (o : Thermal), o.die < 8 → ∃ m : State, m = { s with ras := { s.ras with temps := m.ras.temps } } ∧
    (∀ d, mget 0 m.ras.temps d = if d = o.die then o.temp else mget 0 s.ras.temps d) ∧
    (1760 ≤ o.temp.toNat → m.Fails (exec (.thermalEvent o) s) 8 o.die) ∧
    (1520 < o.temp.toNat → o.temp.toNat < 1760 → ∃ t, exec (.thermalEvent o) s = .next t ∧
      t = { m with draws := m.draws + 1, ras := { m.ras with hot := t.ras.hot, mhz := t.ras.mhz } } ∧
      (∀ d, d ∈ t.ras.hot ↔ d = o.die ∨ d ∈ s.ras.hot) ∧
      ∀ k, (k / 32 = o.die ∧ k % 32 < 24 → mget 1400 s.ras.mhz k = 1400 → 350 ≤ mget 1400 t.ras.mhz k ∧ mget 1400 t.ras.mhz k < 1400) ∧
        (¬(k / 32 = o.die ∧ k % 32 < 24) ∨ mget 1400 s.ras.mhz k ≠ 1400 → mget 1400 t.ras.mhz k = mget 1400 s.ras.mhz k)) ∧
    (o.temp.toNat < 1440 → ∃ t, exec (.thermalEvent o) s = .next t ∧ t = { m with ras := { m.ras with hot := t.ras.hot } } ∧
      ∀ d, d ∈ t.ras.hot ↔ d ∈ s.ras.hot ∧ d ≠ o.die) ∧
    (1440 ≤ o.temp.toNat → o.temp.toNat ≤ 1520 → exec (.thermalEvent o) s = .next m)) ∧
  (∀ (s : State) (o : Stretch),
    let top := if o.core / 32 ∈ s.ras.hot then 1399 else 1400
    let good := o.core / 32 < 8 ∧ o.core % 32 < 24 ∧
      ((350 ≤ o.mhz ∧ o.mhz ≤ top) ∨ (o.mhz = 0 ∧ ∀ b ∈ s.blocks, b.core = o.core → b.saved = true))
    (good → ∃ t, exec (.clockStretch o) s = .next t ∧ t = { s with ras := { s.ras with mhz := t.ras.mhz } } ∧
      ∀ k, mget 1400 t.ras.mhz k = if k = o.core then o.mhz else mget 1400 s.ras.mhz k) ∧
    (¬good → exec (.clockStretch o) s = .next s)) ∧
  -- links
  (∀ (s : State) (o : Trained), ∃ t, exec (.linkTrained o) s = .next t ∧ t = { s with ports := t.ports } ∧
    t.ports.length = s.ports.length ∧ ∀ (j : Nat) (p : Port), s.ports[j]? = some p → t.ports[j]? = some (if j = o.port then
      { p with up := true, lanes := BitVec.ofNat 4 (min 8 o.lanes.toNat), peer := o.peer } else p)) ∧
  (∀ (s : State) (port : Nat), ∃ t, exec (.linkDown port) s = .next t ∧ t = { s with ports := t.ports } ∧
    t.ports.length = s.ports.length ∧ ∀ (j : Nat) (p : Port), s.ports[j]? = some p → t.ports[j]? = some (if j = port then
      { p with up := false, lanes := 0 } else p)) ∧
  -- failed parts
  (∀ (s : State) (o : Part),
    (∀ n, o = .dramRow n true ∨ o = .scafaLane n true ∨ o = .dieLane n true → exec (.failedPart o) s = .next s) ∧
    (∀ n, o = .dieLane n false → exec (.failedPart o) s = .next { s with ras := { s.ras with svcreq := true } }) ∧
    (∀ n, o = .dramRow n false → ∃ t, exec (.failedPart o) s = .next t ∧
      t = { s with ras := { s.ras with svcreq := true, retired := t.ras.retired } } ∧
      ∀ f, f ∈ t.ras.retired ↔ f = n ∨ f ∈ s.ras.retired) ∧
    (∀ n p, o = .scafaLane n false → s.ports[n]? = some p → ∃ t, exec (.failedPart o) s = .next t ∧
      t = { s with ras := { s.ras with svcreq := true }, ports := t.ports } ∧
      t.ports[n]? = some { p with lanes := BitVec.ofNat 4 (p.lanes.toNat - 1), up := p.up && decide (1 < p.lanes.toNat) } ∧
      ∀ j, j ≠ n → t.ports[j]? = s.ports[j]?))

/-! ## The whole machine -/

/-- R34, R35, R129, R132, R250, R259 (log 1): when the words at the pc of the gang that holds the turn decode to an instruction that
passes the checks, a step is exec of that instruction for that gang; around it the turn passes, and lookahead windows act only where one
is open. A processor's step is exec of the word at its pc, an event's is exec of the event. -/
def Obligations.StepRunsTheDecodedInstruction : Prop :=
  (∀ (s t : State) (core sched : Nat) (rest : List Stim) (c : Crew) (x : Ctx) (ws : List Word) (i : Instr) (len : Nat),
    s.counted.urgent = none → s.bar0.boot ≠ 5 → s.agenda = .issue core sched :: rest → t = { s with draws := s.draws + 1, agenda := rest } →
    mget 1400 t.ras.mhz core ≠ 0 → t.crewAt core sched (mget 0 t.clock core % 16) = some c → t.crewRuns c = true →
    c.gangFree c.holder = true → t.atHypres c c.holder = false → t.ctx? c.ctx = some x →
    (∀ k w, ws[k]? = some w → t.fetchWord c.core (t.codeSince c) x (c.gangPc c.holder + BitVec.ofNat 64 (4 * k)) = .word w) →
    decode ws = .ok (i, len) → len = 4 * ws.length →
    (∀ w, ws.head? = some w → opcPrivileged (wordOpc w) = true → t.mayPriv c w = true) → i.uses.ok c.vregs = true →
    c.late = none → (c.readKeys c.holder i ++ c.writeKeys c.holder i).any c.keyBusy = false →
    (Instr.readsFlags i = true → t.flagsPending c c.holder = false) →
    ∀ u, { t.setCrew c with cur := .crew c.uid c.holder }.laRun c c.holder i = .next u →
      (Instr.jumps i = true ∨ u.crew? c.uid ≠ some c) →
      step s = .next ((u.passTurn c.uid c.holder).passStuck (t.stuck core sched)).settled) ∧
  -- a core whose clock is stopped issues nothing (R364)
  (∀ (s : State) (core sched : Nat) (rest : List Stim), s.counted.urgent = none → s.bar0.boot ≠ 5 → s.agenda = .issue core sched :: rest →
    mget 1400 s.ras.mhz core = 0 → step s = .next (State.settled { s with draws := s.draws + 1, agenda := rest })) ∧
  (∀ (s : State) (c : Crew) (g : Nat) (i : Instr), i.la = 0 → (∀ x ∈ c.slices, x.la = []) → s.laRun c g i = exec i s) ∧
  (∀ (s t : State) (stack proc : Nat) (rest : List Stim) (p : Proc) (k : Cmd) (i : Instr),
    s.counted.urgent = none → s.bar0.boot ≠ 5 → s.agenda = .cellar stack proc :: rest →
    t = { s with draws := s.draws + 1, agenda := rest } →
    t.proc? stack proc = some p → p.atoms = 0 → t.cmd? p.cmd = some k →
    decodeAqiuf (BitVec.ofNat 32 (ofBytes ((List.range 4).map fun j => mget 0 p.loc (p.pc.toNat + j)))) = .ok i →
    step s = Out.map State.settled (exec i { t with cur := .cellar stack proc })) ∧
  (∀ (s t : State) (i : Instr) (rest : List Stim), s.counted.urgent = none → s.bar0.boot ≠ 5 → s.agenda = .event i :: rest →
    t = { s with draws := s.draws + 1, agenda := rest } → i.raw = none → i.craw = none → step s = Out.map State.settled (exec i t))

/-- R345, R349, R350, R360, R362, R366, R370, R371: the device after reset waits for firmware with no context, no key and nothing in
flight; memory is in its canonical form. That nothing is masked but every MSI-X vector is the family's value (log 12). -/
def Obligations.ResetLeavesADeviceThatWaits : Prop :=
  let s := State.reset
  s.MemOk ∧ s.reftime = 0 ∧ s.ctxs = [] ∧ s.crews = [] ∧ s.blocks = [] ∧ s.runs = [] ∧ s.keys = [] ∧ s.pathKeys = [] ∧ s.session = none ∧
  s.caches = [] ∧ s.sent = [] ∧ s.bar0.boot = 1 ∧ s.bar0.bootDetail = 0 ∧ s.bar0.fwaddr = 0 ∧
  (∀ d, d < 8 → s.bar0.partcfg.toNat / 2 ^ (2 * d) % 4 = 3) ∧ s.bar0.partRefused = false ∧
  s.bar0.mqLog2n = 4 ∧ s.bar0.mqPa = 0 ∧ s.bar0.mqWr = 0 ∧ s.bar0.mqRd = 0 ∧ s.bar0.b2off = 0 ∧ s.bar0.hkey = 0 ∧ s.bar0.mcvec = 0 ∧
  s.bar0.smcmd = 0 ∧ s.bar0.smBusy = false ∧ s.bar0.smResult = 0 ∧ s.bar0.smVec = 0 ∧ s.bar0.smDetail = 0 ∧
  s.bar0.msixPending = 0 ∧
  s.ports = List.replicate 12 { up := false, lanes := 0, err := false, peer := 0 } ∧
  s.ras.valid = false ∧ s.ras.ovf = false ∧ s.ras.ce = 0 ∧ s.ras.addr = 0 ∧ s.ras.svcreq = false ∧ s.ras.degr = 0 ∧ s.ras.retired = [] ∧
  s.ras.watts = 2200 ∧ ∀ k, mget 1400 s.ras.mhz k = 1400

/-- Words worked out by hand from the encodings of R119 to R127, R259 and the tables of each family, and the instructions that they
stand for; words that R127 to R129 make ILLEGAL. -/
def Obligations.WrittenWordsDecode : Prop :=
  decode [0x00410286] = .ok (.iadd ⟨⟨.base, ⟨15, false⟩, 0⟩, false, 4, 5, .reg 6⟩, 4) ∧
  decode [0x82410300, 0x00000000, 0x00000001] =
    .ok (.iadd64 ⟨⟨.lit, ⟨15, false⟩, 0⟩, false, 4, 6, .lit 0x100000000⟩, 12) ∧
  decode [0x0B407FFD] = .ok (.movi ⟨⟨.base, ⟨15, false⟩, 0⟩, false, 1, .short 0x3FFD⟩, 4) ∧
  decode [0x4CC10286, 0x03870002, 0] = .ok (.fmac ⟨⟨.ext, ⟨3, true⟩, 0⟩, false, 4, 5, .reg 6, 7, .rz⟩, 12) ∧
  decode [0x1C09FFF0] = .ok (.bra ⟨2, false, 0x1FFF0⟩, 4) ∧
  decode [0x1D400005] = .ok (.regang 5, 4) ∧
  decode [0x60820500, 0x2F000001, 0x40] = .ok (.ld32 ⟨⟨⟨15, false⟩, 2⟩, 8, ⟨false, 10, 0x40⟩, true, .dev⟩, 12) ∧
  decode [0x61C0050C, 0x0F000002, 0x80] = .ok (.st32 ⟨⟨⟨15, false⟩, 0⟩, ⟨false, 10, 0x80⟩, .reg 12, true, .dev⟩, 12) ∧
  decode [0x68018507, 0x0F000080, 8] = .ok (.atom ⟨⟨⟨15, false⟩, 0⟩, 6, ⟨false, 10, 8⟩, .reg 7, .fadd, .rlx, .dev⟩, 12) ∧
  decode [0x6C400A03, 0x0F000000, 0] = .ok (.uacc ⟨⟨⟨15, false⟩, 0⟩, ⟨false, 20, 0⟩, 3, false⟩, 12) ∧
  decode [0x64000000, 0x0F000040, 0] = .ok (.fence ⟨⟨⟨15, false⟩, 0⟩, .dflt, .dev, true⟩, 12) ∧
  decode [0x64A08200, 0x0F000000, 0x40] = .ok (.bararr ⟨⟨⟨15, false⟩, 0⟩, 2, 4, 0x40, none, .dflt⟩, 12) ∧
  decode [0x66400000, 0x0F0003C0, 0] = .ok (.waitany ⟨0, 0x0F⟩, 12) ∧
  decode [0x67000280, 0x0F000040, 0] = .ok (.hypres ⟨⟨⟨15, false⟩, 0⟩, 0, 5, true⟩, 12) ∧
  decode [0x70000400, 0x0F000011, 0] = .ok (.tdset ⟨⟨⟨15, false⟩, 0⟩, 17, .regs 8⟩, 12) ∧
  decode [0x70C08020, 0x0F000005, 0x14] = .ok (.mloadsp ⟨⟨⟨15, false⟩, 0⟩, 2, 20, 1, .p24, 32, 0, false⟩, 12) ∧
  decode [0x71010300, 0x3F000005, 0x3F09] = .ok (.mma ⟨⟨⟨15, false⟩, 3⟩, 4, 9, true, 6, 63, 0, .m2x2⟩, 12) ∧
  decode [0x72020500, 0x0F000006, 0x0304] = .ok (.copy ⟨⟨⟨15, false⟩, 0⟩, 8, 4, 3, 2, some 10⟩, 12) ∧
  decode [0x7281840C, 0x0F000005, 0x28] = .ok (.coll ⟨⟨⟨15, false⟩, 0⟩, 6, 8, 12, 40, .redSw⟩, 12) ∧
  decode [0x3C210201] = .ok (.csrr ⟨⟨false, ⟨15, false⟩⟩, 4, 0x201⟩, 4) ∧
  decode [0x3DA20001] = .ok (.qstatAdv ⟨⟨false, ⟨15, false⟩⟩, 8⟩, 4) ∧
  decode [0x7C800002, 0x01000000, 0] = .ok (.trapret ⟨⟨true, ⟨1, false⟩⟩, .next⟩, 12) ∧
  decodeAqiuf 0x24C70000 = .ok (.cld ⟨3, 1, .d, false, 0⟩) ∧ decodeAqiuf 0x54014000 = .ok (.vscal ⟨0, 0, 5⟩) ∧
  decodeAqiuf 0x22BFFFF9 = .ok (.cloop 10 0x3FFFF9) ∧ decodeAqiuf 0x68000000 = .ok .chalt ∧
  (∀ r, decode [0x4CC10286, 0x3F070000, 0] ≠ .ok r) ∧ (∀ r, decode [0x20820500] ≠ .ok r) ∧ (∀ r, decode [0x00000000] ≠ .ok r) ∧
  (Instr.uses (.iadd ⟨⟨.base, ⟨15, false⟩, 0⟩, false, 8, 5, .reg 7⟩)).ok 8 = false

/-- R119 to R129, R259: writing an instruction's words and decoding them gives it back, for every well-formed instruction of both sets
and every value of its operands; what decodes is well formed, and its words are the only ones that decode to it. -/
def Obligations.DecodeAndEncodeAgree : Prop :=
  (∀ i : Instr, i.wf = true →
    (∃ len, decode (encode i) = .ok (i, len) ∧ len = 4 * (encode i).length) ∨ ∃ w, encode i = [w] ∧ decodeAqiuf w = .ok i) ∧
  (∀ ws i len, decode ws = .ok (i, len) → i.wf = true ∧ len = 4 * (encode i).length ∧ encode i = ws.take (encode i).length) ∧
  ∀ w i, decodeAqiuf w = .ok i → i.wf = true ∧ encode i = [w]

/-- No state stops the machine: every step answers a next state, whatever the instruction, its operands and the state. -/
def Obligations.NoStepStops : Prop := ∀ s : State, ∃ t, step s = .next t

/-- Memory keeps its canonical form (log 5) at every step from every state that has it. -/
def Obligations.StepsKeepMemoryCanonical : Prop := ∀ s t : State, s.MemOk → step s = .next t → t.MemOk
end

