-- ==== Sys2Proof/Laws/Tables.lean ====
section
/-!
SUPPORT. Laws of the sparse tables and of single bytes of memory: reading after writing, and the canonical form.
-/
namespace Sys2Proof.Machine

/-! ## Reading after writing -/

theorem mget_mset {β : Type} (d : β) (m : SMap β) (i j : Nat) (x : β) :
    mget d (mset m i x) j = if j = i then x else mget d m j := by
  induction m with
  | nil => simp [mset, mget]
  | cons e m ih =>
    obtain ⟨k, v⟩ := e
    simp only [mset]
    split
    · by_cases h : j = i <;> simp [mget, h]
    · split
      · subst_vars; by_cases h : j = k <;> simp [mget, h]
      · by_cases h : j = k
        · subst h; simp [mget]; intro hh; omega
        · simp [mget, h, ih]

theorem mget_mdel {β : Type} (d : β) (m : SMap β) (i j : Nat) :
    mget d (mdel m i) j = if j = i then d else mget d m j := by
  induction m with
  | nil => simp [mdel, mget]
  | cons e m ih =>
    obtain ⟨k, v⟩ := e
    unfold mdel at ih ⊢
    rw [List.filter_cons]
    by_cases h : k = i
    · subst h; simp only [bne_self_eq_false, Bool.false_eq_true, if_false]
      rw [ih]; by_cases hj : j = k <;> simp [mget, hj]
    · have : (k != i) = true := by simpa using h
      simp only [this, if_true, mget, ih]
      by_cases hj : j = k
      · subst hj; simp [h]
      · simp [hj]

/-- A table reads what was written at a key, and what it read before at every other. -/
theorem mget_mput {β : Type} [DecidableEq β] (d : β) (m : SMap β) (i j : Nat) (x : β) :
    mget d (mput d m i x) j = if j = i then x else mget d m j := by
  unfold mput; split
  · subst_vars; exact mget_mdel ..
  · exact mget_mset ..

@[simp] theorem mget_mput_self {β : Type} [DecidableEq β] (d : β) (m : SMap β) (i : Nat) (x : β) :
    mget d (mput d m i x) i = x := by simp [mget_mput]

theorem mget_mput_ne {β : Type} [DecidableEq β] (d : β) (m : SMap β) {i j : Nat} (x : β) (h : j ≠ i) :
    mget d (mput d m i x) j = mget d m j := by simp [mget_mput, h]

/-! ## Canonical form -/

/-- Every key of a table is at least a bound. -/
def keysFrom {β : Type} (lo : Nat) (m : SMap β) : Prop := ∀ e ∈ m, lo ≤ e.1

theorem mwf_cons {β : Type} [DecidableEq β] (d : β) (k : Nat) (v : β) (m : SMap β) :
    mwf d ((k, v) :: m) = true ↔ v ≠ d ∧ keysFrom (k + 1) m ∧ mwf d m = true := by
  induction m generalizing k v with
  | nil => simp [mwf, keysFrom]
  | cons e m ih =>
    obtain ⟨k', v'⟩ := e
    rw [mwf]
    simp only [Bool.and_eq_true, bne_iff_ne, ne_eq, decide_eq_true_eq]
    constructor
    · rintro ⟨⟨hv, hk⟩, hm⟩
      refine ⟨hv, ?_, hm⟩
      intro e he
      rcases List.mem_cons.1 he with rfl | he
      · exact hk
      · have := ((ih k' v').1 hm).2.1 e he; omega
    · rintro ⟨hv, hk, hm⟩
      exact ⟨⟨hv, hk (k', v') (by simp)⟩, hm⟩

theorem keysFrom_mset {β : Type} {lo : Nat} {m : SMap β} (h : keysFrom lo m) {i : Nat} (hi : lo ≤ i) (x : β) :
    keysFrom lo (mset m i x) := by
  induction m with
  | nil => simp [mset, keysFrom, hi]
  | cons e m ih =>
    obtain ⟨k, v⟩ := e
    have hk : lo ≤ k := h (k, v) (by simp)
    have hm : keysFrom lo m := fun e he => h e (by simp [he])
    simp only [mset]
    split
    · intro e he
      rcases List.mem_cons.1 he with rfl | he
      · exact hi
      · exact h e he
    · split
      · intro e he
        rcases List.mem_cons.1 he with rfl | he
        · exact hi
        · exact hm e he
      · intro e he
        rcases List.mem_cons.1 he with rfl | he
        · exact hk
        · exact ih hm e he

theorem mwf_mset {β : Type} [DecidableEq β] {d : β} {m : SMap β} (h : mwf d m = true) (i : Nat) {x : β} (hx : x ≠ d) :
    mwf d (mset m i x) = true := by
  induction m with
  | nil => simp [mset, mwf, hx]
  | cons e m ih =>
    obtain ⟨k, v⟩ := e
    obtain ⟨hv, hk, hm⟩ := (mwf_cons d k v m).1 h
    simp only [mset]
    split
    · rename_i hlt
      refine (mwf_cons d i x _).2 ⟨hx, ?_, h⟩
      intro e he
      rcases List.mem_cons.1 he with rfl | he
      · exact hlt
      · have := hk e he; omega
    · split
      · rename_i heq; subst heq
        exact (mwf_cons d i x m).2 ⟨hx, hk, hm⟩
      · exact (mwf_cons d k v _).2 ⟨hv, keysFrom_mset hk (by omega) x, ih hm⟩

theorem mwf_filter {β : Type} [DecidableEq β] {d : β} {m : SMap β} (h : mwf d m = true) (p : Nat × β → Bool) :
    mwf d (m.filter p) = true := by
  induction m with
  | nil => simp [mwf]
  | cons e m ih =>
    obtain ⟨k, v⟩ := e
    obtain ⟨hv, hk, hm⟩ := (mwf_cons d k v m).1 h
    rw [List.filter_cons]
    split
    · exact (mwf_cons d k v _).2 ⟨hv, fun e he => hk e (List.mem_filter.1 he).1, ih hm⟩
    · exact ih hm

/-- A write keeps the canonical form. -/
theorem mwf_mput {β : Type} [DecidableEq β] {d : β} {m : SMap β} (h : mwf d m = true) (i : Nat) (x : β) :
    mwf d (mput d m i x) = true := by
  unfold mput; split
  · exact mwf_filter h _
  · rename_i hx; exact mwf_mset h i hx

end Sys2Proof.Machine
end

