-- ==== Sys2Proof/Laws/Memory.lean ====
section
/-!
SUPPORT. Laws of memory: what a write of n bytes leaves at every address, that it keeps the canonical form, and reads of n bytes.
-/
namespace Sys2Proof.Machine

/-- The byte of memory at an address: 0 where none is listed (log 5). -/
abbrev byteAt (m : List Host.Cell) (a : Nat) : Byte := mget 0 m a

theorem mget_below {β : Type} {d : β} {lo : Nat} {m : SMap β} (h : keysFrom lo m) {i : Nat} (hi : i < lo) : mget d m i = d := by
  induction m with
  | nil => rfl
  | cons e m ih =>
    obtain ⟨k, v⟩ := e
    have hk : lo ≤ k := h (k, v) (by simp)
    simp only [mget]
    rw [if_neg (by omega), ih fun e he => h e (by simp [he])]

/-! ## Pieces of a canonical table -/

theorem mwf_append {β : Type} [DecidableEq β] {d : β} {m n : SMap β} (hm : mwf d m = true) (hn : mwf d n = true)
    (h : ∀ e ∈ m, keysFrom (e.1 + 1) n) : mwf d (m ++ n) = true := by
  induction m with
  | nil => exact hn
  | cons e m ih =>
    obtain ⟨k, v⟩ := e
    obtain ⟨hv, hk, hm'⟩ := (mwf_cons d k v m).1 hm
    refine (mwf_cons d k v _).2 ⟨hv, ?_, ih hm' fun e he => h e (by simp [he])⟩
    intro e he
    rcases List.mem_append.1 he with he | he
    · exact hk e he
    · exact h (k, v) (by simp) e he

theorem mget_append {β : Type} (d : β) (m n : SMap β) (i : Nat) :
    mget d (m ++ n) i = if mhas m i then mget d m i else mget d n i := by
  induction m with
  | nil => simp [mhas]
  | cons e m ih =>
    obtain ⟨k, v⟩ := e
    by_cases h : i = k
    · subst h; simp [mget, mhas]
    · have : ¬k = i := fun hh => h hh.symm
      have hb : (k == i) = false := by simpa using this
      simp only [List.cons_append, mget, h, if_false, ih]
      simp only [mhas, List.any_cons, hb, Bool.false_or]
      rfl

theorem mhas_cellsOf {n a x i : Nat} : mhas (cellsOf a n x) i = true ↔ a ≤ i ∧ i < a + n ∧ byteOf x (i - a) ≠ 0 := by
  simp only [mhas, cellsOf, List.any_eq_true, List.mem_filterMap, List.mem_range, beq_iff_eq]
  constructor
  · rintro ⟨⟨k, v⟩, ⟨j, hj, hk⟩, rfl⟩
    split at hk
    · cases hk
    · rename_i hb
      cases hk
      refine ⟨by simp, by simp; omega, ?_⟩
      simpa using hb
  · rintro ⟨h1, h2, h3⟩
    refine ⟨(i, byteOf x (i - a)), ⟨i - a, by omega, ?_⟩, rfl⟩
    rw [if_neg h3]
    have : a + (i - a) = i := by omega
    simp [this]

/-- Listed cells of n + 1 bytes: those of n bytes and the last. -/
theorem cellsOf_succ (a n x : Nat) :
    cellsOf a (n + 1) x = cellsOf a n x ++ (if byteOf x n = 0 then [] else [(a + n, byteOf x n)]) := by
  simp only [cellsOf, List.range_succ, List.filterMap_append, List.filterMap_cons, List.filterMap_nil]
  split <;> simp_all

theorem keysFrom_cellsOf (a n x : Nat) : keysFrom a (cellsOf a n x) := by
  intro e he
  simp only [cellsOf, List.mem_filterMap, List.mem_range] at he
  obtain ⟨j, -, h⟩ := he
  split at h
  · cases h
  · cases h; simp

theorem cellsOf_lt {a n x : Nat} {e : Host.Cell} (he : e ∈ cellsOf a n x) : e.1 < a + n := by
  simp only [cellsOf, List.mem_filterMap, List.mem_range] at he
  obtain ⟨j, hj, h⟩ := he
  split at h
  · cases h
  · cases h; simpa using hj

theorem mwf_cellsOf (a n x : Nat) : mwf 0 (cellsOf a n x) = true := by
  induction n with
  | zero => rfl
  | succ n ih =>
    rw [cellsOf_succ]
    refine mwf_append ih ?_ ?_
    · split <;> simp_all [mwf]
    · intro e he f hf
      have := cellsOf_lt he
      split at hf
      · simp at hf
      · simp at hf; subst hf; simp; omega

theorem mget_cellsOf (a n x i : Nat) :
    mget 0 (cellsOf a n x) i = if a ≤ i ∧ i < a + n then byteOf x (i - a) else 0 := by
  induction n with
  | zero =>
    rw [if_neg (by omega)]
    rfl
  | succ n ih =>
    rw [cellsOf_succ, mget_append]
    by_cases h : mhas (cellsOf a n x) i = true
    · obtain ⟨h1, h2, h3⟩ := mhas_cellsOf.1 h
      rw [if_pos h, ih, if_pos ⟨h1, h2⟩, if_pos ⟨h1, by omega⟩]
    · rw [if_neg h]
      have hn : ¬(a ≤ i ∧ i < a + n ∧ byteOf x (i - a) ≠ 0) := fun hh => h (mhas_cellsOf.2 hh)
      by_cases hi : i = a + n
      · subst hi
        have h1 : a ≤ a + n ∧ a + n < a + (n + 1) := by omega
        have h2 : a + n - a = n := by omega
        rw [if_pos h1, h2]
        by_cases hb : byteOf x n = 0
        · rw [if_pos hb, hb]; rfl
        · rw [if_neg hb]; simp [mget]
      · have e : mget 0 (if byteOf x n = 0 then ([] : SMap Byte) else [(a + n, byteOf x n)]) i = 0 := by
          split
          · rfl
          · simp [mget, hi]
        rw [e]
        split
        · rename_i hh
          refine Decidable.byContradiction fun hc => ?_
          exact hn ⟨hh.1, by omega, fun h0 => hc h0.symm⟩
        · rfl

theorem takeWhile_spec {β : Type} [DecidableEq β] {d : β} {m : SMap β} (h : mwf d m = true) (a i : Nat) :
    mget d (m.takeWhile fun c => decide (c.1 < a)) i = if i < a then mget d m i else d := by
  induction m with
  | nil => simp [mget]
  | cons e m ih =>
    obtain ⟨k, v⟩ := e
    obtain ⟨hv, hk, hm⟩ := (mwf_cons d k v m).1 h
    by_cases hka : k < a
    · simp only [List.takeWhile_cons, hka, decide_true, if_true, mget, ih hm]
      by_cases hi : i = k
      · subst hi; simp [hka]
      · simp [hi]
    · simp only [List.takeWhile_cons, hka, decide_false, Bool.false_eq_true, if_false]
      by_cases hi : i < a
      · rw [if_pos hi, mget_below (lo := a) (m := (k, v) :: m) _ hi, mget]
        intro e he
        rcases List.mem_cons.1 he with rfl | he
        · omega
        · have := hk e he; omega
      · simp [hi, mget]

theorem dropWhile_spec {β : Type} [DecidableEq β] {d : β} {m : SMap β} (h : mwf d m = true) (a i : Nat) :
    mget d (m.dropWhile fun c => decide (c.1 < a)) i = if i < a then d else mget d m i := by
  induction m with
  | nil => simp [mget]
  | cons e m ih =>
    obtain ⟨k, v⟩ := e
    obtain ⟨hv, hk, hm⟩ := (mwf_cons d k v m).1 h
    by_cases hka : k < a
    · simp only [List.dropWhile_cons, hka, decide_true, if_true, ih hm]
      by_cases hi : i < a
      · simp [hi]
      · have : ¬i = k := by omega
        simp [hi, mget, this]
    · simp only [List.dropWhile_cons, hka, decide_false, Bool.false_eq_true, if_false]
      by_cases hi : i < a
      · rw [if_pos hi, mget_below (lo := a) (m := (k, v) :: m) _ hi]
        intro e he
        rcases List.mem_cons.1 he with rfl | he
        · omega
        · have := hk e he; omega
      · simp [hi]

theorem mwf_takeWhile {β : Type} [DecidableEq β] {d : β} {m : SMap β} (h : mwf d m = true) (p : Nat × β → Bool) :
    mwf d (m.takeWhile p) = true := by
  induction m with
  | nil => rfl
  | cons e m ih =>
    obtain ⟨k, v⟩ := e
    obtain ⟨hv, hk, hm⟩ := (mwf_cons d k v m).1 h
    rw [List.takeWhile_cons]
    split
    · exact (mwf_cons d k v _).2 ⟨hv, fun e he => hk e ((List.takeWhile_prefix p).subset he), ih hm⟩
    · rfl

theorem mwf_dropWhile {β : Type} [DecidableEq β] {d : β} {m : SMap β} (h : mwf d m = true) (p : Nat × β → Bool) :
    mwf d (m.dropWhile p) = true := by
  induction m with
  | nil => rfl
  | cons e m ih =>
    obtain ⟨k, v⟩ := e
    obtain ⟨hv, hk, hm⟩ := (mwf_cons d k v m).1 h
    rw [List.dropWhile_cons]
    split
    · exact ih hm
    · exact h

theorem takeWhile_lt {β : Type} {m : SMap β} {a : Nat} {e : Nat × β} (h : e ∈ m.takeWhile fun c => decide (c.1 < a)) : e.1 < a := by
  induction m with
  | nil => simp at h
  | cons f m ih =>
    rw [List.takeWhile_cons] at h
    split at h
    · rename_i hf
      rcases List.mem_cons.1 h with rfl | h
      · simpa using hf
      · exact ih h
    · simp at h

theorem dropWhile_ge {β : Type} [DecidableEq β] {d : β} {m : SMap β} (h : mwf d m = true) (a : Nat) :
    keysFrom a (m.dropWhile fun c => decide (c.1 < a)) := by
  induction m with
  | nil => intro e he; simp at he
  | cons e m ih =>
    obtain ⟨k, v⟩ := e
    obtain ⟨hv, hk, hm⟩ := (mwf_cons d k v m).1 h
    rw [List.dropWhile_cons]
    split
    · exact ih hm
    · rename_i hka
      have hka : ¬k < a := by simpa using hka
      intro e he
      rcases List.mem_cons.1 he with rfl | he
      · omega
      · have := hk e he; omega

/-! ## Writes -/

/-- A write keeps memory canonical. -/
theorem memWf_memWrite {m : List Host.Cell} (h : memWf m = true) (a n x : Nat) : memWf (memWrite m a n x) = true := by
  unfold memWf at *
  refine mwf_append (mwf_takeWhile h _) (mwf_append (mwf_cellsOf a n x) (mwf_dropWhile h _) ?_) ?_
  · intro e he f hf
    have h1 := cellsOf_lt he
    have h2 := dropWhile_ge h (a + n) f hf
    omega
  · intro e he f hf
    have h1 := takeWhile_lt he
    rcases List.mem_append.1 hf with hf | hf
    · have := keysFrom_cellsOf a n x f hf; omega
    · have := dropWhile_ge h (a + n) f hf; omega

/-- The byte at every address after a write of n bytes at a. -/
theorem byteAt_memWrite {m : List Host.Cell} (h : memWf m = true) (a n x i : Nat) :
    byteAt (memWrite m a n x) i = if a ≤ i ∧ i < a + n then byteOf x (i - a) else byteAt m i := by
  unfold byteAt memWrite
  unfold memWf at h
  have hT := takeWhile_spec h a i
  have hD := dropWhile_spec h (a + n) i
  have hC := mget_cellsOf a n x i
  have inner : mget 0 (cellsOf a n x ++ m.dropWhile fun c => decide (c.1 < a + n)) i =
      if i < a + n then (if a ≤ i then byteOf x (i - a) else 0) else mget 0 m i := by
    rw [mget_append]
    by_cases hh : mhas (cellsOf a n x) i = true
    · obtain ⟨h1, h2, -⟩ := mhas_cellsOf.1 hh
      rw [if_pos hh, hC, if_pos ⟨h1, h2⟩, if_pos h2, if_pos h1]
    · rw [if_neg hh, hD]
      have : ¬(a ≤ i ∧ i < a + n ∧ byteOf x (i - a) ≠ 0) := fun q => hh (mhas_cellsOf.2 q)
      split
      · split
        · rename_i h1 h2
          exact Decidable.byContradiction fun hc => this ⟨h2, h1, fun q => hc q.symm⟩
        · rfl
      · rfl
  rw [mget_append, inner, hT]
  by_cases hia : i < a
  · have e1 : ¬(a ≤ i ∧ i < a + n) := by omega
    rw [if_neg e1, if_pos hia]
    by_cases hh : mhas (m.takeWhile fun c => decide (c.1 < a)) i = true
    · rw [if_pos hh]
    · rw [if_neg hh]
      have h0 : mget 0 m i = 0 := by
        have hx := hT
        rw [if_pos hia] at hx
        rw [← hx]
        revert hh
        generalize (m.takeWhile fun c => decide (c.1 < a)) = q
        intro hh
        induction q with
        | nil => rfl
        | cons e q ih =>
          obtain ⟨k, v⟩ := e
          simp [mhas] at hh
          have : ¬i = k := fun h => hh.1 h.symm
          simp only [mget, this, if_false]
          exact ih (by simpa [mhas] using hh.2)
      rw [h0]
      have : ¬a ≤ i := by omega
      simp [this]
  · have hh : ¬mhas (m.takeWhile fun c => decide (c.1 < a)) i = true := by
      intro hh
      simp only [mhas, List.any_eq_true, beq_iff_eq] at hh
      obtain ⟨e, he, rfl⟩ := hh
      exact hia (takeWhile_lt he)
    rw [if_neg hh]
    have : a ≤ i := by omega
    by_cases h2 : i < a + n <;> simp [this, h2]

/-! ## Reads -/

/-- Below the first listed address a read adds nothing. -/
theorem memRead_below {m : List Host.Cell} {lo a n : Nat} (h : keysFrom lo m) (hn : a + n ≤ lo) : memRead m a n = 0 := by
  cases m with
  | nil => rfl
  | cons e m =>
    obtain ⟨k, v⟩ := e
    have : lo ≤ k := h (k, v) (by simp)
    simp only [memRead]
    rw [if_neg (by omega)]
    by_cases hk : k < a + n
    · omega
    · rw [if_neg hk]

/-- Bytes a to a + n - 1 of a table as a number. -/
def readBytes (m : List Host.Cell) (a : Nat) : Nat → Nat
  | 0 => 0
  | n + 1 => readBytes m a n + (byteAt m (a + n)).toNat * 2 ^ (8 * n)

theorem readBytes_congr {m m' : List Host.Cell} {a n : Nat} (h : ∀ i, i < n → byteAt m (a + i) = byteAt m' (a + i)) :
    readBytes m a n = readBytes m' a n := by
  induction n with
  | zero => rfl
  | succ n ih => simp only [readBytes, ih fun i hi => h i (by omega), h n (by omega)]

theorem readBytes_cons {k : Nat} {v : Byte} {m : List Host.Cell} {a : Nat} (hk : keysFrom (k + 1) m) (n : Nat) :
    readBytes ((k, v) :: m) a n =
      readBytes m a n + (if a ≤ k ∧ k < a + n then v.toNat * 2 ^ (8 * (k - a)) else 0) := by
  induction n with
  | zero =>
    rw [if_neg (by omega)]
    rfl
  | succ n ih =>
    simp only [readBytes, ih]
    by_cases h : a + n = k
    · subst h
      have : mget 0 m (a + n) = (0 : Byte) := mget_below hk (by omega)
      have e1 : ¬(a ≤ a + n ∧ a + n < a + n) := by omega
      have e2 : a ≤ a + n ∧ a + n < a + (n + 1) := by omega
      have e3 : a + n - a = n := by omega
      simp only [byteAt, mget, this, e3, if_neg e1, if_pos e2, if_true]; simp
    · have : byteAt ((k, v) :: m) (a + n) = byteAt m (a + n) := by simp [byteAt, mget, h]
      rw [this]
      by_cases h2 : a ≤ k ∧ k < a + n
      · have h3 : a ≤ k ∧ k < a + (n + 1) := by omega
        rw [if_pos h2, if_pos h3]; omega
      · have h3 : ¬(a ≤ k ∧ k < a + (n + 1)) := by omega
        rw [if_neg h2, if_neg h3]; omega

/-- A read of canonical memory is the number of its bytes, the lowest first (R1). -/
theorem memRead_eq {m : List Host.Cell} (h : memWf m = true) (a n : Nat) : memRead m a n = readBytes m a n := by
  unfold memWf at h
  induction m with
  | nil =>
    simp only [memRead]
    induction n with
    | zero => rfl
    | succ n ih => simp only [readBytes, ← ih]; simp [byteAt, mget]
  | cons e m ih =>
    obtain ⟨k, v⟩ := e
    obtain ⟨hv, hk, hm⟩ := (mwf_cons 0 k v m).1 h
    rw [readBytes_cons hk, ← ih hm, memRead]
    by_cases h1 : k < a
    · have : ¬(a ≤ k ∧ k < a + n) := by omega
      rw [if_pos h1, if_neg this]; simp
    · rw [if_neg h1]
      by_cases h2 : k < a + n
      · rw [if_pos h2, if_pos ⟨by omega, h2⟩]; omega
      · rw [if_neg h2, if_neg (by omega), memRead_below hk (by omega)]

theorem readBytes_byteOf {m : List Host.Cell} {a x : Nat} (n : Nat) (h : ∀ i, i < n → byteAt m (a + i) = byteOf x i) :
    readBytes m a n = x % 2 ^ (8 * n) := by
  induction n with
  | zero => simp [readBytes, Nat.mod_one]
  | succ n ih =>
    simp only [readBytes, ih fun i hi => h i (by omega), h n (by omega), byteOf, BitVec.toNat_ofNat]
    have : 8 * (n + 1) = 8 * n + 8 := by omega
    rw [this, Nat.pow_add, Nat.mod_mul, Nat.shiftRight_eq_div_pow]
    rw [Nat.mul_comm (x / 2 ^ (8 * n) % 2 ^ 8)]

/-- n bytes read where n bytes were written. -/
theorem memRead_memWrite_same {m : List Host.Cell} (h : memWf m = true) (a n x : Nat) :
    memRead (memWrite m a n x) a n = x % 2 ^ (8 * n) := by
  rw [memRead_eq (memWf_memWrite h a n x)]
  refine readBytes_byteOf n fun i hi => ?_
  rw [byteAt_memWrite h, if_pos ⟨by omega, by omega⟩]
  congr 1; omega

/-- n bytes read away from what was written. -/
theorem memRead_memWrite_disjoint {m : List Host.Cell} (h : memWf m = true) {a n b k : Nat} (x : Nat)
    (hd : b + k ≤ a ∨ a + n ≤ b) : memRead (memWrite m a n x) b k = memRead m b k := by
  rw [memRead_eq (memWf_memWrite h a n x), memRead_eq h]
  refine readBytes_congr fun i hi => ?_
  rw [byteAt_memWrite h, if_neg (by omega)]

end Sys2Proof.Machine
end

