-- ==== Sys2Proof/Laws/Canonical.lean ====
section
/-!
SUPPORT. Memory keeps its canonical form (log 5): after reset, and after the operations over lines and caches that every access goes
through.
-/
namespace Sys2Proof.Machine

theorem memOk_reset : State.reset.MemOk := rfl

/-- An update that leaves memory as it is. -/
theorem memOk_of_mem {s t : State} (h : s.MemOk) (e : t.mem = s.mem) : t.MemOk := by
  unfold State.MemOk at *; rw [e]; exact h

theorem memOk_writeMem {s : State} (h : s.MemOk) (a n x : Nat) : (s.writeMem a n x).MemOk := memWf_memWrite h a n x

theorem foldl_mem {α : Type} {f : State → α → State} (hf : ∀ s x, (f s x).mem = s.mem) (xs : List α) (s : State) :
    (xs.foldl f s).mem = s.mem := by
  induction xs generalizing s with
  | nil => rfl
  | cons x xs ih => exact (ih (f s x)).trans (hf s x)

theorem memOk_foldl {α : Type} {f : State → α → State} (hf : ∀ s x, s.MemOk → (f s x).MemOk) (xs : List α) {s : State}
    (h : s.MemOk) : (xs.foldl f s).MemOk := by
  induction xs generalizing s with
  | nil => exact h
  | cons x xs ih => exact ih (hf s x h)

/-! ## Lines -/

theorem memOk_dramPut {s : State} (h : s.MemOk) (line key : Nat) (d : LineData) : (s.dramPut line key d).MemOk :=
  memOk_of_mem (memOk_writeMem h (line * 128) 128 d.toNat) rfl

theorem mem_setPoison (s : State) (line : Nat) (bad : Bool) : (s.setPoison line bad).mem = s.mem := by
  unfold State.setPoison
  split
  · split <;> rfl
  · rfl

theorem memOk_rawWrite {s : State} (h : s.MemOk) (loc n key x : Nat) : (s.rawWrite loc n key x).MemOk := by
  unfold State.rawWrite
  have h1 := memOk_dramPut h (loc / 128) key (lineSet (s.dramLine (loc / 128) key) (loc % 128) n x)
  simp only
  split
  · exact memOk_of_mem h1 (mem_setPoison _ _ _)
  · exact h1

theorem memOk_cleanLine {s : State} (h : s.MemOk) (line : Nat) : (s.cleanLine line).MemOk := by
  unfold State.cleanLine
  split
  · exact h
  · rename_i e _
    exact memOk_of_mem (memOk_dramPut h line e.key e.data) (mem_setPoison _ _ _)

theorem memOk_flushLine {s : State} (h : s.MemOk) (line : Nat) : (s.flushLine line).MemOk :=
  memOk_of_mem (memOk_cleanLine h line) rfl

theorem memOk_reKey {s : State} (h : s.MemOk) (line key : Nat) : (s.reKey line key).MemOk := by
  unfold State.reKey
  split
  · exact memOk_flushLine h line
  · exact h

/-! ## Collapses, presses and registrations -/

theorem memOk_collapse {s : State} (h : s.MemOk) (u : ULine) : (s.collapse u).MemOk := memOk_of_mem h rfl

/-- A recall is sent, or was: memory stands. -/
theorem mem_postRecall (s : State) (u : ULine) (rto : Nat) : (s.postRecall u rto).mem = s.mem := by
  unfold State.postRecall
  split
  · rfl
  · rw [foldl_mem]
    exact fun _ _ => rfl

theorem memOk_postRecall {s : State} (h : s.MemOk) (u : ULine) (rto : Nat) : (s.postRecall u rto).MemOk :=
  memOk_of_mem h (mem_postRecall s u rto)

/-- The contributions of this package come back: memory stands. -/
theorem mem_gather (s : State) (u : ULine) : (s.gather u).2.mem = s.mem := by
  unfold State.gather
  split
  · rfl
  · have key : ∀ {α : Type} (f : ULine × State → α → ULine × State) (_ : ∀ r x, (f r x).2.mem = r.2.mem) (xs : List α)
        (r : ULine × State), (xs.foldl f r).2.mem = r.2.mem := by
      intro α f hf xs
      induction xs with
      | nil => exact fun _ => rfl
      | cons x xs ih => exact fun r => (ih (f r x)).trans (hf r x)
    refine key _ (fun r p => ?_) _ _
    dsimp only
    split <;> rfl

theorem memOk_gather {s : State} (h : s.MemOk) (u : ULine) : (s.gather u).2.MemOk := memOk_of_mem h (mem_gather s u)

theorem memOk_register {s t : State} (h : s.MemOk) {r : Reg} (e : s.register r = some t) : t.MemOk := by
  unfold State.register at e
  have h0 : State.MemOk { s with regs := s.regs.filter (· != r) } := memOk_of_mem h rfl
  simp only at e
  split at e
  · split at e
    · cases e; exact memOk_of_mem h rfl
    · split at e
      · cases e
        exact memOk_of_mem (memOk_reKey (memOk_collapse (memOk_gather h0 _) _) r.line r.key) rfl
      · cases e
  · cases e
    exact memOk_of_mem (memOk_flushLine h0 r.line) rfl

theorem memOk_drainRegs {s : State} (h : s.MemOk) (rs : List Reg) : (s.drainRegs rs).2.MemOk := by
  induction rs generalizing s with
  | nil => exact h
  | cons r rs ih =>
    unfold State.drainRegs
    split
    · rename_i t ht
      exact ih (memOk_register h ht)
    · exact h

/-- Before an access to a line, whether it must wait or not. -/
theorem memOk_settle {s : State} (h : s.MemOk) (core : Option Nat) (line rto : Nat) : (s.settle core line rto).2.MemOk := by
  unfold State.settle
  have key : ∀ (p : Bool × State), p.2.MemOk →
      (match p with
        | (ok, s) =>
          match s.uline? line with
          | none => (ok, s)
          | some u =>
            let (u, s) := s.gather u
            if ok && u.ready then (true, s.collapse u) else (false, s.postRecall u rto)).2.MemOk := by
    rintro ⟨ok, t⟩ ht
    dsimp only
    split
    · exact ht
    · split
      · exact memOk_collapse (memOk_gather ht _) _
      · exact memOk_postRecall (memOk_gather ht _) _ _
  cases core with
  | none => exact key (true, s) h
  | some k => exact key _ (memOk_drainRegs h _)

theorem memOk_settleAll {s : State} (h : s.MemOk) (core : Option Nat) (rto : Nat) (ls : List Nat) :
    (s.settleAll core rto ls).2.MemOk := by
  induction ls generalizing s with
  | nil => exact h
  | cons l ls ih =>
    unfold State.settleAll
    have h1 := memOk_settle h core l rto
    split
    · rename_i t ht
      rw [ht] at h1
      exact ih h1
    · exact h1

/-! ## PHASED lines -/

theorem memOk_putPhased {s : State} (h : s.MemOk) (e : CEntry) : (s.putPhased e).MemOk := by
  unfold State.putPhased
  split
  · exact h
  · exact memOk_of_mem (memOk_dramPut (memOk_flushLine h _) _ _ _) (mem_setPoison _ _ _)

theorem memOk_writePhased {s : State} (h : s.MemOk) (e : CEntry) : (s.writePhased e).MemOk := by
  unfold State.writePhased
  split
  · exact h
  · split
    · split
      · exact memOk_putPhased (memOk_collapse (memOk_gather h _) _) e
      · exact memOk_of_mem h rfl
    · exact memOk_putPhased h e

theorem memOk_evictPhased {s : State} (h : s.MemOk) (core line : Nat) : (s.evictPhased core line).MemOk := by
  unfold State.evictPhased
  refine memOk_foldl (fun t e ht => ?_) _ h
  exact memOk_of_mem (memOk_writePhased ht e) rfl

theorem memOk_sweepPhased {s : State} (h : s.MemOk) (p : CEntry → Bool) : (s.sweepPhased p).MemOk :=
  memOk_of_mem (memOk_foldl (fun _ e ht => memOk_writePhased ht e) (sortByL1 (s.caches.filter fun e => e.ph && p e)) h) rfl

/-! ## Fills -/

theorem memOk_fillL1 {s : State} (h : s.MemOk) (core line key : Nat) : (s.fillL1 core line key).2.MemOk := by
  unfold State.fillL1
  have h1 := memOk_reKey (memOk_evictPhased h core line) line key
  simp only
  split
  · exact h1
  · exact memOk_of_mem h1 rfl

theorem memOk_readNA {s : State} (h : s.MemOk) (core line key : Nat) : (s.readNA core line key).2.MemOk := by
  unfold State.readNA
  simp only
  split
  · exact memOk_reKey h line key
  · split <;> exact memOk_reKey h line key

/-! ## Homes and agents -/

theorem memOk_homeRead {s t : State} (h : s.MemOk) {loc n key rto v : Nat} (e : s.homeRead loc n key rto = some (v, t)) :
    t.MemOk := by
  unfold State.homeRead at e
  have h1 := memOk_settle h none (loc / 128) rto
  split at e
  · cases e
  · rename_i u hu
    rw [hu] at h1
    cases e
    exact memOk_reKey h1 _ _

theorem memOk_homeWrite {s t : State} (h : s.MemOk) {loc n key x rto : Nat} (e : s.homeWrite loc n key x rto = some t) :
    t.MemOk := by
  unfold State.homeWrite at e
  have h1 := memOk_settle h none (loc / 128) rto
  split at e
  · cases e
  · rename_i u hu
    rw [hu] at h1
    cases e
    have h2 := memOk_reKey h1 (loc / 128) key
    split <;> exact memOk_of_mem h2 rfl

theorem memOk_homeWriteAs {s t : State} (h : s.MemOk) {kind loc n key x rto : Nat}
    (e : s.homeWriteAs kind loc n key x rto = some t) : t.MemOk := by
  unfold State.homeWriteAs at e
  have h1 := memOk_settle h none (loc / 128) rto
  split at e
  · split at e
    · cases e
    · rename_i u hu
      rw [hu] at h1
      cases e
      exact memOk_rawWrite (memOk_flushLine h1 _) _ _ _ _
  · exact memOk_homeWrite h e

/-- A device reset keeps what lies in DRAM. -/
theorem memOk_deviceReset {s : State} (h : s.MemOk) : s.deviceReset.MemOk := mwf_filter h _

end Sys2Proof.Machine
end

