-- ==== Sys2Proof/Laws/Crews.lean ====
section
/-!
SUPPORT. Laws of crews: registers read after they are written, the participating lanes and units of an instruction, and what the
shared arithmetic operations do.
-/
namespace Sys2Proof.Machine

/-! ## Registers -/

theorem vkey_inj {l l' n n' : Nat} (hn : n < 128) (hn' : n' < 128) : vkey l n = vkey l' n' ↔ l = l' ∧ n = n' := by
  unfold vkey; omega

theorem vget_vset (c : Crew) (l n : Nat) (w : Word) (l' n' : Nat) (hn : n < 128) (hn' : n' < 128) :
    (c.vset l n w).vget l' n' = if l' = l ∧ n' = n then w else c.vget l' n' := by
  unfold Crew.vget Crew.vset
  simp only [mget_mput, vkey_inj hn' hn]

@[simp] theorem getElem_modAt {α : Type} (xs : List α) (i j : Nat) (f : α → α) :
    (modAt xs i f)[j]? = if j = i then xs[j]?.map f else xs[j]? := by
  induction xs generalizing i j with
  | nil => simp [modAt]
  | cons x xs ih =>
    cases i with
    | zero => cases j <;> simp [modAt]
    | succ i =>
      cases j with
      | zero => simp [modAt]
      | succ j => simp [modAt, ih]

@[simp] theorem length_modAt {α : Type} (xs : List α) (i : Nat) (f : α → α) : (modAt xs i f).length = xs.length := by
  induction xs generalizing i with
  | nil => rfl
  | cons x xs ih => cases i <;> simp [modAt, ih]

@[simp] theorem Slice.sget_sset (x : Slice) (n m : Nat) (w : Word) :
    (x.sset n w).sget m = if m = n then w else x.sget m := by simp [Slice.sget, Slice.sset, mget_mput]

theorem sget_sset (c : Crew) (i n j m : Nat) (w : Word) (hi : i < c.slices.length) :
    (c.sset i n w).sget j m = if j = i ∧ m = n then w else c.sget j m := by
  unfold Crew.sset Crew.modSlice Crew.sget
  simp only [getElem_modAt]
  by_cases h : j = i
  · subst h
    simp only [if_true, true_and]
    have : c.slices[j]? = some c.slices[j] := List.getElem?_eq_getElem hi
    simp only [this, Option.map_some, Slice.sget_sset]
  · simp [h]

@[simp] theorem Crew.vset_slices (c : Crew) (l n : Nat) (w : Word) : (c.vset l n w).slices = c.slices := rfl
@[simp] theorem Crew.sset_v (c : Crew) (i n : Nat) (w : Word) : (c.sset i n w).v = c.v := rfl
@[simp] theorem Crew.sset_length (c : Crew) (i n : Nat) (w : Word) : (c.sset i n w).slices.length = c.slices.length := by
  simp [Crew.sset, Crew.modSlice]
@[simp] theorem Crew.raise_slices (c : Crew) (f : BitVec 5) : (c.raise f).slices = c.slices := rfl
@[simp] theorem Crew.raise_v (c : Crew) (f : BitVec 5) : (c.raise f).v = c.v := rfl
@[simp] theorem Crew.raise_p (c : Crew) (f : BitVec 5) : (c.raise f).p = c.p := rfl
@[simp] theorem Crew.raise_vget (c : Crew) (f : BitVec 5) (l n : Nat) : (c.raise f).vget l n = c.vget l n := rfl
@[simp] theorem Crew.raise_sget (c : Crew) (f : BitVec 5) (i n : Nat) : (c.raise f).sget i n = c.sget i n := rfl
@[simp] theorem Crew.raise_pget (c : Crew) (f : BitVec 5) (l n : Nat) : (c.raise f).pget l n = c.pget l n := rfl

/-- Writing consecutive vector registers of a lane: only vector registers change. -/
theorem rsetList_vector (c : Crew) (l d : Nat) (ws : List Word) (hd : d + ws.length ≤ 128) :
    (∃ v, c.rsetList false l d ws = { c with v := v }) ∧
    ∀ l' n, n < 128 → (c.rsetList false l d ws).vget l' n =
      if l' = l then (if d ≤ n then (ws[n - d]?).getD (c.vget l' n) else c.vget l' n) else c.vget l' n := by
  induction ws generalizing c d with
  | nil => exact ⟨⟨c.v, rfl⟩, by simp [Crew.rsetList]⟩
  | cons w ws ih =>
    simp only [List.length_cons] at hd
    obtain ⟨⟨v, h2⟩, h3⟩ := ih (c.vset l d w) (d + 1) (by omega)
    have e : c.rsetList false l d (w :: ws) = (c.vset l d w).rsetList false l (d + 1) ws := by
      simp [Crew.rsetList, Crew.rset]
    rw [e]
    refine ⟨⟨v, h2⟩, ?_⟩
    intro l' n hn
    rw [h3 l' n hn, vget_vset c l d w l' n (by omega) hn]
    by_cases hl : l' = l
    · subst hl
      by_cases hlt : n < d
      · have a1 : ¬d + 1 ≤ n := by omega
        have a2 : ¬d ≤ n := by omega
        have a3 : ¬n = d := by omega
        simp [a1, a2, a3]
      · by_cases heq : n = d
        · subst heq
          have : ¬n + 1 ≤ n := by omega
          simp [this]
        · have a1 : d + 1 ≤ n := by omega
          have a2 : d ≤ n := by omega
          have a3 : n - d = (n - (d + 1)) + 1 := by omega
          simp [a1, a2, heq, a3]
    · simp [hl]

/-- Slices that differ at most in scalars. -/
def SameButScalars (xs ys : List Slice) : Prop :=
  ys.length = xs.length ∧ ∀ (i : Nat) (x y : Slice), xs[i]? = some x → ys[i]? = some y → y = { x with s := y.s }

theorem SameButScalars.refl (xs : List Slice) : SameButScalars xs xs :=
  ⟨rfl, fun i x y h h' => by rw [h] at h'; cases h'; rfl⟩

theorem SameButScalars.trans {xs ys zs : List Slice} (h : SameButScalars xs ys) (k : SameButScalars ys zs) :
    SameButScalars xs zs := by
  refine ⟨k.1.trans h.1, fun i x z hx hz => ?_⟩
  have hi : i < ys.length := by rw [h.1]; exact (List.getElem?_eq_some_iff.1 hx).1
  have hy := List.getElem?_eq_getElem hi
  have e1 := h.2 i x _ hx hy
  have e2 := k.2 i _ z hy hz
  rw [e2, e1]

theorem sset_same (c : Crew) (i n : Nat) (w : Word) : SameButScalars c.slices (c.sset i n w).slices := by
  refine ⟨by simp, fun j x y hx hy => ?_⟩
  simp only [Crew.sset, Crew.modSlice, getElem_modAt, hx] at hy
  split at hy <;> cases hy <;> rfl

/-- Writing consecutive scalar registers of a slice: only its scalars change. -/
theorem rsetList_scalar (c : Crew) (l d : Nat) (ws : List Word) (hl : l / 4 < c.slices.length) :
    (∃ xs, c.rsetList true l d ws = { c with slices := xs }) ∧
    SameButScalars c.slices (c.rsetList true l d ws).slices ∧
    ∀ i n, (c.rsetList true l d ws).sget i n =
      if i = l / 4 then (if d ≤ n then (ws[n - d]?).getD (c.sget i n) else c.sget i n) else c.sget i n := by
  induction ws generalizing c d with
  | nil => exact ⟨⟨c.slices, rfl⟩, .refl _, by simp [Crew.rsetList]⟩
  | cons w ws ih =>
    obtain ⟨⟨xs, h1⟩, h3, h4⟩ := ih (c.sset (l / 4) d w) (d + 1) (by simpa using hl)
    have e : c.rsetList true l d (w :: ws) = (c.sset (l / 4) d w).rsetList true l (d + 1) ws := by
      simp [Crew.rsetList, Crew.rset]
    rw [e]
    refine ⟨⟨xs, h1⟩, (sset_same c _ _ _).trans h3, ?_⟩
    intro i n
    rw [h4 i n, sget_sset c (l / 4) d i n w hl]
    by_cases hi : i = l / 4
    · subst hi
      by_cases hlt : n < d
      · have a1 : ¬d + 1 ≤ n := by omega
        have a2 : ¬d ≤ n := by omega
        have a3 : ¬n = d := by omega
        simp [a1, a2, a3]
      · by_cases heq : n = d
        · subst heq
          have : ¬n + 1 ≤ n := by omega
          simp [this]
        · have a1 : d + 1 ≤ n := by omega
          have a2 : d ≤ n := by omega
          have a3 : n - d = (n - (d + 1)) + 1 := by omega
          simp [a1, a2, heq, a3]
    · simp [hi]

/-! ## Participating lanes and units -/

theorem mem_parts {c : Crew} {g : Nat} {gd : Guard} {l : Nat} : l ∈ c.parts g gd ↔ c.Takes g gd l := by
  unfold Crew.parts Crew.Takes Crew.lanes Crew.isActive Crew.guardPass Crew.inGang
  simp only [List.mem_filter, List.mem_range, Bool.and_eq_true, bne_iff_ne, ne_eq]
  constructor
  · rintro ⟨-, ⟨hg, ha⟩, hp⟩
    cases hx : c.slices[l / 4]? with
    | none => simp [hx] at hg
    | some x =>
      simp [hx] at hg ha
      exact ⟨x, rfl, hg.1, hg.2, ha, hp⟩
  · rintro ⟨x, hx, hl, hg, ha, hp⟩
    obtain ⟨hlt, -⟩ := List.getElem?_eq_some_iff.1 hx
    refine ⟨by omega, ⟨by simp [hx, hl, hg], by simp [hx, ha]⟩, hp⟩

theorem nodup_parts (c : Crew) (g : Nat) (gd : Guard) : (c.parts g gd).Nodup :=
  List.Pairwise.filter _ List.nodup_range

theorem mem_firstOfSlice {ls : List Nat} {l : Nat} :
    l ∈ firstOfSlice ls ↔ l ∈ ls ∧ ∀ k ∈ ls, k / 4 = l / 4 → ¬k < l := by
  simp [firstOfSlice]

theorem mem_units {c : Crew} {g : Nat} {gd : Guard} {u : Bool} {l : Nat} :
    l ∈ units u (c.parts g gd) ↔ c.Unit g gd u l := by
  unfold units Crew.Unit
  cases u with
  | false => simp [mem_parts]
  | true =>
    simp only [if_true, mem_firstOfSlice, mem_parts, true_implies]
    refine and_congr_right fun _ => ?_
    constructor
    · intro h k hk hlt ht; exact h k ht hk hlt
    · intro h k ht hk hlt; exact h k hk hlt ht

theorem nodup_units (c : Crew) (g : Nat) (gd : Guard) (u : Bool) : (units u (c.parts g gd)).Nodup := by
  unfold units
  split
  · exact List.Pairwise.filter _ (nodup_parts c g gd)
  · exact nodup_parts c g gd

theorem unit_lt {c : Crew} {g : Nat} {gd : Guard} {u : Bool} {l : Nat} (h : c.Unit g gd u l) : l / 4 < c.slices.length := by
  obtain ⟨⟨x, hx, -⟩, -⟩ := h
  exact (List.getElem?_eq_some_iff.1 hx).1

/-- Two units of one slice are one lane, with U. -/
theorem unit_unique {c : Crew} {g : Nat} {gd : Guard} {l k : Nat} (hl : c.Unit g gd true l) (hk : c.Unit g gd true k)
    (h : l / 4 = k / 4) : l = k := by
  rcases Nat.lt_trichotomy l k with hlt | heq | hgt
  · exact absurd hl.1 (hk.2 rfl l h hlt)
  · exact heq
  · exact absurd hk.1 (hl.2 rfl k h.symm hgt)

/-! ## Writing every unit -/

/-- The loop of `Crew.writeAll`. -/
def writeEach (u : Bool) (d : Nat) (f : Nat → List Word × BitVec 5) (c : Crew) (us : List Nat) : Crew :=
  us.foldl (fun c l => (c.rsetList u l d (f l).1).raise (f l).2) c

theorem writeAll_eq (c : Crew) (u : Bool) (d : Nat) (us : List Nat) (f : Nat → List Word × BitVec 5) :
    c.writeAll u d us f = writeEach u d f c us := by
  unfold Crew.writeAll writeEach
  rw [List.foldl_map]

theorem writeEach_vector (d : Nat) (f : Nat → List Word × BitVec 5) (us : List Nat) (c : Crew)
    (hd : ∀ l ∈ us, d + (f l).1.length ≤ 128) :
    (∃ v k, writeEach false d f c us = { c with v := v, fflags := k }) ∧
    (∀ l n, n < 128 → (l ∉ us ∨ n < d ∨ d + (f l).1.length ≤ n) → (writeEach false d f c us).vget l n = c.vget l n) ∧
    (∀ l ∈ us, ∀ (i : Nat) w, (f l).1[i]? = some w → (writeEach false d f c us).vget l (d + i) = w) ∧
    (∀ j, (writeEach false d f c us).fflags.getLsbD j = true ↔
      c.fflags.getLsbD j = true ∨ ∃ l ∈ us, (f l).2.getLsbD j = true) := by
  induction us generalizing c with
  | nil => exact ⟨⟨c.v, c.fflags, rfl⟩, by simp [writeEach], by simp, by simp [writeEach]⟩
  | cons a us ih =>
    obtain ⟨⟨v0, r2⟩, r3⟩ := rsetList_vector c a d (f a).1 (hd a (by simp))
    obtain ⟨⟨v, k, h2⟩, h4, h5, h6⟩ :=
      ih ((c.rsetList false a d (f a).1).raise (f a).2) fun l hl => hd l (by simp [hl])
    have e : writeEach false d f c (a :: us) = writeEach false d f ((c.rsetList false a d (f a).1).raise (f a).2) us := rfl
    rw [e]
    -- a lane's registers where this first write leaves them
    have keep : ∀ l n, n < 128 → (l ≠ a ∨ n < d ∨ d + (f l).1.length ≤ n) →
        ((c.rsetList false a d (f a).1).raise (f a).2).vget l n = c.vget l n := by
      intro l n hn h
      rw [Crew.raise_vget, r3 l n hn]
      by_cases hl : l = a
      · subst hl
        rcases h with h | h | h
        · exact absurd rfl h
        · have : ¬d ≤ n := by omega
          simp [this]
        · have h1 : (f l).1.length ≤ n - d := by omega
          simp [List.getElem?_eq_none h1]
      · simp [hl]
    refine ⟨⟨v, k, ?_⟩, ?_, ?_, ?_⟩
    · rw [h2, r2]; rfl
    · intro l n hn h
      by_cases hm : l ∈ us
      · have h' : n < d ∨ d + (f l).1.length ≤ n := by
          rcases h with h | h
          · exact absurd (List.mem_cons_of_mem a hm) h
          · exact h
        rw [h4 l n hn (.inr h'), keep l n hn (.inr h')]
      · rw [h4 l n hn (.inl hm), keep l n hn]
        rcases h with h | h
        · simp only [List.mem_cons, not_or] at h; exact .inl h.1
        · exact .inr h
    · intro l hl i w hw
      by_cases hm : l ∈ us
      · exact h5 l hm i w hw
      · have hla : l = a := by
          rcases List.mem_cons.1 hl with h | h
          · exact h
          · exact absurd h hm
        subst hla
        have hi : i < (f l).1.length := (List.getElem?_eq_some_iff.1 hw).1
        have hb := hd l (by simp)
        rw [h4 l (d + i) (by omega) (.inl hm), Crew.raise_vget, r3 l (d + i) (by omega)]
        have : d + i - d = i := by omega
        simp [this, hw]
    · intro j
      rw [h6 j, r2]
      simp only [Crew.raise, BitVec.getLsbD_or, Bool.or_eq_true, List.mem_cons, exists_eq_or_imp, or_assoc]

theorem writeEach_scalar (d : Nat) (f : Nat → List Word × BitVec 5) (us : List Nat) (c : Crew)
    (hs : ∀ l ∈ us, l / 4 < c.slices.length) (hu : us.Pairwise fun a b => a / 4 ≠ b / 4) :
    (∃ xs k, writeEach true d f c us = { c with slices := xs, fflags := k }) ∧
    SameButScalars c.slices (writeEach true d f c us).slices ∧
    (∀ i n, (∀ l ∈ us, l / 4 = i → n < d ∨ d + (f l).1.length ≤ n) → (writeEach true d f c us).sget i n = c.sget i n) ∧
    (∀ l ∈ us, ∀ (i : Nat) w, (f l).1[i]? = some w → (writeEach true d f c us).sget (l / 4) (d + i) = w) ∧
    (∀ j, (writeEach true d f c us).fflags.getLsbD j = true ↔
      c.fflags.getLsbD j = true ∨ ∃ l ∈ us, (f l).2.getLsbD j = true) := by
  induction us generalizing c with
  | nil => exact ⟨⟨c.slices, c.fflags, rfl⟩, .refl _, by simp [writeEach], by simp, by simp [writeEach]⟩
  | cons a us ih =>
    obtain ⟨⟨xs0, r1⟩, r2, r3⟩ := rsetList_scalar c a d (f a).1 (hs a (by simp))
    have hlen : ((c.rsetList true a d (f a).1).raise (f a).2).slices.length = c.slices.length := by
      rw [Crew.raise_slices]; exact r2.1
    obtain ⟨ha, hu'⟩ := List.pairwise_cons.1 hu
    obtain ⟨⟨xs, k, h1⟩, h2, h4, h5, h6⟩ :=
      ih ((c.rsetList true a d (f a).1).raise (f a).2) (fun l hl => by rw [hlen]; exact hs l (by simp [hl])) hu'
    have e : writeEach true d f c (a :: us) = writeEach true d f ((c.rsetList true a d (f a).1).raise (f a).2) us := rfl
    rw [e]
    refine ⟨⟨xs, k, by rw [h1, r1]; rfl⟩, r2.trans h2, ?_, ?_, ?_⟩
    · intro i n h
      rw [h4 i n fun l hl => h l (by simp [hl]), Crew.raise_sget, r3 i n]
      by_cases hi : i = a / 4
      · have := h a (by simp) hi.symm
        rcases this with q | q
        · have : ¬d ≤ n := by omega
          simp [this]
        · have h1 : (f a).1.length ≤ n - d := by omega
          simp [List.getElem?_eq_none h1]
      · simp [hi]
    · intro l hl i w hw
      rcases List.mem_cons.1 hl with rfl | hm
      · rw [h4 (l / 4) (d + i) fun k hk hk4 => absurd hk4.symm (ha k hk), Crew.raise_sget, r3]
        have : d + i - d = i := by omega
        simp [this, hw]
      · exact h5 l hm i w hw
    · intro j
      rw [h6 j, r1]
      simp only [Crew.raise, BitVec.getLsbD_or, Bool.or_eq_true, List.mem_cons, exists_eq_or_imp, or_assoc]

/-! ## Passing on -/

theorem advance_getElem (c : Crew) (g n i : Nat) :
    (c.advance g n).slices[i]? = c.slices[i]?.map fun x =>
      { x with pc := if c.inGang g i then x.pc + BitVec.ofNat 64 n else x.pc } := by
  unfold Crew.advance Crew.modGang
  rw [List.getElem?_map]
  rcases h : c.slices[i]? with _ | x
  · rfl
  · have hg : c.inGang g i = (x.live && x.gang == g) := by simp [Crew.inGang, h]
    simp only [Option.map_some, hg]
    split <;> rfl

theorem advance_sget (c : Crew) (g n i m : Nat) : (c.advance g n).sget i m = c.sget i m := by
  unfold Crew.sget
  rw [advance_getElem]
  cases c.slices[i]? with
  | none => rfl
  | some x => rfl

theorem inGang_congr {c c' : Crew} (h : SameButScalars c.slices c'.slices) (g i : Nat) : c'.inGang g i = c.inGang g i := by
  unfold Crew.inGang
  cases hx : c.slices[i]? with
  | none =>
    have : c'.slices[i]? = none := by
      rw [List.getElem?_eq_none_iff, h.1]; exact List.getElem?_eq_none_iff.1 hx
    rw [this]
  | some x =>
    have hi : i < c'.slices.length := by rw [h.1]; exact (List.getElem?_eq_some_iff.1 hx).1
    have hy := List.getElem?_eq_getElem hi
    rw [hy, h.2 i x _ hx hy]; rfl

theorem slicesPass_advance {c c1 : Crew} (h : SameButScalars c.slices c1.slices) (g n : Nat) :
    c.SlicesPass (c1.advance g n) g n := by
  refine ⟨by simp [Crew.advance, Crew.modGang, h.1], fun i x x' hx hx' => ?_⟩
  have hi : i < c1.slices.length := by rw [h.1]; exact (List.getElem?_eq_some_iff.1 hx).1
  have hy := List.getElem?_eq_getElem hi
  rw [advance_getElem, hy] at hx'
  simp only [Option.map_some, Option.some.injEq] at hx'
  have e := h.2 i x _ hx hy
  rw [← hx', inGang_congr h, e]

theorem advance_rest (c : Crew) (g n : Nat) : ∃ xs, c.advance g n = { c with slices := xs } := ⟨_, rfl⟩

/-- What every arithmetic instruction does (R146): the words and flags of each unit, and nothing else. -/
theorem alu_wrote (c : Crew) (g : Nat) (h : Hdr) (u : Bool) (d : Nat) (f : Nat → List Word × BitVec 5)
    (hd : u = false → ∀ l, d + (f l).1.length ≤ 128) :
    c.Wrote (c.alu g h u d f) g h.form.bytes u d (c.Unit g h.guard u) f := by
  unfold Crew.alu
  rw [writeAll_eq]
  cases u with
  | false =>
    obtain ⟨⟨v, k, h1⟩, h2, h3, h4⟩ := writeEach_vector d f (units false (c.parts g h.guard)) c fun l _ => hd rfl l
    simp only [mem_units] at h2 h3 h4
    have hs : SameButScalars c.slices (writeEach false d f c (units false (c.parts g h.guard))).slices := by
      rw [h1]; exact .refl _
    refine ⟨?_, slicesPass_advance hs g _, ?_, ?_, ?_, ?_⟩
    · obtain ⟨xs, e⟩ := advance_rest (writeEach false d f c (units false (c.parts g h.guard))) g h.form.bytes
      rw [e, h1]
    · intro l hl i w hw; exact h3 l hl i w hw
    · intro l n hn hh
      exact h2 l n hn (hh.resolve_left (by simp))
    · intro i n _
      rw [advance_sget, h1]; rfl
    · exact h4
  | true =>
    have hp : (units true (c.parts g h.guard)).Pairwise fun a b => a / 4 ≠ b / 4 := by
      refine (nodup_units c g h.guard true).imp_of_mem ?_
      intro a b ha hb hab h4
      exact hab (unit_unique (mem_units.1 ha) (mem_units.1 hb) h4)
    obtain ⟨⟨xs, k, h1⟩, h2, h3, h4, h5⟩ :=
      writeEach_scalar d f (units true (c.parts g h.guard)) c (fun l hl => unit_lt (mem_units.1 hl)) hp
    simp only [mem_units] at h3 h4 h5
    refine ⟨?_, slicesPass_advance h2 g _, ?_, ?_, ?_, ?_⟩
    · obtain ⟨ys, e⟩ := advance_rest (writeEach true d f c (units true (c.parts g h.guard))) g h.form.bytes
      rw [e, h1]
    · intro l hl i w hw
      have := h4 l hl i w hw
      simpa [Crew.rget, advance_sget] using this
    · intro l n _ _
      show (writeEach true d f c _).vget l n = _
      rw [h1]; rfl
    · intro i n hh
      rw [advance_sget]
      refine h3 i n fun l hl hi => ?_
      rcases hh with hh | hh
      · exact absurd hh (by simp)
      · exact hh l hi hl
    · exact h5

/-! ## Predicates (R147) -/

theorem getLsbD_bit15 {n j : Nat} (hj : j < 15) :
    (BitVec.ofNat 15 (2 ^ n)).getLsbD j = decide (j = n) := by
  rw [BitVec.getLsbD_ofNat, Nat.testBit_two_pow]
  simp [hj]; exact eq_comm

/-- A predicate reads what was written; p15 reads true whatever was written (R128). -/
theorem pget_pset (c : Crew) (l n : Nat) (x : Bool) (l' n' : Nat) (hn' : n' < 16) :
    (c.pset l n x).pget l' n' = if l' = l ∧ n' = n ∧ n < 15 then x else c.pget l' n' := by
  unfold Crew.pset
  by_cases h : n < 15
  · rw [if_pos h]
    unfold Crew.pget
    by_cases h15 : n' = 15
    · subst h15
      have : ¬(l' = l ∧ 15 = n ∧ n < 15) := by omega
      simp [this]
    · have hb : (n' == 15) = false := by simpa using h15
      have hlt : n' < 15 := by omega
      simp only [hb, Bool.false_or, mget_mput]
      by_cases hl : l' = l
      · subst hl
        simp only [if_true, true_and]
        cases x with
        | true =>
          simp only [if_true, BitVec.getLsbD_or, getLsbD_bit15 hlt]
          by_cases hn : n' = n <;> simp [hn, h]
        | false =>
          simp only [Bool.false_eq_true, if_false, BitVec.getLsbD_and, BitVec.getLsbD_not, getLsbD_bit15 hlt]
          by_cases hn : n' = n <;> simp [hn, h, hlt]
      · simp [hl]
  · rw [if_neg h]
    have : ¬(l' = l ∧ n' = n ∧ n < 15) := by omega
    simp [this]

/-- The loop of `Crew.aluP`. -/
def psetEach (pd : Nat) (f : Nat → Bool × BitVec 5) (c : Crew) (ls : List Nat) : Crew :=
  ls.foldl (fun c l => (c.pset l pd (f l).1).raise (f l).2) c

theorem pset_rest (c : Crew) (l n : Nat) (x : Bool) : ∃ p, c.pset l n x = { c with p := p } := by
  unfold Crew.pset; split
  · exact ⟨_, rfl⟩
  · exact ⟨c.p, rfl⟩

theorem psetEach_spec (pd : Nat) (f : Nat → Bool × BitVec 5) (ls : List Nat) (c : Crew) :
    (∃ p k, psetEach pd f c ls = { c with p := p, fflags := k }) ∧
    (∀ l n, n < 16 → (l ∉ ls ∨ n ≠ pd ∨ 15 ≤ pd) → (psetEach pd f c ls).pget l n = c.pget l n) ∧
    (pd < 15 → ∀ l ∈ ls, (psetEach pd f c ls).pget l pd = (f l).1) ∧
    (∀ j, (psetEach pd f c ls).fflags.getLsbD j = true ↔ c.fflags.getLsbD j = true ∨ ∃ l ∈ ls, (f l).2.getLsbD j = true) := by
  induction ls generalizing c with
  | nil => exact ⟨⟨c.p, c.fflags, rfl⟩, by simp [psetEach], by simp, by simp [psetEach]⟩
  | cons a ls ih =>
    obtain ⟨p0, r⟩ := pset_rest c a pd (f a).1
    obtain ⟨⟨p, k, h1⟩, h2, h3, h4⟩ := ih ((c.pset a pd (f a).1).raise (f a).2)
    have e : psetEach pd f c (a :: ls) = psetEach pd f ((c.pset a pd (f a).1).raise (f a).2) ls := rfl
    rw [e]
    refine ⟨⟨p, k, by rw [h1, r]; rfl⟩, ?_, ?_, ?_⟩
    · intro l n hn h
      have hc : ¬(l = a ∧ n = pd ∧ pd < 15) := by
        rintro ⟨rfl, rfl, hlt⟩
        rcases h with h | h | h
        · exact h (by simp)
        · exact h rfl
        · omega
      rw [h2 l n hn (by rcases h with h | h; exact .inl fun q => h (by simp [q]); exact .inr h), Crew.raise_pget,
        pget_pset _ _ _ _ _ _ hn, if_neg hc]
    · intro hp l hl
      by_cases hm : l ∈ ls
      · exact h3 hp l hm
      · have hla : l = a := by
          rcases List.mem_cons.1 hl with h | h
          · exact h
          · exact absurd h hm
        subst hla
        rw [h2 l pd (by omega) (.inl hm), Crew.raise_pget, pget_pset _ _ _ _ _ _ (by omega), if_pos ⟨rfl, rfl, hp⟩]
    · intro j
      rw [h4 j, r]
      simp only [Crew.raise, BitVec.getLsbD_or, Bool.or_eq_true, List.mem_cons, exists_eq_or_imp, or_assoc]

/-- What every instruction with a predicate result does (R147). -/
theorem aluP_decided (c : Crew) (g : Nat) (h : Hdr) (u : Bool) (pd : Nat) (f : Nat → Bool × BitVec 5) :
    c.Decided (c.aluP g h u pd f) g h.form.bytes u pd (c.Takes g h.guard) (c.Unit g h.guard u) f := by
  -- the unit of a participating lane
  let src := fun l => if u then ((firstOfSlice (c.parts g h.guard)).find? fun k => k / 4 == l / 4).getD l else l
  have hsrc : ∀ l, c.Takes g h.guard l → c.Unit g h.guard u (src l) ∧ (if u then src l / 4 = l / 4 else src l = l) := by
    intro l hl
    cases u with
    | false => exact ⟨⟨hl, by simp⟩, rfl⟩
    | true =>
      obtain ⟨k, hk, hk4⟩ : ∃ k, c.Unit g h.guard true k ∧ k / 4 = l / 4 := by
        have : ∀ n l, l - 4 * (l / 4) ≤ n → c.Takes g h.guard l → ∃ k, c.Unit g h.guard true k ∧ k / 4 = l / 4 := by
          intro n
          induction n with
          | zero =>
            intro l hn hl
            exact ⟨l, ⟨hl, fun _ k hk hlt _ => by omega⟩, rfl⟩
          | succ n ih =>
            intro l hn hl
            by_cases hex : ∃ k, k / 4 = l / 4 ∧ k < l ∧ c.Takes g h.guard k
            · obtain ⟨k, hk, hlt, ht⟩ := hex
              obtain ⟨m, hm, hm4⟩ := ih k (by omega) ht
              exact ⟨m, hm, by omega⟩
            · exact ⟨l, ⟨hl, fun _ k hk hlt ht => hex ⟨k, hk, hlt, ht⟩⟩, rfl⟩
        exact this _ l (Nat.le_refl _) hl
      have hmem : k ∈ firstOfSlice (c.parts g h.guard) := by
        have := (mem_units (c := c) (g := g) (gd := h.guard) (u := true)).2 hk
        simpa [units] using this
      have hsome : ((firstOfSlice (c.parts g h.guard)).find? fun k => k / 4 == l / 4).isSome := by
        rw [List.find?_isSome]; exact ⟨k, hmem, by simpa using hk4⟩
      obtain ⟨m, hm⟩ := Option.isSome_iff_exists.1 hsome
      have hs : src l = m := by simp [src, hm]
      have h1 := List.mem_of_find?_eq_some hm
      have h2 := List.find?_some hm
      rw [hs]
      refine ⟨?_, by simpa using h2⟩
      have : m ∈ units true (c.parts g h.guard) := by simpa [units] using h1
      exact mem_units.1 this
  obtain ⟨⟨p, k, h1⟩, h2, h3, h4⟩ := psetEach_spec pd (fun l => f (src l)) (c.parts g h.guard) c
  have e : c.aluP g h u pd f = (psetEach pd (fun l => f (src l)) c (c.parts g h.guard)).advance g h.form.bytes := by
    unfold Crew.aluP psetEach
    simp only [List.foldl_map]
    rfl
  rw [e]
  simp only [mem_parts] at h2 h3 h4
  have hs : SameButScalars c.slices (psetEach pd (fun l => f (src l)) c (c.parts g h.guard)).slices := by
    rw [h1]; exact .refl _
  refine ⟨?_, slicesPass_advance hs g _, ?_, ?_, ?_, ?_⟩
  · obtain ⟨xs, e⟩ := advance_rest (psetEach pd (fun l => f (src l)) c (c.parts g h.guard)) g h.form.bytes
    rw [e, h1]
  · intro i n; rw [advance_sget, h1]; rfl
  · intro hp l m hl hm hlm
    have := h3 hp l hl
    have hu := hsrc l hl
    have hms : src l = m := by
      cases u with
      | false => simp only [Bool.false_eq_true, if_false] at hlm hu; rw [hu.2, hlm]
      | true =>
        simp only [if_true] at hlm hu
        exact unit_unique hu.1 hm (by rw [hu.2, hlm])
    rw [← hms]; exact this
  · intro l n hn hh
    refine h2 l n hn ?_
    rcases hh with hh | hh | hh
    · exact .inl hh
    · exact .inr (.inl hh)
    · exact .inr (.inr (by omega))
  · intro j
    refine (h4 j).trans (or_congr_right ?_)
    constructor
    · rintro ⟨l, hl, hf⟩; exact ⟨src l, (hsrc l hl).1, hf⟩
    · rintro ⟨m, hm, hf⟩
      refine ⟨m, hm.1, ?_⟩
      have hu := hsrc m hm.1
      have : src m = m := by
        cases u with
        | false => exact hu.2
        | true => exact unit_unique hu.1 hm hu.2
      rw [this]; exact hf

end Sys2Proof.Machine
end

