-- ==== Sys2Proof/Laws/State.lean ====
section
/-!
SUPPORT. What each update of the state, of a crew and of a processor leaves as it was, field by field.
-/
namespace Sys2Proof.Machine


@[simp] theorem State.setCrew_cur (s : State) (c : Crew) : (s.setCrew c).cur = s.cur := rfl
@[simp] theorem State.setCrew_agenda (s : State) (c : Crew) : (s.setCrew c).agenda = s.agenda := rfl
@[simp] theorem State.setCrew_draws (s : State) (c : Crew) : (s.setCrew c).draws = s.draws := rfl
@[simp] theorem State.setCrew_nextId (s : State) (c : Crew) : (s.setCrew c).nextId = s.nextId := rfl
@[simp] theorem State.setCrew_reftime (s : State) (c : Crew) : (s.setCrew c).reftime = s.reftime := rfl
@[simp] theorem State.setCrew_clock (s : State) (c : Crew) : (s.setCrew c).clock = s.clock := rfl
@[simp] theorem State.setCrew_mem (s : State) (c : Crew) : (s.setCrew c).mem = s.mem := rfl
@[simp] theorem State.setCrew_lineKey (s : State) (c : Crew) : (s.setCrew c).lineKey = s.lineKey := rfl
@[simp] theorem State.setCrew_poison (s : State) (c : Crew) : (s.setCrew c).poison = s.poison := rfl
@[simp] theorem State.setCrew_caches (s : State) (c : Crew) : (s.setCrew c).caches = s.caches := rfl
@[simp] theorem State.setCrew_ulines (s : State) (c : Crew) : (s.setCrew c).ulines = s.ulines := rfl
@[simp] theorem State.setCrew_press (s : State) (c : Crew) : (s.setCrew c).press = s.press := rfl
@[simp] theorem State.setCrew_recalls (s : State) (c : Crew) : (s.setCrew c).recalls = s.recalls := rfl
@[simp] theorem State.setCrew_tlb (s : State) (c : Crew) : (s.setCrew c).tlb = s.tlb := rfl
@[simp] theorem State.setCrew_icache (s : State) (c : Crew) : (s.setCrew c).icache = s.icache := rfl
@[simp] theorem State.setCrew_blocks (s : State) (c : Crew) : (s.setCrew c).blocks = s.blocks := rfl
@[simp] theorem State.setCrew_cores (s : State) (c : Crew) : (s.setCrew c).cores = s.cores := rfl
@[simp] theorem State.setCrew_ctxs (s : State) (c : Crew) : (s.setCrew c).ctxs = s.ctxs := rfl
@[simp] theorem State.setCrew_runs (s : State) (c : Crew) : (s.setCrew c).runs = s.runs := rfl
@[simp] theorem State.setCrew_pdevs (s : State) (c : Crew) : (s.setCrew c).pdevs = s.pdevs := rfl
@[simp] theorem State.setCrew_credits (s : State) (c : Crew) : (s.setCrew c).credits = s.credits := rfl
@[simp] theorem State.setCrew_savedCores (s : State) (c : Crew) : (s.setCrew c).savedCores = s.savedCores := rfl
@[simp] theorem State.setCrew_colls (s : State) (c : Crew) : (s.setCrew c).colls = s.colls := rfl
@[simp] theorem State.setCrew_cmdq (s : State) (c : Crew) : (s.setCrew c).cmdq = s.cmdq := rfl
@[simp] theorem State.setCrew_cmds (s : State) (c : Crew) : (s.setCrew c).cmds = s.cmds := rfl
@[simp] theorem State.setCrew_procs (s : State) (c : Crew) : (s.setCrew c).procs = s.procs := rfl
@[simp] theorem State.setCrew_atomq (s : State) (c : Crew) : (s.setCrew c).atomq = s.atomq := rfl
@[simp] theorem State.setCrew_mails (s : State) (c : Crew) : (s.setCrew c).mails = s.mails := rfl
@[simp] theorem State.setCrew_regs (s : State) (c : Crew) : (s.setCrew c).regs = s.regs := rfl
@[simp] theorem State.setCrew_launches (s : State) (c : Crew) : (s.setCrew c).launches = s.launches := rfl
@[simp] theorem State.setCrew_inbound (s : State) (c : Crew) : (s.setCrew c).inbound = s.inbound := rfl
@[simp] theorem State.setCrew_keys (s : State) (c : Crew) : (s.setCrew c).keys = s.keys := rfl
@[simp] theorem State.setCrew_pathKeys (s : State) (c : Crew) : (s.setCrew c).pathKeys = s.pathKeys := rfl
@[simp] theorem State.setCrew_session (s : State) (c : Crew) : (s.setCrew c).session = s.session := rfl
@[simp] theorem State.setCrew_fwm (s : State) (c : Crew) : (s.setCrew c).fwm = s.fwm := rfl
@[simp] theorem State.setCrew_resets (s : State) (c : Crew) : (s.setCrew c).resets = s.resets := rfl
@[simp] theorem State.setCrew_bar0 (s : State) (c : Crew) : (s.setCrew c).bar0 = s.bar0 := rfl
@[simp] theorem State.setCrew_ports (s : State) (c : Crew) : (s.setCrew c).ports = s.ports := rfl
@[simp] theorem State.setCrew_ras (s : State) (c : Crew) : (s.setCrew c).ras = s.ras := rfl
@[simp] theorem State.setCrew_sent (s : State) (c : Crew) : (s.setCrew c).sent = s.sent := rfl

@[simp] theorem State.modCrew_cur (s : State) (u : Nat) (f : Crew → Crew) : (s.modCrew u f).cur = s.cur := rfl
@[simp] theorem State.modCrew_agenda (s : State) (u : Nat) (f : Crew → Crew) : (s.modCrew u f).agenda = s.agenda := rfl
@[simp] theorem State.modCrew_draws (s : State) (u : Nat) (f : Crew → Crew) : (s.modCrew u f).draws = s.draws := rfl
@[simp] theorem State.modCrew_nextId (s : State) (u : Nat) (f : Crew → Crew) : (s.modCrew u f).nextId = s.nextId := rfl
@[simp] theorem State.modCrew_reftime (s : State) (u : Nat) (f : Crew → Crew) : (s.modCrew u f).reftime = s.reftime := rfl
@[simp] theorem State.modCrew_clock (s : State) (u : Nat) (f : Crew → Crew) : (s.modCrew u f).clock = s.clock := rfl
@[simp] theorem State.modCrew_mem (s : State) (u : Nat) (f : Crew → Crew) : (s.modCrew u f).mem = s.mem := rfl
@[simp] theorem State.modCrew_lineKey (s : State) (u : Nat) (f : Crew → Crew) : (s.modCrew u f).lineKey = s.lineKey := rfl
@[simp] theorem State.modCrew_poison (s : State) (u : Nat) (f : Crew → Crew) : (s.modCrew u f).poison = s.poison := rfl
@[simp] theorem State.modCrew_caches (s : State) (u : Nat) (f : Crew → Crew) : (s.modCrew u f).caches = s.caches := rfl
@[simp] theorem State.modCrew_ulines (s : State) (u : Nat) (f : Crew → Crew) : (s.modCrew u f).ulines = s.ulines := rfl
@[simp] theorem State.modCrew_press (s : State) (u : Nat) (f : Crew → Crew) : (s.modCrew u f).press = s.press := rfl
@[simp] theorem State.modCrew_recalls (s : State) (u : Nat) (f : Crew → Crew) : (s.modCrew u f).recalls = s.recalls := rfl
@[simp] theorem State.modCrew_tlb (s : State) (u : Nat) (f : Crew → Crew) : (s.modCrew u f).tlb = s.tlb := rfl
@[simp] theorem State.modCrew_icache (s : State) (u : Nat) (f : Crew → Crew) : (s.modCrew u f).icache = s.icache := rfl
@[simp] theorem State.modCrew_blocks (s : State) (u : Nat) (f : Crew → Crew) : (s.modCrew u f).blocks = s.blocks := rfl
@[simp] theorem State.modCrew_cores (s : State) (u : Nat) (f : Crew → Crew) : (s.modCrew u f).cores = s.cores := rfl
@[simp] theorem State.modCrew_ctxs (s : State) (u : Nat) (f : Crew → Crew) : (s.modCrew u f).ctxs = s.ctxs := rfl
@[simp] theorem State.modCrew_runs (s : State) (u : Nat) (f : Crew → Crew) : (s.modCrew u f).runs = s.runs := rfl
@[simp] theorem State.modCrew_pdevs (s : State) (u : Nat) (f : Crew → Crew) : (s.modCrew u f).pdevs = s.pdevs := rfl
@[simp] theorem State.modCrew_credits (s : State) (u : Nat) (f : Crew → Crew) : (s.modCrew u f).credits = s.credits := rfl
@[simp] theorem State.modCrew_savedCores (s : State) (u : Nat) (f : Crew → Crew) : (s.modCrew u f).savedCores = s.savedCores := rfl
@[simp] theorem State.modCrew_colls (s : State) (u : Nat) (f : Crew → Crew) : (s.modCrew u f).colls = s.colls := rfl
@[simp] theorem State.modCrew_cmdq (s : State) (u : Nat) (f : Crew → Crew) : (s.modCrew u f).cmdq = s.cmdq := rfl
@[simp] theorem State.modCrew_cmds (s : State) (u : Nat) (f : Crew → Crew) : (s.modCrew u f).cmds = s.cmds := rfl
@[simp] theorem State.modCrew_procs (s : State) (u : Nat) (f : Crew → Crew) : (s.modCrew u f).procs = s.procs := rfl
@[simp] theorem State.modCrew_atomq (s : State) (u : Nat) (f : Crew → Crew) : (s.modCrew u f).atomq = s.atomq := rfl
@[simp] theorem State.modCrew_mails (s : State) (u : Nat) (f : Crew → Crew) : (s.modCrew u f).mails = s.mails := rfl
@[simp] theorem State.modCrew_regs (s : State) (u : Nat) (f : Crew → Crew) : (s.modCrew u f).regs = s.regs := rfl
@[simp] theorem State.modCrew_launches (s : State) (u : Nat) (f : Crew → Crew) : (s.modCrew u f).launches = s.launches := rfl
@[simp] theorem State.modCrew_inbound (s : State) (u : Nat) (f : Crew → Crew) : (s.modCrew u f).inbound = s.inbound := rfl
@[simp] theorem State.modCrew_keys (s : State) (u : Nat) (f : Crew → Crew) : (s.modCrew u f).keys = s.keys := rfl
@[simp] theorem State.modCrew_pathKeys (s : State) (u : Nat) (f : Crew → Crew) : (s.modCrew u f).pathKeys = s.pathKeys := rfl
@[simp] theorem State.modCrew_session (s : State) (u : Nat) (f : Crew → Crew) : (s.modCrew u f).session = s.session := rfl
@[simp] theorem State.modCrew_fwm (s : State) (u : Nat) (f : Crew → Crew) : (s.modCrew u f).fwm = s.fwm := rfl
@[simp] theorem State.modCrew_resets (s : State) (u : Nat) (f : Crew → Crew) : (s.modCrew u f).resets = s.resets := rfl
@[simp] theorem State.modCrew_bar0 (s : State) (u : Nat) (f : Crew → Crew) : (s.modCrew u f).bar0 = s.bar0 := rfl
@[simp] theorem State.modCrew_ports (s : State) (u : Nat) (f : Crew → Crew) : (s.modCrew u f).ports = s.ports := rfl
@[simp] theorem State.modCrew_ras (s : State) (u : Nat) (f : Crew → Crew) : (s.modCrew u f).ras = s.ras := rfl
@[simp] theorem State.modCrew_sent (s : State) (u : Nat) (f : Crew → Crew) : (s.modCrew u f).sent = s.sent := rfl

@[simp] theorem State.modCtx_cur (s : State) (i : Nat) (f : Ctx → Ctx) : (s.modCtx i f).cur = s.cur := rfl
@[simp] theorem State.modCtx_agenda (s : State) (i : Nat) (f : Ctx → Ctx) : (s.modCtx i f).agenda = s.agenda := rfl
@[simp] theorem State.modCtx_draws (s : State) (i : Nat) (f : Ctx → Ctx) : (s.modCtx i f).draws = s.draws := rfl
@[simp] theorem State.modCtx_nextId (s : State) (i : Nat) (f : Ctx → Ctx) : (s.modCtx i f).nextId = s.nextId := rfl
@[simp] theorem State.modCtx_reftime (s : State) (i : Nat) (f : Ctx → Ctx) : (s.modCtx i f).reftime = s.reftime := rfl
@[simp] theorem State.modCtx_clock (s : State) (i : Nat) (f : Ctx → Ctx) : (s.modCtx i f).clock = s.clock := rfl
@[simp] theorem State.modCtx_mem (s : State) (i : Nat) (f : Ctx → Ctx) : (s.modCtx i f).mem = s.mem := rfl
@[simp] theorem State.modCtx_lineKey (s : State) (i : Nat) (f : Ctx → Ctx) : (s.modCtx i f).lineKey = s.lineKey := rfl
@[simp] theorem State.modCtx_poison (s : State) (i : Nat) (f : Ctx → Ctx) : (s.modCtx i f).poison = s.poison := rfl
@[simp] theorem State.modCtx_caches (s : State) (i : Nat) (f : Ctx → Ctx) : (s.modCtx i f).caches = s.caches := rfl
@[simp] theorem State.modCtx_ulines (s : State) (i : Nat) (f : Ctx → Ctx) : (s.modCtx i f).ulines = s.ulines := rfl
@[simp] theorem State.modCtx_press (s : State) (i : Nat) (f : Ctx → Ctx) : (s.modCtx i f).press = s.press := rfl
@[simp] theorem State.modCtx_recalls (s : State) (i : Nat) (f : Ctx → Ctx) : (s.modCtx i f).recalls = s.recalls := rfl
@[simp] theorem State.modCtx_tlb (s : State) (i : Nat) (f : Ctx → Ctx) : (s.modCtx i f).tlb = s.tlb := rfl
@[simp] theorem State.modCtx_icache (s : State) (i : Nat) (f : Ctx → Ctx) : (s.modCtx i f).icache = s.icache := rfl
@[simp] theorem State.modCtx_crews (s : State) (i : Nat) (f : Ctx → Ctx) : (s.modCtx i f).crews = s.crews := rfl
@[simp] theorem State.modCtx_blocks (s : State) (i : Nat) (f : Ctx → Ctx) : (s.modCtx i f).blocks = s.blocks := rfl
@[simp] theorem State.modCtx_cores (s : State) (i : Nat) (f : Ctx → Ctx) : (s.modCtx i f).cores = s.cores := rfl
@[simp] theorem State.modCtx_runs (s : State) (i : Nat) (f : Ctx → Ctx) : (s.modCtx i f).runs = s.runs := rfl
@[simp] theorem State.modCtx_pdevs (s : State) (i : Nat) (f : Ctx → Ctx) : (s.modCtx i f).pdevs = s.pdevs := rfl
@[simp] theorem State.modCtx_credits (s : State) (i : Nat) (f : Ctx → Ctx) : (s.modCtx i f).credits = s.credits := rfl
@[simp] theorem State.modCtx_savedCores (s : State) (i : Nat) (f : Ctx → Ctx) : (s.modCtx i f).savedCores = s.savedCores := rfl
@[simp] theorem State.modCtx_colls (s : State) (i : Nat) (f : Ctx → Ctx) : (s.modCtx i f).colls = s.colls := rfl
@[simp] theorem State.modCtx_cmdq (s : State) (i : Nat) (f : Ctx → Ctx) : (s.modCtx i f).cmdq = s.cmdq := rfl
@[simp] theorem State.modCtx_cmds (s : State) (i : Nat) (f : Ctx → Ctx) : (s.modCtx i f).cmds = s.cmds := rfl
@[simp] theorem State.modCtx_procs (s : State) (i : Nat) (f : Ctx → Ctx) : (s.modCtx i f).procs = s.procs := rfl
@[simp] theorem State.modCtx_atomq (s : State) (i : Nat) (f : Ctx → Ctx) : (s.modCtx i f).atomq = s.atomq := rfl
@[simp] theorem State.modCtx_mails (s : State) (i : Nat) (f : Ctx → Ctx) : (s.modCtx i f).mails = s.mails := rfl
@[simp] theorem State.modCtx_regs (s : State) (i : Nat) (f : Ctx → Ctx) : (s.modCtx i f).regs = s.regs := rfl
@[simp] theorem State.modCtx_launches (s : State) (i : Nat) (f : Ctx → Ctx) : (s.modCtx i f).launches = s.launches := rfl
@[simp] theorem State.modCtx_inbound (s : State) (i : Nat) (f : Ctx → Ctx) : (s.modCtx i f).inbound = s.inbound := rfl
@[simp] theorem State.modCtx_keys (s : State) (i : Nat) (f : Ctx → Ctx) : (s.modCtx i f).keys = s.keys := rfl
@[simp] theorem State.modCtx_pathKeys (s : State) (i : Nat) (f : Ctx → Ctx) : (s.modCtx i f).pathKeys = s.pathKeys := rfl
@[simp] theorem State.modCtx_session (s : State) (i : Nat) (f : Ctx → Ctx) : (s.modCtx i f).session = s.session := rfl
@[simp] theorem State.modCtx_fwm (s : State) (i : Nat) (f : Ctx → Ctx) : (s.modCtx i f).fwm = s.fwm := rfl
@[simp] theorem State.modCtx_resets (s : State) (i : Nat) (f : Ctx → Ctx) : (s.modCtx i f).resets = s.resets := rfl
@[simp] theorem State.modCtx_bar0 (s : State) (i : Nat) (f : Ctx → Ctx) : (s.modCtx i f).bar0 = s.bar0 := rfl
@[simp] theorem State.modCtx_ports (s : State) (i : Nat) (f : Ctx → Ctx) : (s.modCtx i f).ports = s.ports := rfl
@[simp] theorem State.modCtx_ras (s : State) (i : Nat) (f : Ctx → Ctx) : (s.modCtx i f).ras = s.ras := rfl
@[simp] theorem State.modCtx_sent (s : State) (i : Nat) (f : Ctx → Ctx) : (s.modCtx i f).sent = s.sent := rfl

@[simp] theorem State.modPdev_cur (s : State) (d : Nat) (f : PDev → PDev) : (s.modPdev d f).cur = s.cur := rfl
@[simp] theorem State.modPdev_agenda (s : State) (d : Nat) (f : PDev → PDev) : (s.modPdev d f).agenda = s.agenda := rfl
@[simp] theorem State.modPdev_draws (s : State) (d : Nat) (f : PDev → PDev) : (s.modPdev d f).draws = s.draws := rfl
@[simp] theorem State.modPdev_nextId (s : State) (d : Nat) (f : PDev → PDev) : (s.modPdev d f).nextId = s.nextId := rfl
@[simp] theorem State.modPdev_reftime (s : State) (d : Nat) (f : PDev → PDev) : (s.modPdev d f).reftime = s.reftime := rfl
@[simp] theorem State.modPdev_clock (s : State) (d : Nat) (f : PDev → PDev) : (s.modPdev d f).clock = s.clock := rfl
@[simp] theorem State.modPdev_mem (s : State) (d : Nat) (f : PDev → PDev) : (s.modPdev d f).mem = s.mem := rfl
@[simp] theorem State.modPdev_lineKey (s : State) (d : Nat) (f : PDev → PDev) : (s.modPdev d f).lineKey = s.lineKey := rfl
@[simp] theorem State.modPdev_poison (s : State) (d : Nat) (f : PDev → PDev) : (s.modPdev d f).poison = s.poison := rfl
@[simp] theorem State.modPdev_caches (s : State) (d : Nat) (f : PDev → PDev) : (s.modPdev d f).caches = s.caches := rfl
@[simp] theorem State.modPdev_ulines (s : State) (d : Nat) (f : PDev → PDev) : (s.modPdev d f).ulines = s.ulines := rfl
@[simp] theorem State.modPdev_press (s : State) (d : Nat) (f : PDev → PDev) : (s.modPdev d f).press = s.press := rfl
@[simp] theorem State.modPdev_recalls (s : State) (d : Nat) (f : PDev → PDev) : (s.modPdev d f).recalls = s.recalls := rfl
@[simp] theorem State.modPdev_tlb (s : State) (d : Nat) (f : PDev → PDev) : (s.modPdev d f).tlb = s.tlb := rfl
@[simp] theorem State.modPdev_icache (s : State) (d : Nat) (f : PDev → PDev) : (s.modPdev d f).icache = s.icache := rfl
@[simp] theorem State.modPdev_crews (s : State) (d : Nat) (f : PDev → PDev) : (s.modPdev d f).crews = s.crews := rfl
@[simp] theorem State.modPdev_blocks (s : State) (d : Nat) (f : PDev → PDev) : (s.modPdev d f).blocks = s.blocks := rfl
@[simp] theorem State.modPdev_cores (s : State) (d : Nat) (f : PDev → PDev) : (s.modPdev d f).cores = s.cores := rfl
@[simp] theorem State.modPdev_ctxs (s : State) (d : Nat) (f : PDev → PDev) : (s.modPdev d f).ctxs = s.ctxs := rfl
@[simp] theorem State.modPdev_runs (s : State) (d : Nat) (f : PDev → PDev) : (s.modPdev d f).runs = s.runs := rfl
@[simp] theorem State.modPdev_credits (s : State) (d : Nat) (f : PDev → PDev) : (s.modPdev d f).credits = s.credits := rfl
@[simp] theorem State.modPdev_savedCores (s : State) (d : Nat) (f : PDev → PDev) : (s.modPdev d f).savedCores = s.savedCores := rfl
@[simp] theorem State.modPdev_colls (s : State) (d : Nat) (f : PDev → PDev) : (s.modPdev d f).colls = s.colls := rfl
@[simp] theorem State.modPdev_cmdq (s : State) (d : Nat) (f : PDev → PDev) : (s.modPdev d f).cmdq = s.cmdq := rfl
@[simp] theorem State.modPdev_cmds (s : State) (d : Nat) (f : PDev → PDev) : (s.modPdev d f).cmds = s.cmds := rfl
@[simp] theorem State.modPdev_procs (s : State) (d : Nat) (f : PDev → PDev) : (s.modPdev d f).procs = s.procs := rfl
@[simp] theorem State.modPdev_atomq (s : State) (d : Nat) (f : PDev → PDev) : (s.modPdev d f).atomq = s.atomq := rfl
@[simp] theorem State.modPdev_mails (s : State) (d : Nat) (f : PDev → PDev) : (s.modPdev d f).mails = s.mails := rfl
@[simp] theorem State.modPdev_regs (s : State) (d : Nat) (f : PDev → PDev) : (s.modPdev d f).regs = s.regs := rfl
@[simp] theorem State.modPdev_launches (s : State) (d : Nat) (f : PDev → PDev) : (s.modPdev d f).launches = s.launches := rfl
@[simp] theorem State.modPdev_inbound (s : State) (d : Nat) (f : PDev → PDev) : (s.modPdev d f).inbound = s.inbound := rfl
@[simp] theorem State.modPdev_keys (s : State) (d : Nat) (f : PDev → PDev) : (s.modPdev d f).keys = s.keys := rfl
@[simp] theorem State.modPdev_pathKeys (s : State) (d : Nat) (f : PDev → PDev) : (s.modPdev d f).pathKeys = s.pathKeys := rfl
@[simp] theorem State.modPdev_session (s : State) (d : Nat) (f : PDev → PDev) : (s.modPdev d f).session = s.session := rfl
@[simp] theorem State.modPdev_fwm (s : State) (d : Nat) (f : PDev → PDev) : (s.modPdev d f).fwm = s.fwm := rfl
@[simp] theorem State.modPdev_resets (s : State) (d : Nat) (f : PDev → PDev) : (s.modPdev d f).resets = s.resets := rfl
@[simp] theorem State.modPdev_bar0 (s : State) (d : Nat) (f : PDev → PDev) : (s.modPdev d f).bar0 = s.bar0 := rfl
@[simp] theorem State.modPdev_ports (s : State) (d : Nat) (f : PDev → PDev) : (s.modPdev d f).ports = s.ports := rfl
@[simp] theorem State.modPdev_ras (s : State) (d : Nat) (f : PDev → PDev) : (s.modPdev d f).ras = s.ras := rfl
@[simp] theorem State.modPdev_sent (s : State) (d : Nat) (f : PDev → PDev) : (s.modPdev d f).sent = s.sent := rfl

@[simp] theorem State.modCore_cur (s : State) (k : Nat) (f : Core → Core) : (s.modCore k f).cur = s.cur := rfl
@[simp] theorem State.modCore_agenda (s : State) (k : Nat) (f : Core → Core) : (s.modCore k f).agenda = s.agenda := rfl
@[simp] theorem State.modCore_draws (s : State) (k : Nat) (f : Core → Core) : (s.modCore k f).draws = s.draws := rfl
@[simp] theorem State.modCore_nextId (s : State) (k : Nat) (f : Core → Core) : (s.modCore k f).nextId = s.nextId := rfl
@[simp] theorem State.modCore_reftime (s : State) (k : Nat) (f : Core → Core) : (s.modCore k f).reftime = s.reftime := rfl
@[simp] theorem State.modCore_clock (s : State) (k : Nat) (f : Core → Core) : (s.modCore k f).clock = s.clock := rfl
@[simp] theorem State.modCore_mem (s : State) (k : Nat) (f : Core → Core) : (s.modCore k f).mem = s.mem := rfl
@[simp] theorem State.modCore_lineKey (s : State) (k : Nat) (f : Core → Core) : (s.modCore k f).lineKey = s.lineKey := rfl
@[simp] theorem State.modCore_poison (s : State) (k : Nat) (f : Core → Core) : (s.modCore k f).poison = s.poison := rfl
@[simp] theorem State.modCore_caches (s : State) (k : Nat) (f : Core → Core) : (s.modCore k f).caches = s.caches := rfl
@[simp] theorem State.modCore_ulines (s : State) (k : Nat) (f : Core → Core) : (s.modCore k f).ulines = s.ulines := rfl
@[simp] theorem State.modCore_press (s : State) (k : Nat) (f : Core → Core) : (s.modCore k f).press = s.press := rfl
@[simp] theorem State.modCore_recalls (s : State) (k : Nat) (f : Core → Core) : (s.modCore k f).recalls = s.recalls := rfl
@[simp] theorem State.modCore_tlb (s : State) (k : Nat) (f : Core → Core) : (s.modCore k f).tlb = s.tlb := rfl
@[simp] theorem State.modCore_icache (s : State) (k : Nat) (f : Core → Core) : (s.modCore k f).icache = s.icache := rfl
@[simp] theorem State.modCore_crews (s : State) (k : Nat) (f : Core → Core) : (s.modCore k f).crews = s.crews := rfl
@[simp] theorem State.modCore_blocks (s : State) (k : Nat) (f : Core → Core) : (s.modCore k f).blocks = s.blocks := rfl
@[simp] theorem State.modCore_ctxs (s : State) (k : Nat) (f : Core → Core) : (s.modCore k f).ctxs = s.ctxs := rfl
@[simp] theorem State.modCore_runs (s : State) (k : Nat) (f : Core → Core) : (s.modCore k f).runs = s.runs := rfl
@[simp] theorem State.modCore_pdevs (s : State) (k : Nat) (f : Core → Core) : (s.modCore k f).pdevs = s.pdevs := rfl
@[simp] theorem State.modCore_credits (s : State) (k : Nat) (f : Core → Core) : (s.modCore k f).credits = s.credits := rfl
@[simp] theorem State.modCore_savedCores (s : State) (k : Nat) (f : Core → Core) : (s.modCore k f).savedCores = s.savedCores := rfl
@[simp] theorem State.modCore_colls (s : State) (k : Nat) (f : Core → Core) : (s.modCore k f).colls = s.colls := rfl
@[simp] theorem State.modCore_cmdq (s : State) (k : Nat) (f : Core → Core) : (s.modCore k f).cmdq = s.cmdq := rfl
@[simp] theorem State.modCore_cmds (s : State) (k : Nat) (f : Core → Core) : (s.modCore k f).cmds = s.cmds := rfl
@[simp] theorem State.modCore_procs (s : State) (k : Nat) (f : Core → Core) : (s.modCore k f).procs = s.procs := rfl
@[simp] theorem State.modCore_atomq (s : State) (k : Nat) (f : Core → Core) : (s.modCore k f).atomq = s.atomq := rfl
@[simp] theorem State.modCore_mails (s : State) (k : Nat) (f : Core → Core) : (s.modCore k f).mails = s.mails := rfl
@[simp] theorem State.modCore_regs (s : State) (k : Nat) (f : Core → Core) : (s.modCore k f).regs = s.regs := rfl
@[simp] theorem State.modCore_launches (s : State) (k : Nat) (f : Core → Core) : (s.modCore k f).launches = s.launches := rfl
@[simp] theorem State.modCore_inbound (s : State) (k : Nat) (f : Core → Core) : (s.modCore k f).inbound = s.inbound := rfl
@[simp] theorem State.modCore_keys (s : State) (k : Nat) (f : Core → Core) : (s.modCore k f).keys = s.keys := rfl
@[simp] theorem State.modCore_pathKeys (s : State) (k : Nat) (f : Core → Core) : (s.modCore k f).pathKeys = s.pathKeys := rfl
@[simp] theorem State.modCore_session (s : State) (k : Nat) (f : Core → Core) : (s.modCore k f).session = s.session := rfl
@[simp] theorem State.modCore_fwm (s : State) (k : Nat) (f : Core → Core) : (s.modCore k f).fwm = s.fwm := rfl
@[simp] theorem State.modCore_resets (s : State) (k : Nat) (f : Core → Core) : (s.modCore k f).resets = s.resets := rfl
@[simp] theorem State.modCore_bar0 (s : State) (k : Nat) (f : Core → Core) : (s.modCore k f).bar0 = s.bar0 := rfl
@[simp] theorem State.modCore_ports (s : State) (k : Nat) (f : Core → Core) : (s.modCore k f).ports = s.ports := rfl
@[simp] theorem State.modCore_ras (s : State) (k : Nat) (f : Core → Core) : (s.modCore k f).ras = s.ras := rfl
@[simp] theorem State.modCore_sent (s : State) (k : Nat) (f : Core → Core) : (s.modCore k f).sent = s.sent := rfl

@[simp] theorem State.writeMem_cur (s : State) (a n x : Nat) : (s.writeMem a n x).cur = s.cur := rfl
@[simp] theorem State.writeMem_agenda (s : State) (a n x : Nat) : (s.writeMem a n x).agenda = s.agenda := rfl
@[simp] theorem State.writeMem_draws (s : State) (a n x : Nat) : (s.writeMem a n x).draws = s.draws := rfl
@[simp] theorem State.writeMem_nextId (s : State) (a n x : Nat) : (s.writeMem a n x).nextId = s.nextId := rfl
@[simp] theorem State.writeMem_reftime (s : State) (a n x : Nat) : (s.writeMem a n x).reftime = s.reftime := rfl
@[simp] theorem State.writeMem_clock (s : State) (a n x : Nat) : (s.writeMem a n x).clock = s.clock := rfl
@[simp] theorem State.writeMem_lineKey (s : State) (a n x : Nat) : (s.writeMem a n x).lineKey = s.lineKey := rfl
@[simp] theorem State.writeMem_poison (s : State) (a n x : Nat) : (s.writeMem a n x).poison = s.poison := rfl
@[simp] theorem State.writeMem_caches (s : State) (a n x : Nat) : (s.writeMem a n x).caches = s.caches := rfl
@[simp] theorem State.writeMem_ulines (s : State) (a n x : Nat) : (s.writeMem a n x).ulines = s.ulines := rfl
@[simp] theorem State.writeMem_press (s : State) (a n x : Nat) : (s.writeMem a n x).press = s.press := rfl
@[simp] theorem State.writeMem_recalls (s : State) (a n x : Nat) : (s.writeMem a n x).recalls = s.recalls := rfl
@[simp] theorem State.writeMem_tlb (s : State) (a n x : Nat) : (s.writeMem a n x).tlb = s.tlb := rfl
@[simp] theorem State.writeMem_icache (s : State) (a n x : Nat) : (s.writeMem a n x).icache = s.icache := rfl
@[simp] theorem State.writeMem_crews (s : State) (a n x : Nat) : (s.writeMem a n x).crews = s.crews := rfl
@[simp] theorem State.writeMem_blocks (s : State) (a n x : Nat) : (s.writeMem a n x).blocks = s.blocks := rfl
@[simp] theorem State.writeMem_cores (s : State) (a n x : Nat) : (s.writeMem a n x).cores = s.cores := rfl
@[simp] theorem State.writeMem_ctxs (s : State) (a n x : Nat) : (s.writeMem a n x).ctxs = s.ctxs := rfl
@[simp] theorem State.writeMem_runs (s : State) (a n x : Nat) : (s.writeMem a n x).runs = s.runs := rfl
@[simp] theorem State.writeMem_pdevs (s : State) (a n x : Nat) : (s.writeMem a n x).pdevs = s.pdevs := rfl
@[simp] theorem State.writeMem_credits (s : State) (a n x : Nat) : (s.writeMem a n x).credits = s.credits := rfl
@[simp] theorem State.writeMem_savedCores (s : State) (a n x : Nat) : (s.writeMem a n x).savedCores = s.savedCores := rfl
@[simp] theorem State.writeMem_colls (s : State) (a n x : Nat) : (s.writeMem a n x).colls = s.colls := rfl
@[simp] theorem State.writeMem_cmdq (s : State) (a n x : Nat) : (s.writeMem a n x).cmdq = s.cmdq := rfl
@[simp] theorem State.writeMem_cmds (s : State) (a n x : Nat) : (s.writeMem a n x).cmds = s.cmds := rfl
@[simp] theorem State.writeMem_procs (s : State) (a n x : Nat) : (s.writeMem a n x).procs = s.procs := rfl
@[simp] theorem State.writeMem_atomq (s : State) (a n x : Nat) : (s.writeMem a n x).atomq = s.atomq := rfl
@[simp] theorem State.writeMem_mails (s : State) (a n x : Nat) : (s.writeMem a n x).mails = s.mails := rfl
@[simp] theorem State.writeMem_regs (s : State) (a n x : Nat) : (s.writeMem a n x).regs = s.regs := rfl
@[simp] theorem State.writeMem_launches (s : State) (a n x : Nat) : (s.writeMem a n x).launches = s.launches := rfl
@[simp] theorem State.writeMem_inbound (s : State) (a n x : Nat) : (s.writeMem a n x).inbound = s.inbound := rfl
@[simp] theorem State.writeMem_keys (s : State) (a n x : Nat) : (s.writeMem a n x).keys = s.keys := rfl
@[simp] theorem State.writeMem_pathKeys (s : State) (a n x : Nat) : (s.writeMem a n x).pathKeys = s.pathKeys := rfl
@[simp] theorem State.writeMem_session (s : State) (a n x : Nat) : (s.writeMem a n x).session = s.session := rfl
@[simp] theorem State.writeMem_fwm (s : State) (a n x : Nat) : (s.writeMem a n x).fwm = s.fwm := rfl
@[simp] theorem State.writeMem_resets (s : State) (a n x : Nat) : (s.writeMem a n x).resets = s.resets := rfl
@[simp] theorem State.writeMem_bar0 (s : State) (a n x : Nat) : (s.writeMem a n x).bar0 = s.bar0 := rfl
@[simp] theorem State.writeMem_ports (s : State) (a n x : Nat) : (s.writeMem a n x).ports = s.ports := rfl
@[simp] theorem State.writeMem_ras (s : State) (a n x : Nat) : (s.writeMem a n x).ras = s.ras := rfl
@[simp] theorem State.writeMem_sent (s : State) (a n x : Nat) : (s.writeMem a n x).sent = s.sent := rfl

@[simp] theorem Crew.vset_uid (c : Crew) (l n : Nat) (w : Word) : (c.vset l n w).uid = c.uid := rfl
@[simp] theorem Crew.vset_ctx (c : Crew) (l n : Nat) (w : Word) : (c.vset l n w).ctx = c.ctx := rfl
@[simp] theorem Crew.vset_run (c : Crew) (l n : Nat) (w : Word) : (c.vset l n w).run = c.run := rfl
@[simp] theorem Crew.vset_block (c : Crew) (l n : Nat) (w : Word) : (c.vset l n w).block = c.block := rfl
@[simp] theorem Crew.vset_core (c : Crew) (l n : Nat) (w : Word) : (c.vset l n w).core = c.core := rfl
@[simp] theorem Crew.vset_sched (c : Crew) (l n : Nat) (w : Word) : (c.vset l n w).sched = c.sched := rfl
@[simp] theorem Crew.vset_slot (c : Crew) (l n : Nat) (w : Word) : (c.vset l n w).slot = c.slot := rfl
@[simp] theorem Crew.vset_regOff (c : Crew) (l n : Nat) (w : Word) : (c.vset l n w).regOff = c.regOff := rfl
@[simp] theorem Crew.vset_vregs (c : Crew) (l n : Nat) (w : Word) : (c.vset l n w).vregs = c.vregs := rfl
@[simp] theorem Crew.vset_crewid (c : Crew) (l n : Nat) (w : Word) : (c.vset l n w).crewid = c.crewid := rfl
@[simp] theorem Crew.vset_p (c : Crew) (l n : Nat) (w : Word) : (c.vset l n w).p = c.p := rfl
@[simp] theorem Crew.vset_fflags (c : Crew) (l n : Nat) (w : Word) : (c.vset l n w).fflags = c.fflags := rfl
@[simp] theorem Crew.vset_frm (c : Crew) (l n : Nat) (w : Word) : (c.vset l n w).frm = c.frm := rfl
@[simp] theorem Crew.vset_hyp (c : Crew) (l n : Nat) (w : Word) : (c.vset l n w).hyp = c.hyp := rfl
@[simp] theorem Crew.vset_hxh (c : Crew) (l n : Nat) (w : Word) : (c.vset l n w).hxh = c.hxh := rfl
@[simp] theorem Crew.vset_pend (c : Crew) (l n : Nat) (w : Word) : (c.vset l n w).pend = c.pend := rfl
@[simp] theorem Crew.vset_emask (c : Crew) (l n : Nat) (w : Word) : (c.vset l n w).emask = c.emask := rfl
@[simp] theorem Crew.vset_evwhich (c : Crew) (l n : Nat) (w : Word) : (c.vset l n w).evwhich = c.evwhich := rfl
@[simp] theorem Crew.vset_evdata (c : Crew) (l n : Nat) (w : Word) : (c.vset l n w).evdata = c.evdata := rfl
@[simp] theorem Crew.vset_slots (c : Crew) (l n : Nat) (w : Word) : (c.vset l n w).slots = c.slots := rfl
@[simp] theorem Crew.vset_urgent (c : Crew) (l n : Nat) (w : Word) : (c.vset l n w).urgent = c.urgent := rfl
@[simp] theorem Crew.vset_turn (c : Crew) (l n : Nat) (w : Word) : (c.vset l n w).turn = c.turn := rfl
@[simp] theorem Crew.vset_tvec (c : Crew) (l n : Nat) (w : Word) : (c.vset l n w).tvec = c.tvec := rfl
@[simp] theorem Crew.vset_tm (c : Crew) (l n : Nat) (w : Word) : (c.vset l n w).tm = c.tm := rfl
@[simp] theorem Crew.vset_mask (c : Crew) (l n : Nat) (w : Word) : (c.vset l n w).mask = c.mask := rfl
@[simp] theorem Crew.vset_held (c : Crew) (l n : Nat) (w : Word) : (c.vset l n w).held = c.held := rfl
@[simp] theorem Crew.vset_trap (c : Crew) (l n : Nat) (w : Word) : (c.vset l n w).trap = c.trap := rfl
@[simp] theorem Crew.vset_waddr (c : Crew) (l n : Nat) (w : Word) : (c.vset l n w).waddr = c.waddr := rfl
@[simp] theorem Crew.vset_wrd (c : Crew) (l n : Nat) (w : Word) : (c.vset l n w).wrd = c.wrd := rfl
@[simp] theorem Crew.vset_wwr (c : Crew) (l n : Nat) (w : Word) : (c.vset l n w).wwr = c.wwr := rfl
@[simp] theorem Crew.vset_wk (c : Crew) (l n : Nat) (w : Word) : (c.vset l n w).wk = c.wk := rfl
@[simp] theorem Crew.vset_frame (c : Crew) (l n : Nat) (w : Word) : (c.vset l n w).frame = c.frame := rfl
@[simp] theorem Crew.vset_late (c : Crew) (l n : Nat) (w : Word) : (c.vset l n w).late = c.late := rfl
@[simp] theorem Crew.vset_lateGang (c : Crew) (l n : Nat) (w : Word) : (c.vset l n w).lateGang = c.lateGang := rfl
@[simp] theorem Crew.vset_stopped (c : Crew) (l n : Nat) (w : Word) : (c.vset l n w).stopped = c.stopped := rfl
@[simp] theorem Crew.vset_faulted (c : Crew) (l n : Nat) (w : Word) : (c.vset l n w).faulted = c.faulted := rfl
@[simp] theorem Crew.vset_faultSeq (c : Crew) (l n : Nat) (w : Word) : (c.vset l n w).faultSeq = c.faultSeq := rfl
@[simp] theorem Crew.vset_preempted (c : Crew) (l n : Nat) (w : Word) : (c.vset l n w).preempted = c.preempted := rfl
@[simp] theorem Crew.vset_saved (c : Crew) (l n : Nat) (w : Word) : (c.vset l n w).saved = c.saved := rfl
@[simp] theorem Crew.vset_orphan (c : Crew) (l n : Nat) (w : Word) : (c.vset l n w).orphan = c.orphan := rfl
@[simp] theorem Crew.vset_window (c : Crew) (l n : Nat) (w : Word) : (c.vset l n w).window = c.window := rfl
@[simp] theorem Crew.vset_windowSaved (c : Crew) (l n : Nat) (w : Word) : (c.vset l n w).windowSaved = c.windowSaved := rfl

@[simp] theorem Crew.modSlice_uid (c : Crew) (i : Nat) (f : Slice → Slice) : (c.modSlice i f).uid = c.uid := rfl
@[simp] theorem Crew.modSlice_ctx (c : Crew) (i : Nat) (f : Slice → Slice) : (c.modSlice i f).ctx = c.ctx := rfl
@[simp] theorem Crew.modSlice_run (c : Crew) (i : Nat) (f : Slice → Slice) : (c.modSlice i f).run = c.run := rfl
@[simp] theorem Crew.modSlice_block (c : Crew) (i : Nat) (f : Slice → Slice) : (c.modSlice i f).block = c.block := rfl
@[simp] theorem Crew.modSlice_core (c : Crew) (i : Nat) (f : Slice → Slice) : (c.modSlice i f).core = c.core := rfl
@[simp] theorem Crew.modSlice_sched (c : Crew) (i : Nat) (f : Slice → Slice) : (c.modSlice i f).sched = c.sched := rfl
@[simp] theorem Crew.modSlice_slot (c : Crew) (i : Nat) (f : Slice → Slice) : (c.modSlice i f).slot = c.slot := rfl
@[simp] theorem Crew.modSlice_regOff (c : Crew) (i : Nat) (f : Slice → Slice) : (c.modSlice i f).regOff = c.regOff := rfl
@[simp] theorem Crew.modSlice_vregs (c : Crew) (i : Nat) (f : Slice → Slice) : (c.modSlice i f).vregs = c.vregs := rfl
@[simp] theorem Crew.modSlice_crewid (c : Crew) (i : Nat) (f : Slice → Slice) : (c.modSlice i f).crewid = c.crewid := rfl
@[simp] theorem Crew.modSlice_v (c : Crew) (i : Nat) (f : Slice → Slice) : (c.modSlice i f).v = c.v := rfl
@[simp] theorem Crew.modSlice_p (c : Crew) (i : Nat) (f : Slice → Slice) : (c.modSlice i f).p = c.p := rfl
@[simp] theorem Crew.modSlice_fflags (c : Crew) (i : Nat) (f : Slice → Slice) : (c.modSlice i f).fflags = c.fflags := rfl
@[simp] theorem Crew.modSlice_frm (c : Crew) (i : Nat) (f : Slice → Slice) : (c.modSlice i f).frm = c.frm := rfl
@[simp] theorem Crew.modSlice_hyp (c : Crew) (i : Nat) (f : Slice → Slice) : (c.modSlice i f).hyp = c.hyp := rfl
@[simp] theorem Crew.modSlice_hxh (c : Crew) (i : Nat) (f : Slice → Slice) : (c.modSlice i f).hxh = c.hxh := rfl
@[simp] theorem Crew.modSlice_pend (c : Crew) (i : Nat) (f : Slice → Slice) : (c.modSlice i f).pend = c.pend := rfl
@[simp] theorem Crew.modSlice_emask (c : Crew) (i : Nat) (f : Slice → Slice) : (c.modSlice i f).emask = c.emask := rfl
@[simp] theorem Crew.modSlice_evwhich (c : Crew) (i : Nat) (f : Slice → Slice) : (c.modSlice i f).evwhich = c.evwhich := rfl
@[simp] theorem Crew.modSlice_evdata (c : Crew) (i : Nat) (f : Slice → Slice) : (c.modSlice i f).evdata = c.evdata := rfl
@[simp] theorem Crew.modSlice_slots (c : Crew) (i : Nat) (f : Slice → Slice) : (c.modSlice i f).slots = c.slots := rfl
@[simp] theorem Crew.modSlice_urgent (c : Crew) (i : Nat) (f : Slice → Slice) : (c.modSlice i f).urgent = c.urgent := rfl
@[simp] theorem Crew.modSlice_turn (c : Crew) (i : Nat) (f : Slice → Slice) : (c.modSlice i f).turn = c.turn := rfl
@[simp] theorem Crew.modSlice_tvec (c : Crew) (i : Nat) (f : Slice → Slice) : (c.modSlice i f).tvec = c.tvec := rfl
@[simp] theorem Crew.modSlice_tm (c : Crew) (i : Nat) (f : Slice → Slice) : (c.modSlice i f).tm = c.tm := rfl
@[simp] theorem Crew.modSlice_mask (c : Crew) (i : Nat) (f : Slice → Slice) : (c.modSlice i f).mask = c.mask := rfl
@[simp] theorem Crew.modSlice_held (c : Crew) (i : Nat) (f : Slice → Slice) : (c.modSlice i f).held = c.held := rfl
@[simp] theorem Crew.modSlice_trap (c : Crew) (i : Nat) (f : Slice → Slice) : (c.modSlice i f).trap = c.trap := rfl
@[simp] theorem Crew.modSlice_waddr (c : Crew) (i : Nat) (f : Slice → Slice) : (c.modSlice i f).waddr = c.waddr := rfl
@[simp] theorem Crew.modSlice_wrd (c : Crew) (i : Nat) (f : Slice → Slice) : (c.modSlice i f).wrd = c.wrd := rfl
@[simp] theorem Crew.modSlice_wwr (c : Crew) (i : Nat) (f : Slice → Slice) : (c.modSlice i f).wwr = c.wwr := rfl
@[simp] theorem Crew.modSlice_wk (c : Crew) (i : Nat) (f : Slice → Slice) : (c.modSlice i f).wk = c.wk := rfl
@[simp] theorem Crew.modSlice_frame (c : Crew) (i : Nat) (f : Slice → Slice) : (c.modSlice i f).frame = c.frame := rfl
@[simp] theorem Crew.modSlice_late (c : Crew) (i : Nat) (f : Slice → Slice) : (c.modSlice i f).late = c.late := rfl
@[simp] theorem Crew.modSlice_lateGang (c : Crew) (i : Nat) (f : Slice → Slice) : (c.modSlice i f).lateGang = c.lateGang := rfl
@[simp] theorem Crew.modSlice_stopped (c : Crew) (i : Nat) (f : Slice → Slice) : (c.modSlice i f).stopped = c.stopped := rfl
@[simp] theorem Crew.modSlice_faulted (c : Crew) (i : Nat) (f : Slice → Slice) : (c.modSlice i f).faulted = c.faulted := rfl
@[simp] theorem Crew.modSlice_faultSeq (c : Crew) (i : Nat) (f : Slice → Slice) : (c.modSlice i f).faultSeq = c.faultSeq := rfl
@[simp] theorem Crew.modSlice_preempted (c : Crew) (i : Nat) (f : Slice → Slice) : (c.modSlice i f).preempted = c.preempted := rfl
@[simp] theorem Crew.modSlice_saved (c : Crew) (i : Nat) (f : Slice → Slice) : (c.modSlice i f).saved = c.saved := rfl
@[simp] theorem Crew.modSlice_orphan (c : Crew) (i : Nat) (f : Slice → Slice) : (c.modSlice i f).orphan = c.orphan := rfl
@[simp] theorem Crew.modSlice_window (c : Crew) (i : Nat) (f : Slice → Slice) : (c.modSlice i f).window = c.window := rfl
@[simp] theorem Crew.modSlice_windowSaved (c : Crew) (i : Nat) (f : Slice → Slice) : (c.modSlice i f).windowSaved = c.windowSaved := rfl

@[simp] theorem Crew.modGang_uid (c : Crew) (g : Nat) (f : Slice → Slice) : (c.modGang g f).uid = c.uid := rfl
@[simp] theorem Crew.modGang_ctx (c : Crew) (g : Nat) (f : Slice → Slice) : (c.modGang g f).ctx = c.ctx := rfl
@[simp] theorem Crew.modGang_run (c : Crew) (g : Nat) (f : Slice → Slice) : (c.modGang g f).run = c.run := rfl
@[simp] theorem Crew.modGang_block (c : Crew) (g : Nat) (f : Slice → Slice) : (c.modGang g f).block = c.block := rfl
@[simp] theorem Crew.modGang_core (c : Crew) (g : Nat) (f : Slice → Slice) : (c.modGang g f).core = c.core := rfl
@[simp] theorem Crew.modGang_sched (c : Crew) (g : Nat) (f : Slice → Slice) : (c.modGang g f).sched = c.sched := rfl
@[simp] theorem Crew.modGang_slot (c : Crew) (g : Nat) (f : Slice → Slice) : (c.modGang g f).slot = c.slot := rfl
@[simp] theorem Crew.modGang_regOff (c : Crew) (g : Nat) (f : Slice → Slice) : (c.modGang g f).regOff = c.regOff := rfl
@[simp] theorem Crew.modGang_vregs (c : Crew) (g : Nat) (f : Slice → Slice) : (c.modGang g f).vregs = c.vregs := rfl
@[simp] theorem Crew.modGang_crewid (c : Crew) (g : Nat) (f : Slice → Slice) : (c.modGang g f).crewid = c.crewid := rfl
@[simp] theorem Crew.modGang_v (c : Crew) (g : Nat) (f : Slice → Slice) : (c.modGang g f).v = c.v := rfl
@[simp] theorem Crew.modGang_p (c : Crew) (g : Nat) (f : Slice → Slice) : (c.modGang g f).p = c.p := rfl
@[simp] theorem Crew.modGang_fflags (c : Crew) (g : Nat) (f : Slice → Slice) : (c.modGang g f).fflags = c.fflags := rfl
@[simp] theorem Crew.modGang_frm (c : Crew) (g : Nat) (f : Slice → Slice) : (c.modGang g f).frm = c.frm := rfl
@[simp] theorem Crew.modGang_hyp (c : Crew) (g : Nat) (f : Slice → Slice) : (c.modGang g f).hyp = c.hyp := rfl
@[simp] theorem Crew.modGang_hxh (c : Crew) (g : Nat) (f : Slice → Slice) : (c.modGang g f).hxh = c.hxh := rfl
@[simp] theorem Crew.modGang_pend (c : Crew) (g : Nat) (f : Slice → Slice) : (c.modGang g f).pend = c.pend := rfl
@[simp] theorem Crew.modGang_emask (c : Crew) (g : Nat) (f : Slice → Slice) : (c.modGang g f).emask = c.emask := rfl
@[simp] theorem Crew.modGang_evwhich (c : Crew) (g : Nat) (f : Slice → Slice) : (c.modGang g f).evwhich = c.evwhich := rfl
@[simp] theorem Crew.modGang_evdata (c : Crew) (g : Nat) (f : Slice → Slice) : (c.modGang g f).evdata = c.evdata := rfl
@[simp] theorem Crew.modGang_slots (c : Crew) (g : Nat) (f : Slice → Slice) : (c.modGang g f).slots = c.slots := rfl
@[simp] theorem Crew.modGang_urgent (c : Crew) (g : Nat) (f : Slice → Slice) : (c.modGang g f).urgent = c.urgent := rfl
@[simp] theorem Crew.modGang_turn (c : Crew) (g : Nat) (f : Slice → Slice) : (c.modGang g f).turn = c.turn := rfl
@[simp] theorem Crew.modGang_tvec (c : Crew) (g : Nat) (f : Slice → Slice) : (c.modGang g f).tvec = c.tvec := rfl
@[simp] theorem Crew.modGang_tm (c : Crew) (g : Nat) (f : Slice → Slice) : (c.modGang g f).tm = c.tm := rfl
@[simp] theorem Crew.modGang_mask (c : Crew) (g : Nat) (f : Slice → Slice) : (c.modGang g f).mask = c.mask := rfl
@[simp] theorem Crew.modGang_held (c : Crew) (g : Nat) (f : Slice → Slice) : (c.modGang g f).held = c.held := rfl
@[simp] theorem Crew.modGang_trap (c : Crew) (g : Nat) (f : Slice → Slice) : (c.modGang g f).trap = c.trap := rfl
@[simp] theorem Crew.modGang_waddr (c : Crew) (g : Nat) (f : Slice → Slice) : (c.modGang g f).waddr = c.waddr := rfl
@[simp] theorem Crew.modGang_wrd (c : Crew) (g : Nat) (f : Slice → Slice) : (c.modGang g f).wrd = c.wrd := rfl
@[simp] theorem Crew.modGang_wwr (c : Crew) (g : Nat) (f : Slice → Slice) : (c.modGang g f).wwr = c.wwr := rfl
@[simp] theorem Crew.modGang_wk (c : Crew) (g : Nat) (f : Slice → Slice) : (c.modGang g f).wk = c.wk := rfl
@[simp] theorem Crew.modGang_frame (c : Crew) (g : Nat) (f : Slice → Slice) : (c.modGang g f).frame = c.frame := rfl
@[simp] theorem Crew.modGang_late (c : Crew) (g : Nat) (f : Slice → Slice) : (c.modGang g f).late = c.late := rfl
@[simp] theorem Crew.modGang_lateGang (c : Crew) (g : Nat) (f : Slice → Slice) : (c.modGang g f).lateGang = c.lateGang := rfl
@[simp] theorem Crew.modGang_stopped (c : Crew) (g : Nat) (f : Slice → Slice) : (c.modGang g f).stopped = c.stopped := rfl
@[simp] theorem Crew.modGang_faulted (c : Crew) (g : Nat) (f : Slice → Slice) : (c.modGang g f).faulted = c.faulted := rfl
@[simp] theorem Crew.modGang_faultSeq (c : Crew) (g : Nat) (f : Slice → Slice) : (c.modGang g f).faultSeq = c.faultSeq := rfl
@[simp] theorem Crew.modGang_preempted (c : Crew) (g : Nat) (f : Slice → Slice) : (c.modGang g f).preempted = c.preempted := rfl
@[simp] theorem Crew.modGang_saved (c : Crew) (g : Nat) (f : Slice → Slice) : (c.modGang g f).saved = c.saved := rfl
@[simp] theorem Crew.modGang_orphan (c : Crew) (g : Nat) (f : Slice → Slice) : (c.modGang g f).orphan = c.orphan := rfl
@[simp] theorem Crew.modGang_window (c : Crew) (g : Nat) (f : Slice → Slice) : (c.modGang g f).window = c.window := rfl
@[simp] theorem Crew.modGang_windowSaved (c : Crew) (g : Nat) (f : Slice → Slice) : (c.modGang g f).windowSaved = c.windowSaved := rfl

@[simp] theorem Crew.advance_uid (c : Crew) (g n : Nat) : (c.advance g n).uid = c.uid := rfl
@[simp] theorem Crew.advance_ctx (c : Crew) (g n : Nat) : (c.advance g n).ctx = c.ctx := rfl
@[simp] theorem Crew.advance_run (c : Crew) (g n : Nat) : (c.advance g n).run = c.run := rfl
@[simp] theorem Crew.advance_block (c : Crew) (g n : Nat) : (c.advance g n).block = c.block := rfl
@[simp] theorem Crew.advance_core (c : Crew) (g n : Nat) : (c.advance g n).core = c.core := rfl
@[simp] theorem Crew.advance_sched (c : Crew) (g n : Nat) : (c.advance g n).sched = c.sched := rfl
@[simp] theorem Crew.advance_slot (c : Crew) (g n : Nat) : (c.advance g n).slot = c.slot := rfl
@[simp] theorem Crew.advance_regOff (c : Crew) (g n : Nat) : (c.advance g n).regOff = c.regOff := rfl
@[simp] theorem Crew.advance_vregs (c : Crew) (g n : Nat) : (c.advance g n).vregs = c.vregs := rfl
@[simp] theorem Crew.advance_crewid (c : Crew) (g n : Nat) : (c.advance g n).crewid = c.crewid := rfl
@[simp] theorem Crew.advance_v (c : Crew) (g n : Nat) : (c.advance g n).v = c.v := rfl
@[simp] theorem Crew.advance_p (c : Crew) (g n : Nat) : (c.advance g n).p = c.p := rfl
@[simp] theorem Crew.advance_fflags (c : Crew) (g n : Nat) : (c.advance g n).fflags = c.fflags := rfl
@[simp] theorem Crew.advance_frm (c : Crew) (g n : Nat) : (c.advance g n).frm = c.frm := rfl
@[simp] theorem Crew.advance_hyp (c : Crew) (g n : Nat) : (c.advance g n).hyp = c.hyp := rfl
@[simp] theorem Crew.advance_hxh (c : Crew) (g n : Nat) : (c.advance g n).hxh = c.hxh := rfl
@[simp] theorem Crew.advance_pend (c : Crew) (g n : Nat) : (c.advance g n).pend = c.pend := rfl
@[simp] theorem Crew.advance_emask (c : Crew) (g n : Nat) : (c.advance g n).emask = c.emask := rfl
@[simp] theorem Crew.advance_evwhich (c : Crew) (g n : Nat) : (c.advance g n).evwhich = c.evwhich := rfl
@[simp] theorem Crew.advance_evdata (c : Crew) (g n : Nat) : (c.advance g n).evdata = c.evdata := rfl
@[simp] theorem Crew.advance_slots (c : Crew) (g n : Nat) : (c.advance g n).slots = c.slots := rfl
@[simp] theorem Crew.advance_urgent (c : Crew) (g n : Nat) : (c.advance g n).urgent = c.urgent := rfl
@[simp] theorem Crew.advance_turn (c : Crew) (g n : Nat) : (c.advance g n).turn = c.turn := rfl
@[simp] theorem Crew.advance_tvec (c : Crew) (g n : Nat) : (c.advance g n).tvec = c.tvec := rfl
@[simp] theorem Crew.advance_tm (c : Crew) (g n : Nat) : (c.advance g n).tm = c.tm := rfl
@[simp] theorem Crew.advance_mask (c : Crew) (g n : Nat) : (c.advance g n).mask = c.mask := rfl
@[simp] theorem Crew.advance_held (c : Crew) (g n : Nat) : (c.advance g n).held = c.held := rfl
@[simp] theorem Crew.advance_trap (c : Crew) (g n : Nat) : (c.advance g n).trap = c.trap := rfl
@[simp] theorem Crew.advance_waddr (c : Crew) (g n : Nat) : (c.advance g n).waddr = c.waddr := rfl
@[simp] theorem Crew.advance_wrd (c : Crew) (g n : Nat) : (c.advance g n).wrd = c.wrd := rfl
@[simp] theorem Crew.advance_wwr (c : Crew) (g n : Nat) : (c.advance g n).wwr = c.wwr := rfl
@[simp] theorem Crew.advance_wk (c : Crew) (g n : Nat) : (c.advance g n).wk = c.wk := rfl
@[simp] theorem Crew.advance_frame (c : Crew) (g n : Nat) : (c.advance g n).frame = c.frame := rfl
@[simp] theorem Crew.advance_late (c : Crew) (g n : Nat) : (c.advance g n).late = c.late := rfl
@[simp] theorem Crew.advance_lateGang (c : Crew) (g n : Nat) : (c.advance g n).lateGang = c.lateGang := rfl
@[simp] theorem Crew.advance_stopped (c : Crew) (g n : Nat) : (c.advance g n).stopped = c.stopped := rfl
@[simp] theorem Crew.advance_faulted (c : Crew) (g n : Nat) : (c.advance g n).faulted = c.faulted := rfl
@[simp] theorem Crew.advance_faultSeq (c : Crew) (g n : Nat) : (c.advance g n).faultSeq = c.faultSeq := rfl
@[simp] theorem Crew.advance_preempted (c : Crew) (g n : Nat) : (c.advance g n).preempted = c.preempted := rfl
@[simp] theorem Crew.advance_saved (c : Crew) (g n : Nat) : (c.advance g n).saved = c.saved := rfl
@[simp] theorem Crew.advance_orphan (c : Crew) (g n : Nat) : (c.advance g n).orphan = c.orphan := rfl
@[simp] theorem Crew.advance_window (c : Crew) (g n : Nat) : (c.advance g n).window = c.window := rfl
@[simp] theorem Crew.advance_windowSaved (c : Crew) (g n : Nat) : (c.advance g n).windowSaved = c.windowSaved := rfl

@[simp] theorem Crew.raise_uid (c : Crew) (k : BitVec 5) : (c.raise k).uid = c.uid := rfl
@[simp] theorem Crew.raise_ctx (c : Crew) (k : BitVec 5) : (c.raise k).ctx = c.ctx := rfl
@[simp] theorem Crew.raise_run (c : Crew) (k : BitVec 5) : (c.raise k).run = c.run := rfl
@[simp] theorem Crew.raise_block (c : Crew) (k : BitVec 5) : (c.raise k).block = c.block := rfl
@[simp] theorem Crew.raise_core (c : Crew) (k : BitVec 5) : (c.raise k).core = c.core := rfl
@[simp] theorem Crew.raise_sched (c : Crew) (k : BitVec 5) : (c.raise k).sched = c.sched := rfl
@[simp] theorem Crew.raise_slot (c : Crew) (k : BitVec 5) : (c.raise k).slot = c.slot := rfl
@[simp] theorem Crew.raise_regOff (c : Crew) (k : BitVec 5) : (c.raise k).regOff = c.regOff := rfl
@[simp] theorem Crew.raise_vregs (c : Crew) (k : BitVec 5) : (c.raise k).vregs = c.vregs := rfl
@[simp] theorem Crew.raise_crewid (c : Crew) (k : BitVec 5) : (c.raise k).crewid = c.crewid := rfl
@[simp] theorem Crew.raise_frm (c : Crew) (k : BitVec 5) : (c.raise k).frm = c.frm := rfl
@[simp] theorem Crew.raise_hyp (c : Crew) (k : BitVec 5) : (c.raise k).hyp = c.hyp := rfl
@[simp] theorem Crew.raise_hxh (c : Crew) (k : BitVec 5) : (c.raise k).hxh = c.hxh := rfl
@[simp] theorem Crew.raise_pend (c : Crew) (k : BitVec 5) : (c.raise k).pend = c.pend := rfl
@[simp] theorem Crew.raise_emask (c : Crew) (k : BitVec 5) : (c.raise k).emask = c.emask := rfl
@[simp] theorem Crew.raise_evwhich (c : Crew) (k : BitVec 5) : (c.raise k).evwhich = c.evwhich := rfl
@[simp] theorem Crew.raise_evdata (c : Crew) (k : BitVec 5) : (c.raise k).evdata = c.evdata := rfl
@[simp] theorem Crew.raise_slots (c : Crew) (k : BitVec 5) : (c.raise k).slots = c.slots := rfl
@[simp] theorem Crew.raise_urgent (c : Crew) (k : BitVec 5) : (c.raise k).urgent = c.urgent := rfl
@[simp] theorem Crew.raise_turn (c : Crew) (k : BitVec 5) : (c.raise k).turn = c.turn := rfl
@[simp] theorem Crew.raise_tvec (c : Crew) (k : BitVec 5) : (c.raise k).tvec = c.tvec := rfl
@[simp] theorem Crew.raise_tm (c : Crew) (k : BitVec 5) : (c.raise k).tm = c.tm := rfl
@[simp] theorem Crew.raise_mask (c : Crew) (k : BitVec 5) : (c.raise k).mask = c.mask := rfl
@[simp] theorem Crew.raise_held (c : Crew) (k : BitVec 5) : (c.raise k).held = c.held := rfl
@[simp] theorem Crew.raise_trap (c : Crew) (k : BitVec 5) : (c.raise k).trap = c.trap := rfl
@[simp] theorem Crew.raise_waddr (c : Crew) (k : BitVec 5) : (c.raise k).waddr = c.waddr := rfl
@[simp] theorem Crew.raise_wrd (c : Crew) (k : BitVec 5) : (c.raise k).wrd = c.wrd := rfl
@[simp] theorem Crew.raise_wwr (c : Crew) (k : BitVec 5) : (c.raise k).wwr = c.wwr := rfl
@[simp] theorem Crew.raise_wk (c : Crew) (k : BitVec 5) : (c.raise k).wk = c.wk := rfl
@[simp] theorem Crew.raise_frame (c : Crew) (k : BitVec 5) : (c.raise k).frame = c.frame := rfl
@[simp] theorem Crew.raise_late (c : Crew) (k : BitVec 5) : (c.raise k).late = c.late := rfl
@[simp] theorem Crew.raise_lateGang (c : Crew) (k : BitVec 5) : (c.raise k).lateGang = c.lateGang := rfl
@[simp] theorem Crew.raise_stopped (c : Crew) (k : BitVec 5) : (c.raise k).stopped = c.stopped := rfl
@[simp] theorem Crew.raise_faulted (c : Crew) (k : BitVec 5) : (c.raise k).faulted = c.faulted := rfl
@[simp] theorem Crew.raise_faultSeq (c : Crew) (k : BitVec 5) : (c.raise k).faultSeq = c.faultSeq := rfl
@[simp] theorem Crew.raise_preempted (c : Crew) (k : BitVec 5) : (c.raise k).preempted = c.preempted := rfl
@[simp] theorem Crew.raise_saved (c : Crew) (k : BitVec 5) : (c.raise k).saved = c.saved := rfl
@[simp] theorem Crew.raise_orphan (c : Crew) (k : BitVec 5) : (c.raise k).orphan = c.orphan := rfl
@[simp] theorem Crew.raise_window (c : Crew) (k : BitVec 5) : (c.raise k).window = c.window := rfl
@[simp] theorem Crew.raise_windowSaved (c : Crew) (k : BitVec 5) : (c.raise k).windowSaved = c.windowSaved := rfl

@[simp] theorem Slice.sset_pc (x : Slice) (n : Nat) (w : Word) : (x.sset n w).pc = x.pc := rfl
@[simp] theorem Slice.sset_active (x : Slice) (n : Nat) (w : Word) : (x.sset n w).active = x.active := rfl
@[simp] theorem Slice.sset_exited (x : Slice) (n : Nat) (w : Word) : (x.sset n w).exited = x.exited := rfl
@[simp] theorem Slice.sset_stack (x : Slice) (n : Nat) (w : Word) : (x.sset n w).stack = x.stack := rfl
@[simp] theorem Slice.sset_gang (x : Slice) (n : Nat) (w : Word) : (x.sset n w).gang = x.gang := rfl
@[simp] theorem Slice.sset_region (x : Slice) (n : Nat) (w : Word) : (x.sset n w).region = x.region := rfl
@[simp] theorem Slice.sset_regctr (x : Slice) (n : Nat) (w : Word) : (x.sset n w).regctr = x.regctr := rfl
@[simp] theorem Slice.sset_wait (x : Slice) (n : Nat) (w : Word) : (x.sset n w).wait = x.wait := rfl
@[simp] theorem Slice.sset_spend (x : Slice) (n : Nat) (w : Word) : (x.sset n w).spend = x.spend := rfl
@[simp] theorem Slice.sset_vpend (x : Slice) (n : Nat) (w : Word) : (x.sset n w).vpend = x.vpend := rfl
@[simp] theorem Slice.sset_drops (x : Slice) (n : Nat) (w : Word) : (x.sset n w).drops = x.drops := rfl
@[simp] theorem Slice.sset_slate (x : Slice) (n : Nat) (w : Word) : (x.sset n w).slate = x.slate := rfl
@[simp] theorem Slice.sset_vlate (x : Slice) (n : Nat) (w : Word) : (x.sset n w).vlate = x.vlate := rfl
@[simp] theorem Slice.sset_lateHit (x : Slice) (n : Nat) (w : Word) : (x.sset n w).lateHit = x.lateHit := rfl
@[simp] theorem Slice.sset_la (x : Slice) (n : Nat) (w : Word) : (x.sset n w).la = x.la := rfl

end Sys2Proof.Machine
end

