-- ==== Sys2Proof/Laws/Issue.lean ====
section
/-!
SUPPORT. Laws of issue: who an instruction runs for, the crew put back, and how an arithmetic instruction's statement follows from the
one line that is its meaning.
-/
namespace Sys2Proof.Machine

/-- For an issuing gang a main-set instruction goes on. -/
theorem asGang_of_issues {s : State} {uid g : Nat} {c : Crew} {i : Instr} (h : s.Issues uid g c i) (f : Crew → Nat → State) :
    asGang s f = .next (f c g) := by
  simp [asGang, h.cur, h.crew, h.gang]

/-- For a running processor an Aqiuf instruction goes on. -/
theorem asProc_of_runs {s : State} {stack proc : Nat} {p : Proc} {k : Cmd} (h : s.Runs stack proc p k) (f : Proc → Cmd → State) :
    asProc s f = .next (f p k) := by
  simp [asProc, h.cur, h.proc, h.cmd]

/-- A main-set instruction goes on or stops for want of an issuer. -/
theorem asGang_cases (s : State) (f : Crew → Nat → State) :
    (∃ uid g c, s.cur = .crew uid g ∧ s.crew? uid = some c ∧ c.inGang g g = true ∧ asGang s f = .next (f c g)) ∨
    asGang s f = .fault .noIssuer := by
  unfold asGang
  split
  · rename_i uid g hc
    split
    · rename_i c hu
      split
      · exact .inl ⟨uid, g, c, hc, hu, ‹_›, rfl⟩
      · exact .inr rfl
    · exact .inr rfl
  · exact .inr rfl
  · exact .inr rfl

/-- Every register that the issuing instruction names is within its limits and aligned (R128). -/
theorem use_ok {s : State} {uid g : Nat} {c : Crew} {i : Instr} (h : s.Issues uid g c i) {r : RegUse}
    (hr : r ∈ i.uses.reads ∨ r ∈ i.uses.writes ∨ r ∈ i.uses.names) :
    r.n % r.al = 0 ∧ r.n + r.k ≤ if r.sc then 64 else 128 := by
  have h1 := h.legal
  unfold Uses.ok at h1
  rw [List.all_eq_true] at h1
  have h2 := h1 r (by simpa [or_assoc] using hr)
  unfold RegUse.ok at h2
  simp only [Bool.and_eq_true, beq_iff_eq, decide_eq_true_eq] at h2
  refine ⟨h2.1, Nat.le_trans h2.2 ?_⟩
  split
  · exact Nat.le_refl _
  · exact h.v

theorem find_map_uid {xs : List Crew} {c c' : Crew} {u : Nat} (h : xs.find? (fun x => x.uid == u) = some c) (hc : c'.uid = u) :
    (xs.map fun x => if x.uid == c'.uid then c' else x).find? (fun x => x.uid == u) = some c' := by
  induction xs with
  | nil => simp at h
  | cons y ys ih =>
    by_cases hy : y.uid = u
    · simp [hy, hc]
    · have : ys.find? (fun x => x.uid == u) = some c := by simpa [hy] using h
      simp [hc, hy] at ih ⊢
      simpa using ih this

/-- The crew put back is the one found. -/
theorem crew?_setCrew_self {s : State} {uid : Nat} {c c' : Crew} (h : s.crew? uid = some c) (hc : c'.uid = uid) :
    (s.setCrew c').crew? uid = some c' := find_map_uid h hc

theorem uid_of_crew? {s : State} {uid : Nat} {c : Crew} (h : s.crew? uid = some c) : c.uid = uid := by
  have := List.find?_some h
  simpa using this

/-- Other crews are found as before. -/
theorem crew?_setCrew_ne {s : State} {c' : Crew} {u : Nat} (h : u ≠ c'.uid) : (s.setCrew c').crew? u = s.crew? u := by
  show (s.crews.map fun x => if x.uid == c'.uid then c' else x).find? _ = s.crews.find? _
  induction s.crews with
  | nil => rfl
  | cons y ys ih =>
    rw [List.map_cons, List.find?_cons, List.find?_cons, ih]
    by_cases hy : y.uid = c'.uid
    · have h1 : (y.uid == u) = false := by simpa using fun e => h (e.symm.trans hy)
      have h2 : (c'.uid == u) = false := by simpa using fun e => h e.symm
      simp [hy, h2]
    · simp [hy]

/-- Putting a crew back alone of the crews. -/
theorem onlyCrew_setCrew {s : State} {uid : Nat} {c c' : Crew} (h : s.crew? uid = some c) (hc : c'.uid = c.uid) :
    s.OnlyCrew (s.setCrew c') c c' := by
  have hu := uid_of_crew? h
  refine ⟨?_, by simp [State.setCrew], fun j k hk hne => ?_⟩
  · rw [hu]; exact crew?_setCrew_self h (hc.trans hu)
  · have hk' : k.uid ≠ c'.uid := hc ▸ hne
    simp [State.setCrew, List.getElem?_map, hk, hk']

/-- An instruction whose meaning is one use of `alu` computes what its function gives. -/
theorem computes_of_alu {i : Instr} {h : Hdr} {u : Bool} {d : Nat} {f : Crew → Nat → Nat → List Word × BitVec 5}
    (hi : ∀ s, exec i s = asGang s fun c g => s.setCrew (c.alu g h u d (f c g)))
    (hd : u = false → ∀ (s : State) (uid g : Nat) (c : Crew), s.Issues uid g c i → ∀ l, d + (f c g l).1.length ≤ 128) :
    Computes i h u d f := by
  intro s uid g c hs
  refine ⟨_, ?_, ?_, alu_wrote c g h u d (f c g) fun hu => hd hu s uid g c hs⟩
  · rw [hi, asGang_of_issues hs]
  · have w := alu_wrote c g h u d (f c g) fun hu => hd hu s uid g c hs
    rw [w.rest]

/-- An instruction whose meaning is one use of `aluP` decides what its function gives. -/
theorem decides_of_aluP {i : Instr} {h : Hdr} {u : Bool} {pd : Nat} {f : Crew → Nat → Bool × BitVec 5}
    (hi : ∀ s, exec i s = asGang s fun c g => s.setCrew (c.aluP g h u pd (f c))) : Decides i h u pd f := by
  intro s uid g c hs
  have w := aluP_decided c g h u pd (f c)
  refine ⟨_, ?_, ?_, w⟩
  · rw [hi, asGang_of_issues hs]
  · rw [w.rest]

end Sys2Proof.Machine
end

