-- ==== Sys2Proof/Laws/PerInstr.lean ====
section
/-!
SUPPORT. The family HasWords: a well-formed instruction is written as one, three or five words (R119, R259), constructor by constructor.
-/
namespace Sys2Proof.Laws.HasWords

/-- What the family says of one instruction: it is one, three or five words long if it is well formed. -/
def Statement (i : Instr) : Prop :=
  i.wf = true → (encode i).length = 1 ∨ (encode i).length = 3 ∨ (encode i).length = 5

/-- An instruction of the main set has the length of its form (R119). -/
theorem words_length (r : Raw) : r.words.length = 1 ∨ r.words.length = 3 ∨ r.words.length = 5 := by
  cases h : r.form <;> simp [Raw.words, h]

/-- The family's statement of an instruction of the main set. -/
theorem of_raw {i : Instr} {r : Raw} (h : i.raw = some r) : Statement i := fun _ => by
  simpa only [encode, h] using words_length r

/-- The family's statement of an Aqiuf instruction. -/
theorem of_craw {i : Instr} {c : CRaw} (n : i.raw = none) (h : i.craw = some c) : Statement i := fun _ => by
  simp [encode, n, h]

/-- The family's statement of a step that no word encodes. -/
theorem of_event {i : Instr} (h : i.wf = false) : Statement i := fun w => by
  rw [h] at w
  cases w

theorem iadd : ∀ o, Statement (.iadd o) := fun _ => of_raw rfl
theorem isub : ∀ o, Statement (.isub o) := fun _ => of_raw rfl
theorem imul : ∀ o, Statement (.imul o) := fun _ => of_raw rfl
theorem imulhs : ∀ o, Statement (.imulhs o) := fun _ => of_raw rfl
theorem imulhu : ∀ o, Statement (.imulhu o) := fun _ => of_raw rfl
theorem imad : ∀ o, Statement (.imad o) := fun _ => of_raw rfl
theorem imadws : ∀ o, Statement (.imadws o) := fun _ => of_raw rfl
theorem imadwu : ∀ o, Statement (.imadwu o) := fun _ => of_raw rfl
theorem iadd64 : ∀ o, Statement (.iadd64 o) := fun _ => of_raw rfl
theorem isub64 : ∀ o, Statement (.isub64 o) := fun _ => of_raw rfl
theorem imins : ∀ o, Statement (.imins o) := fun _ => of_raw rfl
theorem iminu : ∀ o, Statement (.iminu o) := fun _ => of_raw rfl
theorem imaxs : ∀ o, Statement (.imaxs o) := fun _ => of_raw rfl
theorem imaxu : ∀ o, Statement (.imaxu o) := fun _ => of_raw rfl
theorem iabs : ∀ o, Statement (.iabs o) := fun _ => of_raw rfl
theorem idivu : ∀ o, Statement (.idivu o) := fun _ => of_raw rfl
theorem iremu : ∀ o, Statement (.iremu o) := fun _ => of_raw rfl
theorem and : ∀ o, Statement (.and o) := fun _ => of_raw rfl
theorem or : ∀ o, Statement (.or o) := fun _ => of_raw rfl
theorem xor : ∀ o, Statement (.xor o) := fun _ => of_raw rfl
theorem andn : ∀ o, Statement (.andn o) := fun _ => of_raw rfl
theorem shl : ∀ o, Statement (.shl o) := fun _ => of_raw rfl
theorem shr : ∀ o, Statement (.shr o) := fun _ => of_raw rfl
theorem sar : ∀ o, Statement (.sar o) := fun _ => of_raw rfl
theorem rotl : ∀ o, Statement (.rotl o) := fun _ => of_raw rfl
theorem shl64 : ∀ o, Statement (.shl64 o) := fun _ => of_raw rfl
theorem shr64 : ∀ o, Statement (.shr64 o) := fun _ => of_raw rfl
theorem sar64 : ∀ o, Statement (.sar64 o) := fun _ => of_raw rfl
theorem clz : ∀ o, Statement (.clz o) := fun _ => of_raw rfl
theorem popc : ∀ o, Statement (.popc o) := fun _ => of_raw rfl
theorem brev : ∀ o, Statement (.brev o) := fun _ => of_raw rfl
theorem bfeu : ∀ o, Statement (.bfeu o) := fun _ => of_raw rfl
theorem bfes : ∀ o, Statement (.bfes o) := fun _ => of_raw rfl
theorem bfi : ∀ o, Statement (.bfi o) := fun _ => of_raw rfl
theorem bysel : ∀ o, Statement (.bysel o) := fun _ => of_raw rfl
theorem fshr : ∀ o, Statement (.fshr o) := fun _ => of_raw rfl
theorem icmps : ∀ o, Statement (.icmps o) := fun _ => of_raw rfl
theorem icmpu : ∀ o, Statement (.icmpu o) := fun _ => of_raw rfl
theorem icmp64 : ∀ o, Statement (.icmp64 o) := fun _ => of_raw rfl
theorem sel : ∀ o, Statement (.sel o) := fun _ => of_raw rfl
theorem plop : ∀ o, Statement (.plop o) := fun _ => of_raw rfl
theorem pmov : ∀ o, Statement (.pmov o) := fun _ => of_raw rfl
theorem lea : ∀ o, Statement (.lea o) := fun _ => of_raw rfl
theorem mov : ∀ o, Statement (.mov o) := fun _ => of_raw rfl
theorem movi : ∀ o, Statement (.movi o) := fun _ => of_raw rfl
theorem movl : ∀ o, Statement (.movl o) := fun _ => of_raw rfl
theorem movsr : ∀ o, Statement (.movsr o) := fun _ => of_raw rfl
theorem fadd : ∀ o, Statement (.fadd o) := fun _ => of_raw rfl
theorem fsub : ∀ o, Statement (.fsub o) := fun _ => of_raw rfl
theorem fmul : ∀ o, Statement (.fmul o) := fun _ => of_raw rfl
theorem fmac : ∀ o, Statement (.fmac o) := fun _ => of_raw rfl
theorem fmin : ∀ o, Statement (.fmin o) := fun _ => of_raw rfl
theorem fmax : ∀ o, Statement (.fmax o) := fun _ => of_raw rfl
theorem fcmp : ∀ o, Statement (.fcmp o) := fun _ => of_raw rfl
theorem fclass : ∀ o, Statement (.fclass o) := fun _ => of_raw rfl
theorem frcp : ∀ o, Statement (.frcp o) := fun _ => of_raw rfl
theorem frsq : ∀ o, Statement (.frsq o) := fun _ => of_raw rfl
theorem fsqrt : ∀ o, Statement (.fsqrt o) := fun _ => of_raw rfl
theorem fdiv : ∀ o, Statement (.fdiv o) := fun _ => of_raw rfl
theorem fex2 : ∀ o, Statement (.fex2 o) := fun _ => of_raw rfl
theorem flg2 : ∀ o, Statement (.flg2 o) := fun _ => of_raw rfl
theorem fsin : ∀ o, Statement (.fsin o) := fun _ => of_raw rfl
theorem fcos : ∀ o, Statement (.fcos o) := fun _ => of_raw rfl
theorem ftanh : ∀ o, Statement (.ftanh o) := fun _ => of_raw rfl
theorem badd2 : ∀ o, Statement (.badd2 o) := fun _ => of_raw rfl
theorem bmul2 : ∀ o, Statement (.bmul2 o) := fun _ => of_raw rfl
theorem bfma2 : ∀ o, Statement (.bfma2 o) := fun _ => of_raw rfl
theorem bmin2 : ∀ o, Statement (.bmin2 o) := fun _ => of_raw rfl
theorem bmax2 : ∀ o, Statement (.bmax2 o) := fun _ => of_raw rfl
theorem hadd2 : ∀ o, Statement (.hadd2 o) := fun _ => of_raw rfl
theorem hmul2 : ∀ o, Statement (.hmul2 o) := fun _ => of_raw rfl
theorem hfma2 : ∀ o, Statement (.hfma2 o) := fun _ => of_raw rfl
theorem dadd : ∀ o, Statement (.dadd o) := fun _ => of_raw rfl
theorem dmul : ∀ o, Statement (.dmul o) := fun _ => of_raw rfl
theorem dfma : ∀ o, Statement (.dfma o) := fun _ => of_raw rfl
theorem cvtF32S32 : ∀ o, Statement (.cvtF32S32 o) := fun _ => of_raw rfl
theorem cvtF32U32 : ∀ o, Statement (.cvtF32U32 o) := fun _ => of_raw rfl
theorem cvtS32F32 : ∀ o, Statement (.cvtS32F32 o) := fun _ => of_raw rfl
theorem cvtU32F32 : ∀ o, Statement (.cvtU32F32 o) := fun _ => of_raw rfl
theorem cvtBf16F32 : ∀ o, Statement (.cvtBf16F32 o) := fun _ => of_raw rfl
theorem cvtF32Bf16 : ∀ o, Statement (.cvtF32Bf16 o) := fun _ => of_raw rfl
theorem cvtF16F32 : ∀ o, Statement (.cvtF16F32 o) := fun _ => of_raw rfl
theorem cvtF32F16 : ∀ o, Statement (.cvtF32F16 o) := fun _ => of_raw rfl
theorem cvtE4m3F32 : ∀ o, Statement (.cvtE4m3F32 o) := fun _ => of_raw rfl
theorem cvtF32E4m3 : ∀ o, Statement (.cvtF32E4m3 o) := fun _ => of_raw rfl
theorem cvtE5m2F32 : ∀ o, Statement (.cvtE5m2F32 o) := fun _ => of_raw rfl
theorem cvtF32E5m2 : ∀ o, Statement (.cvtF32E5m2 o) := fun _ => of_raw rfl
theorem cvtF64F32 : ∀ o, Statement (.cvtF64F32 o) := fun _ => of_raw rfl
theorem cvtF32F64 : ∀ o, Statement (.cvtF32F64 o) := fun _ => of_raw rfl
theorem quant : ∀ o, Statement (.quant o) := fun _ => of_raw rfl
theorem fexpo : ∀ o, Statement (.fexpo o) := fun _ => of_raw rfl
theorem qalign : ∀ o, Statement (.qalign o) := fun _ => of_raw rfl
theorem qunalign : ∀ o, Statement (.qunalign o) := fun _ => of_raw rfl
theorem idp4s : ∀ o, Statement (.idp4s o) := fun _ => of_raw rfl
theorem idp4u : ∀ o, Statement (.idp4u o) := fun _ => of_raw rfl
theorem shfli : ∀ o, Statement (.shfli o) := fun _ => of_raw rfl
theorem shflup : ∀ o, Statement (.shflup o) := fun _ => of_raw rfl
theorem shfldn : ∀ o, Statement (.shfldn o) := fun _ => of_raw rfl
theorem shflx : ∀ o, Statement (.shflx o) := fun _ => of_raw rfl
theorem ballot : ∀ o, Statement (.ballot o) := fun _ => of_raw rfl
theorem vote : ∀ o, Statement (.vote o) := fun _ => of_raw rfl
theorem bcast : ∀ o, Statement (.bcast o) := fun _ => of_raw rfl
theorem scan : ∀ o, Statement (.scan o) := fun _ => of_raw rfl
theorem redux : ∀ o, Statement (.redux o) := fun _ => of_raw rfl
theorem matchLanes : ∀ o, Statement (.matchLanes o) := fun _ => of_raw rfl
theorem spcomp : ∀ o, Statement (.spcomp o) := fun _ => of_raw rfl
theorem spexp : ∀ o, Statement (.spexp o) := fun _ => of_raw rfl
theorem swz4 : ∀ o, Statement (.swz4 o) := fun _ => of_raw rfl
theorem lsort : ∀ o, Statement (.lsort o) := fun _ => of_raw rfl
theorem bra : ∀ o, Statement (.bra o) := fun _ => of_raw rfl
theorem brx : ∀ o, Statement (.brx o) := fun _ => of_raw rfl
theorem call : ∀ o, Statement (.call o) := fun _ => of_raw rfl
theorem ret : ∀ o, Statement (.ret o) := fun _ => of_raw rfl
theorem join : Statement .join := of_raw rfl
theorem regang : ∀ o, Statement (.regang o) := fun _ => of_raw rfl
theorem exit : ∀ o, Statement (.exit o) := fun _ => of_raw rfl
theorem nop : ∀ o, Statement (.nop o) := fun _ => of_raw rfl
theorem region : Statement .region := of_raw rfl
theorem sleep : ∀ o, Statement (.sleep o) := fun _ => of_raw rfl
theorem trap : ∀ o, Statement (.trap o) := fun _ => of_raw rfl
theorem setprio : ∀ o, Statement (.setprio o) := fun _ => of_raw rfl
theorem setsr : ∀ o, Statement (.setsr o) := fun _ => of_raw rfl
theorem ld8 : ∀ o, Statement (.ld8 o) := fun _ => of_raw rfl
theorem ld16 : ∀ o, Statement (.ld16 o) := fun _ => of_raw rfl
theorem ld32 : ∀ o, Statement (.ld32 o) := fun _ => of_raw rfl
theorem ld64 : ∀ o, Statement (.ld64 o) := fun _ => of_raw rfl
theorem ld128 : ∀ o, Statement (.ld128 o) := fun _ => of_raw rfl
theorem st8 : ∀ o, Statement (.st8 o) := fun _ => of_raw rfl
theorem st16 : ∀ o, Statement (.st16 o) := fun _ => of_raw rfl
theorem st32 : ∀ o, Statement (.st32 o) := fun _ => of_raw rfl
theorem st64 : ∀ o, Statement (.st64 o) := fun _ => of_raw rfl
theorem st128 : ∀ o, Statement (.st128 o) := fun _ => of_raw rfl
theorem ldl : ∀ o, Statement (.ldl o) := fun _ => of_raw rfl
theorem stl : ∀ o, Statement (.stl o) := fun _ => of_raw rfl
theorem pref : ∀ o, Statement (.pref o) := fun _ => of_raw rfl
theorem cleanr : ∀ o, Statement (.cleanr o) := fun _ => of_raw rfl
theorem invr : ∀ o, Statement (.invr o) := fun _ => of_raw rfl
theorem uflush : ∀ o, Statement (.uflush o) := fun _ => of_raw rfl
theorem fence : ∀ o, Statement (.fence o) := fun _ => of_raw rfl
theorem barinit : ∀ o, Statement (.barinit o) := fun _ => of_raw rfl
theorem bararr : ∀ o, Statement (.bararr o) := fun _ => of_raw rfl
theorem barexp : ∀ o, Statement (.barexp o) := fun _ => of_raw rfl
theorem barwait : ∀ o, Statement (.barwait o) := fun _ => of_raw rfl
theorem phase : ∀ o, Statement (.phase o) := fun _ => of_raw rfl
theorem msend : ∀ o, Statement (.msend o) := fun _ => of_raw rfl
theorem evset : ∀ o, Statement (.evset o) := fun _ => of_raw rfl
theorem evclr : ∀ o, Statement (.evclr o) := fun _ => of_raw rfl
theorem waitany : ∀ o, Statement (.waitany o) := fun _ => of_raw rfl
theorem hypnew : ∀ o, Statement (.hypnew o) := fun _ => of_raw rfl
theorem hypenter : ∀ o, Statement (.hypenter o) := fun _ => of_raw rfl
theorem hypres : ∀ o, Statement (.hypres o) := fun _ => of_raw rfl
theorem hypqry : ∀ o, Statement (.hypqry o) := fun _ => of_raw rfl
theorem ldna : ∀ o, Statement (.ldna o) := fun _ => of_raw rfl
theorem atom : ∀ o, Statement (.atom o) := fun _ => of_raw rfl
theorem red : ∀ o, Statement (.red o) := fun _ => of_raw rfl
theorem redm : ∀ o, Statement (.redm o) := fun _ => of_raw rfl
theorem cas : ∀ o, Statement (.cas o) := fun _ => of_raw rfl
theorem casgt : ∀ o, Statement (.casgt o) := fun _ => of_raw rfl
theorem casv : ∀ o, Statement (.casv o) := fun _ => of_raw rfl
theorem caspt : ∀ o, Statement (.caspt o) := fun _ => of_raw rfl
theorem cas128 : ∀ o, Statement (.cas128 o) := fun _ => of_raw rfl
theorem uadd32 : ∀ o, Statement (.uadd32 o) := fun _ => of_raw rfl
theorem uadd64 : ∀ o, Statement (.uadd64 o) := fun _ => of_raw rfl
theorem umins : ∀ o, Statement (.umins o) := fun _ => of_raw rfl
theorem umaxs : ∀ o, Statement (.umaxs o) := fun _ => of_raw rfl
theorem uminu : ∀ o, Statement (.uminu o) := fun _ => of_raw rfl
theorem umaxu : ∀ o, Statement (.umaxu o) := fun _ => of_raw rfl
theorem uminf : ∀ o, Statement (.uminf o) := fun _ => of_raw rfl
theorem umaxf : ∀ o, Statement (.umaxf o) := fun _ => of_raw rfl
theorem uor64 : ∀ o, Statement (.uor64 o) := fun _ => of_raw rfl
theorem uacc : ∀ o, Statement (.uacc o) := fun _ => of_raw rfl
theorem usnap : ∀ o, Statement (.usnap o) := fun _ => of_raw rfl
theorem tdset : ∀ o, Statement (.tdset o) := fun _ => of_raw rfl
theorem tdget : ∀ o, Statement (.tdget o) := fun _ => of_raw rfl
theorem mload : ∀ o, Statement (.mload o) := fun _ => of_raw rfl
theorem mloadsp : ∀ o, Statement (.mloadsp o) := fun _ => of_raw rfl
theorem mma : ∀ o, Statement (.mma o) := fun _ => of_raw rfl
theorem accz : ∀ o, Statement (.accz o) := fun _ => of_raw rfl
theorem accrd : ∀ o, Statement (.accrd o) := fun _ => of_raw rfl
theorem accwr : ∀ o, Statement (.accwr o) := fun _ => of_raw rfl
theorem copy : ∀ o, Statement (.copy o) := fun _ => of_raw rfl
theorem copyg : ∀ o, Statement (.copyg o) := fun _ => of_raw rfl
theorem coll : ∀ o, Statement (.coll o) := fun _ => of_raw rfl
theorem cell : ∀ o, Statement (.cell o) := fun _ => of_raw rfl
theorem task : ∀ o, Statement (.task o) := fun _ => of_raw rfl
theorem winarm : ∀ o, Statement (.winarm o) := fun _ => of_raw rfl
theorem winclr : ∀ o, Statement (.winclr o) := fun _ => of_raw rfl
theorem csrr : ∀ o, Statement (.csrr o) := fun _ => of_raw rfl
theorem csrw : ∀ o, Statement (.csrw o) := fun _ => of_raw rfl
theorem trapret : ∀ o, Statement (.trapret o) := fun _ => of_raw rfl
theorem trapmsk : ∀ o, Statement (.trapmsk o) := fun _ => of_raw rfl
theorem tlbinv : ∀ o, Statement (.tlbinv o) := fun _ => of_raw rfl
theorem halt : ∀ o, Statement (.halt o) := fun _ => of_raw rfl
theorem qstat : ∀ o, Statement (.qstat o) := fun _ => of_raw rfl
theorem qstatAdv : ∀ o, Statement (.qstatAdv o) := fun _ => of_raw rfl
theorem cli : ∀ a b, Statement (.cli a b) := fun _ _ => of_craw rfl rfl
theorem cadd : ∀ o, Statement (.cadd o) := fun _ => of_craw rfl rfl
theorem csub : ∀ o, Statement (.csub o) := fun _ => of_craw rfl rfl
theorem cshl : ∀ a b c, Statement (.cshl a b c) := fun _ _ _ => of_craw rfl rfl
theorem cand : ∀ o, Statement (.cand o) := fun _ => of_craw rfl rfl
theorem cbr : ∀ a b c d, Statement (.cbr a b c d) := fun _ _ _ _ => of_craw rfl rfl
theorem cjmp : ∀ o, Statement (.cjmp o) := fun _ => of_craw rfl rfl
theorem cloop : ∀ a b, Statement (.cloop a b) := fun _ _ => of_craw rfl rfl
theorem cld : ∀ o, Statement (.cld o) := fun _ => of_craw rfl rfl
theorem cst : ∀ o, Statement (.cst o) := fun _ => of_craw rfl rfl
theorem cldx : ∀ o, Statement (.cldx o) := fun _ => of_craw rfl rfl
theorem vld : ∀ o, Statement (.vld o) := fun _ => of_craw rfl rfl
theorem vst : ∀ o, Statement (.vst o) := fun _ => of_craw rfl rfl
theorem vaddf : ∀ o, Statement (.vaddf o) := fun _ => of_craw rfl rfl
theorem vaddb : ∀ o, Statement (.vaddb o) := fun _ => of_craw rfl rfl
theorem vmulf : ∀ o, Statement (.vmulf o) := fun _ => of_craw rfl rfl
theorem vfmaf : ∀ o, Statement (.vfmaf o) := fun _ => of_craw rfl rfl
theorem vmaxf : ∀ o, Statement (.vmaxf o) := fun _ => of_craw rfl rfl
theorem vrsqf : ∀ a b, Statement (.vrsqf a b) := fun _ _ => of_craw rfl rfl
theorem vcvtb : ∀ o, Statement (.vcvtb o) := fun _ => of_craw rfl rfl
theorem vscal : ∀ o, Statement (.vscal o) := fun _ => of_craw rfl rfl
theorem vred : ∀ o, Statement (.vred o) := fun _ => of_craw rfl rfl
theorem catom : ∀ o, Statement (.catom o) := fun _ => of_craw rfl rfl
theorem csig : ∀ o, Statement (.csig o) := fun _ => of_craw rfl rfl
theorem cfence : Statement .cfence := of_craw rfl rfl
theorem chalt : Statement .chalt := of_craw rfl rfl
theorem climitExpiry : ∀ o, Statement (.climitExpiry o) := fun _ => of_event rfl
theorem cldxTransferComplete : ∀ a b c, Statement (.cldxTransferComplete a b c) := fun _ _ _ => of_event rfl
theorem cellarCommandStart : ∀ o, Statement (.cellarCommandStart o) := fun _ => of_event rfl
theorem atomicUnitOperation : ∀ o, Statement (.atomicUnitOperation o) := fun _ => of_event rfl
theorem lateTrap : ∀ o, Statement (.lateTrap o) := fun _ => of_event rfl
theorem orphanRedirection : ∀ o, Statement (.orphanRedirection o) := fun _ => of_event rfl
theorem blockAdmission : ∀ o, Statement (.blockAdmission o) := fun _ => of_event rfl
theorem recordFinish : ∀ o, Statement (.recordFinish o) := fun _ => of_event rfl
theorem sleepExpiry : ∀ o, Statement (.sleepExpiry o) := fun _ => of_event rfl
theorem barwaitResume : ∀ o, Statement (.barwaitResume o) := fun _ => of_event rfl
theorem eventTimer : ∀ o, Statement (.eventTimer o) := fun _ => of_event rfl
theorem waitanyResume : ∀ o, Statement (.waitanyResume o) := fun _ => of_event rfl
theorem mailboxDelivery : ∀ o, Statement (.mailboxDelivery o) := fun _ => of_event rfl
theorem uRegistration : ∀ o, Statement (.uRegistration o) := fun _ => of_event rfl
theorem hypScrubComplete : ∀ o, Statement (.hypScrubComplete o) := fun _ => of_event rfl
theorem matrixQueueStart : ∀ o, Statement (.matrixQueueStart o) := fun _ => of_event rfl
theorem matrixComplete : ∀ o, Statement (.matrixComplete o) := fun _ => of_event rfl
theorem copyChunk : ∀ o, Statement (.copyChunk o) := fun _ => of_event rfl
theorem copyComplete : ∀ o, Statement (.copyComplete o) := fun _ => of_event rfl
theorem collSend : ∀ o, Statement (.collSend o) := fun _ => of_event rfl
theorem collReceive : ∀ o, Statement (.collReceive o) := fun _ => of_event rfl
theorem collComplete : ∀ o, Statement (.collComplete o) := fun _ => of_event rfl
theorem recordLaunch : ∀ o, Statement (.recordLaunch o) := fun _ => of_event rfl
theorem cellarTaskSubmit : ∀ o, Statement (.cellarTaskSubmit o) := fun _ => of_event rfl
theorem hostSignal : ∀ o, Statement (.hostSignal o) := fun _ => of_event rfl
theorem attachedCollective : ∀ o, Statement (.attachedCollective o) := fun _ => of_event rfl
theorem doorbell : ∀ o, Statement (.doorbell o) := fun _ => of_event rfl
theorem launch : ∀ o, Statement (.launch o) := fun _ => of_event rfl
theorem packetNop : ∀ o, Statement (.packetNop o) := fun _ => of_event rfl
theorem create : Statement .create := of_event rfl
theorem destroy : Statement .destroy := of_event rfl
theorem kill : Statement .kill := of_event rfl
theorem peerRequest : ∀ o, Statement (.peerRequest o) := fun _ => of_event rfl
theorem scafaPressRecall : ∀ o, Statement (.scafaPressRecall o) := fun _ => of_event rfl
theorem scafaContribution : ∀ o, Statement (.scafaContribution o) := fun _ => of_event rfl
theorem scafaTimeout : ∀ o, Statement (.scafaTimeout o) := fun _ => of_event rfl
theorem pageWalk : ∀ o, Statement (.pageWalk o) := fun _ => of_event rfl
theorem regionRewrite : ∀ o, Statement (.regionRewrite o) := fun _ => of_event rfl
theorem regionRewriteComplete : ∀ o, Statement (.regionRewriteComplete o) := fun _ => of_event rfl
theorem migrationGo : ∀ o, Statement (.migrationGo o) := fun _ => of_event rfl
theorem migrationComplete : ∀ o, Statement (.migrationComplete o) := fun _ => of_event rfl
theorem migrationRetire : ∀ o, Statement (.migrationRetire o) := fun _ => of_event rfl
theorem faultRecord : ∀ o, Statement (.faultRecord o) := fun _ => of_event rfl
theorem frespResume : ∀ o, Statement (.frespResume o) := fun _ => of_event rfl
theorem frespDeliver : ∀ o, Statement (.frespDeliver o) := fun _ => of_event rfl
theorem frespKill : ∀ o, Statement (.frespKill o) := fun _ => of_event rfl
theorem preemptSoft : ∀ o, Statement (.preemptSoft o) := fun _ => of_event rfl
theorem preemptHard : ∀ o, Statement (.preemptHard o) := fun _ => of_event rfl
theorem preemptRestore : ∀ o, Statement (.preemptRestore o) := fun _ => of_event rfl
theorem t1Expiry : ∀ o, Statement (.t1Expiry o) := fun _ => of_event rfl
theorem t2Expiry : ∀ o, Statement (.t2Expiry o) := fun _ => of_event rfl
theorem preemptSave : ∀ o, Statement (.preemptSave o) := fun _ => of_event rfl
theorem hostRead : ∀ o, Statement (.hostRead o) := fun _ => of_event rfl
theorem hostWrite : ∀ o, Statement (.hostWrite o) := fun _ => of_event rfl
theorem hostAtomic : ∀ o, Statement (.hostAtomic o) := fun _ => of_event rfl
theorem mqdoor : ∀ o, Statement (.mqdoor o) := fun _ => of_event rfl
theorem registerWrite : ∀ o, Statement (.registerWrite o) := fun _ => of_event rfl
theorem msixUnmask : ∀ o, Statement (.msixUnmask o) := fun _ => of_event rfl
theorem pcieCompletionTimeout : ∀ o, Statement (.pcieCompletionTimeout o) := fun _ => of_event rfl
theorem attest : Statement .attest := of_event rfl
theorem certs : Statement .certs := of_event rfl
theorem session : Statement .session := of_event rfl
theorem keyload : Statement .keyload := of_event rfl
theorem keyerase : Statement .keyerase := of_event rfl
theorem pathkey : Statement .pathkey := of_event rfl
theorem deviceReset : Statement .deviceReset := of_event rfl
theorem bootctlReset : Statement .bootctlReset := of_event rfl
theorem firmwareVerify : Statement .firmwareVerify := of_event rfl
theorem partcfgWrite : ∀ o, Statement (.partcfgWrite o) := fun _ => of_event rfl
theorem timebaseSync : ∀ o, Statement (.timebaseSync o) := fun _ => of_event rfl
theorem crossDieTimeout : ∀ o, Statement (.crossDieTimeout o) := fun _ => of_event rfl
theorem patrolScrub : ∀ o, Statement (.patrolScrub o) := fun _ => of_event rfl
theorem coreFailure : ∀ o, Statement (.coreFailure o) := fun _ => of_event rfl
theorem thermalEvent : ∀ o, Statement (.thermalEvent o) := fun _ => of_event rfl
theorem clockStretch : ∀ o, Statement (.clockStretch o) := fun _ => of_event rfl
theorem linkTrained : ∀ o, Statement (.linkTrained o) := fun _ => of_event rfl
theorem linkDown : ∀ o, Statement (.linkDown o) := fun _ => of_event rfl
theorem softError : ∀ o, Statement (.softError o) := fun _ => of_event rfl
theorem failedPart : ∀ o, Statement (.failedPart o) := fun _ => of_event rfl

end Sys2Proof.Laws.HasWords
end

