-- ==== Sys2Proof/Tests/Slice0.lean ====
section
/-!
SUPPORT. Tests: ill-formed terms that the checks refuse, words worked out from the spec's encodings, single steps on small states, and
for every statement states and operands that meet its hypotheses. Expected values come from the spec's tables and rules.
-/
open Sys2Proof Sys2Proof.Machine
set_option Elab.async false

namespace Sys2Proof.Tests

/-! ## Small states -/

/-- A slice of gang 0 at 0x1000 with every lane active. -/
def slice : Slice :=
  { pc := 0x1000, active := 15, exited := 0, stack := [], gang := 0, s := [], region := ⟨0x1000, 15, [], 0⟩, regctr := 0, wait := .none,
    spend := [], vpend := [], drops := [], slate := [], vlate := [], lateHit := false, la := [] }

/-- No trap. -/
def noTrap : TrapInfo := { cause := 0, late := false, lane := 0, detail := 0, level := 0, epc := 0, val := 0 }

/-- Crew 1 of context 1 on core 0 with n slices, 128 registers per lane and the vector registers v. -/
def crew (n : Nat) (v : SMap Word) : Crew :=
  { uid := 1, ctx := 1, run := 1, block := 1, core := 0, sched := 0, slot := 0, regOff := 0, vregs := 128,
    slices := List.replicate n slice, crewid := 0, dieId := 0, coreId := 0, v := v, p := [], fflags := 0, frm := 0, hyp := 0, hxh := 0, pend := 0, emask := 0,
    evwhich := 0, evdata := 0, slots := List.replicate 8 { bound := false, kind := 0, obj := 0, parity := false, handler := 0 },
    urgent := false, turn := 0, tvec := 0, tm := false, mask := false, held := false, trap := noTrap, waddr := 0, wrd := false,
    wwr := false, wk := 0, frame := none, late := none, lateGang := 0, stopped := false, faulted := none, faultSeq := none,
    preempted := false, saved := false, orphan := none, window := none, windowSaved := none }

/-- The block of crew 1, with 1 KiB of scratchpad. -/
def block : Block :=
  { uid := 1, ctx := 1, run := 1, core := 0, scrOff := 0, scrSize := 1024, blkid := 0, nblk := 1, cluid := 0, clurank := 0,
    spanid := 0xFFFFFFFF, gridid := 1, saved := false }

/-- Context 1 on all eight dies, privileged or not, with two queues. -/
def ctx (priv : Bool) : Ctx :=
  { id := 1, dead := false, cb := if priv then 1 <<< 269 else 0, regions := [], regions0 := [], tds := [], hyps := [],
    phases := List.replicate 8 { quota := 2, next := 2, arrived := 0, count := 0 },
    queues := List.replicate 2 { ring := 0x8000, door := 0x9000, log2n := 4, pri := 0, peer := false, rd := 0, wr := 0 },
    age := 0, rgnIdx := 0, rgnBusy := false, rgnResult := 0, rgnNew := 0, rgnAct := 0, rgnSeq := 0, rgnGo := none, migK := 0,
    migSrc := 0, migDst := 0, migSlot := 0, migBusy := false, migResult := 0, migAct := none, migSeq := 0, migGo := false,
    migRetire := false, savedAt := none, stopAdmit := false }

/-- A page of 1 MiB at virtual address va with physical address pa, as a translation buffer of core 0 holds it; `rest` adds bits. -/
def page (va pa : Nat) (rest : BitVec 64 := 0) : TlbEntry :=
  { agent := .core 0, ctx := 1, va := BitVec.ofNat 64 va, leaf := 0x8F + BitVec.ofNat 64 (pa / 4096 * 2 ^ 20) ||| rest, level := 0 }

/-- A region of 1 MiB at va of a kind: valid, code ALL8. -/
def region (va kind : Nat) : BitVec 256 := BitVec.ofNat 256 (1 + kind * 2 + va * 2 ^ 64 + (va + 0xFF000) * 2 ^ 128)

/-- A device whose crew 1 issues: DRAM at 0 for every agent, core 0's windows at 0x100000 (registers, scratchpad), 0x200000 (accumulators) and
0x300000 (mailboxes), a host window at 0x400000, memory of node 5 at 0x500000, PHASED memory at 0x600000, UNCACHED memory at 0x700000
and a page without W and X at 0x800000. -/
def device (priv : Bool) (c : Crew) : State :=
  { State.reset with
    cur := .crew 1 0, crews := [c], blocks := [block], bar0 := { Bar0.reset with boot := 3 },
    ctxs := [{ ctx priv with regions := [(0, region 0x600000 1), (1, region 0x700000 2)] }],
    pdevs := [{ PDev.fresh 0 8 1 with hwin := [(0, { en := true, wr := true, ns := false, hbase := 0 })] }],
    tlb := [page 0 0, page 0x100000 0xFF0000000000, page 0x200000 0xFF0000100000, page 0x300000 0xFF0000200000,
      page 0x400000 0xF00000000000, page 0x500000 0 (0x0100000000000500), page 0x600000 0x600000, page 0x700000 0x700000,
      { page 0x800000 0x800000 with leaf := 0x83 + BitVec.ofNat 64 (0x800 * 2 ^ 20) }] ++
      [Agent.copyUnit 0, .coll 0, .trellis, .cellar 0 0, .scafa].map fun a => { page 0 0 with agent := a } }

/-- The hypothesis of the instruction statements, computed. -/
def issues (s : State) (c : Crew) (i : Instr) : Bool :=
  decide (s.cur = .crew 1 0) && decide (s.crew? 1 = some c) && c.inGang 0 0 && decide (c.vregs ≤ 128) && i.uses.ok c.vregs

theorem issues_of {s : State} {c : Crew} {i : Instr} (h : issues s c i = true) : s.Issues 1 0 c i := by
  simp only [issues, Bool.and_eq_true, decide_eq_true_eq] at h
  exact ⟨h.1.1.1.1, h.1.1.1.2, h.1.1.2, h.1.2, h.2⟩

/-- No guard: p15. -/
def always : Guard := ⟨15, false⟩

/-- A guard that no lane passes: the negation of p15. -/
def never : Guard := ⟨15, true⟩

/-- Every instruction whose registers exist issues there. -/
theorem device_issues (priv : Bool) (n : Nat) (v : SMap Word) (i : Instr) (h : i.uses.ok 128 = true) :
    (device priv (crew (n + 1) v)).Issues 1 0 (crew (n + 1) v) i :=
  ⟨rfl, rfl, rfl, Nat.le_refl _, h⟩

/-- Crew 1 after instruction i. -/
def after (i : Instr) (s : State) : Option Crew :=
  match exec i s with
  | .next t => t.crew? 1
  | .fault _ | .refused _ => none

/-- Register n of lane l, or scalar register n of slice 0, after instruction i of one slice with vector registers v. -/
def vAfter (i : Instr) (v : SMap Word) (l n : Nat) : Option Word := (after i (device false (crew 1 v))).map (·.vget l n)
def sAfter (i : Instr) (v : SMap Word) (n : Nat) : Option Word := (after i (device false (crew 1 v))).map (·.sget 0 n)

/-- An active lane of slice i of gang g with no guard participates. -/
theorem takes_of {c : Crew} {g l : Nat} {x : Slice} (h : c.slices[l / 4]? = some x) (lv : x.live = true) (hg : x.gang = g)
    (ha : x.active.getLsbD (l % 4) = true) : c.Takes g always l := ⟨x, h, lv, hg, ha, by simp [always, Crew.pget]⟩

/-- No lane passes the guard `never`. -/
theorem never_takes (c : Crew) (g l : Nat) : ¬c.Takes g never l := by
  rintro ⟨x, _, _, _, _, h⟩
  simp [never, Crew.pget] at h

/-- Headers: base, extended, literal, extended with literal. -/
def hb : Hdr := ⟨.base, always, 0⟩
def he : Hdr := ⟨.ext, always, 0⟩
def hl : Hdr := ⟨.lit, always, 0⟩
def hx : XHdr := ⟨always, 0⟩

/-! ## Ill-formed terms (R121 to R129 and the rules of each instruction) -/

theorem test_wf_no_negated_p15 : Instr.wf (.iadd ⟨⟨.ext, never, 0⟩, false, 4, 5, .reg 6⟩) = false := by decide
theorem test_wf_guard_needs_word1 : Instr.wf (.iadd ⟨⟨.base, ⟨3, false⟩, 0⟩, false, 4, 5, .reg 6⟩) = false := by decide
theorem test_wf_la_on_long_latency_only : Instr.wf (.iadd ⟨⟨.ext, always, 2⟩, false, 4, 5, .reg 6⟩) = false := by decide
theorem test_wf_la_needs_word1 : Instr.wf (.frcp ⟨⟨.base, always, 2⟩, false, 4, 5, .rne⟩) = false := by decide
theorem test_wf_long_latency_is_extended : Instr.wf (.frcp ⟨hb, false, 4, 5, .rne⟩) = false := by decide
theorem test_wf_imm_needs_extended : Instr.wf (.iadd ⟨hb, false, 4, 5, .imm 1⟩) = false := by decide
theorem test_wf_literal_needs_literal_form : Instr.wf (.iadd ⟨he, false, 4, 5, .lit 1⟩) = false := by decide
theorem test_wf_register_in_literal_form : Instr.wf (.iadd ⟨hl, false, 4, 5, .reg 6⟩) = false := by decide
theorem test_wf_literal_of_32_bits : Instr.wf (.iadd ⟨hl, false, 4, 5, .lit 0x100000000⟩) = false := by decide
theorem test_wf_literal_of_64_bits : Instr.wf (.iadd64 ⟨hl, false, 4, 6, .lit 0x100000000⟩) = true := by decide
theorem test_wf_double_has_no_imm32 : Instr.wf (.dadd ⟨he, false, 4, 6, .imm 1, .rne⟩) = false := by decide
theorem test_wf_base_c_is_0 : Instr.wf (.imad ⟨hb, false, 4, 5, .reg 6, 7⟩) = false := by decide
theorem test_wf_bfi_has_no_literal : Instr.wf (.bfi ⟨hl, false, 4, 5, 6, .reg 0⟩) = false := by decide
theorem test_wf_base_rounds_to_nearest : Instr.wf (.fadd ⟨hb, false, 4, 5, .reg 6, .rz⟩) = false := by decide
theorem test_wf_base_half_is_low : Instr.wf (.cvtBf16F32 ⟨hb, false, 4, 5, .rne, true⟩) = false := by decide
theorem test_wf_widening_has_no_mode : Instr.wf (.cvtF32E4m3 ⟨he, false, 4, 5, .rz, 1⟩) = false := by decide
theorem test_wf_base_icmp_is_eq : Instr.wf (.icmps ⟨hb, false, 4, 5, .reg 6, .lt⟩) = false := by decide
theorem test_wf_base_icmp64_is_eq : Instr.wf (.icmp64 ⟨hb, false, 4, 6, .reg 8, .ne⟩) = false := by decide
theorem test_wf_base_fcmp_is_eq : Instr.wf (.fcmp ⟨hb, false, 4, 5, .reg 6, .un⟩) = false := by decide
theorem test_wf_base_sel_is_p0 : Instr.wf (.sel ⟨hb, false, 4, 5, .reg 6, 3⟩) = false := by decide
theorem test_wf_base_plop_has_no_table : Instr.wf (.plop ⟨hb, 1, 2, 3, 0, 0x80⟩) = false := by decide
theorem test_wf_base_pmov_copies : Instr.wf (.pmov ⟨hb, .get 4⟩) = false := by decide
theorem test_wf_lea_scalar_address_is_mod : Instr.wf (.lea ⟨he, true, 4, 6, 8, 0, false, true⟩) = false := by decide
theorem test_wf_base_mov_stays_in_file : Instr.wf (.mov ⟨hb, .vs 4 5⟩) = false := by decide
theorem test_wf_movi_short_is_base : Instr.wf (.movi ⟨he, false, 4, .short 1⟩) = false := by decide
theorem test_wf_movl_is_literal : Instr.wf (.movl ⟨he, false, 4, 1⟩) = false := by decide
theorem test_wf_laneid_is_no_scalar : Instr.wf (.movsr ⟨he, true, 4, .laneid⟩) = false := by decide
theorem test_wf_base_quant_is_e4m3 : Instr.wf (.quant ⟨hb, 4, 8, 0, .s4⟩) = false := by decide
theorem test_wf_ballot_bit_is_extended : Instr.wf (.ballot ⟨hb, false, 4, .bit 5 (.reg 6)⟩) = false := by decide
theorem test_wf_base_vote_is_all : Instr.wf (.vote ⟨hb, 1, 2, .any⟩) = false := by decide
theorem test_wf_scan_rounds_in_fadd_only : Instr.wf (.scan ⟨he, 4, 5, .iadd, false, .rz⟩) = false := by decide
theorem test_wf_base_redux_is_iadd : Instr.wf (.redux ⟨hb, false, 4, 5, .xor, .rne⟩) = false := by decide
theorem test_wf_base_match_is_32 : Instr.wf (.matchLanes ⟨hb, 4, 5, true⟩) = false := by decide
theorem test_wf_base_spcomp_is_e4m3 : Instr.wf (.spcomp ⟨hb, 4, 5, .bf16, .p24⟩) = false := by decide
theorem test_wf_base_swz_has_no_pattern : Instr.wf (.swz4 ⟨hb, 4, 5, 0x1B⟩) = false := by decide
theorem test_wf_base_lsort_is_unsigned : Instr.wf (.lsort ⟨hb, 4, 5, true⟩) = false := by decide
theorem test_wf_branch_on_negated_p15 : Instr.wf (.bra ⟨15, true, 4⟩) = false := by decide
theorem test_wf_base_exit_has_no_guard : Instr.wf (.exit ⟨false, ⟨1, false⟩⟩) = false := by decide
theorem test_wf_base_sleep_has_no_imm : Instr.wf (.sleep ⟨⟨false, always⟩, .imm 5⟩) = false := by decide
theorem test_wf_store_literal_of_32_bits : Instr.wf (.st32 ⟨hx, ⟨false, 4, 0⟩, .lit 0x100000000, false, .dev⟩) = false := by decide
theorem test_wf_evset_offset_is_aligned : Instr.wf (.evset ⟨hx, 1, 4, .mbox, 6⟩) = false := by decide
theorem test_wf_waitany_list_is_not_empty : Instr.wf (.waitany ⟨0, 0⟩) = false := by decide
theorem test_wf_redm_has_no_exchange : Instr.wf (.redm ⟨hx, ⟨false, 4, 0⟩, .reg 6, .exch, .dev⟩) = false := by decide
theorem test_wf_mloadsp_first_is_even : Instr.wf (.mloadsp ⟨hx, 2, 20, 1, .p24, 32, 1, false⟩) = false := by decide
theorem test_wf_mloadsp_fits_16 : Instr.wf (.mloadsp ⟨hx, 2, 20, 1, .p24, 32, 14, true⟩) = false := by decide
theorem test_wf_mma_4i_names_four : Instr.wf (.mma ⟨hx, 4, 253, false, 6, 0, 0, .m4i⟩) = false := by decide
theorem test_wf_winarm_count_is_not_0 : Instr.wf (.winarm ⟨hx, 4, 6, 0⟩) = false := by decide
theorem test_wf_winarm_count_to_128 : Instr.wf (.winarm ⟨hx, 4, 6, 129⟩) = false := by decide
theorem test_wf_step_without_word : Instr.wf .deviceReset = false := by decide

/-! ## Words worked out bit by bit from the encodings (R119 to R138, R259 and the tables of each family) -/

theorem test_decode_iadd : decode [0x00410286] = .ok (.iadd ⟨hb, false, 4, 5, .reg 6⟩, 4) := rfl
theorem test_decode_iadd64_literal :
    decode [0x82410300, 0x00000000, 0x00000001] = .ok (.iadd64 ⟨hl, false, 4, 6, .lit 0x100000000⟩, 12) := rfl
theorem test_decode_movi : decode [0x0B407FFD] = .ok (.movi ⟨hb, false, 1, .short 0x3FFD⟩, 4) := rfl
theorem test_decode_icmps_lt :
    decode [0x49408200, 0x0F000028, 0x64] = .ok (.icmps ⟨he, false, 2, 4, .imm 0x64, .lt⟩, 12) := rfl
theorem test_decode_fmac_guarded :
    decode [0x4CC10286, 0x03870002, 0] = .ok (.fmac ⟨⟨.ext, ⟨3, true⟩, 0⟩, false, 4, 5, .reg 6, 7, .rz⟩, 12) := rfl
theorem test_decode_fmac_reserved_field : (decode [0x4CC10286, 0x3F070000, 0]).toOption = none := rfl
theorem test_decode_quant : decode [0x56850400, 0x0F060000, 0] = .ok (.quant ⟨he, 20, 8, 6, .e4m3⟩, 12) := rfl
theorem test_decode_shflx : decode [0x58C0C180, 0x0F000008, 0x10] = .ok (.shflx ⟨he, 3, 3, .imm 0x10⟩, 12) := rfl
theorem test_decode_swz4 : decode [0x5B008080, 0x0F0001B0, 0] = .ok (.swz4 ⟨he, 2, 1, 0x1B⟩, 12) := rfl
theorem test_decode_bra : decode [0x1C09FFF0] = .ok (.bra ⟨2, false, 0x1FFF0⟩, 4) := rfl
theorem test_decode_regang : decode [0x1D400005] = .ok (.regang 5, 4) := rfl
theorem test_decode_exit_guarded : decode [0x5D800000, 0x01000000, 0] = .ok (.exit ⟨true, ⟨1, false⟩⟩, 12) := rfl
theorem test_decode_ld32 :
    decode [0x60820500, 0x2F000001, 0x40] = .ok (.ld32 ⟨⟨always, 2⟩, 8, ⟨false, 10, 0x40⟩, true, .dev⟩, 12) := rfl
theorem test_decode_ld32_has_no_base_form : (decode [0x20820500]).toOption = none := rfl
theorem test_decode_st32 :
    decode [0x61C0050C, 0x0F000002, 0x80] = .ok (.st32 ⟨hx, ⟨false, 10, 0x80⟩, .reg 12, true, .dev⟩, 12) := rfl
theorem test_decode_atom :
    decode [0x68018507, 0x0F000080, 8] = .ok (.atom ⟨hx, 6, ⟨false, 10, 8⟩, .reg 7, .fadd, .rlx, .dev⟩, 12) := rfl
theorem test_decode_uacc : decode [0x6C400A03, 0x0F000000, 0] = .ok (.uacc ⟨hx, ⟨false, 20, 0⟩, 3, false⟩, 12) := rfl
theorem test_decode_fence : decode [0x64000000, 0x0F000040, 0] = .ok (.fence ⟨hx, .dflt, .dev, true⟩, 12) := rfl
theorem test_decode_bararr :
    decode [0x64A08200, 0x0F000000, 0x40] = .ok (.bararr ⟨hx, 2, 4, 0x40, none, .dflt⟩, 12) := rfl
theorem test_decode_waitany : decode [0x66400000, 0x0F0003C0, 0] = .ok (.waitany ⟨0, 0x0F⟩, 12) := rfl
theorem test_decode_hypres : decode [0x67000280, 0x0F000040, 0] = .ok (.hypres ⟨hx, 0, 5, true⟩, 12) := rfl
theorem test_decode_tdset : decode [0x70000400, 0x0F000011, 0] = .ok (.tdset ⟨hx, 17, .regs 8⟩, 12) := rfl
theorem test_decode_mloadsp :
    decode [0x70C08020, 0x0F000005, 0x14] = .ok (.mloadsp ⟨hx, 2, 20, 1, .p24, 32, 0, false⟩, 12) := rfl
theorem test_decode_mma :
    decode [0x71010300, 0x3F000005, 0x3F09] = .ok (.mma ⟨⟨always, 3⟩, 4, 9, true, 6, 63, 0, .m2x2⟩, 12) := rfl
theorem test_decode_copy : decode [0x72020500, 0x0F000006, 0x0304] = .ok (.copy ⟨hx, 8, 4, 3, 2, some 10⟩, 12) := rfl
theorem test_decode_coll : decode [0x7281840C, 0x0F000005, 0x28] = .ok (.coll ⟨hx, 6, 8, 12, 40, .redSw⟩, 12) := rfl
theorem test_decode_csrr : decode [0x3C210201] = .ok (.csrr ⟨⟨false, always⟩, 4, 0x201⟩, 4) := rfl
theorem test_decode_qstat : decode [0x3DA20001] = .ok (.qstatAdv ⟨⟨false, always⟩, 8⟩, 4) := rfl
theorem test_decode_trapret : decode [0x7C800002, 0x01000000, 0] = .ok (.trapret ⟨⟨true, ⟨1, false⟩⟩, .next⟩, 12) := rfl
theorem test_decode_cld : decodeAqiuf 0x24C70000 = .ok (.cld ⟨3, 1, .d, false, 0⟩) := rfl
theorem test_decode_vscal : decodeAqiuf 0x54014000 = .ok (.vscal ⟨0, 0, 5⟩) := rfl
theorem test_decode_cloop : decodeAqiuf 0x22BFFFF9 = .ok (.cloop 10 0x3FFFF9) := rfl
theorem test_decode_chalt : decodeAqiuf 0x68000000 = .ok .chalt := rfl
theorem test_decode_zero_is_illegal : (decode [0x00000000]).toOption = none := rfl
theorem test_register_beyond_v_is_illegal : (Instr.uses (.iadd ⟨hb, false, 8, 5, .reg 7⟩)).ok 8 = false := by decide

/-! ## Arithmetic, selection and moves -/

/-- One slice whose lanes hold 7 in v5 and −3 in v6. -/
def vals : SMap Word := [(5, 7), (6, 0xFFFFFFFD), (133, 7), (134, 0xFFFFFFFD), (261, 7), (262, 0xFFFFFFFD), (389, 7), (390, 0xFFFFFFFD)]

theorem test_iadd_wraps : vAfter (.iadd ⟨hb, false, 4, 5, .imm 0xFFFFFFFF⟩) vals 0 4 = some 6 := by decide +kernel
theorem test_imulhs_is_signed : vAfter (.imulhs ⟨hb, false, 4, 5, .reg 6⟩) vals 3 4 = some 0xFFFFFFFF := by decide +kernel
theorem test_idivu_by_zero : vAfter (.idivu ⟨hb, false, 4, 5, .reg 9⟩) vals 0 4 = some 0xFFFFFFFF := by decide +kernel
theorem test_iremu_by_zero : vAfter (.iremu ⟨hb, false, 5, 5, .reg 9⟩) vals 0 5 = some 7 := by decide +kernel
theorem test_shl_by_32 : vAfter (.shl ⟨he, false, 4, 5, .imm 32⟩) vals 0 4 = some 0 := by decide +kernel
theorem test_sar_by_40 : vAfter (.sar ⟨he, false, 4, 6, .imm 40⟩) vals 0 4 = some 0xFFFFFFFF := by decide +kernel
theorem test_rotl_masks_its_count : vAfter (.rotl ⟨he, false, 4, 5, .imm 33⟩) vals 0 4 = some 14 := by decide +kernel
theorem test_clz_of_zero : vAfter (.clz ⟨hb, false, 4, 9⟩) vals 0 4 = some 32 := by decide +kernel
theorem test_brev : vAfter (.brev ⟨hb, false, 4, 5⟩) vals 0 4 = some 0xE0000000 := by decide +kernel
theorem test_iabs_of_least : vAfter (.iabs ⟨hb, false, 4, 5⟩) [(5, 0x80000000)] 0 4 = some 0x80000000 := by decide +kernel
theorem test_imadws_pair : vAfter (.imadws ⟨he, false, 8, 5, .reg 6, 10⟩) vals 1 9 = some 0xFFFFFFFF := by decide +kernel
theorem test_idp4s : vAfter (.idp4s ⟨he, false, 4, 5, .imm 0xFF, 6⟩) vals 0 4 = some 0xFFFFFFF6 := by decide +kernel
theorem test_bfes_of_no_bits : vAfter (.bfes ⟨he, false, 4, 6, .imm 4⟩) vals 0 4 = some 0 := by decide +kernel
theorem test_bfes_sign : vAfter (.bfes ⟨he, false, 4, 5, .imm 0x301⟩) vals 0 4 = some 3 := by decide +kernel
theorem test_bysel_replicates_sign : vAfter (.bysel ⟨he, false, 4, 5, 6, .imm 0x14⟩) vals 0 4 = some 0x070707FF := by decide +kernel
theorem test_u_writes_a_scalar : sAfter (.iadd ⟨he, true, 4, 5, .imm 9⟩) vals 4 = some 9 := by decide +kernel
theorem test_mov_from_lowest_lane : sAfter (.mov ⟨he, .sv 4 6⟩) vals 4 = some 0xFFFFFFFD := by decide +kernel
theorem test_movi_extends_its_sign : vAfter (.movi ⟨hb, false, 4, .short 0x3FFD⟩) [] 2 4 = some 0xFFFFFFFD := by decide +kernel
theorem test_lea_shifts_and_extends :
    vAfter (.lea ⟨he, false, 10, 12, 6, 3, true, false⟩) [(6, 0xFFFFFFFD), (12, 100)] 0 10 = some 76 := by decide +kernel
theorem test_icmpu_is_unsigned :
    (after (.icmpu ⟨he, false, 3, 5, .reg 6, .lt⟩) (device false (crew 1 vals))).map (·.pget 2 3) = some true := by decide +kernel
theorem test_p15_is_not_written :
    (after (.icmps ⟨he, false, 15, 5, .reg 6, .lt⟩) (device false (crew 1 vals))).map (·.pget 2 15) = some true := by decide +kernel
theorem test_fadd_rounds_up :
    vAfter (.fadd ⟨he, false, 4, 5, .imm 0x33800000, .ru⟩) [(5, 0x3F800000)] 0 4 = some 0x3F800001 := by decide +kernel
theorem test_fmin_of_zeros : vAfter (.fmin ⟨he, false, 4, 5, .imm 0x80000000⟩) [] 0 4 = some 0x80000000 := by decide +kernel
theorem test_frsq_of_negative_and_zero_lanes :
    (after (.frsq ⟨he, false, 4, 5, .rne⟩) (device false (crew 1 [(5, 0xBF800000)]))).map (·.fflags) = some 0x18 := by decide +kernel
theorem test_fclass_of_subnormal : vAfter (.fclass ⟨hb, false, 4, 5⟩) [(5, 0x80000001)] 0 4 = some 4 := by decide +kernel
theorem test_dadd_pair : vAfter (.dadd ⟨he, false, 4, 6, .reg 6, .rne⟩) [(7, 0x3FF00000)] 0 5 = some 0x40000000 := by decide +kernel
theorem test_badd2_halves :
    vAfter (.badd2 ⟨he, false, 4, 5, .reg 5, .rne⟩) [(5, 0x3F804000)] 0 4 = some 0x40004080 := by decide +kernel
theorem test_cvt_s32_saturates : vAfter (.cvtS32F32 ⟨he, false, 4, 5, .rz⟩) [(5, 0x4F000000)] 0 4 = some 0x7FFFFFFF := by decide +kernel
theorem test_cvt_e4m3_keeps_other_bytes :
    vAfter (.cvtE4m3F32 ⟨he, false, 4, 5, .rne, 2⟩) [(4, 0xAABBCCDD), (5, 0x3F800000)] 0 4 = some 0xAA38CCDD := by decide +kernel
theorem test_fexpo_of_zero : vAfter (.fexpo ⟨hb, false, 4, 5⟩) [] 0 4 = some 0xFFFF8000 := by decide +kernel
theorem test_qalign_of_one : vAfter (.qalign ⟨he, false, 4, 6, .imm 0⟩) [(6, 0x3F800000)] 0 5 = some 0x80000 := by decide +kernel
theorem test_qunalign_of_one : vAfter (.qunalign ⟨he, false, 4, 6, .imm 0⟩) [(7, 0x80000)] 0 4 = some 0x3F800000 := by decide +kernel

/-! ### Hypotheses of the statements -/

theorem test_witness_integer : (device false (crew 1 [])).Issues 1 0 (crew 1 []) (.imadws ⟨he, false, 126, 127, .reg 127, 126⟩) :=
  device_issues _ _ _ _ (by decide)
theorem test_witness_integer_scalar : (device false (crew 1 [])).Issues 1 0 (crew 1 []) (.shl64 ⟨he, true, 62, 62, .reg 63⟩) :=
  device_issues _ _ _ _ (by decide)
theorem test_witness_comparisons : (device false (crew 1 [])).Issues 1 0 (crew 1 []) (.icmp64 ⟨he, true, 15, 62, .reg 62, .lt true⟩) :=
  device_issues _ _ _ _ (by decide)
theorem test_witness_moves : (device false (crew 1 [])).Issues 1 0 (crew 1 []) (.lea ⟨he, false, 126, 62, 127, 7, true, true⟩) :=
  device_issues _ _ _ _ (by decide)
theorem test_witness_movsr : (device false (crew 1 [])).Issues 1 0 (crew 1 []) (.movsr ⟨he, false, 126, .clock⟩) ∧
    (device false (crew 1 [])).block? (crew 1 []).block = some block ∧ (crew 1 []).slices[3 / 4]? = some slice :=
  ⟨device_issues _ _ _ _ (by decide), rfl, rfl⟩
theorem test_witness_float : (device false (crew 1 [])).Issues 1 0 (crew 1 []) (.dfma ⟨he, false, 126, 126, .reg 126, 126, .ru⟩) :=
  device_issues _ _ _ _ (by decide)
theorem test_witness_min_max : (device false (crew 1 [])).Issues 1 0 (crew 1 []) (.fcmp ⟨he, true, 15, 63, .reg 63, .un⟩) :=
  device_issues _ _ _ _ (by decide)
theorem test_witness_special : (device false (crew 1 [])).Issues 1 0 (crew 1 []) (.fdiv ⟨he, false, 127, 127, .reg 127, .rd⟩) :=
  device_issues _ _ _ _ (by decide)
theorem test_witness_conversions : (device false (crew 1 [])).Issues 1 0 (crew 1 []) (.cvtE5m2F32 ⟨he, true, 63, 63, .rn, 3⟩) :=
  device_issues _ _ _ _ (by decide)
theorem test_witness_conversion_codes : f32.inf = true ∧ e5m2.inf = true := by decide
theorem test_witness_exponents : (f32.read 0x7F800001).isNan = true ∧ f32.read 0xFF800000 = .inf true ∧
    f32.read 0x80000000 = .fin true 0 (-149) ∧ f32.read 1 = .fin false 1 (-149) := by decide
theorem test_witness_qalign_exact : f32.read 0xBF800000 = .fin true (2 ^ 23) (-23) ∧ (-11 : Int) ≠ 32767 ∧ (-11 : Int) ≤ -23 + 51 ∧
    2 ^ 23 * 2 ^ (-23 + 51 - (-11) : Int).toNat < 2 ^ 63 := by decide
theorem test_witness_qalign_saturates : f32.read 0xBF800000 = .fin true (2 ^ 23) (-23) ∧ (-12 : Int) ≠ 32767 ∧
    (-12 : Int) ≤ -23 + 51 ∧ 2 ^ 63 ≤ 2 ^ 23 * 2 ^ (-23 + 51 - (-12) : Int).toNat := by decide
theorem test_witness_qalign_rounds : f32.read 0x3F800001 = .fin false (2 ^ 23 + 1) (-23) ∧ (-23 : Int) + 51 < 29 := by decide
theorem test_witness_qalign_tie : 2 * (2 ^ 23 + 1) = (2 * 2 ^ 22 + 1) * 2 ^ (29 - (-23) - 51 : Int).toNat := by decide
theorem test_witness_qunalign : (0x8000000000000001 : BitVec 64) ≠ 0x8000000000000000 ∧ (0x8000000000000001 : BitVec 64) ≠ 0 ∧
    (-32768 : Int) ≠ 32767 := by decide
theorem test_witness_quant : (device false (crew 8 [])).Issues 1 0 (crew 8 []) (.quant ⟨he, 127, 124, 63, .s4⟩) ∧
    (crew 8 []).slices.length = 8 ∧ ∀ l, l < 32 → (crew 8 []).Takes 0 always l := by
  refine ⟨device_issues _ _ _ _ (by decide), rfl, fun l h => ?_⟩
  have e : (crew 8 []).slices[l / 4]? = some slice := List.getElem?_replicate.trans (if_pos (by omega))
  have b : l % 4 = 0 ∨ l % 4 = 1 ∨ l % 4 = 2 ∨ l % 4 = 3 := by omega
  refine takes_of e rfl rfl ?_
  rcases b with b | b | b | b <;> rw [b] <;> rfl
theorem test_witness_quant_traps : (device false (crew 7 [])).Issues 1 0 (crew 7 []) (.quant ⟨he, 4, 8, 2, .e4m3⟩) ∧
    (crew 7 []).slices.length ≠ 8 := ⟨device_issues _ _ _ _ (by decide), by decide⟩
theorem test_witness_rounding : (0 : Int) < 3 ∧ 3 = (3 - 0 : Int).toNat ∧ 2 = (roundAt .rne false 12 0 false 3).1 ∧
    (roundAt .rne false 12 0 false 0 = (12, false)) := by decide
theorem test_witness_rounding_of_codes : f32 = f32 ∧ (3 : Nat) ≠ 0 ∧
    dyLt f32.maxFin.1 f32.maxFin.2 (roundAt .rne false 3 (-150) false (Nat.log2 3 + (-150) - 23)).1 (Nat.log2 3 + (-150) - 23) = false ∧
    dyLt f32.maxFin.1 f32.maxFin.2 (roundAt .rne false 3 127 false (Nat.log2 3 + 127 - 23)).1 (Nat.log2 3 + 127 - 23) = true := by
  decide +kernel

/-! ## Lanes and control -/

theorem test_shfli_reads_its_source :
    vAfter (.shfli ⟨he, 4, 5, .imm 2⟩) [(5, 10), (133, 11), (261, 12), (389, 13)] 0 4 = some 12 := by decide +kernel
theorem test_shflup_keeps_unreachable :
    vAfter (.shflup ⟨he, 4, 5, .imm 2⟩) [(5, 10), (133, 11), (261, 12), (389, 13)] 1 4 = some 11 := by decide +kernel
theorem test_swz4_reverses : vAfter (.swz4 ⟨he, 4, 5, 0x1B⟩) [(5, 10), (133, 11), (261, 12), (389, 13)] 0 4 = some 13 := by decide +kernel
theorem test_ballot_bits : vAfter (.ballot ⟨he, false, 4, .bit 5 (.imm 0)⟩) [(5, 1), (261, 3)] 3 4 = some 5 := by decide +kernel
theorem test_match_mask : vAfter (.matchLanes ⟨he, 4, 5, false⟩) [(5, 1), (261, 1)] 1 4 = some 10 := by decide +kernel
theorem test_scan_exclusive : vAfter (.scan ⟨he, 4, 5, .iadd, true, .rne⟩) [(5, 1), (133, 2), (261, 4)] 3 4 = some 7 := by decide +kernel
theorem test_redux_min_of_nans :
    vAfter (.redux ⟨he, false, 4, 5, .fmin, .rne⟩) [(5, 0x7FC00000), (133, 0x7FC00000), (261, 0x7FC00000), (389, 0x7FC00000)] 0 4 =
      some 0x7F800000 := by decide +kernel
theorem test_lsort_gives_lanes : vAfter (.lsort ⟨he, 8, 5, true⟩) [(5, 3), (133, 7), (261, 0xFFFFFFF0), (389, 5)] 0 9 = some 2 := by decide +kernel
-- the example of R167
theorem test_spcomp_keeps_lower_indices :
    vAfter (.spcomp ⟨he, 4, 1, .e4m3, .p24⟩) [(1, 0x38), (129, 0xC0), (257, 0x40), (385, 0x40)] 1 4 = some 0x00020040 := by decide +kernel
theorem test_spexp_places_entries :
    vAfter (.spexp ⟨he, 5, 4, .e4m3, .p24⟩) [(4, 0x000100C0), (132, 0x00020040)] 1 5 = some 0xC0 := by decide +kernel
theorem test_bra_goes_to_its_target :
    (after (.bra ⟨15, false, 0x1FFFF⟩) (device false (crew 1 []))).map (·.gangPc 0) = some 0xFFC := by decide +kernel
theorem test_call_links :
    (after (.call ⟨15, false, 4⟩) (device false (crew 1 []))).map (fun c => (c.gangPc 0, c.sget 0 62)) = some (0x1010, 0x1004) := by
  decide +kernel
theorem test_nop_is_12_bytes_long : (after (.nop true) (device false (crew 1 []))).map (·.gangPc 0) = some 0x100C := by decide +kernel
theorem test_region_counts :
    (after .region (device false (crew 1 []))).map (fun c => c.slices.map fun x => (x.regctr, x.region.ent)) = some [(1, 0x1004)] := by
  decide +kernel
theorem test_setsr_ignores_reserved_mode :
    (after (.setsr ⟨⟨true, always⟩, .frm, .imm 5⟩) (device false (crew 1 []))).map (·.frm) = some 0 := by decide +kernel
theorem test_exit_of_last_lanes_frees_the_core :
    (match exec (.exit ⟨false, always⟩) (device false (crew 1 [])) with
      | .next t => (t.crews.length, t.blocks.length)
      | .fault _ | .refused _ => (1, 1)) = (0, 0) := by decide +kernel
theorem test_trap_enters_with_soft :
    (after (.trap ⟨⟨false, always⟩, 77⟩) (device false { crew 1 [] with tvec := 0x800 })).map
      (fun c => (c.trap.cause, c.trap.val, c.trap.epc, c.tm, c.gangPc 0)) = some (0x0C, 77, 0x1000, true, 0x2000) := by decide +kernel

/-! ### Hypotheses of the statements -/

theorem test_witness_lane_moves : (device false (crew 1 [])).Issues 1 0 (crew 1 []) (.shflx ⟨he, 127, 127, .reg 127⟩) ∧
    (3 : Int) = (3 : Nat) ∧ (crew 1 []).Reaches 0 3 ∧ ¬(crew 1 []).Reaches 0 4 :=
  ⟨device_issues _ _ _ _ (by decide), rfl, ⟨slice, rfl, rfl, rfl⟩, fun h => by simp [Crew.Reaches, crew] at h⟩
theorem test_witness_bcast : (device false (crew 1 [])).Issues 1 0 (crew 1 []) (.bcast ⟨he, 127, 127, .imm 3⟩) :=
  device_issues _ _ _ _ (by decide)
theorem test_witness_ballot : (device false (crew 1 [])).Issues 1 0 (crew 1 []) (.ballot ⟨he, true, 63, .pred 15⟩) ∧
    (device false (crew 1 [])).Issues 1 0 (crew 1 []) (.vote ⟨he, 15, 15, .uni⟩) ∧ (crew 1 []).Takes 0 always 3 :=
  ⟨device_issues _ _ _ _ (by decide), device_issues _ _ _ _ (by decide), takes_of (x := slice) rfl rfl rfl rfl⟩
theorem test_witness_scan : (device false (crew 1 [])).Issues 1 0 (crew 1 []) (.scan ⟨he, 127, 127, .fmax, true, .rne⟩) :=
  device_issues _ _ _ _ (by decide)
theorem test_witness_lsort : (device false (crew 1 [])).Issues 1 0 (crew 1 []) (.lsort ⟨he, 126, 127, true⟩) ∧
    ((crew 1 []).parts 0 always)[3]? = some 3 := ⟨device_issues _ _ _ _ (by decide), by decide⟩
theorem test_witness_sparse : (device false (crew 8 [])).Issues 1 0 (crew 8 []) (.spcomp ⟨he, 127, 127, .s4, .p1632⟩) ∧
    (device false (crew 8 [])).Issues 1 0 (crew 8 []) (.spexp ⟨he, 127, 127, .bf16, .p48⟩) :=
  ⟨device_issues _ _ _ _ (by decide), device_issues _ _ _ _ (by decide)⟩
/-- Lane 1 of the group names output lane 3, and no lane names lane 2. -/
theorem test_witness_spexp_entry : let c := crew 1 [(5, 0), (133, 0x30000)]
    (0 / 4 * 4 ≤ 1 ∧ 1 < 0 / 4 * 4 + 4 / 2 ∧ c.Reaches 0 1 ∧ (c.vget 1 5).toNat / 2 ^ 16 % 32 = 3 % 4) ∧
    (∀ k, k < 2 → (c.vget k 5).toNat / 2 ^ 16 % 32 ≠ 2 % 4) := by
  refine ⟨⟨by decide, by decide, ⟨slice, rfl, rfl, rfl⟩, by decide⟩, by decide⟩

/-- A slice with a full stack. -/
def fullSlice : Slice := { slice with stack := List.replicate 4 ⟨0x2000, 1⟩ }

theorem test_witness_branch_overflows :
    let c := { crew 1 [] with slices := [fullSlice], p := [(0, 1)] }
    (device false c).Issues 1 0 c (.bra ⟨0, false, 4⟩) ∧ c.WouldOverflow 0 ⟨0, false⟩ ∧
    (device false c).Issues 1 0 c (.brx ⟨⟨true, ⟨0, false⟩⟩, false, 4⟩) :=
  ⟨issues_of (by decide), ⟨0, fullSlice, rfl, rfl, by decide, by decide, by decide⟩, issues_of (by decide)⟩
theorem test_witness_branch_fits :
    let c := { crew 1 [] with slices := [{ slice with stack := List.replicate 3 ⟨0x2000, 1⟩ }], p := [(0, 1)] }
    (device false c).Issues 1 0 c (.call ⟨0, false, 4⟩) ∧ ¬c.WouldOverflow 0 ⟨0, false⟩ := by
  refine ⟨issues_of (by decide), ?_⟩
  rintro ⟨i, x, hx, _, _, _, h⟩
  cases i with
  | zero => cases hx; simp at h
  | succ n => simp at hx
/-- The computed target of every lane is 0x2004, 0x2002 or beyond the 57 bits, for BRX and RET. -/
theorem test_witness_computed_targets :
    (crew 1 [(4, 0x2004)]).rget64 false 0 4 = 0x2004 ∧ (0x2004 : BitVec 64).toNat % 4 = 0 ∧ canonical 0x2004 = true ∧
    (crew 1 [(4, 0x2002)]).rget64 false 0 4 = 0x2002 ∧ (0x2002 : BitVec 64).toNat % 4 ≠ 0 ∧
    (crew 1 [(5, 0x1000000)]).rget64 false 0 4 = 0x100000000000000 ∧ canonical 0x100000000000000 = false := by decide
theorem test_witness_lowest_lane : (crew 1 []).Unit 0 always true 0 :=
  ⟨takes_of (x := slice) rfl rfl rfl rfl, fun _ k _ h => absurd h (Nat.not_lt_zero k)⟩
theorem test_witness_ret : (device false (crew 1 [])).Issues 1 0 (crew 1 []) (.ret ⟨⟨true, always⟩, 62⟩) :=
  device_issues _ _ _ _ (by decide)
theorem test_witness_join : (device false (crew 1 [])).Issues 1 0 (crew 1 []) .join := device_issues _ _ _ _ (by decide)
theorem test_witness_exit : (device false (crew 1 [])).Issues 1 0 (crew 1 []) (.exit ⟨true, ⟨3, true⟩⟩) :=
  device_issues _ _ _ _ (by decide)
/-- A guarded EXIT that no lane takes leaves the slice; one that every lane takes finishes the block. -/
theorem test_witness_exit_outcomes :
    (after (.exit ⟨true, ⟨3, false⟩⟩) (device false (crew 1 []))).map (fun c => c.slices.map fun x => (x.live, x.wait)) =
      some [(true, .none)] ∧
    (device false (crew 1 [])).finished block = false ∧
    ((device false (crew 1 [])).setCrew { crew 1 [] with slices := [{ slice with active := 0, exited := 15 }] }).finished block = true := by
  decide +kernel

/-- Two gangs: slice 1 waits at a REGANG at an address, or runs. -/
def twoGangs (w : Wait) : Crew := { crew 2 [] with slices := [slice, { slice with gang := 1, pc := 0x3000, wait := w }] }

theorem test_witness_regang_alone : (device false (crew 2 [])).Issues 1 0 (crew 2 []) (.regang 0x3FFF) ∧
    ∀ (i : Nat) (x : Slice), (crew 2 []).slices[i]? = some x → x.live = true → x.gang = 0 := by
  refine ⟨device_issues _ _ _ _ (by decide), fun i x h _ => ?_⟩
  obtain ⟨_, rfl⟩ := List.mem_replicate.mp (List.mem_of_getElem? h)
  rfl
theorem test_witness_regang_waits : (device false (twoGangs .none)).Issues 1 0 (twoGangs .none) (.regang 0) ∧
    (∃ (i : Nat) (x : Slice), (twoGangs .none).slices[i]? = some x ∧ x.live = true ∧ x.gang ≠ 0) ∧
    ∃ (i : Nat) (x : Slice), ((twoGangs .none).slices[i]? = some x ∧ x.live = true) ∧
      ∀ a, ¬(if (twoGangs .none).inGang 0 i then x.pc = a else x.wait = .regang a) :=
  ⟨issues_of (by decide), ⟨1, _, rfl, rfl, by decide⟩, 1, _, ⟨rfl, rfl⟩, fun a h => by
    have : (twoGangs .none).inGang 0 1 = false := by decide
    simp [this] at h⟩
/-- Slice 1 waits at 0x1000, where gang 0 stands: they meet. At 0x3000 the addresses differ. -/
theorem test_witness_regang_meets : let c := twoGangs (.regang 0x1000)
    (device false c).Issues 1 0 c (.regang 0) ∧ c.inGang 0 0 = true ∧ c.inGang 0 1 = false ∧
    c.slices.map (fun x => (x.live, x.gang, x.pc, x.wait)) = [(true, 0, 0x1000, .none), (true, 1, 0x3000, .regang 0x1000)] :=
  ⟨issues_of (by decide), by decide⟩
theorem test_witness_regang_traps : let c := twoGangs (.regang 0x3000)
    (device false c).Issues 1 0 c (.regang 0) ∧ c.inGang 0 0 = true ∧ c.inGang 0 1 = false ∧
    c.slices.map (fun x => (x.live, x.gang, x.pc, x.wait)) = [(true, 0, 0x1000, .none), (true, 1, 0x3000, .regang 0x3000)] :=
  ⟨issues_of (by decide), by decide⟩
theorem test_witness_region_and_sleep : (device false (crew 1 [])).Issues 1 0 (crew 1 []) .region ∧
    (device false (crew 1 [])).Issues 1 0 (crew 1 []) (.nop true) ∧
    (device false (crew 1 [])).Issues 1 0 (crew 1 []) (.sleep ⟨⟨true, always⟩, .imm 0xFFFFFFFF⟩) :=
  ⟨device_issues _ _ _ _ (by decide), device_issues _ _ _ _ (by decide), device_issues _ _ _ _ (by decide)⟩
theorem test_witness_trap_and_marks : (device false (crew 1 [])).Issues 1 0 (crew 1 []) (.trap ⟨⟨true, always⟩, 0x3FFF⟩) ∧
    (∃ l, (crew 1 []).Takes 0 always l) ∧
    (device false (crew 1 [])).Issues 1 0 (crew 1 []) (.setprio ⟨⟨true, never⟩, true⟩) ∧ (∀ l, ¬(crew 1 []).Takes 0 never l) ∧
    (device false (crew 1 [])).Issues 1 0 (crew 1 []) (.setsr ⟨⟨true, always⟩, .frm, .imm 5⟩) ∧
    (∀ k, k / 4 < 0 / 4 → ¬(crew 1 []).Takes 0 always k) :=
  ⟨device_issues _ _ _ _ (by decide), ⟨0, takes_of (x := slice) rfl rfl rfl rfl⟩, device_issues _ _ _ _ (by decide), never_takes _ _,
    device_issues _ _ _ _ (by decide), fun k h => absurd h (Nat.not_lt_zero _)⟩

/-! ## Memory -/

/-- Lanes 0 to 3 with these values in v10. -/
def lanes4 (a b c d : Word) : SMap Word := [(10, a), (138, b), (266, c), (394, d)]

/-- One slice whose lanes address a, b, c and d by v10:v11. -/
def at4 (a b c d : Word) : Crew := crew 1 (lanes4 a b c d)

/-- Lane 0 alone, by p0, addresses a. -/
def at1 (a : Word) : Crew := { crew 1 [(10, a)] with p := [(0, 1)] }
def h0 : XHdr := ⟨⟨0, false⟩, 0⟩

/-- `[v10]`. -/
def v10 : Ea := ⟨false, 10, 0⟩

/-- The device with some bytes of DRAM. -/
def deviceMem (c : Crew) (m : List Host.Cell) : State := { device false c with mem := m }

-- little-endian, across the lanes (R178)
theorem test_ld32_is_little_endian : (after (.ld32 ⟨hx, 4, v10, false, .crew⟩) (deviceMem (at4 0x40 0x44 0x40 0x44)
    [(0x40, 1), (0x41, 2), (0x47, 9)])).map (fun c => (c.vget 0 4, c.vget 1 4)) = some (0x201, 0x09000000) := by decide +kernel
theorem test_ld8_extends_its_sign : (after (.ld8 ⟨hx, 4, v10, false, .crew, true⟩) (deviceMem (at4 0x40 0x41 0x40 0x40)
    [(0x40, 0x80)])).map (fun c => (c.vget 0 4, c.vget 1 4)) = some (0xFFFFFF80, 0) := by decide +kernel
theorem test_st32_then_read : (match exec (.st32 ⟨h0, v10, .lit 0x11223344, false, .crew⟩) (device false (at1 0x44)) with
    | .next t => t.coreVal 5 (.dram 0x44 0 0 0 0x44) 4
    | .fault _ | .refused _ => 0) = 0x11223344 := by decide +kernel
theorem test_misaligned_load_is_late : (after (.ld64 ⟨hx, 4, v10, false, .crew⟩) (device false (at4 0x40 0x44 0x48 0x4C))).map
    (fun c => (c.late.map fun i => (i.cause, i.lane, i.val), c.gangPc 0)) = some (some (3, 1, 0x44), 0x100C) := by decide +kernel
theorem test_atom_returns_old : (after (.atom ⟨h0, 4, v10, .lit 5, .add, .rlx, .dev⟩) (deviceMem (at1 0x40)
    [(0x40, 7)])).map (fun c => c.vget 0 4) = some 7 := by decide +kernel
theorem test_cas_that_fails_keeps_memory :
    (match exec (.cas ⟨h0, 4, v10, .lit 9, 20, false, .rlx, .dev⟩) (deviceMem (at1 0x40) [(0x40, 7)]) with
      | .next t => t.coreVal 0 (.dram 0x40 0 0 0 0x40) 4
      | .fault _ | .refused _ => 0) = 7 := by decide +kernel
theorem test_update_starts_at_identity : (match exec (.umins ⟨hx, v10, 20⟩) (device false (at4 0x40 0x44 0x48 0x4C)) with
    | .next t => (t.uCur 0 0).map fun e => (lineGet e.data 0x40 4, lineGet e.data 0x50 4)
    | .fault _ | .refused _ => none) = some (0, 0x7FFFFFFF) := by decide +kernel
theorem test_hyp_store_is_private : (match exec (.st32 ⟨h0, v10, .lit 5, false, .crew⟩)
      (device false { at1 0x40 with hyp := 3 }) with
    | .next t => (t.coreVal 0 (.dram 0x40 0 0 0 0x40) 4, (t.version? 1 0 3).map fun e => lineGet e.data 0x40 4)
    | .fault _ | .refused _ => (1, none)) = (0, some 5) := by decide +kernel

/-! ### Hypotheses of the statements -/

/-- What instruction i's lanes reach. -/
def reaches (s : State) (c : Crew) (i : Instr) : List LaneTo :=
  match accessOf i c 0 with
  | none => []
  | some m =>
    match s.checkLanes c m.acc m.lanes with
    | .ok ts => ts
    | .hold _ | .bad _ _ _ _ _ | .collapse _ _ _ | .wait => []

/-- A target lies at a multiple of n in storage that exists, computed. -/
def placed (t : Target) (n : Nat) : Bool :=
  match t with
  | .dram loc _ _ _ _ => decide (loc < 2 ^ 39) && loc % n == 0
  | .scratch _ b => b % n == 0
  | .rmt _ pa => pa % n == 0
  | .mail _ _ | .host _ _ => true

theorem placed_of {t : Target} {n : Nat} (h : placed t n = true) : t.Placed n := by
  cases t <;> simp_all [placed, Target.Placed]

/-- `State.Ready` of a state without U lines, PHASED copies and registrations, whose lanes all use key k. -/
def ready (s : State) (c : Crew) (i : Instr) (k : Nat) : Bool :=
  match accessOf i c 0 with
  | none => false
  | some m =>
    let ts := reaches s c i
    memWf s.mem && (!m.rootOnly || c.hyp == 0) && decide (s.checkLanes c m.acc m.lanes = .ok ts) &&
    decide (c.watchHit m.watchRd m.watchWr m.acc.size m.lanes = none) && (ts.all fun t => !s.poisonedAt c m.acc.size t.2.2) &&
    s.ulines.isEmpty && s.regs.isEmpty && (s.caches.all fun e => !e.ph) && !s.resolving c m.acc.size ts &&
    (ts.all fun t => match t.2.2.line? with
      | some p => p.2 == k
      | none => true) && ts.all fun t => placed t.2.2 m.acc.size

theorem ready_of {s : State} {c : Crew} {i : Instr} {k : Nat} (h : ready s c i k = true) :
    ∃ m, accessOf i c 0 = some m ∧ s.Ready c m (reaches s c i) := by
  unfold ready at h
  cases e : accessOf i c 0 with
  | none => rw [e] at h; cases h
  | some m =>
    rw [e] at h
    simp only [Bool.and_eq_true, Bool.or_eq_true, decide_eq_true_eq, List.isEmpty_iff, List.all_eq_true, Bool.not_eq_true',
      beq_iff_eq] at h
    obtain ⟨⟨⟨⟨⟨⟨⟨⟨⟨⟨mem, root⟩, checks⟩, watch⟩, po⟩, ul⟩, re⟩, ph⟩, rs⟩, key⟩, pl⟩ := h
    have one : ∀ t ∈ reaches s c i, ∀ line k', t.2.2.line? = some (line, k') → k' = k := fun t ht line k' hl => by
      have := key t ht
      rw [hl] at this
      exact beq_iff_eq.mp this
    refine ⟨m, rfl, ⟨mem, fun r => ?_, checks, watch, fun _ t ht => po t ht, fun t _ line key _ => ⟨?_, ?_, fun e he _ hp _ => ?_⟩,
      fun t ht line k' hl t' ht' k'' hl' => ?_, fun t ht => placed_of (pl t ht), fun _ => ?_, fun _ => rs⟩⟩
    · rcases root with r' | r'
      · rw [r] at r'; cases r'
      · exact r'
    · simp [State.uline?, ul]
    · simp [State.regsOf, re]
    · have := ph e he
      rw [hp] at this
      cases this
    · rw [one t ht line k' hl, one t' ht' line k'' hl']
    · simp [State.regsPending, re]

/-- n lanes of instruction i issue, are ready and reach COHERENT memory or scratchpads. -/
def reachesAll (s : State) (c : Crew) (i : Instr) (n : Nat) : Bool :=
  issues s c i && ready s c i 0 && (reaches s c i).length == n && (reaches s c i).all fun t => t.2.2.committed

/-- Instruction i meets the hypotheses of the loads, stores and atomics in n lanes. -/
def Meets (s : State) (c : Crew) (i : Instr) (n : Nat) : Prop :=
  ∃ m ts, s.Issues 1 0 c i ∧ accessOf i c 0 = some m ∧ s.Ready c m ts ∧ ts.length = n ∧ ∀ t ∈ ts, t.2.2.committed = true

theorem meets_of {s : State} {c : Crew} {i : Instr} {n : Nat} (h : reachesAll s c i n = true) : Meets s c i n := by
  simp only [reachesAll, Bool.and_eq_true, beq_iff_eq, List.all_eq_true] at h
  obtain ⟨m, e, r⟩ := ready_of h.1.1.2
  exact ⟨m, _, issues_of h.1.1.1, e, r, h.1.2, h.2⟩

/-- Sixteen bytes at the end of a line and of the scratchpad allocation pass the checks. -/
theorem test_witness_checks_pass : (device false (crew 1 [])).checkLanes (crew 1 []) ⟨16, false, .load, false⟩ [(0, 0x70), (3, 0x1803F0)] =
      .ok [(0, 0x70, .dram 0x70 0 0 0 0x70), (3, 0x1803F0, .scratch 0 0x3F0)] ∧
    ∀ p ∈ (device false (crew 1 [])).pdevs, ∀ f ∈ p.fwd, f.2.src % 4096 = 0 ∧ f.2.dst % 4096 = 0 := by
  decide +kernel
theorem test_witness_root_only : let c := { at4 0x40 0x44 0x48 0x4C with hyp := 3 }
    let i : Instr := .atom ⟨hx, 4, v10, .lit 5, .add, .rlx, .dev⟩
    (device false c).Issues 1 0 c i ∧ ∃ m, accessOf i c 0 = some m ∧ m.rootOnly = true ∧ c.hyp ≠ 0 ∧ m.lanes.head? = some (0, 0x40) :=
  ⟨issues_of (by decide), _, rfl, rfl, by decide, rfl⟩
theorem test_witness_checks_fail : let c := at4 0x40 0x44 0x48 0x4C
    let i : Instr := .ld64 ⟨hx, 4, v10, false, .crew⟩
    (device false c).Issues 1 0 c i ∧ ∃ m, accessOf i c 0 = some m ∧ m.rootOnly = false ∧
      (device false c).checkLanes c m.acc m.lanes = .bad 1 0x44 3 0 0 := by
  refine ⟨issues_of (by decide), _, rfl, rfl, ?_⟩
  decide +kernel

/-- Crews whose four lanes address DRAM, the scratchpad's last 16 bytes and a second line. -/
def mixed : Crew := at4 0x70 0x1803F0 0x80 0x70

theorem test_witness_ld8 : Meets (device false mixed) mixed (.ld8 ⟨hx, 127, v10, false, .crew, true⟩) 4 := meets_of (by decide +kernel)
theorem test_witness_ld16 : Meets (device false mixed) mixed (.ld16 ⟨hx, 127, v10, true, .dev, false⟩) 4 := meets_of (by decide +kernel)
theorem test_witness_ld32 : Meets (device false mixed) mixed (.ld32 ⟨hx, 127, v10, false, .sys⟩) 4 := meets_of (by decide +kernel)
theorem test_witness_ld64 : Meets (device false mixed) mixed (.ld64 ⟨hx, 126, v10, false, .blk⟩) 4 := meets_of (by decide +kernel)
theorem test_witness_ld128 : Meets (device false mixed) mixed (.ld128 ⟨hx, 124, v10, false, .crew⟩) 4 := meets_of (by decide +kernel)
theorem test_witness_ldna : Meets (device false mixed) mixed (.ldna ⟨hx, 124, v10, false, .crew, .q⟩) 4 := meets_of (by decide +kernel)
theorem test_witness_st8 : Meets (device false mixed) mixed (.st8 ⟨hx, v10, .lit 255, false, .crew⟩) 4 := meets_of (by decide +kernel)
theorem test_witness_st16 : Meets (device false mixed) mixed (.st16 ⟨hx, v10, .reg 127, true, .dev⟩) 4 := meets_of (by decide +kernel)
theorem test_witness_st32 : Meets (device false mixed) mixed (.st32 ⟨hx, v10, .reg 127, false, .crew⟩) 4 := meets_of (by decide +kernel)
theorem test_witness_st64 : Meets (device false mixed) mixed (.st64 ⟨hx, v10, .lit 0x100000000, false, .crew⟩) 4 := meets_of (by decide +kernel)
theorem test_witness_st128 : Meets (device false mixed) mixed (.st128 ⟨hx, v10, 124, false, .crew⟩) 4 := meets_of (by decide +kernel)
/-- LDL and STL reach the last 16 bytes of the block's 1,024. -/
theorem test_witness_local : let c := at4 0x3F0 0 0x10 0x3F0
    let s := device false c
    s.Issues 1 0 c (.ldl ⟨hx, 124, v10, false, .crew, .q⟩) ∧ s.Issues 1 0 c (.stl ⟨hx, v10, 124, true, .blk, .q⟩) ∧ s.MemOk ∧
    s.regsPending c.uid = false ∧
    ∀ l, c.Takes 0 always l → (c.ea l v10).toNat % 16 = 0 ∧ (c.ea l v10).toNat + 16 ≤ (s.scratch c).2 := by
  refine ⟨issues_of (by decide), issues_of (by decide), rfl, rfl, ?_⟩
  rintro l ⟨x, h, _⟩
  have b : l / 4 < 1 := (List.getElem?_eq_some_iff.mp h).1
  have e : l = 0 ∨ l = 1 ∨ l = 2 ∨ l = 3 := by omega
  rcases e with rfl | rfl | rfl | rfl <;> decide

/-! ### Memory that is not plain -/

/-- Without its presented device, node 5 lies in another package. -/
def alone (s : State) : State := { s with pdevs := [] }

/-- One lane of a load or store reaches what is not plain: UNCACHED and PHASED memory, a host window, node 5. -/
def oneLane (s : State) (c : Crew) (i : Instr) : Bool :=
  issues s c i && ready s c i 0 && (reaches s c i).length == 1 &&
  (reaches s c i).all fun t => (s.readTo c false t.2.2 4).isSome && (s.writeTo c t.2.2 4 (storeRule c 4 t.1 (.reg 20))).isSome

theorem test_witness_uncached_load : oneLane (device false (at1 0x700040)) (at1 0x700040) (.ld32 ⟨h0, 4, v10, false, .crew⟩) = true := by
  decide +kernel
theorem test_witness_host_load : oneLane (device false (at1 0x400040)) (at1 0x400040) (.ld32 ⟨h0, 4, v10, false, .sys⟩) = true := by
  decide +kernel
theorem test_witness_phased_store : oneLane (device false (at1 0x60007C)) (at1 0x60007C) (.st32 ⟨h0, v10, .reg 20, false, .crew⟩) = true := by
  decide +kernel
theorem test_witness_peer_store : oneLane (alone (device false (at1 0x500040))) (at1 0x500040) (.st32 ⟨h0, v10, .reg 20, false, .sys⟩) = true := by
  decide +kernel
/-- A store under hypothesis 3, with room for its version. -/
theorem test_witness_version_store : let c := { at1 0x40 with hyp := 3 }
    oneLane (device false c) c (.st32 ⟨h0, v10, .reg 20, false, .crew⟩) = true ∧
    ((device false c).hypRoom c [(0, 0x40, .dram 0x40 0 0 0 0x40)]).1 = none := by decide +kernel

/-- An entry of the first-level cache of core 0. -/
def entry (line : Nat) (hyp : BitVec 8) (ph : Bool) : CEntry :=
  { place := .l1 0, line := line, st := .m, op := none, hyp := hyp, ctx := 1, ph := ph, dom := 0, phs := 0, dmask := 0, key := 0, data := 0 }

/-- Bytes 124 to 127 of line 1 for each target of the last clauses; the PHASED line is held under the key. -/
theorem test_witness_targets : let c := crew 1 []
    let s := { device false c with caches := [entry 1 0 true] }
    (0xFC % 128 + 4 ≤ 128 ∧ 0xFFFFFFFF < 2 ^ (8 * 4) ∧ s.uline? 1 = none ∧ s.regsOf c.core 1 = []) ∧
    (s.writeTo c (.dram 0xFC 0 2 0 0xFC) 4 5).isSome = true ∧ (s.readTo c false (.dram 0xFC 0 2 0 0xFC) 4).isSome = true ∧
    s.phased? c.core 1 c.ctx = some (entry 1 0 true) ∧ (entry 1 0 true).key = 0 ∧
    (entry 1 0 true).gone = false ∧ (s.writeTo c (.dram 0xFC 0 1 0 0xFC) 4 5).isSome = true ∧
    (alone s).peerOf 5 = none ∧ ((alone s).writeTo c (.rmt 5 0xFC) 4 5).isSome = true ∧ ((alone s).readTo c false (.rmt 5 0xFC) 4).isSome = true ∧
    (s.writeTo c (.host 0 0xFC) 4 5).isSome = true ∧ (s.readTo c false (.host 0 0xFC) 4).isSome = true := by decide +kernel
theorem test_witness_versions : let c := { crew 1 [] with hyp := 3 }
    let s := { device false c with caches := [entry 1 3 false] }
    (∀ e ∈ s.caches, e.line = 1 → e.hyp = c.hyp → e.ctx = c.ctx → some e = s.version? c.ctx 1 c.hyp) ∧
    (s.writeTo c (.dram 0xFC 0 0 0 0xFC) 4 5).isSome = true := by decide +kernel

/-! ### Atomics and updates -/

/-- Lanes 0 and 3 hit one element, lane 1 the last of the scratchpad allocation. -/
def clash : Crew := at4 0x70 0x1803F0 0x100 0x70

theorem test_witness_atom : Meets (device false clash) clash (.atom ⟨hx, 126, v10, .lit 1, .add64, .ar, .dev⟩) 4 := meets_of (by decide +kernel)
theorem test_witness_red : Meets (device false clash) clash (.red ⟨hx, v10, .reg 126, .exch64, true, .dev⟩) 4 := meets_of (by decide +kernel)
theorem test_witness_cas : Meets (device false clash) clash (.cas ⟨hx, 126, v10, .reg 126, 126, true, .rlx, .dev⟩) 4 :=
  meets_of (by decide +kernel)
theorem test_witness_casgt : Meets (device false clash) clash (.casgt ⟨hx, 127, v10, .lit 1, false, .acq, .dev⟩) 4 :=
  meets_of (by decide +kernel)
theorem test_witness_casv : Meets (device false clash) clash (.casv ⟨hx, 126, v10, 126, 127, .rel, .dev⟩) 4 := meets_of (by decide +kernel)
theorem test_witness_caspt : Meets (device false clash) clash (.caspt ⟨hx, 126, v10, 126, 126, .rlx, .dev⟩) 4 := meets_of (by decide +kernel)
theorem test_witness_cas128 : Meets (device false clash) clash (.cas128 ⟨hx, 124, v10, 124, 124, .rlx, .dev⟩) 4 := meets_of (by decide +kernel)
theorem test_witness_redm : Meets (device false (at4 0x70 0x78 0x80 0x70)) (at4 0x70 0x78 0x80 0x70) (.redm ⟨hx, v10, .lit 1, .add64, .dev⟩) 4 ∧
    ∀ t ∈ reaches (device false (at4 0x70 0x78 0x80 0x70)) (at4 0x70 0x78 0x80 0x70) (.redm ⟨hx, v10, .lit 1, .add64, .dev⟩),
      t.2.2.line?.isSome = true := ⟨meets_of (by decide +kernel), by decide +kernel⟩

/-- Update i of crew c meets the hypotheses: its lines are in no other operator's copies. -/
def updates (s : State) (c : Crew) (i : Instr) (op : UOp) : Bool :=
  match accessOf i c 0 with
  | none => false
  | some m => issues s c i && memWf s.mem && c.hyp == 0 && decide (s.checkLanes c m.acc m.lanes = .ok (reaches s c i)) &&
    decide (c.watchHit false true m.acc.size m.lanes = none) && (reaches s c i).length == 4 &&
    (reaches s c i).all fun t => placed t.2.2 (uBytes op) && (updTarget t.2.2).any fun u => u.2.2.1 == 0 &&
      (s.uCur c.core u.1).all fun e => e.op == some op && e.key == 0

/-- All ten operators, on lines without a copy and on one with a copy under the operator. -/
theorem test_witness_updates : let c := at4 0x70 0x78 0x80 0x70
    let s := { device false c with caches := [{ entry 0 0 false with st := .u, op := some .uadd64 }] }
    updates s c (.uadd64 ⟨hx, v10, 126⟩) .uadd64 = true ∧ updates (device false c) c (.uadd32 ⟨hx, v10, 127⟩) .uadd32 = true ∧
    updates (device false c) c (.umins ⟨hx, v10, 127⟩) .umins = true ∧ updates (device false c) c (.umaxs ⟨hx, v10, 127⟩) .umaxs = true ∧
    updates (device false c) c (.uminu ⟨hx, v10, 127⟩) .uminu = true ∧ updates (device false c) c (.umaxu ⟨hx, v10, 127⟩) .umaxu = true ∧
    updates (device false c) c (.uminf ⟨hx, v10, 127⟩) .uminf = true ∧ updates (device false c) c (.umaxf ⟨hx, v10, 127⟩) .umaxf = true ∧
    updates (device false c) c (.uor64 ⟨hx, v10, 126⟩) .uor64 = true ∧ updates (device false c) c (.uacc ⟨hx, v10, 127, true⟩) .uacc = true := by
  decide +kernel
/-- Two lanes snap a line in U whose record is ready, two a line that is not in U. -/
theorem test_witness_usnap : let c := at4 0x40 0x44 0x80 0x84
    let i : Instr := .usnap ⟨hx, 127, v10, .uadd32, .rlx, .dev⟩
    let u : ULine := { line := 0, op := .uadd32, home := 0, dirty := true, key := 0, l1s := [0], nodes := [], groups := [], back := [] }
    let s := { device false c with ulines := [u] }
    issues s c i = true ∧ (∃ m, accessOf i c 0 = some m ∧ s.checkLanes c m.acc m.lanes = .ok (reaches s c i) ∧
      c.watchHit true true m.acc.size m.lanes = none) ∧ (reaches s c i).map (fun t => t.2.2.line?) = [some (0, 0), some (0, 0), some (1, 0), some (1, 0)] ∧
    (∀ t ∈ reaches s c i, s.poisonedAt c 4 t.2.2 = false ∧ placed t.2.2 4 = true) ∧ s.regsPending c.uid = false ∧ s.regsOf c.core 0 = [] ∧
    s.regsOf c.core 1 = [] ∧ s.uline? 0 = some u ∧ u.ready = true ∧ s.uline? 1 = none := by
  refine ⟨by decide, ⟨_, rfl, ?_⟩, ?_⟩ <;> decide +kernel
theorem test_witness_prefetch : let c := at1 0x40
    issues (device false c) c (.pref ⟨h0, v10, true⟩) = true ∧ c.eas 0 h0 v10 = [(0, 0x40)] ∧ (device false c).MemOk := ⟨by decide, by decide, rfl⟩
/-- A range of no bytes, one from the last byte of a line to the next, one that wraps and one outside the canonical addresses. -/
theorem test_witness_ranges : let c := at1 0x7F
    let s := device false c
    issues s c (.cleanr ⟨h0, false, 10, 0⟩) = true ∧ issues s c (.invr ⟨h0, false, 10, 2⟩) = true ∧ issues s c (.uflush ⟨h0, false, 10, 2⟩) = true ∧
    c.parts 0 h0.guard = [0] ∧ s.checkRange c (c.rget64 false 0 10) 2 = none ∧ linesMet (c.rget64 false 0 10) 2 = [0, 0x80] ∧
    (s.rangeLanes c .inv [0, 0x80]).isSome = true ∧ 2 ^ 64 ≤ (0xFFFFFFFFFFFFFFFF : BitVec 64).toNat + 2 - 1 ∧
    canonical 0x0100000000000000 = false := by decide +kernel
/-- A release that waits for an update, one that waits for a REDM, and one that waits for nothing. -/
theorem test_witness_fences : let c := crew 1 []
    let r : Reg := { line := 0, op := .uacc, core := 0, crew := 1, gang := 0, run := 1, ctx := 1, key := 0, epoch := 0, node := none, more := [(1, 0)], out := false }
    let a : AtomReq := { loc := 0, key := 0, ctx := 1, run := 1, op := .add, b := 0, src := .crew 1 0, epoch := 0 }
    issues { device false c with regs := [r] } c (.fence ⟨hx, .rel, .dev, false⟩) = true ∧ r.crew = c.uid ∧
    issues { device false c with atomq := [a] } c (.fence ⟨hx, .acq, .dev, true⟩) = true ∧ a.src = .crew c.uid 0 ∧
    issues (device false c) c (.fence ⟨hx, .sc, .sys, true⟩) = true ∧ (∀ r ∈ (device false c).regs, r.crew ≠ c.uid) ∧ c.Takes 0 always 0 :=
  ⟨by decide, rfl, by decide, rfl, by decide, by decide, takes_of (x := slice) rfl rfl rfl rfl⟩

/-! ### Barriers, phases, mailboxes, events and hypotheses -/

/-- One slice with scalar registers. -/
def withS (n : Nat) (s : SMap Word) : Crew := { crew n [] with slices := List.replicate n { slice with s := s } }

/-- Lane 0 leads a gang of slices without a guard. -/
theorem lead_of {c : Crew} {x : Slice} (h : c.slices[0]? = some x) (lv : x.live = true) (hg : x.gang = 0)
    (ha : x.active.getLsbD 0 = true) : c.Leads 0 always 0 :=
  ⟨takes_of (l := 0) h lv hg ha, fun _ h => absurd h (Nat.not_lt_zero _)⟩

theorem test_bararr_completes_the_phase :
    (match exec (.bararr ⟨hx, 8, 10, 0, none, .dflt⟩) (deviceMem (withS 1 [(10, 0x40)]) [(0x48, 1), (0x4A, 3)]) with
      | .next t => (t.coreVal 0 (.dram 0x40 0 0 0 0x40) 16, (t.crew? 1).map (·.sget 0 8))
      | .fault _ | .refused _ => (0, none)) = (2 ^ 96 + 3 * 2 ^ 80 + 3 * 2 ^ 64, some 0) := by decide +kernel
theorem test_barwait_waits : (after (.barwait ⟨hx, 10, 0, 8⟩) (deviceMem (withS 1 [(10, 0x40)]) [(0x4A, 3)])).map
    (fun c => (c.gangPc 0, c.slices.map (·.wait))) = some (0x1000, [.barwait 0x40 false 0]) := by decide +kernel
theorem test_hypnew_takes_a_free_id : (after (.hypqry ⟨hx, 8, 10⟩) (device false (withS 1 [(10, 7)]))).map (·.sget 0 8) = some 0 := by
  decide +kernel
theorem test_waitany_of_no_live_slot : (after (.waitany ⟨0, 1⟩) (device false (crew 1 []))).map (fun c => (c.evwhich, c.gangPc 0)) =
    some (0xFFFFFFFF, 0x100C) := by decide +kernel
theorem test_evset_of_empty_mailbox_range : (after (.evset ⟨hx, 1, 10, .mbox, 8⟩) (device false
    { withS 1 [(10, 64)] with tvec := 0x800 })).map (·.trap.cause) = some 0x11 := by decide +kernel

/-- `State.BarAt` of an object in DRAM that no U line touches, computed. -/
def barAt (s : State) (c : Crew) (va : BitVec 64) (write : Bool) (x : Target) (pend : BitVec 64) (arrv quota : Nat) (par : Bool) : Bool :=
  memWf s.mem && decide (s.checkAddr c ⟨16, write, .barrier, false⟩ va = .ok x) && !s.poisonedAt c.atRoot 16 x && x.committed && placed x 16 &&
  s.ulines.isEmpty && s.regs.isEmpty && (s.caches.all fun e => !e.ph) && s.coreVal c.core x 8 == pend.toNat &&
  s.coreVal c.core x 16 / 2 ^ 64 % 2 ^ 32 == arrv + 2 ^ 16 * quota && decide (arrv < 2 ^ 16) && decide (quota < 2 ^ 16) &&
  (s.coreVal c.core x 16).testBit 96 == par

theorem barAt_of {s : State} {c : Crew} {va : BitVec 64} {write : Bool} {x : Target} {pend : BitVec 64} {arrv quota : Nat} {par : Bool}
    (h : barAt s c va write x pend arrv quota par = true) : s.BarAt c va write x pend arrv quota par := by
  simp only [barAt, Bool.and_eq_true, decide_eq_true_eq, List.isEmpty_iff, Bool.not_eq_true', beq_iff_eq] at h
  obtain ⟨⟨⟨⟨⟨⟨⟨⟨⟨⟨⟨⟨m, k⟩, p⟩, c'⟩, l⟩, u⟩, r⟩, q⟩, a⟩, b⟩, e⟩, f⟩, g⟩ := h
  refine ⟨m, k, p, c', placed_of l, fun _ _ _ => ⟨by simp [State.uline?, u], by simp [State.regsOf, r], fun x hx _ hp _ => ?_⟩, a, b, ⟨e, f⟩, g⟩
  have := List.all_eq_true.mp q x hx
  rw [hp] at this
  cases this

/-- The barrier object at 0x40: PEND, ARRV, QUOTA and PAR. -/
def bar40 : Target := .dram 0x40 0 0 0 0x40

/-- The gang's lane leads, and no lane does under the other guard. -/
theorem test_witness_barriers_idle (c : Crew) : ∀ l, ¬c.Takes 0 (XHdr.guard ⟨never, 0⟩) l := never_takes c 0
theorem test_witness_barriers_idle_issue : let s := device false (crew 1 [])
    issues s (crew 1 []) (.barinit ⟨⟨never, 0⟩, 62, 0, 63⟩) = true ∧ issues s (crew 1 []) (.barexp ⟨⟨never, 0⟩, 62, 0, 62⟩) = true ∧
    issues s (crew 1 []) (.barwait ⟨⟨never, 0⟩, 62, 0, 63⟩) = true ∧ issues s (crew 1 []) (.bararr ⟨⟨never, 0⟩, 63, 62, 0, none, .dflt⟩) = true := by
  decide
/-- BARINIT with 0, with 0x10000, and with 0xFFFF at an object. -/
theorem test_witness_barinit : let c := withS 1 [(8, 0xFFFF), (9, 0x10000), (10, 0x40)]
    let s := device false c
    s.Issues 1 0 c (.barinit ⟨hx, 10, 0, 8⟩) ∧ c.Leads 0 always 0 ∧ (c.sget 0 63).toNat = 0 ∧ 0xFFFF < (c.sget 0 9).toNat ∧
    (c.sget 0 8).toNat = 0xFFFF ∧ s.BarAt c (c.sea 0 10 0) true bar40 0 0 0 false :=
  ⟨issues_of (by decide), lead_of (x := { slice with s := _ }) rfl rfl rfl rfl, by decide, by decide, by decide, barAt_of (by decide +kernel)⟩
/-- BARARR of 1 and of 0xFFFF at a phase that lacks one arrival, at an object whose QUOTA is 0, and with a count too large. -/
theorem test_witness_bararr : let c := withS 1 [(8, 0xFFFF), (9, 0x10000), (10, 0x40)]
    let s := deviceMem c [(0x48, 1), (0x4A, 3)]
    s.Issues 1 0 c (.bararr ⟨hx, 63, 10, 0, some 8, .rlx⟩) ∧ c.Leads 0 always 0 ∧ 0xFFFF < (c.sget 0 9).toNat ∧
    s.regsPending c.uid = false ∧ s.BarAt c (c.sea 0 10 0) true bar40 0 1 3 false ∧
    (device false c).BarAt c (c.sea 0 10 0) true bar40 0 0 0 false ∧ ∀ r ∈ (device false c).recalls, r.expired = false :=
  ⟨issues_of (by decide), lead_of (x := { slice with s := _ }) rfl rfl rfl rfl, by decide, by decide, barAt_of (by decide +kernel),
    barAt_of (by decide +kernel), by decide⟩
theorem test_witness_barexp : let c := withS 1 [(10, 0x40)]
    let s := deviceMem c [(0x40, 5), (0x4A, 3), (0x4C, 1)]
    s.Issues 1 0 c (.barexp ⟨hx, 10, 0, 62⟩) ∧ c.Leads 0 always 0 ∧ s.BarAt c (c.sea 0 10 0) true bar40 5 0 3 true :=
  ⟨issues_of (by decide), lead_of (x := { slice with s := _ }) rfl rfl rfl rfl, barAt_of (by decide +kernel)⟩
/-- BARWAIT with sB[0] = 0 at an object of parity 1, which passes, and one of parity 0, which waits. -/
theorem test_witness_barwait : let c := withS 1 [(10, 0x40)]
    let s := deviceMem c [(0x4A, 3), (0x4C, 1)]
    s.Issues 1 0 c (.barwait ⟨hx, 10, 0, 8⟩) ∧ c.Leads 0 always 0 ∧ s.BarAt c (c.sea 0 10 0) false bar40 0 0 3 true ∧
    (deviceMem c [(0x4A, 3)]).BarAt c (c.sea 0 10 0) false bar40 0 0 3 false :=
  ⟨issues_of (by decide), lead_of (x := { slice with s := _ }) rfl rfl rfl rfl, barAt_of (by decide +kernel), barAt_of (by decide +kernel)⟩
theorem test_witness_barwait_resume : let y := { slice with wait := .barwait 0x40 false 0 }
    let c := { crew 1 [] with slices := [y] }
    let s := deviceMem c [(0x4A, 3), (0x4C, 1)]
    s.crew? 1 = some c ∧ c.preempted = false ∧ c.saved = false ∧ c.faulted = none ∧ c.orphan = none ∧ c.slices[0]? = some y ∧
    s.BarAt c 0x40 false bar40 0 0 3 true := ⟨rfl, rfl, rfl, rfl, rfl, rfl, barAt_of (by decide +kernel)⟩
/-- The domain has QUOTA 2: an arrival waits, the second advances it; another domain has none. -/
theorem test_witness_phase : let c := crew 1 []
    let x := { ctx false with phases := [{ quota := 2, next := 2, arrived := 0, count := 0 }, { quota := 2, next := 2, arrived := 1, count := 7 },
      { quota := 0, next := 0, arrived := 0, count := 0 }] }
    let s := { device false c with ctxs := [x] }
    s.Issues 1 0 c (.phase ⟨hx, 63, 0⟩) ∧ s.Issues 1 0 c (.phase ⟨⟨never, 0⟩, 63, 7⟩) ∧ s.ctx? c.ctx = some x ∧ (∃ l, c.Takes 0 always l) ∧
    s.regsPending c.uid = false ∧ (x.phase 0).arrived.toNat + 1 < (x.phase 0).quota.toNat ∧ (x.phase 1).quota ≠ 0 ∧
    (x.phase 1).quota.toNat ≤ (x.phase 1).arrived.toNat + 1 ∧ (x.phase 2).quota = 0 :=
  ⟨issues_of (by decide), issues_of (by decide), rfl, ⟨0, takes_of (x := slice) rfl rfl rfl rfl⟩, by decide⟩
/-- Three lanes send to the last mailbox, and one to the first. -/
theorem test_witness_msend : let c := at4 0x3001F8 0x3001F8 0x300000 0x3001F8
    let i : Instr := .msend ⟨hx, 127, v10, 126, true, .blk⟩
    issues (device false c) c i = true ∧ (∃ m, accessOf i c 0 = some m ∧ (device false c).checkLanes c m.acc m.lanes = .ok (reaches (device false c) c i) ∧
      c.watchHit false true 8 m.lanes = none) ∧ (reaches (device false c) c i).length = 4 ∧ (device false c).regsPending c.uid = false := by
  refine ⟨by decide, ⟨_, rfl, ?_⟩, ?_⟩ <;> decide +kernel
/-- A message is delivered, to a mailbox that is empty, to one that is full, and to a core without the context. -/
theorem test_witness_delivery : let y := { slice with vpend := [(3 * 128 + 127, 9)] }
    let c := { crew 1 [] with slices := [y] }
    let m : Mail := { op := 9, crew := 1, gang := 0, mates := [0], slice := 0, lane := 3, reg := 127, core := 0, slot := 63, msg := 5, ctx := 1, epoch := 0 }
    let s := { device false c with mails := [m, { m with core := 1 }] }
    s.mails[0]? = some m ∧ mailBlocked m (s.mails.take 0) = false ∧ s.crew? m.crew = some c ∧ c.slices[m.lane / 4]? = some y ∧ y.drops = [] ∧
    m.reg < 128 ∧ mfind y.vpend (m.lane * 128 + m.reg) = some m.op ∧ (∃ b ∈ s.blocks, b.core = m.core ∧ b.ctx = m.ctx ∧ b.saved = false) ∧
    (mget [] (s.core m.core).mail m.slot).length < 4 ∧ mailBlocked { m with core := 1 } (s.mails.take 1) = false ∧
    ¬(∃ b ∈ s.blocks, b.core = 1) := by decide +kernel
theorem test_witness_delivery_full : let s := { device false (crew 1 []) with cores := [(0, { (State.reset.core 0) with mail := [(63, [1, 2, 3, 4])] })] }
    4 ≤ (mget [] (s.core 0).mail 63).length := by decide +kernel
/-- EVSET of each kind: the object at 0x40 is read where its core has it; mailboxes 63 and 64; a status pair; hypothesis 3; a time. -/
theorem test_witness_evset : let c := withS 1 [(10, 0x40), (12, 63), (14, 64), (16, 3)]
    let s := { deviceMem c [(0x4A, 3)] with caches := [{ entry 0 0 false with st := .s, data := 3 <<< 592 }] }
    issues s c (.evset ⟨hx, 7, 10, .bar 63, 8⟩) = true ∧ issues s c (.evset ⟨⟨never, 0⟩, 7, 62, .timer, 8⟩) = true ∧ c.Leads 0 always 0 ∧
    s.checkAddr c ⟨16, false, .barrier, false⟩ 0x40 = .ok bar40 ∧ s.poisonedAt c.atRoot 16 bar40 = false ∧
    s.readTo c.atRoot false bar40 16 = some (3 * 2 ^ 80, s) ∧ issues s c (.evset ⟨hx, 7, 12, .mbox, 8⟩) = true ∧
    ((c.sget 0 12).setWidth 64 : BitVec 64).toNat ≤ 63 ∧ 63 < ((c.sget 0 14).setWidth 64 : BitVec 64).toNat ∧
    issues s c (.evset ⟨hx, 0, 62, .stat, 8⟩) = true ∧ issues s c (.evset ⟨hx, 0, 16, .hyp, 8⟩) = true :=
  ⟨by decide, by decide, lead_of (x := { slice with s := _ }) rfl rfl rfl rfl, by decide +kernel, by decide, by decide +kernel, by decide,
    by decide, by decide, by decide, by decide⟩
theorem test_witness_evclr : issues (device false (crew 1 [])) (crew 1 []) (.evclr ⟨hx, 7⟩) = true ∧ (crew 1 []).Takes 0 always 0 ∧
    ∀ l, ¬(crew 1 []).Takes 0 never l := ⟨by decide, takes_of (x := slice) rfl rfl rfl rfl, never_takes _ _⟩

/-- Slots 2 and 7 are bound to a status pair; 7 is pending. -/
def waiting (pend : BitVec 8) (w : Wait) : Crew :=
  { crew 1 [] with
    slices := [{ slice with wait := w }], pend := pend,
    slots := (List.range 8).map fun j => { bound := j == 2 || j == 7, kind := 1, obj := 0, parity := false, handler := 0x4000 } }

theorem test_witness_waitany : let c := waiting 0x80 .none
    (device false c).Issues 1 0 c (.waitany ⟨0, 0xFF⟩) ∧ (∀ (i : Nat) (x : Slice), c.slices[i]? = some x → x.live = true → x.gang = 0) ∧
    (∀ j, j < 8 → ((0x84 : BitVec 8).getLsbD j = true ↔
      (0xFF : BitVec 8).getLsbD j = true ∧ (∃ v, c.slots[j]? = some v ∧ v.bound = true) ∧ c.emask.getLsbD j = false)) ∧
    (device false c).Takable c 0x84 7 ∧ ∀ j, j < 7 → ¬(device false c).Takable c 0x84 j := by
  refine ⟨issues_of (by decide), fun i x h _ => ?_, ?_, ⟨rfl, rfl, _, rfl, fun h => by cases h⟩, fun j hj h => ?_⟩
  · obtain ⟨_, rfl⟩ := List.mem_replicate.mp (List.mem_of_getElem? (show (List.replicate 1 { slice with wait := Wait.none })[i]? = some x from h))
    rfl
  · intro j hj
    have : j = 0 ∨ j = 1 ∨ j = 2 ∨ j = 3 ∨ j = 4 ∨ j = 5 ∨ j = 6 ∨ j = 7 := by omega
    rcases this with rfl | rfl | rfl | rfl | rfl | rfl | rfl | rfl <;>
      simp [waiting, crew]
  · have : j = 0 ∨ j = 1 ∨ j = 2 ∨ j = 3 ∨ j = 4 ∨ j = 5 ∨ j = 6 := by omega
    have p := h.2.1
    rcases this with rfl | rfl | rfl | rfl | rfl | rfl | rfl <;> revert p <;> decide
/-- Nothing is pending, no slot is live, or a second gang lives. -/
theorem test_witness_waitany_waits : (∀ e, e < 8 → (waiting 0 .none).pend.getLsbD e = false) ∧ (waiting 0 .none).emask = 0 ∧
    (crew 1 []).slots.all (fun v => !v.bound) = true ∧
    ∃ (i : Nat) (x : Slice), (twoGangs .none).slices[i]? = some x ∧ x.live = true ∧ x.gang ≠ 0 :=
  ⟨by decide, rfl, rfl, 1, _, rfl, rfl, by decide⟩
theorem test_witness_waitany_resume : let c := waiting 0x80 (.waitany 0x84)
    (device false c).crew? 1 = some c ∧ c.preempted = false ∧ c.saved = false ∧ c.faulted = none ∧ c.orphan = none ∧ c.inGang 0 0 = true ∧
    c.slices.map (fun x => (x.live, x.gang, x.wait)) = [(true, 0, .waitany 0x84)] ∧ c.slots.length = 8 ∧
    (device false c).Takable c 0x84 7 :=
  ⟨rfl, rfl, rfl, rfl, rfl, by decide, by decide, by decide, rfl, rfl, _, rfl, fun h => by cases h⟩

/-- Context 1 with hypotheses: 3 is LIVE below the root, 5 LIVE below 3, 6 DISCARDING, 7 RESOLVING, 9 LIVE at depth 15. -/
def hypCtx : Ctx :=
  { ctx false with hyps := [(3, ⟨.live, 0, 1, 0⟩), (5, ⟨.live, 3, 2, 0⟩), (6, ⟨.discarding, 3, 2, 3⟩), (7, ⟨.resolving, 0, 1, 0⟩), (9, ⟨.live, 5, 15, 0⟩)] }
def hypCrew : Crew := withS 1 [(10, 3), (11, 5), (12, 6), (13, 7), (14, 9)]
def hypState : State := { device false hypCrew with ctxs := [hypCtx] }

theorem hyp_leads : hypCrew.Leads 0 always 0 := lead_of (x := { slice with s := _ }) rfl rfl rfl rfl

theorem test_witness_hypqry : hypState.Issues 1 0 hypCrew (.hypqry ⟨hx, 63, 63⟩) ∧ hypState.ctx? hypCrew.ctx = some hypCtx ∧
    hypCrew.Leads 0 always 0 := ⟨issues_of (by decide), rfl, hyp_leads⟩
/-- HYPNEW below 3, and below 9, which has the greatest depth, and 6, which is not LIVE. -/
theorem test_witness_hypnew : hypState.Issues 1 0 hypCrew (.hypnew ⟨hx, 63, 10⟩) ∧ (hypCtx.hypOf 3).st = .live ∧ (hypCtx.hypOf 3).depth ≠ 15 ∧
    (∃ h, h ≠ 0 ∧ (hypCtx.hypOf h).st = .free) ∧ (hypCtx.hypOf 9).depth = 15 ∧ (hypCtx.hypOf 6).st ≠ .live :=
  ⟨issues_of (by decide), by decide, by decide, ⟨1, by decide, by decide⟩, by decide, by decide⟩
/-- HYPENTER of a LIVE, a RESOLVING, a DISCARDING and a FREE id by one gang, and by a crew of two. -/
theorem test_witness_hypenter : hypState.Issues 1 0 hypCrew (.hypenter ⟨hx, 10, 62⟩) ∧
    (hypCtx.hypOf 3).st = .live ∧ (hypCtx.hypOf 7).st = .resolving ∧ (hypCtx.hypOf 6).st = .discarding ∧ (hypCtx.hypOf 1).st = .free ∧
    (hypCtx.hypOf (hypCtx.hypOf 6).parent).st ≠ .discarding ∧
    (∀ (i : Nat) (y : Slice), hypCrew.slices[i]? = some y → y.live = true → y.gang = 0) ∧
    ∃ (i : Nat) (y : Slice), (twoGangs .none).slices[i]? = some y ∧ y.live = true ∧ y.gang ≠ 0 := by
  refine ⟨issues_of (by decide), by decide, by decide, by decide, by decide, by decide, fun i y h _ => ?_, 1, _, rfl, rfl, by decide⟩
  obtain ⟨_, rfl⟩ := List.mem_replicate.mp (List.mem_of_getElem? (show (List.replicate 1 _)[i]? = some y from h))
  rfl
theorem test_witness_hyp_idle : issues hypState hypCrew (.hypres ⟨⟨never, 0⟩, 63, 63, true⟩) = true ∧
    issues hypState hypCrew (.hypnew ⟨⟨never, 0⟩, 63, 63⟩) = true ∧ issues hypState hypCrew (.hypenter ⟨⟨never, 0⟩, 63, 62⟩) = true ∧
    ∀ l, ¬hypCrew.Takes 0 never l := ⟨by decide, by decide, by decide, never_takes _ _⟩
/-- HYPRES of 3, whose version of line 1 would be committed, of 5 into 3, of the root and of a DISCARDING id. -/
theorem test_witness_hypres : let s := { hypState with caches := [entry 1 3 false] }
    s.Issues 1 0 hypCrew (.hypres ⟨hx, 63, 10, false⟩) ∧ s.ctx? hypCrew.ctx = some hypCtx ∧ hypCrew.Leads 0 always 0 ∧
    s.regsPending hypCrew.uid = false ∧ s.MemOk ∧ (hypCtx.hypOf 3).st = .live ∧ (hypCtx.hypOf 3).parent = 0 ∧
    s.commitBlocked (s.versionsOf 1 3) = false ∧ (s.versionsOf 1 3).map (·.line) = [1] ∧ s.uline? 1 = none ∧
    (hypCtx.hypOf 5).st = .live ∧ (hypCtx.hypOf 5).parent ≠ 0 ∧ (hypCtx.hypOf 5).parent ≠ 5 ∧ (hypCtx.hypOf 6).st ≠ .live :=
  ⟨issues_of (by decide), rfl, hyp_leads, rfl, rfl, by decide +kernel⟩

/-! ## Engines -/

/-- A descriptor: rows, columns, format, space, stride and base; no scale and no sparsity (R219). -/
def desc (rows cols fmt space stride base : Nat) : BitVec 256 :=
  BitVec.ofNat 256 (base + rows * 2 ^ 64 + cols * 2 ^ 80 + fmt * 2 ^ 96 + space * 2 ^ 100 + stride * 2 ^ 128)

/-- The device with descriptors. -/
def withTds (c : Crew) (tds : SMap (BitVec 256)) : State := { device false c with ctxs := [{ ctx false with tds := tds }] }

/-- Core 0 with its four tiles valid in format INT8. -/
def loadedCore : Core :=
  { Core.fresh with subs := List.replicate 4 { valid := true, fmt := 2, pat := 0, gen := 1, badGens := [], cells := [], idx := [], scales := [] } }

theorem crew1_leads (n : Nat) (v : SMap Word) : (crew (n + 1) v).Leads 0 always 0 := lead_of (x := slice) rfl rfl rfl rfl

theorem test_tdset_writes_eight_words : (match exec (.tdset ⟨hx, 3, .regs 8⟩) (device false (withS 1 [(8, 5), (15, 0x80000000)])) with
    | .next t => t.td 1 3
    | .fault _ | .refused _ => 0) = 0x8000000000000000000000000000000000000000000000000000000000000005 := by decide +kernel
theorem test_mload_traps_on_zero_descriptor : (after (.mload ⟨hx, 4, 3, 0, false⟩) (device false { crew 1 [] with tvec := 0x800 })).map
    (·.trap.cause) = some 0x0A := by decide +kernel
theorem test_copy_under_a_hypothesis_traps : (after (.copy ⟨hx, 4, 3, 2, 0, none⟩) (device false { crew 1 [] with hyp := 3, tvec := 0x800 })).map
    (·.trap.cause) = some 7 := by decide +kernel
theorem test_accz_leaves_its_pair_pending : (after (.accz ⟨hx, 4, 0, 0, 127⟩) (device false (crew 1 []))).map
    (fun c => c.slices.map fun x => x.spend.map (·.1)) = some [[4, 5]] := by decide +kernel
theorem test_winarm_gives_the_address : (after (.winarm ⟨hx, 4, 8, 16⟩) (device false (crew 2 []))).map (fun c => (c.sget 1 4, c.sget 1 5, c.window)) =
    some (0x100, 0xFF00, some (8, 16)) := by decide +kernel

/-! ### Hypotheses of the statements -/

theorem test_witness_engines_idle : let c := crew 1 []
    let s := device false c
    let h : XHdr := ⟨never, 0⟩
    ([.tdset ⟨h, 255, .regs 56⟩, .tdget ⟨h, 56, 255⟩, .mload ⟨h, 62, 255, 3, true⟩, .mloadsp ⟨h, 62, 255, 3, .p24, 64, 14, false⟩,
      .mma ⟨h, 62, 255, true, 63, 127, 0, .m4x1⟩, .accz ⟨h, 62, 7, 127, 0⟩, .accrd ⟨h, 120, 7, 63, true⟩, .accwr ⟨h, 62, 7, 63, 120⟩,
      .copy ⟨h, 62, 255, 255, 3, some 62⟩, .copyg ⟨h, 62, 255, 255, 255, 3, none⟩, .coll ⟨h, 62, 126, 127, 255, .redSw⟩,
      .cell ⟨h, 62, 62, 0, true⟩, .task ⟨h, 62, 62, 0, 3⟩, .winarm ⟨h, 62, 0, 128⟩, .winclr h] : List Instr).all (issues s c) = true ∧
    ∀ l, ¬c.Takes 0 h.guard l := ⟨by decide, never_takes _ _⟩
/-- A descriptor from scalars, and from the last 32 bytes of a line. -/
theorem test_witness_tdset : let c := withS 1 [(10, 0x60), (56, 7), (63, 9)]
    let s := { device false c with caches := [{ entry 0 0 false with st := .s }] }
    s.Issues 1 0 c (.tdset ⟨hx, 255, .regs 56⟩) ∧ s.Issues 1 0 c (.tdset ⟨hx, 255, .mem 10 0⟩) ∧ s.ctx? c.ctx = some ({ ctx false with
      regions := [(0, region 0x600000 1), (1, region 0x700000 2)] }) ∧ c.Leads 0 always 0 ∧
    s.checkAddr c ⟨32, false, .load, true⟩ (c.sea 0 10 0) = .ok (.dram 0x60 0 0 0 0x60) ∧
    c.watchHit true false 32 [(0, c.sea 0 10 0)] = none ∧ s.poisonedAt c.atRoot 32 (.dram 0x60 0 0 0 0x60) = false ∧
    s.readTo c.atRoot false (.dram 0x60 0 0 0 0x60) 32 = some (0, s) :=
  ⟨issues_of (by decide), issues_of (by decide), rfl, lead_of (x := { slice with s := _ }) rfl rfl rfl rfl, by decide +kernel, by decide +kernel,
    by decide, by decide +kernel⟩
theorem test_witness_tdget : (device false (crew 1 [])).Issues 1 0 (crew 1 []) (.tdget ⟨hx, 56, 255⟩) ∧ ∃ l, (crew 1 []).Takes 0 always l :=
  ⟨device_issues _ _ _ _ (by decide), 0, takes_of (x := slice) rfl rfl rfl rfl⟩
/-- MLOAD of 256 × 256 bytes, of 257 rows, and of an ill-formed descriptor. -/
theorem test_witness_mload : let c := crew 1 []
    let s := withTds c [(3, desc 256 256 2 1 256 0), (4, desc 257 256 2 1 256 0)]
    s.Issues 1 0 c (.mload ⟨hx, 62, 3, 3, true⟩) ∧ (∃ l, c.Takes 0 always l) ∧ LoadTd (s.td 1 3) 0 ∧ tdRows (s.td 1 3) ≤ 256 ∧
    tdCols (s.td 1 3) ≤ 256 ∧ 3 < (s.core 0).subs.length ∧ LoadTd (s.td 1 4) 0 ∧ 256 < tdRows (s.td 1 4) ∧ ¬LoadTd (s.td 1 5) 0 := by
  refine ⟨issues_of (by decide), ⟨0, takes_of (x := slice) rfl rfl rfl rfl⟩, ?_⟩
  unfold LoadTd
  decide +kernel
theorem test_witness_mloadsp : let c := crew 8 []
    let t : BitVec 256 := desc 256 128 2 1 128 0 ||| 1 <<< 102
    let s := withTds c [(3, t), (4, desc 256 512 2 1 512 0 ||| 1 <<< 102)]
    s.Issues 1 0 c (.mloadsp ⟨hx, 62, 3, 3, .p24, 64, 12, true⟩) ∧ (∃ l, c.Takes 0 always l) ∧ LoadTd (s.td 1 3) 1 ∧ tdRows (s.td 1 3) ≤ 256 ∧
    tdCols (s.td 1 3) ≤ 256 ∧ c.slices.length = 8 ∧ LoadTd (s.td 1 4) 1 ∧ 256 < tdCols (s.td 1 4) ∧ ¬LoadTd (s.td 1 3) 2 ∧
    (device false (crew 7 [])).Issues 1 0 (crew 7 []) (.mloadsp ⟨hx, 62, 3, 3, .p24, 64, 12, true⟩) ∧ (crew 7 []).slices.length ≠ 8 := by
  refine ⟨issues_of (by decide), ⟨0, takes_of (x := slice) rfl rfl rfl rfl⟩, ?_⟩
  unfold LoadTd
  refine ⟨by decide +kernel, by decide +kernel, by decide +kernel, by decide, by decide +kernel, by decide +kernel, by decide +kernel,
    issues_of (by decide), by decide⟩
/-- An MMA of one row whose chain fits, one whose chain has the wrong width, one beyond the scratchpad, one of records that are not valid. -/
theorem test_witness_mma : let c := crew 1 []
    let s := { withTds c [(3, desc 1 1024 2 1 1024 0), (4, desc 1 256 2 1 256 0), (5, desc 1 1024 2 1 1024 16)] with cores := [(0, loadedCore)] }
    let k := s.core c.core
    s.Issues 1 0 c (.mma ⟨hx, 62, 3, true, 63, 0, 127, .m4x1⟩) ∧ c.Leads 0 always 0 ∧ k = loadedCore ∧
    ChainTd k (s.td c.ctx 3) [0, 1, 2, 3] ∧ ChainShape k (s.td c.ctx 3) [0, 1, 2, 3] 0 1 ∧ ChainInside (s.scratch c).2 (s.td c.ctx 3) 0 1 ∧
    ChainTd k (s.td c.ctx 4) [0, 1, 2, 3] ∧ ¬ChainShape k (s.td c.ctx 4) [0, 1, 2, 3] 0 1 ∧
    ChainTd k (s.td c.ctx 5) [0, 1, 2, 3] ∧ ¬ChainInside (s.scratch c).2 (s.td c.ctx 5) 0 1 ∧ ¬ChainTd Core.fresh (s.td c.ctx 3) [0, 1, 2, 3] := by
  have inside : ∀ r, 0 ≤ r → r < 0 + 1 → r = 0 := by omega
  unfold ChainInside
  refine ⟨issues_of (by decide), crew1_leads 0 [], by decide +kernel, ?_, ?_, fun r a b => by rw [inside r a b]; decide +kernel, ?_, ?_, ?_,
    fun h => absurd (h 0 (by decide) (by decide)) (by decide +kernel), ?_⟩ <;>
    (try unfold ChainTd) <;> (try unfold ChainShape) <;> decide +kernel
theorem test_witness_accumulators : let c := withS 1 [(8, 127), (9, 128)]
    let s := device false c
    s.Issues 1 0 c (.accz ⟨hx, 62, 7, 127, 0⟩) ∧ s.Issues 1 0 c (.accwr ⟨hx, 62, 7, 8, 120⟩) ∧ s.Issues 1 0 c (.accrd ⟨hx, 120, 7, 8, false⟩) ∧
    c.Leads 0 always 0 ∧ (c.sget 0 8).toNat ≤ 127 ∧ 127 < (c.sget 0 9).toNat ∧ (127 : BitVec 7).toNat + ((0 : BitVec 7).toNat + 1) ≤ 128 ∧
    128 < (127 : BitVec 7).toNat + ((1 : BitVec 7).toNat + 1) :=
  ⟨issues_of (by decide), issues_of (by decide), issues_of (by decide), lead_of (x := { slice with s := _ }) rfl rfl rfl rfl, by decide⟩

/-- A queued matrix operation of crew 1. -/
def mxOp (id : Nat) (kind : MxKind) (hyp : BitVec 8) (started : Bool) : MxOp :=
  { id := id, ctx := 1, crew := 1, block := 1, slices := [0], dest := some ⟨1, [0], 4⟩, pc := 0x1000, kind := kind, hyp := hyp, subs := [(0, 1)],
    recs := [(0, 2, 0)], started := started, tiles := if started then [1] else [], busy := false, refuted := none, flags := 0 }

/-- The device with a queue and tags on core 0. -/
def withMx (c : Crew) (q : List MxOp) (tags : SMap (BitVec 8)) : State :=
  { device false c with cores := [(0, { loadedCore with mq := q, tags := tags })], ctxs := [hypCtx] }

/-- An operation behind another, and one in front. -/
theorem test_witness_matrix_order : let a := mxOp 7 (.accz 0 0 1) 0 false
    let b := mxOp 8 (.accwr 1 0 [(0, 5)]) 0 false
    let s := withMx (crew 1 []) [a, b] []
    (s.core 0).mq.find? (·.id == 8) = some b ∧ b.started = false ∧ (s.core 0).mq = [a] ++ b :: [] ∧ (0, 1) ∈ a.subs ∧ (0, 1) ∈ b.subs ∧
    (s.core 0).mq.find? (·.id == 7) = some a ∧ a.refuted = none ∧ (∀ p ∈ a.subs, p.2 ∉ ((s.core 0).sub p.1).badGens) ∧
    mwf 0 (s.core 0).acc = true := by decide +kernel
/-- Under hypothesis 3, tile 0 is foreign, its partner is claimed, the partner is 3's, the partner is another's; and at the root. -/
theorem test_witness_matrix_tiles : let s := fun tags => withMx (crew 1 []) [mxOp 7 (.accz 0 0 1) 3 false] tags
    (((s [(0, 6)]).core 0).tag 0 ≠ 0 ∧ ((s [(0, 6)]).core 0).tag 0 ≠ 3 ∧ ((s [(0, 6)]).core 0).tag 0 ∉ (hypCtx.chain 16 3).drop 1) ∧
    (((s []).core 0).tag 0 = 0 ∧ ((s []).core 0).tag 1 = 0) ∧ ((s [(1, 3)]).core 0).tag 1 = 3 ∧
    (((s [(1, 6)]).core 0).tag 1 ≠ 3 ∧ ((s [(1, 6)]).core 0).tag 1 ≠ 0) ∧ (s []).ctx? 1 = some hypCtx := by decide +kernel
/-- Each kind of operation, running, with a status pair that waits for it. -/
theorem test_witness_matrix_completes : let kinds := [MxKind.mma [] 0 0 1 0 .m4x1, .accz 0 127 1, .accwr 0 127 [(255, 5)], .load (desc 1 256 2 1 256 0x300) false]
    let s := withMx (crew 1 []) (kinds.mapIdx fun i k => mxOp i k 0 true) []
    (∀ i ∈ [0, 1, 2, 3], (s.core 0).mq.any (fun o => o.id == i && o.started && o.dest.isSome && o.refuted.isNone && !o.busy &&
      o.tiles == [1]) = true) ∧ s.crew? 1 = some (crew 1 []) ∧ mwf 0 (s.core 0).acc = true ∧
    (∀ p ∈ (mxOp 0 (.accz 0 0 1) 0 true).subs, p.2 ∉ ((s.core 0).sub p.1).badGens) ∧ s.MemOk ∧
    (let t := desc 1 256 2 1 256 0x300
     tdFmt t ≤ 4 ∧ tdSpace t = 1 ∧ tdSgran t = 0 ∧ 0 < tdRows t ∧ tdRows t ≤ 256 ∧ tdCols t ≤ 256 ∧ tdRowBytes t ≠ 0 ∧
     (tdBase t).toNat + 0 * tdStride t + tdRowBytes t ≤ (s.scratch (crew 1 [])).2) ∧ (s.scratch (crew 1 [])).2 ≤ 2 ^ 18 := by
  intro kinds s
  refine ⟨by decide +kernel, by decide +kernel, by decide +kernel, ?_, by unfold State.MemOk; decide +kernel, by decide +kernel, by decide +kernel⟩
  intro p h
  have : ((s.core 0).sub p.1).badGens = [] := by
    simp only [mxOp, List.mem_singleton] at h
    subst h
    decide +kernel
  simp [this]
/-- A refuted, a busy operation, and one whose tile's load failed. -/
theorem test_witness_matrix_ends : (({ mxOp 7 (.accz 0 0 1) 0 true with refuted := some 2 } : MxOp).refuted.isSome = true) ∧
    ({ mxOp 7 (.accz 0 0 1) 0 true with busy := true } : MxOp).busy = true ∧
    (let k := { loadedCore with subs := [{ valid := true, fmt := 2, pat := 0, gen := 1, badGens := [1], cells := [], idx := [], scales := [] }] }
     ∃ p ∈ (mxOp 7 (.mma [] 0 0 1 0 .m4x1) 0 true).subs, p.2 ∈ (k.sub p.1).badGens) := by decide
theorem test_witness_accrd_completes : let op := { mxOp 7 (.accrd 0 127 120 false [0, 3]) 0 true with dest := none }
    let pend := (List.range 8).map (fun q => (120 + q, 7)) ++ (List.range 8).map fun q => (3 * 128 + 120 + q, 7)
    let c := { crew 1 [] with slices := [{ slice with vpend := pend }] }
    let s := withMx c [op] []
    (s.core 0).mq.find? (·.id == 7) = some op ∧ op.started = true ∧ s.crew? op.crew = some c ∧ op.dest = none ∧ [0, 3].Nodup ∧ 120 + 8 ≤ 128 ∧
    ∀ l ∈ [0, 3], ∀ q, q < 8 → mfind pend (l * 128 + (120 + q)) = some op.id := by decide +kernel
/-- Tiles of INT8 with a chunk of bytes; NaN and zeros in E4M3. -/
theorem test_witness_chunks : let b : SubArray := { valid := true, fmt := 2, pat := 0, gen := 1, badGens := [], cells := [(0, 0x80)], idx := [], scales := [] }
    (List.replicate 128 255).length = 128 ∧ b.pat = 0 ∧ (∀ x ∈ List.replicate 128 255, mBad 2 x = false) ∧
    (∀ r, r < 128 → mBad b.fmt.toNat (b.code (128 * 1 + r) 255) = false) ∧ mBad 0 0x7F = true ∧ mBad 3 8 = true ∧ mBad 0 0 = false := by
  decide +kernel
/-- COPY and COPYG: well formed, ill formed, of two shapes. -/
theorem test_witness_copies : let c := crew 1 []
    let s := withTds c [(3, desc 4 128 2 1 128 0), (4, desc 4 128 2 0 128 0), (5, desc 2 2 8 0 8 0), (6, desc 1 1 2 0 1 0)]
    s.Issues 1 0 c (.copy ⟨hx, 62, 3, 4, 3, some 62⟩) ∧ s.Issues 1 0 c (.copyg ⟨hx, 62, 3, 4, 5, 3, none⟩) ∧ c.Leads 0 always 0 ∧ c.hyp = 0 ∧
    (tdIll (s.td 1 3) = false ∧ tdIll (s.td 1 4) = false ∧ tdRows (s.td 1 3) = tdRows (s.td 1 4) ∧ tdRowBytes (s.td 1 3) = tdRowBytes (s.td 1 4)) ∧
    (tdIll (s.td 1 5) = false ∧ tdFmt (s.td 1 5) = 8 ∧ tdSpace (s.td 1 3) = 1 ∧ tdRows (s.td 1 3) = tdRows (s.td 1 5) * tdCols (s.td 1 5)) ∧
    tdIll (s.td 1 7) = true ∧ tdIll (s.td 1 6) = false ∧ tdRows (s.td 1 6) ≠ tdRows (s.td 1 3) :=
  ⟨issues_of (by decide), issues_of (by decide), crew1_leads 0 [], rfl, by decide +kernel⟩

/-- A copy of crew 1 within the scratchpad: 2,048 bytes at 0x1000 to 0. -/
def copyJob : CopyJob :=
  { id := 9, ctx := 1, crew := 1, block := 1, dest := ⟨1, [0], 4⟩, pc := 0x1000, cls := 3, dst := desc 1 2048 2 1 2048 0, src := desc 1 2048 2 1 2048 0x1000,
    idx := none, bar := none, done := [], ended := none, admitted := none, credited := 0 }

/-- A window that no copy writes into, and one that a copy writes into. -/
theorem test_witness_windows : let c := crew 1 []
    let s := { device false c with cores := [(0, { Core.fresh with copies := [{ copyJob with admitted := some 1 }] })] }
    s.Issues 1 0 c (.winarm ⟨hx, 62, 0, 128⟩) ∧ s.Issues 1 0 c (.winclr hx) ∧ (∃ l, c.Takes 0 always l) ∧
    (∃ k ∈ s.cores, ∃ j ∈ k.2.copies, j.admitted = some c.uid ∧ j.hasWork = true) ∧ (device false c).cores = [] :=
  ⟨issues_of (by decide), issues_of (by decide), ⟨0, takes_of (x := slice) rfl rfl rfl rfl⟩, ⟨_, List.mem_cons_self, _, List.mem_cons_self, rfl, by decide +kernel⟩, rfl⟩
theorem test_witness_queues : let full := List.replicate 32 copyJob
    32 ≤ (full.filter fun j => j.cls = 3).length ∧ (([] : List CopyJob).filter fun j => j.cls = 3).length < 32 := by decide
theorem test_witness_copy_chunk : let c := crew 1 []
    let s := { device false c with
      cores := [(0, { Core.fresh with copies := [copyJob] })], blocks := [{ block with scrSize := 0x2000 }] }
    s.MemOk ∧ c.core = 0 ∧ ((s.core 0).sender 0).1 = some 3 ∧ ((s.core 0).sender 0).2.oldest 3 = some copyJob ∧ s.crew? copyJob.crew = some c ∧
    tdSpace copyJob.dst = 1 ∧ tdSpace copyJob.src = 1 ∧ 0 < tdRowBytes copyJob.dst ∧ (s.scratch c).2 ≤ 2 ^ 18 ∧ copyJob.total = 2048 ∧
    (copyAt copyJob.src 2048 2047).toNat < (s.scratch c).2 ∧ (copyAt copyJob.dst 2048 2047).toNat < (copyAt copyJob.src 2048 0).toNat := by
  unfold State.MemOk
  decide +kernel
theorem test_witness_copy_bytes (o : Nat) (h : o < 2048) : (copyAt copyJob.src 2048 o).toNat = 0x1000 + o ∧ (copyAt copyJob.dst 2048 o).toNat = o := by
  have a : o / 2048 = 0 := by omega
  have b : o % 2048 = o := by omega
  have c : tdBase copyJob.src = 0x1000 := by decide
  have d : tdBase copyJob.dst = 0 := by decide
  unfold copyAt
  rw [a, b, c, d]
  constructor <;> bv_omega
theorem test_witness_copy_ends : ([copyJob].find? (·.id == 9)) = some copyJob ∧ copyJob.ended = none ∧ copyJob.done.length < copyJob.chunks ∧
    ({ copyJob with done := [0] } : CopyJob).chunks ≤ 1 ∧ ({ copyJob with ended := some (1, 5, 0) } : CopyJob).ended = some (1, 5, 0) := by decide
theorem test_witness_collectives : let c := crew 1 []
    let s := withTds c [(3, desc 4 256 6 1 1024 0), (4, desc 2 256 6 1 1024 0)]
    s.Issues 1 0 c (.coll ⟨hx, 62, 126, 127, 3, .redSw⟩) ∧ (∃ l, c.Takes 0 always l) ∧ c.hyp = 0 ∧ c.parts 0 always = [0, 1, 2, 3] ∧
    (tdIll (s.td 1 3) = false ∧ tdSpace (s.td 1 3) ≠ 2 ∧ tdFmt (s.td 1 3) = 6) ∧
    ((∀ l ∈ [0, 1, 2, 3], l < tdRows (s.td 1 3)) ∧ 4 * tdRowBytes (s.td 1 3) ≤ 2 ^ 20) ∧ tdIll (s.td 1 5) = true ∧
    (tdIll (s.td 1 4) = false ∧ ¬(3 < tdRows (s.td 1 4))) :=
  ⟨issues_of (by decide), ⟨0, takes_of (x := slice) rfl rfl rfl rfl⟩, rfl, by decide, by decide +kernel⟩
/-- CELL and TASK at the lines 0x40 and 0x20 past one, and outside the canonical addresses. -/
theorem test_witness_handed_over : let c := withS 1 [(8, 0x40), (10, 0x60), (13, 0x1000000)]
    let s := device false c
    s.Issues 1 0 c (.cell ⟨hx, 62, 8, 0, true⟩) ∧ s.Issues 1 0 c (.task ⟨hx, 62, 8, 0, 3⟩) ∧ c.Leads 0 always 0 ∧ c.hyp = 0 ∧
    canonical (c.sea 0 8 0) = true ∧ (c.sea 0 8 0).toNat % 64 = 0 ∧ (c.sea 0 10 0).toNat % 64 ≠ 0 ∧ canonical (c.sea 0 12 0) = false ∧
    s.regsPending c.uid = false :=
  ⟨issues_of (by decide), issues_of (by decide), lead_of (x := { slice with s := _ }) rfl rfl rfl rfl, by decide⟩
/-- The record at 0x40 reads, ill formed (of zeros) and well formed: a mask of one processor, one line of code. -/
theorem test_witness_cell : let c := withS 1 [(8, 0x40)]
    let s := deviceMem c [(0x50, 1), (0x54, 1)]
    let r := fun (s : State) => match s.engReadN c (.copyUnit c.core) c.uid 0 0x40 64 with
      | .ok x w => some (x, w.crew? c.uid == some c, w.ctxDies c.ctx, w.firstDie c.ctx == s.firstDie c.ctx, w.cmdq.length)
      | .bad _ _ | .wait _ => none
    r s = some (2 ^ 128 + 2 ^ 160, true, 8, true, 0) ∧ r (device false c) = some (0, true, 8, true, 0) ∧ crIll 0 8 = true ∧
    crIll (BitVec.ofNat 512 (2 ^ 128 + 2 ^ 160)) 8 = false := by decide +kernel

/-- A collective of crew 1 of one row for a node. -/
def collJob (node : BitVec 10) : CollJob :=
  { id := 9, ctx := 1, engine := 0, crew := 1, dest := ⟨1, [0], 4⟩, pc := 0x1000, block := 1, td := desc 1 64 2 1 64 0, lanes := [(0, 0x40, node)], red := false,
    sw := false, rows := [], failed := none, sent := false, delivered := 0, out := 0, pool := 0, epoch := 0 }

/-- Its row is gathered, for one node or another. -/
theorem gathers : ∀ node ∈ [5, 6], let c := crew 1 []
    let s := { device false c with colls := [collJob node] }
    (match State.gatherRows c (.coll 0) 9 (collJob node).td s (collJob node).lanes with
      | .ok rows w => decide (rows = [⟨node, 0x40, List.replicate 64 0⟩]) && decide (w = s) && !w.pathSpent 3 node 0x40
      | .bad _ _ | .wait _ => false) = true ∧ s.colls.find? (·.id == 9) = some (collJob node) ∧
    (s.colls.find? fun k => k.engine == 0 && !k.sent) = some (collJob node) ∧ s.poolFits 0 1 4096 = true := by decide +kernel
/-- It goes to another node than its own, whichever that is, and to none of this package. -/
theorem test_witness_collective_goes : ∃ node, Config.nodeId 0 ≠ node ∧ (node = 5 ∨ node = 6) ∧
    (device false (crew 1 [])).peerOf node = none ∧ (ctx false).pdev = 0 := by
  have key : ∀ node, Config.nodeId 0 ≠ node → (device false (crew 1 [])).peerOf node = none := fun node h => by
    show List.find? _ _ = none
    simp only [device, List.find?_cons, List.find?_nil]
    split
    · rename_i e
      exact absurd (beq_iff_eq.mp e) h
    · rfl
  by_cases h : Config.nodeId 0 = 5
  · exact ⟨6, by rw [h]; decide, .inr rfl, key 6 (by rw [h]; decide), by decide +kernel⟩
  · exact ⟨5, h, .inl rfl, key 5 h, by decide +kernel⟩
theorem test_witness_pool_is_full : ({ device false (crew 1 []) with colls := [{ collJob 5 with pool := 28 * 2 ^ 20 }] } : State).poolFits 0 1 4096 = false := by
  decide +kernel
/-- A packet with its path's key is taken, one that does not authenticate is not; a node without an entry, and a context that is gone. -/
theorem test_witness_packets : let s := device false (crew 1 [])
    let p : Packet := { vc := 3, port := 0, replayed := false, ctr := 1, authentic := false }
    s.packetIn 5 p = (true, s) ∧ (({ s with pathKeys := [(5, { enc := true, key := 0, sentCtr := [], recvCtr := [] })] } : State).packetIn 5 p).1 = false ∧
    s.ctx? 2 = none ∧ (match s.aclOk (ctx false) 5 0x40 64 false true with
      | .refused k t => decide (k = 5) && decide (t = s)
      | .open _ | .wait _ => false) = true := by decide +kernel
/-- Node 5 may write, and its row is delivered. -/
theorem test_witness_delivered : let x := { ctx false with cb := BitVec.ofNat 512 (0x100 * 2 ^ 128 + 2 ^ 304) }
    let s := { device false (crew 1 []) with
      ctxs := [x], mem := [(0x100, 5), (0x104, 0x20), (0x107, 0x80)] }
    (match s.aclOk x 5 0x80 64 false true with
      | .open u => (match u.deliver (collIn 0x80) x false 0x80 (List.replicate 64 7) with
        | .ok _ => true
        | .bad _ _ _ | .wait _ => false)
      | .refused _ _ | .wait _ => false) = true := by decide +kernel
/-- Acknowledged, faulted here, faulted there. -/
theorem test_witness_collective_done : [collJob 5].find? (·.id == 9) = some (collJob 5) ∧ (collJob 5).sent = false ∧
    ({ collJob 5 with sent := true, failed := some 5 } : CollJob).failed = some 5 ∧ (collJob 5).failed = none ∧
    ({ count := 0, fault := true, cause := 5, swRefused := false } : CollAck).fault = true := by decide

/-! ## The cellar tier -/

/-- Processor 0 of stack 0 with scalars c, vectors w and local store loc. -/
def proc (c : SMap (BitVec 64)) (w : SMap (BitVec 512)) (loc : SMap Byte) : Proc :=
  { stack := 0, proc := 0, cmd := 4, c := c, w := w, pc := 0x100, loc := loc, signalled := false, transfers := [], atoms := 0 }

/-- Its command: processor 0, its range the first MiB. -/
def cmd : Cmd :=
  { id := 4, ctx := 1, stack := 0, code := 0x400, arg := 7, mask := 1, clen := 1, coh := false, ranges := [0x800], climit := 0,
    route := .cell ⟨1, [0], 62⟩ 1, pc := 0x1000, sum := 5, start := some 0, halted := 0, held := [], epoch := 1 }

/-- The device as the processor steps. -/
def cellar (p : Proc) : State := { device false (crew 1 []) with cur := .cellar 0 0, procs := [p], cmds := [cmd] }

/-- The processor after instruction i. -/
def procAfter (i : Instr) (p : Proc) : Option Proc :=
  match exec i (cellar p) with
  | .next t => t.proc? 0 0
  | .fault _ | .refused _ => none

theorem test_cadd_wraps : (procAfter (.cadd ⟨3, 1, .imm 2⟩) (proc [(1, 0xFFFFFFFFFFFFFFFF)] [] [])).map (·.get 3) = some 1 := by decide +kernel
theorem test_csub_of_a_negative_immediate : (procAfter (.csub ⟨3, 1, .imm 0x1FFF⟩) (proc [(1, 4)] [] [])).map (·.get 3) = some 5 := by decide +kernel
theorem test_cand_takes_the_other_register : (procAfter (.cand ⟨3, 1, .reg 2⟩) (proc [(1, 0xF0F), (2, 0x0FF)] [] [])).map (·.get 3) = some 0x00F := by
  decide +kernel
theorem test_cshl_by_a_negative_count_shifts_right : (procAfter (.cshl 3 1 0x7C) (proc [(1, 0x8000000000000000)] [] [])).map (·.get 3) =
    some 0x0800000000000000 := by decide +kernel
theorem test_cli_extends_its_sign : (procAfter (.cli 3 (-1)) (proc [] [] [])).map (·.get 3) = some 0xFFFFFFFFFFFFFFFF := by decide +kernel
theorem test_cbr_lt_is_signed : (procAfter (.cbr .lt 1 2 4) (proc [(1, 0xFFFFFFFFFFFFFFFF)] [] [])).map (·.pc) = some 0x110 := by decide +kernel
theorem test_cbr_ltu_is_not : (procAfter (.cbr .ltu 1 2 4) (proc [(1, 0xFFFFFFFFFFFFFFFF)] [] [])).map (·.pc) = some 0x104 := by decide +kernel
theorem test_cjmp_goes_back : (procAfter (.cjmp (-2)) (proc [] [] [])).map (·.pc) = some 0x0F8 := by decide +kernel
theorem test_cloop_of_zero_wraps_and_jumps : (procAfter (.cloop 1 2) (proc [] [] [])).map (fun p => (p.pc, p.get 1)) =
    some (0x108, 0xFFFFFFFFFFFFFFFF) := by decide +kernel
theorem test_cld_extends_a_half : (procAfter (.cld ⟨3, 1, .h true, true, 2⟩) (proc [(1, 0x40)] [] [(0x42, 0x34), (0x43, 0x92)])).map (·.get 3) =
    some 0xFFFFFFFFFFFF9234 := by decide +kernel
theorem test_cst_is_little_endian : (procAfter (.cst ⟨3, 1, .w, true, 0⟩) (proc [(1, 0x40), (3, 0xAABBCCDD)] [] [])).map (fun p => p.loc) =
    some [(0x40, 0xDD), (0x41, 0xCC), (0x42, 0xBB), (0x43, 0xAA)] := by decide +kernel
theorem test_vld_fills_a_register : (procAfter (.vld ⟨2, 1, true, 0⟩) (proc [(1, 0x40)] [] [(0x40, 1), (0x7F, 0x80)])).map (·.vget 2) =
    some (1 <<< 511 ||| 1) := by decide +kernel
theorem test_vst_stores_its_last_byte : (procAfter (.vst ⟨2, 1, true, 0⟩) (proc [(1, 0x40)] [(2, 7 <<< 504)] [])).map (·.loc) = some [(0x7F, 7)] := by
  decide +kernel
theorem test_vaddf_by_element : (procAfter (.vaddf ⟨0, 1, 2⟩) (proc [] [(1, 0x3F8000003F800000), (2, 0x4000000000000000)] [])).map (·.vget 0) =
    some 0x404000003F800000 := by decide +kernel
theorem test_vaddb_by_element : (procAfter (.vaddb ⟨0, 1, 2⟩) (proc [] [(1, 0x3F800000), (2, 0x40000000)] [])).map (·.vget 0) = some 0x40400000 := by
  decide +kernel
theorem test_vmulf : (procAfter (.vmulf ⟨0, 1, 2⟩) (proc [] [(1, 0x40000000), (2, 0x40400000)] [])).map (·.vget 0) = some 0x40C00000 := by decide +kernel
theorem test_vfmaf_adds_its_destination : (procAfter (.vfmaf ⟨0, 1, 2⟩) (proc [] [(0, 0x3F800000), (1, 0x40000000), (2, 0x40400000)] [])).map
    (·.vget 0) = some 0x40E00000 := by decide +kernel
theorem test_vmaxf_takes_the_number : (procAfter (.vmaxf ⟨0, 1, 2⟩) (proc [] [(1, 0x7FC00000), (2, 0xBF800000)] [])).map
    (fun p => (p.vget 0).extractLsb' 0 32) = some 0xBF800000 := by decide +kernel
theorem test_vscal : (procAfter (.vscal ⟨0, 1, 3⟩) (proc [(3, 0x4000000040000000)] [(1, 0x40400000)] [])).map (·.vget 0) = some 0x40C00000 := by
  decide +kernel
theorem test_vred_iadd_wraps : (procAfter (.vred ⟨3, 1, .iadd⟩) (proc [] [(1, 0x2FFFFFFFF)] [])).map (·.get 3) = some 1 := by decide +kernel
theorem test_vcvtb_joins_two_registers : (procAfter (.vcvtb ⟨0, 1, .b 2⟩) (proc [] [(1, 0x3F800000), (2, 0x40000000)] [])).map (·.vget 0) =
    some (0x4000 <<< 256 ||| 0x3F80) := by decide +kernel
theorem test_csig_adds : (match exec (.csig 3) (cellar (proc [(3, 2)] [] [])) with
    | .next t => (t.cmd? 4).map (·.sum)
    | .fault _ | .refused _ => none) = some 7 := by decide +kernel
theorem test_catom_is_queued : (match exec (.catom ⟨3, 1, 2, .add, 0⟩) (cellar (proc [(1, 0x80), (2, 9)] [] [])) with
    | .next t => (t.atomq.map fun r => (r.loc, r.b), (t.proc? 0 0).map (·.atoms))
    | .fault _ | .refused _ => ([], none)) = ([(0x80, 9)], some 1) := by decide +kernel
theorem test_cldx_out_takes_its_bytes : (procAfter (.cldx ⟨1, 2, 3, true⟩) (proc [(1, 0x40), (2, 0x80), (3, 64)] [] [(0x41, 6)])).map
    (fun p => p.transfers.map fun t => (t.loc, t.va, t.blocks.map fun b => b.data.take 2)) = some [(0x40, 0x80, [[0, 6]])] := by decide +kernel
theorem test_chalt_ends_the_command : (match exec .chalt { cellar (proc [] [] []) with
      crews := [{ crew 1 [] with slices := [{ slice with spend := [(62, 4), (63, 4)] }] }] } with
    | .next t => (t.procs, t.cmds.length, (t.crew? 1).map fun c => (c.sget 0 62, c.sget 0 63))
    | .fault _ | .refused _ => ([], 1, none)) = ([], 0, some (5, 0)) := by decide +kernel

/-- A computed answer. -/
def isOk {ε α : Type} [DecidableEq α] (x : Except ε α) (r : α) : Bool :=
  match x with
  | .ok y => decide (y = r)
  | .error _ => false

theorem ok_of {ε α : Type} [DecidableEq α] {x : Except ε α} {r : α} (h : isOk x r = true) : x = .ok r := by
  cases x with
  | ok y => rw [of_decide_eq_true h]
  | error e => exact nomatch h

/-- A DRAM address of a processor, computed. -/
def isDram (x : CellarTo) (loc key pa : Nat) : Bool :=
  match x with
  | .ok a b c => a == loc && b == key && c == pa
  | .hold _ _ _ | .bad _ _ _ | .collapse _ | .wait => false

theorem isDram_of {x : CellarTo} {loc key pa : Nat} (h : isDram x loc key pa = true) : x = .ok loc key pa := by
  cases x <;> simp_all [isDram]

/-- The instructions' hypothesis, at the first, an inner and the last word of local store. -/
theorem test_witness_cellar_runs : ∀ pc ∈ [(0 : BitVec 18), 0x100, 0x3FFFC], let p := { proc [(15, 1)] [(7, 1)] [] with pc := pc }
    (cellar p).Runs 0 0 p cmd := by
  intro pc _
  exact ⟨rfl, rfl, rfl⟩
/-- Branches that stay, that leave at the bottom and at the top. -/
theorem test_witness_cellar_branches : let p := proc [(1, 1)] [] []
    (0 ≤ (p.pc.toNat : Int) + 4 * (-64) ∧ (p.pc.toNat : Int) + 4 * (-65) < 0) ∧ (p.pc.toNat : Int) + 4 * 0xFFBF < 0x40000 ∧
    0x40000 ≤ (p.pc.toNat : Int) + 4 * 0xFFC0 ∧ p.get 1 = 1 ∧ p.get 2 ≠ 1 := by decide
/-- The last bytes of the range, and bytes past it. -/
theorem test_witness_declares : cmd.Declares 0xFC0 64 ∧ cmd.Declares 0xFFFC0 64 ∧ cmd.Declares 0x80 64 ∧ ¬cmd.Declares 0xFFFC1 64 ∧
    ¬cmd.Declares 0xFFFC0 128 := by simp [Cmd.Declares, cmd]
/-- An access that passes every check, and where one fails: misaligned bytes, a poisoned line, the end of local store. -/
theorem test_witness_cellar_reach (w : Bool) : let p := proc [] [] []
    State.CellarReach (cellar p) p cmd 0xFC0 64 w 0xFC0 0 := by
  intro p
  exact ⟨test_witness_declares.1, by decide, ⟨_, 0xFC0, rfl, isDram_of (by cases w <;> decide +kernel)⟩, fun _ => by decide +kernel,
    (fun t h => nomatch h), by decide⟩
theorem test_witness_cellar_stops : 0xFC1 % 64 ≠ 0 ∧ ({ cellar (proc [] [] []) with poison := [31] } : State).storeBad (0xFC0 / 128) = true ∧
    (0x3FFC0 + 64 ≤ 0x40000 ∧ 0x40000 < 0x3FFC1 + 64) := by decide
/-- CLDX beyond local store and misaligned; a full list of transfers and an empty one. -/
theorem test_witness_cldx : 0x3FFC0 + 64 ≤ 0x40000 ∧ 0x40000 < 0x3FFC0 + 128 ∧ 0x81 % 64 ≠ 0 ∧
    (List.replicate 8 ({ loc := 0, va := 0, out := true, blocks := [], epoch := 0 } : Transfer)).length = 8 ∧
    (proc [] [] []).transfers.length < 8 := by decide
theorem test_witness_span : let p := proc [] [] []
    (cellar p).SpanOk p { ctx false with regions := [(0, region 0x600000 1), (1, region 0x700000 2)] } 0x80 0 64 false
      [{ pa := 0x80, key := 0, moved := false, data := [], put := 0 }] := by
  intro p
  refine ⟨rfl, fun i b h => ?_⟩
  obtain ⟨rfl, rfl⟩ : i = 0 ∧ b = { pa := 0x80, key := 0, moved := false, data := [], put := 0 } := by
    cases i with
    | zero => exact ⟨rfl, (Option.some.inj h).symm⟩
    | succ n => cases h
  exact ⟨⟨0x80, isDram_of (by decide +kernel)⟩, rfl, rfl, rfl⟩
/-- A block of an outbound transfer to the same line, moved, and one still to move. -/
def outBlock (moved : Bool) : CldxBlock := { pa := 0x80, key := 0, moved := moved, data := List.replicate 64 3, put := 0 }
/-- What overlaps and what does not, and the span's first block failing its check. -/
theorem test_witness_overlap : let s := cellar (proc [] [] [])
    s.blockLoc (outBlock false) = 0x80 ∧ (0x80 + 64 ≤ s.blockLoc { outBlock false with pa := 0xC0 }) ∧
    ¬(0x80 + 64 ≤ s.blockLoc (outBlock false) ∨ s.blockLoc (outBlock false) + 64 ≤ 0x80) ∧
    (match s.ctx? 1 with
      | some x => (match s.cellarTo (.cellar 0 0) x 0x800000 true with
        | .bad c d _ => c == 5 || d != 0
        | .ok _ _ _ | .hold _ _ _ | .collapse _ | .wait => false)
      | none => false) = true := by decide +kernel
theorem test_witness_drained : let p := proc [] [] []
    (p.transfers = [] ∧ p.atoms = 0) ∧ ¬({ p with atoms := 1 } : Proc).atoms = 0 ∧ p.signalled = false ∧ p.proc < 32 ∧
    cmd.halted ||| 1 = cmd.mask ∧ cmd.halted ≠ cmd.mask := by decide

/-- A command in the queue, whose processor is free; its code is the line at 0x400. -/
theorem test_witness_command_start : let k := { cmd with start := none }
    let s := { device false (crew 1 []) with cmdq := [k] }
    s.cmdq.find? (fun j => j.stack == 0) = some k ∧ (∀ q ∈ s.procs, q.stack = 0 → k.mask.getLsbD q.proc = false) ∧ k.coh = false ∧ k.clen = 1 ∧
    (s.ctx? 1).isSome = true ∧ s.storeBad (0x400 / 128) = false ∧ (s.recallLines (s.linesIn [])).1 = none ∧
    (∃ q ∈ (cellar (proc [] [] [])).procs, q.stack = 0 ∧ k.mask.getLsbD q.proc = true) := by decide +kernel
theorem test_witness_command_code : let s := device false (crew 1 [])
    ∃ x q, s.ctx? 1 = some x ∧ s.cellarTo (.cellar 0 0) x 0x400 false = .ok 0x400 0 q :=
  ⟨_, 0x400, rfl, isDram_of (by decide +kernel)⟩
/-- A coherent command of one granule. -/
theorem test_witness_coherent_start : let s := device false (crew 1 [])
    (match s.ctx? 1 with
      | some x => (match s.rangeGranules (.cellar 0 0) x [0x0] with
        | .ok gs => (s.recallLines (s.linesIn gs)).1.isNone
        | .bad _ _ _ _ | .wait _ => false)
      | none => false) = true := by decide +kernel
theorem test_witness_transfers : ∀ out ∈ [false, true], let t : Transfer := { loc := 0x40, va := 0x80, out := out, blocks := [outBlock false, outBlock true], epoch := 1 }
    let p := { proc [] [] [] with transfers := [t] }
    (cellar p).proc? 0 0 = some p ∧ p.transfers[0]? = some t ∧ (cellar p).transferHeld p t = false ∧
    (∀ b ∈ t.blocks, (cellar p).storeBad ((cellar p).blockLoc b / 128) = false) ∧ (∀ b ∈ t.blocks, b.moved = true → b.data.length = 64) ∧
    ({ cellar p with cmds := [{ cmd with held := [0] }, { cmd with id := 5, held := [0] }] } : State).transferHeld p t = true := by
  decide +kernel
/-- Operations of the atomic unit, of a processor and of a crew. -/
theorem test_witness_atomic_unit : let r : AtomReq := { loc := 0x80, key := 0, ctx := 1, run := 0, op := .add, b := 5, src := .proc 0 0 3, epoch := 1 }
    let p := { proc [] [] [] with atoms := 1 }
    let s := { cellar p with atomq := [r, { r with src := .crew 1 0 }] }
    s.atomq[0]? = some r ∧ s.homeHolds r.src.agent (s.forward 0x80) = false ∧ s.forward 0x80 % 4 = 0 ∧ s.proc? 0 0 = some p ∧
    (∀ q ∈ s.atomq, q.arrived = false) ∧ s.storeBad 1 = false ∧ (s.recallLine (s.forward 0x80 / 128) (s.rto 1)).1 = true ∧
    s.homeHolds (AtomFrom.crew 1 0).agent (s.forward 0x80) = false ∧
    ({ s with cmds := [{ cmd with held := [0] }] } : State).homeHolds (AtomFrom.crew 1 0).agent 0x80 = true ∧
    (s.recallLine (s.forward 0x80 / 128) (s.rto 1)).2.forward r.loc = s.forward 0x80 := by decide +kernel
theorem test_witness_limit : let s := { device false (crew 1 []) with cmds := [{ cmd with climit := 5 }], reftime := 5 }
    s.cmd? 4 = some { cmd with climit := 5 } ∧ cmd.start = some 0 ∧ 0 + (5 : BitVec 64).toNat ≤ s.reftime ∧ cmd.climit = 0 := by decide

/-! ## Privileged instructions and traps -/

/-- Crew 1 with the scalar pair 10 equal to x, and a handler at 0x2000. -/
def pairCrew (x : BitVec 64) : Crew := { withS 1 [(10, x.extractLsb' 0 32), (11, x.extractLsb' 32 32)] with tvec := 0x800 }

/-- Headers of the privileged instructions. -/
def hc : CHdr := ⟨false, always⟩

/-- The state after an instruction, looked at. -/
def see {α : Type} (i : Instr) (s : State) (f : State → α) : Option α :=
  match exec i s with
  | .next t => some (f t)
  | .fault _ | .refused _ => none

theorem test_csrw_tvec_drops_its_low_bits : see (.csrw ⟨hc, 10, 0x200⟩) (device true (pairCrew 0x1234567)) (fun t => (t.crew? 1).map (·.tvec)) =
    some (some 0x48D159) := by decide +kernel
theorem test_csrr_reads_tvec : (after (.csrr ⟨hc, 20, 0x200⟩) (device true (pairCrew 0))).map (·.sget64 0 20) = some 0x2000 := by decide +kernel
theorem test_csrr_of_user_traps_priv : (after (.csrr ⟨hc, 20, 0x200⟩) (device false (pairCrew 0))).map (fun c => (c.trap.cause, c.slices.map (·.pc))) =
    some (2, [0x2000]) := by decide +kernel
theorem test_csrw_of_read_only_traps_illegal : (after (.csrw ⟨hc, 10, 0x202⟩) (device true (pairCrew 0))).map (·.trap.cause) = some 1 := by
  decide +kernel
theorem test_trapmsk_is_allowed_in_trap_mode : (after (.trapmsk ⟨hc, false⟩) (device false { pairCrew 0 with tm := true, mask := true })).map
    (·.mask) = some false := by decide +kernel
theorem test_trapmsk_stops_a_held_crew : (after (.trapmsk ⟨hc, false⟩) (device true { pairCrew 0 with held := true, mask := true })).map
    (fun c => (c.preempted, c.held)) = some (true, false) := by decide +kernel
theorem test_tlbinv_drops_its_page : see (.tlbinv ⟨hc, 10, 4⟩) (device true { withS 1 [(10, 0x100000), (4, 1)] with tvec := 0 })
    (fun t => (t.tlb.any fun e => e.va == 0x100000, t.tlb.length)) = some (false, 13) := by decide +kernel
theorem test_qstat_adv_advances : see (.qstatAdv ⟨hc, 20⟩) (device true (pairCrew 0)) (fun t =>
    ((t.crew? 1).map (·.sget64 0 20), t.pdevs.map (·.epoch))) = some (some 2, [2]) := by decide +kernel
theorem test_qstat_reads_the_epoch : (after (.qstat ⟨hc, 20⟩) (device true (pairCrew 0))).map (·.sget64 0 20) = some 1 := by decide +kernel
theorem test_halt_kills_the_context : see (.halt ⟨hc, 5⟩) (device true (pairCrew 0)) (fun t => (t.crews.length, (t.ctx? 1).map (·.dead))) =
    some (0, some true) := by decide +kernel
theorem test_trap_saves_epc : (after (.trap ⟨hc, 5⟩) (device false (pairCrew 0))).map (fun c => (c.trap.epc, c.tm, c.mask)) =
    some (0x1000, true, true) := by decide +kernel

/-- A frame of one slice that trapped at 0x1004 with lanes 0 and 1. -/
def trapped (late held : Bool) : Crew :=
  { crew 1 [] with
    tm := true, mask := true, held := held, tvec := 0x800, trap := { noTrap with cause := 3, late := late, epc := 0x1004 },
    frame := some { gang := 0, len := 4, slices := [{ pc := 0x1004, active := 3, stack := [], gang := 0, wait := .none, region := ⟨0xF00, 7, [], 2⟩ }] } }

theorem test_trapret_retry : (after (.trapret ⟨hc, .retry⟩) (device false (trapped false false))).map (fun c =>
    (c.slices.map fun x => (x.pc, x.active), c.tm, c.mask)) = some ([(0x1004, 3)], false, false) := by decide +kernel
theorem test_trapret_next_of_a_late_trap_goes_to_its_region : (after (.trapret ⟨hc, .next⟩) (device false (trapped true false))).map (fun c =>
    c.slices.map fun x => (x.pc, x.active)) = some [(0xF00, 7)] := by decide +kernel
theorem test_trapret_next_passes_the_instruction : (after (.trapret ⟨hc, .next⟩) (device false (trapped false false))).map (fun c =>
    c.slices.map fun x => x.pc) = some [0x1008] := by decide +kernel

/-- Context 1 as the device holds it. -/
def userCtx (priv : Bool) : Ctx := { ctx priv with regions := [(0, region 0x600000 1), (1, region 0x700000 2)] }

theorem device_ctx (priv : Bool) (c : Crew) : (device priv c).ctx? 1 = some (userCtx priv) := rfl

theorem user_is_not_priv (c : Crew) : ¬∃ x, (device false c).ctx? 1 = some x ∧ x.priv = true := by
  rintro ⟨x, h, k⟩
  rw [device_ctx, Option.some.injEq] at h
  subst h
  exact absurd k (by decide +kernel)

theorem device_priv (c : Crew) : ∃ x, (device true c).ctx? 1 = some x ∧ x.priv = true := ⟨_, device_ctx true c, by decide +kernel⟩

/-- The register instructions' hypotheses: privileged, in trap mode, and not. -/
theorem test_witness_csr : let c := pairCrew 5
    let s := device true c
    s.Issues 1 0 c (.csrr ⟨hc, 62, 0x3FFF⟩) ∧ s.Issues 1 0 c (.csrw ⟨hc, 10, 0x206⟩) ∧ (s.pdevOf c.ctx).isSome = true ∧
    s.CsrAllowed c 0x404 ∧ ¬(device false c).CsrAllowed c 0x200 ∧
    (device false { c with tm := true }).CsrAllowed { c with tm := true } 0x20F ∧
    ¬(device false { c with tm := true }).CsrAllowed { c with tm := true } 0x210 :=
  ⟨issues_of (by decide), issues_of (by decide), by decide +kernel, .inl (device_priv _),
    fun h => h.elim (user_is_not_priv _) (fun h => nomatch h.1), .inr (by decide),
    fun h => h.elim (user_is_not_priv _) fun h => absurd h.2.2 (by decide)⟩
theorem lead_slice_of {c : Crew} {g : Nat} (h : c.Leads g always 0) : c.LeadSlice g always 0 := ⟨⟨0, h.1, rfl⟩, fun _ _ => Nat.zero_le _⟩
/-- Every number of the table has fields within their widths; others have none. -/
theorem test_witness_csr_fields : let c := pairCrew 5
    let s := device true c
    (match s.ctx? 1, s.pdevOf 1 with
      | some x, some p => ([0x001, 0x010, 0x017, 0x020, 0x021, 0x022, 0x100, 0x101, 0x102, 0x103, 0x200, 0x201, 0x202, 0x203, 0x205, 0x206, 0x210,
          0x211, 0x212, 0x213, 0x214, 0x300, 0x30F, 0x311, 0x312, 0x320, 0x32B, 0x400, 0x401, 0x402, 0x403, 0x404] : List Nat).all (fun n =>
          match csrRule s c x p n with
          | some fs => fs.all fun f => f.2.2 < 2 ^ f.2.1
          | none => false) &&
        ([0x002, 0x00F, 0x018, 0x030, 0x104, 0x204, 0x207, 0x215, 0x313, 0x32C, 0x405] : List Nat).all fun n => (csrRule s c x p n).isNone
      | _, _ => false) = true := by decide +kernel
theorem test_witness_csrw : (crew 1 []).LeadSlice 0 always 0 ∧ csrWritable 0x404 ∧ csrWritable 0x32B ∧ ¬csrWritable 0x405 ∧ ¬csrWritable 0x202 ∧
    (BitVec.getLsbD (0x41 : BitVec 64) 6 = true) ∧ (device true (crew 1 [])).ports[11]? = some Port.reset := by
  refine ⟨lead_slice_of (crew1_leads 0 []), ?_⟩
  unfold csrWritable
  exact ⟨by decide, by decide, by decide, by decide, by decide, by decide⟩
theorem test_witness_tlbinv : let c := withS 1 [(10, 0x1001), (12, 0x1000), (4, 1)]
    let s := device true c
    s.Issues 1 0 c (.tlbinv ⟨hc, 12, 4⟩) ∧ s.Issues 1 0 c (.tlbinv ⟨hc, 10, 4⟩) ∧ (∃ x, s.ctx? c.ctx = some x ∧ x.priv = true) ∧
    c.LeadSlice 0 always 0 ∧ (c.sget64 0 10).toNat % 4096 ≠ 0 ∧ (c.sget64 0 12).toNat % 4096 = 0 ∧ c.sget 0 4 ≠ 0 ∧ s.regs = [] :=
  ⟨issues_of (by decide), issues_of (by decide), device_priv _, lead_slice_of (lead_of (x := { slice with s := _ }) rfl rfl rfl rfl), by decide⟩
theorem test_witness_qstat_and_halt : let c := crew 1 []
    let s := device true c
    s.Issues 1 0 c (.qstat ⟨hc, 62⟩) ∧ s.Issues 1 0 c (.qstatAdv ⟨hc, 62⟩) ∧ s.Issues 1 0 c (.halt ⟨hc, 0x3FFF⟩) ∧ s.TrapAllowed c ∧
    (s.pdevOf c.ctx).isSome = true ∧ (∃ l, c.Takes 0 always l) ∧ ∀ l, ¬c.Takes 0 never l :=
  ⟨issues_of (by decide), issues_of (by decide), issues_of (by decide), .inl (device_priv _), by decide +kernel, ⟨0, takes_of (x := slice) rfl rfl rfl rfl⟩,
    never_takes _ _⟩
/-- Traps: to a handler, to the driver with a journal and without, in trap mode, to a handler outside the addresses, and of ECC. -/
theorem test_witness_traps : let c := pairCrew 0
    let s := device false c
    s.crew? 1 = some c ∧ noTrap.cause ≠ 0x0D ∧ c.late = none ∧ c.tm = false ∧ c.tvec ≠ 0 ∧ canonical (c.tvec ++ (0 : BitVec 2)) = true ∧
    canonical (((0x3000000000000000 : BitVec 62)) ++ (0 : BitVec 2)) = false ∧ (crew 1 []).tvec = 0 ∧ (s.pdevOf 1).any (fun p => !p.fqEn) = true ∧
    ({ noTrap with cause := 0x04 } : TrapInfo).cause = 0x04 ∧ 0 ∉ s.ras.failed :=
  ⟨rfl, by decide, rfl, rfl, by decide, by decide +kernel, by decide +kernel, rfl, by decide +kernel, rfl, by decide⟩
theorem test_witness_trapret : let c := trapped false false
    let s := device false c
    s.Issues 1 0 c (.trapret ⟨hc, .retry⟩) ∧ s.TrapAllowed c ∧ (∃ l, c.Takes 0 always l) ∧ (∃ f, c.frame = some f ∧ f.slices.length = c.slices.length) ∧
    (trapped true true).trap.late = true ∧ (trapped true true).held = true ∧ ¬(device false (crew 1 [])).TrapAllowed (crew 1 []) :=
  ⟨issues_of (by decide), .inr rfl, ⟨0, takes_of (x := slice) rfl rfl rfl rfl⟩, ⟨_, rfl, rfl⟩, rfl, rfl,
    fun h => h.elim (user_is_not_priv _) fun h => nomatch h⟩
theorem test_witness_trapmsk : let c := { trapped false true with trap := noTrap }
    (device false c).Issues 1 0 c (.trapmsk ⟨hc, false⟩) ∧ (device false c).TrapAllowed c ∧ (∃ l, c.Takes 0 always l) ∧ c.held = true :=
  ⟨issues_of (by decide), .inr rfl, ⟨0, takes_of (x := slice) rfl rfl rfl rfl⟩, rfl⟩

/-! ## Records, contexts and the host -/

/-- A read of an agent, its value looked at. -/
def agd {α : Type} (r : Agd) (f : Nat → State → α) : Option α :=
  match r with
  | .ok v t => some (f v t)
  | .bad _ _ _ _ | .wait _ => none

/-- What holds of a step's state, or of the state in which it waits. -/
def ifOk {ε α β : Type} (r : Except ε α) (f : α → β) : Option β :=
  match r with
  | .ok x => some (f x)
  | .error _ => none

/-- Bytes at an address, lowest first, without zeros. -/
def cellsAt (a : Nat) (bs : List Byte) : List Host.Cell := (bs.mapIdx fun i b => (a + i, b)).filter fun c => c.2 != 0

/-- A record of a grid of one block in the line at 0x200. -/
def oneBlock : BitVec 512 := 1 <<< 256

/-- A run of a record at 0x200, READY since 0. -/
def runOf (rcd : BitVec 512) : Run :=
  { uid := 1, ctx := 1, va := 0x200, rcd := rcd, prio := 1, readyAt := some 0, readyDraw := 0, gridid := 1, nextBlk := 0, running := false, submitted := false,
    workDone := false, work := none, acoll := none, collDone := false }

/-- The device with memory, runs and nothing on its cores. -/
def trellis (m : List Host.Cell) (rs : List Run) : State :=
  { device false (crew 1 []) with cur := .none, crews := [], blocks := [], mem := m, runs := rs }

theorem test_launch_of_join_zero_is_ready : (match State.launch (trellis [(0x220, 1)] []) 1 0x200 2 with
    | .done c _ t => (c, t.runs.map fun r => (r.readyAt, r.prio), mget 0 t.mem 0x21C)
    | .wait _ => (15, [], 0)) = (0, [(some 0, 2)], 0) := by decide +kernel
theorem test_launch_of_a_running_record_is_busy : (match State.launch (trellis [(0x21C, 3), (0x220, 1)] []) 1 0x200 2 with
    | .done c _ _ => c
    | .wait _ => 15) = 5 := by decide +kernel
theorem test_admission_starts_lanes_at_the_code : see (.blockAdmission ⟨1, [⟨0, 0, [(0, 0, 0)]⟩]⟩) (trellis [] [runOf (oneBlock ||| 0x4000)])
    (fun t => (t.crews.map fun c => (c.vregs, c.slices.map fun x => (x.pc, x.active)), t.runs.map (·.nextBlk))) =
    some ([(8, [(0x4000, 15)])], [1]) := by decide +kernel
theorem test_late_trap_goes_to_the_handler : see (.lateTrap ⟨1⟩) (device false { pairCrew 0 with stopped := true, late := some { noTrap with cause := 0x05, late := true } })
    (fun t => (t.crew? 1).map fun c => (c.trap.cause, c.late.isNone, c.slices.map (·.pc))) = some (some (5, true, [0x2000])) := by decide +kernel

theorem dram_of {x : AgT} {l k q : Nat} (h : (match x with
    | .dram a b c => a == l && b == k && c == q
    | .hold _ _ _ | .host _ _ | .rmt _ _ | .chip _ _ _ | .bad _ _ _ | .collapse _ | .wait => false) = true) : x = .dram l k q := by
  cases x with
  | dram a b c =>
    simp only [Bool.and_eq_true, beq_iff_eq] at h
    rw [h.1.1, h.1.2, h.2]
  | _ => exact nomatch h

/-- Agents' accesses: the trellis reads and writes the line at 0x200. -/
theorem test_witness_agents (w : Bool) : (trellis [] []).AgentReach .trellis (userCtx false) 0x200 64 w 0x200 0 :=
  ⟨⟨0, dram_of (by cases w <;> decide +kernel), fun _ h => absurd h (by decide)⟩, fun _ => by decide, by decide, by decide⟩
theorem test_witness_crew_events : let info := { noTrap with cause := 0x05, late := true }
    let c := { crew 2 [] with stopped := true, late := some info }
    let o := { crew 2 [] with orphan := some 3, hxh := 0x3000 }
    let w := { crew 1 [] with slices := [{ slice with wait := .sleep 9 }] }
    let e := { crew 1 [] with slots := { bound := true, kind := 4, obj := 9, parity := false, handler := 0 } :: (crew 1 []).slots.tail }
    (device false c).crew? 1 = some c ∧ c.late = some info ∧ (device false o).crew? 1 = some o ∧ o.orphan = some 3 ∧ o.faulted = none ∧
    o.preempted = false ∧ o.saved = false ∧ o.hxh ≠ 0 ∧ (device false w).crew? 1 = some w ∧ (∀ y ∈ w.slices, y.wait = .sleep 9) ∧
    (device false e).crew? 1 = some e ∧ (e.slots[0]?.map fun v => (v.bound, v.kind)) = some (true, 4) := by decide +kernel
/-- A registration whose line is held in U under its operator, and one whose line is not. -/
theorem test_witness_registrations :
    let r : Reg := { line := 4, op := .uadd32, core := 1, crew := 1, gang := 0, more := [], run := 1, ctx := 1, key := 0, epoch := 1, node := none, out := false }
    let u : ULine := { line := 4, op := .uadd32, home := 0, dirty := false, key := 0, l1s := [0], nodes := [], groups := [], back := [] }
    let s := { device false (crew 1 []) with regs := [r] }
    s.regs[0]? = some r ∧ s.homeHolds .trellis (4 * 128) = false ∧ s.uline? 4 = none ∧
    ({ s with ulines := [u] } : State).uline? 4 = some u ∧ s.MemOk := by
  unfold State.MemOk
  decide +kernel
theorem test_witness_scrub : let x := { ctx false with hyps := [(255, { st := .discarding, parent := 0, depth := 1 })] }
    let s := { device false { crew 1 [] with hyp := 255, slices := [{ slice with exited := 15, active := 0 }] } with ctxs := [x] }
    s.ctx? 1 = some x ∧ (x.hypOf 255).st = .discarding ∧ ∀ c ∈ s.crews, c.ctx = 1 → c.hyp = 255 → c.exited = true := by decide +kernel
/-- Launches: of no context, a dead one, a bad address, a busy record, an ill-formed one and good ones, READY or WAITING. -/
theorem test_witness_launches : let s := trellis [(0x220, 1)] []
    s.ctx? 2 = none ∧ s.ctx? 1 = some (userCtx false) ∧ canonical (1 <<< 60) = false ∧ (0x220 : BitVec 64).toNat % 64 ≠ 0 ∧
    (match s.recLoc (userCtx false) 0x200 with
      | .ok l => l
      | .fault _ _ _ _ | .refused | .wait _ => 0) = 0x200 ∧
    agd (s.agentRead .trellis (userCtx false) 0x200 64) (fun v t => (BitVec.ofNat 512 v == oneBlock, t.recIll (userCtx false) oneBlock, t.recIll (userCtx false) 0,
      (t.runAt (userCtx false) 0x200 0x200).isSome, t.runs.length)) = some (true, false, true, false, 0) ∧
    (∀ j : Bool, agd (State.recStep { s with nextId := s.nextId + 1 } (userCtx false) 0x200 fun k _ => (k, if j then 1 else 2)) (fun _ w => w.runs.length) =
      some 0) := by decide +kernel
theorem test_witness_record_launch : let q : Launch := { id := 9, ctx := 2, va := 0, prio := 0, dest := ⟨1, [0], 62⟩ }
    let s := { trellis [] [] with launches := [q] }
    s.launches[0]? = some q ∧ (match s.launch 2 0 0 with
      | .done c _ _ => c
      | .wait _ => 0) = 4 := by decide +kernel
/-- Packets at 0x8000: OP 0 and 1, and a reserved bit; the producer count is one ahead. -/
theorem test_witness_packet_ring : ∀ b ∈ [(0x00 : Byte), 0x01, 0x02], let x := { ctx false with queues := [{ ring := 0x300, door := 0x400, log2n := 4, pri := 0, peer := false, rd := 0, wr := 1 }] }
    let s := { trellis (cellsAt 0x308 [b]) [] with ctxs := [x] }
    s.bar0.boot = 3 ∧ s.ctx? x.id = some x ∧ 0 < ((1 : BitVec 64) - 0).toInt ∧
    agd (s.agentRead .trellis x 0x300 16) (fun v t => (v, (agd (t.agentWrite .trellis x 0x308 8 5) fun _ _ => true))) =
      some (b.toNat * 2 ^ 64, some true) := by decide +kernel
theorem test_witness_doorbell : let x := { ctx false with queues := [{ ring := 0x300, door := 0x400, log2n := 4, pri := 0, peer := false, rd := 0, wr := 0 }] }
    let s := { trellis [(0x400, 7)] [] with ctxs := [x] }
    agd (s.agentRead .trellis x 0x400 8) (fun v t => (v, t.ctxs == s.ctxs)) = some (7, true) := by decide +kernel
/-- A line in U with a copy at node 7: whoever needs its value waits. -/
def away (l : Nat) : ULine := { line := l, op := .uadd32, home := 0, dirty := false, key := 0, l1s := [], nodes := [7], groups := [], back := [] }

/-- A block on core 0, at the head of the list: its record's line is free, or awaits contributions, and its core's clock runs or not. -/
theorem test_witness_admission : ∀ b ∈ [true, false], let r := runOf (oneBlock ||| 1 <<< 304)
    let s := { trellis [] [r] with pdevs := [], ulines := if b then [] else [away 4], ras := { Ras.reset with mhz := if b then [(0, 700)] else [(0, 0)] } }
    let p : BlockPlace := ⟨0, 255, [(3, 15, 127)]⟩
    s.run? 1 = some r ∧ s.ctx? r.ctx = some (userCtx false) ∧ s.coreHead r = true ∧ diesOk r.rcd [p] = true ∧ rcKind r.rcd = 0 ∧ r.running = false ∧
    (State.placeBlocks (userCtx false) r s 0 [p]).map (fun w => agd ((w.modRun 1 fun q => { q with nextBlk := 1 }).recStep (userCtx false) 0x200
      fun j _ => (j, 3)) fun _ _ => true) = some (if b then some true else none) ∧
    (s.placeBlock (userCtx false) r 0 p).isSome = true ∧ s.MemOk := by
  unfold State.MemOk
  decide +kernel
/-- A finished record without a parent, and decrements of a record that waits or is no longer in flight. -/
theorem test_witness_finish : let r := { runOf oneBlock with nextBlk := 1, running := true }
    let s := trellis [(0x218, 1), (0x220, 1)] [r]
    s.run? 1 = some r ∧ s.runOver r = true ∧ rcParent r.rcd = 0 ∧
    agd (s.recStep (userCtx false) 0x200 fun j _ => (j, 4)) (fun _ v => agd (v.agentWrite .trellis (userCtx false) 0x238 8 0) fun _ _ => true) =
      some (some true) ∧
    ifOk ((trellis [(0x218, 1), (0x220, 1)] [{ r with readyAt := none }]).decrement (userCtx false) 0x200 0x200) (fun t => t.runs.map (·.readyAt)) =
      some [some 0] ∧
    ifOk ((trellis [(0x218, 2), (0x220, 1)] []).decrement (userCtx false) 0x200 0x200) (fun t => t.runs.length) = some 0 := by
  decide +kernel
/-- A record that tells its parent, first and once. -/
theorem test_witness_parent : ∀ b ∈ [true, false], let r := { runOf (oneBlock ||| 0x280 <<< 128) with nextBlk := 1, running := true, told := b }
    let s := trellis [(0x298, 2), (0x2A0, 1)] [r]
    s.runOver r = true ∧ rcParent r.rcd ≠ 0 ∧ ifOk (s.decrement (userCtx false) (rcParent r.rcd) 0x200) (fun t => agd (t.recStep (userCtx false) 0x200 fun j _ => (j, 4))
      fun _ v => agd (v.agentWrite .trellis (userCtx false) 0x238 8 0) fun _ _ => true) = some (some (some true)) := by decide +kernel
theorem test_witness_cellar_task : let r := { runOf (3 <<< 227) with work := some (2 ^ 128 + 2 ^ 160) }
    let s := trellis [] [r]
    s.run? 1 = some r ∧ r.readyAt.isSome = true ∧ s.served 1 = true ∧ s.cmdq = [] ∧
    (List.replicate 64 { cmd with start := none }).length = 64 := by decide +kernel
theorem test_witness_host_signal : let r := runOf (4 <<< 227 ||| 0x280 ||| 7 <<< 384)
    let s := trellis [] [r]
    s.run? 1 = some r ∧ (r.rcd.extractLsb' 227 3).toNat = 4 ∧ s.served 1 = true ∧
    agd (s.agentWrite .trellis (userCtx false) (r.rcd.extractLsb' 0 64) 8 (r.rcd.extractLsb' 384 64).toNat) (fun _ t =>
      agd (t.recStep (userCtx false) 0x200 fun j _ => (j, 3)) fun _ _ => true) = some (some true) := by decide +kernel
/-- An attached collective at 0x300: ill formed, of no bytes, of 64 bytes; its word goes to STATUS, to a line that waits, or nowhere. -/
def attachedRun (d : BitVec 512) (at' : BitVec 512) : Run := { runOf (at' <<< (320 : Nat) ||| oneBlock) with nextBlk := 1, acoll := some d }
theorem test_witness_attached : ∀ n ∈ [2 ^ 200, 0, 64 * 2 ^ 128], let d := BitVec.ofNat 512 n
    let r := attachedRun d 0x300
    let s := trellis [] [r]
    s.run? 1 = some r ∧ s.workOver r = true ∧ s.attachJob 1 = none ∧ s.bar0.boot = 3 ∧ r.collDone = false ∧ s.ctx? 1 = some (userCtx false) ∧
    decide (d.extractLsb' 189 67 ≠ 0) = decide (n = 2 ^ 200) ∧ decide ((d.extractLsb' 128 48).toNat = 0) = decide (n ≠ 64 * 2 ^ 128) ∧
    agd (s.agentWrite (.coll 0) (userCtx false) 0x320 8 4) (fun _ _ => true) = some true := by decide +kernel
theorem test_witness_attached_status : (match (trellis [] []).agentWrite (.coll 0) (userCtx false) (1 <<< 60) 8 4 with
      | .bad _ _ _ _ => true
      | .ok _ _ | .wait _ => false) = true ∧
    (match State.agentWrite { trellis [] [] with pdevs := [], ulines := [away 6] } (.coll 0) (userCtx false) 0x320 8 4 with
      | .wait _ => true
      | .ok _ _ | .bad _ _ _ _ => false) = true := by decide +kernel
/-- It stands in its engine: to be gathered, acknowledged, or with its word. -/
def attachedJob (sent : Bool) (w : Option (BitVec 64)) : CollJob :=
  { collJob 5 with id := 3, crew := 0, attach := some 1, sent := sent, out := if sent then 64 else 0, word := w }
theorem test_witness_attached_job : ∀ j ∈ [attachedJob false none, attachedJob true none, attachedJob true (some 0)],
    let s := { trellis [] [attachedRun (BitVec.ofNat 512 (64 * 2 ^ 128)) 0x300] with colls := [j] }
    s.attachJob 1 = some j ∧ (j.sent = false → s.collTurn j 4096 = true) ∧ j.delivered + j.out ≤ 64 ∧
    agd (s.agentReadN (.coll 0) (userCtx false) 0 64) (fun v t => (v, t.pathSpent 3 5 0x80)) = some (0, false) := by
  decide +kernel
/-- A row for its own node: delivered, or to an address that is none. -/
theorem test_witness_attached_here : let s := trellis [] []
    (∃ u, s.deliverTo (.coll 0) (userCtx false) false ⟨Config.nodeId 0, 0x80, List.replicate 64 0⟩ = some (.ok u)) ∧
    ∃ c m u, s.deliverTo (.coll 0) (userCtx false) false ⟨Config.nodeId 0, 1 <<< 60, List.replicate 64 0⟩ = some (.bad c m u) := by
  have p : (userCtx false).pdev = 0 := by decide +kernel
  have a : (match State.deliver (trellis [] []) (.coll 0) (userCtx false) false 0x80 (List.replicate 64 0) with
    | .ok _ => true
    | .bad _ _ _ | .wait _ => false) = true := by decide +kernel
  have b : (match State.deliver (trellis [] []) (.coll 0) (userCtx false) false (1 <<< 60) (List.replicate 64 0) with
    | .bad _ _ _ => true
    | .ok _ | .wait _ => false) = true := by decide +kernel
  simp only [State.deliverTo, p, if_true]
  constructor
  · split at a
    · rename_i u h
      exact ⟨u, by rw [h]⟩
    · cases a
    · cases a
  · split at b
    · rename_i c m u h
      exact ⟨c, m, u, by rw [h]⟩
    · cases b
    · cases b
/-- A descriptor may name any node, its own too. -/
theorem test_witness_attached_node : ∀ v : BitVec 10, let d : BitVec 512 := BitVec.ofNat 512 (64 * 2 ^ 128 + v.toNat * 2 ^ 176)
    d.extractLsb' 176 10 = v ∧ d.extractLsb' 128 48 = 64 ∧ d.extractLsb' 186 2 = 0 ∧ d.extractLsb' 189 67 = 0 ∧ d.extractLsb' 320 192 = 0 := by
  decide +kernel


/-- A management packet in the ring at 0, its producer count one ahead. -/
def managed (p : BitVec 128) (m : List Host.Cell) (xs : List Ctx) : State :=
  { trellis (cellsAt 0 (toBytes 16 p.toNat) ++ m) [] with
    ctxs := xs, tlb := [], bar0 := { Bar0.reset with boot := 3, mqWr := 1, partcfg := 0xFFFF } }

/-- Tables for virtual page 0 in die 0's own aperture, a control block with one queue at 0x40 and its descriptor at 0x200. -/
def createMem : List Host.Cell :=
  cellsAt 0x40 (toBytes 64 (placeBase + 0x1000 + placeBase * 2 ^ 64 + 0x200 * 2 ^ 192 + 2 ^ 269 + 2 ^ 288 + 7 * 2 ^ 320)) ++
  cellsAt 0x200 (toBytes 32 (0x400 * 2 ^ 64 + 4 * 2 ^ 128)) ++
  ((List.range 5).flatMap fun i => cellsAt (0x1000 * (i + 1)) (toBytes 8 (placePte (placeBase + (i + 2) * 4096) (if i = 4 then 0xF else 1)).toNat))

theorem test_destroy_frees_the_id : see .destroy (managed (3 <<< 64 ||| 1 <<< 68) [] [ctx true]) (fun t => (t.ctxs.length, mget 0 (t.caches.map fun e => (e.line, e.data.extractLsb' 120 8)) 0)) =
    some (0, 0x80) := by decide +kernel
theorem test_kill_resets_first : see .kill { managed (4 <<< 64 ||| 1 <<< 68) [] [ctx true] with crews := [crew 1 []] } (fun t => (t.ctxs.length, t.crews.length)) =
    some (0, 0) := by decide +kernel

/-- The packets of the management queue: NOP, one with no operation, CREATE, DESTROY, KILL and one with a reserved bit. -/
theorem test_witness_managed : ∀ n ∈ [0, 1, 2, 3 + 1 <<< 4, 4 + 1 <<< 4, 2 + 1 <<< 51],
    let s := managed (BitVec.ofNat 128 (n * 2 ^ 64)) [] [ctx true]
    s.bar0.boot = 3 ∧ (s.bar0.mqWr - s.bar0.mqRd) = 1 ∧ agd (s.physRead s.mqFirst false s.bar0.mqSlot 16) (fun v _ => v) = some (n * 2 ^ 64) := by decide +kernel
theorem test_witness_managed_ends : let s := managed (3 <<< 64 ||| 1 <<< 68) [] [ctx true]
    agd (s.physRead s.mqFirst false s.bar0.mqSlot 16) (fun _ t => (t.ctxBusy 1, (t.ctx? 1).map (·.dead),
      agd (t.physWrite t.mqFirst false (s.bar0.mqSlot + 8) 8 5) fun _ _ => true)) = some (false, some false, some true) := by decide +kernel
/-- How a creation is decided, as a number: a context with one queue, refused with a detail, a failure to read, a wait. -/
def created (r : Created) : Nat × BitVec 8 :=
  match r with
  | .ok x _ => (x.queues.length, 0)
  | .refused d _ => (10, d)
  | .bad k _ => (11, k)
  | .wait _ => (12, 0)

/-- A control block that passes the checks, for ids from the least to the largest, one that is misaligned, one in a line with an
error, one in a line that awaits contributions. -/
theorem test_witness_create : (∀ id ∈ [1, 5, 1023], created (State.newCtx (managed 0 createMem []) id 0x40) = (1, 0)) ∧
    created (State.newCtx (managed 0 createMem []) 5 0x41) = (10, 1) ∧
    created (State.newCtx { managed 0 createMem [] with poison := [0] } 5 0x40) = (11, 0x0D) ∧
    created (State.newCtx { managed 0 createMem [] with pdevs := [], ulines := [away 0] } 5 0x40) = (12, 0) := by decide +kernel

/-! ### Pages and peers -/

/-- A context with the tables of `createMem` and region entry 0 of a kind over page 0. -/
def pagedCtx (kind : Nat) : Ctx :=
  { ctx true with cb := BitVec.ofNat 512 (placeBase + 0x1000 + 0x200 * 2 ^ 64 + 2 ^ 269), regions := [(0, BitVec.ofNat 256 (1 + 2 * kind))] }

/-- The device with it, in memory `createMem` and cells more. -/
def paged (x : Ctx) (m : List Host.Cell) : State := { managed 0 (m ++ createMem) [x] with pdevs := [PDev.fresh 0 8 1] }

/-- A full walk, one whose second entry is not valid, and a canonical address that no buffer holds. -/
theorem test_witness_walk : let s := paged (pagedCtx 0) []
    (∀ l ∈ [4, 3, 2, 1], s.pte (.core 0) (placeBase + 0x1000 * (5 - l)) l = .ok (BitVec.ofNat 64 (1 + (placeBase + 0x1000 * (6 - l)) / 4096 * 2 ^ 20))) ∧
    s.pte (.core 0) (placeBase + 0x5000) 0 = .ok (BitVec.ofNat 64 (15 + (placeBase + 0x6000) / 4096 * 2 ^ 20)) := by
  constructor
  · intro l h
    simp only [List.mem_cons, List.not_mem_nil, or_false] at h
    rcases h with rfl | rfl | rfl | rfl <;> exact ok_of (by decide +kernel)
  · exact ok_of (by decide +kernel)
theorem test_witness_walk_entries : (∀ l ∈ [4, 3, 2, 1], PointerEntry (BitVec.ofNat 64 (1 + (placeBase + 0x1000 * (6 - l)) / 4096 * 2 ^ 20))) ∧
    SmallLeaf (BitVec.ofNat 64 (15 + (placeBase + 0x6000) / 4096 * 2 ^ 20)) ∧ canonical 0x80 = true ∧
    (paged (pagedCtx 0) []).tlbHit (.core 0) 1 0x80 = none ∧ (physOf (placeBase + 0x6080) != .none) = true := by
  unfold PointerEntry SmallLeaf
  decide +kernel
/-- No pointer entry is kept, the tables are the device's own, and no group's entries differ. -/
theorem test_witness_walk_plain : let s := paged (pagedCtx 0) []
    (∀ l, l < 5 → s.keptPtr (.core 0) (pagedCtx 0) 0x80 l = none) ∧
    (∀ l ∈ [4, 3, 2, 1], (pagedCtx 0).tableBad (placeBase + 0x1000 * (5 - l)) l = none) ∧ (pagedCtx 0).tableBad (placeBase + 0x5000) 1 = none ∧
    s.entryFor 0x80 (placeBase + 0x4000) 1 (BitVec.ofNat 64 (1 + (placeBase + 0x5000) / 4096 * 2 ^ 20)) =
      BitVec.ofNat 64 (1 + (placeBase + 0x5000) / 4096 * 2 ^ 20) ∧
    s.entryFor 0x80 (placeBase + 0x5000) 0 (BitVec.ofNat 64 (15 + (placeBase + 0x6000) / 4096 * 2 ^ 20)) =
      BitVec.ofNat 64 (15 + (placeBase + 0x6000) / 4096 * 2 ^ 20) ∧
    physOf (2 ^ 47 + 2 ^ 46) = .none ∧ (match physOf (placeBase + 2 ^ 36) with
      | .dram _ loc => (ctx true).ownLoc loc
      | .host _ _ | .chip _ _ _ | .none => true) = true := by decide +kernel
theorem test_page_walk_fills_a_buffer : see (.pageWalk ⟨.core 0, 1, 0x80⟩) (paged (pagedCtx 0) []) (fun t => t.tlb.map fun e => (e.level, e.leaf.extractLsb' 0 8)) =
    some [(0, 0x0F)] := by decide +kernel
/-- Rewrites to an entry that is not valid, an accepted one and a refused one (KIND 3). -/
theorem test_witness_rewrite : ∀ b ∈ [(0 : Byte), 1, 7], let x := { pagedCtx 0 with rgnGo := some 63, rgnIdx := 1 }
    let s := paged x (cellsAt (0x200 + 32 * 63) [b])
    s.ctx? 1 = some x ∧ agd (s.physRead x.pdev true (x.rtab + 32 * 63) 32) (fun v t => (v, t.ctxs == s.ctxs)) = some (b.toNat, true) ∧
    (rgKind (BitVec.ofNat 256 b.toNat) = 3 ↔ b = 7) ∧ ∃ p ∈ apertures, p.code = rgIlv (BitVec.ofNat 256 b.toNat) ∧ x.ownAperture p = true := by
  decide +kernel
theorem test_witness_rewrite_completes : ∀ kind ∈ [0, 1, 2], let x := { pagedCtx kind with rgnBusy := true }
    let s := paged x []
    s.ctx? 1 = some x ∧ s.earlier 0 0 = false ∧ (match s.rangeSegs x (mget 0 x.regions 0), s.rangeSegs x x.rgnNew with
      | .ok g, .ok _ => (s.recallLines (s.linesWhere (s.lineIn g))).1 == none
      | _, _ => false) = true ∧ s.atomq = [] ∧ s.rangeInFlight x = false := by decide +kernel
/-- An access to the range that waits. -/
theorem test_witness_rewrite_waits : let x := { pagedCtx 0 with rgnBusy := true, regions := [(0, BitVec.ofNat 256 (1 + 0xFF000 * 2 ^ 128))] }
    State.rangeInFlight { paged x [] with waitq := [{ agent := .trellis, ctx := 1, crew := 0, gang := 0, va := 0x80, loc := 0x6080, key := 0, pa := 0x6080, epoch := 1, moved := false }] } x =
      true := by decide +kernel
/-- A move of one page and one whose destination is its source. -/
def moved : Forward := { src := placeBase + 0x6000, dst := placeBase + 0x8000, k := 0 }
theorem test_witness_move : let x := { pagedCtx 0 with migGo := true, migSrc := 0x20000006, migDst := 0x20000008, migK := 0 }
    let s := paged x []
    s.ctx? 1 = some x ∧ x.migSrc.toNat * 4096 = moved.src ∧ s.moveIll x 0 moved = false ∧ s.moveIll x 0 { moved with dst := moved.src } = true := by
  decide +kernel
theorem test_witness_move_completes : let x := { pagedCtx 0 with migBusy := true, migAct := some (15, moved) }
    let s := paged x []
    s.ctx? 1 = some x ∧ s.earlier x.pdev x.migSeq = false ∧
    (s.recallLines (s.linesWhere fun l => pageHas moved.src 0 (l * 128) || pageHas moved.dst 0 (l * 128))).1 = none ∧ s.versionsFull moved = false ∧
    (moved.lines.map Prod.snd).Nodup ∧ moved.lines.length = 32 ∧ (∀ p ∈ moved.lines, ∀ q ∈ moved.lines, p.1 ≠ q.2) ∧ s.MemOk := by
  unfold State.MemOk
  decide +kernel
theorem test_witness_retire : let x := { pagedCtx 0 with migRetire := true, migSlot := 3 }
    let s := { paged x [] with pdevs := [{ PDev.fresh 0 8 1 with fwd := [(3, moved)] }] }
    s.ctx? 1 = some x ∧ ((s.pdev? x.pdev).map fun p => mhas p.fwd 3) = some true := by decide +kernel
/-- A packet of a path with a key: fresh, a repeated counter, and one that is not authentic. -/
theorem test_witness_path : let k : PathKey := { enc := true, key := 0, sentCtr := [], recvCtr := [(0x3F, 5)] }
    mfind [((5 : Nat), k)] 5 = some k ∧ mfind k.recvCtr ((3 : BitVec 2).toNat * 16 + 15) = some 5 ∧ (5 : BitVec 64).toNat < (6 : BitVec 64).toNat ∧
    ¬(5 : BitVec 64).toNat < (5 : BitVec 64).toNat := by decide
/-- Peers of node 5: no context, no entry, an entry that lets reads or writes in, and the access itself. -/
theorem test_witness_peers : ∀ b ∈ [(0x10 : Byte), 0x20], let x := { ctx false with cb := BitVec.ofNat 512 (0x100 * 2 ^ 128 + 2 ^ 304) }
    let s := { device false (crew 1 []) with ctxs := [x], mem := [(0x100, 5), (0x104, b), (0x107, 0x80)] }
    s.ctx? 2 = none ∧ s.ctx? 1 = some x ∧ x.dead = false ∧ (match s.aclFind x 5 x.acln 0, s.aclFind x 6 x.acln 0 with
      | .entry (some e) t, .entry none _ => decide (e = 5 + b.zeroExtend 64 <<< 32 ||| 1 <<< 63) && t.doorShut x e 0x40 4 == false && t.doorShut x e 0x9004 4
      | _, _ => false) = true ∧ (∀ q ∈ x.queues, 0x40 + 4 ≤ q.door.toNat) ∧
    (match s.hereReadN .scafa x 0x40 4, s.hereWriteN .scafa x 0x40 4 7 with
      | .ok _ _, .ok _ _ => true
      | _, _ => false) = true ∧ s.inbound = [] := by decide +kernel
/-- A table in a line that awaits contributions; a request behind an earlier one of its node and line. -/
theorem test_witness_peers_wait : let x := { ctx false with cb := BitVec.ofNat 512 (0x100 * 2 ^ 128 + 2 ^ 304) }
    let s := { device false (crew 1 []) with ctxs := [x], cmds := [{ cmd with coh := true, held := [0] }] }
    let o : PeerReq := { src := 5, pkt := ⟨0, 0, false, 0, true⟩, ctx := 1, va := 0x40, kind := .read 4 }
    (match s.aclFind x 5 x.acln 0 with
      | .wait _ => true
      | .entry _ _ | .bad _ _ => false) = true ∧ s.pathKeys = [] ∧ Inbound.ahead (.peer o) (.peer { o with va := 0x48 }) = true := by
  decide +kernel
theorem test_witness_remote_updates : let q : PressLine := { pdev := 0, line := remoteLine 5 0x80, node := 5, op := .uadd32, l1s := [0], home := none }
    let u : ULine := { line := 4, op := .uadd32, home := 0, dirty := false, key := 0, l1s := [], nodes := [7], groups := [], back := [] }
    let s := { device false (crew 1 []) with press := [q], ulines := [u], recalls := [⟨4, 9, false⟩], reftime := 9 }
    s.press.find? (fun p => p.pdev == 0 && p.line == remoteLine 5 0x80 && p.op == .uadd32) = some q ∧ s.uline? 4 = some u ∧ 7 ∈ u.holders ∧
    u.back = [] ∧ (∃ r ∈ s.recalls, r.line = 4 ∧ r.expired = false ∧ r.deadline ≤ s.reftime) :=
  ⟨by decide +kernel, by decide +kernel, by decide, rfl, _, List.mem_cons_self, rfl, rfl, by decide⟩

/-! ### Faults and pre-emption -/

/-- A crew that has faulted, its record numbered 3. -/
def faulted : Crew := { pairCrew 0 with faulted := some { noTrap with cause := 4 }, faultSeq := some 3 }

theorem test_fresp_resume : see (.frespResume ⟨0, 3⟩) { device false faulted with pdevs := [{ PDev.fresh 0 8 1 with fresp := some (3, 0) }] }
    (fun t => (t.crew? 1).map fun c => (c.faulted.isNone, c.slices.map (·.pc))) = some (some (true, [0x1000])) := by decide +kernel
theorem test_fresp_deliver : see (.frespDeliver ⟨0, 3⟩) { device false faulted with pdevs := [{ PDev.fresh 0 8 1 with fresp := some (3, 1) }] }
    (fun t => (t.crew? 1).map fun c => (c.tm, c.trap.cause, c.slices.map (·.pc))) = some (some (true, 4, [0x2000])) := by decide +kernel

/-- A record whose fields are largest. -/
def largest : RingRec :=
  { val := 1, pc := 2, aux := 3, ctx := 1023, kind := 3, cause := 4, detail := 5, level := 4, mc := true, die := 7, core := 23, crewid := 31,
    lane := 31, sreg := 255, crew := some 1 }
theorem test_witness_fault_record : let r := largest
    let p := { PDev.fresh 0 8 1 with fqEn := true, faultQ := [r] }
    let s := { device false faulted with pdevs := [p] }
    s.pdev? 0 = some p ∧ (p.fqProd - p.fqCons).toNat ≠ 16 ∧ ((16 : BitVec 64) - 0).toNat = 16 ∧ r.ctx < 1024 ∧
    agd (s.physWrite 0 true (p.fqPa.toNat * 4096 + 64 * (p.fqProd.toNat % 16)) 64 5) (fun _ t => t.crews == s.crews) = some true ∧
    (match physOf (placeBase + 2 ^ 37) with
      | .dram _ loc => s.onDev 0 (s.forward loc)
      | .host _ _ | .chip _ _ _ | .none => false) = true ∧
    (match physOf (placeBase + 2 ^ 37) with
      | .dram _ loc => State.onDev { s with pdevs := [PDev.fresh 0 1 1] } 0 (s.forward loc)
      | .host _ _ | .chip _ _ _ | .none => true) = false := by decide +kernel
theorem test_witness_answers : let p := { PDev.fresh 0 8 1 with fresp := some (3, 2) }
    let s := { device false faulted with pdevs := [p] }
    s.pdev? 0 = some p ∧ s.pendingFault 0 3 = some faulted ∧ s.pendingFault 0 4 = none ∧ s.crew? 1 = some faulted ∧
    faulted.faulted = some { noTrap with cause := 4 } ∧
    faulted.tvec ≠ 0 ∧ canonical (faulted.tvec ++ (0 : BitVec 2)) = true := by decide +kernel
/-- Requests of each kind, of a context with a block and of one that no presented device has. -/
theorem test_witness_requests : ∀ req ∈ [(1 : BitVec 2), 2, 3], ∀ n ∈ [(1 : BitVec 10), 9], let p := { PDev.fresh 0 8 1 with peGo := some (n, req, 5) }
    let s := { device false (crew 1 []) with pdevs := [p] }
    s.Requests 0 p n req 5 ∧ p.peAct = none ∧ s.ctx? 9 = none ∧
    ((s.ctx? 1).map fun x => (x.pdev, x.dead, x.savedAt)) = some (0, false, none) ∧ (∃ b ∈ s.blocks, b.ctx = 1) ∧ (s.pdevs.map PDev.first).Nodup := by
  unfold State.Requests
  decide +kernel
theorem test_witness_deadlines : ∀ stage ∈ [(1 : BitVec 3), 2], let p := { PDev.fresh 0 8 1 with peBusy := true, peAct := some (1, 1, 0), peStage := stage }
    let s := { device false (crew 1 []) with pdevs := [p], reftime := 2 ^ 40 }
    s.pdev? 0 = some p ∧ p.peBusy = true ∧ p.peAct = some (1, 1, 0) ∧ ((s.ctx? 1).map fun x => (decide (x.t1 ≤ s.reftime), decide (0 < x.t1), decide (x.t2 ≤ s.reftime), decide (0 < x.t2))) =
      some (true, true, true, true) ∧ (∃ c ∈ s.crews, c.ctx = 1 ∧ c.preempted = false ∧ c.faulted = none ∧ c.exited = false) := by decide +kernel
/-- A save and a restore of a context without cores. -/
theorem test_witness_save : let p := { PDev.fresh 0 8 1 with peBusy := true, peAct := some (1, 2, 5), peStage := 2 }
    let s := { device false { crew 1 [] with preempted := true } with pdevs := [p], blocks := [] }
    (∀ c ∈ s.crews, c.ctx = 1 → c.preempted = true ∨ c.faulted.isSome = true ∨ c.exited = true) ∧ s.opsLeft 1 = false ∧ s.ctxCores 1 = [] := by
  decide +kernel
theorem test_witness_restore : let x := { ctx false with savedAt := some ((5 : BitVec 27) ++ (0 : BitVec 21)) }
    let s := { device false { crew 1 [] with saved := true } with ctxs := [x], blocks := [], pdevs := [{ PDev.fresh 0 8 1 with peGo := some (1, 3, 5) }] }
    s.ctx? 1 = some x ∧ x.savedAt = some ((5 : BitVec 27) ++ (0 : BitVec 21)) ∧ s.coresOk x [] = true ∧ s.coresOk x [(0, 0)] = false := by decide +kernel

/-! ### Host, security and reliability -/

/-- The device as the host sees it, with its own memory only. -/
def hosted (b : Bar0) (m : List Host.Cell) : State := { trellis m [] with bar0 := b }

theorem test_host_atomic_returns_old : see (.hostAtomic ⟨0x40, .cas32 5 9⟩) (hosted { Bar0.reset with boot := 3 } [(0x40, 5)]) (fun t =>
    (t.sent, t.caches.map fun e => e.data.extractLsb' 512 32)) = some ([.hostReply [5, 0, 0, 0] false], [9]) := by decide +kernel
theorem test_partcfg_refuses_uneven_parts : see (.partcfgWrite 0xFFFE) (hosted Bar0.reset []) (fun t => (t.bar0.partcfg, t.bar0.partRefused)) =
    some (0xFFFF, true) := by decide +kernel
theorem test_unmask_sends_what_is_pending : see (.msixUnmask 3) (hosted { Bar0.reset with msixPending := 8 } []) (fun t =>
    (t.sent, t.bar0.msixPending, t.bar0.msixMask.getLsbD 3)) = some ([.msix 3], 0, false) := by decide +kernel
theorem test_reset_keeps_dram : see .deviceReset (hosted { Bar0.reset with boot := 3 } [(0x40, 5), (0x20000000000, 7)]) (fun t => (t.mem, t.bar0.boot, t.resets)) =
    some ([(0x40, 5)], 1, 2) := by decide +kernel

theorem test_witness_host : let s := hosted { Bar0.reset with boot := 3 } []
    (s.forward (Aperture.loc ⟨0, 0, 3, 0⟩ ((s.bar0.b2off.toNat * 4096 + 0x70) % 2 ^ 39)) = 0x70) ∧ s.HostReach 0x70 16 0x70 s.deviceKey ∧
    (0x71 : BitVec 39).toNat % 16 ≠ 0 :=
  ⟨by decide +kernel, ⟨.inl ⟨rfl, rfl⟩, fun _ h => absurd h List.not_mem_nil, by decide, by decide, by decide +kernel, by decide +kernel, by decide⟩, by decide⟩
/-- HKEY names a slot closed to the host, or an empty one. -/
theorem test_witness_host_keys : let s := { hosted { Bar0.reset with boot := 3, hkey := 4095 } [] with keys := [(4095, ⟨1, true, 7⟩)] }
    s.bar0.hkey ≠ 0 ∧ mfind s.keys s.bar0.hkey.toNat = some ⟨1, true, 7⟩ ∧ mfind ([] : SMap KeySlot) 4095 = none := by decide +kernel
theorem test_witness_vectors : Bar0.reset.msixMask.getLsbD 127 = true ∧ ({ Bar0.reset with msixMask := 0 } : Bar0).msixMask.getLsbD 127 = false := by decide
/-- Registers of BAR0: a table word, an address past the last, one between, a misaligned one. -/
theorem test_witness_bar0 : (0x100000 + 16 * 127) % 8 = 0 ∧ 0x200008 < (0x200010 : BitVec 26).toNat ∧ 0x001010 < (0x001018 : BitVec 26).toNat ∧
    (0x0FFFF8 : BitVec 26).toNat < 0x100000 ∧ (0x001004 : BitVec 26).toNat % 8 ≠ 0 := by decide
/-- Partitions of 8, of 4 and 2 and 1 dies, and uneven ones. -/
theorem test_witness_partcfg : let good := fun (v : Nat) => ∀ d, d < 8 → ∀ e, e < 8 → e / 2 ^ (v / 2 ^ (2 * d) % 4) = d / 2 ^ (v / 2 ^ (2 * d) % 4) →
      v / 2 ^ (2 * e) % 4 = v / 2 ^ (2 * d) % 4
    good 0xFFFF ∧ good 0x05AA ∧ ¬good 0xFFFE := by decide
/-- A header that firmware verification reads, of the right shape and of none. -/
theorem test_witness_firmware : let s := hosted { Bar0.reset with boot := 2, fwaddr := 0x1000000 } []
    s.bar0.boot = 2 ∧ agd (s.hostReadN s.deviceKey 0x1000000 4096) (fun h t => (h, t.hostBad 0x1000000 4096, t.resets == s.resets)) =
      some (0, false, true) ∧ (5 : BitVec 3) ≠ 1 ∧ (5 : BitVec 3) ≠ 2 ∧
    (5 : BitVec 3) ≠ 4 := by decide +kernel
theorem test_witness_firmware_shape : let h := 0x5A464C56 + 2 ^ 64
    h % 2 ^ 32 = 0x5A464C56 ∧ h / 2 ^ 64 % 2 ^ 32 = 1 ∧ 1 ≤ 64 * 2 ^ 20 ∧ h / 2 ^ 14528 % 2 ^ 16 ≤ 1280 := by decide +kernel
/-- Each command of the security mailbox, an OP beyond them, and a device that does not serve. -/
theorem test_witness_security : ∀ op ∈ [0, 1, 2, 3, 4, 5, 6, 255], let s := hosted { Bar0.reset with boot := 3, smBusy := true } [(0, BitVec.ofNat 8 op)]
    s.bar0.smBusy = true ∧ s.bar0.boot = 3 ∧ agd (s.hostReadN s.deviceKey (s.bar0.smcmd.toNat * 256 % 2 ^ 39) 256) (fun v _ => v % 256) =
      some (if op = 0 then 0 else op) := by decide +kernel
theorem test_witness_security_runs : let s := hosted { Bar0.reset with boot := 3, smBusy := true } []
    ∃ t op o, s.SmRuns t s.deviceKey op o := by
  intro s
  have h : agd (s.hostReadN s.deviceKey (s.bar0.smcmd.toNat * 256 % 2 ^ 39) 256) (fun _ _ => true) = some true := by decide +kernel
  revert h
  cases e : s.hostReadN s.deviceKey (s.bar0.smcmd.toNat * 256 % 2 ^ 39) 256 with
  | ok b t => exact fun _ => ⟨t, _, _, rfl, rfl, rfl, .inl ⟨rfl, rfl⟩, b, e, rfl, rfl⟩
  | bad _ _ _ _ => exact fun h => nomatch h
  | wait _ => exact fun h => nomatch h
theorem test_witness_slots : mfind ([(1, ⟨1, true, 7⟩)] : SMap KeySlot) 2 = none ∧ mhas ([(1, (⟨1, true, 7⟩ : KeySlot))] : SMap KeySlot) 4095 = false ∧
    (let s := hosted { Bar0.reset with boot := 3 } []
     (s.recallLines (s.linesUnder (2 * 7 + 1))).1 = none ∧ s.atomq = [] ∧ s.keyInFlight 1 (2 * 7 + 1) = false) := by decide +kernel
/-- A lost request to a host window, and one to memory of another die. -/
theorem test_witness_lost : let s := device false (crew 1 [])
    s.crew? 1 = some (crew 1 []) ∧ (crew 1 []).saved = false ∧ (crew 1 []).exited = false ∧ (crew 1 []).faulted = none := by decide +kernel
theorem test_witness_lost_reaches : let s := device false (crew 1 [])
    s.translate (.core 0) (userCtx false) 0x400040 false false (fun _ => true) = .ok (.host 0 0x40) ∧
    ∃ a key pa, s.translate (.core 0) (userCtx false) 0x1040 false false (fun _ => true) = .ok (.dram a (2 ^ 36 + 0x40) key pa) :=
  ⟨ok_of (by decide +kernel), ⟨0, 0, 3, 0⟩, 0, 0x1040, ok_of (by decide +kernel)⟩
theorem test_timebase_fails_at_the_sixteenth_miss : see (.timebaseSync ⟨7, 0, true⟩) { State.reset with reftime := 16384, ras := { Ras.reset with missed := [(7, 15)], synced := [(7, 15)] } }
    (fun t => t.bar0.boot) = some 5 := by decide +kernel
theorem test_core_failure_is_recorded : see (.coreFailure 0) (device false (crew 1 [])) (fun t => (t.ras.failed, t.ras.valid)) = some ([0], true) := by
  decide +kernel
theorem test_thermal_event_stretches : see (.thermalEvent ⟨7, 1759⟩) State.reset (fun t => (t.ras.temps, t.ras.hot)) = some ([(7, 1759)], [7]) := by decide +kernel
theorem test_link_down : see (.linkDown 11) { State.reset with ports := State.reset.ports.set 11 { Port.reset with up := true, lanes := 8 } } (fun t =>
    (t.ports[11]?.map fun p => (p.up, p.lanes))) = some (some (false, 0)) := by decide +kernel

/-- The reliability events' cases: failing cores, thresholds of temperature, clocks and the syncs of a die. -/
theorem test_witness_reliability : let s := device false (crew 1 [])
    0 / 32 < 8 ∧ 23 % 32 < 24 ∧ 24 ≤ 24 % 32 ∧ 0 ∉ s.ras.failed ∧ (s.crews.map Crew.uid).Nodup ∧ (crew 1 []).tm = false ∧ (crew 1 []).late = none ∧
    (1760 : BitVec 12).toNat = 1760 ∧ 1520 < (1521 : BitVec 12).toNat ∧ (1439 : BitVec 12).toNat < 1440 ∧ s.ports[0]? = some Port.reset ∧
    (∃ e ∈ [entry 1 0 false], e.line = 1 ∧ e.st = .m ∧ e.place = .l1 0) := by decide
theorem test_witness_journal_enabled : (({ device false (crew 1 []) with pdevs := [{ PDev.fresh 0 8 1 with fqEn := true }] } : State).pdevOf 1).any
    (fun p => p.fqEn) = true := by decide +kernel

/-! ### The whole machine -/

/-- IADD v4, v5, v6 at 0x100 of DRAM, where crew 1 stands. -/
def ready1 : State :=
  { device false { crew 1 [(5, 3), (6, 4)] with slices := [{ slice with pc := 0x100 }] } with
    mem := [(0x100, 0x86), (0x101, 0x02), (0x102, 0x41)], cur := .none, agenda := [.issue 0 0] }

theorem test_step_runs_the_word_at_the_pc : (match step ready1 with
    | .next t => (t.crew? 1).map fun c => (c.vget 0 4, c.slices.map (·.pc))
    | .fault _ | .refused _ => none) = some (7, [0x104]) := by decide +kernel
theorem test_witness_step : let s := ready1
    let t := { s with agenda := [] }
    let i := Instr.iadd ⟨hb, false, 4, 5, .reg 6⟩
    s.counted.urgent = none ∧ mget 1400 t.ras.mhz 0 ≠ 0 ∧ s.bar0.boot ≠ 5 ∧ s.agenda = .issue 0 0 :: [] ∧ (t.crewAt 0 0 (mget 0 t.clock 0 % 16)).isSome = true ∧ t.crewAt 0 0 (mget 0 t.clock 0 % 16) = s.crew? 1 ∧
    (s.crew? 1).map (fun c => (t.crewRuns c, c.gangFree c.holder, t.atHypres c c.holder, c.late.isNone, c.gangPc c.holder, i.uses.ok c.vregs)) =
      some (true, true, false, true, 0x100, true) ∧
    (s.crew? 1).map (fun c => (c.readKeys c.holder i ++ c.writeKeys c.holder i).any c.keyBusy) = some false ∧
    (match t.fetchWord 0 0 (userCtx false) 0x100 with
      | .word w => w
      | _ => 0) = 0x00410286 ∧ opcPrivileged (wordOpc 0x00410286) = false ∧ i.la = 0 := by decide +kernel
theorem test_witness_step_decodes : decode [0x00410286] = .ok (.iadd ⟨hb, false, 4, 5, .reg 6⟩, 4) := ok_of (by decide +kernel)
/-- A processor at a word of local store, CHALT, and an event. -/
theorem test_witness_processor_step : let p := { proc [] [] [(0x103, 0x68)] with pc := 0x100 }
    let s := { cellar p with agenda := [.cellar 0 0], cur := .none }
    s.urgent = none ∧ s.bar0.boot ≠ 5 ∧ s.proc? 0 0 = some p ∧ p.atoms = 0 ∧ s.cmd? p.cmd = some cmd ∧
    BitVec.ofNat 32 (ofBytes ((List.range 4).map fun j => mget 0 p.loc (p.pc.toNat + j))) = 0x68000000 := by decide +kernel
theorem test_witness_processor_decodes : decodeAqiuf 0x68000000 = .ok .chalt := ok_of (by decide +kernel)
theorem test_witness_event_step : (Instr.msixUnmask 3).raw = none ∧ (Instr.msixUnmask 3).craw = none ∧ State.reset.urgent = none := by decide
/-- Well-formed instructions, and words that decode. -/
theorem test_witness_encoding : (Instr.iadd ⟨hb, false, 4, 5, .reg 6⟩).wf = true ∧ Instr.chalt.wf = true := by decide
/-- The state after reset has the canonical form, and a step from it is a next state. -/
theorem test_witness_canonical : State.reset.MemOk ∧ (match step ready1 with
    | .next t => memWf t.mem
    | .fault _ | .refused _ => false) = true := by
  unfold State.MemOk
  decide +kernel

/-! ### Waits, errors and late answers -/

/-- TDSET from memory as the root, with nothing in its way; TDGET of a descriptor that is well formed and of one that is not. -/
theorem test_witness_tdset_from_memory : let c := withS 1 [(10, 0x60)]
    let s := { withTds c [(3, desc 4 128 2 1 128 0)] with caches := [{ entry 0 0 false with st := .s }] }
    let m := tdsetLoad 0 0x60
    let y : Target := .dram 0x60 0 0 0 0x60
    s.checkAddr c.atRoot m.acc 0x60 = .ok y ∧ c.watchHit true false 32 m.lanes = none ∧ s.poisonedAt c.atRoot 32 y = false ∧
    s.resolving c.atRoot 32 [(0, 0x60, y)] = false ∧ (s.farFault c.atRoot m [(0, 0x60, y)]).1 = none ∧
    (s.readTo c.atRoot false y 32).isSome = true ∧ tdIll (s.td 1 3) = false ∧ tdIll (s.td 1 4) = true := by decide +kernel
/-- The object of a waiting gang is misaligned. -/
theorem test_witness_barwait_fails : (device false (crew 1 [])).checkAddr (crew 1 []) ⟨16, false, .barrier, false⟩ 0x41 = .bad 0x03 0 0 := by decide +kernel
/-- A mailbox event whose message has an uncorrectable error. -/
theorem test_witness_unsound : let c := { waiting 0x80 (.waitany 0x84) with
      slots := (List.range 8).map fun j => { bound := j == 7, kind := 2, obj := 5, parity := false, handler := 0x4000 } }
    let s := { device false c with cores := [(0, { Core.fresh with mail := [(5, [1])], mailBad := [5] })] }
    s.Takable c 0x84 7 ∧ ¬s.Sound c 7 :=
  ⟨⟨rfl, rfl, _, rfl, fun _ => by decide⟩, fun h => h _ rfl rfl (by decide)⟩
/-- A resolution of 3 that has not taken effect, commits its line 1, and answers. -/
theorem test_witness_resolution : ∀ e ∈ [false, true], let r : Resolve := { id := 20, ctx := 1, h := 3, crew := 1, slices := [0], reg := 63, effect := e }
    let c := { hypCrew with slices := [{ slice with spend := [(63, 20)] }] }
    let s := { device false c with ctxs := [hypCtx], caches := [entry 1 3 false], resolves := [r] }
    ((∃ q ∈ s.resolves, q.ctx = c.ctx ∧ q.effect = false) ↔ e = false) ∧ (e = false → s.resolves.find? (fun q => q.ctx == 1 && !q.effect) = some r) ∧
    s.commitBlocked (s.versionsOf 1 3) = false ∧ (∀ y ∈ s.versionsOf 1 3, s.uline? y.line = none ∧ s.expired y.line = false) ∧
    (∀ k ∈ s.crews, k.ctx = 1 → k.uid ≠ r.crew → k.orphan = none) ∧ c.slices.map (fun y => (mfind y.spend 63, y.drops)) = [(some 20, [])] := by
  decide +kernel

/-! ### Matrix operations -/

/-- One chain of four sub-arrays over A row 0, the 1,024 bytes of the scratchpad. -/
def mmaOp (started : Bool) : MxOp :=
  { mxOp 7 (.mma [desc 1 1024 2 1 1024 0] 0 0 1 0 .m4x1) 0 started with
    subs := [(0, 1), (1, 1), (2, 1), (3, 1)], recs := [(0, 2, 0), (1, 2, 0), (2, 2, 0), (3, 2, 0)] }
/-- Every A row lies in the scratchpad and nothing that is read holds an error. -/
theorem test_witness_mma_completes : let c := crew 1 []
    let s := withMx c [mmaOp true] []
    let t := desc 1 1024 2 1 1024 0
    (s.core 0).mq.find? (·.id == 7) = some (mmaOp true) ∧ (∀ p ∈ (mmaOp true).subs, p.2 ∉ ((s.core 0).sub p.1).badGens) ∧ (mmaOp true).tiles = [1] ∧
    (mmaUses .m4x1 0).length = 1 ∧ (s.scratch c).2 = 1024 ∧ s.poison = [] ∧ (s.core 0).rowBad 1 0 = false ∧
    (tdBase t).toNat + 0 * tdStride t + tdRowBytes t ≤ (s.scratch c).2 ∧ tdSgran t = 0 := by
  decide +kernel
/-- MMA, ACCZ and ACCWR start on a generation whose load has failed; an operation that was refuted in the queue starts too. -/
theorem test_witness_failed_starts : let bad : SubArray := { valid := false, fmt := 2, pat := 0, gen := 1, badGens := [1], cells := [], idx := [], scales := [] }
    ∀ k ∈ [MxKind.accz 0 0 1, .accwr 0 0 [(0, 5)], .mma [desc 1 1024 2 1 1024 0] 0 0 1 0 .m4x1],
    let op := mxOp 7 k 0 false
    let s := { device false (crew 1 []) with cores := [(0, { Core.fresh with subs := List.replicate 4 bad, mq := [op] })], ctxs := [hypCtx] }
    (s.core 0).mq.find? (·.id == 7) = some op ∧ op.started = false ∧ (∃ p ∈ op.subs, p.2 ∈ ((s.core 0).sub p.1).badGens) ∧ (s.core 0).tag 0 = 0 ∧
    mwf 0 (s.core 0).acc = true ∧ ({ op with refuted := some 0 } : MxOp).refuted.isSome = true := by decide +kernel
/-- A load that may fail with ECC, one by parts whose record does not match, and a row that holds an error. -/
theorem test_witness_matrix_errors : let op := mxOp 7 (.load (desc 1 256 2 1 256 0x300) false) 0 true
    let sp := mxOp 8 (.loadSp (desc 256 128 2 1 128 0) 1 0 1 [] true) 0 true
    let s := withMx (crew 1 []) [op, sp] []
    (s.core 0).mq.find? (·.id == 7) = some op ∧ (s.core 0).mq.find? (·.id == 8) = some sp ∧ op.subs = [(0, 1)] ∧ sp.subs = [(0, 1)] ∧
    0 < (s.core 0).subs.length ∧ ({ loadedCore with accBad := [1 * 1024 + 127 * 8 + 7] } : Core).rowBad 1 127 = true ∧
    ({ loadedCore with accBad := [1 * 1024 + 127 * 8 + 7] } : Core).rowBad 1 126 = false := by decide +kernel

/-! ### Collectives -/

def collData (n : Nat) : CollIn := { src := 5, pkt := ⟨3, 0, false, 0, true⟩, ctx := 1, va := 0x80, red := false, data := List.replicate n 7 }
/-- Earlier data of the node waits; the pool for inbound data is nearly full. -/
theorem test_witness_inbound : let s := { device false (crew 1 []) with inbound := [.coll (collData 64)] }
    (s.inbound.map fun i => match i with
      | .coll q => if collIn q.va = collIn (collData 64).va then q.data.length else 0
      | .peer _ | .read _ _ | .write _ _ | .atomic _ _ | .reg _ => 0).sum = 64 ∧ (∃ q, .coll q ∈ s.inbound ∧ q.src = 5) ∧ s.pathKeys = [] :=
  ⟨by decide, ⟨collData 64, List.mem_cons_self, rfl⟩, rfl⟩
/-- Data for an address that is none, and for a line that a coherent command holds. -/
theorem test_witness_inbound_ends : let x := { ctx false with cb := BitVec.ofNat 512 (0x100 * 2 ^ 128 + 2 ^ 304) }
    let s := { device false (crew 1 []) with ctxs := [x], cmds := [{ cmd with coh := true, held := [0] }] }
    (match s.deliver (collIn (1 <<< 60)) x false (1 <<< 60) [7] with
      | .bad _ _ _ => true
      | .ok _ | .wait _ => false) = true ∧
    (match s.deliver (collIn 0x80) x false 0x80 [7], s.aclOk x 5 0x80 64 false true with
      | .wait _, .wait _ => true
      | _, _ => false) = true := by decide +kernel
/-- CELL of a record in a line with an error. -/
theorem test_witness_cell_fault : let c := withS 1 [(8, 0x40)]
    let s := { device false c with poison := [0] }
    (match s.engReadN c (.copyUnit c.core) c.uid 0 0x40 64 with
      | .bad k w => k == 0x0D && w.crew? c.uid == some c
      | .ok _ _ | .wait _ => false) = true := by decide +kernel

/-! ### Waiting trellis, tables and host -/

/-- A launch of a record whose line awaits contributions waits. -/
theorem test_witness_launch_waits : (match State.launch { trellis [(0x220, 1)] [] with pdevs := [], ulines := [away 4] } 1 0x200 2 with
    | .wait _ => true
    | .done _ _ _ => false) = true := by decide +kernel
/-- Entries of a group that differ: index 0 and 1 are both of 8 KiB pages, and name two of them. -/
theorem test_witness_group : let e := fun (k : Nat) => BitVec.ofNat 64 (0x1F + (placeBase + 0x6000 + k) / 4096 * 2 ^ 20)
    let s := { paged (pagedCtx 0) [] with mem := cellsAt 0x9000 (toBytes 8 (e 0).toNat ++ toBytes 8 (e 0x2000).toNat) }
    s.groupOf (placeBase + 0x9000) 0 0 (e 0) = [e 0, e 0x2000] := by decide +kernel
/-- Requests of the host behind a waiting one, and with a slot that is being erased. -/
theorem test_witness_link_busy : let s := { hosted { Bar0.reset with boot := 3, hkey := 5 } [] with inbound := [.read ⟨0, 8⟩ ⟨0, 0⟩], erasing := some 5 }
    ¬s.LinkFree ∧ s.erasing = some s.bar0.hkey.toNat :=
  ⟨fun h => (h _ List.mem_cons_self).elim (fun ⟨_, e⟩ => nomatch e) (fun ⟨_, e⟩ => (nomatch e)), by decide⟩
/-- An erasure waits for an operation on its way that holds the key. -/
theorem test_witness_erasing : let r : AtomReq := { loc := 0x80, key := 15, ctx := 1, run := 0, op := .add, b := 5, src := .proc 0 0 3, epoch := 1 }
    let s := { hosted { Bar0.reset with boot := 3 } [] with keys := [(1, ⟨1, true, 7⟩)], waitq := [{ agent := .trellis, ctx := 1, crew := 0, gang := 0, va := 0x80, loc := 0x80, key := 15, pa := 0x80, epoch := 1, moved := false }] }
    s.keyInFlight 1 (2 * 7 + 1) = true ∧ s.atomq = [] ∧ ({ s with waitq := [], atomq := [r] } : State).keyInFlight 1 15 = true := by decide +kernel

/-! ### Lost requests, time and reliability -/

/-- A request of lane 3 to a host window, to memory of die 1, to node 5; a copy that reads a host window. -/
theorem test_witness_lost_whose : let s := { device false (crew 1 []) with reftime := 100000, cores := [(0, { Core.fresh with copies := [copyJob] })] }
    s.translate (.core 0) (userCtx false) 0x400040 false false (fun _ => true) = .ok (.host 0 0x40) ∧
    s.translate (.core 0) (userCtx false) 0x500040 false false (fun _ => true) = .ok (.rmt 5 0x40) ∧ (alone s).peerOf 5 = none ∧
    (s.core 0).copies.find? (fun k => k.id == 9) = some copyJob ∧ copyJob.ended = none ∧ s.dieTime 0 = 100000 ∧
    (∃ p, s.pdev? 0 = some p ∧ max 1000 p.xto.toNat ≤ s.dieTime 0) ∧ (crew 1 []).core / 32 = 0 := by
  refine ⟨ok_of (by decide +kernel), ok_of (by decide +kernel), ?_⟩
  decide +kernel
theorem test_witness_lost_chip : let s := { device false (crew 1 []) with tlb := [page 0x100000 0xFF0200000000] }
    s.translate (.core 0) (userCtx false) 0x100040 false false (fun _ => true) = .ok (.chip 1 0 0x40) ∧ (userCtx false).pdev + 1 ≠ 0 :=
  ⟨ok_of (by decide +kernel), by decide +kernel⟩
/-- A sync that is due, the last that comes in time, and the first that comes too far off. -/
theorem test_witness_syncs : (∀ d ∈ [0, 15], (mget 0 State.reset.ras.synced d + 1) * 1024 ≤ ({ State.reset with reftime := 1024 } : State).reftime) ∧
    (1023 < (mget 0 State.reset.ras.synced 15 + 1) * 1024) ∧ ((-1 : Int) ≤ 1) ∧ ((1 : Int) < 2) := by decide
/-- An error in the only copy of a line, and in clean copies alone. -/
theorem test_witness_marks : (∃ e ∈ [entry 1 0 false], e.line = 1 ∧ e.place = .l1 0 ∧ e.gone = false ∧ (e.st = .m ∨ e.st = .u ∨ e.hyp ≠ 0)) ∧
    ∀ e ∈ [{ entry 1 0 false with st := .s }], e.line = 1 → e.place = .l1 0 → e.gone = false → e.st ≠ .m ∧ e.st ≠ .u ∧ e.hyp = 0 := by decide
/-- A core fails on a die that a context uses, and on one that none uses and that has a spare. -/
theorem test_witness_spares : let s := device false (crew 1 [])
    (∃ x ∈ s.ctxs, x.pdev ≤ 0 / 32 ∧ 0 / 32 < x.pdev + x.dies) ∧ (¬∃ x ∈ ({ s with ctxs := [] } : State).ctxs, x.pdev ≤ 0 / 32 ∧ 0 / 32 < x.pdev + x.dies) ∧
    (∀ k ∈ s.ras.failed, k / 32 ≠ 0 / 32) ∧ 0 < mget 2 s.ras.spares (0 / 32) := by decide +kernel
/-- A core whose clock is stopped has its turn. -/
theorem test_witness_stopped_clock : let s := { ready1 with ras := { Ras.reset with mhz := [(0, 0)] } }
    s.counted.urgent = none ∧ s.bar0.boot ≠ 5 ∧ s.agenda = .issue 0 0 :: [] ∧ mget 1400 s.ras.mhz 0 = 0 := by decide +kernel

/-- The gang of a HYPRES goes on once its resolution has taken effect. -/
theorem test_a_gang_stands_at_its_hypres :
    let at_ := fun (effect : Bool) => { ready1 with resolves := [⟨9, 1, 2, 1, [0], 4, effect⟩] }
    ((at_ false).crew? 1).map (fun c => ((at_ false).atHypres c c.holder, (at_ true).atHypres c c.holder)) = some (true, false) := by
  decide +kernel

end Sys2Proof.Tests
end

section
/-!
PROOFS. What the slices of a gang become when an instruction passes, which slices have a participating lane, and the control
instructions that are no branches (02 R37, R38; 07 R170 to R174).
-/
namespace Sys2Proof.Machine

/-! ## The slices of a gang -/

theorem modGang_getElem (c : Crew) (g : Nat) (f : Slice → Slice) (i : Nat) :
    (c.modGang g f).slices[i]? = c.slices[i]?.map fun x => if c.inGang g i then f x else x := by
  unfold Crew.modGang
  rw [List.getElem?_map]
  rcases hx : c.slices[i]? with _ | x
  · rfl
  · simp [Crew.inGang, hx]

@[simp] theorem modGang_length (c : Crew) (g : Nat) (f : Slice → Slice) : (c.modGang g f).slices.length = c.slices.length := by
  simp [Crew.modGang]

/-- A slice of the crew after `modGang`, from the slice before it. -/
theorem eq_of_modGang_getElem {c : Crew} {g : Nat} {f : Slice → Slice} {i : Nat} {x x' : Slice} (hx : c.slices[i]? = some x)
    (hx' : (c.modGang g f).slices[i]? = some x') : x' = if c.inGang g i then f x else x := by
  rw [modGang_getElem, hx, Option.map_some, Option.some.injEq] at hx'
  exact hx'.symm

/-- A change of a gang's slices after the gang has passed an instruction is one change of its slices. -/
theorem advance_modGang (c : Crew) (g n : Nat) (f : Slice → Slice) :
    (c.advance g n).modGang g f = c.modGang g fun x => f { x with pc := x.pc + BitVec.ofNat 64 n } := by
  have once : ∀ x : Slice,
      (fun y : Slice => if y.live && y.gang == g then f y else y)
          (if x.live && x.gang == g then { x with pc := x.pc + BitVec.ofNat 64 n } else x) =
        if x.live && x.gang == g then f { x with pc := x.pc + BitVec.ofNat 64 n } else x := by
    intro x
    by_cases h : (x.live && x.gang == g) = true
    · have h' : (({ x with pc := x.pc + BitVec.ofNat 64 n } : Slice).live && x.gang == g) = true := h
      simp only [if_pos h, if_pos h']
    · simp only [if_neg h]
  unfold Crew.advance Crew.modGang
  simp only [List.map_map, Function.comp_def, once]

/-- The crew whose slices have passed the instruction, and which else is `f` of the crew before it. -/
theorem passed_of_eq {c c' : Crew} {g n : Nat} {f : Crew → Crew} (h : c' = { f c with slices := (c.advance g n).slices }) :
    c.Passed c' g n f := by
  subst h
  exact ⟨rfl, modGang_length .., fun _ _ _ hx hx' => eq_of_modGang_getElem hx hx'⟩

theorem passed_advance (c : Crew) (g n : Nat) : c.Passed (c.advance g n) g n id := passed_of_eq rfl

/-! ## Starting a region (R37, R38) -/

/-- An update of the crew just put back is an update of the crew before it is put back. -/
theorem modCrew_setCrew (s : State) (c : Crew) (f : Crew → Crew) (hf : (f c).uid = c.uid) :
    (s.setCrew c).modCrew c.uid f = s.setCrew (f c) := by
  have each : ∀ x : Crew, (fun y : Crew => if y.uid == c.uid then f y else y) (if x.uid == c.uid then c else x) =
      if x.uid == (f c).uid then f c else x := by
    intro x
    rw [hf]
    by_cases h : x.uid = c.uid <;> simp [h]
  unfold State.modCrew State.setCrew
  simp only [List.map_map, Function.comp_def, each]

theorem startRegion_setCrew (s : State) (c : Crew) (g : Nat) :
    (s.setCrew c).startRegion c.uid g = { s.setCrew (c.startRegion g s.nextId) with nextId := s.nextId + 1 } :=
  congrArg (fun t : State => { t with nextId := s.nextId + 1 }) (modCrew_setCrew s c (·.startRegion g s.nextId) rfl)

/-- Passing an instruction and starting a region is what R37 and R38 say of it. -/
theorem passesIntoRegion_startRegion (s : State) (c : Crew) (g n : Nat) :
    s.PassesIntoRegion ((s.setCrew (c.advance g n)).startRegion c.uid g) c g n := by
  refine ⟨(c.advance g n).startRegion g s.nextId, startRegion_setCrew s (c.advance g n) g, ?_⟩
  rw [Crew.startRegion, advance_modGang]
  exact ⟨rfl, modGang_length .., fun _ _ _ hx hx' => eq_of_modGang_getElem hx hx'⟩

/-! ## Slices with a participating lane -/

theorem parts_isEmpty_of_none {c : Crew} {g : Nat} {gd : Guard} (h : ∀ l, ¬c.Takes g gd l) : (c.parts g gd).isEmpty = true := by
  simpa only [List.isEmpty_iff, List.eq_nil_iff_forall_not_mem, mem_parts] using h

theorem parts_not_isEmpty_of_takes {c : Crew} {g : Nat} {gd : Guard} (h : ∃ l, c.Takes g gd l) : ¬(c.parts g gd).isEmpty = true := by
  obtain ⟨l, hl⟩ := h
  exact fun he => List.ne_nil_of_mem (mem_parts.2 hl) (List.isEmpty_iff.1 he)

/-- Every lane of a list has the first one of its slice in the list. -/
theorem exists_mem_firstOfSlice {ls : List Nat} {l : Nat} (hl : l ∈ ls) : ∃ k ∈ firstOfSlice ls, k / 4 = l / 4 := by
  induction l using Nat.strongRecOn with
  | ind l ih =>
    by_cases h : ∃ k ∈ ls, k / 4 = l / 4 ∧ k < l
    · obtain ⟨k, hk, hk4, hlt⟩ := h
      obtain ⟨m, hm, hm4⟩ := ih k hlt hk
      exact ⟨m, hm, hm4.trans hk4⟩
    · exact ⟨l, mem_firstOfSlice.2 ⟨hl, fun k hk hk4 hlt => h ⟨k, hk, hk4, hlt⟩⟩, rfl⟩

theorem mem_slicesOf {ls : List Nat} {i : Nat} : i ∈ slicesOf ls ↔ ∃ l ∈ ls, l / 4 = i := by
  unfold slicesOf
  rw [List.mem_map]
  constructor
  · rintro ⟨l, hl, rfl⟩
    exact ⟨l, (mem_firstOfSlice.1 hl).1, rfl⟩
  · rintro ⟨l, hl, rfl⟩
    exact exists_mem_firstOfSlice hl

theorem mem_slicesOf_parts {c : Crew} {g : Nat} {gd : Guard} {i : Nat} :
    i ∈ slicesOf (c.parts g gd) ↔ ∃ l, c.Takes g gd l ∧ l / 4 = i := by
  simp only [mem_slicesOf, mem_parts]

theorem slicesOf_parts_ascending (c : Crew) (g : Nat) (gd : Guard) : (slicesOf (c.parts g gd)).Pairwise (· ≤ ·) := by
  have lanes : (firstOfSlice (c.parts g gd)).Pairwise (· < ·) :=
    List.Pairwise.filter _ (List.Pairwise.filter _ List.pairwise_lt_range)
  exact lanes.map (· / 4) fun _ _ h => Nat.div_le_div_right (Nat.le_of_lt h)

/-- The first of the slices with a participating lane is the lowest of them. -/
theorem slicesOf_parts_cons {c : Crew} {g : Nat} {gd : Guard} {i : Nat} {is : List Nat} (h : slicesOf (c.parts g gd) = i :: is) :
    (∃ l, c.Takes g gd l ∧ l / 4 = i) ∧ ∀ l, c.Takes g gd l → i ≤ l / 4 := by
  refine ⟨mem_slicesOf_parts.1 (h ▸ List.mem_cons_self), fun l hl => ?_⟩
  have hmem : l / 4 ∈ slicesOf (c.parts g gd) := mem_slicesOf_parts.2 ⟨l, hl, rfl⟩
  have hasc := slicesOf_parts_ascending c g gd
  rw [h] at hmem hasc
  rcases List.mem_cons.1 hmem with he | hin
  · exact Nat.le_of_eq he.symm
  · exact (List.pairwise_cons.1 hasc).1 _ hin

theorem not_takes_of_slicesOf_nil {c : Crew} {g : Nat} {gd : Guard} (h : slicesOf (c.parts g gd) = []) (l : Nat) :
    ¬c.Takes g gd l := by
  intro hl
  have hmem : l / 4 ∈ slicesOf (c.parts g gd) := mem_slicesOf_parts.2 ⟨l, hl, rfl⟩
  rw [h] at hmem
  exact List.not_mem_nil hmem

/-! ## The largest of a list -/

theorem maxOf_eq_max? (xs : List Nat) : maxOf xs = xs.max?.getD 0 := by
  have step : (fun a b : Nat => if a < b then b else a) = max := by
    funext a b
    rw [Nat.max_def]
    split <;> split <;> omega
  rw [maxOf, step, List.foldl_max, Nat.max_eq_right (Nat.zero_le _)]

theorem le_maxOf {xs : List Nat} {x : Nat} (h : x ∈ xs) : x ≤ maxOf xs := by
  rw [maxOf_eq_max?]
  exact List.le_max?_getD_of_mem h

theorem maxOf_mem {xs : List Nat} (h : maxOf xs ≠ 0) : maxOf xs ∈ xs := by
  rw [maxOf_eq_max?] at h ⊢
  cases hm : xs.max? with
  | none => simp [hm] at h
  | some m => exact List.max?_mem hm

/-! ## REGION and NOP -/

theorem exec_region {s : State} {uid g : Nat} {c : Crew} (hs : s.Issues uid g c .region) :
    exec .region s = .next ((s.setCrew (c.advance g 4)).startRegion c.uid g) :=
  asGang_of_issues hs _

theorem exec_nop {ext : Bool} {s : State} {uid g : Nat} {c : Crew} (hs : s.Issues uid g c (.nop ext)) :
    exec (.nop ext) s = .next (s.setCrew (c.advance g (if ext then 12 else 4))) :=
  asGang_of_issues hs _

/-! ## SLEEP (R171) -/

/-- The duration of a SLEEP: the largest operand among the slices with a participating lane. -/
def Crew.sleepFor (c : Crew) (g : Nat) (o : Sleep) : Nat :=
  maxOf ((slicesOf (c.parts g o.h.guard)).map fun i => (c.s32 i o.d).toNat)

theorem le_sleepFor {c : Crew} {g : Nat} {o : Sleep} {l : Nat} (hl : c.Takes g o.h.guard l) :
    (c.s32 (l / 4) o.d).toNat ≤ c.sleepFor g o :=
  le_maxOf (List.mem_map_of_mem (mem_slicesOf_parts.2 ⟨l, hl, rfl⟩))

theorem sleepFor_attained {c : Crew} {g : Nat} {o : Sleep} (h : c.sleepFor g o ≠ 0) :
    ∃ l, c.Takes g o.h.guard l ∧ (c.s32 (l / 4) o.d).toNat = c.sleepFor g o := by
  obtain ⟨i, hi, hd⟩ := List.mem_map.1 (maxOf_mem h)
  obtain ⟨l, hl, rfl⟩ := mem_slicesOf_parts.1 hi
  exact ⟨l, hl, hd⟩

/-- A slice that has passed n bytes, and waits until time t where a SLEEP lasts at all. -/
def Slice.sleeps (x : Slice) (n d t : Nat) : Slice :=
  { x with pc := x.pc + BitVec.ofNat 64 n, wait := if d = 0 then x.wait else .sleep t }

theorem exec_sleep {o : Sleep} {s : State} {uid g : Nat} {c : Crew} (hs : s.Issues uid g c (.sleep o)) :
    exec (.sleep o) s = .next (s.setCrew (c.modGang g fun x =>
      x.sleeps (CHdr.bytes o.h) (c.sleepFor g o) (s.dieTime (c.core / 32) + c.sleepFor g o))) := by
  have he : exec (.sleep o) s = .next (s.setCrew (if c.sleepFor g o = 0 then c.advance g (CHdr.bytes o.h)
      else (c.advance g (CHdr.bytes o.h)).modGang g fun x =>
        { x with wait := .sleep (s.dieTime (c.core / 32) + c.sleepFor g o) })) := asGang_of_issues hs _
  rw [he]
  by_cases hd : c.sleepFor g o = 0
  · simp only [hd, if_true, Slice.sleeps]
    rfl
  · simp only [if_neg hd, advance_modGang, Slice.sleeps]

/-! ## TRAP and SETPRIO (R172, R173; log 18) -/

theorem exec_trap {o : TrapOp} {s : State} {uid g : Nat} {c : Crew} (hs : s.Issues uid g c (.trap o)) :
    exec (.trap o) s = .next (if (c.parts g o.h.guard).isEmpty then s.setCrew (c.advance g (CHdr.bytes o.h))
      else s.trap c g (CHdr.bytes o.h) cSOFT (o.code.setWidth 64)) :=
  asGang_of_issues hs _

theorem exec_setprio {o : SetPrio} {s : State} {uid g : Nat} {c : Crew} (hs : s.Issues uid g c (.setprio o)) :
    exec (.setprio o) s = .next (s.setCrew (if (c.parts g o.h.guard).isEmpty then c.advance g (CHdr.bytes o.h)
      else { c.advance g (CHdr.bytes o.h) with urgent := o.v })) :=
  asGang_of_issues hs _

/-! ## SETSR (R49, R134, R174; log 18) -/

/-- A write of a writable special register. -/
def Crew.writeSr (c : Crew) : WReg → Word → Crew
  | .emask, w => c.writeEmask w
  | .fflags, w => c.writeFflags w
  | .frm, w => c.writeFrm w

theorem writeEmask_eq (c : Crew) (w : Word) : c.writeEmask w = { c with emask := w.setWidth 8 } := by
  rw [BitVec.setWidth_eq_extractLsb' (by decide), Crew.writeEmask]

theorem writeFflags_eq (c : Crew) (w : Word) : c.writeFflags w = { c with fflags := w.setWidth 5 } := by
  rw [BitVec.setWidth_eq_extractLsb' (by decide), Crew.writeFflags]

/-- Codes 5 to 7 are no modes and leave frm as it was. -/
theorem writeFrm_eq (c : Crew) (w : Word) : c.writeFrm w = if w.toNat % 8 ≤ 4 then { c with frm := w.setWidth 3 } else c := by
  have hc : (w.extractLsb' 0 3).toNat < 5 ↔ w.toNat % 8 ≤ 4 := by
    rw [BitVec.extractLsb'_toNat, Nat.shiftRight_zero]
    omega
  simp only [Crew.writeFrm, hc, BitVec.setWidth_eq_extractLsb' (show 3 ≤ 32 by decide)]

/-- A special register is written alike before and after the slices have passed. -/
theorem advance_writeSr (c : Crew) (g n : Nat) (r : WReg) (w : Word) :
    (c.advance g n).writeSr r w = { c.writeSr r w with slices := (c.advance g n).slices } := by
  cases r with
  | emask => rfl
  | fflags => rfl
  | frm =>
    simp only [Crew.writeSr, writeFrm_eq]
    split <;> rfl

theorem writeSr_uid (c : Crew) (r : WReg) (w : Word) : (c.writeSr r w).uid = c.uid := by
  cases r with
  | emask => rfl
  | fflags => rfl
  | frm =>
    simp only [Crew.writeSr, writeFrm_eq]
    split <;> rfl

theorem exec_setsr_of_cons {o : SetSr} {s : State} {uid g : Nat} {c : Crew} {i : Nat} {is : List Nat}
    (hs : s.Issues uid g c (.setsr o)) (h : slicesOf (c.parts g o.h.guard) = i :: is) :
    exec (.setsr o) s = .next (s.setCrew ((c.advance g (CHdr.bytes o.h)).writeSr o.r (c.s32 i o.b))) := by
  refine (asGang_of_issues hs _ : execSetsr o s = _).trans ?_
  simp only [h]
  cases o.r <;> rfl

theorem exec_setsr_of_nil {o : SetSr} {s : State} {uid g : Nat} {c : Crew} (hs : s.Issues uid g c (.setsr o))
    (h : slicesOf (c.parts g o.h.guard) = []) : exec (.setsr o) s = .next (s.setCrew (c.advance g (CHdr.bytes o.h))) := by
  refine (asGang_of_issues hs _ : execSetsr o s = _).trans ?_
  rw [h]

/-- What SETSR writes (R174). -/
theorem passed_writeSr (c : Crew) (g n : Nat) (r : WReg) (w : Word) :
    c.Passed ((c.advance g n).writeSr r w) g n fun k =>
      match r with
      | .emask => { k with emask := w.setWidth 8 }
      | .fflags => { k with fflags := w.setWidth 5 }
      | .frm => if w.toNat % 8 ≤ 4 then { k with frm := w.setWidth 3 } else k := by
  refine passed_of_eq ?_
  rw [advance_writeSr]
  cases r with
  | emask => simp only [Crew.writeSr, writeEmask_eq]
  | fflags => simp only [Crew.writeSr, writeFflags_eq]
  | frm => simp only [Crew.writeSr, writeFrm_eq]

/-! ## The statement -/

/-- Settles O18, instruction by instruction: each slice of the gang passes, and what else changes is decided by the participating
lanes. -/
theorem regionSleepTrapAndSetsr : Obligations.RegionSleepTrapAndSetsr := by
  unfold Obligations.RegionSleepTrapAndSetsr
  refine ⟨?region, ?nop, ?sleep, ?trap, ?setprio, ?setsr⟩
  case region =>
    intro s uid g c hs
    exact ⟨_, exec_region hs, passesIntoRegion_startRegion s c g 4⟩
  case nop =>
    intro ext s uid g c hs
    exact ⟨_, exec_nop hs, rfl, passed_advance ..⟩
  case sleep =>
    intro o s uid g c hs
    exact ⟨_, exec_sleep hs, rfl, rfl, c.sleepFor g o, fun _ => le_sleepFor, sleepFor_attained,
      fun _ _ _ hx hx' => eq_of_modGang_getElem hx hx'⟩
  case trap =>
    intro o s uid g c hs
    rw [exec_trap hs]
    refine ⟨fun h => ?_, fun h => ?_⟩
    · rw [if_neg (parts_not_isEmpty_of_takes h), BitVec.ofNat_toNat, cSOFT]
    · rw [if_pos (parts_isEmpty_of_none h)]
      exact ⟨_, rfl, rfl, passed_advance ..⟩
  case setprio =>
    intro o s uid g c hs
    rw [exec_setprio hs]
    by_cases h : ∃ l, c.Takes g o.h.guard l
    · rw [if_neg (parts_not_isEmpty_of_takes h)]
      exact ⟨_, rfl, rfl, fun _ => passed_of_eq rfl, fun hn => (h.elim hn).elim⟩
    · rw [if_pos (parts_isEmpty_of_none (not_exists.1 h))]
      exact ⟨_, rfl, rfl, fun h' => absurd h' h, fun _ => passed_advance ..⟩
  case setsr =>
    intro o s uid g c hs
    rcases hp : slicesOf (c.parts g o.h.guard) with _ | ⟨i, is⟩
    · have noLane := not_takes_of_slicesOf_nil hp
      exact ⟨_, exec_setsr_of_nil hs hp, rfl, fun l hl => (noLane l hl).elim, fun _ => passed_advance ..⟩
    · obtain ⟨⟨m, hm, hmi⟩, least⟩ := slicesOf_parts_cons hp
      refine ⟨_, exec_setsr_of_cons hs hp, writeSr_uid .., fun l hl hlow => ?_, fun hn => (hn m hm).elim⟩
      have lowest : l / 4 = i := Nat.le_antisymm (Nat.not_lt.1 fun hlt => hlow m (hmi ▸ hlt) hm) (least l hl)
      rw [lowest]
      exact passed_writeSr ..

end Sys2Proof.Machine
end

section
/-!
PROOFS. Exact magnitudes as rational numbers, what the statements compare them with, and rounding to a multiple of a power of two
(03 R46).
-/
namespace Sys2Proof.Machine

/-! ## The order of rational numbers as an outcome -/

/-- How two rational numbers compare. -/
def ratCmp (a b : Rat) : Ordering := if a < b then .lt else if a = b then .eq else .gt

theorem ratCmp_eq_lt {a b : Rat} : ratCmp a b = .lt ↔ a < b := by
  unfold ratCmp
  split
  · exact iff_of_true rfl ‹_›
  · split <;> exact iff_of_false (fun h => Ordering.noConfusion h) ‹_›

theorem ratCmp_eq_eq {a b : Rat} : ratCmp a b = .eq ↔ a = b := by
  unfold ratCmp
  split
  · exact iff_of_false (fun h => Ordering.noConfusion h) (Rat.ne_of_lt ‹_›)
  · split
    · exact iff_of_true rfl ‹_›
    · exact iff_of_false (fun h => Ordering.noConfusion h) ‹_›

theorem ratCmp_eq_gt {a b : Rat} : ratCmp a b = .gt ↔ b < a := by
  rcases h : ratCmp a b with _ | _ | _
  · exact iff_of_false (fun h => Ordering.noConfusion h) (Rat.not_lt.2 (Rat.le_of_lt (ratCmp_eq_lt.1 h)))
  · exact iff_of_false (fun h => Ordering.noConfusion h) (ratCmp_eq_eq.1 h ▸ Rat.lt_irrefl)
  · refine iff_of_true rfl (Rat.lt_of_le_of_ne (Rat.not_lt.1 fun hlt => ?_) fun heq => ?_)
    · rw [ratCmp_eq_lt.2 hlt] at h
      cases h
    · rw [ratCmp_eq_eq.2 heq.symm] at h
      cases h

theorem ratCmp_ne_gt {a b : Rat} : ratCmp a b ≠ .gt ↔ a ≤ b := by rw [ne_eq, ratCmp_eq_gt, Rat.not_lt]

theorem ratCmp_congr {a b c d : Rat} (hlt : a < b ↔ c < d) (heq : a = b ↔ c = d) : ratCmp a b = ratCmp c d := by
  simp only [ratCmp, hlt, heq]

theorem rat_lt_of_lt_of_le {a b c : Rat} (h : a < b) (k : b ≤ c) : a < c := by grind
theorem rat_lt_of_le_of_lt {a b c : Rat} (h : a ≤ b) (k : b < c) : a < c := by grind

/-! ## Exact magnitudes -/

/-- m × 2^e. -/
def dy (m : Nat) (e : Int) : Rat := (m : Rat) * (2 : Rat) ^ e

theorem two_zpow_pos (e : Int) : (0 : Rat) < (2 : Rat) ^ e := Rat.zpow_pos (by decide)

theorem dy_lt_dy {m n : Nat} {e : Int} : dy m e < dy n e ↔ m < n :=
  (Rat.mul_lt_mul_right (two_zpow_pos e)).trans Rat.natCast_lt_natCast
theorem dy_le_dy {m n : Nat} {e : Int} : dy m e ≤ dy n e ↔ m ≤ n := by
  rw [← Rat.not_lt, dy_lt_dy, Nat.not_lt]
theorem dy_inj {m n : Nat} {e : Int} : dy m e = dy n e ↔ m = n := by
  rw [Rat.le_antisymm_iff, dy_le_dy, dy_le_dy]
  omega
theorem ratCmp_dy (m n : Nat) (e : Int) : ratCmp (dy m e) (dy n e) = compare m n := by
  simp only [ratCmp, dy_lt_dy, dy_inj]
  rfl

@[simp] theorem dy_zero (e : Int) : dy 0 e = 0 := Rat.zero_mul _
theorem dy_zero_div (e : Int) (v : Rat) : dy 0 e / v = 0 := by rw [dy_zero, Rat.div_def, Rat.zero_mul]
theorem dy_pos {m : Nat} {e : Int} : 0 < dy m e ↔ m ≠ 0 := by
  rw [← dy_zero e, dy_lt_dy]
  omega
theorem dy_eq_zero {m : Nat} {e : Int} : dy m e = 0 ↔ m = 0 := by rw [← dy_zero e, dy_inj]

theorem dy_mul (m n : Nat) (e k : Int) : dy (m * n) (e + k) = dy m e * dy n k := by
  have hcast : ((m * n : Nat) : Rat) = (m : Rat) * (n : Rat) := Rat.natCast_mul m n
  have hpow : (2 : Rat) ^ (e + k) = (2 : Rat) ^ e * (2 : Rat) ^ k := Rat.zpow_add (by decide) e k
  unfold dy
  rw [hcast, hpow]
  grind

theorem dy_nat (n : Nat) : dy n 0 = (n : Rat) := by
  have hpow : (2 : Rat) ^ (0 : Int) = 1 := Rat.zpow_zero 2
  unfold dy
  rw [hpow, Rat.mul_one]

theorem dy_succ (n : Nat) (q : Int) : dy n (q + 1) = dy (2 * n) q := by
  have hcast : ((2 * n : Nat) : Rat) = 2 * (n : Rat) := Rat.natCast_mul 2 n
  have hpow : (2 : Rat) ^ (q + 1) = (2 : Rat) ^ q * 2 := Rat.zpow_add_one (by decide) q
  unfold dy
  rw [hcast, hpow]
  grind

theorem dy_two_mul (n : Nat) (q : Int) : dy (2 * n) q = 2 * dy n q := by
  have hcast : ((2 * n : Nat) : Rat) = 2 * (n : Rat) := Rat.natCast_mul 2 n
  unfold dy
  rw [hcast, Rat.mul_assoc]

theorem dy_add (n : Nat) (q : Int) (k : Nat) : dy n (q + k) = dy (n * 2 ^ k) q := by
  induction k generalizing n with
  | zero => rw [Nat.pow_zero, Nat.mul_one, Int.natCast_zero, Int.add_zero]
  | succ k ih => rw [Int.natCast_succ, ← Int.add_assoc, dy_succ, ih, Nat.pow_succ, Nat.mul_comm 2 n, Nat.mul_assoc, Nat.mul_comm 2]

theorem dy_eq_lower (m : Nat) {c e : Int} (h : c ≤ e) : dy m e = dy (m * 2 ^ (e - c).toNat) c := by
  rw [← dy_add, Int.toNat_of_nonneg (Int.sub_nonneg_of_le h)]
  congr 1
  omega

/-- A power of two as a multiple of a lower one. -/
theorem dy_one_add (e : Int) (k : Nat) : dy 1 (e + k) = dy (2 ^ k) e := by rw [dy_add, Nat.one_mul]

theorem dy_mono {m n : Nat} {e e' : Int} (h : m ≤ n) (he : e ≤ e') : dy m e ≤ dy n e' := by
  rw [dy_eq_lower n he, dy_le_dy]
  exact Nat.le_trans h (Nat.le_mul_of_pos_right n (Nat.two_pow_pos _))

theorem dy_one_le_dy_one {e e' : Int} (h : e ≤ e') : dy 1 e ≤ dy 1 e' := dy_mono (Nat.le_refl 1) h

theorem lt_of_dy_one_lt {e e' : Int} (h : dy 1 e < dy 1 e') : e < e' :=
  Int.not_le.1 fun hle => Rat.not_lt.2 (dy_one_le_dy_one hle) h

theorem dy_one_lt_dy_one {e e' : Int} (h : e < e') : dy 1 e < dy 1 e' := by
  refine rat_lt_of_lt_of_le (b := dy 1 (e + 1)) ?_ (dy_one_le_dy_one h)
  rw [dy_succ, dy_lt_dy]
  omega

theorem dyCmp_eq_ratCmp (m : Nat) (e : Int) (m' : Nat) (e' : Int) : dyCmp m e m' e' = ratCmp (dy m e) (dy m' e') := by
  rw [dyCmp, dy_eq_lower m (Int.min_le_left e e'), dy_eq_lower m' (Int.min_le_right e e'), ratCmp_dy]

theorem dyLt_iff (m : Nat) (e : Int) (m' : Nat) (e' : Int) : dyLt m e m' e' = true ↔ dy m e < dy m' e' := by
  unfold dyLt
  by_cases h : e ≤ e'
  · rw [if_pos h, decide_eq_true_iff, dy_eq_lower m' h, dy_lt_dy]
  · rw [if_neg h, decide_eq_true_iff, dy_eq_lower m (Int.le_of_lt (Int.not_le.1 h)), dy_lt_dy]

/-- The magnitude x is the rational number v. -/
def HasValue (x : Exact) (v : Rat) : Prop := ∀ n q, x n q = ratCmp v (dy n q)

theorem hasValue_exactQuotient (m : Nat) (e : Int) {m' : Nat} (e' : Int) (h : m' ≠ 0) :
    HasValue (exactQuotient m e m' e') (dy m e / dy m' e') := by
  intro n q
  have hpos : 0 < dy m' e' := dy_pos.2 h
  have hmul : dy (n * m') (e' + q) = dy n q * dy m' e' := by rw [Int.add_comm, dy_mul]
  have hdiv : dy m e / dy m' e' * dy m' e' = dy m e := Rat.div_mul_cancel fun h0 => Rat.ne_of_lt hpos h0.symm
  rw [exactQuotient, dyCmp_eq_ratCmp, hmul]
  refine ratCmp_congr (Rat.div_lt_iff hpos).symm ⟨fun heq => ?_, fun heq => ?_⟩
  · rw [heq, Rat.mul_div_cancel fun h0 => Rat.ne_of_lt hpos h0.symm]
  · rw [← heq, hdiv]

namespace HasValue
variable {x : Exact} {v : Rat} (h : HasValue x v)
include h
theorem lt_iff {n : Nat} {q : Int} : x n q = .lt ↔ v < dy n q := by rw [h, ratCmp_eq_lt]
theorem ne_lt_iff {n : Nat} {q : Int} : x n q ≠ .lt ↔ dy n q ≤ v := by rw [ne_eq, h.lt_iff, Rat.not_lt]
theorem eq_iff {n : Nat} {q : Int} : x n q = .eq ↔ v = dy n q := by rw [h, ratCmp_eq_eq]
end HasValue

/-! ## A computed magnitude stands for an exact one -/

/-- m × 2^e is the magnitude v, or with the sticky mark v lies strictly between it and (m + 1) × 2^e. -/
def Stands (m : Nat) (e : Int) (sticky : Bool) (v : Rat) : Prop :=
  if sticky then dy m e < v ∧ v < dy (m + 1) e else v = dy m e

/-- The significand and the exponent that roundAt rounds: with the sticky mark half a unit more. -/
def stickyM (m : Nat) (sticky : Bool) : Nat := if sticky then 2 * m + 1 else m
def stickyE (e : Int) (sticky : Bool) : Int := if sticky then e - 1 else e

/-- No multiple of a quantum as large as the computed one lies between the magnitude and its stand-in. -/
theorem Stands.ratCmp_eq {m : Nat} {e : Int} {sticky : Bool} {v : Rat} (h : Stands m e sticky v) (n : Nat) {p : Int}
    (hp : sticky = true → e ≤ p) : ratCmp v (dy n p) = ratCmp (dy (stickyM m sticky) (stickyE e sticky)) (dy n p) := by
  cases sticky with
  | false =>
    have hv : v = dy m e := h
    rw [hv]
    rfl
  | true =>
    obtain ⟨hlo, hhi⟩ : dy m e < v ∧ v < dy (m + 1) e := h
    have mid : ∀ k, dy k e = dy (2 * k) (e - 1) := fun k => by rw [← dy_succ, Int.sub_add_cancel]
    show _ = ratCmp (dy (2 * m + 1) (e - 1)) _
    rw [dy_eq_lower n (hp rfl)]
    generalize n * 2 ^ (p - e).toNat = N
    rw [mid N, ratCmp_dy, ← mid]
    by_cases hN : m < N
    · have h1 : v < dy N e := rat_lt_of_lt_of_le hhi (dy_le_dy.2 hN)
      rw [ratCmp_eq_lt.2 h1, eq_comm, Nat.compare_eq_lt]
      omega
    · have h1 : dy N e < v := rat_lt_of_le_of_lt (dy_le_dy.2 (Nat.not_lt.1 hN)) hlo
      rw [ratCmp_eq_gt.2 h1, eq_comm, Nat.compare_eq_gt]
      omega

/-- Sticky or not, the magnitude is at least the computed one and less than a unit above it. -/
theorem Stands.bounds {m : Nat} {e : Int} {sticky : Bool} {v : Rat} (h : Stands m e sticky v) :
    dy m e ≤ v ∧ v < dy (m + 1) e := by
  cases sticky with
  | false =>
    have hv : v = dy m e := h
    rw [hv]
    exact ⟨Rat.le_refl, dy_lt_dy.2 m.lt_succ_self⟩
  | true =>
    obtain ⟨hlo, hhi⟩ : dy m e < v ∧ v < dy (m + 1) e := h
    exact ⟨Rat.le_of_lt hlo, hhi⟩

/-! ## Rounding to a quantum (R46) -/

theorem compare_add_left (a b c : Nat) : compare (a + b) (a + c) = compare b c := by
  simp only [Nat.compare_eq_ite_lt, Nat.add_lt_add_iff_left]

theorem compare_two_mul (a b : Nat) : compare (2 * a) (2 * b) = compare a b := by
  simp only [Nat.compare_eq_ite_lt, Nat.mul_lt_mul_left Nat.two_pos]

/-- A magnitude of k units and a remainder of r parts in 2^(j+1) of one: how it compares with the multiple below it, the one above
it and the middle between them. -/
theorem ratCmp_units {k r j : Nat} (q : Int) (hr : r < 2 ^ (j + 1)) {v : Rat}
    (hv : v = dy (k * 2 ^ (j + 1) + r) (q - (j + 1 : Nat))) :
    ratCmp v (dy k q) = compare r 0 ∧ ratCmp v (dy (k + 1) q) = .lt ∧
      ratCmp v (dy (2 * k + 1) (q - 1)) = compare (2 * r) (2 ^ (j + 1)) := by
  subst hv
  have units : ∀ n, dy n q = dy (n * 2 ^ (j + 1)) (q - (j + 1 : Nat)) := fun n => by
    rw [dy_eq_lower n (show q - (j + 1 : Nat) ≤ q by omega), show (q - (q - (j + 1 : Nat))).toNat = j + 1 by omega]
  have halves : ∀ n, dy n (q - 1) = dy (n * 2 ^ j) (q - (j + 1 : Nat)) := fun n => by
    rw [dy_eq_lower _ (show q - (j + 1 : Nat) ≤ q - 1 by omega), show (q - 1 - (q - (j + 1 : Nat))).toNat = j by omega]
  refine ⟨?below, ?above, ?middle⟩
  case below =>
    rw [units, ratCmp_dy]
    exact compare_add_left _ r 0
  case above =>
    rw [units, ratCmp_dy, Nat.compare_eq_lt, Nat.succ_mul]
    omega
  case middle =>
    have hmid : (2 * k + 1) * 2 ^ j = k * 2 ^ (j + 1) + 2 ^ j := by
      rw [Nat.pow_succ, Nat.succ_mul, Nat.mul_comm 2 k, Nat.mul_assoc, Nat.mul_comm 2]
    rw [halves, ratCmp_dy, hmid, compare_add_left, Nat.pow_succ', compare_two_mul]

/-- A magnitude that is a multiple of the quantum is its own neighbour. -/
theorem neighbour_of_exact (rm : RMode) (neg : Bool) {x : Exact} {q : Int} {k : Nat} (h : x k q = .eq)
    (above : x (k + 1) q = .lt) : Neighbour rm neg x q k :=
  ⟨k, by rw [h]; decide, above, (if_pos h).symm⟩

/-- Rounding by the remainder chooses the neighbour, and the remainder says whether it is exact. -/
theorem neighbour_of_remainder (rm : RMode) (neg : Bool) {x : Exact} {q : Int} {k r h : Nat} (hh : 0 < h)
    (below : x k q = compare r 0) (above : x (k + 1) q = .lt) (middle : x (2 * k + 1) (q - 1) = compare (2 * r) h) {n : Nat}
    (hn : n = if rm.up neg (k % 2 == 1) (r != 0) (compare (2 * r) h) then k + 1 else k) :
    Neighbour rm neg x q n ∧ ((r != 0) = true ↔ x n q ≠ .eq) := by
  by_cases hr : r = 0
  · -- no remainder: every mode keeps the multiple
    subst hr
    have hlt : compare (2 * 0) h = .lt := Nat.compare_eq_lt.2 hh
    have hnk : n = k := by
      rw [hn, hlt]
      cases rm <;> rfl
    have hk : x k q = .eq := below
    rw [hnk]
    exact ⟨neighbour_of_exact rm neg hk above, iff_of_false (fun h => Bool.noConfusion h) fun h => h hk⟩
  · have hk : x k q = .gt := below.trans (Nat.compare_eq_gt.2 (Nat.pos_of_ne_zero hr))
    have hne : (r != 0) = true := bne_iff_ne.2 hr
    have hk_ne : x k q ≠ .eq := by rw [hk]; decide
    refine ⟨⟨k, by rw [hk]; decide, above, ?_⟩, iff_of_true hne ?_⟩
    · rw [if_neg hk_ne, hn, hne, ← middle]
      cases rm with
      | rne =>
        rcases x (2 * k + 1) (q - 1) with _ | _ | _
        · rfl
        · rcases Nat.mod_two_eq_zero_or_one k with h2 | h2 <;> rw [h2] <;> rfl
        · rfl
      | rn => rcases x (2 * k + 1) (q - 1) with _ | _ | _ <;> rfl
      | rz => rfl
      | ru => cases neg <;> rfl
      | rd => cases neg <;> rfl
    · rw [hn]
      split
      · rw [above]
        exact fun h => Ordering.noConfusion h
      · exact hk_ne

theorem roundAt_eq (rm : RMode) (neg : Bool) (m : Nat) (e : Int) (sticky : Bool) (q : Int) :
    roundAt rm neg m e sticky q = roundAt rm neg (stickyM m sticky) (stickyE e sticky) false q := by
  cases sticky <;> rfl

theorem roundAt_of_le (rm : RMode) (neg : Bool) (m : Nat) {e q : Int} (h : q ≤ e) :
    roundAt rm neg m e false q = (m * 2 ^ (e - q).toNat, false) := if_pos h

theorem roundAt_of_gt (rm : RMode) (neg : Bool) (m : Nat) {e q : Int} (h : e < q) {P : Nat} (hP : P = 2 ^ (q - e).toNat) :
    roundAt rm neg m e false q =
      (if rm.up neg (m / P % 2 == 1) (m % P != 0) (compare (2 * (m % P)) P) then m / P + 1 else m / P, m % P != 0) := by
  rw [hP, ← Nat.shiftRight_eq_div_pow]
  exact if_neg (Int.not_le.2 h)

/-- roundAt chooses the neighbour of every magnitude its arguments stand for, and says whether it is exact (R46). With the sticky
mark the quantum must be above the unit computed. -/
theorem roundAt_neighbour (rm : RMode) (neg : Bool) {m : Nat} {e q : Int} {sticky : Bool} {x : Exact} {v : Rat} (hx : HasValue x v)
    (hv : Stands m e sticky v) (hq : sticky = true → e < q) :
    Neighbour rm neg x q (roundAt rm neg m e sticky q).1 ∧
      ((roundAt rm neg m e sticky q).2 = true ↔ x (roundAt rm neg m e sticky q).1 q ≠ .eq) := by
  have standIn : ∀ n p, q - 1 ≤ p → x n p = ratCmp (dy (stickyM m sticky) (stickyE e sticky)) (dy n p) := fun n p hp => by
    rw [hx, hv.ratCmp_eq n fun hs => by have := hq hs; omega]
  rw [roundAt_eq]
  generalize stickyM m sticky = M at standIn ⊢
  generalize stickyE e sticky = E at standIn ⊢
  by_cases hE : q ≤ E
  · -- a multiple of the quantum already
    rw [roundAt_of_le rm neg M hE]
    have hexact : x (M * 2 ^ (E - q).toNat) q = .eq := by
      rw [standIn _ _ (by omega), dy_eq_lower M hE, ratCmp_dy, Nat.compare_eq_eq]
    have above : x (M * 2 ^ (E - q).toNat + 1) q = .lt := by
      rw [standIn _ _ (by omega), dy_eq_lower M hE, ratCmp_dy, Nat.compare_eq_lt]
      exact Nat.lt_succ_self _
    exact ⟨neighbour_of_exact rm neg hexact above, iff_of_false (fun h => Bool.noConfusion h) fun h => h hexact⟩
  · obtain ⟨j, hj⟩ : ∃ j, (q - E).toNat = j + 1 := ⟨(q - E).toNat - 1, by omega⟩
    rw [roundAt_of_gt rm neg M (Int.not_le.1 hE) (P := 2 ^ (j + 1)) (by rw [hj])]
    have hv' : dy M E = dy (M / 2 ^ (j + 1) * 2 ^ (j + 1) + M % 2 ^ (j + 1)) (q - (j + 1 : Nat)) := by
      rw [Nat.div_add_mod', show q - (j + 1 : Nat) = E by omega]
    obtain ⟨below, above, middle⟩ := ratCmp_units q (Nat.mod_lt M (Nat.two_pow_pos _)) hv'
    exact neighbour_of_remainder rm neg (Nat.two_pow_pos _) ((standIn _ _ (by omega)).trans below)
      ((standIn _ _ (by omega)).trans above) ((standIn _ _ (by omega)).trans middle) rfl

/-- A neighbour and the magnitude: one is less than a unit from the other. -/
theorem Neighbour.bounds {rm : RMode} {neg : Bool} {x : Exact} {q : Int} {n : Nat} {v : Rat} (hx : HasValue x v)
    (h : Neighbour rm neg x q n) : ∃ k, dy k q ≤ v ∧ v < dy (k + 1) q ∧ k ≤ n ∧ n ≤ k + 1 := by
  obtain ⟨k, hlo, hhi, hn⟩ := h
  refine ⟨k, hx.ne_lt_iff.1 hlo, hx.lt_iff.1 hhi, ?_⟩
  have parity : k % 2 = 0 ∨ k % 2 = 1 := Nat.mod_two_eq_zero_or_one k
  rw [hn]
  split
  · omega
  · cases rm with
    | rz => exact ⟨Nat.le_refl k, k.le_succ⟩
    | rne | rn | ru | rd =>
      dsimp only
      split <;> omega

end Sys2Proof.Machine
end

section
/-!
PROOFS. The codes of a floating-point format and rounding once to it (03 R42, R47, R48).
-/
namespace Sys2Proof.Machine

/-! ## Codes of a format (R42) -/

/-- The largest finite code is normal, and no code up to it is an infinity or a NaN. -/
structure FFmt.Regular (f : FFmt) : Prop where
  normal : 2 ^ f.fb ≤ f.maxCode
  finite : f.maxCode < if f.inf then (2 ^ f.eb - 1) * 2 ^ f.fb else 2 ^ f.signBit - 1

theorem regular_f32 : f32.Regular := ⟨by decide, by decide⟩
theorem regular_e4m3 : e4m3.Regular := ⟨by decide, by decide⟩
theorem regular_e5m2 : e5m2.Regular := ⟨by decide, by decide⟩

/-- The quantum of subnormal numbers. -/
def FFmt.minQ (f : FFmt) : Int := 1 - (f.bias : Int) - f.fb

/-- Significand and exponent of a magnitude's code: exponent fields 0 and 1 share the lowest quantum. -/
def FFmt.sig (f : FFmt) (c : Nat) : Nat := c - (c / 2 ^ f.fb - 1) * 2 ^ f.fb
def FFmt.expo (f : FFmt) (c : Nat) : Int := (c / 2 ^ f.fb - 1 : Nat) + f.minQ

/-- The magnitude of a code. -/
def FFmt.mag (f : FFmt) (c : Nat) : Rat := dy (f.sig c) (f.expo c)

/-- A significand of j quanta above the lowest has the code that `FFmt.code` gives it, the next power of two included. -/
theorem mag_of_quantum (f : FFmt) {n j : Nat} (hn : n ≤ 2 ^ (f.fb + 1)) (hj : j = 0 ∨ 2 ^ f.fb ≤ n) :
    f.mag (j * 2 ^ f.fb + n) = dy n (j + f.minQ) := by
  have hpos : 0 < 2 ^ f.fb := Nat.two_pow_pos _
  have hdiv : (j * 2 ^ f.fb + n) / 2 ^ f.fb = j + n / 2 ^ f.fb := by
    rw [Nat.add_comm, Nat.add_mul_div_right _ _ hpos, Nat.add_comm]
  rw [Nat.pow_succ'] at hn
  unfold FFmt.mag FFmt.sig FFmt.expo
  rw [hdiv]
  rcases Nat.lt_or_ge n (2 ^ f.fb) with h | h
  · obtain rfl : j = 0 := hj.resolve_right (by omega)
    rw [Nat.div_eq_of_lt h, Nat.zero_mul, Nat.zero_add, Nat.zero_add, Nat.zero_sub, Nat.sub_zero]
  rcases Nat.lt_or_ge n (2 * 2 ^ f.fb) with h2 | h2
  · have h1 : n / 2 ^ f.fb = 1 := Nat.div_eq_of_lt_le (by omega) (by omega)
    rw [h1, Nat.add_sub_cancel, Nat.add_sub_cancel_left]
  · obtain rfl : n = 2 * 2 ^ f.fb := Nat.le_antisymm hn h2
    have hsig : j * 2 ^ f.fb + 2 * 2 ^ f.fb - (j + 1) * 2 ^ f.fb = 2 ^ f.fb := by
      rw [Nat.succ_mul j]
      omega
    have hexpo : ((j + 1 : Nat) : Int) + f.minQ = j + f.minQ + 1 := by omega
    rw [Nat.mul_div_cancel _ hpos, show j + 2 - 1 = j + 1 from rfl, hsig, hexpo, dy_succ]

theorem quantum_of_code (f : FFmt) (c : Nat) :
    ∃ j n, c = j * 2 ^ f.fb + n ∧ n < 2 ^ (f.fb + 1) ∧ (j = 0 ∨ 2 ^ f.fb ≤ n) := by
  have hmod : c % 2 ^ f.fb < 2 ^ f.fb := Nat.mod_lt _ (Nat.two_pow_pos _)
  have hc := Nat.div_add_mod' c (2 ^ f.fb)
  rw [Nat.pow_succ']
  rcases h : c / 2 ^ f.fb with _ | j
  · exact ⟨0, c, by omega, by rw [h] at hc; omega, .inl rfl⟩
  · rw [h, Nat.succ_mul] at hc
    exact ⟨j, 2 ^ f.fb + c % 2 ^ f.fb, by omega, by omega, .inr (by omega)⟩

theorem mag_lt_succ (f : FFmt) (c : Nat) : f.mag c < f.mag (c + 1) := by
  obtain ⟨j, n, rfl, hn, hj⟩ := quantum_of_code f c
  rw [Nat.add_assoc, mag_of_quantum f (Nat.le_of_lt hn) hj, mag_of_quantum f hn (by omega), dy_lt_dy]
  exact n.lt_succ_self

/-- Codes are in the order of their magnitudes. -/
theorem mag_le_mag (f : FFmt) {c d : Nat} (h : c ≤ d) : f.mag c ≤ f.mag d := by
  induction h with
  | refl => exact Rat.le_refl
  | step _ ih => exact Rat.le_trans ih (Rat.le_of_lt (mag_lt_succ f _))

theorem le_of_mag_le (f : FFmt) {c d : Nat} (h : f.mag c ≤ f.mag d) : c ≤ d :=
  Nat.not_lt.1 fun hlt => Rat.not_lt.2 h (rat_lt_of_lt_of_le (mag_lt_succ f d) (mag_le_mag f hlt))

theorem FFmt.Regular.lt_signBit {f : FFmt} (hf : f.Regular) : f.maxCode < 2 ^ f.signBit := by
  have h := hf.finite
  unfold FFmt.signBit at *
  split at h
  · rw [Nat.pow_add]
    exact Nat.lt_of_lt_of_le h (Nat.mul_le_mul_right _ (Nat.sub_le _ _))
  · omega

theorem FFmt.Regular.eb_pos {f : FFmt} (hf : f.Regular) : 0 < f.eb := by
  rcases Nat.eq_zero_or_pos f.eb with h | h
  · have := hf.lt_signBit
    rw [FFmt.signBit, h, Nat.zero_add] at this
    exact absurd hf.normal (Nat.not_le.2 this)
  · exact h

theorem testBit_signed (f : FFmt) {c : Nat} (h : c < 2 ^ f.signBit) (neg : Bool) : (f.signed neg c).testBit f.signBit = neg := by
  cases neg with
  | false => exact Nat.testBit_lt_two_pow h
  | true =>
    show (c + 2 ^ f.signBit).testBit _ = _
    rw [Nat.add_comm, Nat.testBit_two_pow_add_eq, Nat.testBit_lt_two_pow h]
    rfl

theorem signed_mod (f : FFmt) (neg : Bool) (c : Nat) : f.signed neg c % 2 ^ f.fb = c % 2 ^ f.fb := by
  cases neg with
  | false => rfl
  | true =>
    show (c + 2 ^ f.signBit) % _ = _
    rw [FFmt.signBit, Nat.pow_add, Nat.add_mul_mod_self_right]

theorem exponentField_signed {f : FFmt} (hf : 0 < f.eb) {c : Nat} (h : c < 2 ^ f.signBit) (neg : Bool) :
    bits (f.signed neg c) (f.signBit - 1) f.fb = c / 2 ^ f.fb := by
  have hlt : c / 2 ^ f.fb < 2 ^ f.eb := by
    rw [Nat.div_lt_iff_lt_mul (Nat.two_pow_pos _), ← Nat.pow_add]
    exact h
  have hw : f.signBit - 1 + 1 - f.fb = f.eb := by unfold FFmt.signBit; omega
  rw [bits, hw, Nat.shiftRight_eq_div_pow]
  cases neg with
  | false => exact Nat.mod_eq_of_lt hlt
  | true =>
    show (c + 2 ^ f.signBit) / _ % _ = _
    rw [FFmt.signBit, Nat.pow_add, Nat.add_mul_div_right _ _ (Nat.two_pow_pos _), Nat.add_mod_right, Nat.mod_eq_of_lt hlt]

/-- A code up to the largest finite one reads as its magnitude, under either sign. -/
theorem read_signed {f : FFmt} (hf : f.Regular) {c : Nat} (h : c ≤ f.maxCode) (neg : Bool) :
    f.read (f.signed neg c) = .fin neg (f.sig c) (f.expo c) := by
  have hs : c < 2 ^ f.signBit := Nat.lt_of_le_of_lt h hf.lt_signBit
  have hc := Nat.div_add_mod' c (2 ^ f.fb)
  have hmod : c % 2 ^ f.fb < 2 ^ f.fb := Nat.mod_lt _ (Nat.two_pow_pos _)
  have hfin := Nat.lt_of_le_of_lt h hf.finite
  have hpow : 0 < 2 ^ f.eb := Nat.two_pow_pos _
  -- neither a NaN of a format without infinities nor an infinity or NaN of the others
  have h1 : (!f.inf && c / 2 ^ f.fb == 2 ^ f.eb - 1 && c % 2 ^ f.fb == 2 ^ f.fb - 1) = false := by
    refine Bool.eq_false_iff.2 fun hne => ?_
    simp only [Bool.and_eq_true, Bool.not_eq_true', beq_iff_eq] at hne
    obtain ⟨⟨hi, he⟩, hm⟩ := hne
    rw [hi, if_neg (by simp), FFmt.signBit, Nat.pow_add] at hfin
    rw [he, Nat.sub_mul, Nat.one_mul] at hc
    have : 2 ^ f.fb ≤ 2 ^ f.eb * 2 ^ f.fb := Nat.le_mul_of_pos_left _ hpow
    omega
  have h2 : (f.inf && c / 2 ^ f.fb == 2 ^ f.eb - 1) = false := by
    refine Bool.eq_false_iff.2 fun hne => ?_
    simp only [Bool.and_eq_true, beq_iff_eq] at hne
    obtain ⟨hi, he⟩ := hne
    rw [hi, if_pos rfl] at hfin
    rw [he] at hc
    omega
  unfold FFmt.read
  simp only [testBit_signed f hs, signed_mod, exponentField_signed hf.eb_pos hs, h1, h2, Bool.false_eq_true, if_false]
  unfold FFmt.sig FFmt.expo FFmt.minQ
  rcases he : c / 2 ^ f.fb with _ | k
  · rw [he] at hc
    simp only [beq_self_eq_true, if_true, FV.fin.injEq, true_and]
    omega
  · rw [he, Nat.succ_mul] at hc
    simp only [Nat.add_eq_zero_iff, Nat.one_ne_zero, and_false, beq_iff_eq, if_false, FV.fin.injEq, true_and, Nat.add_sub_cancel]
    omega

theorem maxFin_eq {f : FFmt} (hf : f.Regular) : f.maxFin = (f.sig f.maxCode, f.expo f.maxCode) := by
  have h := read_signed hf (Nat.le_refl _) false
  rw [show f.signed false f.maxCode = f.maxCode from rfl] at h
  rw [FFmt.maxFin, h]

/-! ## Rounding once to a format (R47, R48) -/

/-- The leading power of a magnitude that a computed one stands for. -/
theorem Stands.top {m : Nat} {e : Int} {sticky : Bool} {v : Rat} (h : Stands m e sticky v) (hm : m ≠ 0) :
    dy 1 (m.log2 + e) ≤ v ∧ v < dy 1 (m.log2 + e + 1) := by
  constructor
  · rw [Int.add_comm, dy_one_add]
    exact Rat.le_trans (dy_le_dy.2 (Nat.log2_self_le hm)) h.bounds.1
  · rw [show (m.log2 : Int) + e + 1 = e + (m.log2 + 1 : Nat) by omega, dy_one_add]
    exact rat_lt_of_lt_of_le h.bounds.2 (dy_le_dy.2 Nat.lt_log2_self)

/-- The neighbour of a magnitude below 2^k quanta is at most 2^k. -/
theorem Neighbour.le_of_lt {rm : RMode} {neg : Bool} {x : Exact} {q p : Int} {n k : Nat} {v : Rat} (hx : HasValue x v)
    (h : Neighbour rm neg x q n) (hv : v < dy 1 p) (hp : p ≤ q + k) : n ≤ 2 ^ k := by
  obtain ⟨i, hlo, -, -, hn⟩ := h.bounds hx
  have : dy i q < dy (2 ^ k) q := by
    rw [← dy_one_add]
    exact rat_lt_of_le_of_lt hlo (rat_lt_of_lt_of_le hv (dy_one_le_dy_one hp))
  exact Nat.le_trans hn (dy_lt_dy.1 this)

/-- The neighbour of a magnitude of at least 2^k quanta is at least 2^k. -/
theorem Neighbour.le_of_ge {rm : RMode} {neg : Bool} {x : Exact} {q p : Int} {n k : Nat} {v : Rat} (hx : HasValue x v)
    (h : Neighbour rm neg x q n) (hv : dy 1 p ≤ v) (hp : q + k ≤ p) : 2 ^ k ≤ n := by
  obtain ⟨i, -, hhi, hn, -⟩ := h.bounds hx
  have : dy (2 ^ k) q < dy (i + 1) q := by
    rw [← dy_one_add]
    exact rat_lt_of_le_of_lt (dy_one_le_dy_one hp) (rat_lt_of_le_of_lt hv hhi)
  exact Nat.le_trans (Nat.lt_succ_iff.1 (dy_lt_dy.1 this)) hn

/-- Rounding with unbounded exponent does not pass the next power of two. -/
theorem Neighbour.le_next_power {f : FFmt} {rm : RMode} {neg : Bool} {x : Exact} {top : Int} {n : Nat} {v : Rat} (hx : HasValue x v)
    (h : Neighbour rm neg x (top - f.fb) n) (hv : v < dy 1 (top + 1)) : dy n (top - f.fb) ≤ dy 1 (top + 1) := by
  have hle : n ≤ 2 ^ (f.fb + 1) := h.le_of_lt hx hv (by omega)
  rw [show top + 1 = top - f.fb + (f.fb + 1 : Nat) by omega, dy_one_add, dy_le_dy]
  exact hle

theorem mag_code {f : FFmt} {n : Nat} {q : Int} (hq : f.minQ ≤ q) (hn : n ≤ 2 ^ (f.fb + 1))
    (hj : q = f.minQ ∨ 2 ^ f.fb ≤ n) : f.mag (f.code n q) = dy n q := by
  have hc : f.code n q = (q - f.minQ).toNat * 2 ^ f.fb + n := rfl
  rw [hc, mag_of_quantum f hn (hj.imp_left fun h => by omega), show ((q - f.minQ).toNat : Int) + f.minQ = q by omega]

theorem overflow_eq {f : FFmt} (rm : RMode) (neg : Bool) {sat : Bool} (h : sat = true ∨ f.inf = true) :
    f.overflow rm neg sat = if sat = true ∨ rm = .rz ∨ (rm = .ru ∧ neg = true) ∨ (rm = .rd ∧ neg = false)
      then f.signed neg f.maxCode else f.infinity neg := by
  unfold FFmt.overflow
  cases sat with
  | true => rfl
  | false =>
    have hi : f.inf = true := h.resolve_left Bool.false_ne_true
    rw [hi]
    cases rm <;> cases neg <;> rfl

/-- The unit in which a magnitude with leading power top is delivered. -/
def FFmt.unit (f : FFmt) (top : Int) : Int := max (top - f.fb) f.minQ

theorem unit_cases (f : FFmt) (top : Int) :
    f.unit top = top - f.fb ∨ (top - f.fb < f.minQ ∧ f.unit top = f.minQ) := by
  unfold FFmt.unit
  omega

/-- The neighbour in the delivered unit has a finite code where the magnitude rounded with unbounded exponent is no larger than the
largest finite one. -/
theorem code_le_maxCode {f : FFmt} (hf : f.Regular) {rm : RMode} {neg : Bool} {x : Exact} {v : Rat} {top : Int} {n : Nat}
    (hx : HasValue x v) (hlo : dy 1 top ≤ v) (hhi : v < dy 1 (top + 1)) (hn : Neighbour rm neg x (f.unit top) n)
    (hmax : f.unit top = top - f.fb → dy n (top - f.fb) ≤ f.mag f.maxCode) :
    f.code n (f.unit top) ≤ f.maxCode ∧ f.mag (f.code n (f.unit top)) = dy n (f.unit top) := by
  have hq : f.minQ ≤ f.unit top := Int.le_max_right _ _
  have hq' : top - f.fb ≤ f.unit top := Int.le_max_left _ _
  have hn2 : n ≤ 2 ^ (f.fb + 1) := hn.le_of_lt hx hhi (by omega)
  have hmag : f.mag (f.code n (f.unit top)) = dy n (f.unit top) := by
    refine mag_code hq hn2 ((unit_cases f top).symm.imp And.right fun h => ?_)
    exact hn.le_of_ge hx hlo (by omega)
  refine ⟨le_of_mag_le f ?_, hmag⟩
  rw [hmag]
  rcases unit_cases f top with h | ⟨h, hmin⟩
  · rw [h]
    exact hmax h
  · -- a subnormal magnitude is at most the smallest normal one
    have hn1 : n ≤ 2 ^ f.fb := hn.le_of_lt hx hhi (by omega)
    have hcode := mag_of_quantum f (j := 0) hn2 (.inl rfl)
    rw [Nat.zero_mul, Nat.zero_add, Int.natCast_zero, Int.zero_add] at hcode
    rw [hmin, ← hcode]
    exact mag_le_mag f (Nat.le_trans hn1 hf.normal)

theorem signed_lt {f : FFmt} {c : Nat} (h : c < 2 ^ f.signBit) (neg : Bool) : f.signed neg c < 2 ^ (f.signBit + 1) := by
  unfold FFmt.signed
  split <;> omega

/-- `FFmt.round` of a magnitude with leading power top, from its roundings with unbounded exponent and in the delivered unit. -/
theorem round_eq (f : FFmt) (rm : RMode) (sat neg : Bool) {m : Nat} (e : Int) (sticky : Bool) (hm : m ≠ 0) {top : Int}
    (htop : top = m.log2 + e) : f.round rm sat neg m e sticky =
      if dyLt f.maxFin.1 f.maxFin.2 (roundAt rm neg m e sticky (top - f.fb)).1 (top - f.fb) then (f.overflow rm neg sat, 5)
      else (f.signed neg (f.code (roundAt rm neg m e sticky (f.unit top)).1 (f.unit top)),
        if (roundAt rm neg m e sticky (f.unit top)).2 then
          (if dyLt (roundAt rm neg m e sticky (top - f.fb)).1 (top - f.fb) 1 (1 - (f.bias : Int)) then 3 else 1) else 0) := by
  have hunit : (if top - f.fb < 1 - (f.bias : Int) - f.fb then 1 - (f.bias : Int) - f.fb else top - f.fb) = f.unit top := by
    unfold FFmt.unit FFmt.minQ
    split <;> omega
  simp only [FFmt.round, if_neg hm, ← htop, hunit]
  rfl

/-- `FFmt.round` rounds every magnitude its arguments stand for once to the format. -/
theorem round_rounded {f : FFmt} (hf : f.Regular) (rm : RMode) {sat : Bool} (neg : Bool) {m : Nat} {e : Int} {sticky : Bool}
    {x : Exact} {v : Rat} (hx : HasValue x v) (hv : Stands m e sticky v) (hm : m ≠ 0) (hs : sticky = true → f.fb < m.log2)
    (hsat : sat = true ∨ f.inf = true) : f.Rounded rm sat neg x (f.round rm sat neg m e sticky) := by
  obtain ⟨hlo, hhi⟩ := hv.top hm
  generalize htop : (m.log2 : Int) + e = top at hlo hhi
  have fine : ∀ q, top - f.fb ≤ q → sticky = true → e < q := fun q hq hst => by
    have := hs hst
    omega
  obtain ⟨hnU, -⟩ := roundAt_neighbour rm neg hx hv (fine _ (Int.le_refl _))
  obtain ⟨hn, hinexact⟩ := roundAt_neighbour rm neg hx hv (fine (f.unit top) (Int.le_max_left _ _))
  rw [round_eq f rm sat neg e sticky hm htop.symm]
  generalize hrU : (roundAt rm neg m e sticky (top - f.fb)).1 = nU at hnU ⊢
  refine ⟨top, nU, hx.ne_lt_iff.2 hlo, hx.lt_iff.2 hhi, hnU, fun hgt => ?overflow, fun hle => ?delivered⟩
  case overflow =>
    rw [dyCmp_eq_ratCmp, ratCmp_eq_gt] at hgt
    rw [if_pos ((dyLt_iff ..).2 hgt), overflow_eq rm neg hsat]
  case delivered =>
    rw [dyCmp_eq_ratCmp, ratCmp_ne_gt, maxFin_eq hf] at hle
    rw [if_neg (by rw [dyLt_iff, maxFin_eq hf]; exact Rat.not_lt.2 hle)]
    obtain ⟨hcode, hmag⟩ := code_le_maxCode hf hx hlo hhi hn fun h => by rw [h, hrU]; exact hle
    refine ⟨_, _, f.unit top, _, rfl, hn, signed_lt (Nat.lt_of_le_of_lt hcode hf.lt_signBit) neg, read_signed hf hcode neg,
      by rw [dyCmp_eq_ratCmp, ratCmp_eq_eq]; exact hmag, ?_⟩
    have htiny : dyLt nU (top - f.fb) 1 (1 - (f.bias : Int)) = true ↔ dyCmp nU (top - f.fb) 1 (1 - (f.bias : Int)) = .lt := by
      rw [dyLt_iff, dyCmp_eq_ratCmp, ratCmp_eq_lt]
    simp only [hinexact, htiny, ne_eq, ite_not]

end Sys2Proof.Machine
end

section
/-!
PROOFS. Quantisation: quotients computed with a sticky mark, the elements, the scale and the flags of a block (03 R58).
-/
namespace Sys2Proof.Machine

/-! ## Quotients (R58) -/

/-- The quotient computed stands for the exact one. -/
theorem exactDiv_stands (m : Nat) (e : Int) {m' : Nat} (e' : Int) (h : m' ≠ 0) :
    Stands (exactDiv m e m' e').1 (exactDiv m e m' e').2.1 (exactDiv m e m' e').2.2 (dy m e / dy m' e') := by
  have hpos : 0 < dy m' e' := dy_pos.2 h
  have hlt : m * 2 ^ (130 + m'.log2) % m' < m' := Nat.mod_lt _ (Nat.pos_of_ne_zero h)
  have hN := Nat.div_add_mod' (m * 2 ^ (130 + m'.log2)) m'
  show Stands (m * 2 ^ (130 + m'.log2) / m') (e - e' - (130 + m'.log2 : Nat)) (m * 2 ^ (130 + m'.log2) % m' != 0) _
  -- both sides of a comparison times the divisor are multiples of one quantum
  have numerator : dy m e = dy (m * 2 ^ (130 + m'.log2)) (e - (130 + m'.log2 : Nat)) := by
    rw [← dy_add, Int.sub_add_cancel]
  have multiple : ∀ n, dy n (e - e' - (130 + m'.log2 : Nat)) * dy m' e' = dy (n * m') (e - (130 + m'.log2 : Nat)) := fun n => by
    rw [← dy_mul, show e - e' - (130 + m'.log2 : Nat) + e' = e - (130 + m'.log2 : Nat) by omega]
  generalize m * 2 ^ (130 + m'.log2) = N at *
  by_cases hr : N % m' = 0
  · rw [hr]
    show _ = dy _ _
    have hquot : dy m e = dy (N / m') (e - e' - (130 + m'.log2 : Nat)) * dy m' e' := by
      rw [multiple, numerator, dy_inj]
      omega
    rw [hquot, Rat.mul_div_cancel fun h0 => Rat.ne_of_lt hpos h0.symm]
  · rw [bne_iff_ne.2 hr]
    constructor
    · rw [Rat.lt_div_iff hpos, multiple, numerator, dy_lt_dy]
      omega
    · rw [Rat.div_lt_iff hpos, multiple, numerator, dy_lt_dy, Nat.succ_mul]
      omega

theorem exactDiv_ge {m : Nat} (e : Int) {m' : Nat} (e' : Int) (hm : m ≠ 0) (h : m' ≠ 0) : 2 ^ 129 ≤ (exactDiv m e m' e').1 := by
  show _ ≤ m * 2 ^ (130 + m'.log2) / m'
  rw [Nat.le_div_iff_mul_le (Nat.pos_of_ne_zero h)]
  calc 2 ^ 129 * m' ≤ 2 ^ 129 * 2 ^ (m'.log2 + 1) := Nat.mul_le_mul_left _ (Nat.le_of_lt Nat.lt_log2_self)
    _ = 2 ^ (130 + m'.log2) := by rw [← Nat.pow_add, show 129 + (m'.log2 + 1) = 130 + m'.log2 by omega]
    _ ≤ m * 2 ^ (130 + m'.log2) := Nat.le_mul_of_pos_left _ (Nat.pos_of_ne_zero hm)

theorem exactDiv_ne_zero {m : Nat} (e : Int) {m' : Nat} (e' : Int) (hm : m ≠ 0) (h : m' ≠ 0) : (exactDiv m e m' e').1 ≠ 0 :=
  Nat.ne_of_gt (Nat.lt_of_lt_of_le (Nat.two_pow_pos _) (exactDiv_ge e e' hm h))

theorem exactDiv_log2 {m : Nat} (e : Int) {m' : Nat} (e' : Int) (hm : m ≠ 0) (h : m' ≠ 0) : 129 ≤ (exactDiv m e m' e').1.log2 :=
  (Nat.le_log2 (exactDiv_ne_zero e e' hm h)).2 (exactDiv_ge e e' hm h)

/-- A computed quotient rounded once. -/
def FFmt.roundDiv (f : FFmt) (sat neg : Bool) (m : Nat) (e : Int) (m' : Nat) (e' : Int) : FRes :=
  f.round .rne sat neg (exactDiv m e m' e').1 (exactDiv m e m' e').2.1 (exactDiv m e m' e').2.2

/-- A computed quotient rounded once is the exact one rounded once. -/
theorem roundDiv_rounded {f : FFmt} (hf : f.Regular) (hfb : f.fb < 129) {sat : Bool} (neg : Bool) {m : Nat} {e : Int}
    {m' : Nat} {e' : Int} (hm : m ≠ 0) (h : m' ≠ 0) (hsat : sat = true ∨ f.inf = true) {x : Exact}
    (hx : HasValue x (dy m e / dy m' e')) :
    f.Rounded .rne sat neg x (f.roundDiv sat neg m e m' e') :=
  round_rounded hf .rne neg hx (exactDiv_stands m e e' h) (exactDiv_ne_zero e e' hm h)
    (fun _ => Nat.lt_of_lt_of_le hfb (exactDiv_log2 e e' hm h)) hsat

/-! ## The elements of a block (R58) -/

/-- The zero of a target; S4 has one zero. -/
def qZero (t : QTarget) (neg : Bool) : Nat :=
  match t with
  | .e4m3 => e4m3.zero neg
  | .e5m2 => e5m2.zero neg
  | .s4 => 0

theorem quantElem_zero (t : QTarget) (i j : Bool) (e : Int) (n : Nat) (k : Int) :
    quantElem t (.fin i 0 e) (.fin j n k) = (qZero t i, 0) := by
  cases t <;> rfl

/-- An S4 element of a quotient's neighbour among the integers. -/
theorem s4_quantised {i inexact : Bool} {m n z : Nat} {e k : Int} (hz : Neighbour .rne i (exactQuotient m e n k) 0 z)
    (hi : inexact = true ↔ exactQuotient m e n k z 0 ≠ .eq) :
    Quantised .s4 (.fin i m e) (.fin false n k)
      (if 7 < z then (s4Code (if i then -7 else 7), fOF ||| fNX)
        else (s4Code (if i then -(z : Int) else z), if inexact then fNX else 0)) := by
  refine ⟨i, m, e, n, k, rfl, rfl, z, hz, ?_⟩
  by_cases h7 : 7 < z
  · rw [if_pos h7, if_pos h7, Nat.min_eq_right (Nat.le_of_lt h7)]
    exact ⟨by cases i <;> rfl, rfl⟩
  · rw [if_neg h7, if_neg h7, Nat.min_eq_left (Nat.not_lt.1 h7)]
    constructor
    · cases i with
      | false => exact congrArg (fun x : Int => (BitVec.ofInt 4 x).toNat) (Int.one_mul z).symm
      | true => exact congrArg (fun x : Int => (BitVec.ofInt 4 x).toNat) (Int.neg_one_mul z).symm
    · simp only [hi, ne_eq, ite_not]
      rfl

/-- A finite element over a scale that is not far below it is rounded once to the target. -/
theorem quantElem_quantised (t : QTarget) (i : Bool) {m : Nat} {e : Int} {n : Nat} {k : Int} (hn : n ≠ 0)
    (hlt : dy m e / dy n k < dy 1 100) :
    Quantised t (.fin i m e) (.fin false n k) (quantElem t (.fin i m e) (.fin false n k)) := by
  have hx := hasValue_exactQuotient m e k hn
  by_cases hm : m = 0
  · subst hm
    rw [quantElem_zero]
    cases t with
    | e4m3 => exact ⟨i, 0, e, n, k, rfl, rfl, fun _ => rfl, fun h => absurd rfl h⟩
    | e5m2 => exact ⟨i, 0, e, n, k, rfl, rfl, fun _ => rfl, fun h => absurd rfl h⟩
    | s4 =>
      have h0 : exactQuotient 0 e n k 0 0 = .eq := hx.eq_iff.2 (by rw [dy_zero_div, dy_zero])
      have h1 : exactQuotient 0 e n k (0 + 1) 0 = .lt := by
        rw [hx.lt_iff, dy_zero_div]
        exact dy_pos.2 (Nat.succ_ne_zero 0)
      have hz := s4_quantised (inexact := false) (neighbour_of_exact .rne i h0 h1)
        (iff_of_false Bool.false_ne_true fun h => h h0)
      cases i <;> exact hz
  · cases t with
    | e4m3 =>
      have hq : quantElem .e4m3 (.fin i m e) (.fin false n k) = e4m3.roundDiv true i m e n k := if_neg hm
      rw [hq]
      exact ⟨i, m, e, n, k, rfl, rfl, fun h => absurd h hm,
        fun _ => roundDiv_rounded regular_e4m3 (by decide) i hm hn (.inl rfl) hx⟩
    | e5m2 =>
      have hq : quantElem .e5m2 (.fin i m e) (.fin false n k) = e5m2.roundDiv true i m e n k := if_neg hm
      rw [hq]
      exact ⟨i, m, e, n, k, rfl, rfl, fun h => absurd h hm,
        fun _ => roundDiv_rounded regular_e5m2 (by decide) i hm hn (.inl rfl) hx⟩
    | s4 =>
      have hstands := exactDiv_stands m e k hn
      have hlog := exactDiv_log2 e k hm hn
      have htop := lt_of_dy_one_lt (rat_lt_of_le_of_lt (hstands.top (exactDiv_ne_zero e k hm hn)).1 hlt)
      obtain ⟨hz, hi⟩ := roundAt_neighbour .rne i (q := 0) hx hstands fun _ => by omega
      have hq : quantElem .s4 (.fin i m e) (.fin false n k) = _ := if_neg hm
      rw [hq]
      exact s4_quantised hz hi

/-! ## FP32 values read from codes -/

/-- Bounds of a finite FP32 value's significand and exponent, its sign, and the fields of a zero. -/
theorem f32_read_fin {x : Nat} {i : Bool} {m : Nat} {e : Int} (h : f32.read x = .fin i m e) :
    m < 2 ^ 24 ∧ e ≤ 104 ∧ (i = x.testBit 31) ∧ (m = 0 → x / 2 ^ 23 % 2 ^ 8 = 0 ∧ x % 2 ^ 23 = 0) := by
  have hbits : bits x (f32.signBit - 1) f32.fb = x / 2 ^ 23 % 2 ^ 8 := by rw [bits, Nat.shiftRight_eq_div_pow]; rfl
  unfold FFmt.read at h
  rw [hbits] at h
  simp only [f32, FFmt.signBit, Bool.not_true, Bool.false_and, Bool.true_and, Bool.false_eq_true, if_false, beq_iff_eq] at h
  split at h
  · split at h <;> cases h
  split at h
  all_goals
    simp only [FV.fin.injEq] at h
    obtain ⟨rfl, rfl, rfl⟩ := h
    refine ⟨by omega, by omega, rfl, fun _ => by omega⟩

/-- The largest finite FP32 magnitude. -/
theorem f32_mag_maxCode : f32.mag f32.maxCode = dy (2 ^ 24 - 1) 104 := by
  rw [FFmt.mag, show f32.sig f32.maxCode = 2 ^ 24 - 1 by decide, show f32.expo f32.maxCode = 104 by decide]

theorem f32_read_le_max {x : Nat} {i : Bool} {m : Nat} {e : Int} (h : f32.read x = .fin i m e) :
    dy m e ≤ f32.mag f32.maxCode := by
  obtain ⟨hm, he, -⟩ := f32_read_fin h
  rw [f32_mag_maxCode]
  exact dy_mono (by omega) he

theorem f32_code_zero {x : Nat} (hx : x < 2 ^ 32) {e : Int} (h : f32.read x = .fin false 0 e) : x = 0 := by
  obtain ⟨-, -, hs, h0⟩ := f32_read_fin h
  obtain ⟨hexp, hfr⟩ := h0 rfl
  rw [Nat.testBit_eq_decide_div_mod_eq] at hs
  have hb : ¬x / 2 ^ 31 % 2 = 1 := of_decide_eq_false hs.symm
  omega

/-! ## The scale of a block (R58) -/

/-- The unit in which a positive magnitude is delivered is the lowest one where the magnitude is below it. -/
theorem unit_eq_minQ {f : FFmt} {top : Int} {v : Rat} (hlo : dy 1 top ≤ v) (h : v < dy 1 (f.unit top)) : f.unit top = f.minQ := by
  have := lt_of_dy_one_lt (rat_lt_of_le_of_lt hlo h)
  unfold FFmt.unit at *
  omega

/-- What rounding a positive magnitude of at most half the largest finite one to FP32 delivers: a magnitude of more than half of
it, or a zero that is a tiny inexact result. -/
theorem f32_delivers {x : Exact} {v : Rat} (hx : HasValue x v) (hpos : 0 < v) (hmax : 2 * v ≤ f32.mag f32.maxCode) {q : FRes}
    (h : f32.Rounded .rne false false x q) :
    (q.1 = 0 ∧ q.2 = 3 ∧ v < dy 1 (-149)) ∨
      (q.1 ≠ 0 ∧ ∃ n k, f32.read q.1 = .fin false n k ∧ n ≠ 0 ∧ v < dy (2 * n) k) := by
  obtain ⟨top, nU, hlo, hhi, hnU, -, hdelivered⟩ := h
  rw [hx.ne_lt_iff] at hlo
  rw [hx.lt_iff] at hhi
  have hnU_le := hnU.le_next_power hx hhi
  have hfinite : dyCmp nU (top - f32.fb) f32.maxFin.1 f32.maxFin.2 ≠ .gt := by
    rw [maxFin_eq regular_f32, dyCmp_eq_ratCmp, ratCmp_ne_gt]
    refine Rat.le_trans hnU_le (Rat.le_trans ?_ hmax)
    rw [dy_succ, dy_two_mul]
    exact Rat.mul_le_mul_of_nonneg_left hlo (by decide)
  obtain ⟨n, m, q', e, hq', hn, hcode, hread, hval, hflags⟩ := hdelivered hfinite
  rw [dyCmp_eq_ratCmp, ratCmp_eq_eq] at hval
  obtain ⟨k, -, hk, hkn, -⟩ := hn.bounds hx
  by_cases h0 : q.1 = 0
  · have hm0 : m = 0 := by
      rw [h0, show f32.read 0 = .fin false 0 (-149) by decide] at hread
      simp only [FV.fin.injEq] at hread
      omega
    have hn0 : n = 0 := by rwa [hm0, dy_zero, eq_comm, dy_eq_zero] at hval
    obtain rfl : k = 0 := by omega
    have hmin : q' = -149 := by
      rw [hq'] at hk ⊢
      exact unit_eq_minQ (f := f32) hlo hk
    rw [hmin] at hk
    have htiny : dyCmp nU (top - f32.fb) 1 (1 - (f32.bias : Int)) = .lt := by
      rw [dyCmp_eq_ratCmp, ratCmp_eq_lt]
      have htop := lt_of_dy_one_lt (rat_lt_of_le_of_lt hlo hk)
      exact rat_lt_of_le_of_lt hnU_le (dy_one_lt_dy_one (show top + 1 < -126 by omega))
    refine .inl ⟨h0, ?_, hk⟩
    rw [hflags, hn0, if_neg (by rw [hx.eq_iff, dy_zero]; exact fun h => Rat.ne_of_lt hpos h.symm), if_pos htiny]
  · have hm0 : m ≠ 0 := by
      rintro rfl
      exact h0 (f32_code_zero hcode hread)
    have hn0 : n ≠ 0 := by
      rintro rfl
      exact hm0 (by rwa [dy_zero, dy_eq_zero] at hval)
    refine .inr ⟨h0, m, e, hread, hm0, ?_⟩
    rw [dy_two_mul, hval, ← dy_two_mul]
    exact rat_lt_of_lt_of_le hk (dy_le_dy.2 (by omega))

/-- A block's scale in place of a zero is the lowest positive code. -/
def scaleCode (q : FRes) : Nat := if q.1 = 0 then 1 else q.1

/-- The scale is a positive number of more than half the quotient rounded. -/
theorem read_scaleCode {x : Exact} {v : Rat} (hx : HasValue x v) (hpos : 0 < v) (hmax : 2 * v ≤ f32.mag f32.maxCode) {q : FRes}
    (h : f32.Rounded .rne false false x q) :
    ∃ n k, f32.read (scaleCode q) = .fin false n k ∧ n ≠ 0 ∧ v < 2 * dy n k := by
  rcases f32_delivers hx hpos hmax h with ⟨h0, -, hv⟩ | ⟨h0, n, k, hread, hn, hv⟩
  · refine ⟨1, -149, by rw [scaleCode, if_pos h0]; decide, Nat.one_ne_zero, rat_lt_of_lt_of_le hv ?_⟩
    rw [← dy_two_mul, dy_le_dy]
    decide
  · exact ⟨n, k, by rw [scaleCode, if_neg h0]; exact hread, hn, by rwa [← dy_two_mul]⟩

/-! ## The largest magnitude of a block -/

/-- A value that is no NaN and no infinity, and its magnitude. -/
def FV.Finite (v : FV) : Prop := ∃ i m e, v = .fin i m e
def FV.magnitude : FV → Rat
  | .fin _ m e => dy m e
  | .nan _ | .inf _ => 0

theorem maxMag_fin {a b : FV} (ha : a.Finite) (hb : b.Finite) :
    (maxMag a b).Finite ∧ a.magnitude ≤ (maxMag a b).magnitude ∧ b.magnitude ≤ (maxMag a b).magnitude ∧
      ((maxMag a b).magnitude = a.magnitude ∨ (maxMag a b).magnitude = b.magnitude) := by
  obtain ⟨i, m, e, rfl⟩ := ha
  obtain ⟨j, n, k, rfl⟩ := hb
  by_cases h : dyLt m e n k = true
  · have hmax : maxMag (.fin i m e) (.fin j n k) = .fin false n k := if_pos h
    rw [hmax]
    exact ⟨⟨_, _, _, rfl⟩, Rat.le_of_lt ((dyLt_iff ..).1 h), Rat.le_refl, .inr rfl⟩
  · have hmax : maxMag (.fin i m e) (.fin j n k) = .fin false m e := if_neg h
    rw [hmax]
    exact ⟨⟨_, _, _, rfl⟩, Rat.le_refl, Rat.not_lt.1 fun hlt => h ((dyLt_iff ..).2 hlt), .inl rfl⟩

/-- The fold of a block is finite, bounds the magnitudes of its values and is one of them, or the first. -/
theorem foldl_maxMag {vs : List FV} (h : ∀ v ∈ vs, v.Finite) {a : FV} (ha : a.Finite) :
    (vs.foldl maxMag a).Finite ∧ (∀ v ∈ a :: vs, v.magnitude ≤ (vs.foldl maxMag a).magnitude) ∧
      ∃ v ∈ a :: vs, v.magnitude = (vs.foldl maxMag a).magnitude := by
  induction vs generalizing a with
  | nil =>
    refine ⟨ha, fun v hv => ?_, a, List.mem_cons_self, rfl⟩
    rw [List.mem_singleton.1 hv]
    exact Rat.le_refl
  | cons b vs ih =>
    obtain ⟨hfin, hge_a, hge_b, heq⟩ := maxMag_fin ha (h b List.mem_cons_self)
    obtain ⟨hfold, hub, w, hw, hwr⟩ := ih (fun v hv => h v (List.mem_cons_of_mem b hv)) hfin
    have hge := hub _ List.mem_cons_self
    refine ⟨hfold, fun v hv => ?_, ?_⟩
    · rcases List.mem_cons.1 hv with rfl | hv
      · exact Rat.le_trans hge_a hge
      rcases List.mem_cons.1 hv with rfl | hv
      · exact Rat.le_trans hge_b hge
      · exact hub v (List.mem_cons_of_mem _ hv)
    · rcases List.mem_cons.1 hw with rfl | hw
      · rcases heq with heq | heq
        · exact ⟨a, List.mem_cons_self, heq ▸ hwr⟩
        · exact ⟨b, List.mem_cons_of_mem a List.mem_cons_self, heq ▸ hwr⟩
      · exact ⟨w, List.mem_cons_of_mem a (List.mem_cons_of_mem b hw), hwr⟩

/-! ## A block (R58) -/

theorem all_finite_iff {p : FV → Bool} (hfin : ∀ i m e, p (.fin i m e) = true) (hnan : ∀ s, p (.nan s) = false)
    (hinf : ∀ i, p (.inf i) = false) (vs : List FV) : vs.all p = true ↔ ∀ v ∈ vs, v.Finite := by
  rw [List.all_eq_true]
  refine forall_congr' fun v => forall_congr' fun _ => ?_
  cases v with
  | nan s => exact iff_of_false (by rw [hnan]; exact Bool.false_ne_true) fun ⟨_, _, _, h⟩ => FV.noConfusion h
  | inf i => exact iff_of_false (by rw [hinf]; exact Bool.false_ne_true) fun ⟨_, _, _, h⟩ => FV.noConfusion h
  | fin i m e => exact iff_of_true (hfin i m e) ⟨i, m, e, rfl⟩

theorem quantBlock_of_not_finite (t : QTarget) {xs : List Nat} (h : ¬∀ v ∈ xs.map f32.read, v.Finite) :
    quantBlock t xs = (f32.nan, xs.map fun _ => qNan t, fNV) := by
  unfold quantBlock
  refine if_pos ?_
  rw [Bool.not_eq_true', Bool.eq_false_iff, ne_eq, all_finite_iff (fun _ _ _ => rfl) (fun _ => rfl) fun _ => rfl]
  exact h

theorem quantBlock_of_zero (t : QTarget) {xs : List Nat} (h : ∀ v ∈ xs.map f32.read, v.Finite) {i : Bool} {e : Int}
    (hmax : (xs.map f32.read).foldl maxMag (.fin false 0 0) = .fin i 0 e) :
    quantBlock t xs = (0x3F800000, (xs.map f32.read).map fun v => (quantElem t v (.fin false 1 0)).1, 0) := by
  unfold quantBlock
  refine (if_neg ?_).trans ?_
  · rw [Bool.not_eq_true', Bool.not_eq_false, all_finite_iff (fun _ _ _ => rfl) (fun _ => rfl) fun _ => rfl]
    exact h
  · simp only [hmax, if_true]

/-- The scale of a block with largest magnitude m × 2^e, before a zero is replaced. -/
def quantScale (t : QTarget) (m : Nat) (e : Int) : FRes := f32.roundDiv false false m e (qMax t) 0

/-- The elements of a block under a scale's code, with their flags. -/
def quantElems (t : QTarget) (xs : List Nat) (scale : Nat) : List FRes :=
  (xs.map f32.read).map fun v => quantElem t v (f32.read scale)

theorem quantBlock_of_largest (t : QTarget) {xs : List Nat} (h : ∀ v ∈ xs.map f32.read, v.Finite) {i : Bool} {m : Nat} {e : Int}
    (hmax : (xs.map f32.read).foldl maxMag (.fin false 0 0) = .fin i m e) (hm : m ≠ 0)
    (htiny : (quantScale t m e).1 = 0 → (quantScale t m e).2 = 3) :
    quantBlock t xs = (scaleCode (quantScale t m e), (quantElems t xs (scaleCode (quantScale t m e))).map (·.1),
      (quantElems t xs (scaleCode (quantScale t m e))).foldl (fun a r => a ||| r.2) (quantScale t m e).2) := by
  unfold quantBlock
  refine (if_neg ?_).trans ?_
  · rw [Bool.not_eq_true', Bool.not_eq_false, all_finite_iff (fun _ _ _ => rfl) (fun _ => rfl) fun _ => rfl]
    exact h
  · have hscale : (if (quantScale t m e).1 = 0 then (1, fNX ||| fUF) else quantScale t m e) =
        (scaleCode (quantScale t m e), (quantScale t m e).2) := by
      unfold scaleCode
      split
      · rename_i h0
        rw [htiny h0]
        rfl
      · rfl
    simp only [hmax, if_neg hm]
    unfold quantScale FFmt.roundDiv at *
    simp only [hscale]
    rfl

theorem getLsbD_foldl_or (rs : List FRes) (fl : BitVec 5) (n : Nat) :
    (rs.foldl (fun a r => a ||| r.2) fl).getLsbD n = true ↔ fl.getLsbD n = true ∨ ∃ y ∈ rs, y.2.getLsbD n = true := by
  induction rs generalizing fl with
  | nil => exact ⟨.inl, fun h => h.elim id fun ⟨_, hy, _⟩ => nomatch hy⟩
  | cons r rs ih =>
    rw [List.foldl_cons, ih]
    simp only [BitVec.getLsbD_or, Bool.or_eq_true, List.mem_cons, exists_eq_or_imp, or_assoc]

theorem qMax_bounds (t : QTarget) : 7 ≤ qMax t ∧ qMax t ≤ 57344 := by cases t <;> decide

/-- The scale is the largest magnitude over the target's, rounded once, and is not far below that quotient. -/
theorem quantScale_spec (t : QTarget) {m M : Nat} {e E : Int} (hM : M ≠ 0) (hME : dy M E = dy m e)
    (hmax : dy m e ≤ f32.mag f32.maxCode) :
    f32.Rounded .rne false false (exactQuotient m e (qMax t) 0) (quantScale t M E) ∧
      ((quantScale t M E).1 = 0 → (quantScale t M E).2 = 3) ∧
      ∃ n k, f32.read (scaleCode (quantScale t M E)) = .fin false n k ∧ n ≠ 0 ∧ dy m e < 2 * (qMax t : Rat) * dy n k := by
  obtain ⟨hT7, -⟩ := qMax_bounds t
  have hT_pos : 0 < dy (qMax t) 0 := dy_pos.2 (by omega)
  have hpos : 0 < dy m e := by
    rw [← hME]
    exact dy_pos.2 hM
  have hx := hasValue_exactQuotient m e 0 (show qMax t ≠ 0 by omega)
  have hrounded : f32.Rounded .rne false false (exactQuotient m e (qMax t) 0) (quantScale t M E) :=
    roundDiv_rounded regular_f32 (by decide) false hM (by omega) (.inr rfl) (by rw [hME]; exact hx)
  have hv : 0 < dy m e / dy (qMax t) 0 := by
    rw [Rat.lt_div_iff hT_pos, Rat.zero_mul]
    exact hpos
  have hv_max : 2 * (dy m e / dy (qMax t) 0) ≤ f32.mag f32.maxCode := by
    have htwo : 2 ≤ dy (qMax t) 0 := by
      have h2 : dy 2 0 ≤ dy (qMax t) 0 := dy_le_dy.2 (by omega)
      rwa [dy_nat 2] at h2
    have hcancel : dy m e / dy (qMax t) 0 * dy (qMax t) 0 = dy m e :=
      Rat.div_mul_cancel fun h0 => Rat.ne_of_lt hT_pos h0.symm
    have hmul := Rat.mul_le_mul_of_nonneg_left htwo (Rat.le_of_lt hv)
    rw [hcancel, Rat.mul_comm] at hmul
    exact Rat.le_trans hmul hmax
  obtain ⟨n, k, hscale, hn, hlt⟩ := read_scaleCode hx hv hv_max hrounded
  rw [Rat.div_lt_iff hT_pos, dy_nat] at hlt
  exact ⟨hrounded, fun h0 => (f32_delivers hx hv hv_max hrounded).elim (·.2.1) fun h => absurd h0 h.1,
    n, k, hscale, hn, by grind⟩

/-- The fold of a block of finite codes: a magnitude that bounds each of them, and is 0 or one of them. -/
theorem largest_of_block {xs : List Nat} (h : ∀ v ∈ xs.map f32.read, v.Finite) :
    ∃ b M E, (xs.map f32.read).foldl maxMag (.fin false 0 0) = .fin b M E ∧
      (∀ x ∈ xs, ∀ j n k, f32.read x = .fin j n k → dy n k ≤ dy M E) ∧
      (M = 0 ∨ ∃ x ∈ xs, ∃ j n k, f32.read x = .fin j n k ∧ dy n k = dy M E) := by
  obtain ⟨⟨b, M, E, hfold⟩, hub, w, hw, hwr⟩ := foldl_maxMag h (a := .fin false 0 0) ⟨_, _, _, rfl⟩
  rw [hfold] at hub hwr
  refine ⟨b, M, E, hfold, fun x hx j n k hread => ?_, ?_⟩
  · have hle := hub (f32.read x) (List.mem_cons_of_mem _ (List.mem_map_of_mem hx))
    rw [hread] at hle
    exact hle
  · rcases List.mem_cons.1 hw with rfl | hw'
    · have hzero : dy 0 0 = dy M E := hwr
      exact .inl (by rwa [dy_zero, eq_comm, dy_eq_zero] at hzero)
    · obtain ⟨x, hx, rfl⟩ := List.mem_map.1 hw'
      obtain ⟨j, n, k, hread⟩ := h _ hw'
      rw [hread] at hwr
      exact .inr ⟨x, hx, j, n, k, hread, hwr⟩

/-- Every element over the scale of its block is rounded once to the target: the scale is not far below the largest magnitude. -/
theorem quantElems_quantised (t : QTarget) {xs : List Nat} {scale : Nat} {bound : Rat} {n : Nat} {k : Int}
    (hscale : f32.read scale = .fin false n k) (hn : n ≠ 0) (hbound : bound < 2 * (qMax t : Rat) * dy n k)
    (h : ∀ x ∈ xs, ∃ i m e, f32.read x = .fin i m e ∧ dy m e ≤ bound) (j x : Nat) (y : FRes) (hx : xs[j]? = some x)
    (hy : (quantElems t xs scale)[j]? = some y) : Quantised t (f32.read x) (f32.read scale) y := by
  obtain ⟨i, m, e, hread, hle⟩ := h x (List.mem_of_getElem? hx)
  have hpos := dy_pos (e := k).2 hn
  have hfactor : 2 * (qMax t : Rat) ≤ dy 1 100 := by
    have hle : dy (2 * qMax t) 0 ≤ dy 1 100 := by
      rw [show (100 : Int) = 0 + (100 : Nat) by decide, dy_one_add, dy_le_dy]
      have := (qMax_bounds t).2
      omega
    rwa [dy_two_mul, dy_nat] at hle
  simp only [quantElems, List.map_map, List.getElem?_map, hx, Option.map_some, Option.some.injEq, Function.comp_apply] at hy
  rw [← hy, hread, hscale]
  refine quantElem_quantised t i hn ?_
  rw [Rat.div_lt_iff hpos]
  exact rat_lt_of_le_of_lt hle (rat_lt_of_lt_of_le hbound (Rat.mul_le_mul_of_nonneg_right hfactor (Rat.le_of_lt hpos)))

/-- A block's scale, elements and flags are those of R58. -/
theorem quantBlock_quantised (t : QTarget) (xs : List Nat) : BlockQuantised t xs (quantBlock t xs) := by
  have hmem : (∀ v ∈ xs.map f32.read, v.Finite) ↔ ∀ x ∈ xs, ∃ i m e, f32.read x = .fin i m e :=
    List.forall_mem_map
  refine ⟨fun h => ?special, fun hfin hzero => ?zero, fun hfin a ha i m e hread hm hmax => ?scaled⟩
  case special =>
    rw [quantBlock_of_not_finite t (mt hmem.1 h)]
    cases t <;> rfl
  all_goals obtain ⟨b, M, E, hfold, hub, hattained⟩ := largest_of_block (hmem.2 hfin)
  case zero =>
    obtain rfl : M = 0 := by
      refine hattained.elim id fun ⟨x, hx, j, n, k, hread, heq⟩ => ?_
      obtain ⟨i, e, hread'⟩ := hzero x hx
      rw [hread', FV.fin.injEq] at hread
      obtain ⟨-, rfl, -⟩ := hread
      rwa [dy_zero, eq_comm, dy_eq_zero] at heq
    rw [quantBlock_of_zero t (hmem.2 hfin) hfold]
    refine ⟨rfl, rfl, by rw [List.length_map, List.length_map], fun j x y hx hy => ?_⟩
    obtain ⟨i, e, hread⟩ := hzero x (List.mem_of_getElem? hx)
    have hq := quantElem_quantised t i (m := 0) (e := e) (n := 1) (k := 0) Nat.one_ne_zero <| by
      rw [dy_zero_div]
      exact dy_pos.2 Nat.one_ne_zero
    simp only [List.map_map, List.getElem?_map, hx, Option.map_some, Option.some.injEq, Function.comp_apply, hread] at hy
    rw [quantElem_zero] at hq hy
    rw [hread, ← hy]
    exact hq
  case scaled =>
    have hpos : 0 < dy m e := dy_pos.2 hm
    have hM : M ≠ 0 := dy_pos.1 (rat_lt_of_lt_of_le hpos (hub a ha i m e hread))
    have hME : dy M E = dy m e := by
      refine Rat.le_antisymm ?_ (hub a ha i m e hread)
      obtain ⟨x, hx, j, n, k, hread', heq⟩ := hattained.resolve_left hM
      have hle := hmax x hx j n k hread'
      rw [dyCmp_eq_ratCmp, ratCmp_ne_gt] at hle
      exact heq ▸ hle
    obtain ⟨hrounded, htiny, n, k, hscale, hn, hbound⟩ := quantScale_spec t hM hME (f32_read_le_max hread)
    rw [quantBlock_of_largest t (hmem.2 hfin) hfold hM htiny]
    refine ⟨quantScale t M E, quantElems t xs (scaleCode (quantScale t M E)), hrounded, rfl, rfl,
      by rw [quantElems, List.length_map, List.length_map],
      quantElems_quantised t hscale hn hbound fun x hx => ?_, fun n => getLsbD_foldl_or ..⟩
    obtain ⟨j, n, k, hread'⟩ := hfin x hx
    exact ⟨j, n, k, hread', hME ▸ hub x hx j n k hread'⟩

end Sys2Proof.Machine
end

section
/-!
PROOFS. The shared-exponent path (03 R61 to R63; 07 R160) and QUANT on a crew (07 R159).
-/
namespace Sys2Proof.Machine

/-! ## FEXPO (R61, R160) -/

theorem nan_or_inf {v : FV} (h : v.isNan = true ∨ ∃ n, v = .inf n) : (∃ s, v = .nan s) ∨ ∃ n, v = .inf n := by
  cases v with
  | nan s => exact .inl ⟨s, rfl⟩
  | inf n => exact .inr ⟨n, rfl⟩
  | fin n m e => simp [FV.isNan] at h

theorem fexpoOf_special {x : Nat} (h : (f32.read x).isNan = true ∨ ∃ n, f32.read x = .inf n) : fexpoOf x = 32767 := by
  unfold fexpoOf
  obtain ⟨s, h⟩ | ⟨n, h⟩ := nan_or_inf h <;> rw [h]

theorem fexpoOf_fin {x : Nat} {n : Bool} {m : Nat} {e : Int} (h : f32.read x = .fin n m e) :
    fexpoOf x = if m = 0 then -32768 else (m.log2 : Int) + e := by
  unfold fexpoOf
  rw [h]

/-- The vector registers that an instruction names as its results are among the 128. -/
theorem results_fit {s : State} {uid g : Nat} {c : Crew} {i : Instr} (h : s.Issues uid g c i) {u : Bool} {d k al : Nat}
    (hw : ⟨u, d, k, al⟩ ∈ i.uses.writes) (hu : u = false) : d + k ≤ 128 := by
  subst hu
  exact (use_ok h (.inr (.inl hw))).2

theorem fexpo_computes : UnF .fexpo fun a => noFlags [BitVec.ofInt 32 (fexpoOf a.toNat)] := by
  intro o
  exact computes_of_alu (fun _ => rfl) fun hu _ _ _ _ hs _ => results_fit hs (k := 1) (al := 1) (List.mem_singleton.2 rfl) hu

/-! ## QALIGN (R62, R160) -/

theorem qalignOf_special {x : Nat} (e : Int) (h : (f32.read x).isNan = true ∨ ∃ n, f32.read x = .inf n) :
    qalignOf x e = (0x8000000000000000, 16) := by
  unfold qalignOf
  obtain ⟨s, h⟩ | ⟨n, h⟩ := nan_or_inf h <;> rw [h] <;> rfl

/-- The aligned integer of magnitude y, saturated. -/
def alignedResult (n : Bool) (y : Nat) (inexact : Bool) : BitVec 64 × BitVec 5 :=
  let fl : BitVec 5 := if inexact then 1 else 0
  if 2 ^ 63 - 1 < y then (BitVec.ofInt 64 ((if n then -1 else 1) * (2 ^ 63 - 1)), 4 ||| fl)
  else (BitVec.ofInt 64 ((if n then -1 else 1) * (y : Int)), fl)

theorem qalignOf_fin {x : Nat} {n : Bool} {m : Nat} {k e : Int} (h : f32.read x = .fin n m k) (he : e ≠ 32767) :
    qalignOf x e =
      alignedResult n (roundAt .rne n m (k + 51 - e) false 0).1 (roundAt .rne n m (k + 51 - e) false 0).2 := by
  unfold qalignOf
  rw [h]
  simp only [if_neg he]
  cases n
  · simp only [alignedResult, Bool.false_eq_true, if_false, Int.one_mul]
    rfl
  · simp only [alignedResult, if_true, Int.neg_one_mul]
    rfl

theorem qalignOf_disarmed {x : Nat} {n : Bool} {m : Nat} {k : Int} (h : f32.read x = .fin n m k) : qalignOf x 32767 = (0, 0) := by
  unfold qalignOf
  rw [h]
  rfl

/-- Rounding to nearest with ties to even, by the integers it compares. -/
theorem roundAt_rne_nearest (neg : Bool) (m : Nat) {e : Int} (h : e < 0) {y P : Nat} (hy : y = (roundAt .rne neg m e false 0).1)
    (hP : P = 2 ^ (-e).toNat) :
    ((roundAt .rne neg m e false 0).2 = false ↔ y * P = m) ∧ 2 * m ≤ (2 * y + 1) * P ∧ 2 * y * P ≤ 2 * m + P ∧
      (2 * m = (2 * y + 1) * P ∨ 2 * y * P = 2 * m + P → y % 2 = 0) := by
  have hpos : 0 < P := hP ▸ Nat.two_pow_pos _
  have hround := roundAt_of_gt .rne neg m h (P := P) (by rw [hP, Int.zero_sub])
  have hm := Nat.div_add_mod' m P
  have hr : m % P < P := Nat.mod_lt _ hpos
  rw [hround] at hy ⊢
  generalize m / P = k at *
  generalize m % P = r at *
  simp only [RMode.up] at hy
  subst hm
  simp only [bne_eq_false_iff_eq]
  -- the middle decides, and a tie goes to the even neighbour
  have hchoice : (y = k ∧ 2 * r ≤ P ∧ (2 * r = P → k % 2 = 0)) ∨ (y = k + 1 ∧ P ≤ 2 * r ∧ (2 * r = P → k % 2 = 1)) := by
    rcases Nat.lt_trichotomy (2 * r) P with hlt | heq | hgt
    · rw [Nat.compare_eq_lt.2 hlt] at hy
      exact .inl ⟨hy, Nat.le_of_lt hlt, by omega⟩
    · rw [Nat.compare_eq_eq.2 heq] at hy
      rcases Nat.mod_two_eq_zero_or_one k with h2 | h2
      · exact .inl ⟨by rw [hy, h2]; rfl, Nat.le_of_eq heq, fun _ => h2⟩
      · exact .inr ⟨by rw [hy, h2]; rfl, Nat.le_of_eq heq.symm, fun _ => h2⟩
    · rw [Nat.compare_eq_gt.2 hgt] at hy
      exact .inr ⟨hy, Nat.le_of_lt hgt, by omega⟩
  rcases hchoice with ⟨rfl, hle, htie⟩ | ⟨rfl, hle, htie⟩
  all_goals
    simp only [Nat.add_mul, Nat.mul_add, Nat.mul_assoc, Nat.one_mul]
    omega

theorem qalignOf_exact {x : Nat} {n : Bool} {m : Nat} {k e : Int} (h : f32.read x = .fin n m k) (he : e ≠ 32767)
    (hk : e ≤ k + 51) : qalignOf x e = alignedResult n (m * 2 ^ (k + 51 - e).toNat) false := by
  rw [qalignOf_fin h he, roundAt_of_le .rne n m (show 0 ≤ k + 51 - e by omega), Int.sub_zero]

/-- Below the unit of the aligned integer: the nearest one, ties to even, which cannot saturate. -/
theorem qalignOf_nearest {x : Nat} {n : Bool} {m : Nat} {k e : Int} (h : f32.read x = .fin n m k) (he : e ≠ 32767)
    (hk : k + 51 < e) : ∃ y : Nat,
      qalignOf x e = (BitVec.ofInt 64 ((if n then -1 else 1) * (y : Int)), if y * 2 ^ (e - k - 51).toNat = m then 0 else 1) ∧
      2 * m ≤ (2 * y + 1) * 2 ^ (e - k - 51).toNat ∧ 2 * y * 2 ^ (e - k - 51).toNat ≤ 2 * m + 2 ^ (e - k - 51).toNat ∧
      (2 * m = (2 * y + 1) * 2 ^ (e - k - 51).toNat ∨ 2 * y * 2 ^ (e - k - 51).toNat = 2 * m + 2 ^ (e - k - 51).toNat →
        y % 2 = 0) := by
  obtain ⟨hflag, hnearest⟩ := roundAt_rne_nearest n m (e := k + 51 - e) (by omega) rfl rfl
  rw [show -(k + 51 - e) = e - k - 51 by omega] at hflag hnearest
  refine ⟨_, ?_, hnearest⟩
  obtain ⟨-, hle, -⟩ := hnearest
  rw [qalignOf_fin h he]
  generalize (roundAt .rne n m (k + 51 - e) false 0).1 = y at *
  have hm := (f32_read_fin h).1
  have hsmall : y ≤ m + 1 := by
    have hpos : 0 < 2 ^ (e - k - 51).toNat := Nat.two_pow_pos _
    refine Nat.not_lt.1 fun hgt => ?_
    have h1 : (m + 2) * 2 ^ (e - k - 51).toNat ≤ y * 2 ^ (e - k - 51).toNat := Nat.mul_le_mul_right _ (by omega)
    have h2 : m ≤ m * 2 ^ (e - k - 51).toNat := Nat.le_mul_of_pos_right m hpos
    simp only [Nat.add_mul, Nat.mul_assoc] at h1 hle
    omega
  unfold alignedResult
  rw [if_neg (by omega)]
  simp only [← hflag, ← Bool.not_eq_false, ite_not]

theorem qalign_computes : BinF .qalign fun a b => (words2 (qalignOf a.toNat b.toInt).1, (qalignOf a.toNat b.toInt).2) := by
  intro o
  exact computes_of_alu (fun _ => rfl) fun hu _ _ _ _ hs _ => results_fit hs (k := 2) (al := 2) (List.mem_singleton.2 rfl) hu

/-! ## QUNALIGN (R63, R160) -/

theorem qunalignOf_disarmed (t : BitVec 64) : qunalignOf t 32767 = (0x7FC00000, 16) := rfl

theorem qunalignOf_saturated (e : Int) : qunalignOf 0x8000000000000000 e = (0x7FC00000, 16) := if_pos (by simp)

theorem qunalignOf_zero {e : Int} (he : e ≠ 32767) : qunalignOf 0 e = (0, 0) := by simp [qunalignOf, he]

theorem qunalignOf_round {t : BitVec 64} {e : Int} (he : e ≠ 32767) (hs : t ≠ 0x8000000000000000) (h0 : t ≠ 0) :
    qunalignOf t e = f32.round .rne false (decide (t.toInt < 0)) t.toInt.natAbs (e - 51) false := by
  unfold qunalignOf
  rw [if_neg (by simpa [he] using hs), if_neg h0]

theorem qunalign_computes (o : DAB) : Computes (.qunalign o) o.h o.u o.d.toNat fun c _ l =>
    code32 (qunalignOf (c.rget64 o.u l o.a.toNat) (c.b32 o.u l o.b).toInt) :=
  computes_of_alu (fun _ => rfl) fun hu _ _ _ _ hs _ => results_fit hs (k := 1) (al := 1) (List.mem_singleton.2 rfl) hu

/-! ## QUANT on a crew (R159) -/

/-- One vector register of each lane of a list written. -/
def Crew.vsetEach (c : Crew) (d : Nat) (w : Nat → Word) (ls : List Nat) : Crew := ls.foldl (fun k l => k.vset l d (w l)) c

theorem vsetEach_spec {d : Nat} (hd : d < 128) (w : Nat → Word) (ls : List Nat) (c : Crew) :
    (∃ v, c.vsetEach d w ls = { c with v := v }) ∧
      ∀ l n, n < 128 → (c.vsetEach d w ls).vget l n = if l ∈ ls ∧ n = d then w l else c.vget l n := by
  induction ls generalizing c with
  | nil => exact ⟨⟨c.v, rfl⟩, by simp [Crew.vsetEach]⟩
  | cons a ls ih =>
    obtain ⟨⟨v, hv⟩, hget⟩ := ih (c.vset a d (w a))
    refine ⟨⟨v, hv⟩, fun l n hn => (hget l n hn).trans ?_⟩
    rw [vget_vset c a d _ l n hd hn]
    by_cases hl : l = a
    · subst hl
      by_cases hnd : n = d <;> simp [hnd]
    · simp [hl]

theorem ssetGang_same (c : Crew) (g n : Nat) (w : Word) : SameButScalars c.slices (c.ssetGang g n w).slices := by
  refine ⟨modGang_length .., fun i x y hx hy => ?_⟩
  rw [eq_of_modGang_getElem hx hy]
  split <;> rfl

theorem sget_ssetGang (c : Crew) (g n : Nat) (w : Word) (i m : Nat) :
    (c.ssetGang g n w).sget i m = if c.inGang g i ∧ m = n then w else c.sget i m := by
  unfold Crew.ssetGang Crew.sget
  rw [modGang_getElem]
  rcases hx : c.slices[i]? with _ | x
  · simp [Crew.inGang, hx]
  · by_cases hg : c.inGang g i = true <;> simp [hg]

/-- A crew of eight slices all of whose lanes participate. -/
def Crew.Full (c : Crew) (g : Nat) (gd : Guard) : Prop := c.slices.length = 8 ∧ ∀ l, l < 32 → c.Takes g gd l

theorem inGang_of_takes {c : Crew} {g : Nat} {gd : Guard} {l : Nat} (h : c.Takes g gd l) : c.inGang g (l / 4) = true := by
  obtain ⟨x, hx, hlive, hgang, -⟩ := h
  simp [Crew.inGang, hx, hlive, hgang]

theorem lt_length_of_inGang {c : Crew} {g i : Nat} (h : c.inGang g i = true) : i < c.slices.length := by
  refine Nat.not_le.1 fun hle => Bool.false_ne_true ?_
  rw [← h, Crew.inGang, List.getElem?_eq_none hle]

theorem Crew.Full.inGang_iff {c : Crew} {g : Nat} {gd : Guard} (h : c.Full g gd) (i : Nat) : c.inGang g i = true ↔ i < 8 := by
  obtain ⟨hlen, htakes⟩ := h
  refine ⟨fun hi => hlen ▸ lt_length_of_inGang hi, fun hi => ?_⟩
  have := inGang_of_takes (htakes (4 * i) (by omega))
  rwa [Nat.mul_div_cancel_left i (by decide)] at this

/-- QUANT's own test of its crew. -/
theorem full_iff (c : Crew) (g : Nat) (gd : Guard) :
    (c.slices.length == 8 && c.gangSlices g == List.range 8 && c.parts g gd == List.range 32) = true ↔ c.Full g gd := by
  simp only [Bool.and_eq_true, beq_iff_eq]
  constructor
  · rintro ⟨⟨hlen, -⟩, hparts⟩
    exact ⟨hlen, fun l hl => mem_parts.1 (hparts ▸ List.mem_range.2 hl)⟩
  · intro h
    obtain ⟨hlen, htakes⟩ := id h
    refine ⟨⟨hlen, ?_⟩, ?_⟩
    · rw [Crew.gangSlices, hlen, List.filter_eq_self]
      exact fun i hi => (h.inGang_iff i).2 (List.mem_range.1 hi)
    · have hlanes : c.lanes = List.range 32 := by rw [Crew.lanes, hlen]
      rw [Crew.parts, hlanes, List.filter_eq_self]
      intro l hl
      have hmem := mem_parts.2 (htakes l (List.mem_range.1 hl))
      exact (List.mem_filter.1 hmem).2

/-- The crew after QUANT: the elements in one register of every lane, the scale in one of every slice. -/
def Crew.quantised (c : Crew) (g n : Nat) (o : Quant) (r : Nat × List Nat × BitVec 5) : Crew :=
  let c' := c.vsetEach o.d.toNat (quantWord o.t r.2.1) (List.range 32)
  ((c'.ssetGang g o.sc.toNat (BitVec.ofNat 32 r.1)).raise r.2.2).advance g n

/-- The block that QUANT reads (R159). -/
def Crew.quantSource (c : Crew) (o : Quant) : List Nat :=
  (List.range 128).map fun k => (c.vget (k / 4) (o.a.toNat + k % 4)).toNat

theorem exec_quant_of_full {o : Quant} {s : State} {uid g : Nat} {c : Crew} (hs : s.Issues uid g c (.quant o))
    (h : c.Full g o.h.guard) :
    exec (.quant o) s = .next (s.setCrew (c.quantised g o.h.form.bytes o (quantBlock o.t (c.quantSource o)))) :=
  (asGang_of_issues hs _).trans (congrArg _ (if_pos ((full_iff c g _).2 h)))

theorem exec_quant_of_not_full {o : Quant} {s : State} {uid g : Nat} {c : Crew} (hs : s.Issues uid g c (.quant o))
    (h : ¬c.Full g o.h.guard) : exec (.quant o) s = .next (s.trap c g o.h.form.bytes 0x11 0) :=
  (asGang_of_issues hs _).trans (congrArg _ (if_neg (mt (full_iff c g _).1 h)))

theorem quantised_spec {c : Crew} {g : Nat} {o : Quant} (h : c.Full g o.h.guard) (n : Nat) (r : Nat × List Nat × BitVec 5) :
    let c' := c.quantised g n o r
    c' = { c with v := c'.v, slices := c'.slices, fflags := c.fflags ||| r.2.2 } ∧ c.SlicesPass c' g n ∧
      (∀ l m, m < 128 → c'.vget l m = if l < 32 ∧ m = o.d.toNat then quantWord o.t r.2.1 l else c.vget l m) ∧
      ∀ i m, c'.sget i m = if i < 8 ∧ m = o.sc.toNat then BitVec.ofNat 32 r.1 else c.sget i m := by
  intro c'
  obtain ⟨⟨v, hv⟩, hget⟩ := vsetEach_spec o.d.isLt (quantWord o.t r.2.1) (List.range 32) c
  have hc' : c' = ((({ c with v := v } : Crew).ssetGang g o.sc.toNat (BitVec.ofNat 32 r.1)).raise r.2.2).advance g n := by
    rw [← hv]
    rfl
  refine ⟨by rw [hc']; rfl, ?_, fun l m hm => ?_, fun i m => ?_⟩
  · rw [hc']
    exact slicesPass_advance (ssetGang_same { c with v := v } g o.sc.toNat _) g n
  · have hvget : c'.vget l m = (c.vsetEach o.d.toNat (quantWord o.t r.2.1) (List.range 32)).vget l m := by
      rw [hc', hv]
      rfl
    rw [hvget, hget l m hm]
    simp only [List.mem_range]
  · rw [hc', advance_sget, Crew.raise_sget, sget_ssetGang]
    simp only [show ({ c with v := v } : Crew).inGang g i = c.inGang g i from rfl, h.inGang_iff]
    rfl

/-! ## The statement -/

/-- Settles O8: FEXPO, QALIGN and QUNALIGN are what their functions say of every FP32 value; QUANT's scale and elements are exact
quotients rounded once, which a crew with every lane receives. -/
theorem sharedExponentPath : Obligations.SharedExponentPath := by
  unfold Obligations.SharedExponentPath
  refine ⟨⟨fexpoOf, fexpo_computes, fun x h => fexpoOf_special h, ?fexpoZero, ?fexpo⟩,
    ⟨qalignOf, qalign_computes, fun x e h => qalignOf_special e h, fun x n m k h => qalignOf_disarmed h, ?exact, ?saturated,
      fun x n m k e h he hk => qalignOf_nearest h he hk⟩,
    fun o => ⟨qunalignOf, qunalign_computes o, qunalignOf_disarmed, qunalignOf_saturated, fun e he => qunalignOf_zero he,
      fun t e he hs h0 => qunalignOf_round he hs h0⟩,
    quantBlock_quantised, fun o s uid g c hs => ⟨fun h => ?quant, fun h => exec_quant_of_not_full hs h⟩⟩
  case fexpoZero =>
    intro x n e h
    rw [fexpoOf_fin h, if_pos rfl]
  case fexpo =>
    intro x n m e h hm
    exact ⟨m.log2, by rw [fexpoOf_fin h, if_neg hm], Nat.log2_self_le hm, Nat.lt_log2_self⟩
  case exact =>
    intro x n m k e h he hk hlt
    rw [qalignOf_exact h he hk, alignedResult, if_neg (by omega)]
    rfl
  case saturated =>
    intro x n m k e h he hk hge
    rw [qalignOf_exact h he hk, alignedResult, if_pos (by omega)]
    rfl
  case quant =>
    refine ⟨_, exec_quant_of_full hs h, ?_, quantised_spec h _ _⟩
    rw [(quantised_spec h _ _).1]

end Sys2Proof.Machine
end

section
/-!
PROOFS. Words given bit by bit, integers modulo a power of two, and shifts, as the tables of 07 R148 and R149 read them.
-/
namespace Sys2Proof.Machine

/-! ## Words given bit by bit -/

/-- The sum of the bits of a number: less than 2^n, and each bit is the one given. -/
theorem sum_bits_spec (r : Nat → Bool) (n : Nat) :
    ((List.range n).map fun i => (r i).toNat * 2 ^ i).sum < 2 ^ n ∧
      ∀ j, (((List.range n).map fun i => (r i).toNat * 2 ^ i).sum).testBit j = (decide (j < n) && r j) := by
  induction n with
  | zero => simp
  | succ n ih =>
    obtain ⟨hlt, hbit⟩ := ih
    rw [List.range_succ, List.map_append, List.sum_append, List.map_singleton, List.sum_singleton, Nat.add_comm, Nat.mul_comm]
    refine ⟨?_, fun j => ?_⟩
    · have h1 : 2 ^ n * (r n).toNat ≤ 2 ^ n * 1 := Nat.mul_le_mul_left _ (Bool.toNat_le _)
      omega
    · rw [Nat.testBit_two_pow_mul_add _ hlt]
      rcases Nat.lt_trichotomy j n with h | rfl | h
      · rw [if_pos h, hbit, decide_eq_true h, decide_eq_true (Nat.lt_succ_of_lt h)]
      · simp [Nat.testBit_zero, Nat.mod_eq_of_lt (Bool.toNat_lt _)]
      · have hz : (r n).toNat < 2 ^ (j - n) := Nat.lt_of_lt_of_le (Bool.toNat_lt _) (Nat.le_self_pow (by omega) 2)
        rw [if_neg (by omega), Nat.testBit_lt_two_pow hz, decide_eq_false (by omega), Bool.false_and]

theorem getLsbD_bitsOf (r : Nat → Bool) {i : Nat} (hi : i < 32) : (bitsOf r).getLsbD i = r i := by
  rw [bitsOf, BitVec.getLsbD_ofNat, (sum_bits_spec r 32).2, decide_eq_true hi, Bool.true_and, Bool.true_and]

/-- A word is given by its 32 bits. -/
theorem eq_bitsOf {w : Word} {r : Nat → Bool} (h : ∀ i, i < 32 → w.getLsbD i = r i) : w = bitsOf r :=
  BitVec.eq_of_getLsbD_eq fun i hi => (h i hi).trans (getLsbD_bitsOf r hi).symm

/-! ## Counting and reversing bits -/

theorem popCount_eq_countP (n x : Nat) : popCount n x = (List.range n).countP fun k => x.testBit k := by
  induction n generalizing x with
  | zero => rfl
  | succ n ih =>
    rw [popCount, ih, List.range_succ_eq_map, List.countP_cons, List.countP_map, Nat.add_comm]
    simp only [Function.comp_def, Nat.testBit_succ, Nat.testBit_zero, decide_eq_true_eq]
    rcases Nat.mod_two_eq_zero_or_one x with h | h <;> simp [h]

/-- How many of the first n powers of two exceed a number: all for 0, and otherwise those above its highest bit. -/
theorem countP_lt_two_pow (x n : Nat) :
    ((List.range n).countP fun k => decide (x < 2 ^ k)) = if x = 0 then n else n - 1 - x.log2 := by
  induction n with
  | zero => simp
  | succ n ih =>
    rw [List.range_succ, List.countP_append, List.countP_singleton, ih]
    by_cases hx : x = 0
    · simp [hx]
    · simp only [if_neg hx, decide_eq_true_eq, ← Nat.log2_lt hx]
      split <;> omega

theorem testBit_revBits (n x j : Nat) : (revBits n x).testBit j = (decide (j < n) && x.testBit (n - 1 - j)) := by
  have below : ∀ n x, revBits n x < 2 ^ n := by
    intro n
    induction n with
    | zero => simp [revBits]
    | succ n ih =>
      intro x
      have h1 := ih (x / 2)
      have h2 : x % 2 * 2 ^ n ≤ 1 * 2 ^ n := Nat.mul_le_mul_right _ (by omega)
      rw [revBits]
      omega
  induction n generalizing x with
  | zero => simp [revBits]
  | succ n ih =>
    rw [revBits, Nat.mul_comm, Nat.testBit_two_pow_mul_add _ (below n _)]
    rcases Nat.lt_trichotomy j n with h | rfl | h
    · rw [if_pos h, ih, decide_eq_true h, decide_eq_true (Nat.lt_succ_of_lt h), ← Nat.testBit_succ]
      congr 2
      omega
    · simp [Nat.testBit_zero]
    · have hz : x % 2 < 2 ^ (j - n) := Nat.lt_of_lt_of_le (Nat.mod_lt _ (by decide)) (Nat.le_self_pow (by omega) 2)
      rw [if_neg (by omega), Nat.testBit_lt_two_pow hz, decide_eq_false (by omega), Bool.false_and]

/-! ## Integers modulo a power of two -/

theorem sub_eq_ofInt {w : Nat} (a b : BitVec w) : a - b = BitVec.ofInt w ((a.toNat : Int) - b.toNat) := by
  rw [Int.sub_eq_add_neg, BitVec.ofInt_add, BitVec.ofInt_neg, BitVec.ofInt_natCast, BitVec.ofInt_natCast, BitVec.ofNat_toNat,
    BitVec.ofNat_toNat, BitVec.setWidth_eq, BitVec.setWidth_eq, BitVec.sub_eq_add_neg]

/-- Bits [63:32] of an integer modulo 2^64. -/
theorem hi32_ofInt (z : Int) : hi32 (BitVec.ofInt 64 z) = BitVec.ofInt 32 (z / 2 ^ 32) := by
  refine BitVec.eq_of_toNat_eq ?_
  rw [hi32, BitVec.extractLsb'_toNat, BitVec.toNat_ofInt, BitVec.toNat_ofInt, Nat.shiftRight_eq_div_pow]
  omega

/-! ## Shifts by a whole count -/

theorem shiftLeft_eq_shlRule {w : Nat} (a : BitVec w) (n : Nat) : (if w ≤ n then 0 else a <<< n) = shlRule w a.toNat n := by
  unfold shlRule
  refine congrArg _ (BitVec.eq_of_toNat_eq ?_)
  rw [BitVec.toNat_shiftLeft, BitVec.toNat_ofNat, Nat.shiftLeft_eq]

theorem ushiftRight_eq_shrRule {w : Nat} (a : BitVec w) (n : Nat) : (if w ≤ n then 0 else a >>> n) = shrRule w a.toNat n := by
  unfold shrRule
  refine congrArg _ (BitVec.eq_of_toNat_eq ?_)
  rw [BitVec.toNat_ushiftRight, BitVec.toNat_ofNat, Nat.shiftRight_eq_div_pow,
    Nat.mod_eq_of_lt (Nat.lt_of_le_of_lt (Nat.div_le_self _ _) a.isLt)]

/-- Bit i of a signed shift right: past the highest bit, the sign. -/
theorem getLsbD_sshiftRight_min {w : Nat} (a : BitVec w) (n : Nat) {i : Nat} (hi : i < w) :
    (a.sshiftRight n).getLsbD i = a.getLsbD (min (n + i) (w - 1)) := by
  rw [BitVec.getLsbD_sshiftRight, decide_eq_false (Nat.not_le.2 hi), Bool.not_false, Bool.true_and, BitVec.msb_eq_getLsbD_last]
  split
  · rw [Nat.min_eq_left (by omega)]
  · rw [Nat.min_eq_right (by omega)]

theorem sshiftRight_eq_sarRule {w : Nat} (a : BitVec w) (n : Nat) :
    a.sshiftRight (if w ≤ n then w - 1 else n) = sarRule w a.toInt n := by
  unfold sarRule
  by_cases hn : w ≤ n
  · rw [if_pos hn, if_pos hn]
    have signs : ∀ i, i < w → (a.sshiftRight (w - 1)).getLsbD i = decide (a.toInt < 0) := fun i hi => by
      rw [getLsbD_sshiftRight_min a _ hi, Nat.min_eq_right (by omega), ← BitVec.msb_eq_getLsbD_last, BitVec.msb_eq_toInt]
    refine BitVec.eq_of_getLsbD_eq fun i hi => (signs i hi).trans ?_
    split <;> simp [*]
  · rw [if_neg hn, if_neg hn, BitVec.sshiftRight, Int.shiftRight_eq_div_pow]
    simp

end Sys2Proof.Machine
end

section
/-!
PROOFS. The functions of the integer, logic, bit-field and byte instructions are the r of their rows (07 R148, R149).
-/
namespace Sys2Proof.Machine

/-! ## Products and sums -/

theorem mulHiS_eq (a b : Word) : mulHiS a b = BitVec.ofInt 32 (a.toInt * b.toInt / 2 ^ 32) := hi32_ofInt _

theorem mulHiU_eq (a b : Word) : mulHiU a b = BitVec.ofNat 32 (a.toNat * b.toNat / 2 ^ 32) := by
  have product : a.setWidth 64 * b.setWidth 64 = BitVec.ofInt 64 ((a.toNat * b.toNat : Nat) : Int) := by
    rw [BitVec.ofInt_natCast, BitVec.ofNat_mul, BitVec.ofNat_toNat, BitVec.ofNat_toNat]
  rw [mulHiU, product, hi32_ofInt, ← BitVec.ofInt_natCast]
  norm_cast

theorem mulAdd_eq (a b c : Word) : a * b + c = BitVec.ofNat 32 (a.toNat * b.toNat + c.toNat) := by
  rw [BitVec.ofNat_add, BitVec.ofNat_mul, BitVec.ofNat_toNat, BitVec.ofNat_toNat, BitVec.ofNat_toNat, BitVec.setWidth_eq,
    BitVec.setWidth_eq, BitVec.setWidth_eq]

theorem mulAddWideS_eq (a b : Word) (c : BitVec 64) :
    a.signExtend 64 * b.signExtend 64 + c = BitVec.ofInt 64 (a.toInt * b.toInt + c.toNat) := by
  rw [BitVec.ofInt_add, BitVec.ofInt_mul, BitVec.ofInt_natCast, BitVec.ofNat_toNat, BitVec.setWidth_eq]
  rfl

theorem mulAddWideU_eq (a b : Word) (c : BitVec 64) :
    a.setWidth 64 * b.setWidth 64 + c = BitVec.ofNat 64 (a.toNat * b.toNat + c.toNat) := by
  rw [BitVec.ofNat_add, BitVec.ofNat_mul, BitVec.ofNat_toNat, BitVec.ofNat_toNat, BitVec.ofNat_toNat, BitVec.setWidth_eq]

/-- A sum of four byte products and an addend. -/
theorem idp4_eq (ext : Byte → Int) (a b c : Word) :
    idp4 ext a b c =
      BitVec.ofInt 32 (c.toNat + ((List.range 4).map fun i => ext (byteAtWord a i) * ext (byteAtWord b i)).sum) := by
  rw [idp4, w32, ← List.sum_eq_foldl]
  rfl

theorem idp4u_eq (a b c : Word) :
    idp4 (fun x => (x.toNat : Int)) a b c =
      BitVec.ofNat 32 (c.toNat + ((List.range 4).map fun i => (byteAtWord a i).toNat * (byteAtWord b i).toNat).sum) := by
  rw [idp4_eq, ← BitVec.ofInt_natCast]
  push_cast [List.map_map, Function.comp_def]
  rfl

/-! ## Minimum, maximum, magnitude and division -/

theorem mins_eq (a b : Word) : (if b.slt a then b else a) = BitVec.ofInt 32 (min a.toInt b.toInt) := by
  rw [Int.min_def, apply_ite (BitVec.ofInt 32), BitVec.ofInt_toInt, BitVec.ofInt_toInt]
  simp only [BitVec.slt_iff_toInt_lt, ← Int.not_le, ite_not]

theorem maxs_eq (a b : Word) : (if a.slt b then b else a) = BitVec.ofInt 32 (max a.toInt b.toInt) := by
  rw [Int.max_comm, Int.max_def, apply_ite (BitVec.ofInt 32), BitVec.ofInt_toInt, BitVec.ofInt_toInt]
  simp only [BitVec.slt_iff_toInt_lt, ← Int.not_le, ite_not]

theorem minu_eq (a b : Word) : (if b.ult a then b else a) = BitVec.ofNat 32 (min a.toNat b.toNat) := by
  rw [Nat.min_def, apply_ite (BitVec.ofNat 32), BitVec.ofNat_toNat, BitVec.ofNat_toNat, BitVec.setWidth_eq, BitVec.setWidth_eq]
  simp only [BitVec.ult_iff_lt, BitVec.lt_def, ← Nat.not_le, ite_not]

theorem maxu_eq (a b : Word) : (if a.ult b then b else a) = BitVec.ofNat 32 (max a.toNat b.toNat) := by
  rw [Nat.max_comm, Nat.max_def, apply_ite (BitVec.ofNat 32), BitVec.ofNat_toNat, BitVec.ofNat_toNat, BitVec.setWidth_eq,
    BitVec.setWidth_eq]
  simp only [BitVec.ult_iff_lt, BitVec.lt_def, ← Nat.not_le, ite_not]

theorem abs32_eq (a : Word) : abs32 a = BitVec.ofNat 32 a.toInt.natAbs := by
  rw [abs32, BitVec.msb_eq_toInt, ← BitVec.ofInt_natCast]
  by_cases h : a.toInt < 0
  · rw [decide_eq_true h, if_pos rfl, Int.ofNat_natAbs_of_nonpos (Int.le_of_lt h), BitVec.ofInt_neg, BitVec.ofInt_toInt]
  · rw [decide_eq_false h, if_neg Bool.false_ne_true, Int.natAbs_of_nonneg (Int.not_lt.1 h), BitVec.ofInt_toInt]

theorem divU_eq (a b : Word) : divU a b = if b = 0 then 0xFFFFFFFF else BitVec.ofNat 32 (a.toNat / b.toNat) := by
  rw [divU, BitVec.udiv_def]
  rfl

theorem remU_eq (a b : Word) : remU a b = if b = 0 then a else BitVec.ofNat 32 (a.toNat % b.toNat) := by
  rw [remU, BitVec.umod_def]

/-! ## Logic, rotation and bit counts -/

theorem and_eq_bitsOf (a b : Word) : a &&& b = bitsOf fun i => a.getLsbD i && b.getLsbD i :=
  eq_bitsOf fun _ _ => BitVec.getLsbD_and

theorem or_eq_bitsOf (a b : Word) : a ||| b = bitsOf fun i => a.getLsbD i || b.getLsbD i :=
  eq_bitsOf fun _ _ => BitVec.getLsbD_or

theorem xor_eq_bitsOf (a b : Word) : a ^^^ b = bitsOf fun i => a.getLsbD i != b.getLsbD i :=
  eq_bitsOf fun _ _ => BitVec.getLsbD_xor

theorem andNot_eq_bitsOf (a b : Word) : a &&& ~~~b = bitsOf fun i => a.getLsbD i && !b.getLsbD i :=
  eq_bitsOf fun i hi => by rw [BitVec.getLsbD_and, BitVec.getLsbD_not, decide_eq_true hi, Bool.true_and]

theorem rotl32_eq_bitsOf (a b : Word) : rotl32 a b = bitsOf fun i => a.getLsbD ((i + 32 - b.toNat % 32) % 32) := by
  refine eq_bitsOf fun i hi => ?_
  rw [rotl32, BitVec.getLsbD_rotateLeft, Nat.mod_mod]
  by_cases h : i < b.toNat % 32
  · rw [decide_eq_true h, cond_true]
    congr 1
    omega
  · rw [decide_eq_false h, cond_false, decide_eq_true hi, Bool.true_and]
    congr 1
    omega

theorem leadZeros_eq (a : Word) :
    BitVec.ofNat 32 (leadZeros 32 a.toNat) = BitVec.ofNat 32 ((List.range 32).countP fun k => decide (a.toNat < 2 ^ k)) := by
  rw [countP_lt_two_pow, leadZeros]

theorem popCount_eq (a : Word) :
    BitVec.ofNat 32 (popCount 32 a.toNat) = BitVec.ofNat 32 ((List.range 32).countP fun k => a.getLsbD k) := by
  rw [popCount_eq_countP]
  rfl

theorem revBits_eq_bitsOf (a : Word) : BitVec.ofNat 32 (revBits 32 a.toNat) = bitsOf fun i => a.getLsbD (31 - i) :=
  eq_bitsOf fun i hi => by
    rw [BitVec.getLsbD_ofNat, testBit_revBits, decide_eq_true hi, Bool.true_and, Bool.true_and]
    rfl

/-! ## Fields (R149) -/

theorem fieldLen_eq (ctl : Word) : fieldLen ctl = ctlLen ctl := by
  unfold fieldLen ctlLen
  split <;> omega

theorem getLsbD_lowMask (n : Nat) {i : Nat} (hi : i < 32) : (lowMask n).getLsbD i = decide (i < n) := by
  rw [lowMask, BitVec.getLsbD_ofNat, Nat.testBit_two_pow_sub_one, decide_eq_true hi, Bool.true_and]

theorem bfeuOf_eq (a ctl : Word) : bfeuOf a ctl = bfeuRule a ctl := by
  refine eq_bitsOf fun i hi => ?_
  rw [bfeuOf, BitVec.getLsbD_and, BitVec.getLsbD_ushiftRight, getLsbD_lowMask _ hi, fieldLen_eq, Bool.and_comm]
  rfl

theorem bfesOf_eq (a ctl : Word) : bfesOf a ctl = bfesRule a ctl := by
  refine eq_bitsOf fun i hi => ?_
  rw [bfesOf, fieldLen_eq]
  by_cases h0 : ctlLen ctl = 0
  · simp [h0]
  · have hle : ctlLen ctl ≤ 32 := Nat.min_le_right _ _
    rw [if_neg h0, bne_iff_ne.2 h0, Bool.true_and, getLsbD_sshiftRight_min _ _ hi, BitVec.getLsbD_shiftLeft,
      decide_eq_true (by omega), decide_eq_false (by omega), Bool.not_false, Bool.true_and, Bool.true_and,
      getLsbD_sshiftRight_min _ _ (by omega)]
    congr 1
    unfold ctlPos fieldPos
    omega

theorem bfiOf_eq (a b ctl : Word) : bfiOf a b ctl = bfiRule a b ctl := by
  refine eq_bitsOf fun i hi => ?_
  have hpos : fieldPos ctl = ctlPos ctl := rfl
  simp only [bfiOf, BitVec.getLsbD_or, BitVec.getLsbD_and, BitVec.getLsbD_not, BitVec.getLsbD_shiftLeft, fieldLen_eq, hpos,
    decide_eq_true hi, Bool.true_and, getLsbD_lowMask _ (Nat.lt_of_le_of_lt (Nat.sub_le i _) hi)]
  by_cases hlow : i < ctlPos ctl
  · simp [hlow, Nat.not_le.2 hlow]
  · have hin : (i - ctlPos ctl < ctlLen ctl) ↔ i < ctlPos ctl + ctlLen ctl := by omega
    by_cases hhigh : i < ctlPos ctl + ctlLen ctl <;> simp [hlow, Nat.not_lt.1 hlow, hin, hhigh]

/-! ## Bytes and funnels (R149) -/

/-- The byte that the low three bits of a selector name among those of b:a. -/
theorem extractLsb'_append_byte (a b : Word) {k : Nat} (hk : k < 8) :
    (b ++ a : BitVec 64).extractLsb' (8 * k) 8 = if k < 4 then byteAtWord a k else byteAtWord b (k - 4) := by
  refine BitVec.eq_of_getLsbD_eq fun j hj => ?_
  rw [BitVec.getLsbD_extractLsb', BitVec.getLsbD_append]
  split
  · rw [if_pos (by omega), byteAtWord, BitVec.getLsbD_extractLsb']
  · rw [if_neg (by omega), byteAtWord, BitVec.getLsbD_extractLsb']
    congr 2
    omega

/-- Bit j of a byte that BYSEL chooses. -/
theorem getLsbD_byselByte (a b : Word) {sel j : Nat} (hsel : sel < 32) (hj : j < 8) :
    (byselByte (b ++ a) sel).getLsbD j =
      let y : Byte := if sel % 8 < 4 then byteAtWord a (sel % 8) else byteAtWord b (sel % 8 - 4)
      if sel / 8 = 0 then y.getLsbD j
      else if sel / 8 = 1 then false
      else if sel / 8 = 2 then y.getLsbD 7
      else y.getLsbD (7 - j) := by
  have hkind : sel / 8 = 0 ∨ sel / 8 = 1 ∨ sel / 8 = 2 ∨ sel / 8 = 3 := by omega
  rw [byselByte, extractLsb'_append_byte a b (Nat.mod_lt sel (by decide))]
  generalize (if sel % 8 < 4 then byteAtWord a (sel % 8) else byteAtWord b (sel % 8 - 4)) = y
  rcases hkind with h | h | h | h
  · simp [h]
  · simp [h]
  · have ones : (0xFF : Byte).getLsbD j = true := by
      rw [show (0xFF : Byte) = BitVec.allOnes 8 from rfl, BitVec.getLsbD_allOnes, decide_eq_true hj]
    simp only [h, BitVec.msb_eq_getLsbD_last]
    cases y.getLsbD 7
    · exact BitVec.getLsbD_zero
    · exact ones
  · simp only [h]
    rw [BitVec.getLsbD_reverse, BitVec.getMsbD, decide_eq_true hj, Bool.true_and]
    rfl

/-- Bit i of four bytes in a row, lowest last. -/
theorem getLsbD_append_bytes (x : Nat → Byte) {i : Nat} (hi : i < 32) :
    (x 3 ++ x 2 ++ x 1 ++ x 0 : Word).getLsbD i = (x (i / 8)).getLsbD (i % 8) := by
  have hbyte : i / 8 = 0 ∨ i / 8 = 1 ∨ i / 8 = 2 ∨ i / 8 = 3 := by omega
  rw [BitVec.getLsbD_append, BitVec.getLsbD_append, BitVec.getLsbD_append]
  rcases hbyte with h | h | h | h
  · rw [if_pos (by omega), h, show i % 8 = i by omega]
  · rw [if_neg (by omega), if_pos (by omega), h, show i % 8 = i - 8 by omega]
  · rw [if_neg (by omega), if_neg (by omega), if_pos (by omega), h, show i % 8 = i - 8 - 8 by omega]
  · rw [if_neg (by omega), if_neg (by omega), if_neg (by omega), h, show i % 8 = i - 8 - 8 - 8 by omega]

/-- The five bits of selector n. -/
theorem bits_selector (c n : Nat) : bits c (5 * n + 4) (5 * n) = c / 2 ^ (5 * n) % 32 := by
  rw [bits, show 5 * n + 4 + 1 - 5 * n = 5 by omega]
  exact congrArg (· % 32) (Nat.shiftRight_eq_div_pow c (5 * n))

theorem getLsbD_byselOf (a b c : Word) {i : Nat} (hi : i < 32) :
    (byselOf a b c).getLsbD i = (byselByte (b ++ a) (c.toNat / 2 ^ (5 * (i / 8)) % 32)).getLsbD (i % 8) := by
  rw [← bits_selector]
  exact getLsbD_append_bytes (fun n => byselByte (b ++ a) (bits c.toNat (5 * n + 4) (5 * n))) hi

theorem byselOf_eq (a b c : Word) : byselOf a b c = byselRule a b c := by
  refine eq_bitsOf fun i hi => (getLsbD_byselOf a b c hi).trans ?_
  exact getLsbD_byselByte a b (Nat.mod_lt _ (by decide)) (Nat.mod_lt _ (by decide))

theorem fshrOf_eq (a b c : Word) : fshrOf a b c = fshrRule a b c := by
  refine eq_bitsOf fun i hi => ?_
  rw [fshrOf, BitVec.getLsbD_extractLsb', BitVec.getLsbD_ushiftRight, BitVec.getLsbD_append, decide_eq_true hi, Bool.true_and,
    Nat.zero_add, Nat.add_comm]

end Sys2Proof.Machine
end

section
/-!
PROOFS. The integer, logic, bit-field and byte instructions (07 R148, R149): what each shape of operands (R145) computes, and the
statement.
-/
namespace Sys2Proof.Machine

/-! ## Shapes of operands (R145)

Where an instruction's meaning is its shape with a function r, and r is the f of its row, the instruction gives f. -/

/-- An instruction whose meaning is one use of `alu`, and whose result is the k registers from d on, computes what its function
gives. -/
theorem computes_of_writes {i : Instr} {h : Hdr} {u : Bool} {d k al : Nat} {f : Crew → Nat → Nat → List Word × BitVec 5}
    (hi : ∀ s, exec i s = asGang s fun c g => s.setCrew (c.alu g h u d (f c g))) (hk : ∀ c g l, (f c g l).1.length = k)
    (hw : i.uses.writes = [⟨u, d, k, al⟩]) : Computes i h u d f := by
  refine computes_of_alu hi fun hu s uid g c hs l => ?_
  rw [hk]
  exact results_fit hs (hw ▸ List.mem_singleton.2 rfl) hu

theorem un_of_exec {mk : DA → Instr} {r f : Word → Word} (hr : ∀ a, r a = f a)
    (hi : ∀ o s, exec (mk o) s = unary s o fun a => quiet [r a]) (hu : ∀ o, (mk o).uses = o.uses) : Un mk f := by
  obtain rfl : r = f := funext hr
  exact fun o => computes_of_writes (hi o) (fun _ _ _ => rfl) (congrArg Uses.writes (hu o))

theorem bin_of_exec {mk : DAB → Instr} {r f : Word → Word → Word} (hr : ∀ a b, r a b = f a b)
    (hi : ∀ o s, exec (mk o) s = binary s o fun a b => quiet [r a b]) (hu : ∀ o, (mk o).uses = o.uses) : Bin mk f := by
  obtain rfl : r = f := funext fun a => funext (hr a)
  exact fun o => computes_of_writes (hi o) (fun _ _ _ => rfl) (congrArg Uses.writes (hu o))

theorem tern_of_exec {mk : DABC → Instr} {r f : Word → Word → Word → Word} (hr : ∀ a b c, r a b c = f a b c)
    (hi : ∀ o s, exec (mk o) s = ternary s o fun a b c => quiet [r a b c]) (hu : ∀ o, (mk o).uses = o.uses) : Tern mk f := by
  obtain rfl : r = f := funext fun a => funext fun b => funext (hr a b)
  exact fun o => computes_of_writes (hi o) (fun _ _ _ => rfl) (congrArg Uses.writes (hu o))

theorem ternCi_of_exec {mk : DABCi → Instr} {r f : Word → Word → Word → Word} (hr : ∀ a b c, r a b c = f a b c)
    (hi : ∀ o s, exec (mk o) s = ternaryCi s o r) (hu : ∀ o, (mk o).uses = o.uses) : TernCi mk f := by
  obtain rfl : r = f := funext fun a => funext fun b => funext (hr a b)
  exact fun o => computes_of_writes (hi o) (fun _ _ _ => rfl) (congrArg Uses.writes (hu o))

theorem ternWide_of_exec {mk : DABC → Instr} {r f : Word → Word → BitVec 64 → BitVec 64} (hr : ∀ a b c, r a b c = f a b c)
    (hi : ∀ o s, exec (mk o) s = ternaryWide s o r) (hu : ∀ o, (mk o).uses = o.usesWide) : TernWide mk f := by
  obtain rfl : r = f := funext fun a => funext fun b => funext (hr a b)
  exact fun o => computes_of_writes (hi o) (fun _ _ _ => rfl) (congrArg Uses.writes (hu o))

theorem bin64_of_exec {mk : DAB → Instr} {r f : BitVec 64 → BitVec 64 → BitVec 64} (hr : ∀ a b, r a b = f a b)
    (hi : ∀ o s, exec (mk o) s = binary64 s o r) (hu : ∀ o, (mk o).uses = o.uses64) : Bin64 mk f := by
  obtain rfl : r = f := funext fun a => funext (hr a)
  exact fun o => computes_of_writes (hi o) (fun _ _ _ => rfl) (congrArg Uses.writes (hu o))

theorem bin64By32_of_exec {mk : DAB → Instr} {r f : BitVec 64 → Word → BitVec 64} (hr : ∀ a b, r a b = f a b)
    (hi : ∀ o s, exec (mk o) s = binary64by32 s o fun a b => quiet (words2 (r a b))) (hu : ∀ o, (mk o).uses = o.usesBy32) :
    Bin64By32 mk f := by
  obtain rfl : r = f := funext fun a => funext (hr a)
  exact fun o => computes_of_writes (hi o) (fun _ _ _ => rfl) (congrArg Uses.writes (hu o))

/-! ## The statement -/

/-- Settles O1, row by row: the meaning of an instruction is its shape of operands with one function, which is the r of its row. -/
theorem integerLogicAndBitFields : Obligations.IntegerLogicAndBitFields := by
  unfold Obligations.IntegerLogicAndBitFields
  refine ⟨?iadd, ?isub, ?imul, ?imulhs, ?imulhu, ?imad, ?imadws, ?imadwu, ?iadd64, ?isub64, ?imins, ?imaxs, ?iminu, ?imaxu, ?iabs,
    ?idivu, ?iremu, ?and, ?or, ?xor, ?andn, ?shl, ?shr, ?sar, ?rotl, ?shl64, ?shr64, ?sar64, ?clz, ?popc, ?brev, ?idp4s, ?idp4u,
    ?bfeu, ?bfes, ?bfi, ?bysel, ?fshr⟩
  case iadd => exact bin_of_exec BitVec.add_def (fun _ _ => rfl) fun _ => rfl
  case isub => exact bin_of_exec sub_eq_ofInt (fun _ _ => rfl) fun _ => rfl
  case imul => exact bin_of_exec (fun _ _ => BitVec.mul_def) (fun _ _ => rfl) fun _ => rfl
  case imulhs => exact bin_of_exec mulHiS_eq (fun _ _ => rfl) fun _ => rfl
  case imulhu => exact bin_of_exec mulHiU_eq (fun _ _ => rfl) fun _ => rfl
  case imad => exact tern_of_exec mulAdd_eq (fun _ _ => rfl) fun _ => rfl
  case imadws => exact ternWide_of_exec mulAddWideS_eq (fun _ _ => rfl) fun _ => rfl
  case imadwu => exact ternWide_of_exec mulAddWideU_eq (fun _ _ => rfl) fun _ => rfl
  case iadd64 => exact bin64_of_exec BitVec.add_def (fun _ _ => rfl) fun _ => rfl
  case isub64 => exact bin64_of_exec sub_eq_ofInt (fun _ _ => rfl) fun _ => rfl
  case imins => exact bin_of_exec mins_eq (fun _ _ => rfl) fun _ => rfl
  case imaxs => exact bin_of_exec maxs_eq (fun _ _ => rfl) fun _ => rfl
  case iminu => exact bin_of_exec minu_eq (fun _ _ => rfl) fun _ => rfl
  case imaxu => exact bin_of_exec maxu_eq (fun _ _ => rfl) fun _ => rfl
  case iabs => exact un_of_exec abs32_eq (fun _ _ => rfl) fun _ => rfl
  case idivu => exact bin_of_exec divU_eq (fun _ _ => rfl) fun _ => rfl
  case iremu => exact bin_of_exec remU_eq (fun _ _ => rfl) fun _ => rfl
  case and => exact bin_of_exec and_eq_bitsOf (fun _ _ => rfl) fun _ => rfl
  case or => exact bin_of_exec or_eq_bitsOf (fun _ _ => rfl) fun _ => rfl
  case xor => exact bin_of_exec xor_eq_bitsOf (fun _ _ => rfl) fun _ => rfl
  case andn => exact bin_of_exec andNot_eq_bitsOf (fun _ _ => rfl) fun _ => rfl
  case shl => exact bin_of_exec (fun a b => shiftLeft_eq_shlRule a b.toNat) (fun _ _ => rfl) fun _ => rfl
  case shr => exact bin_of_exec (fun a b => ushiftRight_eq_shrRule a b.toNat) (fun _ _ => rfl) fun _ => rfl
  case sar => exact bin_of_exec (fun a b => sshiftRight_eq_sarRule a b.toNat) (fun _ _ => rfl) fun _ => rfl
  case rotl => exact bin_of_exec rotl32_eq_bitsOf (fun _ _ => rfl) fun _ => rfl
  case shl64 => exact bin64By32_of_exec (fun a b => shiftLeft_eq_shlRule a b.toNat) (fun _ _ => rfl) fun _ => rfl
  case shr64 => exact bin64By32_of_exec (fun a b => ushiftRight_eq_shrRule a b.toNat) (fun _ _ => rfl) fun _ => rfl
  case sar64 => exact bin64By32_of_exec (fun a b => sshiftRight_eq_sarRule a b.toNat) (fun _ _ => rfl) fun _ => rfl
  case clz => exact un_of_exec leadZeros_eq (fun _ _ => rfl) fun _ => rfl
  case popc => exact un_of_exec popCount_eq (fun _ _ => rfl) fun _ => rfl
  case brev => exact un_of_exec revBits_eq_bitsOf (fun _ _ => rfl) fun _ => rfl
  case idp4s => exact tern_of_exec (idp4_eq BitVec.toInt) (fun _ _ => rfl) fun _ => rfl
  case idp4u => exact tern_of_exec idp4u_eq (fun _ _ => rfl) fun _ => rfl
  case bfeu => exact bin_of_exec bfeuOf_eq (fun _ _ => rfl) fun _ => rfl
  case bfes => exact bin_of_exec bfesOf_eq (fun _ _ => rfl) fun _ => rfl
  case bfi => exact ternCi_of_exec bfiOf_eq (fun _ _ => rfl) fun _ => rfl
  case bysel => exact ternCi_of_exec byselOf_eq (fun _ _ => rfl) fun _ => rfl
  case fshr => exact ternCi_of_exec fshrOf_eq (fun _ _ => rfl) fun _ => rfl

end Sys2Proof.Machine
end

section
/-!
PROOFS. Host requests (18 R344, R346): an AtomicOp reads its line at the home and then writes it, two accesses each of which may have to
wait there (16 R324), and what becomes of it when only the write must.
-/
namespace Sys2Proof.Machine

/-! ## An AtomicOp whose write waits -/

/-- Requests of peers and of collectives do not stand before an AtomicOp (R346). -/
theorem arrive_atomic_of_linkFree {s : State} (hs : s.LinkFree) (o : HostAtomic) (h : HostAt) (f : State → State) :
    s.arrive (.atomic o h) f = f s := by
  refine if_neg fun hahead => ?_
  obtain ⟨j, hj, hahead⟩ := List.any_eq_true.1 hahead
  rcases hs j hj with ⟨p, rfl⟩ | ⟨p, rfl⟩ <;> exact Bool.false_ne_true hahead

/-- An AtomicOp that has read its line and whose write must wait is held, unanswered, to be tried again as a whole. -/
theorem atomicTry_of_write_waits {s t w : State} {o : HostAtomic} {h : HostAt} {key old : Nat} (hkept : s.erasing ≠ some h.slot)
    (hkey : s.hostKeyOf h.slot = some key) (hread : s.hostReadN key h.all8 (hostAtomBytes o.op) = .ok old t)
    (hwrite : t.hostWriteN key h.all8 (hostAtomBytes o.op) (hostAtomApply o.op old) = .wait w) :
    s.atomicTry o h = (s.keepWaits w).holdInbound (.atomic o h) := by
  unfold State.atomicTry State.hostTry
  simp only [hkey, hread, hwrite, beq_eq_false_iff_ne.2 hkept, Bool.false_eq_true, if_false]

/-- The same of HOST_ATOMIC as it arrives, aligned to its width. -/
theorem exec_hostAtomic_of_write_waits {s t w : State} {o : HostAtomic} {h : HostAt} {key old : Nat}
    (haligned : o.off.toNat % hostAtomBytes o.op = 0) (hlink : s.LinkFree) (hat : s.hostAt o.off = h) (hkept : s.erasing ≠ some h.slot)
    (hkey : s.hostKeyOf h.slot = some key) (hread : s.hostReadN key h.all8 (hostAtomBytes o.op) = .ok old t)
    (hwrite : t.hostWriteN key h.all8 (hostAtomBytes o.op) (hostAtomApply o.op old) = .wait w) :
    exec (.hostAtomic o) s = .next ((s.keepWaits w).holdInbound (.atomic o h)) := by
  have hexec : exec (.hostAtomic o) s = .next (if o.off.toNat % hostAtomBytes o.op != 0 then s.hostRefuse
      else s.arrive (.atomic o (s.hostAt o.off)) (·.atomicTry o (s.hostAt o.off))) := rfl
  rw [hexec, hat, haligned, arrive_atomic_of_linkFree hlink, atomicTry_of_write_waits hkept hkey hread hwrite]
  rfl

/-! ## Two accesses that a move has queued

An access that a move has queued stands before every access to its line but those ahead of it in the queue. The read of an AtomicOp
leaves the queue once it is performed, so an access that stood behind it stands before the write. -/

/-- An access to a byte of the first line of memory, queued by a move. -/
def queuedByMove (ag : Agent) (a : Nat) : Waiting :=
  { agent := ag, ctx := 0, crew := 0, gang := 0, va := BitVec.ofNat 64 a, loc := a, key := 0, pa := a, epoch := 0, moved := true }

/-- The host's access to address 0, as it waits for its turn behind what a move has queued. -/
def hostBehind : Waiting := { queuedByMove .scafa 0 with moved := false }

/-- The machine after reset with accesses that still wait; no move is under way. -/
def afterMove (q : List Waiting) : State := { State.reset with waitq := q }

/-- Two such accesses to the first line: the host's at address 0, and behind it one of the trellis. -/
def hostThenTrellis : State := afterMove [queuedByMove .scafa 0, queuedByMove .trellis 0x40]

/-- The host's access to address 0 is first in the queue, so nothing makes it wait. -/
theorem hostReach_hostThenTrellis : hostThenTrellis.HostReach 0 4 0 0 where
  key := .inl ⟨rfl, rfl⟩
  first := fun _ h => absurd h List.not_mem_nil
  kept := nofun
  size := by decide
  dest := by decide
  free := by decide
  quiet := rfl

/-- It reads, and leaves the queue. -/
theorem hostReadN_hostThenTrellis : hostThenTrellis.hostReadN 0 0 4 = .ok 0 (afterMove [queuedByMove .trellis 0x40]) := by
  decide +kernel

/-- A write there waits for the trellis's access to the line, and joins the queue behind it. -/
theorem hostWriteN_behind_trellis : (afterMove [queuedByMove .trellis 0x40]).hostWriteN 0 0 4 5 =
    .wait (afterMove [queuedByMove .trellis 0x40, hostBehind]) := by
  decide +kernel

/-- There BAR2 offset 0 is address 0, with key slot 0. -/
theorem hostAt_hostThenTrellis : hostThenTrellis.hostAt 0 = ⟨0, 0⟩ := by
  simp [State.hostAt, State.bar2, hostThenTrellis, afterMove, State.reset, Bar0.reset]

/-- Of what waits there only the queue is kept: no recall is out. -/
theorem keepWaits_hostThenTrellis (q : List Waiting) : hostThenTrellis.keepWaits (afterMove q) = afterMove q := rfl

/-- A Swap there is held, its place in the queue now behind the trellis's access. -/
theorem exec_swap_held : exec (.hostAtomic ⟨0, .swap32 5⟩) hostThenTrellis =
    .next ((afterMove [queuedByMove .trellis 0x40, hostBehind]).holdInbound (.atomic ⟨0, .swap32 5⟩ ⟨0, 0⟩)) := by
  rw [← keepWaits_hostThenTrellis]
  exact exec_hostAtomic_of_write_waits rfl hostReach_hostThenTrellis.first hostAt_hostThenTrellis nofun rfl
    hostReadN_hostThenTrellis hostWriteN_behind_trellis

/-! ## The statement -/

/-- Refutes O52: by its clause on AtomicOps, one whose access goes now (`HostReach`) is performed and answered. Where two accesses to a
line that a move has queued still wait, the host's own first and the trellis's behind it, the access of a 32-bit Swap goes now; but its
read gives up the host's place in the queue, so its write stands behind the trellis's access, and the Swap joins the requests that wait,
which the clause leaves as they were. -/
theorem not_hostRequestsAndResetsAct : ¬Obligations.HostRequestsAndResetsAct := by
  unfold Obligations.HostRequestsAndResetsAct
  rintro ⟨-, -, hatomic, -⟩
  obtain ⟨t, u, hexec, ⟨hframe, -⟩, ht⟩ := hatomic hostThenTrellis ⟨0, .swap32 5⟩ 0 0 4 rfl rfl hostReach_hostThenTrellis
  have hperformed : t.inbound = [] := (congrArg State.inbound ht).trans (congrArg State.inbound hframe)
  have hheld : t = (afterMove [queuedByMove .trellis 0x40, hostBehind]).holdInbound (.atomic ⟨0, .swap32 5⟩ ⟨0, 0⟩) :=
    Host.Outcome.next.inj (hexec.symm.trans exec_swap_held)
  exact List.cons_ne_nil _ _ ((congrArg State.inbound hheld).symm.trans hperformed)

end Sys2Proof.Machine
end
